-- ==== Sys2Proof/Word.lean ====
section
/-! DEFINITION. The word types of the machine and their plainest arithmetic (R4, R5). -/

namespace Sys2Proof

abbrev Byte := BitVec 8
abbrev W16 := BitVec 16
abbrev W32 := BitVec 32
abbrev W64 := BitVec 64
abbrev W128 := BitVec 128
/-- A w register: 32 lanes of 32 bits (R150). -/
abbrev WReg := BitVec 1024

/-- The integer a word of width `w` stands for, signed (`true`) or unsigned. -/
def toZ (signed : Bool) {w : Nat} (x : BitVec w) : Int := if signed then x.toInt else (x.toNat : Int)

/-- Keep the low `w` bits of an integer (R8: conversion to a width keeps the low bits). -/
def ofZ (w : Nat) (z : Int) : BitVec w := BitVec.ofInt w z

/-- Bits `hi` down to `lo` of a word as a number. -/
def bits {w : Nat} (x : BitVec w) (hi lo : Nat) : Nat := (x.extractLsb' lo (hi + 1 - lo)).toNat

/-- Bit `i` of a word. -/
def bit {w : Nat} (x : BitVec w) (i : Nat) : Bool := x.getLsbD i

end Sys2Proof
end

