-- ==== Sys2Proof/Config.lean ====
section
/-! DEFINITION. What the part fixes (R1, R12, R14, R45, R57), and the values the spec leaves open: each of
those is an opaque constant with no body, so that a statement holds whatever it is (notes/assumptions/2.md). -/

namespace Sys2Proof.Config

/-- R12, R13: 4,096 cores, 1,024 arbors, 64 parterres, 4 dies. -/
def coreCount : Nat := 4096
/-- R14: bytes of a core's local store. -/
def lsSize : Nat := 262144
/-- R243: slots of an inbox. -/
def inboxSlots : Nat := 256
/-- R242: messages of a send queue. -/
def sendSlots : Nat := 8
/-- R211: entries of a store queue. -/
def storeSlots : Nat := 16
/-- R146: entries of a dispatch queue. -/
def wideSlots : Nat := 8
/-- R221: wait-queue entries of a Kiosk. -/
def waitEntries : Nat := 8192
/-- R20, R239: SRAM records of a Kiosk. -/
def sramRecords : Nat := 131072
/-- Lines of a coherency agent's 64 MiB (R271). -/
def agentLines : Nat := 2 ^ 20
/-- A number that no channel record has: dies and indices take 22 bits (R242). -/
def noRecord : Nat := 2 ^ 22
/-- R227: cards of an engine's on-die queue. -/
def cardQueue : Nat := 256
/-- R45: cycles of a matrix operation from its start. -/
def matrixCycles : Nat := 128
/-- R363: the first physical address above HBM, and the base of the device control space. -/
def hbmEnd : Nat := 0x00C000000000
def controlBase : Nat := 0xF000000000000
/-- R363: bytes of one HBM stack. -/
def stackBytes : Nat := 0x1000000000
/-- R393: cycles a Kiosk waits for a peer or host. -/
def remoteLimit : Nat := 2 ^ 24

/-! Free values: nothing in Lean can evaluate these. The argument is the machine's counter of draws. -/

/-- Cycles, beyond the first, until an event whose time the spec only bounds (R3, R58). -/
opaque freeDelay : Nat → Nat
/-- A choice the spec leaves open (R144, R196, R223). -/
opaque freeBit : Nat → Bool
/-- A 64-bit value the spec leaves open. -/
opaque freeWord : Nat → BitVec 64
/-- A w register the spec leaves open (R178). -/
opaque freeLanes : Nat → BitVec 1024
/-- A 64-byte line of a host's or a peer's memory, which is outside the machine (R269, R271). -/
opaque freeLine : Nat → BitVec 512
/-- The byte read at a physical address under key `key` when it was last sealed under `from_` (0: never): it
depends on no plaintext (R347, R365). -/
opaque unsealed (key addr from_ : Nat) : BitVec 8
/-- A page-table entry that lies in a peer's or a host's memory, at a cycle (R362 allows the frame of a table to name one). -/
opaque outsideEntry (id pa cyc : Nat) : BitVec 64
/-- The port, modulo 18, that leads to a host and to a peer device (R267, R271): the fabric's wiring. -/
opaque hostPort (host : BitVec 12) : Nat
opaque devicePort (device : BitVec 12) : Nat
/-- Draw n of the Lodge's random generator (R345, R361). -/
opaque drbg : Nat → BitVec 384
/-- SHA-384, as the spec names it and does not define it (R95, R375). -/
opaque sha384 : List (BitVec 8) → BitVec 384
/-- The versions of `jas` and `jld`, and the options in their tool records, of `jld` with its image base (R94): each a text of
one printable character or more, given by its distance from `!`. The spec gives neither. -/
opaque jasVersion : Fin 94 × List (Fin 94)
opaque jldVersion : Fin 94 × List (Fin 94)
opaque jasOptions : List (Fin 94 × List (Fin 94))
opaque jldOptions (base : Nat) : List (Fin 94 × List (Fin 94))
/-- HMAC-SHA-384 under a key derived from a link secret (R366). -/
opaque pageMac (secret : BitVec 384) (domain : BitVec 11) (addr version : BitVec 64) (data : List (BitVec 8)) : BitVec 384
/-- The AES-256-GCM check of a packet under the key of a source and generation (R368, R369). -/
opaque packetOk (secret : BitVec 384) (source : BitVec 16) (gen number : Nat) (data : List (BitVec 8)) (tag : BitVec 128) : Bool
/-- The executable file from which a gang's image was loaded: the one whose sections cover a virtual page (R69, R95, R379). How a
loader places an image in memory is outside the machine. -/
opaque imageAt (image page : Nat) : List (BitVec 8)
/-- RSASSA-PSS and SLH-DSA verification under a public key (R373, R374, R348). -/
opaque rsaOk (key : List (BitVec 8)) (data sig : List (BitVec 8)) : Bool
opaque slhOk (key : List (BitVec 8)) (data sig : List (BitVec 8)) : Bool
/-- The two signatures the Lodge makes with its identity keys (R377, R378), from the PUF seed. -/
opaque rsaSign (seed : BitVec 384) (data : List (BitVec 8)) : List (BitVec 8)
opaque slhSign (seed : BitVec 384) (data : List (BitVec 8)) : List (BitVec 8)
/-- The public keys derived from the PUF seed (R377). -/
opaque rsaPub (seed : BitVec 384) : List (BitVec 8)
opaque slhPub (seed : BitVec 384) : List (BitVec 8)
/-- The digest of the boot ROM, a constant of the ROM (R375), and the vendor's keys whose digest it holds (R374, R377). -/
opaque romDigest : BitVec 384
opaque vendorRsa : List (BitVec 8)
opaque vendorSlh : List (BitVec 8)
opaque enrolRsa : List (BitVec 8)
opaque enrolSlh : List (BitVec 8)
/-- What the bytes of an identity certificate name: device id, public keys, and the provisioning credential's two keys (R374, R377). -/
opaque certDevice (cert : List (BitVec 8)) : BitVec 12
opaque certRsaPub (cert : List (BitVec 8)) : List (BitVec 8)
opaque certSlhPub (cert : List (BitVec 8)) : List (BitVec 8)
opaque certProvRsa (cert : List (BitVec 8)) : List (BitVec 8)
opaque certProvSlh (cert : List (BitVec 8)) : List (BitVec 8)
/-- The fields that the body of a configuration blob holds (R376), by a layout that the spec does not give: device id, owner
credentials, ports to train, their CXL bits, refresh interval. -/
opaque blobDevice (body : List (BitVec 8)) : BitVec 12
opaque blobCredentials (body : List (BitVec 8)) : List (BitVec 384)
opaque blobPorts (body : List (BitVec 8)) : BitVec 18
opaque blobCxl (body : List (BitVec 8)) : BitVec 18
opaque blobRefresh (body : List (BitVec 8)) : BitVec 32
/-- Plaintext to sealed bytes of a page as sent to a host, and back (R365, R366). -/
opaque sealPage (key addr : Nat) (data : List (BitVec 8)) : List (BitVec 8)
opaque unsealPage (key addr : Nat) (data : List (BitVec 8)) : List (BitVec 8)
/-- The device link secret that port training establishes (R383). -/
opaque portSecret : Nat → BitVec 384
/-- The contents of the CXL configuration space, which the spec does not give (R268). -/
opaque cxlConfig : Nat → BitVec 32

end Sys2Proof.Config
end

