-- ==== Sys2Proof/Syntax.lean ====
section
/-! DEFINITION. The instructions and steps of the machine: one constructor of `Instr` per row of
spec/opcode_table.json. The rows that are forms of the 96-bit word carry `Ctl` (guard and hint) and their
operands; the rows that are steps of an agent carry what the step is about. -/

namespace Sys2Proof

/-- The phase hint (R50, R52); 0b11 is no value of it. -/
inductive PhaseHint where | any | compute | exchange
deriving DecidableEq, Repr

/-- Guard and hint of a word (R46, R49, R50). For XCAST the fields wait, set, sw and lu are the plan. -/
structure Ctl where
  neg : Bool
  q : BitVec 3
  delay : BitVec 4
  phase : PhaseHint
  wait : BitVec 4
  set : BitVec 2
  sw : Bool
  lu : Bool
deriving DecidableEq, Repr

/-- The plan of an XCAST: hint bits 7:0 (R50, R53). -/
def Ctl.plan (c : Ctl) : BitVec 8 := c.wait ++ c.set ++ BitVec.ofBool c.sw ++ BitVec.ofBool c.lu

/-- Integer formats, codes 0x1 to 0x8 of R63. -/
inductive IFmt where | i8 | i16 | i32 | i64 | n8 | n16 | n32 | n64
deriving DecidableEq, Repr

/-- Floating formats, codes 0x9 to 0xB of R63. -/
inductive FFmt where | f32 | f16 | bf16
deriving DecidableEq, Repr

/-- Codes 0x1 to 0xB: the formats conversions accept (R140). -/
inductive NFmt where | int (f : IFmt) | flt (f : FFmt)
deriving DecidableEq, Repr

/-- PX block formats, codes 0xC to 0xE of R63. -/
inductive PxFmt where | px2 | px4 | px7
deriving DecidableEq, Repr

/-- Matrix input formats (R168, R172). -/
inductive MFmt where | i8 | f16 | bf16 | px (f : PxFmt)
deriving DecidableEq, Repr

/-- Rounding codes 0x0 to 0x6 of R63. -/
inductive Rm where | rn | rz | ru | rd | ra | sr | dyn
deriving DecidableEq, Repr

/-- Rounding code with its saturate bit (R63). -/
structure RmSat where
  rm : Rm
  sat : Bool
deriving DecidableEq, Repr

/-- Integer relations (R124). -/
inductive Rel where | eq | ne | lt | le | gt | ge | ltn | len | gtn | gen | tst
deriving DecidableEq, Repr

/-- Floating relations (R124). -/
inductive FRel where | eq | ne | lt | le | gt | ge | un | ord
deriving DecidableEq, Repr

/-- Sign codes of FSGN (R139). -/
inductive SgnOp where | cp | neg | xor
deriving DecidableEq, Repr

/-- Policy codes (R63, R195). -/
inductive Policy where | home | skip | stream
deriving DecidableEq, Repr

/-- Scopes (R65, R185). -/
inductive Scope where | core | arbor | parterre | die | dev | sys
deriving DecidableEq, Repr

/-- Format of a global access: 16 bytes or an integer format (R209). -/
inductive MemFmt where | cap | int (f : IFmt)
deriving DecidableEq, Repr

/-- Formats of atomics (R215). -/
inductive AFmt where | i32 | i64 | n32 | n64 | f32 | f16 | bf16
deriving DecidableEq, Repr

/-- Operation codes of AMO and RED (R215). -/
inductive AmoOp where | swap | add | and | or | xor | min | max | fadd | fmin | fmax
deriving DecidableEq, Repr

/-- Formats of SWAIT (R220) and of the integer form of wide compares. -/
inductive WFmt where | i32 | i64 | n32 | n64
deriving DecidableEq, Repr

/-- A w operand: direct, or relative to a g register (R59, R60). -/
inductive WOp where
  | w (n : BitVec 6)
  | rel (idx : BitVec 4) (off : BitVec 6)
deriving DecidableEq, Repr

/-- The second source of a scalar form (R122). -/
inductive SrcZ where
  | imm (z : BitVec 32)
  | g (n : BitVec 6)
  | small (v : BitVec 12)
deriving DecidableEq, Repr

/-- A g register or a small immediate. -/
inductive GI where
  | g (n : BitVec 6)
  | small (v : BitVec 12)
deriving DecidableEq, Repr

/-- A w operand or a g register: operand b of a floating wide form (R154). -/
inductive WG where
  | w (o : WOp)
  | g (n : BitVec 6)
deriving DecidableEq, Repr

/-- Operand b of an integer wide form (R154). -/
inductive WGI where
  | w (o : WOp)
  | g (n : BitVec 6)
  | small (v : BitVec 12)
deriving DecidableEq, Repr

/-- What a VCMP compares (R157). -/
inductive VRel where
  | f32 (r : FRel)
  | i32 (r : Rel)
  | n32 (r : Rel)
deriving DecidableEq, Repr

/-- Formats of VRSUM with its rounding, and of VRMAX and VRMIN (R160). -/
inductive SumFmt where | f32 (rm : Rm) | i32 | n32
deriving DecidableEq, Repr
inductive MaxFmt where | f32 | i32 | n32
deriving DecidableEq, Repr

/-- Operand of the context form of RDS and WRS (R407). -/
inductive CtxReg where
  | g (n : BitVec 6)
  | m (n : BitVec 3)
  | q (n : BitVec 3)
  | s (n : BitVec 9)
deriving DecidableEq, Repr

/-- Payload operand of SEND (R258): `len` is N/4 - 1. -/
inductive Payload where
  | g (n : BitVec 6)
  | small (v : BitVec 12)
  | w (o : WOp) (len : BitVec 4)
deriving DecidableEq, Repr

/-- Destination of RECV and TRYRECV (R259). -/
inductive RDst where
  | g (n : BitVec 6)
  | w (o : WOp)
deriving DecidableEq, Repr

/-- Role operand of ROLEQ (R298). -/
inductive RoleOp where
  | role (r : BitVec 12)
  | g (n : BitVec 6)
deriving DecidableEq, Repr

/-! ## What the agents' steps are about -/

/-- Where a SEND's predicate lands: core, context, predicate, scoreboard counter (R258), and the cycle the SEND issued in (R56); the
gang that sent it; and the posted operations that came before the SEND in program order (R199). -/
structure AckTo where
  gang : Nat
  core : Nat
  ctx : Nat
  q : BitVec 3
  sb : BitVec 2
  issued : Nat
  after : List Nat
deriving DecidableEq, Repr

/-- A message (R242). `record` is die × 2^20 + index; `ack` says where the sender's predicate lands. -/
structure Msg where
  device : BitVec 12
  record : Nat
  len : BitVec 7
  closure : Bool
  forwarded : Bool
  holder : BitVec 3
  seq : BitVec 32
  key : BitVec 32
  payload : BitVec 512
  carried : Option (BitVec 128)
  ack : Option AckTo
deriving DecidableEq, Repr

/-- What a record learns when an end of its channel closes (R252, R253): the marker of a send end, with its final sequence where the
closing device has it; or that the receive end has closed on another device, with the messages of an inbox that were discarded there. -/
inductive Closing where
  | marker (final : Option (BitVec 32))
  | receiver (device : BitVec 12) (discarded : Nat)
deriving DecidableEq, Repr

/-- Why an operation to a peer or host was refused (R393). -/
inductive RefuseWhy where | noAnswer | errorCompletion | pageAway
deriving DecidableEq, Repr

/-- A host's token post (R276). -/
structure TokenMsg where
  type : BitVec 8
  reserved : Bool
  domain : BitVec 16
  count : BitVec 16
  source : BitVec 16
  node : BitVec 64
  tag : BitVec 64
deriving DecidableEq, Repr

/-- A register or byte range the debugger reads or writes (R414). -/
inductive DbgTarget where
  | g (n : BitVec 6)
  | q (n : BitVec 3)
  | m (n : BitVec 3)
  | w (n : BitVec 6)
  | s (n : BitVec 9)
  | ls (off : BitVec 18) (len : BitVec 8)
deriving DecidableEq, Repr

/-- A host's access to device memory, through CXL.mem or by native fabric (R274, R277): `hold` asks for a cached copy of the line,
`counters` says that a telemetry read is one of fabric counters. -/
structure HostReq where
  source : BitVec 16
  cxl : Bool
  write : Bool
  atomic : Bool
  hold : Bool
  addr : BitVec 52
  domain : BitVec 11
  data : List Byte
  len : Nat
  telemetry : Bool
  counters : Bool
deriving DecidableEq, Repr

/-- A range of device memory that the owner exposes to CXL.mem, for one domain (R268, R274). -/
structure HdmRange where
  base : BitVec 52
  len : BitVec 52
  domain : BitVec 11
deriving DecidableEq, Repr

/-- A CXL.io request to the configuration space: its register, and the range that a write of the owner's exposes there (R268). -/
structure CxlIo where
  reg : BitVec 12
  expose : Option HdmRange
deriving DecidableEq, Repr

/-- An operation of the AMO and SYNC classes on a line of another device: AMO and RED, CAS, FSET, FCLR (R217, R220). -/
inductive PeerOp where
  | amo (f : AFmt) (op : AmoOp)
  | cas (f : AFmt)
  | fset
  | fclr
deriving DecidableEq, Repr
/-- An atomic that a context of a peer device sends, with what its result entry is kept by (R269, R394). -/
structure PeerAtomic where
  op : PeerOp
  operand : BitVec 64
  compare : BitVec 64
  lcn : BitVec 32
  ctx : Nat
  seq : BitVec 16
deriving DecidableEq, Repr
/-- A peer device's memory request, under the peer's domain (R269). -/
structure PeerReq where
  device : BitVec 12
  domain : BitVec 11
  write : Bool
  atomic : Option PeerAtomic
  addr : BitVec 52
  data : List Byte
  len : Nat
deriving DecidableEq, Repr

/-- A packet on a protected link (R368, R369), under the link secret of a domain, or of the device for Lodge messages and token
posts. -/
structure Packet where
  port : BitVec 5
  source : BitVec 16
  domain : Option (BitVec 11)
  parity : Bool
  number : Nat
  data : List Byte
  tag : BitVec 128
deriving DecidableEq, Repr

/-- Two public keys and two signatures (R348, R349). -/
structure Signed where
  rsaKey : List Byte
  slhKey : List Byte
  rsaSig : List Byte
  slhSig : List Byte
deriving DecidableEq, Repr

/-- A stage image in flash (R373): the bytes that both signatures cover, header and body, and the signatures. -/
structure StageImage where
  bytes : List Byte
  rsaSig : List Byte
  slhSig : List Byte
deriving DecidableEq, Repr

/-- The fields of the configuration blob (R376). -/
structure Blob where
  deviceId : BitVec 12
  credentials : List (BitVec 384)
  portMask : BitVec 18
  portCxl : BitVec 18
  refresh : BitVec 32
deriving DecidableEq, Repr

/-- What the board holds at power-up: the PUF seed, the identity certificate with its two signatures, and the flash images (R372 to
R377). -/
structure Flash where
  seed : BitVec 384
  certData : List Byte
  certRsaSig : List Byte
  certSlhSig : List Byte
  blob : StageImage
  lodge : StageImage
  manager : StageImage
  pllLocked : Bool
  managersReady : Bool
deriving DecidableEq, Repr

/-- A domain request (R345): the 128-byte record and the tags of its three capabilities. -/
structure DomainReq where
  record : BitVec 1024
  tags : BitVec 3
deriving DecidableEq, Repr

/-- Where an off-core reference's reply lands (R25): a context of a core. -/
structure CtxAt where
  core : Nat
  ctx : Nat
deriving DecidableEq, Repr

/-- The instructions and steps: one constructor per row of the opcode table. -/
inductive Instr where
  -- SYS (R404)
  | nop (c : Ctl)
  | trap (c : Ctl) (code : BitVec 6) (v : GI)
  | eretRetry (c : Ctl) (qd : BitVec 3) (ctx : BitVec 4)
  | eretSkip (c : Ctl) (qd : BitVec 3) (ctx : BitVec 4)
  | eretExit (c : Ctl) (qd : BitVec 3) (ctx : BitVec 4)
  | rds (c : Ctl) (d : BitVec 6) (src : BitVec 9)
  | rdsContext (c : Ctl) (d : BitVec 6) (src : CtxReg) (ctx : BitVec 4)
  | wrs (c : Ctl) (dst : BitVec 9) (v : GI)
  | wrsContext (c : Ctl) (dst : CtxReg) (v : GI) (ctx : BitVec 4)
  | retarm (c : Ctl) (d : BitVec 6) (ctx : BitVec 4)
  | scall (c : Ctl) (d e b : BitVec 6) (service : GI)
  -- BR (R126)
  | bra (c : Ctl) (off : BitVec 32)
  | brx (c : Ctl) (t : BitVec 6)
  | callRelative (c : Ctl) (l : BitVec 6) (off : BitVec 32)
  | callRegister (c : Ctl) (l t : BitVec 6)
  | ret (c : Ctl) (l : BitVec 6)
  | loop (c : Ctl) (n : BitVec 6) (off : BitVec 32)
  -- IALU (R131)
  | add (c : Ctl) (d a : BitVec 6) (b : SrcZ)
  | sub (c : Ctl) (d a : BitVec 6) (b : SrcZ)
  | and (c : Ctl) (d a : BitVec 6) (b : SrcZ)
  | or (c : Ctl) (d a : BitVec 6) (b : SrcZ)
  | xor (c : Ctl) (d a : BitVec 6) (b : SrcZ)
  | andn (c : Ctl) (d a : BitVec 6) (b : SrcZ)
  | shl (c : Ctl) (d a : BitVec 6) (b : SrcZ)
  | shr (c : Ctl) (d a : BitVec 6) (b : SrcZ)
  | sar (c : Ctl) (d a : BitVec 6) (b : SrcZ)
  | rot (c : Ctl) (d a : BitVec 6) (b : SrcZ)
  | min (c : Ctl) (d a : BitVec 6) (b : SrcZ)
  | max (c : Ctl) (d a : BitVec 6) (b : SrcZ)
  | minn (c : Ctl) (d a : BitVec 6) (b : SrcZ)
  | maxn (c : Ctl) (d a : BitVec 6) (b : SrcZ)
  -- IMUL (R132)
  | mul (c : Ctl) (d a : BitVec 6) (b : SrcZ)
  | mulh (c : Ctl) (d a : BitVec 6) (b : SrcZ)
  | mulhn (c : Ctl) (d a : BitVec 6) (b : SrcZ)
  | div (c : Ctl) (d a : BitVec 6) (b : SrcZ)
  | divn (c : Ctl) (d a : BitVec 6) (b : SrcZ)
  | rem (c : Ctl) (d a : BitVec 6) (b : SrcZ)
  | remn (c : Ctl) (d a : BitVec 6) (b : SrcZ)
  -- IBIT (R133, R134)
  | clz (c : Ctl) (d a : BitVec 6)
  | ctz (c : Ctl) (d a : BitVec 6)
  | popc (c : Ctl) (d a : BitVec 6)
  | bfx (c : Ctl) (d a : BitVec 6) (p n : GI)
  | bfxs (c : Ctl) (d a : BitVec 6) (p n : GI)
  | bfi (c : Ctl) (d a : BitVec 6) (p n : GI)
  | brev (c : Ctl) (d a : BitVec 6)
  | ext (c : Ctl) (d : BitVec 6) (f : IFmt) (a : BitVec 6)
  -- IMM (R135)
  | movi (c : Ctl) (d : BitVec 6) (z : BitVec 32)
  | movh (c : Ctl) (d : BitVec 6) (z : BitVec 32)
  -- CMP (R136)
  | cmp (c : Ctl) (qd : BitVec 3) (r : Rel) (a : BitVec 6) (b : SrcZ)
  | sel (c : Ctl) (d : BitVec 6) (qs : BitVec 3) (a b : BitVec 6)
  | pand (c : Ctl) (qd qa qb : BitVec 3)
  | por (c : Ctl) (qd qa qb : BitVec 3)
  | pnot (c : Ctl) (qd qa : BitVec 3)
  -- FPU (R138, R139, R140)
  | fadd (c : Ctl) (f : FFmt) (rm : Rm) (d a b : BitVec 6)
  | fsub (c : Ctl) (f : FFmt) (rm : Rm) (d a b : BitVec 6)
  | fmul (c : Ctl) (f : FFmt) (rm : Rm) (d a b : BitVec 6)
  | ffma (c : Ctl) (f : FFmt) (rm : Rm) (d a b e : BitVec 6)
  | fdiv (c : Ctl) (f : FFmt) (rm : Rm) (d a b : BitVec 6)
  | fsqrt (c : Ctl) (f : FFmt) (rm : Rm) (d a : BitVec 6)
  | fmin (c : Ctl) (f : FFmt) (d a b : BitVec 6)
  | fmax (c : Ctl) (f : FFmt) (d a b : BitVec 6)
  | fcmp (c : Ctl) (f : FFmt) (r : FRel) (qd : BitVec 3) (a b : BitVec 6)
  | fclass (c : Ctl) (f : FFmt) (d a : BitVec 6)
  | fcvt (c : Ctl) (dst : NFmt) (rm : RmSat) (src : NFmt) (d a : BitVec 6)
  | fsgn (c : Ctl) (f : FFmt) (op : SgnOp) (d a b : BitVec 6)
  -- LMEM (R142)
  | ldl (c : Ctl) (f : IFmt) (d w : BitVec 6) (off : SrcZ)
  | stl (c : Ctl) (f : IFmt) (s w : BitVec 6) (off : SrcZ)
  -- CAP (R354)
  | cbound (c : Ctl) (d s : BitVec 6) (b : SrcZ)
  | cperm (c : Ctl) (d s : BitVec 6) (b : SrcZ)
  | cget (c : Ctl) (d s : BitVec 6) (sel : BitVec 3)
  | cderive (c : Ctl) (d s : BitVec 6) (b : SrcZ)
  | ctest (c : Ctl) (qd : BitVec 3) (s : BitVec 6) (k : BitVec 3)
  | cnull (c : Ctl) (d : BitVec 6)
  | cmove (c : Ctl) (d s : BitVec 6)
  -- VARITH (R155)
  | vadd (c : Ctl) (f : FFmt) (rm : Rm) (d a : WOp) (b : WG) (m : BitVec 3)
  | vsub (c : Ctl) (f : FFmt) (rm : Rm) (d a : WOp) (b : WG) (m : BitVec 3)
  | vmul (c : Ctl) (f : FFmt) (rm : Rm) (d a : WOp) (b : WG) (m : BitVec 3)
  | vfma (c : Ctl) (f : FFmt) (rm : Rm) (d : WOp) (a b : WG) (e : WOp) (m : BitVec 3)
  | vmin (c : Ctl) (f : FFmt) (d a : WOp) (b : WG) (m : BitVec 3)
  | vmax (c : Ctl) (f : FFmt) (d a : WOp) (b : WG) (m : BitVec 3)
  | vabs (c : Ctl) (f : FFmt) (d a : WOp) (m : BitVec 3)
  | vneg (c : Ctl) (f : FFmt) (d a : WOp) (m : BitVec 3)
  | vrcp (c : Ctl) (f : FFmt) (rm : Rm) (d a : WOp) (m : BitVec 3)
  | vrsq (c : Ctl) (f : FFmt) (rm : Rm) (d a : WOp) (m : BitVec 3)
  | vexp2 (c : Ctl) (f : FFmt) (rm : Rm) (d a : WOp) (m : BitVec 3)
  | vlog2 (c : Ctl) (f : FFmt) (rm : Rm) (d a : WOp) (m : BitVec 3)
  | vdiv (c : Ctl) (f : FFmt) (rm : Rm) (d a : WOp) (b : WG) (m : BitVec 3)
  -- VINT (R156)
  | viadd (c : Ctl) (f : IFmt) (d a : WOp) (b : WGI) (m : BitVec 3)
  | visub (c : Ctl) (f : IFmt) (d a : WOp) (b : WGI) (m : BitVec 3)
  | vimul (c : Ctl) (f : IFmt) (d a : WOp) (b : WGI) (m : BitVec 3)
  | vand (c : Ctl) (f : IFmt) (d a : WOp) (b : WGI) (m : BitVec 3)
  | vor (c : Ctl) (f : IFmt) (d a : WOp) (b : WGI) (m : BitVec 3)
  | vxor (c : Ctl) (f : IFmt) (d a : WOp) (b : WGI) (m : BitVec 3)
  | vshl (c : Ctl) (f : IFmt) (d a : WOp) (b : WGI) (m : BitVec 3)
  | vshr (c : Ctl) (f : IFmt) (d a : WOp) (b : WGI) (m : BitVec 3)
  | vsar (c : Ctl) (f : IFmt) (d a : WOp) (b : WGI) (m : BitVec 3)
  -- VMASK (R157, R158)
  | vcmp (c : Ctl) (r : VRel) (md : BitVec 3) (a : WOp) (b : WGI) (m : BitVec 3)
  | vsel (c : Ctl) (d a b : WOp) (m : BitVec 3)
  | mand (c : Ctl) (md ma mb : BitVec 3)
  | mor (c : Ctl) (md ma mb : BitVec 3)
  | mnot (c : Ctl) (md ma : BitVec 3)
  -- VPERM (R159)
  | vperm (c : Ctl) (d a i : WOp) (m : BitVec 3)
  | vshuf (c : Ctl) (d a b i : WOp) (m : BitVec 3)
  | vbcast (c : Ctl) (f : NFmt) (d : WOp) (s : GI) (m : BitVec 3)
  | vextr (c : Ctl) (d : BitVec 6) (a : WOp) (lane : BitVec 5)
  | vins (c : Ctl) (d : WOp) (s : GI) (lane : BitVec 5)
  -- VRED (R160)
  | vrsum (c : Ctl) (f : SumFmt) (d a : WOp) (m : BitVec 3)
  | vrmax (c : Ctl) (f : MaxFmt) (d a : WOp) (m : BitVec 3)
  | vrmin (c : Ctl) (f : MaxFmt) (d a : WOp) (m : BitVec 3)
  -- VCVT (R161, R162)
  | vcvt (c : Ctl) (dst : NFmt) (rm : RmSat) (src : NFmt) (d a : WOp) (m : BitVec 3)
  | vpxenc (c : Ctl) (px : PxFmt) (rm : Rm) (src : FFmt) (d a : WOp)
  | vpxdec (c : Ctl) (dst : FFmt) (rm : Rm) (px : PxFmt) (d a : WOp)
  -- VLMEM (R163)
  | vldlImmediate (c : Ctl) (d : WOp) (w : BitVec 6) (off : BitVec 32)
  | vldlRegister (c : Ctl) (d : WOp) (w : BitVec 6) (off : BitVec 12) (m : BitVec 3)
  | vstlImmediate (c : Ctl) (s : WOp) (w : BitVec 6) (off : BitVec 32)
  | vstlRegister (c : Ctl) (s : WOp) (w : BitVec 6) (off : BitVec 12) (m : BitVec 3)
  | vldx (c : Ctl) (d : WOp) (w : BitVec 6) (i : WOp) (m : BitVec 3)
  | vstx (c : Ctl) (s : WOp) (w : BitVec 6) (i : WOp) (m : BitVec 3)
  -- VREG (R152, R165)
  | allot (c : Ctl) (qd : BitVec 3)
  | shrink (c : Ctl) (qd : BitVec 3)
  | vmov (c : Ctl) (d a : WOp) (m : BitVec 3)
  -- MAT (R167 to R179)
  | mclaim (c : Ctl) (qd : BitVec 3) (k : BitVec 5)
  | mrel (c : Ctl) (k : BitVec 5)
  | mloadImmediate (c : Ctl) (k : BitVec 5) (w : BitVec 6) (desc : BitVec 32)
  | mloadRegister (c : Ctl) (k : BitVec 5) (w : BitVec 6) (desc : BitVec 6)
  | mloadCompletion (core id : Nat)
  | mcfg (c : Ctl) (a : BitVec 2) (shape : BitVec 3)
  | mzero (c : Ctl) (a : BitVec 2)
  | mgang (c : Ctl) (f : MFmt) (a : BitVec 2) (ka kb : BitVec 5) (tag : BitVec 4)
  | matrixOperationStart (arbor : Nat)
  | matrixOperationCompletion (arbor : Nat)
  | mwait (c : Ctl) (a : BitVec 2)
  | mrdacc (c : Ctl) (d : WOp) (a : BitVec 2) (j : BitVec 5)
  | mwracc (c : Ctl) (a : BitVec 2) (s : WOp) (j : BitVec 5)
  | mstacc (c : Ctl) (a : BitVec 2) (w : BitVec 6) (off : SrcZ)
  | wideIssue (core : Nat)
  -- MEM (R209)
  | ld (c : Ctl) (f : MemFmt) (p : Policy) (d w : BitVec 6) (off : SrcZ)
  | st (c : Ctl) (f : MemFmt) (p : Policy) (s w : BitVec 6) (off : SrcZ)
  | pref (c : Ctl) (p : Policy) (w : BitVec 6) (off : SrcZ)
  | ldacq (c : Ctl) (sc : Scope) (f : MemFmt) (p : Policy) (d w : BitVec 6) (off : SrcZ)
  | strel (c : Ctl) (sc : Scope) (f : MemFmt) (p : Policy) (s w : BitVec 6) (off : SrcZ)
  | loadResponse (core ctx : Nat)
  | postedWritePerform (core id : Nat)
  -- FENCE (R213)
  | fence (c : Ctl) (sc : Scope)
  | fenceRed (c : Ctl) (sc : Scope)
  | fenceEng (c : Ctl)
  -- AMO (R214)
  | amo (c : Ctl) (sc : Scope) (f : AFmt) (op : AmoOp) (d w v : BitVec 6) (off : GI)
  | cas (c : Ctl) (sc : Scope) (f : AFmt) (d w e : BitVec 6) (off : GI)
  | red (c : Ctl) (sc : Scope) (f : AFmt) (op : AmoOp) (w v : BitVec 6) (off : GI)
  | kioskAtomicPerform (core ctx id : Nat)
  | atomicResponse (core ctx id : Nat)
  | kioskRefusal (core ctx id : Nat) (why : RefuseWhy)
  | remoteTimeout (core ctx id : Nat)
  -- SYNC (R220)
  | swait (c : Ctl) (f : WFmt) (r : Rel) (d w v : BitVec 6) (off : GI)
  | fwait (c : Ctl) (d w : BitVec 6) (off : SrcZ)
  | fset (c : Ctl) (v w : BitVec 6) (off : SrcZ)
  | fclr (c : Ctl) (w : BitVec 6) (off : SrcZ)
  | waitPoll (core ctx : Nat)
  -- ENG (R227, R232)
  | job (c : Ctl) (d w s t : BitVec 6)
  | jwait (c : Ctl) (n : BitVec 2) (v : GI)
  | cwwait (c : Ctl) (n : BitVec 2) (v : GI)
  | jstat (c : Ctl) (d : BitVec 6) (n : BitVec 2)
  | jobBegin (id : Nat)
  | jobCompletion (id : Nat)
  -- CHAN (R256)
  | chan (c : Ctl) (s r : BitVec 6) (cfg : BitVec 32)
  | send (c : Ctl) (qd : BitVec 3) (e : BitVec 6) (v : Payload) (carried : Option (BitVec 6))
  | recv (c : Ctl) (d : RDst) (e : BitVec 6) (carried : Option (BitVec 6)) (qd : BitVec 3)
  | tryrecv (c : Ctl) (d : RDst) (e : BitVec 6) (carried : Option (BitVec 6)) (qd : BitVec 3)
  | select (c : Ctl) (d b : BitVec 6) (mask : BitVec 32)
  | close (c : Ctl) (d e : BitVec 6)
  | endinfo (c : Ctl) (d e : BitVec 6)
  | recordMessageArrival (m : Msg)
  | inboxMessageArrival (core : Nat) (m : Msg)
  | ringSlotOffer (record : Nat)
  | leaveNotice (record : Nat) (recvEnd : Bool) (gen : BitVec 16) (counter : BitVec 32) (core : Nat) (m : Option Msg)
  | arrivalNotice (record : Nat) (recvEnd : Bool) (at_ : CtxAt) (reg : BitVec 6)
  | closureMarkerArrival (record : Nat) (what : Closing)
  | spillRetry (record : Nat)
  -- CTX (R284 to R289)
  | startRelative (c : Ctl) (qd : BitVec 3) (h : BitVec 6) (off : BitVec 32)
  | startRegister (c : Ctl) (qd : BitVec 3) (h t : BitVec 6)
  | hjoin (c : Ctl) (qd : BitVec 3) (h : GI)
  | hexit (c : Ctl)
  | processExit (core : Nat)
  | yield (c : Ctl)
  | waitev (c : Ctl) (d : BitVec 6) (mask : GI)
  | watchdogExpiry (core : Nat)
  -- GANG (R293 to R298)
  | bar (c : Ctl)
  | xend (c : Ctl)
  | barrierRelease (gang : Nat)
  | xcast (c : Ctl) (role : BitVec 12) (w d : BitVec 6)
  | xcastTransferComplete (id : Nat)
  | widf (c : Ctl) (d : BitVec 6) (i : BitVec 3)
  | roleq (c : Ctl) (d : BitVec 6) (r : RoleOp)
  -- GRAPH (R314)
  | gpost (c : Ctl) (d g : BitVec 6) (node count : GI)
  | trigStart (c : Ctl)
  | trigDone (c : Ctl) (v : GI)
  | waitp (c : Ctl) (qd : BitVec 3)
  | glaunch (c : Ctl) (d m s : BitVec 6) (n : GI)
  | gcancel (c : Ctl) (qd : BitVec 3) (g : BitVec 6) (node : GI)
  | gstat (c : Ctl) (d g : BitVec 6) (sel : BitVec 4) (node : GI)
  | nodeDispatch (die : Nat)
  | nodeRetry (domain : BitVec 11) (node : BitVec 64)
  | preemptRequest (gang : Nat) (cancel : Bool)
  | dlimExpiry (gang : Nat)
  | save (gang : Nat) (forced : Bool)
  | restore (domain : BitVec 11) (area node : BitVec 64)
  -- STAGE (R335)
  | sret (c : Ctl) (v : GI)
  | keyr (c : Ctl) (d : BitVec 6) (sel : BitVec 1)
  | shintArm (c : Ctl) (qd : BitVec 3)
  | shintClone (c : Ctl) (qd : BitVec 3)
  | shintMerge (c : Ctl) (qd : BitVec 3)
  | shintDisarm (c : Ctl) (qd : BitVec 3)
  | stagePause (stage : Nat)
  | stagePauseTimeout (stage : Nat) (op : Nat)
  | stagef (core : Nat) (code : BitVec 16) (addr : BitVec 64)
  | stageSplitCompletion (stage : Nat)
  | stageMergeQuiescence (stage : Nat)
  -- DBG (R424) and the Belvedere (R409 to R423)
  | bkpt (c : Ctl) (code : BitVec 8)
  | mark (c : Ctl) (v : GI)
  | rdcnt (c : Ctl) (d : BitVec 6) (n : BitVec 4)
  | monq (c : Ctl) (d : BitVec 6) (n : GI)
  | monitorSample (monitor : Nat)
  -- fetch and fabric
  | icacheFill (core line : Nat)
  | snoopDequeue (agent : BitVec 1)
  | hardwareCounterWrap (core : Nat) (n : BitVec 3)
  -- the Lodge (R344 to R367)
  | coreAssign (source : BitVec 16) (core : BitVec 12) (domain : Option (BitVec 11))
  | domainDestroy (source : BitVec 16) (domain : BitVec 11)
  | pageEvict (source : BitVec 16) (domain : BitVec 11) (va : BitVec 48) (host : BitVec 12)
  -- boot and training (R372 to R384)
  | bootStepTimeout
  | mcStepDone (mc : BitVec 4) (fail : Bool) (lanes : BitVec 8) (spares : BitVec 8)
  | portStepDone (port : BitVec 5) (fail : Bool) (lanes : BitVec 8)
  | portTrainingTimeout (port : BitVec 5)
  -- other steps of the agents
  | residencyFillComplete (core : Nat)
  | writePointerAdvance (id : Nat)
  | offCoreReferenceResult (core ctx : Nat)
  -- what only the outside of the machine starts: the debugger, hosts, peers, the owner, the board, firmware
  | arm (source : BitVec 16) (domain : BitVec 11)
  | disarm (source : BitVec 16) (domain : BitVec 11)
  | stop (source : BitVec 16) (domain : BitVec 11) (node : BitVec 64)
  | resume (source : BitVec 16) (domain : BitVec 11) (node : BitVec 64)
  | read (source : BitVec 16) (domain : BitVec 11) (node : BitVec 64) (role ctx : BitVec 12) (t : DbgTarget)
  | write (source : BitVec 16) (domain : BitVec 11) (node : BitVec 64) (role ctx : BitVec 12) (t : DbgTarget) (tag : Bool) (v : Nat)
  | hold (source : BitVec 16) (domain : BitVec 11) (node : BitVec 64) (role : BitVec 12)
  | unhold (source : BitVec 16) (domain : BitVec 11) (node : BitVec 64) (role : BitVec 12)
  | trace (source : BitVec 16) (domain : BitVec 11) (buf len : BitVec 64) (mode : BitVec 1)
  | dump (source : BitVec 16) (domain : BitVec 11) (node : Option (BitVec 64)) (buf len : BitVec 64)
  | monset (source : BitVec 16) (domain : BitVec 11) (monitor : BitVec 10) (desc : BitVec 128)
  | hostMemoryRequest (r : HostReq)
  | peerMemoryRequest (r : PeerReq)
  | linkPacketReceive (p : Packet)
  | linkKeyRollover (source : BitVec 16) (domain : Option (BitVec 11))
  | deviceReportRequest (host : BitVec 16) (nonce : BitVec 384)
  | ownershipChallenge (host : BitVec 16)
  | ownershipClaim (host : BitVec 16) (nonce : BitVec 384) (s : Signed)
  | handover (host : BitVec 16) (nonce : BitVec 384) (newHost : BitVec 16) (newCred : BitVec 384) (s : Signed)
  | ownershipRelease (host : BitVec 16) (nonce : BitVec 384) (s : Signed)
  | deviceIdAssign (source : BitVec 16) (id : BitVec 12)
  | domainCreate (source : BitVec 16) (r : DomainReq)
  | pageReturn (source : BitVec 16) (domain : BitVec 11) (page : BitVec 32) (offset : BitVec 16) (version : BitVec 64) (data : List Byte) (mac : BitVec 384)
  | formatWindowChange (source : BitVec 16) (mc window : BitVec 4) (desc : BitVec 256)
  | powerUp (f : Flash)
  | packageReset
  | mcPhyResetRelease (mc : BitVec 4)
  | mcImpedanceCalibration (mc : BitVec 4)
  | mcCommandAddressTraining (mc : BitVec 4)
  | mcReadTraining (mc : BitVec 4)
  | mcWriteTraining (mc : BitVec 4)
  | mcLaneRepair (mc : BitVec 4)
  | mcInitialise (mc : BitVec 4)
  | mcEnable (mc : BitVec 4)
  | portSerdesResetRelease (port : BitVec 5) (cxl : Bool)
  | portReceiverDetect (port : BitVec 5)
  | portEqualise (port : BitVec 5)
  | portDeskewFlitLock (port : BitVec 5)
  | portKeyExchange (port : BitVec 5)
  | portUp (port : BitVec 5)
  | portDown (port : BitVec 5)
  | controlRegisterWrite (addr : BitVec 52) (v : BitVec 64)
  | hostCxlIoRequest (host : BitVec 16) (supported : Bool) (q : CxlIo)
  | hostSnoop (agent : BitVec 1) (host : BitVec 12) (line : BitVec 46) (invalidate : Bool)
  | backInvalidateAnswer (line : BitVec 46) (data : Option (BitVec 512))
  | linkLoss (port : BitVec 5)
  | tokenPost (t : TokenMsg)
  | hostLineEviction (agent : BitVec 1) (host : BitVec 12) (line : BitVec 46)
  | l1Eviction (core : Nat) (line : BitVec 46)
deriving DecidableEq, Repr

end Sys2Proof
end

