-- ==== Sys2Proof/WellFormed.lean ====
section
/-! DEFINITION. Which instructions are instructions of the machine: the operand values the forms of the
spec accept beyond what the types of `Instr` say already (R41, R61, R67 step 5), and, for the steps of
agents, that the unit they name is there (R12, R23, R363, R382). -/

namespace Sys2Proof

/-- "ctx" of the SYS forms is 1 to 11 (R404). -/
def ctxOk (ctx : BitVec 4) : Bool := decide (1 ≤ ctx.toNat) && decide (ctx.toNat ≤ 11)

/-- The s-space numbers of R41. -/
def sListed (n : BitVec 9) : Bool :=
  let k := n.toNat
  decide (k ≤ 0x12) || (decide (0x14 ≤ k) && decide (k ≤ 0x1B)) || (decide (0x20 ≤ k) && decide (k ≤ 0x2F))

/-- The special registers of the context form of RDS and WRS (R407). -/
def ctxRegOk : CtxReg → Bool
  | .g _ | .m _ | .q _ => true
  | .s n => n == 0x004 || n == 0x006 || n == 0x00D || n == 0x00E || n == 0x00F || n == 0x010

/-- At most one g register among the operands of a wide instruction (R61, R154). -/
def oneG : WG → WG → Bool
  | .g _, .g _ => false
  | .w _, .g _ | .g _, .w _ | .w _, .w _ => true

/-- Integer formats of at most 32 bits (R154). -/
def laneFmt : IFmt → Bool
  | .i64 | .n64 => false
  | .i8 | .i16 | .i32 | .n8 | .n16 | .n32 => true

def laneNFmt : NFmt → Bool
  | .int f => laneFmt f
  | .flt _ => true

/-- A small immediate is refused where the element format is floating (R148, R157). -/
def vcmpOk : VRel → WGI → Bool
  | .f32 _, .small _ => false
  | .f32 _, .w _ | .f32 _, .g _ | .i32 _, _ | .n32 _, _ => true

def vbcastOk : NFmt → GI → Bool
  | .flt _, .small _ => false
  | .flt _, .g _ => true
  | .int f, _ => laneFmt f

/-- Formats each AMO and RED code accepts (R215). -/
def amoOk (f : AFmt) (op : AmoOp) : Bool :=
  let isInt := match f with
    | .i32 | .i64 | .n32 | .n64 => true
    | .f32 | .f16 | .bf16 => false
  match op with
  | .swap => true
  | .add | .and | .or | .xor | .min | .max => isInt
  | .fadd | .fmin | .fmax => !isInt

def casOk : AFmt → Bool
  | .i32 | .i64 | .n32 | .n64 => true
  | .f32 | .f16 | .bf16 => false

/-- The configuration of CHAN (R257). -/
def cfgOk (cfg : BitVec 32) : Bool := decide (bits cfg 3 0 ≤ 12) && bits cfg 31 5 == 0

/-- The mask of SELECT (R260). -/
def selectOk (b : BitVec 6) (mask : BitVec 32) : Bool :=
  decide (mask.toNat ≠ 0) && decide (mask.toNat < 256) &&
    (List.range 8).all fun i => !bit mask i || decide (b.toNat + i ≤ 63)

/-- A small immediate of HJOIN is 1 to 10 (R288). -/
def hjoinOk : GI → Bool
  | .g _ => true
  | .small v => decide (1 ≤ v.toNat) && decide (v.toNat ≤ 10)

/-- The selector and node operand of GSTAT (R318). -/
def gstatOk (sel : BitVec 4) (node : GI) : Bool :=
  decide (sel.toNat ≤ 11) && (decide (10 ≤ sel.toNat) || node == .small 0)

/-- An immediate of MONQ is 0 to 15 (R424). -/
def monqOk : GI → Bool
  | .g _ => true
  | .small v => decide (v.toNat ≤ 15)

/-- A core of the device, or from 4,096 on the peer device that a message comes from or goes to (R269, R270). -/
def coreOrPeer (n : Nat) : Bool := decide (n < 2 * Config.coreCount)

/-- The well-formed instructions. -/
def Instr.wellFormed : Instr → Bool
  | .eretRetry _ _ ctx => ctxOk ctx
  | .eretSkip _ _ ctx => ctxOk ctx
  | .eretExit _ _ ctx => ctxOk ctx
  | .rds _ _ src => sListed src
  | .rdsContext _ _ src ctx => ctxRegOk src && ctxOk ctx
  | .wrs _ dst _ => sListed dst
  | .wrsContext _ dst _ ctx => ctxRegOk dst && ctxOk ctx
  | .retarm _ _ ctx => ctxOk ctx
  | .ctest _ _ _ k => decide (k.toNat ≤ 5)
  | .vfma _ _ _ _ a b _ _ => oneG a b
  | .viadd _ f _ _ _ _ => laneFmt f
  | .visub _ f _ _ _ _ => laneFmt f
  | .vimul _ f _ _ _ _ => laneFmt f
  | .vand _ f _ _ _ _ => laneFmt f
  | .vor _ f _ _ _ _ => laneFmt f
  | .vxor _ f _ _ _ _ => laneFmt f
  | .vshl _ f _ _ _ _ => laneFmt f
  | .vshr _ f _ _ _ _ => laneFmt f
  | .vsar _ f _ _ _ _ => laneFmt f
  | .vcmp _ r _ _ b _ => vcmpOk r b
  | .vbcast _ f _ s _ => vbcastOk f s
  | .vcvt _ dst _ src _ _ _ => laneNFmt dst && laneNFmt src
  | .mloadCompletion core _ => decide (core < Config.coreCount)
  | .matrixOperationStart arbor => decide (arbor < 1024)
  | .matrixOperationCompletion arbor => decide (arbor < 1024)
  | .wideIssue core => decide (core < Config.coreCount)
  | .loadResponse core ctx => coreOrPeer core && decide (ctx < 12)
  | .postedWritePerform core _ => decide (core < Config.coreCount)
  | .amo _ _ f op _ _ _ _ => amoOk f op
  | .cas _ _ f _ _ _ _ => casOk f
  | .red _ _ f op _ _ _ => amoOk f op && op != .swap
  | .kioskAtomicPerform core ctx _ => decide (core < Config.coreCount) && decide (ctx < 12)
  | .atomicResponse core ctx _ => coreOrPeer core && decide (ctx < 12)
  | .kioskRefusal core ctx _ _ => coreOrPeer core && decide (ctx < 12)
  | .remoteTimeout core ctx _ => decide (core < Config.coreCount) && decide (ctx < 12)
  | .waitPoll core ctx => decide (core < Config.coreCount) && decide (ctx < 12)
  | .jwait _ n _ => decide (n.toNat ≠ 3)
  | .jstat _ _ n => decide (n.toNat ≠ 3)
  | .chan _ s r cfg => cfgOk cfg && s != r
  | .send _ _ e _ carried => carried != some e
  | .select _ _ b mask => selectOk b mask
  | .inboxMessageArrival core _ => coreOrPeer core
  | .leaveNotice _ _ _ _ core _ => coreOrPeer core
  | .hjoin _ _ h => hjoinOk h
  | .arrivalNotice _ _ at_ _ => coreOrPeer at_.core && decide (at_.ctx < 12)
  | .processExit core => decide (core < Config.coreCount)
  | .watchdogExpiry core => decide (core < Config.coreCount)
  | .gstat _ _ _ sl node => gstatOk sl node
  | .nodeDispatch die => decide (die < 4)
  | .stagef core _ _ => decide (core < Config.coreCount)
  | .rdcnt _ _ n => decide (n.toNat ≤ 8)
  | .monq _ _ n => monqOk n
  | .monitorSample monitor => decide (monitor < 1024)
  | .icacheFill core _ => decide (core < Config.coreCount)
  | .hardwareCounterWrap core _ => decide (core < Config.coreCount)
  | .formatWindowChange _ mc _ _ => decide (mc.toNat < 12)
  | .mcPhyResetRelease mc => decide (mc.toNat < 12)
  | .mcImpedanceCalibration mc => decide (mc.toNat < 12)
  | .mcCommandAddressTraining mc => decide (mc.toNat < 12)
  | .mcReadTraining mc => decide (mc.toNat < 12)
  | .mcWriteTraining mc => decide (mc.toNat < 12)
  | .mcLaneRepair mc => decide (mc.toNat < 12)
  | .mcInitialise mc => decide (mc.toNat < 12)
  | .mcEnable mc => decide (mc.toNat < 12)
  | .mcStepDone mc _ _ _ => decide (mc.toNat < 12)
  | .portSerdesResetRelease port _ => decide (port.toNat < 18)
  | .portReceiverDetect port => decide (port.toNat < 18)
  | .portEqualise port => decide (port.toNat < 18)
  | .portDeskewFlitLock port => decide (port.toNat < 18)
  | .portKeyExchange port => decide (port.toNat < 18)
  | .portUp port => decide (port.toNat < 18)
  | .portDown port => decide (port.toNat < 18)
  | .portStepDone port _ _ => decide (port.toNat < 18)
  | .portTrainingTimeout port => decide (port.toNat < 18)
  | .linkLoss port => decide (port.toNat < 18)
  | .residencyFillComplete core => decide (core < Config.coreCount)
  | .l1Eviction core _ => decide (core < Config.coreCount)
  | .offCoreReferenceResult core ctx => decide (core < Config.coreCount) && decide (ctx < 12)
  | .nop .. | .trap .. | .scall .. | .bra .. | .brx .. | .callRelative .. | .callRegister .. | .ret ..
  | .loop .. | .add .. | .sub .. | .and .. | .or .. | .xor .. | .andn .. | .shl .. | .shr .. | .sar ..
  | .rot .. | .min .. | .max .. | .minn .. | .maxn .. | .mul .. | .mulh .. | .mulhn .. | .div .. | .divn ..
  | .rem .. | .remn .. | .clz .. | .ctz .. | .popc .. | .bfx .. | .bfxs .. | .bfi .. | .brev .. | .ext ..
  | .movi .. | .movh .. | .cmp .. | .sel .. | .pand .. | .por .. | .pnot .. | .fadd .. | .fsub .. | .fmul ..
  | .ffma .. | .fdiv .. | .fsqrt .. | .fmin .. | .fmax .. | .fcmp .. | .fclass .. | .fcvt .. | .fsgn ..
  | .ldl .. | .stl .. | .cbound .. | .cperm .. | .cget .. | .cderive .. | .cnull .. | .cmove .. | .vadd ..
  | .vsub .. | .vmul .. | .vmin .. | .vmax .. | .vabs .. | .vneg .. | .vrcp .. | .vrsq .. | .vexp2 ..
  | .vlog2 .. | .vdiv .. | .vsel .. | .mand .. | .mor .. | .mnot .. | .vperm .. | .vshuf .. | .vextr ..
  | .vins .. | .vrsum .. | .vrmax .. | .vrmin .. | .vpxenc .. | .vpxdec .. | .vldlImmediate ..
  | .vldlRegister .. | .vstlImmediate .. | .vstlRegister .. | .vldx .. | .vstx .. | .allot .. | .shrink ..
  | .vmov .. | .mclaim .. | .mrel .. | .mloadImmediate .. | .mloadRegister .. | .mcfg .. | .mzero ..
  | .mgang .. | .mwait .. | .mrdacc .. | .mwracc .. | .mstacc .. | .ld .. | .st .. | .pref .. | .ldacq ..
  | .strel .. | .fence .. | .fenceRed .. | .fenceEng .. | .swait .. | .fwait .. | .fset .. | .fclr ..
  | .job .. | .cwwait .. | .jobBegin .. | .jobCompletion .. | .recv .. | .tryrecv .. | .close ..
  | .endinfo .. | .recordMessageArrival .. | .ringSlotOffer .. | .closureMarkerArrival ..
  | .spillRetry .. | .startRelative .. | .startRegister .. | .hexit .. | .yield .. | .waitev .. | .bar ..
  | .xend .. | .barrierRelease .. | .xcast .. | .xcastTransferComplete .. | .widf .. | .roleq .. | .gpost ..
  | .trigStart .. | .trigDone .. | .waitp .. | .glaunch .. | .gcancel .. | .nodeRetry .. | .tokenPost ..
  | .preemptRequest .. | .dlimExpiry .. | .save .. | .restore .. | .sret .. | .keyr .. | .shintArm ..
  | .shintClone .. | .shintMerge .. | .shintDisarm .. | .stagePause .. | .stagePauseTimeout ..
  | .stageSplitCompletion .. | .stageMergeQuiescence .. | .bkpt .. | .mark .. | .arm .. | .disarm ..
  | .stop .. | .resume .. | .read .. | .write .. | .hold .. | .unhold .. | .trace .. | .dump .. | .monset ..
  | .hostSnoop .. | .snoopDequeue .. | .backInvalidateAnswer .. | .hostMemoryRequest ..
  | .peerMemoryRequest .. | .linkPacketReceive .. | .linkKeyRollover .. | .deviceReportRequest ..
  | .ownershipChallenge .. | .ownershipClaim .. | .handover .. | .ownershipRelease .. | .deviceIdAssign ..
  | .domainCreate .. | .coreAssign .. | .domainDestroy .. | .pageEvict .. | .pageReturn .. | .powerUp ..
  | .packageReset | .bootStepTimeout | .controlRegisterWrite .. | .writePointerAdvance ..
  | .hostLineEviction .. | .hostCxlIoRequest .. => true

end Sys2Proof
end

