-- ==== Sys2Proof/Decode.lean ====
section
/-! DEFINITION. From bytes to instructions and back: the fields of the 96-bit word (R46 to R68), the checks
of R67 that need the word alone, the accepted forms of every minor, the encoder, and the translation of
Tsunar Ixtin words (R69 to R72). Every rejected word is rejected by the name of the check it fails. -/

namespace Sys2Proof

/-- The fields of a word (R46). -/
structure Fields where
  cls : BitVec 6
  imm : Bool
  minor : BitVec 7
  guard : BitVec 4
  hint : BitVec 14
  x : BitVec 16
  y : BitVec 16
  zhi : BitVec 16
  zlo : BitVec 16
deriving DecidableEq, Repr

/-- The static checks of R67 (steps 1 to 5); each of them is ILLEGAL. -/
inductive Reject where
  | reservedClass | unassignedMinor | noImmediateForm | illegalPhase | operand
deriving DecidableEq, Repr

inductive Decoded where
  | ok (i : Instr)
  | illegal (r : Reject)
deriving DecidableEq, Repr

def fieldsOf (w : BitVec 96) : Fields :=
  { cls := w.extractLsb' 90 6, imm := w.getLsbD 89, minor := w.extractLsb' 82 7,
    guard := w.extractLsb' 78 4, hint := w.extractLsb' 64 14, x := w.extractLsb' 48 16,
    y := w.extractLsb' 32 16, zhi := w.extractLsb' 16 16, zlo := w.extractLsb' 0 16 }

def Fields.word (f : Fields) : BitVec 96 :=
  (f.cls ++ BitVec.ofBool f.imm ++ f.minor ++ f.guard ++ f.hint ++ f.x ++ f.y ++ f.zhi ++ f.zlo).cast (by decide)

/-- Z as the 32-bit immediate. -/
def Fields.z (f : Fields) : BitVec 32 := f.zhi ++ f.zlo

/-- Guard and hint (R46, R50). Phase 0b11 has been refused before. -/
def ctlOf (guard : BitVec 4) (hint : BitVec 14) : Ctl :=
  { neg := guard.getLsbD 3, q := guard.extractLsb' 0 3, delay := hint.extractLsb' 10 4,
    phase := if hint.extractLsb' 8 2 = 1#2 then .compute else if hint.extractLsb' 8 2 = 2#2 then .exchange else .any,
    wait := hint.extractLsb' 4 4, set := hint.extractLsb' 2 2, sw := hint.getLsbD 1, lu := hint.getLsbD 0 }

def PhaseHint.code : PhaseHint → BitVec 2
  | .any => 0
  | .compute => 1
  | .exchange => 2

def Ctl.guard (c : Ctl) : BitVec 4 := BitVec.ofBool c.neg ++ c.q
def Ctl.hint (c : Ctl) : BitVec 14 :=
  c.delay ++ c.phase.code ++ c.wait ++ c.set ++ BitVec.ofBool c.sw ++ BitVec.ofBool c.lu

/-! ## The opcode map (R66) and the immediate forms (R62) -/

/-- Whether a minor has the immediate form, both forms, or only one of them. -/
inductive ImmForm where | never | both | only
deriving DecidableEq, Repr

/-- The minors of a class and their immediate forms; `none` for a reserved class, an empty answer for an
unassigned minor. -/
def minorForm (cls minor : Nat) : Option (Option ImmForm) :=
  let upTo (n : Nat) (f : ImmForm) : Option (Option ImmForm) := some (if minor ≤ n then some f else none)
  let pick (l : List (Nat × ImmForm)) : Option (Option ImmForm) := some (l.lookup minor)
  match cls with
  | 0x00 => upTo 6 .never
  | 0x01 => pick [(0, .only), (1, .never), (2, .both), (3, .never), (4, .only)]
  | 0x02 => upTo 0x0D .both
  | 0x03 => upTo 6 .both
  | 0x04 => upTo 7 .never
  | 0x05 => upTo 1 .only
  | 0x06 => pick [(0, .both), (1, .never), (2, .never), (3, .never), (4, .never)]
  | 0x07 => upTo 0x0B .never
  | 0x08 => upTo 1 .both
  | 0x09 => pick [(0, .both), (1, .both), (2, .never), (3, .both), (4, .never), (5, .never), (6, .never)]
  | 0x10 => upTo 0x0C .never
  | 0x11 => upTo 8 .never
  | 0x12 => upTo 4 .never
  | 0x13 => upTo 4 .never
  | 0x14 => upTo 2 .never
  | 0x15 => upTo 2 .never
  | 0x16 => pick [(0, .both), (1, .both), (2, .never), (3, .never)]
  | 0x17 => upTo 2 .never
  | 0x18 => pick [(0, .never), (1, .never), (2, .both), (3, .only), (4, .never), (5, .never), (6, .never),
      (7, .never), (8, .never), (9, .both)]
  | 0x20 => some (if minor ≤ 2 ∨ (8 ≤ minor ∧ minor ≤ 0x0D) ∨ (0x10 ≤ minor ∧ minor ≤ 0x15) then some .both else none)
  | 0x21 => some (if minor ≤ 5 ∨ (8 ≤ minor ∧ minor ≤ 0x0D) ∨ minor = 0x10 then some .never else none)
  | 0x22 => some (if minor ≤ 5 ∨ (8 ≤ minor ∧ minor ≤ 0x0D) ∨ (0x10 ≤ minor ∧ minor ≤ 0x15) then some .never else none)
  | 0x23 => pick [(0, .never), (1, .both), (2, .both), (3, .both)]
  | 0x24 => upTo 3 .never
  | 0x28 => pick [(0, .only), (1, .never), (2, .never), (3, .never), (4, .only), (5, .never), (6, .never)]
  | 0x30 => pick [(0, .both), (1, .never), (2, .never), (3, .never), (4, .never)]
  | 0x31 => upTo 4 .never
  | 0x32 => upTo 6 .never
  | 0x33 => upTo 2 .never
  | 0x38 => upTo 3 .never
  | _ => none

/-! ## Operand fields (R59) -/

def opG (o : BitVec 16) : Option (BitVec 6 × BitVec 4) :=
  if o.extractLsb' 10 6 = 0 then some (o.extractLsb' 4 6, o.extractLsb' 0 4) else none
def opS (o : BitVec 16) : Option (BitVec 9 × BitVec 4) :=
  if o.extractLsb' 13 3 = 1 then some (o.extractLsb' 4 9, o.extractLsb' 0 4) else none
def opM (o : BitVec 16) : Option (BitVec 3 × BitVec 4) :=
  if o.extractLsb' 7 9 = 0b011000000 then some (o.extractLsb' 4 3, o.extractLsb' 0 4) else none
/-- Direct or relative w register: a relative one is accepted wherever a direct one is (R60). -/
def opW (o : BitVec 16) : Option (WOp × BitVec 4) :=
  if o.extractLsb' 10 6 = 0b010000 then some (.w (o.extractLsb' 4 6), o.extractLsb' 0 4)
  else if o.extractLsb' 14 2 = 2 then some (.rel (o.extractLsb' 10 4) (o.extractLsb' 4 6), o.extractLsb' 0 4)
  else none
def opRole (o : BitVec 16) : Option (BitVec 12) :=
  if o.extractLsb' 12 4 = 0b1100 then some (o.extractLsb' 0 12) else none
def opSlot (o : BitVec 16) : Option (BitVec 5 × BitVec 4) :=
  if o.extractLsb' 9 7 = 0b1101000 then some (o.extractLsb' 4 5, o.extractLsb' 0 4) else none
def opTile (o : BitVec 16) : Option (BitVec 2 × BitVec 4) :=
  if o.extractLsb' 6 10 = 0b1110000000 then some (o.extractLsb' 4 2, o.extractLsb' 0 4) else none
def opSmall (o : BitVec 16) : Option (BitVec 12) :=
  if o.extractLsb' 12 4 = 0b1111 then some (o.extractLsb' 0 12) else none

/-- An operand whose mod nibble the instruction does not read (R59). -/
def noMod {α : Type} (p : Option (α × BitVec 4)) : Option α :=
  match p with
  | some (a, m) => if m = 0 then some a else none
  | none => none

def g0 (o : BitVec 16) : Option (BitVec 6) := noMod (opG o)
def w0 (o : BitVec 16) : Option WOp := noMod (opW o)
/-- A small immediate that fits `k` bits unsigned: predicates (R123), lanes, tiles' chunks, codes. -/
def smallN (k : Nat) (o : BitVec 16) : Option (BitVec k) :=
  match opSmall o with
  | some v => if v.toNat < 2 ^ k then some (BitVec.ofNat k v.toNat) else none
  | none => none
def q3 (o : BitVec 16) : Option (BitVec 3) := smallN 3 o
/-- An unused field (R59). -/
def unused (o : BitVec 16) : Option Unit := if o = 0 then some () else none
/-- Z.lo or Z.hi with no operand and a nibble the instruction assigns. -/
def nibbleOnly (o : BitVec 16) : Option (BitVec 4) :=
  if o.extractLsb' 4 12 = 0 then some (o.extractLsb' 0 4) else none
/-- A mask in a nibble (R149). -/
def maskOf (n : BitVec 4) : Option (BitVec 3) := if n.getLsbD 3 then none else some (n.extractLsb' 0 3)
def maskOnly (o : BitVec 16) : Option (BitVec 3) := (nibbleOnly o).bind maskOf

def gi (o : BitVec 16) : Option GI :=
  match g0 o with
  | some n => some (.g n)
  | none => (opSmall o).map .small
def wg (o : BitVec 16) : Option WG :=
  match g0 o with
  | some n => some (.g n)
  | none => (w0 o).map .w
def wgi (o : BitVec 16) : Option WGI :=
  match g0 o with
  | some n => some (.g n)
  | none => match w0 o with
    | some w => some (.w w)
    | none => (opSmall o).map .small

def encG (n : BitVec 6) (m : BitVec 4) : BitVec 16 := 0b000000#6 ++ n ++ m
def encS (n : BitVec 9) (m : BitVec 4) : BitVec 16 := 0b001#3 ++ n ++ m
def encM (n : BitVec 3) (m : BitVec 4) : BitVec 16 := 0b011000000#9 ++ n ++ m
def encW (o : WOp) (m : BitVec 4) : BitVec 16 :=
  match o with
  | .w n => 0b010000#6 ++ n ++ m
  | .rel i off => 0b10#2 ++ i ++ off ++ m
def encRole (r : BitVec 12) : BitVec 16 := 0b1100#4 ++ r
def encSlot (n : BitVec 5) (m : BitVec 4) : BitVec 16 := 0b1101000#7 ++ n ++ m
def encTile (n : BitVec 2) (m : BitVec 4) : BitVec 16 := 0b1110000000#10 ++ n ++ m
def encSmall (v : BitVec 12) : BitVec 16 := 0b1111#4 ++ v
def encSmallN {k : Nat} (v : BitVec k) : BitVec 16 := encSmall (BitVec.ofNat 12 v.toNat)
def encNibble (m : BitVec 4) : BitVec 16 := 0#12 ++ m
def encMask (m : BitVec 3) : BitVec 16 := 0#13 ++ m
def encGI : GI → BitVec 16
  | .g n => encG n 0
  | .small v => encSmall v
def encWG : WG → BitVec 16
  | .g n => encG n 0
  | .w o => encW o 0
def encWGI : WGI → BitVec 16
  | .g n => encG n 0
  | .w o => encW o 0
  | .small v => encSmall v

/-! ## Modifier codes (R63, R65, R124, R215) -/

def ifmt (m : BitVec 4) : Option IFmt :=
  match m.toNat with
  | 1 => some .i8 | 2 => some .i16 | 3 => some .i32 | 4 => some .i64
  | 5 => some .n8 | 6 => some .n16 | 7 => some .n32 | 8 => some .n64
  | _ => none
def IFmt.code : IFmt → BitVec 4
  | .i8 => 1 | .i16 => 2 | .i32 => 3 | .i64 => 4 | .n8 => 5 | .n16 => 6 | .n32 => 7 | .n64 => 8
def ffmt (m : BitVec 4) : Option FFmt :=
  match m.toNat with
  | 9 => some .f32 | 10 => some .f16 | 11 => some .bf16
  | _ => none
def FFmt.code : FFmt → BitVec 4
  | .f32 => 9 | .f16 => 10 | .bf16 => 11
def nfmt (m : BitVec 4) : Option NFmt :=
  match ifmt m with
  | some f => some (.int f)
  | none => (ffmt m).map .flt
def NFmt.code : NFmt → BitVec 4
  | .int f => f.code
  | .flt f => f.code
def pxfmt (m : BitVec 4) : Option PxFmt :=
  match m.toNat with
  | 12 => some .px2 | 13 => some .px4 | 14 => some .px7
  | _ => none
def PxFmt.code : PxFmt → BitVec 4
  | .px2 => 12 | .px4 => 13 | .px7 => 14
def mfmt (m : BitVec 4) : Option MFmt :=
  match m.toNat with
  | 1 => some .i8 | 10 => some .f16 | 11 => some .bf16
  | _ => (pxfmt m).map .px
def MFmt.code : MFmt → BitVec 4
  | .i8 => 1 | .f16 => 10 | .bf16 => 11 | .px f => f.code
def rmOf (m : BitVec 4) : Option Rm :=
  match m.toNat with
  | 0 => some .rn | 1 => some .rz | 2 => some .ru | 3 => some .rd | 4 => some .ra | 5 => some .sr | 6 => some .dyn
  | _ => none
def Rm.code : Rm → BitVec 4
  | .rn => 0 | .rz => 1 | .ru => 2 | .rd => 3 | .ra => 4 | .sr => 5 | .dyn => 6
/-- Bit 3 of a rounding code is the saturate bit (R63). -/
def rmSatOf (m : BitVec 4) : Option RmSat :=
  (rmOf (m &&& 7)).map fun r => { rm := r, sat := m.getLsbD 3 }
def RmSat.code (r : RmSat) : BitVec 4 := r.rm.code ||| (if r.sat then 8 else 0)
def relOf (m : BitVec 4) : Option Rel :=
  match m.toNat with
  | 0 => some .eq | 1 => some .ne | 2 => some .lt | 3 => some .le | 4 => some .gt | 5 => some .ge
  | 6 => some .ltn | 7 => some .len | 8 => some .gtn | 9 => some .gen | 10 => some .tst
  | _ => none
def Rel.code : Rel → BitVec 4
  | .eq => 0 | .ne => 1 | .lt => 2 | .le => 3 | .gt => 4 | .ge => 5 | .ltn => 6 | .len => 7 | .gtn => 8
  | .gen => 9 | .tst => 10
def frelOf (m : BitVec 4) : Option FRel :=
  match m.toNat with
  | 0 => some .eq | 1 => some .ne | 2 => some .lt | 3 => some .le | 4 => some .gt | 5 => some .ge
  | 11 => some .un | 12 => some .ord
  | _ => none
def FRel.code : FRel → BitVec 4
  | .eq => 0 | .ne => 1 | .lt => 2 | .le => 3 | .gt => 4 | .ge => 5 | .un => 11 | .ord => 12
def sgnOf (m : BitVec 4) : Option SgnOp :=
  match m.toNat with
  | 0 => some .cp | 1 => some .neg | 2 => some .xor
  | _ => none
def SgnOp.code : SgnOp → BitVec 4
  | .cp => 0 | .neg => 1 | .xor => 2
def policyOf (m : BitVec 4) : Option Policy :=
  match m.toNat with
  | 0 => some .home | 1 => some .skip | 2 => some .stream
  | _ => none
def Policy.code : Policy → BitVec 4
  | .home => 0 | .skip => 1 | .stream => 2
/-- Scope is in minor bits 2:0 (R65). -/
def scopeOf (k : Nat) : Option Scope :=
  match k with
  | 0 => some .core | 1 => some .arbor | 2 => some .parterre | 3 => some .die | 4 => some .dev | 5 => some .sys
  | _ => none
def Scope.code : Scope → BitVec 7
  | .core => 0 | .arbor => 1 | .parterre => 2 | .die => 3 | .dev => 4 | .sys => 5
def memFmt (m : BitVec 4) : Option MemFmt := if m = 0 then some .cap else (ifmt m).map .int
def MemFmt.code : MemFmt → BitVec 4
  | .cap => 0
  | .int f => f.code
def afmt (m : BitVec 4) : Option AFmt :=
  match m.toNat with
  | 3 => some .i32 | 4 => some .i64 | 7 => some .n32 | 8 => some .n64 | 9 => some .f32 | 10 => some .f16 | 11 => some .bf16
  | _ => none
def AFmt.code : AFmt → BitVec 4
  | .i32 => 3 | .i64 => 4 | .n32 => 7 | .n64 => 8 | .f32 => 9 | .f16 => 10 | .bf16 => 11
def amoOpOf (m : BitVec 4) : Option AmoOp :=
  match m.toNat with
  | 0 => some .swap | 1 => some .add | 2 => some .and | 3 => some .or | 4 => some .xor | 5 => some .min | 6 => some .max
  | 8 => some .fadd | 9 => some .fmin | 10 => some .fmax
  | _ => none
def AmoOp.code : AmoOp → BitVec 4
  | .swap => 0 | .add => 1 | .and => 2 | .or => 3 | .xor => 4 | .min => 5 | .max => 6 | .fadd => 8 | .fmin => 9 | .fmax => 10
def wfmt (m : BitVec 4) : Option WFmt :=
  match m.toNat with
  | 3 => some .i32 | 4 => some .i64 | 7 => some .n32 | 8 => some .n64
  | _ => none
def WFmt.code : WFmt → BitVec 4
  | .i32 => 3 | .i64 => 4 | .n32 => 7 | .n64 => 8
/-- Format and relation of a VCMP: the floating relations for `.f32`, the integer ones otherwise (R157). -/
def vrelOf (f r : BitVec 4) : Option VRel :=
  match f.toNat with
  | 9 => (frelOf r).map .f32
  | 3 => (relOf r).map .i32
  | 7 => (relOf r).map .n32
  | _ => none
def VRel.fmtCode : VRel → BitVec 4
  | .f32 _ => 9 | .i32 _ => 3 | .n32 _ => 7
def VRel.relCode : VRel → BitVec 4
  | .f32 r => r.code | .i32 r => r.code | .n32 r => r.code
def sumFmt (f r : BitVec 4) : Option SumFmt :=
  match f.toNat with
  | 9 => (rmOf r).map .f32
  | 3 => if r = 0 then some .i32 else none
  | 7 => if r = 0 then some .n32 else none
  | _ => none
def SumFmt.fmtCode : SumFmt → BitVec 4
  | .f32 _ => 9 | .i32 => 3 | .n32 => 7
def SumFmt.rmCode : SumFmt → BitVec 4
  | .f32 r => r.code | .i32 => 0 | .n32 => 0
def maxFmt (f : BitVec 4) : Option MaxFmt :=
  match f.toNat with
  | 9 => some .f32 | 3 => some .i32 | 7 => some .n32
  | _ => none
def MaxFmt.code : MaxFmt → BitVec 4
  | .f32 => 9 | .i32 => 3 | .n32 => 7

/-! ## Forms -/

/-- Z under R122. -/
def srcZ (f : Fields) : Option SrcZ :=
  if f.imm then some (.imm f.z)
  else do
    unused f.zlo
    match g0 f.zhi with
    | some n => some (.g n)
    | none => (opSmall f.zhi).map .small

def Fields.ctl (f : Fields) : Ctl := ctlOf f.guard f.hint

def noXYZ (f : Fields) (i : Instr) : Option Instr := do
  unused f.x; unused f.y; unused f.zhi; unused f.zlo
  return i

def parseSys (f : Fields) (c : Ctl) : Option Instr :=
  match f.minor.toNat with
  | 0 => noXYZ f (.nop c)
  | 1 => do
    let code ← smallN 6 f.x; let v ← gi f.y; unused f.zhi; unused f.zlo
    return .trap c code v
  | 2 => do
    let qd ← q3 f.x; let ctx ← smallN 4 f.y; let mode ← smallN 2 f.zhi; unused f.zlo
    match mode.toNat with
    | 0 => some (.eretRetry c qd ctx)
    | 1 => some (.eretSkip c qd ctx)
    | 2 => some (.eretExit c qd ctx)
    | _ => none
  | 3 => do
    let d ← g0 f.x; unused f.zlo
    if f.zhi = 0 then
      let s ← noMod (opS f.y)
      return .rds c d s
    else
      let ctx ← smallN 4 f.zhi; let s ← ctxReg f.y
      return .rdsContext c d s ctx
  | 4 => do
    let v ← gi f.y; unused f.zlo
    if f.zhi = 0 then
      let s ← noMod (opS f.x)
      return .wrs c s v
    else
      let ctx ← smallN 4 f.zhi; let s ← ctxReg f.x
      return .wrsContext c s v ctx
  | 5 => do
    let d ← g0 f.x; let ctx ← smallN 4 f.y; unused f.zhi; unused f.zlo
    return .retarm c d ctx
  | 6 => do
    let d ← g0 f.x; let e ← g0 f.y; let b ← g0 f.zhi; let s ← gi f.zlo
    return .scall c d e b s
  | _ => none
where
  ctxReg (o : BitVec 16) : Option CtxReg :=
    match g0 o with
    | some n => some (.g n)
    | none => match noMod (opM o) with
      | some n => some (.m n)
      | none => match q3 o with
        | some n => some (.q n)
        | none => (noMod (opS o)).map .s

def parseBr (f : Fields) (c : Ctl) : Option Instr :=
  match f.minor.toNat, f.imm with
  | 0, true => do unused f.x; unused f.y; return .bra c f.z
  | 1, false => do let t ← g0 f.x; unused f.y; unused f.zhi; unused f.zlo; return .brx c t
  | 2, true => do let l ← g0 f.x; unused f.y; return .callRelative c l f.z
  | 2, false => do let l ← g0 f.x; unused f.y; let t ← g0 f.zhi; unused f.zlo; return .callRegister c l t
  | 3, false => do let l ← g0 f.x; unused f.y; unused f.zhi; unused f.zlo; return .ret c l
  | 4, true => do let n ← g0 f.x; unused f.y; return .loop c n f.z
  | _, _ => none

/-- `OP gd, ga, b` (R131, R132). -/
def formDAZ (f : Fields) (mk : BitVec 6 → BitVec 6 → SrcZ → Instr) : Option Instr := do
  let d ← g0 f.x; let a ← g0 f.y; let b ← srcZ f
  return mk d a b

def parseIalu (f : Fields) (c : Ctl) : Option Instr :=
  match f.minor.toNat with
  | 0 => formDAZ f (.add c) | 1 => formDAZ f (.sub c) | 2 => formDAZ f (.and c) | 3 => formDAZ f (.or c)
  | 4 => formDAZ f (.xor c) | 5 => formDAZ f (.andn c) | 6 => formDAZ f (.shl c) | 7 => formDAZ f (.shr c)
  | 8 => formDAZ f (.sar c) | 9 => formDAZ f (.rot c) | 10 => formDAZ f (.min c) | 11 => formDAZ f (.max c)
  | 12 => formDAZ f (.minn c) | 13 => formDAZ f (.maxn c)
  | _ => none

def parseImul (f : Fields) (c : Ctl) : Option Instr :=
  match f.minor.toNat with
  | 0 => formDAZ f (.mul c) | 1 => formDAZ f (.mulh c) | 2 => formDAZ f (.mulhn c) | 3 => formDAZ f (.div c)
  | 4 => formDAZ f (.divn c) | 5 => formDAZ f (.rem c) | 6 => formDAZ f (.remn c)
  | _ => none

def formDA (f : Fields) (mk : BitVec 6 → BitVec 6 → Instr) : Option Instr := do
  let d ← g0 f.x; let a ← g0 f.y; unused f.zhi; unused f.zlo
  return mk d a

def formField (f : Fields) (mk : BitVec 6 → BitVec 6 → GI → GI → Instr) : Option Instr := do
  let d ← g0 f.x; let a ← g0 f.y; let p ← gi f.zhi; let n ← gi f.zlo
  return mk d a p n

def parseIbit (f : Fields) (c : Ctl) : Option Instr :=
  match f.minor.toNat with
  | 0 => formDA f (.clz c) | 1 => formDA f (.ctz c) | 2 => formDA f (.popc c)
  | 3 => formField f (.bfx c) | 4 => formField f (.bfxs c) | 5 => formField f (.bfi c)
  | 6 => formDA f (.brev c)
  | 7 => do
    let (d, m) ← opG f.x; let t ← ifmt m; let a ← g0 f.y; unused f.zhi; unused f.zlo
    return .ext c d t a
  | _ => none

def parseImm (f : Fields) (c : Ctl) : Option Instr := do
  let d ← g0 f.x; unused f.y
  -- both have their immediate form only
  if !f.imm then none
  match f.minor.toNat with
  | 0 => some (.movi c d f.z)
  | 1 => some (.movh c d f.z)
  | _ => none

def parseCmp (f : Fields) (c : Ctl) : Option Instr :=
  match f.minor.toNat with
  | 0 => do
    let qd ← q3 f.x; let (a, m) ← opG f.y; let r ← relOf m; let b ← srcZ f
    return .cmp c qd r a b
  | 1 => do
    let d ← g0 f.x; let qs ← q3 f.y; let a ← g0 f.zhi; let b ← g0 f.zlo
    return .sel c d qs a b
  | 2 => do
    let qd ← q3 f.x; let qa ← q3 f.y; let qb ← q3 f.zhi; unused f.zlo
    return .pand c qd qa qb
  | 3 => do
    let qd ← q3 f.x; let qa ← q3 f.y; let qb ← q3 f.zhi; unused f.zlo
    return .por c qd qa qb
  | 4 => do
    let qd ← q3 f.x; let qa ← q3 f.y; unused f.zhi; unused f.zlo
    return .pnot c qd qa
  | _ => none

def formArith (f : Fields) (mk : FFmt → Rm → BitVec 6 → BitVec 6 → BitVec 6 → Instr) : Option Instr := do
  let (d, m) ← opG f.x; let t ← ffmt m; let (a, r) ← opG f.y; let rm ← rmOf r
  let b ← g0 f.zhi; unused f.zlo
  return mk t rm d a b

def formMin (f : Fields) (mk : FFmt → BitVec 6 → BitVec 6 → BitVec 6 → Instr) : Option Instr := do
  let (d, m) ← opG f.x; let t ← ffmt m; let a ← g0 f.y; let b ← g0 f.zhi; unused f.zlo
  return mk t d a b

def parseFpu (f : Fields) (c : Ctl) : Option Instr :=
  match f.minor.toNat with
  | 0 => formArith f (.fadd c) | 1 => formArith f (.fsub c) | 2 => formArith f (.fmul c)
  | 3 => do
    let (d, m) ← opG f.x; let t ← ffmt m; let (a, r) ← opG f.y; let rm ← rmOf r
    let b ← g0 f.zhi; let e ← g0 f.zlo
    return .ffma c t rm d a b e
  | 4 => formArith f (.fdiv c)
  | 5 => do
    let (d, m) ← opG f.x; let t ← ffmt m; let (a, r) ← opG f.y; let rm ← rmOf r
    unused f.zhi; unused f.zlo
    return .fsqrt c t rm d a
  | 6 => formMin f (.fmin c) | 7 => formMin f (.fmax c)
  | 8 => do
    let qd ← q3 f.x; let (a, m) ← opG f.y; let t ← ffmt m; let (b, r) ← opG f.zhi; let rel ← frelOf r
    unused f.zlo
    return .fcmp c t rel qd a b
  | 9 => do
    let (d, m) ← opG f.x; let t ← ffmt m; let a ← g0 f.y; unused f.zhi; unused f.zlo
    return .fclass c t d a
  | 10 => do
    let (d, m) ← opG f.x; let dst ← nfmt m; let (a, r) ← opG f.y; let rm ← rmSatOf r
    let s ← nibbleOnly f.zhi; let src ← nfmt s; unused f.zlo
    return .fcvt c dst rm src d a
  | 11 => do
    let (d, m) ← opG f.x; let t ← ffmt m; let a ← g0 f.y; let (b, r) ← opG f.zhi; let op ← sgnOf r
    unused f.zlo
    return .fsgn c t op d a b
  | _ => none

def parseLmem (f : Fields) (c : Ctl) : Option Instr := do
  let (d, m) ← opG f.x; let t ← ifmt m; let w ← g0 f.y; let off ← srcZ f
  match f.minor.toNat with
  | 0 => some (.ldl c t d w off)
  | 1 => some (.stl c t d w off)
  | _ => none

def parseCap (f : Fields) (c : Ctl) : Option Instr :=
  match f.minor.toNat with
  | 0 => formDAZ f (.cbound c)
  | 1 => formDAZ f (.cperm c)
  | 2 => do
    let d ← g0 f.x; let s ← g0 f.y; let k ← smallN 3 f.zhi; unused f.zlo
    return .cget c d s k
  | 3 => formDAZ f (.cderive c)
  | 4 => do
    let qd ← q3 f.x; let s ← g0 f.y; let k ← smallN 3 f.zhi; unused f.zlo
    return .ctest c qd s k
  | 5 => do
    let d ← g0 f.x; unused f.y; unused f.zhi; unused f.zlo
    return .cnull c d
  | 6 => formDA f (.cmove c)
  | _ => none

def formVBin (f : Fields) (mk : FFmt → Rm → WOp → WOp → WG → BitVec 3 → Instr) : Option Instr := do
  let (d, m) ← opW f.x; let t ← ffmt m; let (a, r) ← opW f.y; let rm ← rmOf r
  let b ← wg f.zhi; let k ← maskOnly f.zlo
  return mk t rm d a b k

def formVMin (f : Fields) (mk : FFmt → WOp → WOp → WG → BitVec 3 → Instr) : Option Instr := do
  let (d, m) ← opW f.x; let t ← ffmt m; let a ← w0 f.y; let b ← wg f.zhi; let k ← maskOnly f.zlo
  return mk t d a b k

def formVUn (f : Fields) (mk : FFmt → Rm → WOp → WOp → BitVec 3 → Instr) : Option Instr := do
  let (d, m) ← opW f.x; let t ← ffmt m; let (a, r) ← opW f.y; let rm ← rmOf r
  unused f.zhi; let k ← maskOnly f.zlo
  return mk t rm d a k

def formVSign (f : Fields) (mk : FFmt → WOp → WOp → BitVec 3 → Instr) : Option Instr := do
  let (d, m) ← opW f.x; let t ← ffmt m; let a ← w0 f.y; unused f.zhi; let k ← maskOnly f.zlo
  return mk t d a k

/-- Y of a VFMA: a w operand or a g register, with the rounding code (R155). -/
def wgMod (o : BitVec 16) : Option (WG × BitVec 4) :=
  match opG o with
  | some (n, m) => some (.g n, m)
  | none => (opW o).map fun p => (.w p.1, p.2)

def parseVarith (f : Fields) (c : Ctl) : Option Instr :=
  match f.minor.toNat with
  | 0 => formVBin f (.vadd c) | 1 => formVBin f (.vsub c) | 2 => formVBin f (.vmul c)
  | 3 => do
    let (d, m) ← opW f.x; let t ← ffmt m; let (a, r) ← wgMod f.y; let rm ← rmOf r
    let b ← wg f.zhi; let (e, k) ← opW f.zlo; let k ← maskOf k
    return .vfma c t rm d a b e k
  | 4 => formVMin f (.vmin c) | 5 => formVMin f (.vmax c)
  | 6 => formVSign f (.vabs c) | 7 => formVSign f (.vneg c)
  | 8 => formVUn f (.vrcp c) | 9 => formVUn f (.vrsq c) | 10 => formVUn f (.vexp2 c) | 11 => formVUn f (.vlog2 c)
  | 12 => formVBin f (.vdiv c)
  | _ => none

def formVInt (f : Fields) (mk : IFmt → WOp → WOp → WGI → BitVec 3 → Instr) : Option Instr := do
  let (d, m) ← opW f.x; let t ← ifmt m; let a ← w0 f.y; let b ← wgi f.zhi; let k ← maskOnly f.zlo
  return mk t d a b k

def parseVint (f : Fields) (c : Ctl) : Option Instr :=
  match f.minor.toNat with
  | 0 => formVInt f (.viadd c) | 1 => formVInt f (.visub c) | 2 => formVInt f (.vimul c)
  | 3 => formVInt f (.vand c) | 4 => formVInt f (.vor c) | 5 => formVInt f (.vxor c)
  | 6 => formVInt f (.vshl c) | 7 => formVInt f (.vshr c) | 8 => formVInt f (.vsar c)
  | _ => none

def parseVmask (f : Fields) (c : Ctl) : Option Instr :=
  match f.minor.toNat with
  | 0 => do
    let (md, m) ← opM f.x; let (a, r) ← opW f.y; let rel ← vrelOf m r; let b ← wgi f.zhi; let k ← maskOnly f.zlo
    return .vcmp c rel md a b k
  | 1 => do
    let d ← w0 f.x; let a ← w0 f.y; let b ← w0 f.zhi; let k ← maskOnly f.zlo
    return .vsel c d a b k
  | 2 => do
    let md ← noMod (opM f.x); let ma ← noMod (opM f.y); let mb ← noMod (opM f.zhi); unused f.zlo
    return .mand c md ma mb
  | 3 => do
    let md ← noMod (opM f.x); let ma ← noMod (opM f.y); let mb ← noMod (opM f.zhi); unused f.zlo
    return .mor c md ma mb
  | 4 => do
    let md ← noMod (opM f.x); let ma ← noMod (opM f.y); unused f.zhi; unused f.zlo
    return .mnot c md ma
  | _ => none

def parseVperm (f : Fields) (c : Ctl) : Option Instr :=
  match f.minor.toNat with
  | 0 => do
    let d ← w0 f.x; let a ← w0 f.y; let i ← w0 f.zhi; let k ← maskOnly f.zlo
    return .vperm c d a i k
  | 1 => do
    let d ← w0 f.x; let a ← w0 f.y; let b ← w0 f.zhi; let (i, k) ← opW f.zlo; let k ← maskOf k
    return .vshuf c d a b i k
  | 2 => do
    let (d, m) ← opW f.x; let t ← nfmt m; let s ← gi f.y; unused f.zhi; let k ← maskOnly f.zlo
    return .vbcast c t d s k
  | 3 => do
    let d ← g0 f.x; let a ← w0 f.y; let l ← smallN 5 f.zhi; unused f.zlo
    return .vextr c d a l
  | 4 => do
    let d ← w0 f.x; let s ← gi f.y; let l ← smallN 5 f.zhi; unused f.zlo
    return .vins c d s l
  | _ => none

def parseVred (f : Fields) (c : Ctl) : Option Instr := do
  let (d, m) ← opW f.x; let (a, r) ← opW f.y; unused f.zhi; let k ← maskOnly f.zlo
  match f.minor.toNat with
  | 0 => (sumFmt m r).map fun t => .vrsum c t d a k
  | 1 => if r = 0 then (maxFmt m).map fun t => .vrmax c t d a k else none
  | 2 => if r = 0 then (maxFmt m).map fun t => .vrmin c t d a k else none
  | _ => none

def parseVcvt (f : Fields) (c : Ctl) : Option Instr :=
  match f.minor.toNat with
  | 0 => do
    let (d, m) ← opW f.x; let dst ← nfmt m; let (a, r) ← opW f.y; let rm ← rmSatOf r
    let s ← nibbleOnly f.zhi; let src ← nfmt s; let k ← maskOnly f.zlo
    return .vcvt c dst rm src d a k
  | 1 => do
    let (d, m) ← opW f.x; let px ← pxfmt m; let (a, r) ← opW f.y; let rm ← rmOf r
    let s ← nibbleOnly f.zhi; let src ← ffmt s; unused f.zlo
    return .vpxenc c px rm src d a
  | 2 => do
    let (d, m) ← opW f.x; let dst ← ffmt m; let (a, r) ← opW f.y; let rm ← rmOf r
    let s ← nibbleOnly f.zhi; let px ← pxfmt s; unused f.zlo
    return .vpxdec c dst rm px d a
  | _ => none

def parseVlmem (f : Fields) (c : Ctl) : Option Instr := do
  let d ← w0 f.x; let w ← g0 f.y
  match f.minor.toNat, f.imm with
  | 0, true => some (.vldlImmediate c d w f.z)
  | 1, true => some (.vstlImmediate c d w f.z)
  | 0, false => do let off ← opSmall f.zhi; let k ← maskOnly f.zlo; return .vldlRegister c d w off k
  | 1, false => do let off ← opSmall f.zhi; let k ← maskOnly f.zlo; return .vstlRegister c d w off k
  | 2, false => do let i ← w0 f.zhi; let k ← maskOnly f.zlo; return .vldx c d w i k
  | 3, false => do let i ← w0 f.zhi; let k ← maskOnly f.zlo; return .vstx c d w i k
  | _, _ => none

def parseVreg (f : Fields) (c : Ctl) : Option Instr :=
  match f.minor.toNat with
  | 0 => do let qd ← q3 f.x; unused f.y; unused f.zhi; unused f.zlo; return .allot c qd
  | 1 => do let qd ← q3 f.x; unused f.y; unused f.zhi; unused f.zlo; return .shrink c qd
  | 2 => do
    let d ← w0 f.x; let a ← w0 f.y; unused f.zhi; let k ← maskOnly f.zlo
    return .vmov c d a k
  | _ => none

def parseMat (f : Fields) (c : Ctl) : Option Instr :=
  match f.minor.toNat with
  | 0 => do
    let qd ← q3 f.x; let k ← noMod (opSlot f.y); unused f.zhi; unused f.zlo
    return .mclaim c qd k
  | 1 => do
    let k ← noMod (opSlot f.x); unused f.y; unused f.zhi; unused f.zlo
    return .mrel c k
  | 2 => do
    let k ← noMod (opSlot f.x); let w ← g0 f.y
    if f.imm then return .mloadImmediate c k w f.z
    else
      let d ← g0 f.zhi; unused f.zlo
      return .mloadRegister c k w d
  | 3 => do
    let a ← noMod (opTile f.x); unused f.y
    if f.imm ∧ f.z.extractLsb' 3 29 = 0 then some (.mcfg c a (f.z.extractLsb' 0 3)) else none
  | 4 => do
    let a ← noMod (opTile f.x); unused f.y; unused f.zhi; unused f.zlo
    return .mzero c a
  | 5 => do
    let (a, m) ← opTile f.x; let t ← mfmt m; let ka ← noMod (opSlot f.y); let kb ← noMod (opSlot f.zhi)
    let tag ← smallN 4 f.zlo
    return .mgang c t a ka kb tag
  | 6 => do
    let a ← noMod (opTile f.x); unused f.y; unused f.zhi; unused f.zlo
    return .mwait c a
  | 7 => do
    let d ← w0 f.x; let a ← noMod (opTile f.y); let j ← smallN 5 f.zhi; unused f.zlo
    return .mrdacc c d a j
  | 8 => do
    let a ← noMod (opTile f.x); let s ← w0 f.y; let j ← smallN 5 f.zhi; unused f.zlo
    return .mwracc c a s j
  | 9 => do
    let a ← noMod (opTile f.x); let w ← g0 f.y; let off ← srcZ f
    return .mstacc c a w off
  | _ => none

def formMem (f : Fields) (mk : MemFmt → Policy → BitVec 6 → BitVec 6 → SrcZ → Instr) : Option Instr := do
  let (d, m) ← opG f.x; let t ← memFmt m; let (w, p) ← opG f.y; let p ← policyOf p; let off ← srcZ f
  return mk t p d w off

def parseMem (f : Fields) (c : Ctl) : Option Instr :=
  match f.minor.toNat with
  | 0 => formMem f (.ld c)
  | 1 => formMem f (.st c)
  | 2 => do
    unused f.x; let (w, p) ← opG f.y; let p ← policyOf p; let off ← srcZ f
    return .pref c p w off
  | m =>
    if m < 0x10 then do let s ← scopeOf (m - 8); formMem f (.ldacq c s)
    else do let s ← scopeOf (m - 0x10); formMem f (.strel c s)

def parseFence (f : Fields) (c : Ctl) : Option Instr :=
  let m := f.minor.toNat
  if m < 8 then do let s ← scopeOf m; noXYZ f (.fence c s)
  else if m < 0x10 then do let s ← scopeOf (m - 8); noXYZ f (.fenceRed c s)
  else noXYZ f (.fenceEng c)

def parseAmo (f : Fields) (c : Ctl) : Option Instr := do
  let w ← g0 f.y; let off ← gi f.zlo; let (v, o) ← opG f.zhi
  let m := f.minor.toNat
  if m < 8 then
    let s ← scopeOf m; let (d, k) ← opG f.x; let t ← afmt k; let op ← amoOpOf o
    return .amo c s t op d w v off
  else if m < 0x10 then
    let s ← scopeOf (m - 8); let (d, k) ← opG f.x; let t ← afmt k; unused (encNibble o)
    return .cas c s t d w v off
  else
    let s ← scopeOf (m - 0x10); let k ← nibbleOnly f.x; let t ← afmt k; let op ← amoOpOf o
    return .red c s t op w v off

def parseSync (f : Fields) (c : Ctl) : Option Instr := do
  let w ← g0 f.y
  match f.minor.toNat with
  | 0 => do
    let (d, m) ← opG f.x; let t ← wfmt m; let (v, r) ← opG f.zhi; let rel ← relOf r; let off ← gi f.zlo
    return .swait c t rel d w v off
  | 1 => do let d ← g0 f.x; let off ← srcZ f; return .fwait c d w off
  | 2 => do let v ← g0 f.x; let off ← srcZ f; return .fset c v w off
  | 3 => do unused f.x; let off ← srcZ f; return .fclr c w off
  | _ => none

/-- s-space operands of JWAIT, CWWAIT and JSTAT (R232). -/
def counterOp (base : Nat) (o : BitVec 16) : Option (BitVec 2) :=
  match noMod (opS o) with
  | some n => if base ≤ n.toNat ∧ n.toNat < base + 4 then some (BitVec.ofNat 2 (n.toNat - base)) else none
  | none => none
def encCounter (base : Nat) (n : BitVec 2) : BitVec 16 := encS (BitVec.ofNat 9 (base + n.toNat)) 0

def parseEng (f : Fields) (c : Ctl) : Option Instr :=
  match f.minor.toNat with
  | 0 => do
    let d ← g0 f.x; let w ← g0 f.y; let s ← g0 f.zhi; let t ← g0 f.zlo
    return .job c d w s t
  | 1 => do
    let n ← counterOp 0x18 f.x; let v ← gi f.y; unused f.zhi; unused f.zlo
    return .jwait c n v
  | 2 => do
    let n ← counterOp 0x14 f.x; let v ← gi f.y; unused f.zhi; unused f.zlo
    return .cwwait c n v
  | 3 => do
    let d ← g0 f.x; let n ← counterOp 0x18 f.y; unused f.zhi; unused f.zlo
    return .jstat c d n
  | _ => none

/-- A g register, or the none operand 0xF000 (R256). -/
def carriedOp (o : BitVec 16) : Option (Option (BitVec 6)) :=
  if o = 0xF000 then some none else (g0 o).map some
def encCarried : Option (BitVec 6) → BitVec 16
  | none => 0xF000
  | some n => encG n 0

def payloadOp (o : BitVec 16) : Option Payload :=
  match gi o with
  | some (.g n) => some (.g n)
  | some (.small v) => some (.small v)
  | none => (opW o).map fun p => .w p.1 p.2
def encPayload : Payload → BitVec 16
  | .g n => encG n 0
  | .small v => encSmall v
  | .w o l => encW o l

def rdstOp (o : BitVec 16) : Option RDst :=
  match g0 o with
  | some n => some (.g n)
  | none => (w0 o).map .w
def encRDst : RDst → BitVec 16
  | .g n => encG n 0
  | .w o => encW o 0

def parseChan (f : Fields) (c : Ctl) : Option Instr :=
  match f.minor.toNat with
  | 0 => do let s ← g0 f.x; let r ← g0 f.y; if f.imm then some (.chan c s r f.z) else none
  | 1 => do
    let qd ← q3 f.x; let e ← g0 f.y; let v ← payloadOp f.zhi; let k ← carriedOp f.zlo
    return .send c qd e v k
  | 2 => do
    let d ← rdstOp f.x; let e ← g0 f.y; let k ← carriedOp f.zhi; let qd ← q3 f.zlo
    return .recv c d e k qd
  | 3 => do
    let d ← rdstOp f.x; let e ← g0 f.y; let k ← carriedOp f.zhi; let qd ← q3 f.zlo
    return .tryrecv c d e k qd
  | 4 => do let d ← g0 f.x; let b ← g0 f.y; if f.imm then some (.select c d b f.z) else none
  | 5 => formDA f (.close c)
  | 6 => formDA f (.endinfo c)
  | _ => none

def parseCtx (f : Fields) (c : Ctl) : Option Instr :=
  match f.minor.toNat with
  | 0 => do
    let qd ← q3 f.x; let h ← g0 f.y
    if f.imm then return .startRelative c qd h f.z
    else
      let t ← g0 f.zhi; unused f.zlo
      return .startRegister c qd h t
  | 1 => do
    let qd ← q3 f.x; let h ← gi f.y; unused f.zhi; unused f.zlo
    return .hjoin c qd h
  | 2 => noXYZ f (.hexit c)
  | 3 => noXYZ f (.yield c)
  | 4 => do
    let d ← g0 f.x; let m ← gi f.y; unused f.zhi; unused f.zlo
    return .waitev c d m
  | _ => none

def parseGang (f : Fields) (c : Ctl) : Option Instr :=
  match f.minor.toNat with
  | 0 => noXYZ f (.bar c)
  | 1 => noXYZ f (.xend c)
  | 2 => do
    let r ← opRole f.x; let w ← g0 f.y; let d ← g0 f.zhi; unused f.zlo
    return .xcast c r w d
  | 3 => do
    let d ← g0 f.x; let i ← smallN 3 f.y; unused f.zhi; unused f.zlo
    return .widf c d i
  | 4 => do
    let d ← g0 f.x; unused f.zhi; unused f.zlo
    match opRole f.y with
    | some r => some (.roleq c d (.role r))
    | none => (g0 f.y).map fun n => .roleq c d (.g n)
  | _ => none

def parseGraph (f : Fields) (c : Ctl) : Option Instr :=
  match f.minor.toNat with
  | 0 => do
    let d ← g0 f.x; let g ← g0 f.y; let n ← gi f.zhi; let k ← gi f.zlo
    return .gpost c d g n k
  | 1 => noXYZ f (.trigStart c)
  | 2 => do
    let v ← gi f.x; unused f.y; unused f.zhi; unused f.zlo
    return .trigDone c v
  | 3 => do
    let qd ← q3 f.x; unused f.y; unused f.zhi; unused f.zlo
    return .waitp c qd
  | 4 => do
    let d ← g0 f.x; let m ← g0 f.y; let s ← g0 f.zhi; let n ← gi f.zlo
    return .glaunch c d m s n
  | 5 => do
    let qd ← q3 f.x; let g ← g0 f.y; let n ← gi f.zhi; unused f.zlo
    return .gcancel c qd g n
  | 6 => do
    let d ← g0 f.x; let g ← g0 f.y; let s ← smallN 4 f.zhi; let n ← gi f.zlo
    return .gstat c d g s n
  | _ => none

def parseStage (f : Fields) (c : Ctl) : Option Instr :=
  match f.minor.toNat with
  | 0 => do let v ← gi f.x; unused f.y; unused f.zhi; unused f.zlo; return .sret c v
  | 1 => do
    let d ← g0 f.x; let s ← smallN 1 f.y; unused f.zhi; unused f.zlo
    return .keyr c d s
  | 2 => do
    let qd ← q3 f.x; let op ← smallN 2 f.y; unused f.zhi; unused f.zlo
    match op.toNat with
    | 0 => some (.shintArm c qd)
    | 1 => some (.shintClone c qd)
    | 2 => some (.shintMerge c qd)
    | _ => some (.shintDisarm c qd)
  | _ => none

def parseDbg (f : Fields) (c : Ctl) : Option Instr :=
  match f.minor.toNat with
  | 0 => do let k ← smallN 8 f.x; unused f.y; unused f.zhi; unused f.zlo; return .bkpt c k
  | 1 => do let v ← gi f.x; unused f.y; unused f.zhi; unused f.zlo; return .mark c v
  | 2 => do
    let d ← g0 f.x; let n ← smallN 4 f.y; unused f.zhi; unused f.zlo
    return .rdcnt c d n
  | 3 => do
    let d ← g0 f.x; let n ← gi f.y; unused f.zhi; unused f.zlo
    return .monq c d n
  | _ => none

def parse (f : Fields) : Option Instr :=
  let c := f.ctl
  match f.cls.toNat with
  | 0x00 => parseSys f c | 0x01 => parseBr f c | 0x02 => parseIalu f c | 0x03 => parseImul f c
  | 0x04 => parseIbit f c | 0x05 => parseImm f c | 0x06 => parseCmp f c | 0x07 => parseFpu f c
  | 0x08 => parseLmem f c | 0x09 => parseCap f c | 0x10 => parseVarith f c | 0x11 => parseVint f c
  | 0x12 => parseVmask f c | 0x13 => parseVperm f c | 0x14 => parseVred f c | 0x15 => parseVcvt f c
  | 0x16 => parseVlmem f c | 0x17 => parseVreg f c | 0x18 => parseMat f c | 0x20 => parseMem f c
  | 0x21 => parseFence f c | 0x22 => parseAmo f c | 0x23 => parseSync f c | 0x24 => parseEng f c
  | 0x28 => parseChan f c | 0x30 => parseCtx f c | 0x31 => parseGang f c | 0x32 => parseGraph f c
  | 0x33 => parseStage f c | 0x38 => parseDbg f c
  | _ => none

/-- The word's checks 1 to 5 of R67, in order. A role index is compared with the role count at issue. -/
def decodeFields (f : Fields) : Decoded :=
  match minorForm f.cls.toNat f.minor.toNat with
  | none => .illegal .reservedClass
  | some none => .illegal .unassignedMinor
  | some (some form) =>
    if f.imm && form == .never then .illegal .noImmediateForm
    else if f.hint.extractLsb' 8 2 = 3#2 then .illegal .illegalPhase
    else match parse f with
      | none => .illegal .operand
      | some i => if i.wellFormed then .ok i else .illegal .operand

def decodeWord (w : BitVec 96) : Decoded := decodeFields (fieldsOf w)

/-- Bytes, lowest address first (R47). -/
def wordOfBytes : List Byte → Nat
  | [] => 0
  | b :: bs => b.toNat + 256 * wordOfBytes bs

/-- Decode the 12 bytes at the front of a list and give the rest back; none when there are fewer. -/
def decode (bs : List Byte) : Option (Decoded × List Byte) :=
  if bs.length < 12 then none
  else some (decodeWord (BitVec.ofNat 96 (wordOfBytes (bs.take 12))), bs.drop 12)

/-- The instruction of a row's bits: the word is one piece of 12 little-endian bytes (R47), so bit 0 of the
row is bit 0 of the word. -/
def decodeTableWord (_nbits w : Nat) : Option Instr :=
  match decodeWord (BitVec.ofNat 96 w) with
  | .ok i => some i
  | .illegal _ => none

/-! ## The encoder -/

def mkF (c : Ctl) (cls : BitVec 6) (imm : Bool) (minor : BitVec 7) (x y zhi zlo : BitVec 16) : Fields :=
  { cls, imm, minor, guard := c.guard, hint := c.hint, x, y, zhi, zlo }

/-- A word with a 32-bit immediate. -/
def mkI (c : Ctl) (cls : BitVec 6) (minor : BitVec 7) (x y : BitVec 16) (z : BitVec 32) : Fields :=
  mkF c cls true minor x y (z.extractLsb' 16 16) (z.extractLsb' 0 16)

/-- A word whose Z is given by R122. -/
def mkZ (c : Ctl) (cls : BitVec 6) (minor : BitVec 7) (x y : BitVec 16) : SrcZ → Fields
  | .imm z => mkI c cls minor x y z
  | .g n => mkF c cls false minor x y (encG n 0) 0
  | .small v => mkF c cls false minor x y (encSmall v) 0

def encDAZ (c : Ctl) (cls : BitVec 6) (minor : BitVec 7) (d a : BitVec 6) (b : SrcZ) : Fields :=
  mkZ c cls minor (encG d 0) (encG a 0) b
def encDA (c : Ctl) (cls : BitVec 6) (minor : BitVec 7) (d a : BitVec 6) : Fields :=
  mkF c cls false minor (encG d 0) (encG a 0) 0 0
def encField (c : Ctl) (minor : BitVec 7) (d a : BitVec 6) (p n : GI) : Fields :=
  mkF c 4 false minor (encG d 0) (encG a 0) (encGI p) (encGI n)
def encArith (c : Ctl) (minor : BitVec 7) (f : FFmt) (rm : Rm) (d a b : BitVec 6) : Fields :=
  mkF c 7 false minor (encG d f.code) (encG a rm.code) (encG b 0) 0
def encVBin (c : Ctl) (minor : BitVec 7) (f : FFmt) (rm : Rm) (d a : WOp) (b : WG) (m : BitVec 3) : Fields :=
  mkF c 0x10 false minor (encW d f.code) (encW a rm.code) (encWG b) (encMask m)
def encVUn (c : Ctl) (minor : BitVec 7) (f : FFmt) (rm : Rm) (d a : WOp) (m : BitVec 3) : Fields :=
  mkF c 0x10 false minor (encW d f.code) (encW a rm.code) 0 (encMask m)
def encVInt (c : Ctl) (minor : BitVec 7) (f : IFmt) (d a : WOp) (b : WGI) (m : BitVec 3) : Fields :=
  mkF c 0x11 false minor (encW d f.code) (encW a 0) (encWGI b) (encMask m)
def encMem (c : Ctl) (minor : BitVec 7) (f : MemFmt) (p : Policy) (d w : BitVec 6) (off : SrcZ) : Fields :=
  mkZ c 0x20 minor (encG d f.code) (encG w p.code) off
def encQ (qd : BitVec 3) : BitVec 16 := encSmallN qd
def encCtxReg : CtxReg → BitVec 16
  | .g n => encG n 0
  | .m n => encM n 0
  | .q n => encQ n
  | .s n => encS n 0
def encVMod (o : WG) (m : BitVec 4) : BitVec 16 :=
  match o with
  | .g n => encG n m
  | .w w => encW w m

/-- The fields of an instruction word; none for the steps of the agents, which no word encodes. -/
def encodeFields : Instr → Option Fields
  | .nop c => some (mkF c 0 false 0 0 0 0 0)
  | .trap c code v => some (mkF c 0 false 1 (encSmallN code) (encGI v) 0 0)
  | .eretRetry c qd ctx => some (mkF c 0 false 2 (encQ qd) (encSmallN ctx) (encSmall 0) 0)
  | .eretSkip c qd ctx => some (mkF c 0 false 2 (encQ qd) (encSmallN ctx) (encSmall 1) 0)
  | .eretExit c qd ctx => some (mkF c 0 false 2 (encQ qd) (encSmallN ctx) (encSmall 2) 0)
  | .rds c d s => some (mkF c 0 false 3 (encG d 0) (encS s 0) 0 0)
  | .rdsContext c d s ctx => some (mkF c 0 false 3 (encG d 0) (encCtxReg s) (encSmallN ctx) 0)
  | .wrs c s v => some (mkF c 0 false 4 (encS s 0) (encGI v) 0 0)
  | .wrsContext c s v ctx => some (mkF c 0 false 4 (encCtxReg s) (encGI v) (encSmallN ctx) 0)
  | .retarm c d ctx => some (mkF c 0 false 5 (encG d 0) (encSmallN ctx) 0 0)
  | .scall c d e b s => some (mkF c 0 false 6 (encG d 0) (encG e 0) (encG b 0) (encGI s))
  | .bra c off => some (mkI c 1 0 0 0 off)
  | .brx c t => some (mkF c 1 false 1 (encG t 0) 0 0 0)
  | .callRelative c l off => some (mkI c 1 2 (encG l 0) 0 off)
  | .callRegister c l t => some (mkF c 1 false 2 (encG l 0) 0 (encG t 0) 0)
  | .ret c l => some (mkF c 1 false 3 (encG l 0) 0 0 0)
  | .loop c n off => some (mkI c 1 4 (encG n 0) 0 off)
  | .add c d a b => some (encDAZ c 2 0 d a b)
  | .sub c d a b => some (encDAZ c 2 1 d a b)
  | .and c d a b => some (encDAZ c 2 2 d a b)
  | .or c d a b => some (encDAZ c 2 3 d a b)
  | .xor c d a b => some (encDAZ c 2 4 d a b)
  | .andn c d a b => some (encDAZ c 2 5 d a b)
  | .shl c d a b => some (encDAZ c 2 6 d a b)
  | .shr c d a b => some (encDAZ c 2 7 d a b)
  | .sar c d a b => some (encDAZ c 2 8 d a b)
  | .rot c d a b => some (encDAZ c 2 9 d a b)
  | .min c d a b => some (encDAZ c 2 10 d a b)
  | .max c d a b => some (encDAZ c 2 11 d a b)
  | .minn c d a b => some (encDAZ c 2 12 d a b)
  | .maxn c d a b => some (encDAZ c 2 13 d a b)
  | .mul c d a b => some (encDAZ c 3 0 d a b)
  | .mulh c d a b => some (encDAZ c 3 1 d a b)
  | .mulhn c d a b => some (encDAZ c 3 2 d a b)
  | .div c d a b => some (encDAZ c 3 3 d a b)
  | .divn c d a b => some (encDAZ c 3 4 d a b)
  | .rem c d a b => some (encDAZ c 3 5 d a b)
  | .remn c d a b => some (encDAZ c 3 6 d a b)
  | .clz c d a => some (encDA c 4 0 d a)
  | .ctz c d a => some (encDA c 4 1 d a)
  | .popc c d a => some (encDA c 4 2 d a)
  | .bfx c d a p n => some (encField c 3 d a p n)
  | .bfxs c d a p n => some (encField c 4 d a p n)
  | .bfi c d a p n => some (encField c 5 d a p n)
  | .brev c d a => some (encDA c 4 6 d a)
  | .ext c d f a => some (mkF c 4 false 7 (encG d f.code) (encG a 0) 0 0)
  | .movi c d z => some (mkI c 5 0 (encG d 0) 0 z)
  | .movh c d z => some (mkI c 5 1 (encG d 0) 0 z)
  | .cmp c qd r a b => some (mkZ c 6 0 (encQ qd) (encG a r.code) b)
  | .sel c d qs a b => some (mkF c 6 false 1 (encG d 0) (encQ qs) (encG a 0) (encG b 0))
  | .pand c qd qa qb => some (mkF c 6 false 2 (encQ qd) (encQ qa) (encQ qb) 0)
  | .por c qd qa qb => some (mkF c 6 false 3 (encQ qd) (encQ qa) (encQ qb) 0)
  | .pnot c qd qa => some (mkF c 6 false 4 (encQ qd) (encQ qa) 0 0)
  | .fadd c f rm d a b => some (encArith c 0 f rm d a b)
  | .fsub c f rm d a b => some (encArith c 1 f rm d a b)
  | .fmul c f rm d a b => some (encArith c 2 f rm d a b)
  | .ffma c f rm d a b e => some (mkF c 7 false 3 (encG d f.code) (encG a rm.code) (encG b 0) (encG e 0))
  | .fdiv c f rm d a b => some (encArith c 4 f rm d a b)
  | .fsqrt c f rm d a => some (mkF c 7 false 5 (encG d f.code) (encG a rm.code) 0 0)
  | .fmin c f d a b => some (mkF c 7 false 6 (encG d f.code) (encG a 0) (encG b 0) 0)
  | .fmax c f d a b => some (mkF c 7 false 7 (encG d f.code) (encG a 0) (encG b 0) 0)
  | .fcmp c f r qd a b => some (mkF c 7 false 8 (encQ qd) (encG a f.code) (encG b r.code) 0)
  | .fclass c f d a => some (mkF c 7 false 9 (encG d f.code) (encG a 0) 0 0)
  | .fcvt c dst rm src d a => some (mkF c 7 false 10 (encG d dst.code) (encG a rm.code) (encNibble src.code) 0)
  | .fsgn c f op d a b => some (mkF c 7 false 11 (encG d f.code) (encG a 0) (encG b op.code) 0)
  | .ldl c f d w off => some (mkZ c 8 0 (encG d f.code) (encG w 0) off)
  | .stl c f s w off => some (mkZ c 8 1 (encG s f.code) (encG w 0) off)
  | .cbound c d s b => some (encDAZ c 9 0 d s b)
  | .cperm c d s b => some (encDAZ c 9 1 d s b)
  | .cget c d s k => some (mkF c 9 false 2 (encG d 0) (encG s 0) (encSmallN k) 0)
  | .cderive c d s b => some (encDAZ c 9 3 d s b)
  | .ctest c qd s k => some (mkF c 9 false 4 (encQ qd) (encG s 0) (encSmallN k) 0)
  | .cnull c d => some (mkF c 9 false 5 (encG d 0) 0 0 0)
  | .cmove c d s => some (encDA c 9 6 d s)
  | .vadd c f rm d a b m => some (encVBin c 0 f rm d a b m)
  | .vsub c f rm d a b m => some (encVBin c 1 f rm d a b m)
  | .vmul c f rm d a b m => some (encVBin c 2 f rm d a b m)
  | .vfma c f rm d a b e m =>
    some (mkF c 0x10 false 3 (encW d f.code) (encVMod a rm.code) (encWG b) (encW e (BitVec.ofNat 4 m.toNat)))
  | .vmin c f d a b m => some (mkF c 0x10 false 4 (encW d f.code) (encW a 0) (encWG b) (encMask m))
  | .vmax c f d a b m => some (mkF c 0x10 false 5 (encW d f.code) (encW a 0) (encWG b) (encMask m))
  | .vabs c f d a m => some (mkF c 0x10 false 6 (encW d f.code) (encW a 0) 0 (encMask m))
  | .vneg c f d a m => some (mkF c 0x10 false 7 (encW d f.code) (encW a 0) 0 (encMask m))
  | .vrcp c f rm d a m => some (encVUn c 8 f rm d a m)
  | .vrsq c f rm d a m => some (encVUn c 9 f rm d a m)
  | .vexp2 c f rm d a m => some (encVUn c 10 f rm d a m)
  | .vlog2 c f rm d a m => some (encVUn c 11 f rm d a m)
  | .vdiv c f rm d a b m => some (encVBin c 12 f rm d a b m)
  | .viadd c f d a b m => some (encVInt c 0 f d a b m)
  | .visub c f d a b m => some (encVInt c 1 f d a b m)
  | .vimul c f d a b m => some (encVInt c 2 f d a b m)
  | .vand c f d a b m => some (encVInt c 3 f d a b m)
  | .vor c f d a b m => some (encVInt c 4 f d a b m)
  | .vxor c f d a b m => some (encVInt c 5 f d a b m)
  | .vshl c f d a b m => some (encVInt c 6 f d a b m)
  | .vshr c f d a b m => some (encVInt c 7 f d a b m)
  | .vsar c f d a b m => some (encVInt c 8 f d a b m)
  | .vcmp c r md a b m => some (mkF c 0x12 false 0 (encM md r.fmtCode) (encW a r.relCode) (encWGI b) (encMask m))
  | .vsel c d a b m => some (mkF c 0x12 false 1 (encW d 0) (encW a 0) (encW b 0) (encMask m))
  | .mand c md ma mb => some (mkF c 0x12 false 2 (encM md 0) (encM ma 0) (encM mb 0) 0)
  | .mor c md ma mb => some (mkF c 0x12 false 3 (encM md 0) (encM ma 0) (encM mb 0) 0)
  | .mnot c md ma => some (mkF c 0x12 false 4 (encM md 0) (encM ma 0) 0 0)
  | .vperm c d a i m => some (mkF c 0x13 false 0 (encW d 0) (encW a 0) (encW i 0) (encMask m))
  | .vshuf c d a b i m =>
    some (mkF c 0x13 false 1 (encW d 0) (encW a 0) (encW b 0) (encW i (BitVec.ofNat 4 m.toNat)))
  | .vbcast c f d s m => some (mkF c 0x13 false 2 (encW d f.code) (encGI s) 0 (encMask m))
  | .vextr c d a l => some (mkF c 0x13 false 3 (encG d 0) (encW a 0) (encSmallN l) 0)
  | .vins c d s l => some (mkF c 0x13 false 4 (encW d 0) (encGI s) (encSmallN l) 0)
  | .vrsum c f d a m => some (mkF c 0x14 false 0 (encW d f.fmtCode) (encW a f.rmCode) 0 (encMask m))
  | .vrmax c f d a m => some (mkF c 0x14 false 1 (encW d f.code) (encW a 0) 0 (encMask m))
  | .vrmin c f d a m => some (mkF c 0x14 false 2 (encW d f.code) (encW a 0) 0 (encMask m))
  | .vcvt c dst rm src d a m =>
    some (mkF c 0x15 false 0 (encW d dst.code) (encW a rm.code) (encNibble src.code) (encMask m))
  | .vpxenc c px rm src d a => some (mkF c 0x15 false 1 (encW d px.code) (encW a rm.code) (encNibble src.code) 0)
  | .vpxdec c dst rm px d a => some (mkF c 0x15 false 2 (encW d dst.code) (encW a rm.code) (encNibble px.code) 0)
  | .vldlImmediate c d w off => some (mkI c 0x16 0 (encW d 0) (encG w 0) off)
  | .vldlRegister c d w off m => some (mkF c 0x16 false 0 (encW d 0) (encG w 0) (encSmall off) (encMask m))
  | .vstlImmediate c s w off => some (mkI c 0x16 1 (encW s 0) (encG w 0) off)
  | .vstlRegister c s w off m => some (mkF c 0x16 false 1 (encW s 0) (encG w 0) (encSmall off) (encMask m))
  | .vldx c d w i m => some (mkF c 0x16 false 2 (encW d 0) (encG w 0) (encW i 0) (encMask m))
  | .vstx c s w i m => some (mkF c 0x16 false 3 (encW s 0) (encG w 0) (encW i 0) (encMask m))
  | .allot c qd => some (mkF c 0x17 false 0 (encQ qd) 0 0 0)
  | .shrink c qd => some (mkF c 0x17 false 1 (encQ qd) 0 0 0)
  | .vmov c d a m => some (mkF c 0x17 false 2 (encW d 0) (encW a 0) 0 (encMask m))
  | .mclaim c qd k => some (mkF c 0x18 false 0 (encQ qd) (encSlot k 0) 0 0)
  | .mrel c k => some (mkF c 0x18 false 1 (encSlot k 0) 0 0 0)
  | .mloadImmediate c k w desc => some (mkI c 0x18 2 (encSlot k 0) (encG w 0) desc)
  | .mloadRegister c k w d => some (mkF c 0x18 false 2 (encSlot k 0) (encG w 0) (encG d 0) 0)
  | .mcfg c a shape => some (mkI c 0x18 3 (encTile a 0) 0 (0#29 ++ shape))
  | .mzero c a => some (mkF c 0x18 false 4 (encTile a 0) 0 0 0)
  | .mgang c f a ka kb tag => some (mkF c 0x18 false 5 (encTile a f.code) (encSlot ka 0) (encSlot kb 0) (encSmallN tag))
  | .mwait c a => some (mkF c 0x18 false 6 (encTile a 0) 0 0 0)
  | .mrdacc c d a j => some (mkF c 0x18 false 7 (encW d 0) (encTile a 0) (encSmallN j) 0)
  | .mwracc c a s j => some (mkF c 0x18 false 8 (encTile a 0) (encW s 0) (encSmallN j) 0)
  | .mstacc c a w off => some (mkZ c 0x18 9 (encTile a 0) (encG w 0) off)
  | .ld c f p d w off => some (encMem c 0 f p d w off)
  | .st c f p s w off => some (encMem c 1 f p s w off)
  | .pref c p w off => some (mkZ c 0x20 2 0 (encG w p.code) off)
  | .ldacq c sc f p d w off => some (encMem c (0x08 + sc.code) f p d w off)
  | .strel c sc f p s w off => some (encMem c (0x10 + sc.code) f p s w off)
  | .fence c sc => some (mkF c 0x21 false sc.code 0 0 0 0)
  | .fenceRed c sc => some (mkF c 0x21 false (0x08 + sc.code) 0 0 0 0)
  | .fenceEng c => some (mkF c 0x21 false 0x10 0 0 0 0)
  | .amo c sc f op d w v off => some (mkF c 0x22 false sc.code (encG d f.code) (encG w 0) (encG v op.code) (encGI off))
  | .cas c sc f d w e off => some (mkF c 0x22 false (0x08 + sc.code) (encG d f.code) (encG w 0) (encG e 0) (encGI off))
  | .red c sc f op w v off =>
    some (mkF c 0x22 false (0x10 + sc.code) (encNibble f.code) (encG w 0) (encG v op.code) (encGI off))
  | .swait c f r d w v off => some (mkF c 0x23 false 0 (encG d f.code) (encG w 0) (encG v r.code) (encGI off))
  | .fwait c d w off => some (mkZ c 0x23 1 (encG d 0) (encG w 0) off)
  | .fset c v w off => some (mkZ c 0x23 2 (encG v 0) (encG w 0) off)
  | .fclr c w off => some (mkZ c 0x23 3 0 (encG w 0) off)
  | .job c d w s t => some (mkF c 0x24 false 0 (encG d 0) (encG w 0) (encG s 0) (encG t 0))
  | .jwait c n v => some (mkF c 0x24 false 1 (encCounter 0x18 n) (encGI v) 0 0)
  | .cwwait c n v => some (mkF c 0x24 false 2 (encCounter 0x14 n) (encGI v) 0 0)
  | .jstat c d n => some (mkF c 0x24 false 3 (encG d 0) (encCounter 0x18 n) 0 0)
  | .chan c s r cfg => some (mkI c 0x28 0 (encG s 0) (encG r 0) cfg)
  | .send c qd e v k => some (mkF c 0x28 false 1 (encQ qd) (encG e 0) (encPayload v) (encCarried k))
  | .recv c d e k qd => some (mkF c 0x28 false 2 (encRDst d) (encG e 0) (encCarried k) (encQ qd))
  | .tryrecv c d e k qd => some (mkF c 0x28 false 3 (encRDst d) (encG e 0) (encCarried k) (encQ qd))
  | .select c d b mask => some (mkI c 0x28 4 (encG d 0) (encG b 0) mask)
  | .close c d e => some (encDA c 0x28 5 d e)
  | .endinfo c d e => some (encDA c 0x28 6 d e)
  | .startRelative c qd h off => some (mkI c 0x30 0 (encQ qd) (encG h 0) off)
  | .startRegister c qd h t => some (mkF c 0x30 false 0 (encQ qd) (encG h 0) (encG t 0) 0)
  | .hjoin c qd h => some (mkF c 0x30 false 1 (encQ qd) (encGI h) 0 0)
  | .hexit c => some (mkF c 0x30 false 2 0 0 0 0)
  | .yield c => some (mkF c 0x30 false 3 0 0 0 0)
  | .waitev c d m => some (mkF c 0x30 false 4 (encG d 0) (encGI m) 0 0)
  | .bar c => some (mkF c 0x31 false 0 0 0 0 0)
  | .xend c => some (mkF c 0x31 false 1 0 0 0 0)
  | .xcast c r w d => some (mkF c 0x31 false 2 (encRole r) (encG w 0) (encG d 0) 0)
  | .widf c d i => some (mkF c 0x31 false 3 (encG d 0) (encSmallN i) 0 0)
  | .roleq c d (.role r) => some (mkF c 0x31 false 4 (encG d 0) (encRole r) 0 0)
  | .roleq c d (.g n) => some (mkF c 0x31 false 4 (encG d 0) (encG n 0) 0 0)
  | .gpost c d g n k => some (mkF c 0x32 false 0 (encG d 0) (encG g 0) (encGI n) (encGI k))
  | .trigStart c => some (mkF c 0x32 false 1 0 0 0 0)
  | .trigDone c v => some (mkF c 0x32 false 2 (encGI v) 0 0 0)
  | .waitp c qd => some (mkF c 0x32 false 3 (encQ qd) 0 0 0)
  | .glaunch c d m s n => some (mkF c 0x32 false 4 (encG d 0) (encG m 0) (encG s 0) (encGI n))
  | .gcancel c qd g n => some (mkF c 0x32 false 5 (encQ qd) (encG g 0) (encGI n) 0)
  | .gstat c d g s n => some (mkF c 0x32 false 6 (encG d 0) (encG g 0) (encSmallN s) (encGI n))
  | .sret c v => some (mkF c 0x33 false 0 (encGI v) 0 0 0)
  | .keyr c d s => some (mkF c 0x33 false 1 (encG d 0) (encSmallN s) 0 0)
  | .shintArm c qd => some (mkF c 0x33 false 2 (encQ qd) (encSmall 0) 0 0)
  | .shintClone c qd => some (mkF c 0x33 false 2 (encQ qd) (encSmall 1) 0 0)
  | .shintMerge c qd => some (mkF c 0x33 false 2 (encQ qd) (encSmall 2) 0 0)
  | .shintDisarm c qd => some (mkF c 0x33 false 2 (encQ qd) (encSmall 3) 0 0)
  | .bkpt c k => some (mkF c 0x38 false 0 (encSmallN k) 0 0 0)
  | .mark c v => some (mkF c 0x38 false 1 (encGI v) 0 0 0)
  | .rdcnt c d n => some (mkF c 0x38 false 2 (encG d 0) (encSmallN n) 0 0)
  | .monq c d n => some (mkF c 0x38 false 3 (encG d 0) (encGI n) 0 0)
  | .mloadCompletion .. | .matrixOperationStart .. | .matrixOperationCompletion .. | .wideIssue ..
  | .loadResponse .. | .postedWritePerform .. | .kioskAtomicPerform .. | .atomicResponse ..
  | .kioskRefusal .. | .remoteTimeout .. | .waitPoll .. | .jobBegin .. | .jobCompletion ..
  | .recordMessageArrival .. | .inboxMessageArrival .. | .ringSlotOffer .. | .leaveNotice ..
  | .arrivalNotice .. | .closureMarkerArrival .. | .spillRetry .. | .processExit .. | .watchdogExpiry ..
  | .barrierRelease .. | .xcastTransferComplete .. | .nodeDispatch .. | .nodeRetry .. | .tokenPost ..
  | .preemptRequest .. | .dlimExpiry .. | .save .. | .restore .. | .stagePause .. | .stagePauseTimeout ..
  | .stagef .. | .stageSplitCompletion .. | .stageMergeQuiescence .. | .monitorSample .. | .arm ..
  | .disarm .. | .stop .. | .resume .. | .read .. | .write .. | .hold .. | .unhold .. | .trace .. | .dump ..
  | .monset .. | .icacheFill .. | .hostSnoop .. | .snoopDequeue .. | .backInvalidateAnswer ..
  | .hostMemoryRequest .. | .peerMemoryRequest .. | .linkPacketReceive .. | .linkKeyRollover ..
  | .hardwareCounterWrap .. | .deviceReportRequest .. | .ownershipChallenge .. | .ownershipClaim ..
  | .handover .. | .ownershipRelease .. | .deviceIdAssign .. | .domainCreate .. | .coreAssign ..
  | .domainDestroy .. | .pageEvict .. | .pageReturn .. | .formatWindowChange .. | .powerUp .. | .packageReset
  | .bootStepTimeout | .mcPhyResetRelease .. | .mcImpedanceCalibration .. | .mcCommandAddressTraining ..
  | .mcReadTraining .. | .mcWriteTraining .. | .mcLaneRepair .. | .mcInitialise .. | .mcEnable ..
  | .mcStepDone .. | .portSerdesResetRelease .. | .portReceiverDetect .. | .portEqualise ..
  | .portDeskewFlitLock .. | .portKeyExchange .. | .portUp .. | .portDown .. | .portStepDone ..
  | .portTrainingTimeout .. | .linkLoss .. | .controlRegisterWrite .. | .residencyFillComplete ..
  | .writePointerAdvance .. | .l1Eviction .. | .hostLineEviction .. | .offCoreReferenceResult ..
  | .hostCxlIoRequest .. => none

/-- The word of an instruction. -/
def encode (i : Instr) : Option (BitVec 96) := (encodeFields i).map Fields.word

/-! ## Tsunar Ixtin words (R69 to R72) -/

/-- A minor that R66 names. -/
def namedMinor (cls minor : Nat) : Bool := match minorForm cls minor with
  | some (some _) => true
  | _ => false
/-- The fixed latency of a minor under R57; none for the others and for minors that no instruction has. -/
def fixedLatency (cls minor : Nat) : Option Nat :=
  if !namedMinor cls minor then none
  else match cls, minor with
  | 0x00, 3 | 0x00, 4 => some 1
  | 0x01, 2 => some 1
  | 0x02, _ | 0x04, _ | 0x05, _ | 0x06, _ | 0x09, _ => some 1
  | 0x03, n => some (if n ≤ 2 then 3 else 16)
  | 0x07, n => some (if n ≤ 3 ∨ n = 10 then 4 else if n = 4 ∨ n = 5 then 16 else 2)
  | 0x08, 0 => some 4
  | 0x10, n => some (if n ≤ 7 then 4 else if n ≤ 11 then 8 else 16)
  | 0x11, n => some (if n = 2 then 4 else 2)
  | 0x12, _ => some 2
  | 0x13, n => if n = 3 then none else some 3
  | 0x14, _ => some 8
  | 0x15, n => some (if n = 0 then 4 else 6)
  | 0x16, 0 => some 4
  | 0x16, 2 => some 8
  | 0x17, n => some (if n ≤ 1 then 1 else 2)
  | 0x18, 7 => some 6
  | _, _ => none

/-- What a row of R71 answers for one word: the minor, the nibbles of X, Y and Z.hi, and whether v assigns them. -/
structure IxRow where
  minor : Nat
  xmod : Option (BitVec 4)
  ymod : Option (BitVec 4)
  zmod : Option (BitVec 4)
  byV : Bool
deriving DecidableEq, Repr

/-- The class table of R71, by class, variant and operation. Where a row names Y.mod it is 0 (`.rn`, `.home`). -/
def ixRow (cls v op : Nat) (imm : Bool) : Option IxRow :=
  let plain (n : Nat) : Option IxRow := some { minor := n, xmod := none, ymod := none, zmod := none, byV := true }
  let withX (n : Nat) (l : List (BitVec 4)) : Option IxRow :=
    l[v]?.map fun m => { minor := n, xmod := some m, ymod := none, zmod := none, byV := true }
  let withXY (n : Nat) (l : List (BitVec 4)) : Option IxRow := (withX n l).map fun r => { r with ymod := some 0 }
  let cvt (n : Nat) : Option IxRow :=
    ([(3, 9), (9, 3), (10, 9), (9, 10)] : List (BitVec 4 × BitVec 4))[v]?.map fun p =>
      { minor := n, xmod := some p.1, ymod := some 0, zmod := some p.2, byV := true }
  let named := namedMinor cls op
  match cls with
  | 0x00 => if v = 0 ∧ op ≤ 4 then plain op else none
  | 0x01 | 0x02 | 0x03 | 0x04 | 0x05 | 0x06 | 0x09 | 0x23 | 0x38 => if v = 0 ∧ named then plain op else none
  | 0x07 => if op = 0x0A then cvt op else withXY op [9, 10, 11]
  | 0x10 | 0x14 => withXY op [9, 10, 11]
  | 0x15 => if op = 0 then cvt op else none
  | 0x11 => withX op [3, 2, 1]
  | 0x12 => if op = 0 then withX op [9, 3, 7] else if v = 0 then plain op else none
  | 0x13 => if v = 0 then plain op else none
  | 0x08 => withXY op [8, 7, 6, 5]
  | 0x20 =>
    if op ≤ 2 then withXY op [8, 7, 6, 5]
    else if op = 8 then withXY 0x0C [8, 7, 6, 5]
    else if op = 9 then withXY 0x14 [8, 7, 6, 5]
    else none
  | 0x16 => if v = 0 then withX op [7] else none
  | 0x21 => if v = 0 then ([4, 0x0C, 0x10] : List Nat)[op]?.bind plain else none
  | 0x22 =>
    if imm then none
    else ([4, 0x0C, 0x14] : List Nat)[v]?.map fun n => { minor := n, xmod := some 4, ymod := none, zmod := some (BitVec.ofNat 4 op), byV := false }
  | 0x31 => if v = 0 ∧ op ≠ 2 then plain op else none
  | _ => none

/-- An Ixtin operand, widened by its kind; `m` is the nibble the row assigns to it. A small immediate has no nibble: where v assigns
one, the word does not translate (R70, R72). -/
def ixOperand (o : BitVec 8) (m : Option (BitVec 4)) (byV : Bool) : Option (BitVec 16) :=
  let n := o.extractLsb' 0 6
  let nib := m.getD 0
  match (o.extractLsb' 6 2).toNat with
  | 0 => some (encG n nib)
  | 1 => some (encW (.w n) nib)
  | 2 => if sListed (n.setWidth 9) then some (encS (n.setWidth 9) nib) else none
  | _ => if m.isSome && byV then none else some (encSmall (n.signExtend 12))

/-- The 96-bit word an Ixtin word translates to; none marks the word (R72). -/
def translateIxtin (w : BitVec 64) : Option (BitVec 96) := do
  let cls := w.extractLsb' 58 6
  let imm := w.getLsbD 57
  let row ← ixRow cls.toNat (w.extractLsb' 55 2).toNat (w.extractLsb' 51 4).toNat imm
  let x ← ixOperand (w.extractLsb' 40 8) row.xmod row.byV
  let y ← ixOperand (w.extractLsb' 32 8) row.ymod row.byV
  let delay : BitVec 4 := match fixedLatency cls.toNat row.minor with
    | some l => BitVec.ofNat 4 (l - 1)
    | none => 0
  let guard : BitVec 4 := 0#1 ++ w.extractLsb' 48 3
  if imm then
    return ({ cls, imm, minor := BitVec.ofNat 7 row.minor, guard, hint := delay ++ 0#10, x, y,
              zhi := w.extractLsb' 16 16, zlo := w.extractLsb' 0 16 } : Fields).word
  else
    if w.extractLsb' 0 10 = 0 then
      let zhi ← ixOperand (w.extractLsb' 24 8) row.zmod row.byV
      let zlo ← ixOperand (w.extractLsb' 16 8) none row.byV
      return ({ cls, imm, minor := BitVec.ofNat 7 row.minor, guard,
                hint := delay ++ 0#2 ++ w.extractLsb' 12 4 ++ w.extractLsb' 10 2 ++ 0#2, x, y, zhi, zlo } : Fields).word
    else none

end Sys2Proof
end

