-- ==== Sys2Proof/Machine/JasText.lean ====
section
/-! DEFINITION. The source text of `jas` (R73 to R75, R79, R85): lines and their parts, names, integer expressions and
floating literals. The assembler and the linker are programs beside the machine; no step of the machine runs them
(log 67; readings: log 68). -/

namespace Sys2Proof.Jas

/-- The diagnostics of R85. -/
inductive JCode where
  | j01 | j02 | j03 | j04 | j05 | j06 | j07 | j08 | j09 | j10
deriving DecidableEq, Repr

/-- A diagnostic and the line it is reported for. -/
structure Diag where
  line : Nat
  code : JCode
deriving DecidableEq, Repr

abbrev Txt := List Char
abbrev JRes (α : Type) := Except JCode α

/-- `none` is the given error. -/
def need {α : Type} (c : JCode) : Option α → JRes α
  | none => .error c
  | some a => .ok a
def must (c : JCode) (b : Bool) : JRes Unit := if b then .ok () else .error c

/-! ## Lines (R73) -/

/-- The lines of a file: each ends at LF, and a CR directly before the LF is dropped. `cur` is the line so far, reversed. -/
def splitLines : List Byte → List Byte → List (List Byte)
  | cur, [] => if cur.isEmpty then [] else [cur.reverse]
  | cur, b :: r =>
    if b = 10 then (if cur.head? = some 13 then cur.tail.reverse else cur.reverse) :: splitLines [] r
    else splitLines (b :: cur) r

/-- A line holds bytes 0x20 to 0x7E and the tab. -/
def lineText (bs : List Byte) : JRes Txt :=
  if bs.all fun b => b == 9 || (decide (0x20 ≤ b.toNat) && decide (b.toNat ≤ 0x7E)) then .ok (bs.map fun b => Char.ofNat b.toNat)
  else .error .j01

def isBlank (c : Char) : Bool := c == ' ' || c == '\t'
def isDigit (c : Char) : Bool := decide ('0' ≤ c) && decide (c ≤ '9')
def isStart (c : Char) : Bool :=
  (decide ('a' ≤ c) && decide (c ≤ 'z')) || (decide ('A' ≤ c) && decide (c ≤ 'Z')) || c == '_'
def isName (c : Char) : Bool := isStart c || isDigit c || c == '.'
def trim (t : Txt) : Txt := ((t.dropWhile isBlank).reverse.dropWhile isBlank).reverse
/-- Mnemonics, suffixes, register, s-space and directive names are compared without regard to case (R74). -/
def low (t : Txt) : String := String.ofList (t.map Char.toLower)

/-- A comment runs from `;` to the end of the line; a `;` within a quoted string begins none. -/
def dropComment : Bool → Txt → Txt
  | _, [] => []
  | q, c :: r =>
    if q && c == '\\' then
      match r with
      | [] => [c]
      | d :: r => c :: d :: dropComment true r
    else if c == '"' then c :: dropComment (!q) r
    else if !q && c == ';' then []
    else c :: dropComment q r

/-- Arguments stand between commas that are in no parentheses, brackets or quotes. `cur` is the argument so far, reversed. -/
def splitArgs : Nat → Bool → Txt → Txt → List Txt
  | _, _, cur, [] => [trim cur.reverse]
  | d, q, cur, c :: r =>
    if q && c == '\\' then
      match r with
      | [] => splitArgs d q (c :: cur) []
      | e :: r => splitArgs d q (e :: c :: cur) r
    else if c == '"' then splitArgs d (!q) (c :: cur) r
    else if q then splitArgs d q (c :: cur) r
    else if c == '(' || c == '[' then splitArgs (d + 1) q (c :: cur) r
    else if c == ')' || c == ']' then splitArgs (d - 1) q (c :: cur) r
    else if c == ',' && d == 0 then trim cur.reverse :: splitArgs 0 false [] r
    else splitArgs d q (c :: cur) r
def args (t : Txt) : List Txt := if (trim t).isEmpty then [] else splitArgs 0 false [] t

/-- A hint begins at a `%` that follows a blank and is followed by a letter (R68 item 5). Splits operands from hints. -/
def splitHints : Bool → Txt → Txt → Txt × List Txt
  | _, cur, [] => (cur.reverse, [])
  | blank, cur, c :: r =>
    if blank && c == '%' && (r.head?.map isStart).getD false then
      let q := splitHints false [] r
      (cur.reverse, trim q.1 :: q.2)
    else splitHints (isBlank c) (c :: cur) r

/-- The parts of a line: its label, and its statement. -/
inductive Stmt where
  | empty
  | word (guard : Option Txt) (head : Txt) (args : List Txt) (hints : List Txt)
  | directive (name : String) (args : List Txt)
deriving DecidableEq, Repr

structure Line where
  label : Option Txt
  stmt : Stmt
deriving DecidableEq, Repr

/-- The statement of a line, after its label. -/
def parseStmt (t : Txt) : JRes Stmt :=
  match trim t with
  | [] => .ok .empty
  | '.' :: r =>
    let t := '.' :: r
    .ok (.directive (low (t.takeWhile fun c => !isBlank c)) (args (t.dropWhile fun c => !isBlank c)))
  | t => do
    let (g, t) ← match t with
      | '(' :: r =>
        match r.dropWhile fun c => c != ')' with
        | ')' :: u => pure (some (r.takeWhile fun c => c != ')'), trim u)
        | _ => .error .j03
      | t => pure (none, t)
    let head := t.takeWhile fun c => !isBlank c
    must .j01 (!head.isEmpty && head.head? != some '.')
    let q := splitHints true [] (t.dropWhile fun c => !isBlank c)
    return .word g head (args q.1) q.2

/-- A line: optional label, optional statement, optional comment (R73). -/
def parseLine (bs : List Byte) : JRes Line := do
  let t ← lineText bs
  let t := trim (dropComment false t)
  let n := t.takeWhile isName
  match t.drop n.length with
  | ':' :: r => if n.isEmpty then .error .j01 else return { label := some n, stmt := ← parseStmt r }
  | _ => return { label := none, stmt := ← parseStmt t }

/-! ## Names (R74) -/

/-- The form of a symbol name; a local label starts with `.L`. -/
def nameForm (n : Txt) : Bool :=
  decide (n.length ≤ 255) && n.all isName &&
    match n with
    | '.' :: 'L' :: _ => true
    | c :: _ => isStart c
    | [] => false
def isLocal (n : Txt) : Bool := n.take 2 == ['.', 'L']

/-- A decimal numeral as register names carry it: digits without a superfluous zero in front. -/
def numeral (t : Txt) : Option Nat :=
  if t.isEmpty || !t.all isDigit || (decide (1 < t.length) && t.head? == some '0') then none
  else some (t.foldl (fun a c => 10 * a + (c.toNat - 48)) 0)
/-- `t` as the register `letter` and a number up to `top`. -/
def regName (letter : String) (top : Nat) (t : Txt) : Option Nat :=
  let k := letter.length
  if low (t.take k) == letter then (numeral (t.drop k)).bind fun n => if n ≤ top then some n else none else none

/-- The s-space names of R41. -/
def sNames : List (String × Nat) :=
  [("wid", 0), ("lcn", 1), ("role", 2), ("dom", 3), ("fflags", 4), ("bflags", 5), ("rmode", 6), ("srseed", 7), ("srctr", 8), ("cyc", 9),
   ("prq", 10), ("dlim", 11), ("wdog", 12), ("tcause", 13), ("tval", 14), ("tip", 15), ("allot", 16), ("imb", 17), ("evs", 18)] ++
  [("cw0", 0x14), ("cw1", 0x15), ("cw2", 0x16), ("cw3", 0x17), ("js0", 0x18), ("js1", 0x19), ("js2", 0x1A), ("js3", 0x1B)] ++
  [("hc0", 0x20), ("hc1", 0x21), ("hc2", 0x22), ("hc3", 0x23), ("hc4", 0x24), ("hc5", 0x25), ("hc6", 0x26), ("hc7", 0x27)] ++
  [("wa0", 0x28), ("wa1", 0x29), ("wa2", 0x2A), ("wa3", 0x2B), ("wm0", 0x2C), ("wm1", 0x2D), ("wm2", 0x2E), ("wm3", 0x2F)]
def sName (t : Txt) : Option Nat := sNames.lookup (low t)

/-- The names of R74 that no symbol may have, the mnemonics apart. -/
def registerName (t : Txt) : Bool :=
  (regName "g" 63 t).isSome || (regName "w" 63 t).isSome || (regName "m" 7 t).isSome || (regName "q" 7 t).isSome ||
  (regName "k" 31 t).isSome || (regName "a" 3 t).isSome || (regName "sb" 3 t).isSome ||
  (low (t.take 2) == "ro" && !(t.drop 2).isEmpty && (t.drop 2).all isDigit) || (sName t).isSome

/-! ## Integer expressions (R75) -/

/-- The binary operators. -/
inductive Op where | mul | div | rem | add | sub | shl | shr | and | xor | or
deriving DecidableEq, Repr

/-- Precedence: 0 binds least. -/
def Op.level : Op → Nat
  | .or => 0
  | .xor => 1
  | .and => 2
  | .shl | .shr => 3
  | .add | .sub => 4
  | .mul | .div | .rem => 5

inductive Tok where
  | num (v : W64) | name (n : Txt) | op (o : Op) | inv | open | close | here
deriving DecidableEq, Repr

def hexDigit (c : Char) : Option Nat :=
  if isDigit c then some (c.toNat - 48)
  else
    let d := c.toLower
    if 'a' ≤ d ∧ d ≤ 'f' then some (d.toNat - 87) else none
/-- The number that digits in a base stand for; there is at least one. -/
def digits (base : Nat) (t : Txt) : Option Nat :=
  if t.isEmpty then none
  else t.foldl (fun a c => a.bind fun a => (hexDigit c).bind fun d => if d < base then some (base * a + d) else none) (some 0)
/-- An integer literal: decimal, hexadecimal or binary; underscores are ignored in the latter two. -/
def literal : Txt → Option Nat
  | '0' :: 'x' :: r => digits 16 (r.filter fun c => c != '_')
  | '0' :: 'b' :: r => digits 2 (r.filter fun c => c != '_')
  | t => digits 10 t

/-- The tokens of an expression. -/
def scan : Nat → Txt → JRes (List Tok)
  | 0, _ => .error .j03
  | n + 1, t =>
    match t with
    | [] => .ok []
    | c :: r =>
      let one := fun (k : Tok) (u : Txt) => do
        let l ← scan n u
        return k :: l
      if isBlank c then scan n r
      else if isDigit c then do
        let w := t.takeWhile fun c => isStart c || isDigit c
        let v ← need .j03 (literal w)
        must .j04 (decide (v < 2 ^ 64))
        one (.num (BitVec.ofNat 64 v)) (t.drop w.length)
      else if isStart c || c == '.' then
        let w := t.takeWhile isName
        one (if w == ['.'] then .here else .name w) (t.drop w.length)
      else
        match c, r with
        | '<', '<' :: r => one (.op .shl) r
        | '>', '>' :: r => one (.op .shr) r
        | '*', r => one (.op .mul) r
        | '/', r => one (.op .div) r
        | '%', r => one (.op .rem) r
        | '+', r => one (.op .add) r
        | '-', r => one (.op .sub) r
        | '&', r => one (.op .and) r
        | '^', r => one (.op .xor) r
        | '|', r => one (.op .or) r
        | '~', r => one .inv r
        | '(', r => one .open r
        | ')', r => one .close r
        | _, _ => .error .j03

inductive Expr where
  | num (v : W64)
  | name (n : Txt)
  | here
  | neg (e : Expr)
  | inv (e : Expr)
  | bin (o : Op) (a b : Expr)
deriving DecidableEq, Repr

/-- An expression of operators of `lvl` and above, left-associative. `left` is the operand read so far at this level. -/
def parseExpr : Nat → Nat → Option Expr → List Tok → Option (Expr × List Tok)
  | 0, _, _, _ => none
  | n + 1, lvl, some a, ts =>
    match ts with
    | .op o :: r =>
      if o.level = lvl then
        match parseExpr n (lvl + 1) none r with
        | some (b, r) => parseExpr n lvl (some (.bin o a b)) r
        | none => none
      else some (a, ts)
    | _ => some (a, ts)
  | n + 1, lvl, none, ts =>
    if lvl < 6 then
      match parseExpr n (lvl + 1) none ts with
      | some (a, r) => parseExpr n lvl (some a) r
      | none => none
    else
      match ts with
      | .op .sub :: r => (parseExpr n 6 none r).map fun p => (.neg p.1, p.2)
      | .inv :: r => (parseExpr n 6 none r).map fun p => (.inv p.1, p.2)
      | .num v :: r => some (.num v, r)
      | .name m :: r => some (.name m, r)
      | .here :: r => some (.here, r)
      | .open :: r =>
        match parseExpr n 0 none r with
        | some (e, .close :: r) => some (e, r)
        | _ => none
      | _ => none

/-- The expression that a text is. -/
def exprOf (t : Txt) : JRes Expr := do
  let ts ← scan (t.length + 1) t
  match parseExpr (16 * (ts.length + 1)) 0 none ts with
  | some (e, []) => .ok e
  | _ => .error .j03

/-- A section of the object: kind (R87) and name. -/
structure SecKey where
  kind : Nat
  name : Txt
deriving DecidableEq, Repr
/-- A place: section and offset. -/
structure Place where
  sec : SecKey
  off : Nat
deriving DecidableEq, Repr

/-- What a symbol stands for while a file is assembled. -/
inductive Sym where
  | abs (v : W64)
  | at (p : Place)
  | imported
deriving DecidableEq, Repr

/-- The symbols, and the location counter. -/
structure Env where
  syms : List (Txt × Sym)
  here : Option Place
deriving DecidableEq, Repr

inductive Base where | sym (n : Txt) | here
deriving DecidableEq, Repr
/-- The value of an expression: absolute, or a symbol or the location counter plus an absolute value. -/
inductive Val where
  | abs (v : W64)
  | rel (b : Base) (add : W64)
deriving DecidableEq, Repr

def Env.placeOf (e : Env) : Base → Option Place
  | .here => e.here
  | .sym n =>
    match e.syms.lookup n with
    | some (.at p) => some p
    | _ => none

/-- The operators on absolute values: 64-bit two's complement; `/` and `%` truncate towards zero; `>>` is arithmetic. R75 says
nothing of a shift count that is negative or above 63: the model reads every count as unsigned, and shifts all bits out
(DESIGN CHOICE, log 68). -/
def Op.eval (o : Op) (a b : W64) : JRes W64 :=
  match o with
  | .mul => .ok (a * b)
  | .div => if b = 0 then .error .j04 else .ok (a.sdiv b)
  | .rem => if b = 0 then .error .j04 else .ok (a.srem b)
  | .add => .ok (a + b)
  | .sub => .ok (a - b)
  | .shl => .ok (a <<< min b.toNat 64)
  | .shr => .ok (a.sshiftRight (min b.toNat 64))
  | .and => .ok (a &&& b)
  | .xor => .ok (a ^^^ b)
  | .or => .ok (a ||| b)

/-- A relocatable value is symbol ± absolute; the difference of two of one section is absolute; any other use is J04. -/
def Env.eval (e : Env) : Expr → JRes Val
  | .num v => .ok (.abs v)
  | .here => .ok (.rel .here 0)
  | .name n =>
    match e.syms.lookup n with
    | none => .error .j05
    | some (.abs v) => .ok (.abs v)
    | some _ => .ok (.rel (.sym n) 0)
  | .neg a => do
    match ← e.eval a with
    | .abs v => return .abs (-v)
    | .rel _ _ => .error .j04
  | .inv a => do
    match ← e.eval a with
    | .abs v => return .abs (~~~v)
    | .rel _ _ => .error .j04
  | .bin o a b => do
    let x ← e.eval a
    let y ← e.eval b
    match o, x, y with
    | o, .abs v, .abs w => return .abs (← o.eval v w)
    | .add, .rel s v, .abs w => return .rel s (v + w)
    | .add, .abs v, .rel s w => return .rel s (v + w)
    | .sub, .rel s v, .abs w => return .rel s (v - w)
    | .sub, .rel s v, .rel t w =>
      match e.placeOf s, e.placeOf t with
      | some p, some q =>
        if p.sec = q.sec then return .abs (BitVec.ofNat 64 p.off - BitVec.ofNat 64 q.off + v - w) else .error .j04
      | _, _ => .error .j04
    | _, _, _ => .error .j04

def Env.value (e : Env) (t : Txt) : JRes Val := do e.eval (← exprOf t)
/-- The value of an expression that has to be absolute. -/
def Env.absolute (e : Env) (t : Txt) : JRes W64 := do
  match ← e.value t with
  | .abs v => return v
  | .rel _ _ => .error .j04
/-- An absolute value, read as signed, from `lo` to `hi`; otherwise the given error. -/
def inRange (c : JCode) (lo hi : Int) (v : W64) : JRes Int := if lo ≤ v.toInt ∧ v.toInt ≤ hi then .ok v.toInt else .error c
def Env.number (e : Env) (c : JCode) (lo hi : Int) (t : Txt) : JRes Int := do inRange c lo hi (← e.absolute t)

/-! ## Floating literals (R75) -/

/-- (-1)^neg × num / den × 2^exp, or a special. -/
inductive Flt where
  | fin (neg : Bool) (num den : Nat) (exp : Int)
  | inf (neg : Bool)
  | nan
deriving DecidableEq, Repr

/-- A signed decimal exponent. -/
def exponent : Txt → Option Int
  | '-' :: r => (digits 10 r).map fun n => -(n : Int)
  | '+' :: r => (digits 10 r).map fun n => (n : Int)
  | r => (digits 10 r).map fun n => (n : Int)
/-- The digits around a point, as a number and the count of digits after it. -/
def mantissa (base : Nat) (t : Txt) : Option (Nat × Nat) :=
  let a := t.takeWhile fun c => c != '.'
  let b := (t.drop a.length).drop 1
  (digits base (a ++ b)).map fun n => (n, b.length)

/-- The magnitude of a literal, in lower case: hexadecimal `0xh.hhhpe`, or decimal with a point or an exponent or both. -/
def magnitude (neg : Bool) : Txt → Option Flt
  | ['i', 'n', 'f'] => some (.inf neg)
  | '0' :: 'x' :: r => do
    let m := r.takeWhile fun c => c != 'p'
    let (n, k) ← mantissa 16 m
    let e ← match r.drop m.length with
      | 'p' :: x => exponent x
      | _ => none
    return .fin neg n 1 (e - 4 * k)
  | t => do
    let m := t.takeWhile fun c => c != 'e'
    let (n, k) ← mantissa 10 m
    let e ← match t.drop m.length with
      | 'e' :: x => exponent x
      | _ => if m.contains '.' then some 0 else none
    let s := e - k
    return .fin neg (n * 10 ^ s.toNat) (10 ^ (-s).toNat) 0

def floatLit (t : Txt) : Option Flt :=
  match (trim t).map Char.toLower with
  | ['n', 'a', 'n'] => some .nan
  | '-' :: r => magnitude true r
  | r => magnitude false r

end Sys2Proof.Jas
end

