-- ==== Sys2Proof/Machine/Tab.lean ====
section
/-! DEFINITION. Tables: lists of (key, value) pairs, keys rising. An absent key reads as a default. Memory, the
local stores, register files and everything the machine numbers is kept in one of these. -/

namespace Sys2Proof.Machine

abbrev Tab (α : Type) := List (Nat × α)

/-- The value at a key, if listed. -/
def Tab.find {α : Type} (t : Tab α) (k : Nat) : Option α :=
  match t with
  | [] => none
  | (a, v) :: r => if a = k then some v else Tab.find r k

def Tab.get {α : Type} (d : α) (t : Tab α) (k : Nat) : α := (Tab.find t k).getD d

/-- Write the value at a key, keeping the keys rising. -/
def Tab.put {α : Type} (t : Tab α) (k : Nat) (v : α) : Tab α :=
  match t with
  | [] => [(k, v)]
  | (a, b) :: r => if k < a then (k, v) :: (a, b) :: r else if a = k then (k, v) :: r else (a, b) :: Tab.put r k v

def Tab.erase {α : Type} (t : Tab α) (k : Nat) : Tab α :=
  match t with
  | [] => []
  | (a, b) :: r => if a = k then Tab.erase r k else (a, b) :: Tab.erase r k

/-- Write a value in canonical form: the default is not listed. -/
def Tab.set {α : Type} [DecidableEq α] (d : α) (t : Tab α) (k : Nat) (v : α) : Tab α :=
  if v = d then Tab.erase t k else Tab.put t k v

/-- Keys strictly rising, no value equal to the default: the canonical form. -/
def Tab.sortedFrom {α : Type} [DecidableEq α] (d : α) (lo : Nat) (t : Tab α) : Bool :=
  match t with
  | [] => true
  | (a, v) :: r => decide (lo ≤ a) && decide (v ≠ d) && Tab.sortedFrom d (a + 1) r
def Tab.wf {α : Type} [DecidableEq α] (d : α) (t : Tab α) : Bool := Tab.sortedFrom d 0 t

/-- Little-endian read and write of `n` bytes of a byte table, as a number. -/
def Tab.readLE (t : Tab Byte) (a n : Nat) : Nat :=
  match n with
  | 0 => 0
  | n + 1 => (Tab.get 0 t a).toNat + 256 * Tab.readLE t (a + 1) n
def Tab.writeLE (t : Tab Byte) (a n v : Nat) : Tab Byte :=
  match n with
  | 0 => t
  | n + 1 => Tab.writeLE (Tab.set 0 t a (BitVec.ofNat 8 v)) (a + 1) n (v / 256)

def Tab.readBytes (t : Tab Byte) (a n : Nat) : List Byte :=
  match n with
  | 0 => []
  | n + 1 => Tab.get 0 t a :: Tab.readBytes t (a + 1) n
def Tab.writeBytes (t : Tab Byte) (a : Nat) (bs : List Byte) : Tab Byte :=
  match bs with
  | [] => t
  | b :: r => Tab.writeBytes (Tab.set 0 t a b) (a + 1) r

/-- Bytes as a number, lowest address first, and back. -/
def leNat (bs : List Byte) : Nat :=
  match bs with
  | [] => 0
  | b :: r => b.toNat + 256 * leNat r
def natLE (n v : Nat) : List Byte :=
  match n with
  | 0 => []
  | n + 1 => BitVec.ofNat 8 v :: natLE n (v / 256)

end Sys2Proof.Machine
end

