-- ==== Sys2Proof/Machine/Jof.lean ====
section
/-! DEFINITION. The Jenmen Object Format (R86 to R90, R93 to R95): what an object holds, its one canonical form as bytes, the
reading of a file, and the check that a loader makes (log 67, 71). -/

namespace Sys2Proof.Jas

open Sys2Proof.Machine

/-! ## The parts of an object -/

/-- A section (R87): its contents, and its address in an executable. A `zero` section has a size and no bytes. -/
structure Section where
  key : SecKey
  align : Nat
  body : List Byte
  size : Nat
  addr : Nat
deriving DecidableEq, Repr

/-- A symbol (R88). `sec` is none for an import or an absolute symbol. -/
structure Symbol where
  name : Txt
  sec : Option SecKey
  type : Nat
  glob : Bool
  value : Nat
  size : Nat
deriving DecidableEq, Repr

/-- The null symbol, entry 0 of every symbol table. -/
def nullSymbol : Symbol := { name := [], sec := none, type := 0, glob := false, value := 0, size := 0 }

/-- A relocation (R89): the patched place, the kind, the symbol, the addend. -/
structure Reloc where
  at_ : Place
  kind : Nat
  sym : Symbol
  add : W64
deriving DecidableEq, Repr

/-- An object or an executable, before its form as bytes. -/
structure Obj where
  exec : Bool
  secs : List Section
  syms : List Symbol
  rels : List Reloc
deriving DecidableEq, Repr

/-- Section kinds (R87). -/
def kText : Nat := 1
def kIxtin : Nat := 2
def kData : Nat := 3
def kZero : Nat := 4
def kLstore : Nat := 5
def kCaps : Nat := 6
def kGroups : Nat := 7
def kStages : Nat := 8
def kGraph : Nat := 9
def kTags : Nat := 14

/-- Bit 0 R, bit 1 W, bit 2 X, bit 3 loaded into domain memory (R87). -/
def permOf (kind : Nat) : Nat :=
  if kind = kText ∨ kind = kIxtin then 0b1101
  else if kind = kData ∨ kind = kZero ∨ kind = kGraph then 0b1011
  else if kLstore ≤ kind ∧ kind ≤ kStages then 0b1001
  else 0
def isLoaded (kind : Nat) : Bool := (permOf kind).testBit 3

/-! ## Canonical order (R93) -/

def insertBefore {α : Type} (lt : α → α → Bool) (x : α) : List α → List α
  | [] => [x]
  | y :: r => if lt x y then x :: y :: r else y :: insertBefore lt x r
/-- A stable sort. -/
def sortWith {α : Type} (lt : α → α → Bool) (l : List α) : List α := l.foldl (fun a x => insertBefore lt x a) []

/-- Byte order of names. -/
def nameLt : Txt → Txt → Bool
  | [], [] => false
  | [], _ :: _ => true
  | _ :: _, [] => false
  | a :: r, b :: s => if a.toNat < b.toNat then true else if b.toNat < a.toNat then false else nameLt r s

/-- Lexicographic order of numbers, then of names. -/
def keyLt : List Nat × Txt → List Nat × Txt → Bool
  | ([], m), ([], n) => nameLt m n
  | ([], _), (_ :: _, _) => true
  | (_ :: _, _), ([], _) => false
  | (a :: r, m), (b :: s, n) => if a < b then true else if b < a then false else keyLt (r, m) (s, n)

def Obj.sorted (o : Obj) : List Section := sortWith (fun a b => keyLt ([a.key.kind], a.key.name) ([b.key.kind], b.key.name)) o.secs
def names (l : List Section) : List SecKey := l.map fun s => s.key
/-- The index of a section; index 0 is the null entry. -/
def secIndex (l : List SecKey) (k : SecKey) : Nat := l.findIdx (fun x => x == k) + 1
def symKey (l : List SecKey) (s : Symbol) : List Nat × Txt :=
  ([if s.glob then 1 else 0, match s.sec with
    | some k => secIndex l k
    | none => 0, s.value], s.name)

/-- Each symbol once. Symbols of several objects that agree in every field, such as one `.equ` in two of them, make one entry:
R92 and R93 do not say whether they merge (DESIGN CHOICE, log 71). -/
def distinct : List Symbol → List Symbol
  | [] => []
  | s :: r => if r.contains s then distinct r else s :: distinct r

/-! ## Bytes -/

/-- The table of names: each once, in order of first reference, after the empty name (R88, R93). -/
structure Names where
  bytes : List Byte
  at_ : List (Txt × Nat)
deriving DecidableEq, Repr
def addName (n : Names) (t : Txt) : Names :=
  if t.isEmpty || (n.at_.lookup t).isSome then n
  else { bytes := n.bytes ++ t.map (fun c => BitVec.ofNat 8 c.toNat) ++ [0], at_ := n.at_ ++ [(t, n.bytes.length)] }
def nameTable (l : List Txt) : Names := l.foldl addName { bytes := [0], at_ := [] }
def Names.off (n : Names) (t : Txt) : Nat := (n.at_.lookup t).getD 0

/-- A symbol entry (R88). -/
def symBytes (n : Names) (l : List SecKey) (s : Symbol) : List Byte :=
  natLE 4 (n.off s.name) ++ natLE 2 (match s.sec with
    | some k => secIndex l k
    | none => 0) ++ natLE 1 s.type ++ natLE 1 (if s.glob then 1 else 0) ++ natLE 8 s.value ++ natLE 8 s.size
/-- A relocation entry (R89). -/
def relBytes (l : List SecKey) (syms : List Symbol) (r : Reloc) : List Byte :=
  natLE 8 r.at_.off ++ natLE 2 (secIndex l r.at_.sec) ++ natLE 1 r.kind ++ natLE 1 0 ++
    natLE 4 (syms.findIdx fun s => s == r.sym) ++ natLE 8 r.add.toNat

/-- An entry of the section table (R87), apart from its file offset. -/
structure Row where
  name : Txt
  kind : Nat
  align : Nat
  body : List Byte
  size : Nat
  addr : Nat
deriving DecidableEq, Repr

def upTo (m n : Nat) : Nat := n + (m - n % m) % m
def padFile (b : List Byte) : List Byte := b ++ List.replicate (upTo 16 b.length - b.length) 0
/-- The file offsets of contents from `off` on: each at the next multiple of 16 (R93). -/
def offsets (off : Nat) : List Row → List Nat
  | [] => []
  | r :: rs => upTo 16 off :: offsets (upTo 16 off + r.body.length) rs
/-- A row as its 32 bytes; a `zero` section has offset 0. -/
def rowBytes (n : Names) (r : Row) (off : Nat) : List Byte :=
  natLE 4 (n.off r.name) ++ natLE 1 r.kind ++ natLE 1 (permOf r.kind) ++ natLE 1 r.align ++ natLE 1 0 ++
    natLE 8 (if r.kind = kZero then 0 else off) ++ natLE 8 r.size ++ natLE 8 r.addr

/-- The file header (R86). -/
structure FileHead where
  exec : Bool
  ixtin : Bool
  count : Nat
  base : Nat
  symsec : Nat
  strsec : Nat
  relsec : Nat
  mansec : Nat
deriving DecidableEq, Repr
def FileHead.bytes (h : FileHead) : List Byte :=
  [0x4A, 0x4F, 0x46, 0x00] ++ natLE 2 1 ++ natLE 2 ((if h.exec then 1 else 0) + if h.ixtin then 2 else 0) ++ natLE 2 h.count ++
    natLE 2 64 ++ natLE 4 64 ++ natLE 8 h.base ++ natLE 2 h.symsec ++ natLE 2 h.strsec ++ natLE 2 h.relsec ++ natLE 2 h.mansec ++
    natLE 32 0

def num (b : List Byte) (off n : Nat) : Nat := leNat ((b.drop off).take n)
/-- A file whose magic, version, hsize or table differs is not a JOF file (R86); nor is one whose section count is outside 1 to
4,096 (log 71). -/
def readHead (b : List Byte) : Option FileHead :=
  if b.length < 64 ∨ num b 0 4 ≠ 0x00464F4A ∨ num b 4 2 ≠ 1 ∨ num b 10 2 ≠ 64 ∨ num b 12 4 ≠ 64 ∨ num b 8 2 = 0 ∨ 4096 < num b 8 2 then none
  else some { exec := (num b 6 2).testBit 0, ixtin := (num b 6 2).testBit 1, count := num b 8 2, base := num b 16 8,
              symsec := num b 24 2, strsec := num b 26 2, relsec := num b 28 2, mansec := num b 30 2 }

def digestBytes (b : List Byte) : List Byte := natLE 48 (Config.sha384 b).toNat

/-- The manifest (R94): the image digest, an entry for every section before it, the tool record. -/
def manifest (digest tool : List Byte) (rows : List Row) : List Byte :=
  natLE 4 1 ++ natLE 4 rows.length ++ digest ++
    ((rows.zip (List.range rows.length)).flatMap fun p =>
      natLE 2 (p.2 + 1) ++ natLE 1 p.1.kind ++ natLE 5 0 ++ natLE 8 p.1.size ++ digestBytes p.1.body) ++
    natLE 4 tool.length ++ tool

/-- The rows before the manifest: the sections, then `syms`, `strs`, `relocs` if there are any, and `tags` (R87, R93). -/
def Obj.rows (o : Obj) : List Row × List Symbol × Names :=
  let secs := o.sorted
  let keys := names secs
  let main := secs.filter fun s => decide (s.key.kind < 10)
  let tags := secs.filter fun s => decide (13 < s.key.kind)
  let syms := nullSymbol :: sortWith (fun a b => keyLt (symKey keys a) (symKey keys b)) (distinct o.syms)
  let hasRel := !o.rels.isEmpty
  -- the index of a `tags` section counts the generated sections before it
  let keys := names main ++ [{ kind := 10, name := [] }, { kind := 11, name := [] }] ++
    (if hasRel then [{ kind := 12, name := [] }] else []) ++ names tags
  let strs := nameTable ((main.map fun s => s.key.name) ++ ["syms".toList, "strs".toList] ++ (if hasRel then ["relocs".toList] else []) ++
    (tags.map fun s => s.key.name) ++ ["manifest".toList] ++ (syms.map fun s => s.name))
  let symB := syms.flatMap (symBytes strs keys)
  let rels := sortWith (fun a b => keyLt ([secIndex keys a.at_.sec, a.at_.off], []) ([secIndex keys b.at_.sec, b.at_.off], [])) o.rels
  let relB := rels.flatMap (relBytes keys syms)
  let row := fun (s : Section) =>
    ({ name := s.key.name, kind := s.key.kind, align := s.align, body := s.body, size := s.size, addr := s.addr } : Row)
  let gen := fun (n : String) (k : Nat) (b : List Byte) =>
    ({ name := n.toList, kind := k, align := 4, body := b, size := b.length, addr := 0 } : Row)
  (main.map row ++ [gen "syms" 10 symB, gen "strs" 11 strs.bytes] ++ (if hasRel then [gen "relocs" 12 relB] else []) ++ tags.map row,
    syms, strs)

/-- The section count of an object's file is at most 4,096 (R86). -/
def Obj.fits (o : Obj) : Bool := decide (o.rows.1.length + 2 ≤ 4096)

/-- The text of a version or option, and a tool record: the tool's name, its version and its options between single spaces (R94). -/
def toolText (t : Fin 94 × List (Fin 94)) : List Byte := (t.1 :: t.2).map fun c => BitVec.ofNat 8 (0x21 + c.val)
def toolRecord (name : String) (version : Fin 94 × List (Fin 94)) (options : List (Fin 94 × List (Fin 94))) : List Byte :=
  name.toList.map (fun c => BitVec.ofNat 8 c.toNat) ++ (version :: options).flatMap fun t => 0x20 :: toolText t

/-- The file of an object, in canonical form; `tool` is the tool record (R86, R93 to R95). -/
def Obj.bytes (o : Obj) (tool : List Byte) : List Byte :=
  let (rows, _, strs) := o.rows
  let at_ := fun (k : Nat) => rows.findIdx (fun r => r.kind == k) + 1
  let manLen := 60 + 64 * rows.length + tool.length
  let manRow : Row := { name := "manifest".toList, kind := 13, align := 4, body := [], size := manLen, addr := 0 }
  let count := rows.length + 2
  let start := 64 + 32 * count
  let offs := offsets start (rows ++ [manRow])
  let addrs := (o.secs.filter fun s => isLoaded s.key.kind).map fun s => s.addr
  let head : FileHead :=
    { exec := o.exec, ixtin := o.secs.any fun s => s.key.kind == kIxtin, count,
      base := if o.exec then (addrs.foldl (fun a x => some ((a.getD x).min x)) none).getD 0 else 0,
      symsec := at_ 10, strsec := at_ 11, relsec := if rows.any fun r => r.kind == 12 then at_ 12 else 0xFFFF, mansec := rows.length + 1 }
  let table := natLE 32 0 ++ ((rows ++ [manRow]).zip offs).flatMap fun p => rowBytes strs p.1 p.2
  let before := rows.foldl (fun b r => padFile b ++ r.body) (head.bytes ++ table)
  let before := padFile before
  before ++ manifest (digestBytes before) tool rows

/-! ## Reading a file -/

/-- The bytes of a name: up to the zero byte. -/
def nameAt (strs : List Byte) (off : Nat) : Txt := ((strs.drop off).takeWhile fun b => b != 0).map fun b => Char.ofNat b.toNat
/-- Records of `n` bytes. -/
def records (n : Nat) : Nat → List Byte → List (List Byte)
  | 0, _ => []
  | k + 1, b => b.take n :: records n k (b.drop n)

/-- The rows of the section table, the null entry first. -/
def readRows (f : List Byte) (h : FileHead) : List Row :=
  let raw := records 32 h.count (f.drop 64)
  let body := fun (e : List Byte) => if num e 4 1 = kZero then [] else (f.drop (num e 8 8)).take (num e 16 8)
  let strs := ((raw[h.strsec]?).map body).getD []
  raw.map fun e =>
    { name := nameAt strs (num e 0 4), kind := num e 4 1, align := num e 6 1, body := body e, size := num e 16 8, addr := num e 24 8 }

/-- A relocation that names a section or a symbol the file does not have: its kind is none, so that it fails its check (R89). -/
def badReloc : Reloc := { at_ := { sec := { kind := 0, name := [] }, off := 0 }, kind := 0, sym := nullSymbol, add := 0 }
/-- A JOF file as an object; none where it is not one. -/
def readObj (f : List Byte) : Option Obj := do
  let h ← readHead f
  let rows := readRows f h
  let keyAt := fun (i : Nat) => (rows[i]?).map fun r => ({ kind := r.kind, name := r.name } : SecKey)
  let strs := ((rows[h.strsec]?).map fun r => r.body).getD []
  let symB := ((rows[h.symsec]?).map fun r => r.body).getD []
  let syms := (records 24 (symB.length / 24) symB).map fun e =>
    ({ name := nameAt strs (num e 0 4), sec := if num e 4 2 = 0 then none else keyAt (num e 4 2), type := num e 6 1,
       glob := num e 7 1 == 1, value := num e 8 8, size := num e 16 8 } : Symbol)
  let relB := if h.relsec = 0xFFFF then [] else ((rows[h.relsec]?).map fun r => r.body).getD []
  let rels := (records 24 (relB.length / 24) relB).map fun e =>
    match keyAt (num e 8 2), syms[num e 12 4]? with
    | some k, some s => ({ at_ := { sec := k, off := num e 0 8 }, kind := num e 10 1, sym := s, add := BitVec.ofNat 64 (num e 16 8) } : Reloc)
    | _, _ => badReloc
  let secs := (rows.drop 1).filter fun r => decide (r.kind < 10) || decide (r.kind = kTags)
  return { exec := h.exec, rels, syms := syms.drop 1,
           secs := secs.map fun r => { key := { kind := r.kind, name := r.name }, align := r.align, body := r.body, size := r.size, addr := r.addr } }

/-! ## Loading (R84, R95) -/

/-- The file offset of the manifest. -/
def manifestAt (f : List Byte) : Nat :=
  match readHead f with
  | some h => num (f.drop (64 + 32 * h.mansec)) 8 8
  | none => f.length
/-- The image digest (R95). -/
def imageDigest (f : List Byte) : BitVec 384 := Config.sha384 (f.take (manifestAt f))
/-- Whether the code section of a file that has a virtual address holds Ixtin words; none where no code section has it (R69, R87). -/
def codeIxtin (f : List Byte) (va : Nat) : Option Bool := do
  let h ← readHead f
  let r ← (readRows f h).find? fun r =>
    (r.kind == kText || r.kind == kIxtin) && decide (r.addr ≤ va) && decide (va < upTo 65536 (r.addr + r.size))
  return r.kind == kIxtin

/-- The digests of a file agree with its bytes: a loader refuses any other image (R95). -/
def digestsAgree (f : List Byte) : Bool :=
  match readHead f with
  | none => false
  | some h =>
    let rows := readRows f h
    let man := f.drop (manifestAt f)
    let n := num man 4 4
    let entry := fun (i : Nat) => (man.drop (56 + 64 * i)).take 64
    num man 0 4 == 1 && (man.drop 8).take 48 == natLE 48 (imageDigest f).toNat &&
      (List.range n).all fun i =>
        let e := entry i
        match rows[num e 0 2]? with
        | some r => e.drop 16 == digestBytes r.body && num e 2 1 == r.kind && num e 8 8 == r.size
        | none => false

/-- The granules that a loader writes tagged: the entries of the `tags` sections of an executable (R84). -/
def Obj.granules (o : Obj) : List Nat :=
  (o.secs.filter fun s => s.key.kind == kTags).flatMap fun s => (records 16 (s.body.length / 16) s.body).map fun e => num e 0 8

end Sys2Proof.Jas
end

