-- ==== Sys2Proof/Machine/Flags.lean ====
section
/-! DEFINITION. Numbers, rounding and flags: the three floating formats (R98), one rounding of an exact value
(R104, R105), every flag computation (R42, R99 to R106, R112 to R114), and the floating operations that the
scalar pipeline, the wide unit, the matrix array and the Kiosk share (R138 to R140, R155, R216). -/

namespace Sys2Proof.Machine

/-- The layout of `fflags` and `bflags` (R42). -/
abbrev Flags := BitVec 5
def flagNV : Flags := 0b10000
def flagDZ : Flags := 0b01000
def flagOF : Flags := 0b00100
def flagUF : Flags := 0b00010
def flagNX : Flags := 0b00001

/-- Width, exponent bits, fraction bits and bias of a format (R98). -/
structure Fmt where
  width : Nat
  ebits : Nat
  mbits : Nat
  bias : Nat
deriving DecidableEq, Repr

def fmtOf : FFmt → Fmt
  | .f32 => { width := 32, ebits := 8, mbits := 23, bias := 127 }
  | .f16 => { width := 16, ebits := 5, mbits := 10, bias := 15 }
  | .bf16 => { width := 16, ebits := 8, mbits := 7, bias := 127 }

def Fmt.expMax (f : Fmt) : Nat := 2 ^ f.ebits - 1
/-- Bit patterns of the format, without the sign. -/
def Fmt.infBits (f : Fmt) : Nat := f.expMax * 2 ^ f.mbits
def Fmt.maxFinite (f : Fmt) : Nat := f.infBits - 1
def Fmt.canonicalNaN (f : Fmt) : Nat := f.infBits + 2 ^ (f.mbits - 1)
def Fmt.signBit (f : Fmt) (neg : Bool) : Nat := if neg then 2 ^ (f.width - 1) else 0

/-- What a pattern stands for: a NaN, an infinity, or (-1)^neg × m × 2^e. -/
inductive FVal where
  | nan (signalling : Bool)
  | inf (neg : Bool)
  | fin (neg : Bool) (m : Nat) (e : Int)
deriving DecidableEq, Repr

def unpack (f : Fmt) (x : Nat) : FVal :=
  let neg := decide (x / 2 ^ (f.width - 1) % 2 = 1)
  let ex := x / 2 ^ f.mbits % 2 ^ f.ebits
  let fr := x % 2 ^ f.mbits
  if ex = f.expMax then
    if fr = 0 then .inf neg else .nan (decide (fr < 2 ^ (f.mbits - 1)))
  else if ex = 0 then .fin neg fr (1 - (f.bias : Int) - f.mbits)
  else .fin neg (fr + 2 ^ f.mbits) ((ex : Int) - f.bias - f.mbits)

/-- A rounding mode resolved, with the lane's 16 draw bits for SR (R104, R109). -/
structure Mode where
  rm : Rm
  u : Nat
deriving DecidableEq, Repr

/-- Whether the magnitude q + (r + sticky)/2^sh rounds up to q + 1 (R104). -/
def roundsUp (md : Mode) (neg : Bool) (q r sh : Nat) (sticky : Bool) : Bool :=
  let half := 2 ^ sh
  let above := decide (half < 2 * r) || (decide (2 * r = half) && sticky)
  let tie := decide (2 * r = half) && !sticky && decide (r ≠ 0)
  let inexact := decide (r ≠ 0) || sticky
  match md.rm with
  | .rn | .dyn => above || (tie && decide (q % 2 = 1))
  | .ra => above || tie
  | .rz => false
  | .ru => inexact && !neg
  | .rd => inexact && neg
  | .sr => decide (2 ^ (sh + 16) ≤ r * 2 ^ 16 + md.u * 2 ^ sh)

/-- The magnitude (m + sticky part) × 2^e as a count of 2^ulp units: the count after rounding, and whether the
value was inexact. -/
def roundUnits (md : Mode) (neg : Bool) (m : Nat) (e ulp : Int) (sticky : Bool) : Nat × Bool :=
  if ulp ≤ e then (m * 2 ^ (e - ulp).toNat, sticky)
  else
    let sh := (ulp - e).toNat
    let q := m / 2 ^ sh
    let r := m % 2 ^ sh
    (if roundsUp md neg q r sh sticky then q + 1 else q, decide (r ≠ 0) || sticky)

/-- What an overflow delivers (R105). -/
def overflowBits (f : Fmt) (md : Mode) (sat neg : Bool) : Nat :=
  let toMax := sat || match md.rm with
    | .rz => true
    | .ru => neg
    | .rd => !neg
    | .rn | .ra | .sr | .dyn => false
  f.signBit neg + if toMax then f.maxFinite else f.infBits

/-- RoundTo of R104 and R105: the exact value (-1)^neg × (m + sticky part) × 2^e to a format. -/
def roundTo (f : Fmt) (md : Mode) (sat neg : Bool) (m : Nat) (e : Int) (sticky : Bool) : Nat × Flags :=
  if m = 0 ∧ sticky = false then (f.signBit neg, 0)
  else
    let emin : Int := 1 - f.bias
    let k : Int := (Nat.log2 m : Int) + e
    let ulp : Int := max k emin - f.mbits
    let r := roundUnits md neg m e ulp sticky
    let top : Int := (Nat.log2 r.1 : Int) + ulp
    if r.1 ≠ 0 ∧ (f.bias : Int) < top then (overflowBits f md sat neg, flagOF ||| flagNX)
    else
      let own := roundUnits md neg m e (k - f.mbits) sticky
      let tiny := decide (k < emin) && decide ((Nat.log2 own.1 : Int) + (k - f.mbits) < emin)
      let fl : Flags := if r.2 then (if tiny then flagUF ||| flagNX else flagNX) else 0
      (f.signBit neg + ((ulp + f.mbits + f.bias - 1).toNat * 2 ^ f.mbits + r.1), fl)

/-- The integer square root, bit by bit from bit `k`. -/
def sqrtFrom (n : Nat) : Nat → Nat → Nat
  | 0, r => if (r + 1) * (r + 1) ≤ n then r + 1 else r
  | k + 1, r =>
    let r' := r + 2 ^ (k + 1)
    sqrtFrom n k (if r' * r' ≤ n then r' else r)
def isqrt (n : Nat) : Nat := sqrtFrom n (Nat.log2 n / 2 + 1) 0

/-! ## Operations on one element. Each answers the bits and the flags. -/

def isSig : FVal → Bool
  | .nan s => s
  | .inf _ | .fin .. => false
def isNan : FVal → Bool
  | .nan _ => true
  | .inf _ | .fin .. => false
/-- NV for a signalling operand (R99). -/
def nvIf (b : Bool) : Flags := if b then flagNV else 0

/-- The exact sum of two finite values, as sign, magnitude and exponent. -/
def exactSum (n1 : Bool) (m1 : Nat) (e1 : Int) (n2 : Bool) (m2 : Nat) (e2 : Int) : Int × Int :=
  let e := min e1 e2
  let a : Int := (m1 * 2 ^ (e1 - e).toNat : Nat)
  let b : Int := (m2 * 2 ^ (e2 - e).toNat : Nat)
  ((if n1 then -a else a) + (if n2 then -b else b), e)

/-- The sum of two finite addends rounded once, with the sign rule of R101 for an exact zero. -/
def roundSum (f : Fmt) (md : Mode) (n1 : Bool) (m1 : Nat) (e1 : Int) (n2 : Bool) (m2 : Nat) (e2 : Int) : Nat × Flags :=
  let s := exactSum n1 m1 e1 n2 m2 e2
  if s.1 = 0 then
    (f.signBit (decide (md.rm = .rd) || (decide (m1 = 0) && decide (m2 = 0) && n1 && n2)), 0)
  else roundTo f md false (decide (s.1 < 0)) s.1.natAbs s.2 false

def fvNeg : FVal → FVal
  | .nan s => .nan s
  | .inf n => .inf (!n)
  | .fin n m e => .fin (!n) m e

def addVals (f : Fmt) (md : Mode) (a b : FVal) : Nat × Flags :=
  let nv := nvIf (isSig a || isSig b)
  match a, b with
  | .nan _, _ | _, .nan _ => (f.canonicalNaN, nv)
  | .inf n, .inf k => if n = k then (f.signBit n + f.infBits, 0) else (f.canonicalNaN, flagNV)
  | .inf n, .fin .. => (f.signBit n + f.infBits, 0)
  | .fin .., .inf n => (f.signBit n + f.infBits, 0)
  | .fin n1 m1 e1, .fin n2 m2 e2 => roundSum f md n1 m1 e1 n2 m2 e2

def fAdd (f : Fmt) (md : Mode) (x y : Nat) : Nat × Flags := addVals f md (unpack f x) (unpack f y)
def fSub (f : Fmt) (md : Mode) (x y : Nat) : Nat × Flags := addVals f md (unpack f x) (fvNeg (unpack f y))

def fMul (f : Fmt) (md : Mode) (x y : Nat) : Nat × Flags :=
  let a := unpack f x
  let b := unpack f y
  let nv := nvIf (isSig a || isSig b)
  match a, b with
  | .nan _, _ | _, .nan _ => (f.canonicalNaN, nv)
  | .inf n, .inf k => (f.signBit (n != k) + f.infBits, 0)
  | .inf n, .fin k m _ | .fin k m _, .inf n =>
    if m = 0 then (f.canonicalNaN, flagNV) else (f.signBit (n != k) + f.infBits, 0)
  | .fin n1 m1 e1, .fin n2 m2 e2 => roundTo f md false (n1 != n2) (m1 * m2) (e1 + e2) false

/-- a × b + c, one rounding; 0 × ∞ is invalid whatever c is (R100). -/
def fFma (f : Fmt) (md : Mode) (x y z : Nat) : Nat × Flags :=
  let a := unpack f x
  let b := unpack f y
  let c := unpack f z
  let nv := nvIf (isSig a || isSig b || isSig c)
  let zeroInf := match a, b with
    | .inf _, .fin _ m _ | .fin _ m _, .inf _ => decide (m = 0)
    | _, _ => false
  if zeroInf then (f.canonicalNaN, flagNV)
  else if isNan a || isNan b || isNan c then (f.canonicalNaN, nv)
  else
    let prod : FVal := match a, b with
      | .fin n1 m1 e1, .fin n2 m2 e2 => .fin (n1 != n2) (m1 * m2) (e1 + e2)
      | .inf n, .inf k | .inf n, .fin k _ _ | .fin k _ _, .inf n => .inf (n != k)
      | .nan s, _ | _, .nan s => .nan s
    addVals f md prod c

/-- The quotient of two finite nonzero magnitudes, with at least 64 bits and the sticky rest. -/
def quotient (m1 : Nat) (e1 : Int) (m2 : Nat) (e2 : Int) : Nat × Int × Bool :=
  let s := 66 + Nat.log2 m2
  let n := m1 * 2 ^ s
  (n / m2, e1 - e2 - s, decide (n % m2 ≠ 0))

def divVals (f : Fmt) (md : Mode) (a b : FVal) : Nat × Flags :=
  let nv := nvIf (isSig a || isSig b)
  match a, b with
  | .nan _, _ | _, .nan _ => (f.canonicalNaN, nv)
  | .inf _, .inf _ => (f.canonicalNaN, flagNV)
  | .inf n, .fin k _ _ => (f.signBit (n != k) + f.infBits, 0)
  | .fin n _ _, .inf k => (f.signBit (n != k), 0)
  | .fin n1 m1 e1, .fin n2 m2 e2 =>
    if m2 = 0 then
      if m1 = 0 then (f.canonicalNaN, flagNV) else (f.signBit (n1 != n2) + f.infBits, flagDZ)
    else if m1 = 0 then (f.signBit (n1 != n2), 0)
    else
      let q := quotient m1 e1 m2 e2
      roundTo f md false (n1 != n2) q.1 q.2.1 q.2.2

def fDiv (f : Fmt) (md : Mode) (x y : Nat) : Nat × Flags := divVals f md (unpack f x) (unpack f y)
/-- VRCP is the division of 1 (R155). -/
def fRcp (f : Fmt) (md : Mode) (x : Nat) : Nat × Flags := divVals f md (.fin false 1 0) (unpack f x)

/-- m × 2^e with an even exponent. -/
def evenExp (m : Nat) (e : Int) : Nat × Int := if e % 2 = 0 then (m, e) else (2 * m, e - 1)

def fSqrt (f : Fmt) (md : Mode) (x : Nat) : Nat × Flags :=
  match unpack f x with
  | .nan s => (f.canonicalNaN, nvIf s)
  | .inf n => if n then (f.canonicalNaN, flagNV) else (f.infBits, 0)
  | .fin n m e =>
    if m = 0 then (f.signBit n, 0)
    else if n then (f.canonicalNaN, flagNV)
    else
      let p := evenExp m e
      let v := p.1 * 2 ^ 128
      let r := isqrt v
      roundTo f md false false r (p.2 / 2 - 64) (decide (r * r ≠ v))

def fRsq (f : Fmt) (md : Mode) (x : Nat) : Nat × Flags :=
  match unpack f x with
  | .nan s => (f.canonicalNaN, nvIf s)
  | .inf n => if n then (f.canonicalNaN, flagNV) else (0, 0)
  | .fin n m e =>
    if m = 0 then (f.signBit n + f.infBits, flagDZ)
    else if n then (f.canonicalNaN, flagNV)
    else
      let p := evenExp m e
      let s := 66 + Nat.log2 p.1
      let r := isqrt (2 ^ (2 * s) / p.1)
      roundTo f md false false r (-(p.2 / 2) - s) (decide (r * r * p.1 ≠ 2 ^ (2 * s)))

/-! Fixed point with `fixP` bits after the point, for 2^a and log2 a (notes/assumptions/11.md). -/

def fixP : Nat := 384
/-- Σ z^(2k+1)/(2k+1), `n` terms from `k`; `pw` is z^(2k+1), `z2` is z². -/
def atanhSum (z2 : Nat) : Nat → Nat → Nat → Nat → Nat
  | 0, _, _, acc => acc
  | n + 1, k, pw, acc => atanhSum z2 n (k + 1) (pw * z2 / 2 ^ fixP) (acc + pw / (2 * k + 1))
/-- 2 × atanh(a/b) in fixed point, for 0 ≤ a/b ≤ 1/3. -/
def ln1 (a b : Nat) : Nat :=
  let z := a * 2 ^ fixP / b
  2 * atanhSum (z * z / 2 ^ fixP) 130 0 z 0
def ln2Fix : Nat := ln1 1 3
/-- Σ x^k/k!, `n` terms; `t` is the term of `k`. -/
def expSum (x : Nat) : Nat → Nat → Nat → Nat → Nat
  | 0, _, _, acc => acc
  | n + 1, k, t, acc => expSum x n (k + 1) (t * x / 2 ^ fixP / (k + 1)) (acc + t)

/-- 2^(q/2^d) for 0 < q < 2^d, times 2^fixP. -/
def exp2Frac (q d : Nat) : Nat :=
  expSum (q * 2 ^ (fixP - d) * ln2Fix / 2 ^ fixP) 90 0 (2 ^ fixP) 0

def clampExp (n : Int) : Int := max (-1000) (min 1000 n)

/-- VEXP2 (R155): exact for an integer operand, otherwise inexact. -/
def fExp2 (f : Fmt) (md : Mode) (x : Nat) : Nat × Flags :=
  match unpack f x with
  | .nan s => (f.canonicalNaN, nvIf s)
  | .inf n => if n then (0, 0) else (f.infBits, 0)
  | .fin n m e =>
    if m = 0 then roundTo f md false false 1 0 false
    else if 0 ≤ e then
      let big := if 10 < e then (1000 : Int) else min 1000 ((m * 2 ^ e.toNat : Nat) : Int)
      roundTo f md false false 1 (clampExp (if n then -big else big)) false
    else
      let d := (-e).toNat
      let v : Int := if n then -(m : Int) else m
      let i := v / 2 ^ d
      let q := (v % 2 ^ d).toNat
      if q = 0 then roundTo f md false false 1 (clampExp i) false
      else roundTo f md false false (exp2Frac q d) (clampExp i - fixP) true

/-- VLOG2 (R155): exact for a power of two, otherwise inexact. -/
def fLog2 (f : Fmt) (md : Mode) (x : Nat) : Nat × Flags :=
  match unpack f x with
  | .nan s => (f.canonicalNaN, nvIf s)
  | .inf n => if n then (f.canonicalNaN, flagNV) else (f.infBits, 0)
  | .fin n m e =>
    if m = 0 then (f.signBit true + f.infBits, flagDZ)
    else if n then (f.canonicalNaN, flagNV)
    else
      let k := Nat.log2 m
      let i : Int := k + e
      if m = 2 ^ k then roundTo f md false (decide (i < 0)) i.natAbs 0 false
      else
        -- log2 (m / 2^k) = ln (m / 2^k) / ln 2, with m / 2^k between 1 and 2
        let l := ln1 (m - 2 ^ k) (m + 2 ^ k) * 2 ^ fixP / ln2Fix
        let v : Int := i * 2 ^ fixP + l
        if v < 0 then roundTo f md false true (v.natAbs - 1) (-(fixP : Int)) true
        else roundTo f md false false v.natAbs (-(fixP : Int)) true

/-- The order of finite values and infinities as integers on one scale, zeros apart by sign. -/
def orderKey (f : Fmt) (x : Nat) : Int :=
  let mag := x % 2 ^ (f.width - 1)
  if x / 2 ^ (f.width - 1) % 2 = 1 then -(mag : Int) - 1 else mag

/-- FMIN and FMAX (R139), and the Kiosk's `.fmin` and `.fmax` (R216). -/
def fMinMax (f : Fmt) (wantMax : Bool) (x y : Nat) : Nat × Flags :=
  let a := unpack f x
  let b := unpack f y
  if isSig a || isSig b then (f.canonicalNaN, flagNV)
  else if isNan a && isNan b then (f.canonicalNaN, 0)
  else if isNan a then (y, 0)
  else if isNan b then (x, 0)
  else if decide (orderKey f x < orderKey f y) = wantMax then (y, 0) else (x, 0)

/-- FCMP (R124, R139): the relation and its flags. -/
def fCompare (f : Fmt) (r : FRel) (x y : Nat) : Bool × Flags :=
  let a := unpack f x
  let b := unpack f y
  let un := isNan a || isNan b
  let zero := fun v => match v with
    | FVal.fin _ m _ => decide (m = 0)
    | FVal.inf _ | FVal.nan _ => false
  let kx : Int := if zero a then 0 else orderKey f x
  let ky : Int := if zero b then 0 else orderKey f y
  let signalling := match r with
    | .lt | .le | .gt | .ge => true
    | .eq | .ne | .un | .ord => false
  let fl := nvIf (isSig a || isSig b || (un && signalling))
  -- -0 and +0 are equal; a negative nonzero key lies below -1
  let v := match r with
    | .eq => !un && decide (kx = ky)
    | .ne => un || decide (kx ≠ ky)
    | .lt => !un && decide (kx < ky)
    | .le => !un && decide (kx ≤ ky)
    | .gt => !un && decide (ky < kx)
    | .ge => !un && decide (ky ≤ kx)
    | .un => un
    | .ord => !un
  (v, fl)

/-- FCLASS (R139). -/
def fClassBit (f : Fmt) (x : Nat) : Nat :=
  match unpack f x with
  | .nan s => if s then 8 else 9
  | .inf n => if n then 0 else 7
  | .fin n m _ =>
    if m = 0 then (if n then 3 else 4)
    else if m < 2 ^ f.mbits then (if n then 2 else 5)
    else (if n then 1 else 6)

def flipSign (f : Fmt) (x : Nat) (neg : Bool) : Nat := f.signBit neg + x % 2 ^ (f.width - 1)
def signOf (f : Fmt) (x : Nat) : Bool := decide (x / 2 ^ (f.width - 1) % 2 = 1)

/-! ## Conversions (R106, R140) -/

def IFmt.width : IFmt → Nat
  | .i8 | .n8 => 8
  | .i16 | .n16 => 16
  | .i32 | .n32 => 32
  | .i64 | .n64 => 64
def IFmt.signed : IFmt → Bool
  | .i8 | .i16 | .i32 | .i64 => true
  | .n8 | .n16 | .n32 | .n64 => false
def IFmt.lo (f : IFmt) : Int := if IFmt.signed f then -(2 ^ (IFmt.width f - 1) : Nat) else 0
def IFmt.hi (f : IFmt) : Int := if IFmt.signed f then (2 ^ (IFmt.width f - 1) : Nat) - 1 else (2 ^ IFmt.width f : Nat) - 1
/-- The integer that the low bits of a pattern stand for. -/
def IFmt.val (f : IFmt) (x : Nat) : Int :=
  let v := x % 2 ^ IFmt.width f
  if IFmt.signed f && decide (2 ^ (IFmt.width f - 1) ≤ v) then (v : Int) - (2 ^ IFmt.width f : Nat) else v
/-- The low bits of an integer. -/
def lowBits (w : Nat) (z : Int) : Nat := (z % (2 ^ w : Nat)).toNat

def NFmt.width : NFmt → Nat
  | .int f => IFmt.width f
  | .flt f => (fmtOf f).width

/-- Float to integer (R106). -/
def floatToInt (d : IFmt) (md : Mode) (sat : Bool) (v : FVal) : Nat × Flags :=
  let out := fun (bound : Int) =>
    (lowBits (IFmt.width d) (if sat then bound else if IFmt.signed d then IFmt.lo d else IFmt.hi d), flagNV)
  match v with
  | .nan _ => out 0
  | .inf n => out (if n then IFmt.lo d else IFmt.hi d)
  | .fin n m e =>
    if 80 < (Nat.log2 m : Int) + e then out (if n then IFmt.lo d else IFmt.hi d)
    else
      let r := roundUnits md n m e 0 false
      let z : Int := if n then -(r.1 : Int) else r.1
      if z < IFmt.lo d then out (IFmt.lo d)
      else if IFmt.hi d < z then out (IFmt.hi d)
      else (lowBits (IFmt.width d) z, if r.2 then flagNX else 0)

def floatToFloat (d : FFmt) (md : Mode) (sat : Bool) (s : FFmt) (x : Nat) : Nat × Flags :=
  let fd := fmtOf d
  match unpack (fmtOf s) x with
  | .nan sg => (fd.canonicalNaN, nvIf sg)
  | .inf n => (fd.signBit n + (if sat then fd.maxFinite else fd.infBits), 0)
  | .fin n m e => if d = s then (x % 2 ^ fd.width, 0) else roundTo fd md sat n m e false

/-- One element from a source format to a destination format: its bits at the destination width. -/
def convert (d : NFmt) (md : Mode) (sat : Bool) (s : NFmt) (x : Nat) : Nat × Flags :=
  match s, d with
  | .flt fs, .flt fd => floatToFloat fd md sat fs x
  | .int fs, .flt fd =>
    let z := IFmt.val fs x
    roundTo (fmtOf fd) md sat (decide (z < 0)) z.natAbs 0 false
  | .flt fs, .int fd => floatToInt fd md sat (unpack (fmtOf fs) (x % 2 ^ (fmtOf fs).width))
  | .int fs, .int fd =>
    let z := IFmt.val fs x
    (lowBits (IFmt.width fd) (if sat then max (IFmt.lo fd) (min (IFmt.hi fd) z) else z), 0)

/-! ## Integer division (R103), for width `w` -/

def divS (w : Nat) (a b : Int) : Int :=
  if b = 0 then -1 else if a = -(2 ^ (w - 1) : Nat) ∧ b = -1 then a else a.tdiv b
def remS (w : Nat) (a b : Int) : Int :=
  if b = 0 then a else if a = -(2 ^ (w - 1) : Nat) ∧ b = -1 then 0 else a.tmod b
def divU (w : Nat) (a b : Nat) : Nat := if b = 0 then 2 ^ w - 1 else a / b
def remU (a b : Nat) : Nat := if b = 0 then a else a % b

/-! ## The stochastic-rounding generator (R107) -/

def mix64 (z : W64) : W64 :=
  let z := z ^^^ (z >>> 31)
  let z := z * 0xD6E8FEB86659FD93
  let z := z ^^^ (z >>> 29)
  let z := z * 0xA0761D6478BD642F
  z ^^^ (z >>> 32)

def drawAt (srseed : W64) (lcn : W32) (n : W64) : W64 :=
  let s0 := mix64 (srseed ^^^ (lcn.setWidth 64 * 0x9E3779B97F4A7C15))
  mix64 (s0 + n * 0xBF58476D1CE4E5B9)

/-- The 16 bits of lane `i` in the 8 draws of a wide instruction (R109). -/
def laneDraw (draws : List W64) (i : Nat) : Nat :=
  (((draws[i / 4]?).getD 0) >>> (16 * (i % 4))).toNat % 2 ^ 16

/-! ## PX blocks (R111 to R113) -/

def PxFmt.mag : PxFmt → Nat
  | .px2 => 2 | .px4 => 4 | .px7 => 7
def PxFmt.bytes : PxFmt → Nat
  | .px2 => 8 | .px4 => 12 | .px7 => 18

/-- Element `i` of a block (R112). -/
def pxElement (f : PxFmt) (block i : Nat) : FVal :=
  let mb := PxFmt.mag f
  let e := block % 256
  if e = 255 then .nan false
  else
    let mu := block / 2 ^ (8 + i / 2) % 2
    let at_ := 16 + i * (mb + 1)
    .fin (decide (block / 2 ^ (at_ + mb) % 2 = 1)) (block / 2 ^ at_ % 2 ^ mb)
      ((e : Int) - 127 - mu - (mb - 1 : Nat))

/-- A decoded element in a floating format: exact in binary32, rounded in the others (R112). -/
def pxDecode (d : FFmt) (md : Mode) (v : FVal) : Nat × Flags :=
  match v with
  | .nan _ | .inf _ => ((fmtOf d).canonicalNaN, 0)
  | .fin n m e => roundTo (fmtOf d) md false n m e false

/-- Magnitude comparison of m × 2^e with 2^k. -/
def below2 (m : Nat) (e k : Int) : Bool := decide (m = 0) || decide ((Nat.log2 m : Int) + e < k)

/-- The value of a list of elements as sign, magnitude, exponent; none when one is a NaN or an infinity. -/
def finites : List FVal → Option (List (Bool × Nat × Int))
  | [] => some []
  | .fin n m e :: r => (finites r).map fun l => (n, m, e) :: l
  | .nan _ :: _ => none
  | .inf _ :: _ => none

/-- PxEncode (R113) of 16 values; `u` are the draw bits. -/
def pxEncode (f : PxFmt) (md : Mode) (xs : List FVal) : Nat × Flags :=
  let mb := PxFmt.mag f
  match finites xs with
  | none => (255, flagNV)
  | some vs =>
    let top : Option Int := vs.foldl (fun acc v =>
      if v.2.1 = 0 then acc
      else
        let k := (Nat.log2 v.2.1 : Int) + v.2.2
        match acc with
        | none => some k
        | some t => some (max t k)) none
    match top with
    | none => (0, 0)
    | some t =>
      let e0 := t + 127
      let e : Int := max 0 (min 254 e0)
      let fl0 : Flags := (if 254 < e0 then flagOF else 0) ||| (if e0 < 0 then flagUF else 0)
      let mu : Nat → Nat := fun p =>
        let ok := fun (v : Option (Bool × Nat × Int)) => match v with
          | some v => below2 v.2.1 v.2.2 (e - 127)
          | none => true
        if ok vs[2 * p]? && ok vs[2 * p + 1]? then 1 else 0
      let mus := (List.range 8).foldl (fun (acc : Nat) p => acc + mu p * 2 ^ (8 + p)) 0
      (List.range 16).foldl (fun (acc : Nat × Flags) i =>
        match vs[i]? with
        | none => acc
        | some (n, m, x) =>
          let sc : Int := e - 127 - (mu (i / 2) : Nat) - (mb - 1 : Nat)
          let r := roundUnits md n m x sc false
          let q := if 2 ^ mb ≤ r.1 then 2 ^ mb - 1 else r.1
          let nx := r.2 || decide (2 ^ mb ≤ r.1)
          (acc.1 + (q + if n then 2 ^ mb else 0) * 2 ^ (16 + i * (mb + 1)), acc.2 ||| if nx then flagNX else 0))
        ((e.toNat + mus, fl0) : Nat × Flags)

end Sys2Proof.Machine
end

