-- ==== Sys2Proof/Machine/State.lean ====
section
/-! DEFINITION. The state of the whole package as plain data: cores with their contexts and processes, arbors,
memory, Kiosks, Bandstands, engines, the Belvedere, the Lodge, boot and ports; and State.reset. INVENTORY.md lists
every field with its rule and its reset value. -/

namespace Sys2Proof.Machine

/-- Why a step stops for good. -/
inductive Fault where
  /-- Raised by the steps of agents that name a core, die, arbor, controller, port or record that does not exist
  (R12, R13, R23): only an input or a state no run reaches can name one. Safe. -/
  | noSuchUnit
deriving DecidableEq, Repr

/-- Why an instruction has no meaning here. -/
inductive Refusal where
  /-- Raised by an arm of Dispatch whose instruction has no meaning yet. Safe. -/
  | notModelled (mnemonic : String)
  /-- Raised by CONTROL_REGISTER_WRITE at a control-space address at which the spec describes no register (R363). Safe. -/
  | controlSpace
deriving DecidableEq, Repr

/-! ## Registers and contexts -/

/-- A g register: 128 bits, tag, hidden end-state word (R39, R237). -/
structure GReg where
  bits : W128
  tag : Bool
  endst : W32
deriving DecidableEq, Repr

def GReg.zero : GReg := { bits := 0, tag := false, endst := 0 }
/-- Untagged data (R40). -/
def GReg.data (v : W64) : GReg := { bits := v.setWidth 128, tag := false, endst := 0 }

/-- Cause, value and resume address of a trap (R389). -/
structure TrapRec where
  cause : BitVec 8
  val : W64
  ip : W64
deriving DecidableEq, Repr

/-- Where a translated address lies (R362, R363). -/
inductive Place where
  | hbm (pa : Nat)
  | peer (device : BitVec 12) (pa : Nat)
  | host (id : BitVec 12) (pa : Nat)
deriving DecidableEq, Repr

/-- The atomic retry latch (R392). -/
structure Latch where
  valid : Bool
  sent : Bool
  done : Bool
  posted : Bool
  seq : W16
  word : BitVec 96
  addr : W64
  operand : W64
  compare : W64
  result : W64
  /-- The agent and address of a sent operation, and its virtual address; `addr` is its physical address. -/
  place : Option Place
  va : Nat
deriving DecidableEq, Repr

def Latch.empty : Latch :=
  { valid := false, sent := false, done := false, posted := false, seq := 0, word := 0, addr := 0, operand := 0,
    compare := 0, result := 0, place := none, va := 0 }

/-- What a waiting context waits for, with what its word still needs to finish. The pc of a waiting context is
that of the waiting word. -/
inductive Wait where
  /-- The result of a load, an atomic or another off-core reference with this identity. -/
  | result (id : Nat)
  /-- RECV (R259): g destination or physical w register, receive end, register of a carried end. -/
  | recv (d : Option (BitVec 6)) (w : Nat) (e : BitVec 6) (carried : Option (BitVec 6)) (qd : BitVec 3) (set : BitVec 2)
  | select (d b : BitVec 6) (mask : W32) (set : BitVec 2)
  /-- SWAIT and FWAIT: enrolled in a Kiosk, or polling. -/
  | sync (id : Nat)
  | jobs (engine : Nat) (count : W64)
  | preds (qd : BitVec 3) (set : BitVec 2)
  | barrier (xend : Bool)
  | gangIssue
  | helper (k : Nat) (qd : BitVec 3) (set : BitVec 2)
  | helpers
  | event (mask : W64) (d : BitVec 6) (set : BitVec 2)
  /-- S from its launch until an event is pending (R390). -/
  | start
deriving DecidableEq, Repr

/-- Whether a wait stands at a yield point (R280). -/
def Wait.yields : Wait → Bool
  | .result _ | .start => false
  | .recv .. | .select .. | .sync _ | .jobs .. | .preds .. | .barrier _ | .gangIssue | .helper .. | .helpers
  | .event .. => true

/-- Whether a context stopped in this wait issues its word again (R291): all but the waits at a barrier. -/
def Wait.reissues : Wait → Bool
  | .barrier _ => false
  | .result _ | .start | .recv .. | .select .. | .sync _ | .jobs .. | .preds .. | .gangIssue | .helper .. | .helpers
  | .event .. => true

/-- The run state of a context (R22, R23, R388, R291). -/
inductive Run where
  | dead
  | ready
  | waiting (w : Wait)
  | parked
  /-- Stopped at a yield point under a pre-empt request (R291), or for a save. -/
  | stopped
deriving DecidableEq, Repr

/-- The fences (R213); `sys` for scope `.sys`. -/
inductive Fence where
  | full (sys : Bool)
  | red
  | eng
deriving DecidableEq, Repr

structure Ctx where
  pc : W64
  run : Run
  g : Tab GReg
  q : BitVec 8
  m : Tab W32
  sb : Tab Nat
  fflags : Flags
  rmode : BitVec 3
  /-- Allotment: physical blocks in list order (R151). -/
  blocks : List Nat
  cursor : BitVec 3
  wd : Nat
  /-- First cycle of the next issue (R51). -/
  notBefore : Nat
  /-- First cycle of the next wide issue of this context (R51, R147). -/
  wideNotBefore : Nat
  trap : TrapRec
  latch : Latch
  /-- Pending gang-level events, oldest first: cause and value (R397, R402). -/
  gangEvents : List (BitVec 8 × W64)
  /-- Deferred refusal: cause and value (R395). -/
  deferred : Option (BitVec 8 × W64)
  /-- The branch whose target the context issues next (R129). -/
  branch : Option W64
  /-- A fence that has issued and holds the context's next issue (R213). -/
  fence : Option Fence
deriving DecidableEq, Repr

def Ctx.init : Ctx :=
  { pc := 0, run := .dead, g := [], q := 1, m := [], sb := [], fflags := 0, rmode := 0, blocks := [], cursor := 0,
    wd := 0, notBefore := 0, wideNotBefore := 0, trap := { cause := 0, val := 0, ip := 0 }, latch := Latch.empty,
    gangEvents := [], deferred := none, branch := none, fence := none }

/-! ## Results under way -/

/-- A register write that lands in a later cycle (R56, R58). -/
inductive Result where
  | g (n : BitVec 6) (v : GReg)
  | q (n : BitVec 3) (b : Bool)
  | m (n : BitVec 3) (mask v : W32)
  | w (phys : Nat) (lanes : W32) (v : WReg)
  /-- A WRS to a special register (R57: latency 1). -/
  | s (n : BitVec 9) (v : W64)
  /-- Only flags, or only a scoreboard count. -/
  | none
deriving DecidableEq, Repr

structure Landing where
  due : Nat
  /-- The cycle in which its word issued: its place in program order (R56). -/
  issued : Nat
  ctx : Nat
  res : Result
  flags : Flags
  /-- The scoreboard counter that falls when it lands. -/
  sb : Option (BitVec 2)
  /-- A variable-latency result (R121). -/
  late : Bool
deriving DecidableEq, Repr

/-- Operations of the wide unit, with their formats resolved (R155 to R165, R178). -/
inductive FBin where | add | sub | mul | div | min | max
deriving DecidableEq, Repr
inductive FUn where | abs | neg | rcp | rsq | exp2 | log2
deriving DecidableEq, Repr
inductive IBin where | add | sub | mul | and | or | xor | shl | shr | sar
deriving DecidableEq, Repr
inductive WideOp where
  | fbin (op : FBin) (f : FFmt)
  | ffma (f : FFmt)
  | fun1 (op : FUn) (f : FFmt)
  | ibin (op : IBin) (f : IFmt)
  | cmp (r : VRel)
  | sel
  | mand (a b : BitVec 3)
  | mor (a b : BitVec 3)
  | mnot (a : BitVec 3)
  | perm
  | shuf
  | bcast
  | extr (lane : BitVec 5)
  | ins (lane : BitVec 5)
  | rsum (f : SumFmt)
  | rmax (f : MaxFmt)
  | rmin (f : MaxFmt)
  | cvt (dst : NFmt) (sat : Bool) (src : NFmt)
  | pxenc (px : PxFmt) (src : FFmt)
  | pxdec (dst : FFmt) (px : PxFmt)
  | ldl
  | stl
  | ldx
  | stx
  | mov
  | mrdacc (a : BitVec 2) (j : BitVec 5)
  | mwracc (a : BitVec 2) (j : BitVec 5)
  | mstacc (a : BitVec 2)
  /-- A false guard: an entry that changes nothing (R146). -/
  | skip
deriving DecidableEq, Repr

/-- A source of a wide instruction: a physical w register, or a replicated value (R148). -/
inductive WSrc where
  | reg (phys : Nat)
  | val (v : WReg)
deriving DecidableEq, Repr

/-- An entry of a dispatch queue (R146). -/
structure WEntry where
  ctx : Nat
  op : WideOp
  issued : Nat
  /-- It broadcasts a g register to the lanes (R147, R148). -/
  hasG : Bool
  delay : Nat
  /-- Destination: physical w register, g register or mask number. -/
  d : Nat
  a : WSrc
  b : WSrc
  c : WSrc
  mask : BitVec 3
  rm : Rm
  draws : List W64
  /-- Local-store access: first byte and bytes claimed; window bounds for VLDX and VSTX. -/
  addr : Nat
  len : Nat
  lo : Nat
  hi : Nat
  set : BitVec 2
deriving DecidableEq, Repr

/-- An access to global memory that has issued and not finished. -/
inductive MemKind where
  | load (f : MemFmt) (lc : Bool)
  | store
  | amo (f : AFmt) (op : AmoOp)
  | cas (f : AFmt)
  | red (f : AFmt) (op : AmoOp)
  | fset
  | fclr
deriving DecidableEq, Repr

structure MemOp where
  id : Nat
  ctx : Nat
  kind : MemKind
  va : Nat
  place : Place
  size : Nat
  policy : Policy
  scope : Scope
  d : BitVec 6
  set : BitVec 2
  data : W128
  tag : Bool
  compare : W64
  /-- Sequence of the retry latch (R392). -/
  seq : W16
  /-- Sent again by RETARM for this context (R408). -/
  rearm : Option Nat
  performed : Bool
  result : W64
  flags : Flags
  /-- Re-armed: 0 performed now, 1 stored result. -/
  status : Nat
  /-- Watches the access matches, and the word's address (R410, R411). -/
  hits : List Nat
  ip : W64
  /-- Contexts whose later events come after it in program order: its own and those that R190 joins. -/
  po : List Nat
  /-- Posted operations that came before it in program order when it issued (R190, R192). -/
  after : List Nat
  /-- REDs that happen before it (R203). -/
  past : List Nat
  /-- Refused after it was posted, and not armed again (R273, R395). -/
  refused : Bool
  /-- Its request to a peer device is out (R269). -/
  asked : Bool
deriving DecidableEq, Repr

/-- A wait of SWAIT or FWAIT (R221). -/
structure SyncWait where
  id : Nat
  core : Nat
  ctx : Nat
  place : Place
  va : Nat
  /-- None: FWAIT. -/
  cond : Option (WFmt × Rel × W64)
  d : BitVec 6
  set : BitVec 2
  /-- None: enrolled in an entry of this die's Kiosk; some n: polling every n cycles; some 0: not yet arrived. -/
  poll : Option Nat
  hits : List Nat
  ip : W64
  after : List Nat
  /-- `prq` has been raised: the wait ends at its first read (R223). -/
  ending : Bool
deriving DecidableEq, Repr

/-! ## Core -/

/-- An accumulator tile (R170): elements row-major. -/
structure Tile where
  h8 : Bool
  n32 : Bool
  isInt : Bool
  data : Tab W32
  owner : Option Nat
deriving DecidableEq, Repr
def Tile.init : Tile := { h8 := false, n32 := false, isInt := false, data := [], owner := none }

/-- An instruction-cache line (R48): its place, the bytes of its fill, and the bytes that later writes have left there, in order. -/
structure ILine where
  place : Place
  bytes : List Byte
  since : List (List Byte)
deriving DecidableEq, Repr

/-- An MLOAD in progress (R169): the bytes it takes at its place in the order of R143. -/
structure MLoad where
  id : Nat
  slot : Nat
  off : Nat
  addr : Nat
  len : Nat
  data : List Byte
deriving DecidableEq, Repr

/-- An XCAST transfer (R295, R296). -/
structure XSend where
  id : Nat
  role : Nat
  dest : Nat
  bytes : List Byte
  /-- Source bytes still being read until this cycle. -/
  addr : Nat
  readUntil : Nat
deriving DecidableEq, Repr

/-- An exchange transfer that will write this core's local store (R144). -/
structure XPend where
  id : Nat
  dest : Nat
  /-- None: the byte keeps a value stored meanwhile. -/
  bytes : List (Option Byte)
deriving DecidableEq, Repr

/-- A copy into a local store that a launch makes (R304): the `lstore` image or a residency region. -/
structure Fill where
  addr : Nat
  off : Nat
  len : Nat
deriving DecidableEq, Repr

/-- Processes: what belongs to the process bound to a core (R22, R30, R31, R41). -/
structure Proc where
  gang : Nat
  role : Nat
  wid : W64
  lcn : W32
  srseed : W64
  srctr : W64
  dlim : W32
  bflags : Flags
  prq : W64
  imb : W128
  cw : Tab W32
  js : Tab W64
  issued : Tab W64
  errs : Tab W64
  exchange : Bool
  superstep : W64
  /-- Cycle at which the exchange phase began (R53). -/
  xstart : Nat
  sent : W64
  received : W64
  /-- Number of this process's next barrier arrival, and the cycle and kind of one pending (R293). -/
  arrivals : Nat
  arrived : Option (Nat × Bool)
  /-- The flags it contributed at its arrival (R115). -/
  contrib : Flags
  /-- Cycle of C's HEXIT (R289). -/
  leaving : Option Nat
  trigStarted : Bool
  trigDone : Bool
  /-- The stage this process holds and its holder index (R321). -/
  stage : Option (Nat × Nat)
  /-- The process has started: every fill is complete (R304). -/
  started : Bool
  /-- Copies still being made, in order (R144, R304). -/
  fills : List Fill
  /-- The cause of a fault exit (R391); cancelled or force-stopped; its first steps are done. -/
  faultExit : Option (BitVec 8)
  forced : Bool
  ending : Bool
  /-- Halt-tree stop: the stop record's cycle (R396). -/
  halted : Option Nat
  /-- Held by the debugger (R415). -/
  held : Bool
  /-- Contexts other than S stop at their next yield point: a pre-empt request, a pause, a hold (R291, R326, R415). -/
  yieldStop : Bool
  /-- Cycle of the pre-empt or cancel request. -/
  raised : Nat
deriving DecidableEq, Repr

def Proc.init : Proc :=
  { gang := 0, role := 0, wid := 0, lcn := 0, srseed := 0, srctr := 0, dlim := 0, bflags := 0, prq := 0, imb := 0,
    cw := [], js := [], issued := [], errs := [], exchange := false, superstep := 0, xstart := 0,
    sent := 0, received := 0, arrivals := 0, arrived := none, contrib := 0, leaving := none, trigStarted := false, trigDone := false,
    stage := none, started := false, fills := [], faultExit := none, forced := false, ending := false, halted := none, held := false, yieldStop := false,
    raised := 0 }

structure Core where
  owner : W64
  ls : List Host.Cell
  inbox : List Msg
  sendq : List Msg
  storeq : List MemOp
  /-- Loads and atomics of the core's contexts under way. -/
  flight : List MemOp
  w : Tab WReg
  wq : List WEntry
  land : List Landing
  tiles : Tab Tile
  icache : Tab ILine
  /-- Lines asked for and not yet there. -/
  ifills : List Nat
  cur : Option Nat
  /-- The ring context that last ran (R25). -/
  ring : Nat
  wdog : W32
  evs : W32
  /-- The context most recently resumed by ERET (R389). -/
  focusLast : Nat
  hc : Tab (BitVec 48)
  wa : Tab (BitVec 48)
  wm : Tab (BitVec 48)
  mloads : List MLoad
  /-- MSTACC writes in progress: first byte, length, last cycle (R178). -/
  mstores : List (Nat × Nat × Nat)
  xsend : Option XSend
  xpend : List XPend
  bound : Bool
  proc : Proc
  ctxs : Tab Ctx
  /-- What the Bandstand set aside from C at the start of an upcall (R328). -/
  upcall : Option Ctx
deriving DecidableEq, Repr

def Core.init : Core :=
  { owner := 0, ls := [], inbox := [], sendq := [], storeq := [], flight := [], w := [], wq := [], land := [],
    tiles := [], icache := [], ifills := [], cur := none, ring := 1, wdog := 0x1000000, evs := 0, focusLast := 1,
    hc := [], wa := [], wm := [], mloads := [], mstores := [], xsend := none, xpend := [], bound := false,
    proc := Proc.init, ctxs := [], upcall := none }

/-! ## Arbor -/

structure Slot where
  claimed : Bool
  data : List Host.Cell
deriving DecidableEq, Repr
def Slot.init : Slot := { claimed := false, data := [] }

/-- One core's MGANG at the gang-issue barrier or in flight (R173). -/
structure MGang where
  pos : Nat
  ctx : Nat
  f : MFmt
  a : Nat
  ka : Nat
  kb : Nat
  tag : BitVec 4
deriving DecidableEq, Repr

structure Arbor where
  slots : Tab Slot
  waiting : List MGang
  flying : List MGang
  /-- The operation has started (R175). -/
  started : Bool
  /-- Results to be written at completion: per position, elements and flags. -/
  results : List (Nat × Tab W32 × Flags)
  wideLast : Nat
deriving DecidableEq, Repr
def Arbor.init : Arbor := { slots := [], waiting := [], flying := [], started := false, results := [], wideLast := 3 }

/-! ## Memory -/

/-- Physical memory: bytes as last written, the tag of each 16-byte granule (R208), and the keys of R365 (0 for none): the key
each byte was last written under, the key each 64-byte line was last sealed under, and the bytes whose plaintext was lost when
their line was sealed under another key in between. -/
structure Memory where
  bytes : List Host.Cell
  tags : Tab Bool
  seals : Tab Nat
  lines : Tab Nat
  lost : Tab Bool
deriving DecidableEq, Repr

def Memory.wf (m : Memory) : Bool :=
  Tab.wf 0 m.bytes && Tab.wf false m.tags && Tab.wf 0 m.seals && Tab.wf 0 m.lines && Tab.wf false m.lost
def Memory.empty : Memory := { bytes := [], tags := [], seals := [], lines := [], lost := [] }

/-! ## Channels (R236 to R260) -/

/-- An entry of a record's ring (R240, R241): its index in the ring, whether it is accepted and stamped with a deliver number,
and the message. -/
structure RingEntry where
  slot : Nat
  stamped : Bool
  msg : Msg
deriving DecidableEq, Repr

/-- A channel record (R240). The two generations, counters and locations are those of its ends. -/
structure ChanRec where
  domain : BitVec 11
  keyable : Bool
  ringCode : Nat
  sTransit : Bool
  rTransit : Bool
  sClosed : Bool
  rClosed : Bool
  /-- The holder whose range is being merged away, and the first deliver number that is held (R255, R331). -/
  mergeHold : Option (Nat × W32)
  /-- Spill mode, with the holders that refused a message and still have an entry in the ring (R245). -/
  spill : List Nat
  /-- Slots that the peer device of the receive end has offered since it last refused a message; none before it refuses (R245). -/
  credits : Option Nat
  /-- Key ranges in force, their start keys and next deliver numbers. -/
  ranges : BitVec 8
  starts : Tab W32
  nexts : Tab W32
  sgen : W16
  rgen : W16
  keyMask : W32
  /-- The core that holds the send end; the cores of the holders' receive ends, holder 0 being the receive end itself. A
  location of 4,096 or more is a peer device, 4,096 + its id (R270). -/
  sloc : Nat
  rlocs : Tab Nat
  sendCounter : W32
  accept : W32
  expected : W32
  final : W32
  /-- Holders that the closure marker has been forwarded to (R252). -/
  marked : List Nat
  discard : W32
  /-- Twins whose receive ends are away, with their counters: the Bandstand keeps them (R240, R251, R334). -/
  twinsAway : List (Nat × W32)
  /-- Deliver numbers of range 0 that are in use above its next deliver number, by messages queued when the stage was armed
  (R322). -/
  backlog : W32
  /-- Entries of the ring, oldest first. -/
  ring : List RingEntry
  /-- Index of the oldest entry, and of the next free one. -/
  ringHead : Nat
  ringTail : Nat
  ringFull : Bool
  /-- Physical address of the ring, and its virtual address in the domain's overflow area (R241). -/
  ringBase : Nat
  ringVa : Nat
  /-- Its pair or entry of the domain's memory-backed record area (R239). -/
  areaEntry : Option Nat
  /-- Ring writes that wait behind one that page-faulted, that one first (R246, R397): stamped or not, and the message. -/
  stuck : List (Bool × Msg)
deriving DecidableEq, Repr

/-! ## Engines (R226 to R234) -/

/-- The process a job was issued by (R227). -/
structure JobOwner where
  core : Nat
  ctx : Nat
  gang : Nat
deriving DecidableEq, Repr

structure Job where
  die : Nat
  /-- 0 copy, 1 gather, 2 collective; the engine charged. -/
  engine : Nat
  domain : BitVec 11
  /-- None for the job of a job node. -/
  owner : Option JobOwner
  /-- The node record's virtual address and its attempt, for a job node (R305). -/
  node : Option W64
  ticket : W64
  card : List Byte
  /-- Card window, source and destination capabilities; for a node, `window` is unused and `block` holds the job block's address. -/
  window : GReg
  src : GReg
  dst : GReg
  block : Nat
  /-- Begun; next unit to perform (R229). -/
  begun : Bool
  pos : Nat
  status : BitVec 8
  flags : Flags
  /-- Ended: its completion is to come. -/
  ended : Bool
  /-- Completed: it is counted once every earlier job of its process on its engine is (R230). -/
  completed : Bool
  cancelled : Bool
  /-- Issued while its domain was under a partial hold (R415). -/
  held : Bool
  /-- Posted operations that come before the JOB in program order (R197). -/
  after : List Nat
  /-- The card waits in the domain's chain area: the engine's on-die queue was full (R227). -/
  chained : Bool
deriving DecidableEq, Repr

/-! ## Gangs, graphs, stages (R22 to R37, R299 to R335) -/

structure Header where
  entry : W64
  widBase : W64
  seed : W64
  parterres : W64
  lstore : W64
  lstoreSize : Nat
  lcnBase : W32
  dlim : W32
  roles : Nat
  planned : Bool
  fuse : Bool
  ixtin : Bool
  stage : Bool
  widths : List Nat
  xlen : Nat
  caps : W64
  capCount : Nat
  saveCap : Nat
  quads : Nat
  allot : Nat
  stageAddr : W64
deriving DecidableEq, Repr

structure Gang where
  domain : BitVec 11
  die : Nat
  /-- Virtual address of the node record; none when no graph node launched it. -/
  node : Option W64
  h : Header
  /-- The number of the loaded image that its code belongs to: that of the gang first launched from it. -/
  image : Nat
  /-- Role to physical core (R28). -/
  bound : Tab Nat
  /-- Roles whose processes have exited. -/
  exited : List Nat
  /-- Roles whose C has issued HEXIT (R289). -/
  left : List Nat
  /-- Roles that have performed TRIG.done or made a normal exit (R306). -/
  doneBy : List Nat
  /-- Roles whose C issued HEXIT while the barrier now pending was pending, with the cycle (R289, R293). -/
  leavers : List (Nat × Nat)
  /-- Every arrival of the pending barrier is made, and its release is under way. -/
  releasing : Bool
  /-- First fault of the attempt; a cancellation reached it. -/
  fault : Option (BitVec 8)
  cancel : Bool
  /-- The halt tree has stopped it (R396); a debug stop is requested (R411). -/
  stopped : Bool
  stopReq : Bool
  /-- It stopped for a SPILLF or DUMPF event, and is held until that ends (R397, R423). -/
  eventStop : Nat
  /-- A pre-empt request is in force; the save has stopped the gang: 1 cooperative, 2 forced; it failed and waits (R402). -/
  preempt : Bool
  saving : Nat
  saveFailed : Bool
  /-- Cycle of the request. -/
  raised : Nat
  /-- A request that falls due during a partial hold (R415): none, pre-empt false, cancel true. -/
  dueReq : Option Bool
  /-- The buffer of a DUMP that is not complete (R423). -/
  dump : Option (W64 × W64)
deriving DecidableEq, Repr

/-- A node attempt that waits for its processes to go, for a retry (R308 to R311). -/
structure Retry where
  domain : BitVec 11
  node : W64
  waitFor : List W64
deriving DecidableEq, Repr

structure Graph where
  domain : BitVec 11
  records : W64
  count : Nat
  status : W64
  /-- Index and code of the first node to fault (R312). -/
  firstFault : Option (Nat × BitVec 8)
deriving DecidableEq, Repr

structure Ready where
  die : Nat
  prio : Nat
  domain : BitVec 11
  node : W64
deriving DecidableEq, Repr

structure Holder where
  index : Nat
  gang : Nat
  start : W32
deriving DecidableEq, Repr

structure Stage where
  gang : Nat
  domain : BitVec 11
  descriptor : List Byte
  record : Nat
  armed : Bool
  holders : List Holder
  /-- Operation in progress: 1 split, 2 merge; phase and holder. -/
  op : Nat
  phase : Nat
  who : Nat
  other : Nat
  splitKey : W32
  code : BitVec 8
  /-- Cycle at which the pause in progress was asked for. -/
  since : Nat
  /-- The core bound for a twin that does not live yet (R323). -/
  target : Option Nat
  /-- State region and transfer buffer as they were before an upcall (R329). -/
  snapshot : List Byte
deriving DecidableEq, Repr

structure Monitor where
  /-- The descriptor but for its count (R416). -/
  desc : W128
  samples : List Nat
  latest : Nat
  count : Nat
  /-- The stage and holder it is bound to (R322, R323). -/
  stage : Option (Nat × Nat)
  /-- It has fired, and its request is neither completed nor refused (R324). -/
  fired : Bool
deriving DecidableEq, Repr
def Monitor.init : Monitor := { desc := 0, samples := [], latest := 0, count := 0, stage := none, fired := false }

/-! ## The Lodge (R344 to R384) -/

structure Domain where
  live : Bool
  /-- Generation of the key in its slot (R345, R347). -/
  gen : Nat
  record : BitVec 1024
  secret : BitVec 384
  armed : Bool
  /-- 0 stopped, 1 running, 2 frozen (R418). -/
  traceState : Nat
  traceMode : BitVec 1
  traceBuf : W64
  traceLen : W64
  traceAt : W64
  traceLost : Nat
  /-- The dump buffer for fault exits (R421): address and length. -/
  dumpBuf : Option (W64 × W64)
  counters : Tab W64
  digests : List (BitVec 384)
  /-- Pages whose return has failed its check (R367). -/
  failedPages : List Nat
  /-- Roles under a partial hold (R415): gang and role. -/
  holds : List (Nat × Nat)
deriving DecidableEq, Repr
def Domain.init : Domain :=
  { live := false, gen := 0, record := 0, secret := 0, armed := false, traceState := 0, traceMode := 0, traceBuf := 0,
    traceLen := 0, traceAt := 0, traceLost := 0, dumpBuf := none, counters := [], digests := [], failedPages := [],
    holds := [] }
/-- The gangs of the domain are stopped for a failed page (R367). -/
def Domain.integrityStop (t : Domain) : Bool := !t.failedPages.isEmpty

structure Mc where
  cmd : BitVec 4
  busy : Bool
  fail : Bool
  spares : BitVec 8
  repaired : BitVec 8
  step : BitVec 4
  initialised : Bool
  enabled : Bool
  /-- Steps that failed once, and the step to repeat after lane repair (R381). -/
  retried : List Nat
  again : Nat
  windows : Tab (BitVec 256)
deriving DecidableEq, Repr
def Mc.init : Mc :=
  { cmd := 0, busy := false, fail := false, spares := 0, repaired := 0, step := 0, initialised := false, enabled := false,
    retried := [], again := 0,    windows := [] }

structure Port where
  cxl : Bool
  cmd : BitVec 4
  busy : Bool
  fail : Bool
  lanes : BitVec 8
  width : BitVec 2
  up : Bool
  /-- Code 1 has been written since the last code 15: the cxl bit keeps its value (R383). -/
  modeSet : Bool
  /-- The peer's device id and the device link secret that code 5 has established (R383). -/
  peer : Option (BitVec 12)
  secret : Option (BitVec 384)
deriving DecidableEq, Repr
def Port.init : Port :=
  { cxl := false, cmd := 0, busy := false, fail := false, lanes := 0, width := 0, up := false, modeSet := false, peer := none, secret := none }

/-- Boot step 1 to 8, READY, or a halt with its code (R372, R384). -/
inductive Boot where
  | step (n : Nat)
  | ready
  | halted (code : BitVec 8)
deriving DecidableEq, Repr

/-- A page sent to a host: its number as in `pages`, its bytes, and the ciphertext sent (R366). -/
structure AwayPage where
  page : Nat
  plain : List Byte
  data : List Byte
deriving DecidableEq, Repr

structure Lodge where
  boot : Boot
  chain : BitVec 384
  digests : List (BitVec 384)
  versions : List (BitVec 32)
  blob : Option Blob
  identity : BitVec 384
  deviceId : BitVec 12
  seed : BitVec 384
  owner : Option (BitVec 16 × BitVec 384)
  /-- A handover on its way: the dies whose Bandstands have not acknowledged it before a cycle, and the owner they still have (R278). -/
  acks : List (Nat × Nat × BitVec 16)
  /-- Nonces that stand open, and every nonce ever issued (R348). -/
  nonces : List (BitVec 384)
  issued : List (BitVec 384)
  drbg : Nat
  /-- Version of each page sent to a host: domain × 2^36 + virtual page (R366). -/
  pages : Tab W64
  away : List AwayPage
  /-- Pages whose eviction waits for the accesses already translated. -/
  evicting : List Nat
deriving DecidableEq, Repr
def Lodge.init : Lodge :=
  { boot := .step 1, chain := 0, digests := [], versions := [], blob := none, identity := 0, deviceId := 0, seed := 0,
    owner := none, acks := [], nonces := [], issued := [], drbg := 0, pages := [], away := [], evicting := [] }

/-! ## Fabric (R267 to R278, R368, R369) -/

inductive Mesi where | i | s | e | m
deriving DecidableEq, Repr

structure HostLine where
  agent : Nat
  host : BitVec 12
  line : Nat
  st : Mesi
  data : BitVec 512
  /-- Tags of the line's four granules (R208). -/
  tags : BitVec 4
  /-- The domain that accessed it last, under whose link secret its data go back (R343, R368). -/
  domain : BitVec 11
deriving DecidableEq, Repr

structure Snoop where
  agent : Nat
  host : BitVec 12
  line : Nat
  invalidate : Bool
deriving DecidableEq, Repr

/-- What a receiver keeps of one source under one link secret, none the device's (R368, R369): its generation; last accepted packet
numbers of the current and of the previous generation, none before the first; packets of the current generation received. -/
structure Link where
  source : BitVec 16
  domain : Option (BitVec 11)
  gen : Nat
  last : Option Nat
  lastPrev : Option Nat
  newCount : Nat
deriving DecidableEq, Repr

/-- What one of the device's own sources keeps under one link secret: its generation and the number of its next packet (R368). -/
structure Tx where
  source : BitVec 16
  domain : Option (BitVec 11)
  gen : Nat
  number : Nat
deriving DecidableEq, Repr

/-- What the device tells another device about ends and messages (R244, R247 to R253, R270). -/
inductive Notice where
  /-- A message: to its record, or to the core of its holder. -/
  | message (m : Msg)
  /-- The record's answer to a SEND: accepted, or the receive end is closed. -/
  | answer (record : Nat) (seq : W32) (accepted : Bool)
  /-- To the record: its message is refused, an inbox slot is free (R245). -/
  | refused (m : Msg)
  | slot (record : Nat)
  /-- Leave and arrival notices of an end; the acknowledgment of the first, the counter that answers the second. -/
  | leave (record : Nat) (recv : Bool) (gen : W16) (counter : W32)
  | left (record : Nat) (recv : Bool)
  | arrive (record : Nat) (recv : Bool)
  | counter (record : Nat) (recv : Bool) (counter : W32)
  /-- A closure marker of a send end, without its final sequence where only the record has it; the closing of a receive end, with the
  messages discarded here; and the count that answers that. -/
  | closure (record : Nat) (final : Option W32)
  | closed (record : Nat) (discarded : Nat)
  | discards (record : Nat) (count : W32)
deriving DecidableEq, Repr

/-- What the device has sent outside. -/
inductive Out where
  /-- A message on a protected link: the port it leaves through, its source, the secret, generation and packet number it is
  protected under (R368). -/
  | packet (port : Nat) (source : BitVec 16) (domain : Option (BitVec 11)) (gen number : Nat) (o : Out)
  | ack (source : BitVec 16) (tag : W64) (status : BitVec 8)
  | signal (host : BitVec 16) (domain : BitVec 11) (node result : W64)
  | hostReply (host : BitVec 16) (error : Bool) (data : List Byte)
  | peerReply (device : BitVec 12) (error : Bool) (data : List Byte)
  /-- Requests to a peer device: a write, a load, an atomic with what its result entry is kept by (R269, R394). -/
  | peerWrite (device : BitVec 12) (pa : Nat) (data : List Byte) (tag : Bool)
  | peerLoad (device : BitVec 12) (pa size : Nat)
  | peerAtomic (device : BitVec 12) (pa : Nat) (q : PeerAtomic)
  | peerNotice (device : BitVec 12) (n : Notice)
  | snoopData (host : BitVec 12) (line : Nat) (data : Option (BitVec 512))
  | writeBack (host : BitVec 12) (line : Nat) (data : BitVec 512)
  | backInvalidate (line : Nat)
  | lodge (host : BitVec 16) (ok : Bool) (data : List Byte)
  | integrity (host : BitVec 16) (domain : BitVec 11) (va : Nat)
  | page (host : BitVec 12) (domain : BitVec 11) (va : Nat) (version : W64) (data : List Byte) (mac : BitVec 384)
  | overflow (host : BitVec 16) (domain : BitVec 11) (n : BitVec 3)
  | debug (source : BitVec 16) (status : Nat) (data : List Byte)
  | cxlIo (host : BitVec 16) (ok : Bool) (data : BitVec 32)
  /-- The CXL unsupported-request status (R268). -/
  | unsupported (host : BitVec 16)
deriving DecidableEq, Repr

/-- A byte of a `.home` write before its engine point, as engines still see it (R196): its contents, tag and keys before, and the
bytes its line had lost (R365). -/
structure Late where
  core : Nat
  po : List Nat
  pa : Nat
  old : Byte
  oldTag : Bool
  oldSeal : Nat
  oldLine : Nat
  oldLost : List Nat
deriving DecidableEq, Repr

/-- What an off-core reference still has to do at its agent, in so after the context's earlier posted writes (R192). -/
inductive Call where
  /-- GPOST: destination, node, count (R316). -/
  | gpost (d : BitVec 6) (node count : Nat)
  /-- GLAUNCH: destination, records, count, status block (R315). -/
  | glaunch (d : BitVec 6) (records count status : Nat)
  | gcancel (qd : BitVec 3) (node : Nat)
  | gstat (d : BitVec 6) (sel node : Nat)
  /-- SCALL: destination, service, buffer address and its bytes (R359). -/
  | scall (d : BitVec 6) (service : Nat) (addr avail : Nat)
deriving DecidableEq, Repr

/-- A region of a job: in the issuer's local store or in global memory. -/
structure Region where
  isLocal : Bool
  a : Nat
  n : Nat
  write : Bool
deriving DecidableEq, Repr

/-- What a RED that has not performed can happen before (R203): a context's next event, a byte's last write, the next atomic event at
a byte, a message, a job, the later jobs that conflict with a region of one that has ended (R197), a graph node's dispatch. -/
inductive Who where
  | ctx (core k : Nat)
  | byte (p : Place)
  | atom (p : Place)
  | msg (record : Nat) (seq : W32)
  | job (id : Nat)
  | region (die : Nat) (d : BitVec 11) (core : Option Nat) (r : Region)
  | node (d : BitVec 11) (va : Nat)
deriving DecidableEq, Repr

/-- The reply of an off-core reference under way (R25): what lands in the context when it arrives. `arrive` is the record
and the end of an arrival notice (R249): the end's counter comes with it, and the context does not wait. -/
structure Reply where
  id : Nat
  arrive : Option (Nat × Bool)
  call : Option Call
  /-- Posted operations that come before it in program order (R192). -/
  after : List Nat
  core : Nat
  ctx : Nat
  res : List Result
  set : BitVec 2
  hits : List Nat
  va : Nat
  ip : W64
deriving DecidableEq, Repr

/-- Watch matches of a word that trapped, with the word's address (R412), as type-3 trace records. -/
structure PendHit where
  domain : BitVec 11
  lcn : W32
  ctx : Nat
  ip : W64
  recs : List (List Byte)
deriving DecidableEq, Repr

/-- An end of another device's record that left this device: what its leave notice said (R248, R249). -/
structure FarEnd where
  device : BitVec 12
  record : Nat
  recv : Bool
  gen : W16
  counter : W32
deriving DecidableEq, Repr

/-- A result entry (R394): agent, domain, `lcn`, context, and the last operation performed. -/
structure KioskResult where
  agent : Nat
  domain : BitVec 11
  lcn : W32
  ctx : Nat
  seq : W16
  result : W64
  flags : Flags
deriving DecidableEq, Repr

/-- What the Bandstands and the barrier network keep of a gang whose processes are saved (R291, R306, R334), by record
number: the gangs of the node (one, or one for each holder of its stage), the arrivals that stopped contexts keep (cycle, kind,
flags), the acknowledgments the saved messages still owe in send-queue order and whether each is out on a link already, the
processes that have performed TRIG.start, deferred reports not yet taken (R395), the agents of the operations in saved latches,
and the ends that are away. -/
structure Saved where
  gangs : List (Nat × Gang)
  arrivals : List (Nat × Nat × Bool × Flags)
  acks : List (Nat × AckTo × Bool)
  queued : List (BitVec 12 × Nat)
  places : List (Nat × Nat × Place × Nat)
  events : List (Nat × List (BitVec 8 × W64))
  started : List Nat
  deferred : List (Nat × Nat × BitVec 8 × W64)
  ends : List W128
  stage : Option Stage
deriving DecidableEq, Repr

structure State where
  -- the model's own scheduling
  inputs : List Instr
  calendar : List (Nat × Instr)
  due : List Instr
  todo : List Nat
  core : Nat
  ir : BitVec 96
  irIxtin : Bool
  fresh : Nat
  ids : Nat
  out : List Out
  /-- Messages whose port is not up in a mode that carries them, with the port, oldest first (R267, R270). -/
  waiting : List (Nat × Out)
  -- the package
  cyc : Nat
  cores : Tab Core
  arbors : Tab Arbor
  mem : Memory
  late : List Late
  /-- REDs under way with what they happen before (R203). -/
  past : List (Nat × Who)
  domains : Tab Domain
  lodge : Lodge
  mcs : Tab Mc
  ports : Tab Port
  -- agents
  records : Tab ChanRec
  farEnds : List FarEnd
  syncs : List SyncWait
  results : List KioskResult
  replies : List Reply
  jobs : Tab Job
  gangs : Tab Gang
  graphs : List Graph
  ready : List Ready
  retries : List Retry
  /-- EARLY nodes whose last process has exited (R336). -/
  keptExits : List (BitVec 11 × W64)
  stages : Tab Stage
  monitors : Tab Monitor
  saved : List Saved
  hits : List PendHit
  -- fabric
  hostLines : List HostLine
  /-- Tags of granules of host lines that no agent holds (R208). -/
  hostTags : List (BitVec 12 × Nat × BitVec 4)
  snoops : List Snoop
  /-- Ranges that the owner exposes to CXL.mem (R268, R274). -/
  exposed : List HdmRange
  /-- Lines of exposed ranges that a host holds, with the range's domain (R274); back-invalidates under way; peer requests that wait for one. -/
  hostHeld : List (Nat × BitVec 11)
  backInv : List Nat
  peerWaiting : List PeerReq
  links : List Link
  txs : List Tx
  integrity : Nat
deriving DecidableEq, Repr

/-- The package right after a package reset (R372): nothing is live, no core belongs to a domain. -/
def State.reset : State :=
  { inputs := [], calendar := [], due := [], todo := [], core := 0, ir := 0, irIxtin := false, fresh := 0, ids := 0,
    out := [], waiting := [], cyc := 0, cores := [], arbors := [], mem := Memory.empty, late := [], past := [], domains := [],
    lodge := Lodge.init, mcs := [], ports := [], records := [], farEnds := [], syncs := [], results := [], replies := [], jobs := [],
    gangs := [], graphs := [], ready := [], retries := [], keptExits := [], stages := [], monitors := [], saved := [], hits := [],
    hostLines := [], hostTags := [], snoops := [], exposed := [], hostHeld := [], backInv := [], peerWaiting := [], links := [], txs := [], integrity := 0 }

end Sys2Proof.Machine
end

