-- ==== Sys2Proof/Machine/Ops.lean ====
section
/-! DEFINITION. The named operations over cores, contexts and registers: reading and writing them, results that land
later (R54 to R58), the ring of R25, events of S (R283), taking a trap and returning from one (R386 to R391, R406),
and the issue of a word (R49 to R55, R67 steps 6 to 8), which every instruction meaning goes through. -/

namespace Sys2Proof.Machine

/-! ## Cores and contexts -/

def State.coreAt (s : State) (n : Nat) : Core := Tab.get Core.init s.cores n
def State.setCore (s : State) (n : Nat) (c : Core) : State := { s with cores := Tab.put s.cores n c }
def State.updCore (s : State) (n : Nat) (f : Core → Core) : State := s.setCore n (f (s.coreAt n))

def Core.ctx (c : Core) (k : Nat) : Ctx := Tab.get Ctx.init c.ctxs k
def Core.setCtx (c : Core) (k : Nat) (x : Ctx) : Core := { c with ctxs := Tab.put c.ctxs k x }
def Core.updCtx (c : Core) (k : Nat) (f : Ctx → Ctx) : Core := c.setCtx k (f (c.ctx k))
def State.ctxAt (s : State) (n k : Nat) : Ctx := (s.coreAt n).ctx k
def State.updCtx (s : State) (n k : Nat) (f : Ctx → Ctx) : State := s.updCore n fun c => c.updCtx k f

/-- The acting core and its running context. -/
def State.me (s : State) : Core := s.coreAt s.core
def State.k (s : State) : Nat := s.me.cur.getD 0
def State.cx (s : State) : Ctx := s.me.ctx s.k
def State.updMe (s : State) (f : Core → Core) : State := s.updCore s.core f
def State.updCx (s : State) (f : Ctx → Ctx) : State := s.updCtx s.core s.k f
def State.updProc (s : State) (n : Nat) (f : Proc → Proc) : State := s.updCore n fun c => { c with proc := f c.proc }
def State.gangAt (s : State) (g : Nat) : Option Gang := Tab.find s.gangs g
def State.myGang (s : State) : Option Gang := s.gangAt s.me.proc.gang
def State.updGang (s : State) (g : Nat) (f : Gang → Gang) : State :=
  match s.gangAt g with
  | some x => { s with gangs := Tab.put s.gangs g (f x) }
  | none => s

/-- The domain number of a core (R41, R344). -/
def Core.dom (c : Core) : BitVec 11 := c.owner.extractLsb' 0 11
def State.domainAt (s : State) (d : BitVec 11) : Domain := Tab.get Domain.init s.domains d.toNat
def State.updDomain (s : State) (d : BitVec 11) (f : Domain → Domain) : State :=
  { s with domains := Tab.put s.domains d.toNat (f (s.domainAt d)) }
def State.arborAt (s : State) (a : Nat) : Arbor := Tab.get Arbor.init s.arbors a
def State.updArbor (s : State) (a : Nat) (f : Arbor → Arbor) : State := { s with arbors := Tab.put s.arbors a (f (s.arborAt a)) }

/-- Places of a core (R13). -/
def dieOf (n : Nat) : Nat := n / 1024
def parterreOf (n : Nat) : Nat := n / 64
def arborOf (n : Nat) : Nat := n / 4
def posOf (n : Nat) : Nat := n % 4

/-! ## Program order and happens-before of posted operations (R190 to R194, R203) -/

/-- Posted operations of a core that come before the next event of context `k` in program order and have not performed. -/
def Core.poIds (c : Core) (k : Nat) : List Nat :=
  (c.storeq.filter fun o => o.po.contains k && !o.performed).map fun o => o.id
/-- Those that have not been acknowledged, performed or not (R273). -/
def Core.poOpen (c : Core) (k : Nat) : List Nat := (c.storeq.filter fun o => o.po.contains k).map fun o => o.id
/-- Those that `k` issued or was joined to come before events of context `j` from now on. -/
def joined (k j : Nat) (po : List Nat) : List Nat := if po.contains k && !po.contains j then po ++ [j] else po

def State.pastOf (s : State) (w : Who) : List Nat := (s.past.filter fun p => p.2 == w).map fun p => p.1
/-- Every RED that happens before `a` happens before `b`. -/
def State.flow (s : State) (a b : Who) : State :=
  match s.pastOf a with
  | [] => s
  | l => { s with past := s.past ++ ((l.filter fun r => !s.past.contains (r, b)).map fun r => (r, b)) }
/-- What happens before `w` is now exactly these REDs. -/
def State.setPast (s : State) (w : Who) (l : List Nat) : State :=
  if s.past.isEmpty && l.isEmpty then s
  else { s with past := (s.past.filter fun p => p.2 != w) ++ l.map fun r => (r, w) }
/-- A RED has performed. -/
def State.forgetRed (s : State) (id : Nat) : State := { s with past := s.past.filter fun p => p.1 != id }

/-- Program order runs from what context `k` of core `n` has issued to the next event of context `j` (R190). -/
def State.joinPo (s : State) (n k j : Nat) : State :=
  let t := s.updCore n fun c => { c with storeq := c.storeq.map fun o => { o with po := joined k j o.po } }
  ({ t with late := t.late.map fun l => if l.core = n then { l with po := joined k j l.po } else l } : State).flow (.ctx n k) (.ctx n j)

/-! ## Registers (R39) -/

def Ctx.gReg (x : Ctx) (n : BitVec 6) : GReg := Tab.get GReg.zero x.g n.toNat
def Ctx.setG (x : Ctx) (n : BitVec 6) (v : GReg) : Ctx := { x with g := Tab.put x.g n.toNat v }
/-- q0 reads as true. -/
def Ctx.pred (x : Ctx) (n : BitVec 3) : Bool := if n = 0 then true else x.q.getLsbD n.toNat
/-- A write to q0 is ignored (R123). -/
def Ctx.setQ (x : Ctx) (n : BitVec 3) (b : Bool) : Ctx :=
  if n = 0 then x
  else { x with q := if b then x.q ||| (1#8 <<< n.toNat) else x.q &&& ~~~(1#8 <<< n.toNat) }
/-- m0 reads as all ones, and writes to it are ignored. -/
def Ctx.mask (x : Ctx) (n : BitVec 3) : W32 := if n = 0 then BitVec.allOnes 32 else Tab.get 0 x.m n.toNat
def Ctx.setM (x : Ctx) (n : BitVec 3) (v : W32) : Ctx := if n = 0 then x else { x with m := Tab.put x.m n.toNat v }
/-- ReadG (R120). -/
def Ctx.readG (x : Ctx) (n : BitVec 6) : W64 := (x.gReg n).bits.setWidth 64
/-- `allot` (R151). -/
def Ctx.allot (x : Ctx) : Nat := 8 * x.blocks.length
/-- The physical register of w number e < allot: list position e/8 (R151). -/
def Ctx.phys (x : Ctx) (e : Nat) : Nat := 8 * ((x.blocks[e / 8]?).getD 0) + e % 8
def Core.wReg (c : Core) (p : Nat) : WReg := Tab.get 0 c.w p

/-! ## Capabilities (R236, R350 to R352) -/

def capKind (b : W128) : Nat := bits b 127 125
def capR (b : W128) : Bool := b.getLsbD 124
def capW (b : W128) : Bool := b.getLsbD 123
def capX (b : W128) : Bool := b.getLsbD 122
def capLC (b : W128) : Bool := b.getLsbD 121
def capSC (b : W128) : Bool := b.getLsbD 120
def capMul (b : W128) : Nat :=
  match bits b 85 84 with
  | 0 => 1
  | 1 => 64
  | 2 => 4096
  | _ => 262144
def capBase (b : W128) : Nat := 16 * bits b 83 40
def capLength (b : W128) : Nat := bits b 119 86 * capMul b
def capCursor (b : W128) : Nat := bits b 39 0
/-- Live end: tagged, kind 3 (R237). -/
def GReg.isEnd (r : GReg) : Bool := r.tag && capKind r.bits == 3

/-! ## Causes (R386) -/

structure Trap where
  cause : BitVec 8
  val : W64
deriving DecidableEq, Repr

def cILLEGAL : BitVec 8 := 0x01
def cALLOT : BitVec 8 := 0x02
def cCAPBND : BitVec 8 := 0x03
def cCAPPERM : BitVec 8 := 0x04
def cCAPTAG : BitVec 8 := 0x05
def cENDLEAK : BitVec 8 := 0x06
def cENDDOM : BitVec 8 := 0x07
def cENDSPLIT : BitVec 8 := 0x08
def cPFAULT : BitVec 8 := 0x09
def cPROT : BitVec 8 := 0x0A
def cINTEG : BitVec 8 := 0x0B
def cSPILLF : BitVec 8 := 0x0C
def cGANGMIS : BitVec 8 := 0x0D
def cXPLAN : BitVec 8 := 0x0E
def cPHASE : BitVec 8 := 0x0F
def cWDOG : BitVec 8 := 0x10
def cPREEMPT : BitVec 8 := 0x11
def cALIGN : BitVec 8 := 0x12
def cTRANSREF : BitVec 8 := 0x13
def cSAVEF : BitVec 8 := 0x14
def cDUMPF : BitVec 8 := 0x15
def cSTAGEF : BitVec 8 := 0x16

/-! ## Free values and scheduling -/

/-- Take one draw of the machine's counter of free values. -/
def State.draw (s : State) : Nat × State := (s.fresh, { s with fresh := s.fresh + 1 })
/-- Take one identity. -/
def State.newId (s : State) : Nat × State := (s.ids, { s with ids := s.ids + 1 })
/-- An event that happens now, after what is due already. -/
def State.now (s : State) (i : Instr) : State := { s with due := s.due ++ [i] }
/-- An event at a cycle. -/
def State.atCycle (s : State) (t : Nat) (i : Instr) : State := { s with calendar := (t, i) :: s.calendar }
/-- An event whose time the spec only bounds: at least one cycle later (notes/assumptions/10.md). -/
def State.later (s : State) (i : Instr) : State :=
  { s with calendar := (s.cyc + 1 + Config.freeDelay s.fresh, i) :: s.calendar, fresh := s.fresh + 1 }
/-- An event whose time the spec bounds by `n` cycles from now (R3, R45). -/
def State.within (s : State) (n : Nat) (i : Instr) : State :=
  { s with calendar := (s.cyc + 1 + Config.freeDelay s.fresh % n, i) :: s.calendar, fresh := s.fresh + 1 }
def State.send (s : State) (o : Out) : State := { s with out := o :: s.out }

/-- The port that leads to a host, and to a peer device; ports 0 to 8 are on I/O die 0 (R267, R382). -/
def hostPort (host : BitVec 12) : Nat := Config.hostPort host % 18
def devicePort (device : BitVec 12) : Nat := Config.devicePort device % 18
/-- The next packet of a source: before the number reaches 2^40 the Lodge moves it to the next generation (R368). -/
def Tx.next (x : Tx) : Tx := if x.number + 1 = 2 ^ 40 then { x with gen := x.gen + 1, number := 0 } else { x with number := x.number + 1 }
def State.tx (s : State) (source : BitVec 16) (d : Option (BitVec 11)) : Tx :=
  (s.txs.find? fun x => x.source == source && x.domain == d).getD { source := source, domain := d, gen := 0, number := 0 }
def State.putTx (s : State) (x : Tx) : State := { s with txs := x :: s.txs.filter fun y => !(y.source == x.source && y.domain == x.domain) }
/-- What a port carries in CXL mode, and what natively (R267): replies to hosts, posts' acknowledgments and signals in either. -/
def Out.carriedBy (cxl : Bool) : Out → Bool
  | .packet _ _ _ _ _ o => o.carriedBy cxl
  | .ack .. | .signal .. | .hostReply .. => true
  | .snoopData .. | .writeBack .. | .backInvalidate .. | .cxlIo .. | .unsupported .. => cxl
  | .peerReply .. | .peerWrite .. | .peerLoad .. | .peerAtomic .. | .peerNotice .. | .lodge .. | .integrity .. | .page .. | .overflow ..
  | .debug .. => !cxl
def Port.carries (p : Port) (o : Out) : Bool := p.up && o.carriedBy p.cxl
/-- A message leaves through a port, once that is up in a mode that carries it (R267, R270). -/
def State.emit (s : State) (port : Nat) (o : Out) : State :=
  if (Tab.get Port.init s.ports port).carries o then s.send o else { s with waiting := s.waiting ++ [(port, o)] }
/-- The source id of an agent of this device: the compute dies are 0 to 3, the I/O dies 4 and 5 (R368). -/
def State.sourceOf (s : State) (agent : Nat) : BitVec 16 := (s.lodge.deviceId.setWidth 16 <<< 4) + BitVec.ofNat 16 (agent % 16)
/-- A message of an agent leaves through a port, protected under a domain's link secret or the device's (R368,
notes/assumptions/40.md). -/
def State.departAs (s : State) (agent port : Nat) (d : Option (BitVec 11)) (o : Out) : State :=
  let x := s.tx (s.sourceOf agent) d
  (s.putTx x.next).emit port (.packet port x.source d x.gen x.number o)
/-- A message that a port's I/O die sends. -/
def State.depart (s : State) (port : Nat) (d : Option (BitVec 11)) (o : Out) : State := s.departAs (4 + port / 9) port d o
def State.toHost (s : State) (host : BitVec 16) (d : Option (BitVec 11)) (o : Out) : State := s.depart (hostPort (host.setWidth 12)) d o
/-- A reply to a host that carries nothing of a domain. -/
def State.emitTo (s : State) (host : BitVec 16) (o : Out) : State := s.emit (hostPort (host.setWidth 12)) o
/-- A port is up in a mode (R267). -/
def State.linkUp (s : State) (port : Nat) (cxl : Bool) : Bool :=
  let p := Tab.get Port.init s.ports port
  p.up && p.cxl == cxl
/-- A peer device can be reached (R270). -/
def State.reachable (s : State) (device : BitVec 12) : Bool := s.linkUp (devicePort device) false

/-! ## Results that land later -/

/-- A fixed-latency result (R56): seen by words that issue `lat` cycles later. -/
def State.landAfter (s : State) (lat : Nat) (r : Result) (fl : Flags) : State :=
  let l : Landing := { due := s.cyc + lat, issued := s.cyc, ctx := s.k, res := r, flags := fl, sb := none, late := false }
  s.updMe fun c => { c with land := c.land ++ [l] }
/-- A variable-latency result of the running context, counted in `set` (R54, R57). -/
def State.landLate (s : State) (set : BitVec 2) (r : Result) : State :=
  let t := s.cyc + 1 + Config.freeDelay s.fresh
  let l : Landing := { due := t, issued := s.cyc, ctx := s.k, res := r, flags := 0, sb := some set, late := true }
  ({ s with fresh := s.fresh + 1 } : State).updMe fun c => { c with land := c.land ++ [l] }

def Ctx.sbAt (x : Ctx) (j : BitVec 2) : Nat := Tab.get 0 x.sb j.toNat
def Ctx.sbUp (x : Ctx) (j : BitVec 2) : Ctx := { x with sb := Tab.put x.sb j.toNat (x.sbAt j + 1) }
def Ctx.sbDown (x : Ctx) (j : BitVec 2) : Ctx := { x with sb := Tab.put x.sb j.toNat (x.sbAt j - 1) }

/-- Lanes of a w register replaced where the lane mask is set. -/
def laneMerge (mask : W32) (old new : WReg) : WReg :=
  (List.range 32).foldl (fun acc i =>
    if mask.getLsbD i then
      (acc &&& ~~~(BitVec.ofNat 1024 (0xFFFFFFFF * 2 ^ (32 * i)))) ||| (new &&& BitVec.ofNat 1024 (0xFFFFFFFF * 2 ^ (32 * i)))
    else acc) old

/-- The focus of a core (R389): its lowest parked context. -/
def Core.focus (c : Core) : Option Nat := ((List.range 12).drop 1).find? fun k => (c.ctx k).run == .parked

/-- `tcause`, `tval` or `tip` of a record, by s-space number (R389). -/
def TrapRec.write (r : TrapRec) (n : Nat) (v : W64) : TrapRec :=
  if n = 0x00D then { r with cause := v.setWidth 8 } else if n = 0x00E then { r with val := v } else { r with ip := v }
def TrapRec.read (r : TrapRec) (n : Nat) : W64 :=
  if n = 0x00D then r.cause.setWidth 64 else if n = 0x00E then r.val else r.ip

/-- WRS of a special register by its number, when it lands (R6, R41, R283, R389). `k` is the writing context. -/
def Core.landS (c : Core) (k : Nat) (n : BitVec 9) (v : W64) : Core :=
  let n := n.toNat
  if n = 0x004 then c.updCtx k fun x => { x with fflags := v.setWidth 5 }
  else if n = 0x006 then
    if bits v 2 0 ≤ 5 then c.updCtx k fun x => { x with rmode := v.setWidth 3 } else c
  else if n = 0x008 then { c with proc := { c.proc with srctr := v } }
  else if n = 0x00C then { c with wdog := if (v.setWidth 32).toNat < 1024 then 1024 else v.setWidth 32 }
  else if n = 0x00D ∨ n = 0x00E ∨ n = 0x00F then
    match c.focus with
    | none => c
    | some f => c.updCtx f fun x => { x with trap := x.trap.write n v }
  else if n = 0x012 then { c with evs := c.evs &&& ~~~(v.setWidth 32) }
  else if 0x020 ≤ n ∧ n ≤ 0x027 then { c with hc := Tab.put c.hc (n - 0x020) (v.setWidth 48) }
  else if 0x028 ≤ n ∧ n ≤ 0x02B then { c with wa := Tab.put c.wa (n - 0x028) (v.setWidth 48) }
  else if 0x02C ≤ n ∧ n ≤ 0x02F then { c with wm := Tab.put c.wm (n - 0x02C) (v.setWidth 48) }
  else c

/-- One result lands. -/
def Core.landOne (c : Core) (l : Landing) : Core :=
  let c := match l.res with
    | .g n v => c.updCtx l.ctx fun x => x.setG n v
    | .q n b => c.updCtx l.ctx fun x => x.setQ n b
    | .m n mask v => c.updCtx l.ctx fun x => x.setM n ((x.mask n &&& ~~~mask) ||| (v &&& mask))
    | .w p lanes v => { c with w := Tab.put c.w p (laneMerge lanes (c.wReg p) v) }
    | .s n v => c.landS l.ctx n v
    | .none => c
  c.updCtx l.ctx fun x =>
    let x := { x with fflags := x.fflags ||| l.flags }
    match l.sb with
    | some j => x.sbDown j
    | none => x

def Result.isS : Result → Bool
  | .s _ _ => true
  | .g .. | .q .. | .m .. | .w .. | .none => false

/-- Results in program order: by the issue of their words, and as they came where one word has several (R56). -/
def Landing.after (l : Landing) : List Landing → List Landing
  | [] => [l]
  | x :: r => if l.issued < x.issued then l :: x :: r else x :: l.after r
def inOrder (ls : List Landing) : List Landing := ls.foldl (fun a l => l.after a) []

/-- Everything due lands, writes of special registers first (R114), then in program order (R56). -/
def Core.landDue (c : Core) (cyc : Nat) : Core :=
  match c.land with
  | [] => c
  | _ :: _ =>
    let due := c.land.filter fun l => decide (l.due ≤ cyc)
    let c' := { c with land := c.land.filter fun l => !decide (l.due ≤ cyc) }
    let c' := (due.filter fun l => l.res.isS).foldl Core.landOne c'
    (inOrder (due.filter fun l => !l.res.isS)).foldl Core.landOne c'

/-! ## The ring (R25, R26) -/

/-- A context that can issue when its turn comes. -/
def Core.isReady (c : Core) (k : Nat) : Bool :=
  (c.ctx k).run == .ready && (k == 0 || (c.proc.halted.isNone && !c.proc.held))

/-- The next ready ring context after `k`, `k` itself last. -/
def Core.ringNext (c : Core) (k : Nat) : Option Nat :=
  ((List.range 11).map fun i => (k + i) % 11 + 1).find? fun j => c.isReady j

/-- Who runs next: S first, then the ring after the ring context that last ran (R25). -/
def Core.pick (c : Core) : Option Nat := if c.isReady 0 then some 0 else c.ringNext c.ring

/-- A context switch (R370 code 0x09 counts it). -/
def Core.runNext (c : Core) : Core :=
  match c.pick with
  | none => { c with cur := none }
  | some k => { c with cur := some k, ring := if k = 0 then c.ring else k }

/-! ## Counters (R370) -/

def Core.countEvent (dom : Domain) (code : Nat) (by_ : Nat) (c : Core) : Core :=
  if dom.record.toNat / 2 ^ 512 % 2 ^ 64 = 0 then c
  else
    (List.range 8).foldl (fun c n =>
      if dom.record.toNat / 2 ^ (512 + 8 * n) % 256 = code then
        { c with hc := Tab.put c.hc n (Tab.get 0 c.hc n + BitVec.ofNat 48 by_) }
      else c) c
/-- The counters of a core that wrap when an event is counted (R370). -/
def Core.wraps (dom : Domain) (code : Nat) (c : Core) : List Nat :=
  if dom.record.toNat / 2 ^ 512 % 2 ^ 64 = 0 then []
  else (List.range 8).filter fun n =>
    decide (dom.record.toNat / 2 ^ (512 + 8 * n) % 256 = code) && Tab.get 0 c.hc n == BitVec.allOnes 48
/-- One event at a core: its counters rise, and a wrap raises HARDWARE_COUNTER_WRAP. -/
def State.count (s : State) (n code : Nat) : State :=
  let c := s.coreAt n
  if c.owner.getLsbD 63 then
    let d := s.domainAt c.dom
    if d.record = 0 then s
    else
      (c.wraps d code).foldl (fun s j => s.now (.hardwareCounterWrap n (BitVec.ofNat 3 j)))
        (s.setCore n (c.countEvent d code 1))
  else s

/-- The core passes to the next ready context. -/
def State.switch (s : State) (n : Nat) : State :=
  let s' := s.updCore n Core.runNext
  if (s'.coreAt n).cur = (s.coreAt n).cur then s' else s'.count n 9

/-! ## Code addresses -/

/-- The format of the section that has a virtual address, for a gang of a header (R69): a page belongs to one section (R92), the
section of the entry has the header's format, and any other the format of its kind in the image (notes/assumptions/4.md). -/
def Header.ixtinAt (h : Header) (image va : Nat) : Bool :=
  if va / 65536 = h.entry.toNat / 65536 then h.ixtin else (Jas.codeIxtin (Config.imageAt image (va / 65536)) va).getD h.ixtin
/-- Whether the word at a virtual address is an Ixtin word. -/
def State.isIxtin (s : State) (n : Nat) (va : Nat) : Bool :=
  match s.gangAt (s.coreAt n).proc.gang with
  | some g => g.h.ixtinAt g.image va
  | none => false
def State.wordBytes (s : State) (n : Nat) (va : Nat) : Nat := if s.isIxtin n va then 8 else 12
/-- The address of the word after the one at `pc` (R126). -/
def State.nextPc (s : State) (n : Nat) (pc : W64) : W64 := pc + BitVec.ofNat 64 (s.wordBytes n pc.toNat)

/-! ## Events of S (R283, R284, R390) -/

/-- A context's wait ends: its word is done and it is ready at the next one. -/
def State.goNext (s : State) (n k : Nat) : State :=
  s.updCtx n k fun x =>
    match x.run with
    | .waiting _ => { x with run := .ready, pc := s.nextPc n x.pc }
    | .dead | .ready | .parked | .stopped => x

/-- The event word of WAITEV (R284). -/
def Core.eventWord (c : Core) (k : Nat) : W64 :=
  if k = 0 then c.evs.setWidth 64 else if c.proc.prq = 0 then 0 else 1

def evRETRY : W32 := 0x2000
def evPREEMPT : W32 := 0x4000
def evSTAGE : W32 := 0x8000

/-- The result of WAITEV in context `k`: it lands at cycle `t` or at the next, freely (R58, notes/assumptions/82.md). -/
def State.landEvent (s : State) (n k t : Nat) (d : BitVec 6) (set : BitVec 2) (w : W64) : State :=
  let due := if Config.freeBit s.fresh then t else t + 1
  let l : Landing := { due := due, issued := s.cyc, ctx := k, res := .g d (GReg.data w), flags := 0, sb := some set, late := true }
  ({ s with fresh := s.fresh + 1 } : State).updCore n fun c => if due ≤ s.cyc then c.landOne l else { c with land := c.land ++ [l] }

/-- The test of a WAITEV is made again (R284); S starts when an event is first pending (R390). Whether STAGE alone starts an S that
has issued nothing is a free choice: R283 and R390 say so, and the run of R340 excludes it (notes/assumptions/14.md). -/
def State.wakeOne (s : State) (n k : Nat) : State :=
  match (s.ctxAt n k).run with
  | .waiting (.event mask d set) =>
    let w := (s.coreAt n).eventWord k
    if w &&& mask = 0 then s
    else (s.landEvent n k s.cyc d set w).goNext n k
  | .waiting .start =>
    if (s.coreAt n).evs = 0 then s
    else if (s.coreAt n).evs = evSTAGE then
      let t : State := { s with fresh := s.fresh + 1 }
      if Config.freeBit s.fresh then t.updCtx n k fun x => { x with run := .ready } else t
    else s.updCtx n k fun x => { x with run := .ready }
  | _ => s
def State.wakeEvents (s : State) (n : Nat) : State := (List.range 12).foldl (fun s k => s.wakeOne n k) s

/-- Bits of `evs` are set (R283). -/
def State.raise (s : State) (n : Nat) (ev : W32) : State :=
  (s.updCore n fun c => { c with evs := c.evs ||| ev }).wakeEvents n

/-! ## Taking a trap (R386 to R391, R329) -/

/-- A result that brings a live end. -/
def Result.bringsEnd : Result → Bool
  | .g _ v => v.isEnd
  | .q .. | .m .. | .w .. | .s .. | .none => false
/-- A reply that brings a live end, which must be closed when its context is gone (R254). -/
def Reply.carries (r : Reply) : Bool :=
  r.arrive.isSome || r.res.any Result.bringsEnd

/-- The context stops at once and for good. -/
def Ctx.halted (x : Ctx) : Ctx := if x.run = .dead ∨ x.run = .parked then x else { x with run := .stopped }
/-- A fault exit begins (R391): every context stops at once, pending results are discarded but for live ends, which are to be
closed (R254), and PROCESS_EXIT carries out the rest. Queued wide instructions have passed core issue and complete (R145). -/
def State.faultExit (s : State) (n : Nat) (cause : BitVec 8) : State :=
  let s1 := s.updCore n fun c =>
    { c with
      land := c.land.filter fun l => l.res.bringsEnd
      cur := none
      ctxs := c.ctxs.map fun p => (p.1, p.2.halted)
      proc := { c.proc with faultExit := some (c.proc.faultExit.getD cause) } }
  ({ s1 with
     replies := s1.replies.filter fun r => !(r.core == n) || r.carries
     syncs := s1.syncs.filter fun w => !(w.core == n) }).now (.processExit n)

/-- Parking (R388, R389): the trap record, the PARK bit and RETRY, and the next ready context. Program order runs on to the
handler (R190). -/
def State.park (s : State) (n k : Nat) (t : Trap) (ip : W64) : State :=
  let s1 := (s.joinPo n k 0).updCtx n k fun x => { x with run := .parked, trap := { cause := t.cause, val := t.val, ip := ip }, pc := ip, branch := none }
  let ev : W32 := (1#32 <<< k) ||| (if (s1.ctxAt n k).latch.valid then evRETRY else 0)
  let s2 := s1.raise n ev
  if (s2.coreAt n).cur = some k then s2.switch n else s2

/-- A ready context parks with its oldest pending gang-level event before it issues (R397). -/
def State.takeEvent (s : State) (n k : Nat) : State :=
  match (s.ctxAt n k).run, (s.ctxAt n k).gangEvents with
  | .ready, e :: r => (s.updCtx n k fun x => { x with gangEvents := r }).park n k { cause := e.1, val := e.2 } (s.ctxAt n k).pc
  | _, _ => s
/-- A context's word is done: it is ready at the next one, or parks there with an event that waits for it (R397). -/
def State.resume (s : State) (n k : Nat) : State := (s.goNext n k).takeEvent n k
/-- The one operation that takes a trap: context `k` of core `n` at the word at `ip`. A trap of S is a fault exit
(R391); a trap of C in a stage upcall is STAGEF with code 0x100 + its cause (R329); every other trap parks. -/
def State.takeTrap (s : State) (n k : Nat) (t : Trap) (ip : W64) : State :=
  if k = 0 then s.faultExit n t.cause
  else if k = 1 ∧ (s.coreAt n).upcall.isSome then
    let code : BitVec 16 := if t.cause = cSTAGEF then t.val.setWidth 16 else 0x100 + t.cause.setWidth 16
    (s.updCtx n k fun x => { x with run := .stopped }).now (.stagef n code ip)
  else s.park n k t ip

/-! ## The issue of a word -/

/-- What an instruction's own checks and effect answer. -/
inductive Eff where
  /-- The effect is complete; the next word follows. -/
  | done (s : State)
  /-- A taken branch. -/
  | jump (s : State) (pc : W64)
  /-- The trap of the instruction's own rule; the word takes no effect. -/
  | trap (cause : BitVec 8) (val : W64)
  /-- As `trap`, with the marks the trapping word leaves: the retry latch (R392), a pending watch hit (R412). -/
  | trapIn (s : State) (cause : BitVec 8) (val : W64)
  /-- The word does not issue in this cycle; no switch. -/
  | hold
  /-- The context waits at this word and the core switches (R25). -/
  | wait (w : Wait) (s : State)
  /-- The context has ended or stopped: nothing to retire. -/
  | gone (s : State)

/-- What the issue of a word needs to know of its instruction. -/
structure Form where
  /-- R35: traps PHASE in the compute phase of a planned gang. -/
  far : Bool
  /-- A variable-latency instruction, counted in the scoreboard (R54). -/
  late : Bool
  /-- The g destination of a fixed-latency scalar result (R121). -/
  d : Option (BitVec 6)
  /-- A yield point (R280). -/
  yields : Bool
deriving DecidableEq, Repr

def fPlain : Form := { far := false, late := false, d := none, yields := false }
/-- Fixed latency with a g destination. -/
def fTo (d : BitVec 6) : Form := { fPlain with d := some d }
def fLate : Form := { fPlain with late := true }
def fFar : Form := { fPlain with far := true }
def fFarLate : Form := { fPlain with far := true, late := true }
def fYield : Form := { fPlain with yields := true }
def fYieldLate : Form := { fPlain with yields := true, late := true }
def fFarYieldLate : Form := { far := true, late := true, d := none, yields := true }

/-- The phase check of R67 step 7 fails (R33, R35, R52). -/
def State.phaseBad (s : State) (c : Ctl) (far : Bool) : Bool :=
  let ex := s.me.proc.exchange
  let planned := match s.myGang with
    | some g => g.h.planned
    | none => false
  (match c.phase with
    | .any => false
    | .compute => ex
    | .exchange => !ex) || (far && planned && !ex)

/-- The guard's value (R49). -/
def State.guard (s : State) (c : Ctl) : Bool := (s.cx.pred c.q).xor c.neg

/-- The word has issued: the context's pc, the branch that led there (R129), the delay of R51, and the switch bit of R55. -/
def State.retire (s : State) (c : Ctl) (pc : W64) (branch : Option W64 := none) : State :=
  let s1 := (s.updCx fun x => { x with pc := pc, branch := branch, notBefore := s.cyc + c.delay.toNat + 1 }).count s.core 2
  if c.sw then
    match s1.me.pick with
    | none => s1
    | some _ => s1.switch s1.core
  else s1

/-- A g destination of a result that has not been written yet (R121). -/
def Core.pendingG (c : Core) (k : Nat) (d : BitVec 6) : Bool :=
  (c.land.any fun l => l.late && l.ctx == k && match l.res with
    | .g n _ => n == d
    | .q .. | .m .. | .w .. | .s .. | .none => false) ||
  (c.wq.any fun e => e.ctx == k && match e.op with
    | .extr _ => e.d == d.toNat
    | .fbin .. | .ffma _ | .fun1 .. | .ibin .. | .cmp _ | .sel | .mand .. | .mor .. | .mnot _ | .perm | .shuf | .bcast | .ins _
    | .rsum _ | .rmax _ | .rmin _ | .cvt .. | .pxenc .. | .pxdec .. | .ldl | .stl | .ldx | .stx | .mov | .mrdacc ..
    | .mwracc .. | .mstacc _ | .skip => false)

/-- A RECV's carried end is still on its way to `d` of the running context (R249, R121). -/
def State.replyTo (s : State) (d : BitVec 6) : Bool :=
  s.replies.any fun r => r.core == s.core && r.ctx == s.k && r.res.any fun
    | .g n _ => n == d
    | .q .. | .m .. | .w .. | .s .. | .none => false

/-- Load the retry latch at a trap of the core (R392). -/
def Ctx.latchTrap (x : Ctx) (w : BitVec 96) (operand compare : W64) : Ctx :=
  { x with latch := { x.latch with valid := true, sent := false, done := false, posted := false, word := w,
                                   operand := operand, compare := compare } }

/-- The running context stops at this yield point instead of going on (R291, R326, R415). -/
def State.stopHere (s : State) (f : Form) : Bool := f.yields && s.me.proc.yieldStop && s.k != 0

/-- An MGANG that completes its barrier is never withdrawn, not by a stop at its yield point either (R180). -/
def State.begun (s : State) (w : Wait) : Bool :=
  w == .gangIssue && (s.arborAt (arborOf s.core)).flying.any fun m => m.pos == posOf s.core && m.ctx == s.k

/-- What comes of an instruction's answer. -/
def State.finish (s : State) (c : Ctl) (f : Form) (e : Eff) : State :=
  let mark := fun (t : State) =>
    let t := if f.late then t.updCtx s.core s.k fun x => x.sbUp c.set else t
    let t := if f.yields then t.updCtx s.core s.k fun x => { x with wd := 0 } else t
    if s.stopHere f then t.updCtx s.core s.k fun x => { x with run := .stopped } else t
  let pass := fun (t : State) => if s.stopHere f && (t.coreAt s.core).cur == s.me.cur then t.switch s.core else t
  match e with
  | .done t => pass ((mark t).retire c (s.nextPc s.core s.cx.pc))
  | .jump t pc => pass ((mark t).retire c pc (some s.cx.pc))
  | .trap cause val => s.takeTrap s.core s.k { cause, val } s.cx.pc
  | .trapIn t cause val => t.takeTrap s.core s.k { cause, val } s.cx.pc
  | .hold => s
  | .wait w t =>
    if s.stopHere f && w.reissues && !t.begun w then
      -- the word issues again; of HEXIT the arrival at the pending barrier stands (R289)
      ((if w = .helpers then t else s).updCx fun x => { x with run := .stopped, wd := 0 }).switch s.core
    else
    let t := (mark t).updCtx s.core s.k fun x => { x with run := .waiting w, notBefore := s.cyc + c.delay.toNat + 1 }
    (t.count s.core 2).switch s.core
  | .gone t => (t.count s.core 2)

/-- The issue of a decoded word by the running context: phase (step 7), guard, the full scoreboard counter and the
pending destination (R54, R121), then the instruction's own checks and effect (step 8). -/
def issue (c : Ctl) (f : Form) (s : State) (body : State → Eff) : Host.Outcome State Fault Refusal :=
  if s.phaseBad c f.far then
    .next (s.takeTrap s.core s.k { cause := cPHASE, val := if s.me.proc.exchange then 1 else 0 } s.cx.pc)
  else if !s.guard c then .next (s.retire c (s.nextPc s.core s.cx.pc))
  else if f.late && decide (63 ≤ s.cx.sbAt c.set) then .next s
  else if (match f.d with
      | some d => s.me.pendingG s.k d || s.replyTo d
      | none => false) then .next s
  else .next (s.finish c f (body s))

/-- The ENDLEAK check of WriteG on a destination (R120). -/
def State.leak (s : State) (d : BitVec 6) : Bool := (s.cx.gReg d).isEnd
def leakTrap (d : BitVec 6) : Eff := .trap cENDLEAK (d.setWidth 64)

/-- WriteG at a fixed latency, with its ENDLEAK check and the flags that land with it (R120, R114). -/
def writeG (s : State) (lat : Nat) (d : BitVec 6) (v : W64) (fl : Flags) : Eff :=
  if s.leak d then leakTrap d else .done (s.landAfter lat (.g d (GReg.data v)) fl)
/-- A variable-latency g result. -/
def writeLate (s : State) (c : Ctl) (d : BitVec 6) (v : W64) : Eff :=
  if s.leak d then leakTrap d else .done (s.landLate c.set (.g d (GReg.data v)))
/-- A predicate result. -/
def writeQ (s : State) (lat : Nat) (qd : BitVec 3) (b : Bool) (fl : Flags) : Eff := .done (s.landAfter lat (.q qd b) fl)

/-- A check of steps 1 to 5 of R67 fails for the running context's word: ILLEGAL, with word bits 95:32. -/
def illegal (s : State) : Host.Outcome State Fault Refusal :=
  .next (s.takeTrap s.core s.k { cause := cILLEGAL, val := s.ir.extractLsb' 32 64 } s.cx.pc)

/-- A unit that must exist. -/
def onCore (n : Nat) (s : State) (f : State → State) : Host.Outcome State Fault Refusal :=
  if n < Config.coreCount then .next (f s) else .fault .noSuchUnit

end Sys2Proof.Machine
end

