-- ==== Sys2Proof/Machine/Operands.lean ====
section
/-! DEFINITION. Every operand form (R59 to R62, R122, R123, R148, R153): the values the running context reads at
issue, w operands resolved against its allotment, rounding modes with their draws (R104, R108), relations (R124),
and the fields of w registers (R150). -/

namespace Sys2Proof.Machine

def State.readG (s : State) (n : BitVec 6) : W64 := s.cx.readG n
def State.gReg (s : State) (n : BitVec 6) : GReg := s.cx.gReg n
def small64 (v : BitVec 12) : W64 := v.signExtend 64

/-- SrcZ() of R122. -/
def State.srcZ (s : State) : SrcZ → W64
  | .imm z => z.signExtend 64
  | .g n => s.readG n
  | .small v => small64 v

/-- A g register or a small immediate sign-extended. -/
def State.gi (s : State) : GI → W64
  | .g n => s.readG n
  | .small v => small64 v

/-- Offsets and addresses are unbounded integers: SrcZ and ReadG read as signed (R142, R206). -/
def State.offZ (s : State) (z : SrcZ) : Int := (s.srcZ z).toInt
def State.offGI (s : State) (z : GI) : Int := (s.gi z).toInt

/-! ## w operands (R60, R153) -/

inductive WRes where
  | ok (phys : Nat)
  | bad (e : W64)
deriving DecidableEq, Repr

/-- The number a w operand names: direct, or G + off with G the index register read as signed (R60). -/
def State.wNumber (s : State) : WOp → Int
  | .w n => n.toNat
  | .rel i off => (s.readG (i.setWidth 6)).toInt + off.toInt

/-- A w operand against the allotment (R153). -/
def State.resolveW (s : State) (o : WOp) : WRes :=
  let e := s.wNumber o
  if 0 ≤ e ∧ e < s.cx.allot then .ok (s.cx.phys e.toNat) else .bad (BitVec.ofInt 64 e)

/-- The first operand in field order that fails (R153). -/
def firstBad : List WRes → Option W64
  | [] => none
  | .bad e :: _ => some e
  | .ok _ :: r => firstBad r

def WRes.get : WRes → Nat
  | .ok p => p
  | .bad _ => 0

/-! ## Elements of w registers (R150) -/

/-- Element `i` of width `e`. -/
def elem (e i : Nat) (v : WReg) : Nat := (v.extractLsb' (e * i) e).toNat
/-- A w register from a function of the element index. -/
def ofElems (e : Nat) (f : Nat → Nat) : WReg :=
  BitVec.ofNat 1024 ((List.range (1024 / e)).foldr (fun i acc => f i % 2 ^ e + acc * 2 ^ e) 0)
/-- Replication into every element (R148). -/
def replicate (e : Nat) (v : W64) : WReg := ofElems e fun _ => v.toNat % 2 ^ e
def lane (v : WReg) (i : Nat) : Nat := elem 32 i v
def ofLanes (f : Nat → Nat) : WReg := ofElems 32 f

/-- Operand b of a wide form at element width `e` (R148, R154): its source, its register check, whether it is a g. -/
def State.wgSrc (s : State) (e : Nat) : WG → WSrc
  | .g n => .val (replicate e (s.readG n))
  | .w o => .reg (s.resolveW o).get
def State.wgiSrc (s : State) (e : Nat) : WGI → WSrc
  | .g n => .val (replicate e (s.readG n))
  | .small v => .val (replicate e (small64 v))
  | .w o => .reg (s.resolveW o).get
def State.wgRes (s : State) : WG → List WRes
  | .g _ => []
  | .w o => [s.resolveW o]
def State.wgiRes (s : State) : WGI → List WRes
  | .g _ | .small _ => []
  | .w o => [s.resolveW o]
def WG.isG : WG → Bool
  | .g _ => true
  | .w _ => false
def WGI.isG : WGI → Bool
  | .g _ => true
  | .w _ | .small _ => false
def GI.isG : GI → Bool
  | .g _ => true
  | .small _ => false

/-! ## Rounding modes and draws -/

def rmOfCode (b : BitVec 3) : Rm :=
  match b.toNat with
  | 0 => .rn | 1 => .rz | 2 => .ru | 3 => .rd | 4 => .ra | _ => .sr
/-- The mode at issue: `.dyn` reads `rmode` (R104). -/
def State.mode (s : State) (rm : Rm) : Rm :=
  match rm with
  | .dyn => rmOfCode s.cx.rmode
  | .rn | .rz | .ru | .rd | .ra | .sr => rm

/-- Take `n` draws (R107, R108). -/
def State.takeDraws (s : State) (n : Nat) : List W64 × State :=
  let p := s.me.proc
  ((List.range n).map fun j => drawAt p.srseed p.lcn (p.srctr + BitVec.ofNat 64 j),
   s.updProc s.core fun p => { p with srctr := p.srctr + BitVec.ofNat 64 n })

/-- The mode of a scalar instruction; SR takes one draw (R108, R109). -/
def State.scalarMode (s : State) (rm : Rm) : Mode × State :=
  let m := s.mode rm
  if m = .sr then
    let d := s.takeDraws 1
    ({ rm := m, u := ((d.1[0]?).getD 0).toNat % 2 ^ 16 }, d.2)
  else ({ rm := m, u := 0 }, s)

/-- The mode of a wide instruction; SR takes eight draws. -/
def State.wideMode (s : State) (rm : Rm) : Rm × List W64 × State :=
  let m := s.mode rm
  if m = .sr then
    let d := s.takeDraws 8
    (m, d.1, d.2)
  else (m, [], s)

/-! ## Relations (R124) -/

def relHolds (r : Rel) (a b : W64) : Bool :=
  match r with
  | .eq => a == b
  | .ne => a != b
  | .lt => a.slt b
  | .le => a.sle b
  | .gt => b.slt a
  | .ge => b.sle a
  | .ltn => a.ult b
  | .len => a.ule b
  | .gtn => b.ult a
  | .gen => b.ule a
  | .tst => a &&& b != 0

/-- Bits of an operand of a format, from bits w - 1 down (R137). -/
def fBits (f : FFmt) (v : W64) : Nat := v.toNat % 2 ^ (fmtOf f).width
def nBits (f : NFmt) (v : W64) : Nat := v.toNat % 2 ^ NFmt.width f
/-- An integer result sign- or zero-extended by its format; a floating one with the higher bits zero (R137, R140). -/
def extend64 (f : NFmt) (v : Nat) : W64 :=
  match f with
  | .int f => BitVec.ofInt 64 (IFmt.val f v)
  | .flt _ => BitVec.ofNat 64 v
def extInt (f : IFmt) (v : Nat) : W64 := BitVec.ofInt 64 (IFmt.val f v)

/-- A branch target in a register (R127): the address, or the trap. -/
inductive Target where
  | to (a : W64)
  | bad (cause : BitVec 8) (val : W64)
deriving DecidableEq, Repr

def brTarget (r : GReg) : Target :=
  if !r.tag then .to (r.bits.setWidth 64)
  else if capKind r.bits = 1 then
    if !capX r.bits then .bad cCAPPERM 0
    else
      let t := capBase r.bits + capCursor r.bits
      if t < capBase r.bits ∨ capBase r.bits + capLength r.bits < t + 12 then .bad cCAPBND (BitVec.ofNat 64 t)
      else .to (BitVec.ofNat 64 t)
  else .bad cCAPTAG (BitVec.ofNat 64 (capKind r.bits))

/-! ## Local-store windows (R142, R163, R169) -/

inductive LsAddr where
  | at_ (a : Nat)
  | bad (cause : BitVec 8) (val : W64)
deriving DecidableEq, Repr

/-- Tag, kind and permission of a window. -/
def windowCheck (r : GReg) (needR needW : Bool) : Option (BitVec 8 × W64) :=
  if !r.tag then some (cCAPTAG, 0)
  else if capKind r.bits ≠ 2 then some (cCAPTAG, BitVec.ofNat 64 (capKind r.bits))
  else if (needR && !capR r.bits) || (needW && !capW r.bits) then some (cCAPPERM, 0)
  else none

/-- The checks of LDL, STL, VLDL, VSTL and MSTACC over `size` bytes at `off`, aligned to `align`. -/
def lsAddr (r : GReg) (needR needW : Bool) (off : Int) (size align : Nat) : LsAddr :=
  match windowCheck r needR needW with
  | some (c, v) => .bad c v
  | none =>
    let a : Int := (capBase r.bits + capCursor r.bits : Nat) + off
    if a < capBase r.bits ∨ (capBase r.bits + capLength r.bits : Nat) < a + size ∨ (Config.lsSize : Int) < a + size then
      .bad cCAPBND (BitVec.ofInt 64 a)
    else if a % align ≠ 0 then .bad cALIGN (BitVec.ofInt 64 a)
    else .at_ a.toNat

end Sys2Proof.Machine
end

