-- ==== Sys2Proof/Machine/Mem.lean ====
section
/-! DEFINITION. Global memory: sealed bytes (R365), tags (R208), translation (R207, R362, R363), MemAddr (R206), host
lines at the coherency agents (R271, R272), writes with their engine points (R196) and the waits they end (R221, R223),
virtual accesses of the machine's own agents, and the trace (R418, R419). -/

namespace Sys2Proof.Machine

/-! ## Sealed bytes -/

/-- The number of the key a domain's slot holds now: its number and generation (R345, R347). -/
def State.keyOf (s : State) (d : BitVec 11) : Nat := 1 + d.toNat + 2048 * (s.domainAt d).gen
/-- The domain of a key's number. -/
def keyDomain (key : Nat) : BitVec 11 := BitVec.ofNat 11 (key - 1)

/-- A byte is plaintext under a key: it and its line were last written under it, and nothing of it was lost meanwhile. -/
def Memory.plain (m : Memory) (key a : Nat) : Bool :=
  Tab.get 0 m.seals a == key && Tab.get 0 m.lines (a / 64) == key && !Tab.get false m.lost a
/-- A byte of memory as read under a key (R365). -/
def Memory.byteAs (m : Memory) (key a : Nat) : Byte :=
  if m.plain key a then Tab.get 0 m.bytes a else Config.unsealed key a (Tab.get 0 m.seals a)
/-- `n` bytes little-endian. -/
def Memory.readAs (m : Memory) (key a n : Nat) : Nat :=
  match n with
  | 0 => 0
  | n + 1 => (m.byteAs key a).toNat + 256 * m.readAs key (a + 1) n
/-- A line is sealed under a key: what it held of that key's plaintext before another key sealed it stays lost (R365). -/
def Memory.rekey (m : Memory) (key line : Nat) : Memory :=
  if Tab.get 0 m.lines line = key then m
  else { m with lines := Tab.set 0 m.lines line key
                lost := (m.seals.filter fun p => p.1 / 64 == line && p.2 == key).foldl (fun t p => Tab.set false t p.1 true) m.lost }
/-- The bytes of a line that are lost. -/
def Memory.lostOf (m : Memory) (line : Nat) : List Nat := (m.lost.filter fun p => p.1 / 64 == line).map fun p => p.1
/-- Write one byte: its line sealed under the key, its granule's tag cleared (R208). -/
def Memory.putByte (m : Memory) (key a : Nat) (v : Byte) : Memory :=
  let m := m.rekey key (a / 64)
  { m with bytes := Tab.set 0 m.bytes a v, tags := Tab.set false m.tags (a / 16) false, seals := Tab.set 0 m.seals a key
           lost := Tab.set false m.lost a false }
def Memory.writeAs (m : Memory) (key a n v : Nat) : Memory :=
  match n with
  | 0 => m
  | n + 1 => (m.putByte key a (BitVec.ofNat 8 v)).writeAs key (a + 1) n (v / 256)
/-- The tag of a granule as read under a key. -/
def Memory.tagAs (m : Memory) (key a : Nat) : Bool := Tab.get false m.tags (a / 16) && m.plain key a
def Memory.setTag (m : Memory) (a : Nat) : Memory := { m with tags := Tab.set false m.tags (a / 16) true }

/-! ## Format windows (R116 to R118) -/

def winOn (w : BitVec 256) : Bool := w.getLsbD 255
def winBase (w : BitVec 256) : Nat := bits w 63 0
def winBlocks (w : BitVec 256) : Nat := bits w 99 64
def winScale (w : BitVec 256) : Nat := bits w 191 128
def winDomain (w : BitVec 256) : BitVec 11 := w.extractLsb' 240 11
/-- Bytes of a block; 0 for a reserved format. -/
def winBlock (w : BitVec 256) : Nat :=
  match bits w 254 252 with
  | 1 => 8
  | 2 => 12
  | 3 => 18
  | _ => 0
/-- The scale region lies at the top of the block-layout range (R116). -/
def winTop (w : BitVec 256) : Bool := winScale w == winBase w + winBlocks w * (winBlock w - 2)
def State.windows (s : State) : List (BitVec 256) :=
  s.mcs.flatMap fun m => (m.2.windows.map fun w => w.2).filter winOn
def overlaps (a n b m : Nat) : Bool := decide (a < b + m) && decide (b < a + n)
/-- An access that meets a scale region outside its window is refused (R118). -/
def State.scaleHit (s : State) (pa n : Nat) : Bool :=
  s.windows.any fun w => !winTop w && overlaps pa n (winScale w) (2 * winBlocks w)

/-! ## Translation (R207, R362, R363) -/

inductive Acc where | fetch | read | write
deriving DecidableEq, Repr
inductive Walk where
  | ok (p : Place)
  | bad (cause : BitVec 8)
deriving DecidableEq, Repr

/-- An address of this device's HBM that any agent may reach. -/
def State.hbmOk (s : State) (pa n : Nat) : Bool := decide (pa + n ≤ Config.hbmEnd) && !s.scaleHit pa n

/-- The place a target and frame name (R362); none where the physical map refuses (R363). -/
def State.place (s : State) (e : W64) (pa n : Nat) : Option Place :=
  if Config.controlBase ≤ pa then none
  else match bits e 6 5 with
    | 0 => if s.hbmOk pa n && bits e 63 52 == 0 then some (.hbm pa) else none
    | 1 => some (.peer (e.extractLsb' 52 12) pa)
    | 2 => some (.host (e.extractLsb' 52 12) pa)
    | _ => none

/-- A byte outside the machine, in a cycle: a peer's by its device id, a host's by 4,096 + its node id. -/
def State.outsideByte (s : State) (id pa : Nat) : Byte := (Config.outsideEntry id (pa / 8 * 8) s.cyc).extractLsb' (8 * (pa % 8)) 8
/-- A byte at a place as the machine's own agents find it: a host's in its line, once that is at its agent. -/
def State.byteAt (s : State) (key : Nat) (p : Place) : Byte :=
  match p with
  | .hbm pa => s.mem.byteAs key pa
  | .peer d pa => s.outsideByte d.toNat pa
  | .host h pa =>
    match s.hostLines.find? fun l => l.host == h && l.line == pa / 64 with
    | some l => l.data.extractLsb' (8 * (pa % 64)) 8
    | none => s.outsideByte (4096 + h.toNat) pa
def Place.move (p : Place) (n : Nat) : Place :=
  match p with
  | .hbm pa => .hbm (pa + n)
  | .peer d pa => .peer d (pa + n)
  | .host h pa => .host h (pa + n)
/-- The value of `n` bytes at a place. -/
def State.bytesAt (s : State) (key : Nat) (p : Place) : Nat → Nat
  | 0 => 0
  | n + 1 => (s.byteAt key p).toNat + 256 * s.bytesAt key (p.move 1) n

/-- A page-table entry at a place. -/
def State.entryAt (s : State) (key : Nat) (p : Place) : W64 := BitVec.ofNat 64 (s.bytesAt key p 8)

/-- The permission a leaf must have (R362). -/
def leafAllows (e : W64) : Acc → Bool
  | .fetch => e.getLsbD 4
  | .read => e.getLsbD 2
  | .write => e.getLsbD 2 && e.getLsbD 3

/-- Bits of the address a level's table is indexed by, and bytes a leaf of the level maps, by levels still to walk. -/
def levelIndex (va n : Nat) : Nat :=
  match n with
  | 2 => va / 2 ^ 42 % 64
  | 1 => va / 2 ^ 29 % 8192
  | _ => va / 2 ^ 16 % 8192
def levelSize (n : Nat) : Nat := if n = 1 then 2 ^ 29 else 2 ^ 16

/-- What a table entry with `n` tables below it gives: the trap, the page, or the next table (R362). -/
inductive Entry where
  | bad (cause : BitVec 8)
  | page (p : Place)
  | next (e : W64) (frame : Nat)
deriving DecidableEq, Repr

def State.entry (s : State) (key : Nat) (acc : Acc) (va size : Nat) (top : W64) (table n : Nat) : Entry :=
  match s.place top (table + 8 * levelIndex va n) 8 with
  | none => .bad cPROT
  | some p =>
    let e := s.entryAt key p
    let away := bits e 8 7
    let frame := 65536 * bits e 51 16
    if away = 3 then .bad cINTEG
    else if !e.getLsbD 0 || away != 0 then .bad cPFAULT
    else if bits e 15 9 != 0 || bits e 6 5 == 3 || decide (Config.controlBase ≤ frame) then .bad cPROT
    else if !e.getLsbD 1 then .next e frame
    else if n = 2 ∨ (n = 1 ∧ frame % 2 ^ 29 ≠ 0) ∨ leafAllows e acc = false then .bad cPROT
    else match s.place e (frame + va % levelSize n) size with
      | some p => .page p
      | none => .bad cPROT

/-- The walk from a table with `n` tables below it, taking at each the first outcome of R362 that applies. -/
def State.walk (s : State) (key : Nat) (acc : Acc) (va size : Nat) (top : W64) (table n : Nat) : Walk :=
  match s.entry key acc va size top table n with
  | .bad c => .bad c
  | .page p => .ok p
  | .next e frame =>
    match n with
    | 0 => .bad cPROT
    | m + 1 => s.walk key acc va size e frame m

/-- `Translate` (R207) of an access of `size` bytes that crosses no page. -/
def State.translate (s : State) (d : BitVec 11) (va size : Nat) (acc : Acc) : Walk :=
  if 2 ^ 48 ≤ va then .bad cPROT
  else s.walk (s.keyOf d) acc va size 0 (((s.domainAt d).record.toNat / 2 ^ 64) % 2 ^ 64) 2

/-! ## MemAddr (R206) -/

inductive MAddr where
  | ok (va : Nat) (p : Place)
  /-- The trap; `formed` when the address was formed and compared with the watches (R410). -/
  | bad (cause : BitVec 8) (val : W64) (formed : Option Nat)
deriving DecidableEq, Repr

/-- Permissions an access needs of its capability (R206). -/
structure Need where
  r : Bool
  w : Bool
  sc : Bool
deriving DecidableEq, Repr
def needR : Need := { r := true, w := false, sc := false }
def needW : Need := { r := false, w := true, sc := false }
def needRW : Need := { r := true, w := true, sc := false }

/-- Tag, kind, permissions, bounds and alignment of MemAddr, without translation. -/
def capAddr (r : GReg) (off : Int) (size align : Nat) (nd : Need) : LsAddr :=
  if !r.tag then .bad cCAPTAG 0
  else if capKind r.bits ≠ 1 then .bad cCAPTAG (BitVec.ofNat 64 (capKind r.bits))
  else if (nd.r && !capR r.bits) || (nd.w && !capW r.bits) || (nd.sc && !capSC r.bits) then .bad cCAPPERM 0
  else
    let a : Int := (capBase r.bits + capCursor r.bits : Nat) + off
    if a < capBase r.bits ∨ (capBase r.bits + capLength r.bits : Nat) < a + size then .bad cCAPBND (BitVec.ofInt 64 a)
    else if a % align ≠ 0 then .bad cALIGN (BitVec.ofInt 64 a)
    else .at_ a.toNat

/-- An operation is a posted write in so: later events of its context come after it (R192); a RED is not (R194). -/
def MemOp.ordered (o : MemOp) : Bool :=
  match o.kind with
  | .store | .fset | .fclr => !o.performed
  | .load .. | .amo .. | .cas _ | .red .. => false

/-- The bytes a posted write leaves at its location (R210, R220). -/
def postedValue (o : MemOp) : Nat :=
  match o.kind with
  | .fset => 2 ^ 63 + o.data.toNat % 2 ^ 63
  | .fclr => 0
  | .store | .load .. | .amo .. | .cas _ | .red .. => o.data.toNat % 2 ^ (8 * o.size)

/-- Bytes of a host line that is at its agent. -/
def HostLine.patch (l : HostLine) (off n v : Nat) : HostLine :=
  let mask : BitVec 512 := BitVec.ofNat 512 ((2 ^ (8 * n) - 1) * 2 ^ (8 * off))
  { l with data := (l.data &&& ~~~mask) ||| BitVec.ofNat 512 (v % 2 ^ (8 * n) * 2 ^ (8 * off)) }
/-- Memory as the running context's own posted writes leave it: its walks see its earlier stores (R192, R211). -/
def State.ahead (s : State) : State :=
  (s.me.storeq.filter fun o => o.po.contains s.k && o.ordered).foldl (fun t o =>
    match o.place with
    | .hbm pa => { t with mem := t.mem.writeAs (s.keyOf s.me.dom) pa o.size (postedValue o) }
    | .host h pa => { t with hostLines := t.hostLines.map fun l =>
        if l.host = h ∧ l.line = pa / 64 then l.patch (pa % 64) o.size (postedValue o) else l }
    | .peer .. => t) s

def State.memAddr (s : State) (r : GReg) (off : Int) (size align : Nat) (nd : Need) : MAddr :=
  match capAddr r off size align nd with
  | .bad c v => .bad c v none
  | .at_ a =>
    match s.ahead.translate s.me.dom a (min size align) (if nd.w then .write else .read) with
    | .ok p => .ok a p
    | .bad c => .bad c (BitVec.ofNat 64 a) (some a)

/-- The home die of an HBM address (R18). -/
def homeDie (pa : Nat) : Nat := pa / Config.stackBytes / 3
def Place.pa : Place → Nat
  | .hbm pa | .peer _ pa | .host _ pa => pa
def Place.isHbm : Place → Bool
  | .hbm _ => true
  | .peer .. | .host .. => false

/-! ## Host lines (R271, R272) -/

def agentOf (h : BitVec 12) : Nat := hostPort h / 9
def State.hostLine (s : State) (h : BitVec 12) (line : Nat) : Option HostLine :=
  s.hostLines.find? fun l => l.host == h && l.line == line
/-- A line leaves its agent; its tags are kept for its next fill (R208). -/
def State.dropLine (s : State) (h : BitVec 12) (line : Nat) : State :=
  let at_ := fun (l : HostLine) => l.host == h && l.line == line
  { s with hostLines := s.hostLines.filter fun l => !at_ l
           hostTags := ((s.hostLines.filter fun l => at_ l && l.tags != 0).map fun l => (h, line, l.tags)) ++ s.hostTags }
def State.putLine (s : State) (l : HostLine) : State :=
  { s with hostLines := l :: s.hostLines.filter fun x => !(x.host == l.host && x.line == l.line) }
/-- Data of a modified line go to its host, under the domain's link secret (R343, R368). -/
def State.lineOut (s : State) (l : HostLine) (o : Out) : State :=
  if l.st = .m then s.departAs (4 + l.agent) (hostPort l.host) (some l.domain) o else s
/-- An agent whose 64 MiB are full evicts a line, which one is free (R271, R272). -/
def State.makeRoom (s : State) (agent : Nat) : State :=
  let mine := s.hostLines.filter fun l => l.agent == agent
  if mine.length < Config.agentLines then s
  else
    match mine[Config.freeDelay s.fresh % mine.length]? with
    | none => s
    | some l =>
      let t := { s with fresh := s.fresh + 1 }
      (t.lineOut l (.writeBack l.host l.line l.data)).dropLine l.host l.line

/-- One snoop takes effect (the last four columns of R272). -/
def State.applySnoop (s : State) (n : Snoop) : State :=
  match s.hostLine n.host n.line with
  | none => s.emit (hostPort n.host) (.snoopData n.host n.line none)
  | some l =>
    let t := if l.st = .m then s.lineOut l (.snoopData n.host n.line (some l.data)) else s.emit (hostPort n.host) (.snoopData n.host n.line none)
    if n.invalidate then t.dropLine n.host n.line else t.putLine { l with st := .s }
/-- Drain the agent's queue, oldest first. -/
def State.drain (s : State) (agent : Nat) : State :=
  let mine := s.snoops.filter fun n => n.agent == agent
  mine.foldl State.applySnoop { s with snoops := s.snoops.filter fun n => !(n.agent == agent) }

/-- The line in the agent, in S or E at least, or in M (R272), for an access under a key. -/
def State.getLine (s : State) (key : Nat) (h : BitVec 12) (line : Nat) (own : Bool) : HostLine × State :=
  match s.hostLine h line with
  | some l =>
    let l := { l with st := if own then .m else l.st, domain := keyDomain key }
    (l, s.putLine l)
  | none =>
    let s := s.makeRoom (agentOf h)
    let st : Mesi := if own then .m else if Config.freeBit s.fresh then .e else .s
    -- a tag stays set unless the host has written its granule meanwhile, which nothing tells
    let old := fun (t : BitVec 12 × Nat × BitVec 4) => t.1 == h && t.2.1 == line
    let tags := match s.hostTags.find? old with
      | some t => t.2.2 &&& (Config.freeWord s.fresh).setWidth 4
      | none => 0
    let l : HostLine := { agent := agentOf h, host := h, line := line, st := st, data := Config.freeLine s.fresh, tags := tags,
                          domain := keyDomain key }
    (l, ({ s with fresh := s.fresh + 1, hostTags := s.hostTags.filter fun t => !old t } : State).putLine l)

/-! ## Reading and writing a place -/

/-- Bytes that a peer device answers: they are outside the machine (R269). -/
def State.peerBytes (s : State) (pa n : Nat) : Nat × State :=
  ((Config.freeLine s.fresh).toNat / 2 ^ (8 * (pa % 64)) % 2 ^ (8 * n), { s with fresh := s.fresh + 1 })
/-- A request to a peer device, under the domain of a key. -/
def State.askPeer (s : State) (key : Nat) (d : BitVec 12) (o : Out) : State := s.depart (devicePort d) (some (keyDomain key)) o
/-- `n` bytes at a place, within one 64-byte line. A peer is asked, and answers in the same event (notes/assumptions/38.md). -/
def State.readPlace (s : State) (key : Nat) (p : Place) (n : Nat) : Nat × State :=
  match p with
  | .hbm pa => (s.mem.readAs key pa n, s)
  | .peer d pa => (s.askPeer key d (.peerLoad d pa n)).peerBytes pa n
  | .host h pa =>
    let r := s.getLine key h (pa / 64) false
    (r.1.data.toNat / 2 ^ (8 * (pa % 64)) % 2 ^ (8 * n), r.2)

/-- The bytes a Kiosk, or the agent of a host, reads for an atomic or a wait: the host's line is taken to be written (R271). -/
def State.readPlaceFor (s : State) (key : Nat) (p : Place) (n : Nat) : Nat × State :=
  match p with
  | .host h pa =>
    let r := s.getLine key h (pa / 64) true
    (r.1.data.toNat / 2 ^ (8 * (pa % 64)) % 2 ^ (8 * n), r.2)
  | .hbm _ | .peer .. => s.readPlace key p n

/-- A `.home` write of a context: its bytes have their engine points later (R196). The line leaves any other L1. -/
def State.lateWrite (s : State) (core : Nat) (po : List Nat) (pa n : Nat) : State :=
  let line := pa / 64
  let kept := s.late.filter fun l => l.core == core || l.pa / 64 != line
  let new := (List.range n).filterMap fun i =>
    if kept.any fun l => l.core == core && l.po == po && l.pa == pa + i then none
    else match kept.find? fun l => l.core == core && l.pa == pa + i with
      | some l => some { l with po := po }
      | none => some { core := core, po := po, pa := pa + i, old := Tab.get 0 s.mem.bytes (pa + i),
                       oldTag := Tab.get false s.mem.tags ((pa + i) / 16), oldSeal := Tab.get 0 s.mem.seals (pa + i),
                       oldLine := Tab.get 0 s.mem.lines line, oldLost := s.mem.lostOf line }
  { s with late := kept ++ new }
/-- Every write of a line reaches its engine point. -/
def State.engineLine (s : State) (line : Nat) : State := { s with late := s.late.filter fun l => l.pa / 64 != line }
/-- A Kiosk operation takes a line from the L1 that holds it (R196). -/
def State.takeLine (s : State) (p : Place) : State :=
  match p with
  | .hbm pa => s.engineLine (pa / 64)
  | .peer .. | .host .. => s
/-- Every `.home` write that comes before a context's next event in program order reaches its engine point: the dirty lines are
written back (R196, R213). -/
def State.engineCtx (s : State) (core ctx : Nat) : State :=
  let lines := (s.late.filter fun l => l.core == core && l.po.contains ctx).map fun l => l.pa / 64
  { s with late := s.late.filter fun l => !(l.core == core && lines.contains (l.pa / 64)) }
/-- A byte as engines still see it where a `.home` write of it has no engine point yet. -/
def State.lateByte (s : State) (key pa : Nat) : Byte :=
  match s.late.find? fun l => l.pa == pa with
  | none => s.mem.byteAs key pa
  | some l => if l.oldSeal = key ∧ l.oldLine = key ∧ l.oldLost.contains pa = false then l.old else Config.unsealed key pa l.oldSeal
/-- Bytes of one aligned unit as one engine read sees them (R187, R196): the engine points of the `.home` writes to its granule may
fall now. -/
def State.engineRead (s : State) (key pa n : Nat) : List Byte × State :=
  let now := (List.range n).map fun i => s.mem.byteAs key (pa + i)
  if !s.late.any fun l => l.pa / 16 == pa / 16 then (now, s)
  else
    let t := { s with fresh := s.fresh + 1 }
    if Config.freeBit s.fresh then (now, { t with late := t.late.filter fun l => l.pa / 16 != pa / 16 })
    else ((List.range n).map fun i => s.lateByte key (pa + i), t)
/-! ## Happens-before of REDs through memory (R203) -/

def placeMeets (p : Place) (n : Nat) (q : Place) (m : Nat) : Bool :=
  match p, q with
  | .hbm a, .hbm b => overlaps a n b m
  | .peer d a, .peer e b => d == e && overlaps a n b m
  | .host d a, .host e b => d == e && overlaps a n b m
  | .hbm _, .peer .. | .hbm _, .host .. | .peer .., .hbm _ | .peer .., .host .. | .host .., .hbm _ | .host .., .peer .. => false
/-- A RED under way to these bytes happens before a write by one whose past is `past`: the write comes after it (R203). -/
def State.redHolds (s : State) (past : List Nat) (p : Place) (n : Nat) : Bool :=
  !past.isEmpty && s.cores.any fun c => c.2.storeq.any fun o =>
    past.contains o.id && !o.performed && placeMeets p n o.place o.size
/-- An agent has read bytes: what happens before their writes happens before its next event. -/
def State.readPast (s : State) (p : Place) (n : Nat) (w : Who) : State :=
  if s.past.isEmpty then s else (List.range n).foldl (fun s i => s.flow (.byte (p.move i)) w) s
/-- Bytes have been written by one whose past is `past`. -/
def State.writePast (s : State) (p : Place) (n : Nat) (past : List Nat) : State :=
  if s.past.isEmpty then s
  else
    let live := past.filter fun r => s.past.any fun q => q.1 == r
    (List.range n).foldl (fun s i => s.setPast (.byte (p.move i)) live) s
/-- The REDs that happen before the atomic events at these bytes so far (ao, R189, R193). -/
def State.aoPast (s : State) (p : Place) (n : Nat) : List Nat :=
  if s.past.isEmpty then [] else (List.range n).flatMap fun i => s.pastOf (.atom (p.move i))
/-- An atomic event at bytes, before which `mine` happens: it comes after those before it, and before those to come. -/
def State.aoEvent (s : State) (p : Place) (n : Nat) (mine : List Nat) : State :=
  if s.past.isEmpty then s
  else
    let live := mine.filter fun r => s.past.any fun q => q.1 == r
    (List.range n).foldl (fun s i =>
      let w := Who.atom (p.move i)
      { s with past := s.past ++ ((live.filter fun r => !s.past.contains (r, w)).map fun r => (r, w)) }) s
/-- What `w` reads at bytes in an atomic event happens before its next event, with what came before it there. -/
def State.aoRead (s : State) (p : Place) (n : Nat) (w : Who) : State :=
  let t := s.readPast p n w
  let t := if t.past.isEmpty then t else (List.range n).foldl (fun t i => t.flow (.atom (p.move i)) w) t
  t.aoEvent p n (t.pastOf w)

/-! ## Results of off-core references -/

/-- The result of a reference that lands later (R25). -/
def State.reply (s : State) (n k : Nat) (res : List Result) (set : BitVec 2) (hits : List Nat) (va : Nat) (ip : W64) : State :=
  let r : Reply := { id := s.ids, arrive := none, call := none, after := (s.coreAt n).poIds k, core := n, ctx := k, res := res, set := set, hits := hits, va := va, ip := ip }
  (({ s with ids := s.ids + 1, replies := s.replies ++ [r] } : State).updCtx n k fun x =>
    { x with run := .waiting (.result s.ids) }).later (.offCoreReferenceResult n k)

/-- Results land in a context now. -/
def State.landNow (s : State) (n k : Nat) (res : List Result) (fl : Flags) (set : Option (BitVec 2)) : State :=
  s.updCore n fun c =>
    let c := res.foldl (fun c r => c.landOne { due := 0, issued := 0, ctx := k, res := r, flags := 0, sb := none, late := true }) c
    c.landOne { due := 0, issued := 0, ctx := k, res := .none, flags := fl, sb := set, late := true }

/-- The condition of a wait on a location's value (R220), with the value gd then receives. -/
def waitTest (w : SyncWait) (v : Nat) : Bool × W64 :=
  match w.cond with
  | none => (decide (2 ^ 63 ≤ v % 2 ^ 64), BitVec.ofNat 64 v)
  | some (f, r, b) =>
    let x : W64 := match f with
      | .i32 => (BitVec.ofNat 32 v).signExtend 64
      | .n32 => (BitVec.ofNat 32 v).setWidth 64
      | .i64 | .n64 => BitVec.ofNat 64 v
    let y : W64 := match f with
      | .i32 => ((b.setWidth 32).signExtend 64)
      | .n32 => ((b.setWidth 32).setWidth 64)
      | .i64 | .n64 => b
    (relHolds r x y, x)
def waitSize (w : SyncWait) : Nat :=
  match w.cond with
  | some (.i32, _, _) | some (.n32, _, _) => 4
  | _ => 8

/-- A wait ends with a value: its read is an atomic event at its location (R193). -/
def State.endWait (s : State) (w : SyncWait) (v : W64) : State :=
  let s := s.aoRead w.place (waitSize w) (.ctx w.core w.ctx)
  ({ s with syncs := s.syncs.filter fun x => x.id != w.id } : State).reply w.core w.ctx [.g w.d (GReg.data v)] w.set w.hits w.va w.ip

/-- After a write to HBM: the Kiosk re-reads each watched location and ends the waits whose condition holds; a wait on the
same 8 bytes whose condition does not hold may be woken with them (R221, R223). -/
def State.wake (s : State) (pa n : Nat) : State :=
  let on := fun (w : SyncWait) => w.poll == none && match w.place with
    | .hbm a => overlaps (a / 8 * 8) 8 pa n
    | .peer .. | .host .. => false
  let val := fun (w : SyncWait) => waitTest w (s.mem.readAs (s.keyOf (s.coreAt w.core).dom) w.place.pa (waitSize w))
  let hit := s.syncs.filter fun w => on w && (val w).1
  s.syncs.foldl (fun t w =>
    if !on w then t
    else if (val w).1 then t.endWait w (val w).2
    else if hit.any fun h => h.place.pa / 8 == w.place.pa / 8 then
      if Config.freeBit t.fresh then ({ t with fresh := t.fresh + 1 } : State).endWait w (val w).2
      else { t with fresh := t.fresh + 1 }
    else t) s

/-- Some wait-queue entry watches a line: stores to it perform as under `.skip` (R221). -/
def State.watched (s : State) (line : Nat) : Bool :=
  s.syncs.any fun w => w.poll == none && match w.place with
    | .hbm a => a / 64 == line
    | .peer .. | .host .. => false

/-- The line of a place. -/
def Place.line : Place → Place
  | .hbm pa => .hbm (pa / 64 * 64)
  | .peer d pa => .peer d (pa / 64 * 64)
  | .host h pa => .host h (pa / 64 * 64)
/-- The bytes of a line that the machine holds. -/
def State.lineNow (s : State) (key : Nat) (p : Place) : List Byte :=
  match p with
  | .hbm pa => natLE 64 (s.mem.readAs key (pa / 64 * 64) 64)
  | .host h pa => natLE 64 (((s.hostLine h (pa / 64)).map fun l => l.data.toNat).getD 0)
  | .peer .. => []
/-- Instruction-cache lines of a place that has been written: a fetch may see it as it stands from now on (R48). -/
def State.noteCode (s : State) (p : Place) : State :=
  let at_ := fun (l : ILine) => l.place == p.line
  if s.cores.any fun c => c.2.icache.any fun l => at_ l.2 then
    let see := fun (c : Core) (l : ILine) => { l with since := l.since ++ [s.lineNow (s.keyOf c.dom) p] }
    { s with cores := s.cores.map fun c =>
        (c.1, { c.2 with icache := c.2.icache.map fun l => (l.1, if at_ l.2 then see c.2 l.2 else l.2) }) }
  else s

/-- A write of `n` bytes at a place, within one line: the bytes, their seal, their tag, engine points, and the waits it
ends. `home` names the core of a `.home` write and the contexts it precedes in program order. -/
def State.writePlace (s : State) (key : Nat) (p : Place) (n v : Nat) (tag : Bool) (home : Option (Nat × List Nat)) : State :=
  match p with
  | .hbm pa =>
    let s := match home, s.watched (pa / 64) with
      | some (c, po), false => s.lateWrite c po pa n
      | _, _ => s.engineLine (pa / 64)
    let m := s.mem.writeAs key pa n v
    (({ s with mem := if tag then m.setTag pa else m } : State).noteCode p).wake pa n
  | .peer d pa => s.askPeer key d (.peerWrite d pa (natLE n v) tag)
  | .host h pa =>
    let r := s.getLine key h (pa / 64) true
    let sh := 8 * (pa % 64)
    let mask : BitVec 512 := BitVec.ofNat 512 ((2 ^ (8 * n) - 1) * 2 ^ sh)
    let granules : BitVec 4 := BitVec.ofNat 4 (2 ^ ((pa % 64 + n + 15) / 16) - 2 ^ (pa % 64 / 16))
    (r.2.putLine { r.1 with data := (r.1.data &&& ~~~mask) ||| (BitVec.ofNat 512 (v % 2 ^ (8 * n) * 2 ^ sh))
                            tags := if tag then r.1.tags ||| granules else r.1.tags &&& ~~~granules }).noteCode p
/-- The tag of the granule at a place (R208). A peer's is the peer's to say. -/
def State.tagOf (s : State) (key : Nat) : Place → Bool
  | .hbm pa => s.mem.tagAs key pa
  | .peer .. => Config.freeBit s.fresh
  | .host h pa => match s.hostLine h (pa / 64) with
    | some l => l.tags.getLsbD (pa % 64 / 16)
    | none => false

/-- A device access to a line a host holds first sends a back-invalidate and waits for the answer (R274). -/
def State.hostHolds (s : State) (p : Place) : Bool :=
  match p with
  | .hbm pa => s.hostHeld.any fun h => h.1 == pa / 64
  | .peer .. | .host .. => false
/-- A back-invalidate goes out by the owner's port, through which its lines were taken (R274). -/
def State.backInvalidate (s : State) (line : Nat) : State :=
  match s.lodge.owner with
  | some o => s.emitTo o.1 (.backInvalidate line)
  | none => s
def State.askBack (s : State) (p : Place) : State :=
  let line := p.pa / 64
  if s.backInv.contains line then s
  else ({ s with backInv := line :: s.backInv } : State).backInvalidate line
/-- What an agent that waits at a place does: a line that a host holds is asked back. -/
def State.askFor (s : State) (p : Place) : State := if s.hostHolds p then s.askBack p else s

/-- An access of an agent of the machine to a line a host holds: the back-invalidate goes out and is answered in the same
event, with data or without, which is the host's to say (R274, notes/assumptions/38.md). -/
def State.recall (s : State) (line : Nat) : State :=
  match s.hostHeld.find? fun h => h.1 == line with
  | none => s
  | some h =>
    let asked := s.backInv.contains line
    let t := { s with hostHeld := s.hostHeld.filter fun x => x.1 != line, fresh := s.fresh + 1 }
    let t := if asked then t else t.backInvalidate line
    if Config.freeBit s.fresh then
      let v := (Config.freeLine s.fresh).toNat
      (List.range 8).foldl (fun t i => t.writePlace (t.keyOf h.2) (.hbm (64 * line + 8 * i)) 8 (v / 2 ^ (64 * i) % 2 ^ 64) false none) t
    else t
/-- What an agent does before it reads a place: a held line comes back, a host line comes to its coherency agent (R271, R274). -/
def State.touch (s : State) (key : Nat) : Place → State
  | .hbm pa => s.recall (pa / 64)
  | .host h pa => (s.getLine key h (pa / 64) false).2
  | .peer .. => s
/-- The same where the bytes are then read in place: a peer is asked for them (R269). -/
def State.look (s : State) (key : Nat) (p : Place) (n : Nat) : State :=
  match p with
  | .peer d pa => s.askPeer key d (.peerLoad d pa n)
  | .hbm _ | .host .. => s.touch key p
/-- A walk reads its tables through their agents, with `n` tables below (R271, R274, R362); `view` is memory as the walk sees it. -/
def State.walkTouch (s : State) (view : State → State) (key va : Nat) (top : W64) (table n : Nat) : State :=
  match s.place top (table + 8 * levelIndex va n) 8 with
  | none => s
  | some p =>
    let t := s.look key p 8
    match n, (view t).entry key .read va 1 top table n with
    | m + 1, .next e frame => t.walkTouch view key va e frame m
    | _, _ => t
/-- The tables that translate an address are where the walk can read them. -/
def State.walkReadyBy (s : State) (view : State → State) (d : BitVec 11) (va : Nat) : State :=
  if 2 ^ 48 ≤ va then s else s.walkTouch view (s.keyOf d) va 0 (((s.domainAt d).record.toNat / 2 ^ 64) % 2 ^ 64) 2
def State.walkReady (s : State) (d : BitVec 11) (va : Nat) : State := s.walkReadyBy id d va
/-- `walkReady` for the address that MemAddr forms (R206). -/
def State.walkFor (s : State) (r : GReg) (off : Int) : State :=
  match capAddr r off 1 1 { r := false, w := false, sc := false } with
  | .at_ a => s.walkReadyBy State.ahead s.me.dom a
  | .bad .. => s

/-! ## Virtual accesses of the machine's agents -/

/-- Read bytes at a virtual address; the fault of the first page that refuses. -/
def State.vread (s : State) (d : BitVec 11) (va : Nat) : Nat → List Byte × Option (BitVec 8) × State
  | 0 => ([], none, s)
  | n + 1 =>
    let s := s.walkReady d va
    match s.translate d va 1 .read with
    | .bad c => ([], some c, s)
    | .ok p =>
      let r := (s.touch (s.keyOf d) p).readPlace (s.keyOf d) p 1
      let q := r.2.vread d (va + 1) n
      (BitVec.ofNat 8 r.1 :: q.1, q.2.1, q.2.2)
/-- The value of `n` bytes of one page at a virtual address, where `vready` has been; 0 where translation refuses. -/
def State.vget (s : State) (d : BitVec 11) (va n : Nat) : Nat :=
  match s.translate d va 1 .read with
  | .ok p => s.bytesAt (s.keyOf d) p n
  | .bad _ => 0
/-- The same of bytes that may cross a page. -/
def State.vgetAcross (s : State) (d : BitVec 11) (va : Nat) : Nat → Nat
  | 0 => 0
  | n + 1 => s.vget d va 1 + 256 * s.vgetAcross d (va + 1) n
/-- Bytes from an address in the aligned 8-byte units they meet: each unit is one event (R188). -/
def unitsFrom (a : Nat) : List Byte → List (Nat × List Byte)
  | [] => []
  | b :: r =>
    match unitsFrom (a + 1) r with
    | [] => [(a, [b])]
    | u :: l => if u.1 / 8 = a / 8 then (a, b :: u.2) :: l else (a, [b]) :: u :: l
def State.vwriteUnits (s : State) (d : BitVec 11) (end_ : Nat) : List (Nat × List Byte) → State × Option (BitVec 8) × Nat
  | [] => (s, none, end_)
  | u :: r =>
    let s := s.walkReady d u.1
    match s.translate d u.1 u.2.length .write with
    | .bad c => (s, some c, u.1)
    | .ok p => ((s.touch (s.keyOf d) p).writePlace (s.keyOf d) p u.2.length (leNat u.2) false none).vwriteUnits d end_ r
/-- Write bytes at a virtual address; the bytes before the first fault are written. -/
def State.vwrite (s : State) (d : BitVec 11) (va : Nat) (l : List Byte) : State × Option (BitVec 8) × Nat :=
  s.vwriteUnits d (va + l.length) (unitsFrom va l)
/-- Write an `n`-byte field of a record in HBM. -/
def State.vput (s : State) (d : BitVec 11) (va n v : Nat) : State :=
  let s := s.walkReady d va
  match s.translate d va 1 .write with
  | .ok (.hbm pa) => (s.recall (pa / 64)).writePlace (s.keyOf d) (.hbm pa) n v false none
  | .ok (.peer ..) | .ok (.host ..) | .bad _ => s
/-- The lines of `n` bytes at a virtual address are where the agents that read them by `vget` find them. -/
def State.vready (s : State) (d : BitVec 11) (va n : Nat) : State :=
  (List.range ((va % 64 + n + 63) / 64)).foldl (fun s i =>
    let a := max va (va / 64 * 64 + 64 * i)
    let s := s.walkReady d a
    match s.translate d a 1 .read with
    | .ok p => s.look (s.keyOf d) p (min 64 (va + n - a))
    | .bad _ => s) s
/-- The tables of every page of a range are where the walks of it can read them. -/
def State.walksReady (s : State) (d : BitVec 11) (va n : Nat) : State :=
  if n = 0 then s
  else (List.range ((va + n - 1) / 65536 - va / 65536 + 1)).foldl (fun s i => s.walkReady d (max va ((va / 65536 + i) * 65536))) s

/-! ## Watches and the trace (R410, R411, R418, R419) -/

/-- Watches of a core that an access of `size` bytes at `va` matches (R410). -/
def Core.watches (c : Core) (va size : Nat) : List Nat :=
  (List.range 4).filter fun j =>
    let m := Tab.get 0 c.wm j
    m != 0 && (List.range size).any fun i => ((BitVec.ofNat 48 (va + i)) ^^^ Tab.get 0 c.wa j) &&& m == 0
/-- The watches an access of the running context matches: S is not compared. -/
def State.watchHits (s : State) (va size : Nat) : List Nat := if s.k = 0 then [] else s.me.watches va size

/-- A trace record (R419). -/
def traceRec (type ctx : Nat) (d : BitVec 11) (lcn : W32) (cyc : Nat) (step addr : W64) (payload : List Byte) : List Byte :=
  [BitVec.ofNat 8 type, BitVec.ofNat 8 ctx] ++ natLE 2 d.toNat ++ natLE 4 lcn.toNat ++ natLE 8 cyc ++ natLE 8 step.toNat ++
    natLE 8 addr.toNat ++ (payload ++ List.replicate 32 0).take 32

/-- The header record at buffer offset 0; a write fault stops the trace (R418). -/
def State.traceHead (s : State) (d : BitVec 11) : State :=
  let t := s.domainAt d
  let w := s.vwrite d t.traceBuf.toNat (traceRec 0 0xFF d 0 s.cyc 0 0 (natLE 8 t.traceAt.toNat ++ natLE 4 t.traceLost))
  match w.2.1 with
  | none => w.1
  | some _ => w.1.updDomain d fun t => if t.traceState = 1 then { t with traceState := 0 } else t
def State.traceDrop (s : State) (d : BitVec 11) : State :=
  (s.updDomain d fun t => { t with traceLost := min (t.traceLost + 1) (2 ^ 32 - 1) }).traceHead d

/-- One record of a domain's trace. -/
def State.trace (s : State) (d : BitVec 11) (rec_ : List Byte) : State :=
  let t := s.domainAt d
  if t.traceLen = 0 then s
  else if t.traceState ≠ 1 then s.traceDrop d
  else
    let at_ := if t.traceMode = 0 ∧ t.traceLen.toNat < t.traceAt.toNat + 64 then 64 else t.traceAt.toNat
    if t.traceLen.toNat < at_ + 64 then (s.updDomain d fun t => { t with traceState := 0 }).traceDrop d
    else
      let w := s.vwrite d (t.traceBuf.toNat + at_) rec_
      match w.2.1 with
      | some _ => (w.1.updDomain d fun t => { t with traceState := 0 }).traceDrop d
      | none => (w.1.updDomain d fun t => { t with traceAt := BitVec.ofNat 64 (at_ + 64) }).traceHead d

/-- A stop request for the gang of a core: it stops at its next exchange boundary (R411). -/
def State.stopRequest (s : State) (g : Nat) : State := s.updGang g fun x => { x with stopReq := true }

/-- Type-3 records of the matches of an access (R411, R412). -/
def State.hitRecs (s : State) (n k : Nat) (hits : List Nat) (va : Nat) (ip : W64) (pending : Bool) : List (List Byte) :=
  let c := s.coreAt n
  hits.map fun j => traceRec 3 k c.dom c.proc.lcn s.cyc c.proc.superstep ip
    (natLE 8 va ++ [BitVec.ofNat 8 j, if pending then 1 else 0])

/-- The pending hit of the word at `ip` (R412). -/
def State.pendAt (s : State) (n k : Nat) (ip : W64) (h : PendHit) : Bool :=
  let c := s.coreAt n
  h.domain == c.dom && h.lcn == c.proc.lcn && h.ctx == k && h.ip == ip
def State.dropPend (s : State) (n k : Nat) (ip : W64) : State := { s with hits := s.hits.filter fun h => !s.pendAt n k ip h }
def State.pendOf (s : State) (n k : Nat) (ip : W64) : Option PendHit := s.hits.find? (s.pendAt n k ip)
/-- Records of hits in an armed domain, and the stop they ask for (R411). -/
def State.reportHits (s : State) (n : Nat) (recs : List (List Byte)) : State :=
  let c := s.coreAt n
  if recs.isEmpty || !(s.domainAt c.dom).armed then s
  else (recs.foldl (fun t r => t.trace c.dom r) s).stopRequest c.proc.gang

/-- An access has completed: its matches are recorded (R411), and the pending hit of its word with them, which it settles, matches or
not (R412). -/
def State.recordHits (s : State) (n k : Nat) (hits : List Nat) (va : Nat) (ip : W64) : State :=
  let old := s.pendOf n k ip
  let recs := if hits.isEmpty then (old.map fun h => h.recs).getD [] else s.hitRecs n k hits va ip old.isSome
  (if old.isSome then s.dropPend n k ip else s).reportHits n recs
/-- A word that matches and then traps keeps its match (R412). -/
def State.keepHits (s : State) (n k : Nat) (hits : List Nat) (va : Nat) (ip : W64) : State :=
  if hits.isEmpty then s
  else
    let c := s.coreAt n
    let p : PendHit := { domain := c.dom, lcn := c.proc.lcn, ctx := k, ip := ip, recs := s.hitRecs n k hits va ip true }
    let t := s.dropPend n k ip
    { t with hits := p :: t.hits }

/-- A trap of MemAddr, with the pending hit it leaves. -/
def memTrap (s : State) (size : Nat) (cause : BitVec 8) (val : W64) (formed : Option Nat) : Eff :=
  match formed with
  | none => .trap cause val
  | some a => .trapIn (s.keepHits s.core s.k (s.watchHits a size) a s.cx.pc) cause val
/-- A trap of a memory word after its address was formed. -/
def formedTrap (s : State) (size va : Nat) (cause : BitVec 8) (val : W64) : Eff :=
  memTrap s size cause val (some va)

end Sys2Proof.Machine
end

