-- ==== Sys2Proof/Machine/Access.lean ====
section
/-! DEFINITION. The MEM and FENCE classes (R209 to R213) with LOAD_RESPONSE and POSTED_WRITE_PERFORM: loads, the store queue, prefetch and fences. -/

namespace Sys2Proof.Machine

def memSize : MemFmt → Nat
  | .cap => 16
  | .int f => IFmt.width f / 8

/-- A fresh memory operation of the running context. -/
def State.memOp (s : State) (kind : MemKind) (va : Nat) (p : Place) (size : Nat) (sc : Scope) : MemOp :=
  { id := s.ids, ctx := s.k, kind := kind, va := va, place := p, size := size, policy := .home, scope := sc, d := 0, set := 0,
    data := 0, tag := false, compare := 0, seq := 0, rearm := none, performed := false, result := 0, flags := 0, status := 0,
    hits := s.watchHits va size, ip := s.cx.pc, po := [s.k], after := s.me.poOpen s.k, past := s.pastOf (.ctx s.core s.k),
    refused := false, asked := false }

/-! ## Loads (R210, R211) -/

def load (s : State) (c : Ctl) (f : MemFmt) (pol : Policy) (sc : Scope) (d w : BitVec 6) (off : Int) : Eff :=
  let s := s.walkFor (s.gReg w) off
  let r := s.gReg w
  let n := memSize f
  match s.memAddr r off n n needR with
  | .bad cause val formed => memTrap s n cause val formed
  | .ok va p =>
    if s.leak d then formedTrap s n va cENDLEAK (d.setWidth 64)
    else
      let op := { s.memOp (.load f (capLC r.bits)) va p n sc with policy := pol, d := d, set := c.set }
      let t := { s with ids := s.ids + 1 }
      .wait (.result s.ids)
        ((t.updMe fun x => { x with flight := x.flight ++ [op] }).later (.loadResponse s.core s.k))

def execLd (c : Ctl) (f : MemFmt) (p : Policy) (d w : BitVec 6) (off : SrcZ) (s : State) : Host.Outcome State Fault Refusal :=
  issue c fFarLate s fun s => load s c f p .dev d w (s.offZ off)
def execLdacq (c : Ctl) (sc : Scope) (f : MemFmt) (p : Policy) (d w : BitVec 6) (off : SrcZ) (s : State) :
    Host.Outcome State Fault Refusal :=
  issue c fFarLate s fun s => load s c f p sc d w (s.offZ off)

/-- One of these posted operations is a write that has not performed. -/
def Core.postedBefore (c : Core) (after : List Nat) : Bool := c.storeq.any fun o => after.contains o.id && o.ordered
/-- One of these posted operations, REDs included, has not performed. -/
def Core.postedAny (c : Core) (after : List Nat) : Bool := c.storeq.any fun o => after.contains o.id && !o.performed
/-- One of them is not acknowledged yet (R273). -/
def Core.postedOpen (c : Core) (after : List Nat) : Bool := c.storeq.any fun o => after.contains o.id
/-- An operation that comes before this one in program order must perform first: a posted write (R192), or a RED of the same
bytes (R191, R194). -/
def Core.opBlocked (c : Core) (o : MemOp) : Bool :=
  c.postedBefore o.after || c.storeq.any fun p =>
    o.after.contains p.id && !p.performed && placeMeets p.place p.size o.place o.size

/-- The register value of a load's bytes (R210). -/
def loadValue (f : MemFmt) (lc : Bool) (tag : Bool) (v : Nat) : GReg :=
  match f with
  | .cap => { bits := BitVec.ofNat 128 v, tag := tag && lc, endst := 0 }
  | .int f => GReg.data (extInt f v)

/-- Cache misses of an access to memory, in the L1 and at the home slice: whether there is one is not fixed by the spec (R370). -/
def State.missCount (s : State) (n : Nat) : State :=
  let a := if Config.freeBit s.fresh then s.count n 5 else s
  let b := if Config.freeBit (s.fresh + 1) then a.count n 6 else a
  { s with cores := b.cores, due := b.due, fresh := s.fresh + 2 }

def MemOp.isLoad (o : MemOp) : Bool :=
  match o.kind with
  | .load .. => true
  | .store | .amo .. | .cas _ | .red .. | .fset | .fclr => false
/-- A load of a context under way. -/
def MemOp.isLoadOf (o : MemOp) (ctx : Nat) : Bool := o.ctx == ctx && o.isLoad
/-- The load's bytes are here: they land, and its context goes on. -/
def State.loadReturn (s : State) (core ctx : Nat) (o : MemOp) (v : Nat) (tag : Bool) : State :=
  let v := match o.kind with
    | .load f lc => loadValue f lc tag v
    | .store | .amo .. | .cas _ | .red .. | .fset | .fclr => GReg.zero
  let t := (s.readPast o.place o.size (.ctx core ctx)).updCore core fun x => { x with flight := x.flight.filter fun y => y.id != o.id }
  let t := (t.landNow core ctx [.g o.d v] 0 (some o.set)).recordHits core ctx o.hits o.va o.ip
  (t.missCount core).resume core ctx
/-- A load that may be performed reads its place; of a peer device the bytes are asked for (R269). -/
def State.performLoad (s : State) (core ctx : Nat) (o : MemOp) : State :=
  let s := if o.scope = Scope.sys then (s.drain 0).drain 1 else s
  let key := s.keyOf (s.coreAt core).dom
  match o.place with
  | .peer d pa =>
    if o.asked then s
    else (s.askPeer key d (.peerLoad d pa o.size)).updCore core fun c =>
      { c with flight := c.flight.map fun x => if x.id = o.id then { x with asked := true } else x }
  | .hbm pa =>
    let s := if o.policy = Policy.home then s else s.engineLine (pa / 64)
    let r := s.readPlace key o.place o.size
    r.2.loadReturn core ctx o r.1 (r.2.tagOf key o.place)
  | .host .. =>
    let r := s.readPlace key o.place o.size
    r.2.loadReturn core ctx o r.1 (r.2.tagOf key o.place)
/-- The completion of a load that a peer device was asked for: what it answers, tag and bytes, is that device's to say. -/
def State.peerLoaded (s : State) (core ctx : Nat) : State :=
  match (s.coreAt core).flight.find? fun o => o.isLoadOf ctx && o.asked with
  | none => s
  | some o =>
    let r := s.peerBytes o.place.pa o.size
    r.2.loadReturn core ctx o r.1 (r.2.tagOf 0 o.place)
/-- The core that a response is for, and whether a peer device sends it: then the number is 4,096 higher (R269). -/
def answerCore (core : Nat) : Nat × Bool := if core < Config.coreCount then (core, false) else (core - Config.coreCount, true)
/-- LOAD_RESPONSE. -/
def execLoadResponse (core ctx : Nat) (s : State) : Host.Outcome State Fault Refusal :=
  onCore (answerCore core).1 s fun s =>
    if (answerCore core).2 then s.peerLoaded (answerCore core).1 ctx
    else
      match (s.coreAt core).flight.find? fun o => o.isLoadOf ctx with
      | none => s
      | some o =>
        if (s.coreAt core).opBlocked o then s.later (.loadResponse core ctx)
        else if s.hostHolds o.place then (s.askBack o.place).later (.loadResponse core ctx)
        else s.performLoad core ctx o

/-! ## Stores (R210, R211) -/

/-- A posted operation enters the store queue. -/
def post (s : State) (o : MemOp) (ev : Instr) : State :=
  let t := { s with ids := s.ids + 1 }
  let t := t.updMe fun x => { x with storeq := x.storeq ++ [o] }
  (t.recordHits s.core s.k o.hits o.va o.ip).later ev

def store (s : State) (f : MemFmt) (pol : Policy) (sc : Scope) (src w : BitVec 6) (off : Int) : Eff :=
  let s := s.walkFor (s.gReg w) off
  let v := s.gReg src
  let n := memSize f
  let tagged := decide (f = .cap) && v.tag
  match s.memAddr (s.gReg w) off n n { needW with sc := tagged } with
  | .bad cause val formed => memTrap s n cause val formed
  | .ok va p =>
    if tagged && capKind v.bits == 3 then formedTrap s n va cCAPTAG 3
    else if Config.storeSlots ≤ s.me.storeq.length then .hold
    else
      let o := { s.memOp .store va p n sc with policy := pol, data := v.bits, tag := tagged }
      .done (post s o (.postedWritePerform s.core s.ids))

def execSt (c : Ctl) (f : MemFmt) (p : Policy) (r w : BitVec 6) (off : SrcZ) (s : State) : Host.Outcome State Fault Refusal :=
  issue c fFar s fun s => store s f p .dev r w (s.offZ off)
def execStrel (c : Ctl) (sc : Scope) (f : MemFmt) (p : Policy) (r w : BitVec 6) (off : SrcZ) (s : State) :
    Host.Outcome State Fault Refusal :=
  issue c fFar s fun s => store s f p sc r w (s.offZ off)

/-- One posted write performs; a `.sys` release takes its context's earlier writes with it (R202, R211, R273). -/
def State.performPosted (s : State) (core : Nat) (o : MemOp) : State :=
  let s := if o.scope = Scope.sys then s.engineCtx core o.ctx else s
  let key := s.keyOf (s.coreAt core).dom
  let home := match o.kind, o.policy with
    | .store, .home => some (core, o.po)
    | _, _ => none
  let t := (s.writePast o.place o.size o.past).writePlace key o.place o.size (postedValue o) o.tag home
  (t.updCore core fun x => { x with storeq := x.storeq.filter fun y => y.id != o.id }).missCount core

def execPostedWritePerform (core id : Nat) (s : State) : Host.Outcome State Fault Refusal :=
  onCore core s fun s =>
    let c := s.coreAt core
    match c.storeq.find? fun o => o.id == id with
    | none => s
    | some o =>
      if c.opBlocked o || (o.scope == Scope.sys && c.postedOpen o.after) || s.redHolds o.past o.place o.size then
        s.later (.postedWritePerform core id)
      else if s.hostHolds o.place then (s.askBack o.place).later (.postedWritePerform core id)
      else s.performPosted core o

/-! ## Prefetch (R212) -/

def execPref (c : Ctl) (_p : Policy) (w : BitVec 6) (off : SrcZ) (s : State) : Host.Outcome State Fault Refusal :=
  issue c fFar s fun s =>
    let s := s.walkFor (s.gReg w) (s.offZ off)
    match s.memAddr (s.gReg w) (s.offZ off) 1 1 needR with
    | .bad .. => .done s
    | .ok _ p =>
      match p with
      | .host h pa => .done (s.getLine (s.keyOf s.me.dom) h (pa / 64) false).2
      | .hbm _ | .peer .. => .done s

/-! ## Fences (R213) -/

/-- Every RED that comes before the context's next event in program order is acknowledged: its flags are in `fflags` (R218). -/
def State.redsDone (s : State) (n k : Nat) : Bool := !(s.coreAt n).storeq.any fun o => o.po.contains k && match o.kind with
  | .red .. => true
  | .store | .load .. | .amo .. | .cas _ | .fset | .fclr => false
/-- Every posted operation that comes before that event has performed, and its REDs are acknowledged (R213, R218, R293, R306). -/
def State.drained (s : State) (n k : Nat) : Bool := ((s.coreAt n).poIds k).isEmpty && s.redsDone n k

/-- What a fence waits for holds. -/
def State.fenceMet (s : State) (n k : Nat) : Fence → Bool
  | .full sys => s.drained n k && !(sys && (s.coreAt n).storeq.any fun o => o.po.contains k)
  | .red => s.redsDone n k
  | .eng => !(s.coreAt n).postedBefore ((s.coreAt n).poIds k)
/-- The fence is over: the engine points of earlier `.home` writes, and at `.sys` the snoops (R202, R213). -/
def State.endFence (s : State) (n k : Nat) : Fence → State
  | .full sys =>
    let t := s.engineCtx n k
    if sys then (t.drain 0).drain 1 else t
  | .red => s
  | .eng => s.engineCtx n k
/-- A fence that a context has issued ends, if it can. -/
def State.tryFence (s : State) (n k : Nat) : State :=
  match (s.ctxAt n k).fence with
  | none => s
  | some f => if s.fenceMet n k f then (s.endFence n k f).updCtx n k fun x => { x with fence := none } else s
/-- A fence issues, and holds the context's next issue until it is over. -/
def fence (s : State) (f : Fence) : Eff := .done ((s.updCx fun x => { x with fence := some f }).tryFence s.core s.k)

def execFence (c : Ctl) (sc : Scope) (s : State) : Host.Outcome State Fault Refusal :=
  issue c fPlain s fun s => fence s (.full (decide (sc = Scope.sys)))
def execFenceRed (c : Ctl) (_sc : Scope) (s : State) : Host.Outcome State Fault Refusal := issue c fPlain s fun s => fence s .red
def execFenceEng (c : Ctl) (s : State) : Host.Outcome State Fault Refusal := issue c fPlain s fun s => fence s .eng

/-- A line leaves a core's L1: its writes reach their engine points (R196). -/
def execL1Eviction (core : Nat) (line : BitVec 46) (s : State) : Host.Outcome State Fault Refusal :=
  onCore core s fun s => { s with late := s.late.filter fun l => !(l.core == core && l.pa / 64 == line.toNat) }

end Sys2Proof.Machine
end

