-- ==== Sys2Proof/Machine/Atomic.lean ====
section
/-! DEFINITION. The AMO and SYNC classes (R214 to R225) with the steps at the home Kiosk, the refusals of a peer or host
(R393), the retry latch and its result entries (R392, R394, R395), RETARM (R408) and the polls of waits (R221). -/

namespace Sys2Proof.Machine

def afmtBytes : AFmt → Nat
  | .i64 | .n64 => 8
  | .i32 | .n32 | .f32 => 4
  | .f16 | .bf16 => 2
def afmtFlt : AFmt → Option FFmt
  | .f32 => some .f32
  | .f16 => some .f16
  | .bf16 => some .bf16
  | .i32 | .i64 | .n32 | .n64 => none
/-- The integer an operand of an integer format stands for. -/
def afmtVal (f : AFmt) (x : Nat) : Int :=
  match f with
  | .i32 => IFmt.val .i32 x
  | .i64 => IFmt.val .i64 x
  | .n32 | .n64 | .f32 | .f16 | .bf16 => x

/-- `.fmin` and `.fmax` at the Kiosk: as FMIN and FMAX (R216). -/
def kioskMinMax (f : FFmt) (wantMax : Bool) (m v : Nat) : Nat × Flags := fMinMax (fmtOf f) wantMax m v

/-- The new memory value from old `m` and operand `v`, and the flags (R215, R216). -/
def amoOp (f : AFmt) (op : AmoOp) (m v : Nat) : Nat × Flags :=
  let w := 8 * afmtBytes f
  let fl := (afmtFlt f).getD .f32
  match op with
  | .swap => (v, 0)
  | .add => ((m + v) % 2 ^ w, 0)
  | .and => (m &&& v, 0)
  | .or => (m ||| v, 0)
  | .xor => (m ^^^ v, 0)
  | .min => (if afmtVal f v < afmtVal f m then v else m, 0)
  | .max => (if afmtVal f m < afmtVal f v then v else m, 0)
  | .fadd => fAdd (fmtOf fl) { rm := .rn, u := 0 } m v
  | .fmin => kioskMinMax fl false m v
  | .fmax => kioskMinMax fl true m v

/-! ## Issue -/

/-- A trap of an atomic at the core: the latch is loaded with sent 0 and posted 0 (R392). -/
def atomicTrap (s : State) (size : Nat) (operand compare : W64) (cause : BitVec 8) (val : W64) (formed : Option Nat) : Eff :=
  let t := match formed with
    | some a => s.keepHits s.core s.k (s.watchHits a size) a s.cx.pc
    | none => s
  .trapIn (t.updCtx s.core s.k fun x => x.latchTrap s.ir operand compare) cause val

/-- The latch when an operation is sent (R392): the sequence rises first. -/
def Latch.send (l : Latch) (w : BitVec 96) (va : Nat) (p : Place) (operand compare : W64) (posted : Bool) : Latch :=
  { valid := true, sent := true, done := false, posted := posted, seq := l.seq + 1, word := w, addr := BitVec.ofNat 64 p.pa,
    operand := operand, compare := compare, result := 0, place := some p, va := va }

/-- What follows the sending of an operation: it performs later, or the target of a peer or host line gives no answer within
2^24 cycles (R393). -/
def State.sendAtomic (s : State) (core ctx id : Nat) (p : Place) : State :=
  let t := s.later (.kioskAtomicPerform core ctx id)
  if p.isHbm then t else t.atCycle (s.cyc + Config.remoteLimit) (.remoteTimeout core ctx id)

/-- AMO and CAS (R214, R217). -/
def returning (s : State) (c : Ctl) (sc : Scope) (f : AFmt) (kind : MemKind) (d w : BitVec 6) (off : GI) (operand compare : W64) : Eff :=
  let n := afmtBytes f
  let s := s.walkFor (s.gReg w) (s.offGI off)
  if s.cx.latch.valid && s.cx.latch.posted then .hold
  else
    match s.memAddr (s.gReg w) (s.offGI off) n n needRW with
    | .bad cause val formed => atomicTrap s n operand compare cause val formed
    | .ok va p =>
      if s.leak d then atomicTrap s n operand compare cENDLEAK (d.setWidth 64) (some va)
      else
        let l := s.cx.latch.send s.ir va p operand compare false
        let o := { s.memOp kind va p n sc with d := d, set := c.set, data := operand.setWidth 128, compare := compare, seq := l.seq }
        let t := (({ s with ids := s.ids + 1 } : State).updMe fun x => { x with flight := x.flight ++ [o] }).updCtx s.core s.k
          fun x => { x with latch := l }
        .wait (.result s.ids) (t.sendAtomic s.core s.k s.ids p)

/-- The low bits of an operand at a format's width. -/
def afmtBits (f : AFmt) (v : W64) : W64 := BitVec.ofNat 64 (v.toNat % 2 ^ (8 * afmtBytes f))

def execAmo (c : Ctl) (sc : Scope) (f : AFmt) (op : AmoOp) (d w v : BitVec 6) (off : GI) (s : State) : Host.Outcome State Fault Refusal :=
  issue c fFarLate s fun s => returning s c sc f (.amo f op) d w off (afmtBits f (s.readG v)) 0
def execCas (c : Ctl) (sc : Scope) (f : AFmt) (d w e : BitVec 6) (off : GI) (s : State) : Host.Outcome State Fault Refusal :=
  issue c fFarLate s fun s => returning s c sc f (.cas f) d w off (afmtBits f (s.readG d)) (afmtBits f (s.readG e))

/-- A RED is posted; it happens before its context's later events (R203). -/
def postRed (s : State) (o : MemOp) : State :=
  let t := post s o (.kioskAtomicPerform s.core s.k s.ids)
  { t with past := t.past ++ [(o.id, .ctx s.core s.k)] }

/-- RED, FSET and FCLR (R211, R217, R220, R395): posted; towards a peer or host line they occupy the latch. -/
def postedAtomic (s : State) (sc : Scope) (kind : MemKind) (n : Nat) (w : BitVec 6) (off : Int) (operand : W64) : Eff :=
  let busy := s.cx.latch.valid && s.cx.latch.posted
  let s := s.walkFor (s.gReg w) off
  match s.memAddr (s.gReg w) off n n needW with
  | .bad cause val formed => if busy then .hold else atomicTrap s n operand 0 cause val formed
  | .ok va p =>
    if (busy && !p.isHbm) || decide (Config.storeSlots ≤ s.me.storeq.length) then .hold
    else
      let l := s.cx.latch.send s.ir va p operand 0 true
      let o := { s.memOp kind va p n sc with data := operand.setWidth 128, policy := .skip, seq := if p.isHbm then 0 else l.seq }
      if p.isHbm then
        match kind with
        | .red .. => .done (postRed s o)
        | .store | .fset | .fclr | .load .. | .amo .. | .cas _ => .done (post s o (.postedWritePerform s.core s.ids))
      else
        let t := (match kind with
          | .red .. => postRed s o
          | .store | .fset | .fclr | .load .. | .amo .. | .cas _ => post s o (.kioskAtomicPerform s.core s.k s.ids)).updCtx s.core s.k fun x => { x with latch := l }
        .done (t.atCycle (s.cyc + Config.remoteLimit) (.remoteTimeout s.core s.k s.ids))

def execRed (c : Ctl) (sc : Scope) (f : AFmt) (op : AmoOp) (w v : BitVec 6) (off : GI) (s : State) : Host.Outcome State Fault Refusal :=
  issue c fFar s fun s => postedAtomic s sc (.red f op) (afmtBytes f) w (s.offGI off) (afmtBits f (s.readG v))
def execFset (c : Ctl) (v w : BitVec 6) (off : SrcZ) (s : State) : Host.Outcome State Fault Refusal :=
  issue c fFar s fun s => postedAtomic s .dev .fset 8 w (s.offZ off) (s.readG v)
def execFclr (c : Ctl) (w : BitVec 6) (off : SrcZ) (s : State) : Host.Outcome State Fault Refusal :=
  issue c fFar s fun s => postedAtomic s .dev .fclr 8 w (s.offZ off) 0

/-! ## At the Kiosk or agent (R193, R217, R394) -/

/-- The agent an operation is sent to: the Kiosks 0 to 3, the coherency agents 4 and 5; 6 stands for a peer's Kiosk, which keeps its
entries there. -/
def placeAgent (p : Place) : Nat :=
  match p with
  | .hbm pa => homeDie pa
  | .host h _ => 4 + agentOf h
  | .peer .. => 6

def KioskResult.isFor (e : KioskResult) (agent : Nat) (d : BitVec 11) (lcn : W32) (ctx : Nat) : Bool :=
  e.agent == agent && e.domain == d && e.lcn == lcn && e.ctx == ctx

/-- `seq` is above an entry's (R394). -/
def seqAbove (seq old : W16) : Bool := let d := (seq - old).toNat; decide (1 ≤ d) && decide (d ≤ 2 ^ 15 - 1)

/-- Whether an operation is kept exactly once by a sequence: all but REDs, FSETs and FCLRs to this device's HBM that go out at their
issue; RETARM sends those under a sequence too (R392, R394, R408). -/
def MemOp.sequenced (o : MemOp) : Bool :=
  match o.kind with
  | .amo .. | .cas _ => true
  | .red .. | .fset | .fclr => !o.place.isHbm || o.rearm.isSome
  | .load .. | .store => false

/-- The context whose program order an operation stands in. -/
def MemOp.poCtx (o : MemOp) : Nat := o.rearm.getD o.ctx
/-- REDs that happen before the writes of these bytes (R203). -/
def State.pastAt (s : State) (p : Place) (n : Nat) : List Nat :=
  if s.past.isEmpty then [] else (List.range n).flatMap fun i => s.pastOf (.byte (p.move i))

/-- What an operation writes where it finds `m`, if it writes, and its flags (R215, R217, R220). -/
def MemOp.effect (o : MemOp) (m : Nat) : Option Nat × Flags :=
  let v := o.data.toNat % 2 ^ (8 * o.size)
  match o.kind with
  | .amo f op | .red f op => let r := amoOp f op m v; (some r.1, r.2)
  | .cas _ => (if m = o.compare.toNat % 2 ^ (8 * o.size) then some v else none, 0)
  | .fset | .fclr | .store | .load .. => (some (postedValue o), 0)
/-- What happens before an atomic event at these bytes: the write it reads, and the atomic events there so far (rf, ao, R203). -/
def State.atomicPast (s : State) (o : MemOp) : List Nat := s.pastAt o.place o.size ++ s.aoPast o.place o.size
/-- The event in happens-before, as far as it reads and writes; and what follows it in its context's program order. -/
def State.atomicEvent (s : State) (o : MemOp) (seen : List Nat) (writes : Bool) : State :=
  let t := s.aoEvent o.place o.size (o.past ++ seen)
  if writes then t.writePast o.place o.size (o.past ++ seen) else t
def State.afterAtomic (s : State) (core : Nat) (o : MemOp) (seen : List Nat) : State :=
  match o.kind with
  | .amo .. | .cas _ => seen.foldl (fun t x => if t.past.contains (x, .ctx core o.poCtx) then t
      else { t with past := t.past ++ [(x, .ctx core o.poCtx)] }) s
  | .red .. => s.forgetRed o.id
  | .fset | .fclr | .store | .load .. => s
/-- One indivisible event at the location, under a key: the new state, the old bits, the flags. -/
def State.performAtomic (s : State) (key core : Nat) (o : MemOp) : State × W64 × Flags :=
  let r := (s.takeLine o.place).readPlaceFor key o.place o.size
  let w := o.effect r.1
  let seen := r.2.atomicPast o
  let t := r.2.atomicEvent o seen w.1.isSome
  let t := match w.1 with
    | some v => t.writePlace key o.place o.size v false none
    | none => t
  (t.afterAtomic core o seen, BitVec.ofNat 64 r.1, w.2)

/-- Replace an operation in the flight list or the store queue of a core. -/
def Core.mapOp (c : Core) (id : Nat) (f : MemOp → MemOp) : Core :=
  { c with flight := c.flight.map fun o => if o.id = id then f o else o
           storeq := c.storeq.map fun o => if o.id = id then f o else o }
def Core.dropOp (c : Core) (id : Nat) : Core :=
  { c with flight := c.flight.filter fun o => o.id != id, storeq := c.storeq.filter fun o => o.id != id }
def Core.findOp (c : Core) (id : Nat) : Option MemOp := (c.flight ++ c.storeq).find? fun o => o.id == id

/-- The agent's result entry for a context (R394): what performs, with the state it leaves; what is returned of before, with `true`. -/
def State.performOnce (s : State) (key : Nat) (d : BitVec 11) (lcn : W32) (ctx core : Nat) (o : MemOp) : State × W64 × Flags × Bool :=
  let agent := placeAgent o.place
  let mine := fun (e : KioskResult) => e.isFor agent d lcn ctx
  match o.sequenced, s.results.find? mine with
  | true, some e =>
    if seqAbove o.seq e.seq then
      let r := s.performAtomic key core o
      ({ r.1 with results := { e with seq := o.seq, result := r.2.1, flags := r.2.2 } :: r.1.results.filter fun e => !mine e }, r.2.1, r.2.2, false)
    else (s, e.result, e.flags, true)
  | true, none =>
    let r := s.performAtomic key core o
    ({ r.1 with results := { agent := agent, domain := d, lcn := lcn, ctx := ctx, seq := o.seq, result := r.2.1, flags := r.2.2 } :: r.1.results },
      r.2.1, r.2.2, false)
  | false, _ => let r := s.performAtomic key core o; (r.1, r.2.1, r.2.2, false)
/-- An operation has been performed at its agent: its result is on its way. -/
def State.performedOp (s : State) (core ctx id : Nat) (r : W64 × Flags × Bool) : State :=
  ((s.updCore core fun c => c.mapOp id fun o =>
    { o with performed := true, result := r.1, flags := r.2.1, status := if r.2.2 then 1 else 0 }).missCount core).later
    (.atomicResponse core ctx id)
/-- An operation on a line of a peer device, as that device is asked for it (R269). -/
def MemOp.peerOp (o : MemOp) : PeerOp :=
  match o.kind with
  | .amo f op | .red f op => .amo f op
  | .cas f => .cas f
  | .fset => .fset
  | .fclr | .store | .load .. => .fclr
/-- An operation reaches its agent, before which nothing of its context is to perform any more; a peer device is asked to perform it. -/
def State.sendOp (s : State) (core ctx : Nat) (o : MemOp) : State :=
  let c := s.coreAt core
  let key := s.keyOf c.dom
  match o.place with
  | .peer d pa =>
    if o.asked then s
    else
      let q : PeerAtomic := { op := o.peerOp, operand := o.data.setWidth 64, compare := o.compare, lcn := c.proc.lcn, ctx := o.poCtx, seq := o.seq }
      (s.askPeer key d (.peerAtomic d pa q)).updCore core fun c => c.mapOp o.id fun o => { o with asked := true }
  | .hbm _ | .host .. =>
    let r := s.performOnce key c.dom c.proc.lcn o.poCtx core o
    r.1.performedOp core ctx o.id r.2

def execKioskAtomicPerform (core ctx id : Nat) (s : State) : Host.Outcome State Fault Refusal :=
  onCore core s fun s =>
    let c := s.coreAt core
    match c.findOp id with
    | none => s
    | some o =>
      if o.performed || o.refused then s
      else if c.opBlocked o || s.redHolds o.past o.place o.size then s.later (.kioskAtomicPerform core ctx id)
      else if s.hostHolds o.place then (s.askBack o.place).later (.kioskAtomicPerform core ctx id)
      else s.sendOp core ctx o

/-! ## RETARM (R408) -/

/-- The end of a RETARM: S's status lands and S goes on. `k` is the context that issued it. -/
def State.endRetarm (s : State) (core k : Nat) (d : BitVec 6) (set : BitVec 2) (status : Nat) : State :=
  (s.landNow core k [.g d (GReg.data (BitVec.ofNat 64 status))] 0 (some set)).resume core k

/-- The X register of a latched AMO or CAS. -/
def Latch.dest (l : Latch) : BitVec 6 := l.word.extractLsb' 52 6

/-- A response: the result lands, the flags are ORed, and the latch is settled (R217, R218, R392, R408). -/
def State.atomicReturn (s : State) (core id : Nat) : State :=
    match (s.coreAt core).findOp id with
    | none => s
    | some o =>
      if !o.performed then s
      else
        let t := s.updCore core fun c => c.dropOp id
        match o.rearm with
        | some k =>
          -- what was queued of the same operation is done with it, and so is the report of its refusal
          let t := t.updCore core fun c => { c with storeq := c.storeq.filter fun p => !(p.ctx == k && (p.refused || p.sequenced && p.seq == o.seq)) }
          let t := t.updCtx core k fun x => if x.latch.posted then { x with deferred := none } else x
          let res : List Result := match o.kind with
            | .amo .. | .cas _ => [.g ((t.ctxAt core k).latch.dest) (GReg.data o.result)]
            | .red .. | .fset | .fclr | .store | .load .. => []
          let t := t.landNow core k res o.flags none
          let t := t.updCtx core k fun x => { x with latch := { x.latch with
            done := true, result := o.result, valid := if x.latch.posted then false else x.latch.valid } }
          t.endRetarm core o.ctx o.d o.set o.status
        | none =>
          match o.kind with
          | .amo .. | .cas _ =>
            let t := t.landNow core o.ctx [.g o.d (GReg.data o.result)] o.flags (some o.set)
            let t := t.updCtx core o.ctx fun x => { x with latch := { x.latch with valid := false, result := o.result } }
            let t := t.recordHits core o.ctx o.hits o.va o.ip
            if (t.ctxAt core o.ctx).run = .waiting (.result id) then t.resume core o.ctx else t
          | .red .. | .fset | .fclr | .store | .load .. =>
            (t.landNow core o.ctx [] o.flags none).updCtx core o.ctx fun x =>
              if o.sequenced && x.latch.posted && x.latch.seq == o.seq then { x with latch := { x.latch with valid := false } } else x

/-- A peer device has performed an operation (R269): the bits it replaced are that device's to say, and the flags follow from them; so is
whether a re-armed operation had been performed before (R394). -/
def State.peerPerformed (s : State) (core id : Nat) : State :=
  match (s.coreAt core).findOp id with
  | none => s
  | some o =>
    if o.performed || o.refused || !o.asked then s
    else
      let r := s.peerBytes o.place.pa o.size
      let w := o.effect r.1
      let seen := r.2.atomicPast o
      let t := (r.2.atomicEvent o seen w.1.isSome).afterAtomic core o seen
      let again := o.rearm.isSome && Config.freeBit t.fresh
      ({ t with fresh := t.fresh + 1 } : State).updCore core fun c => c.mapOp id fun o =>
        { o with performed := true, result := BitVec.ofNat 64 r.1, flags := w.2, status := if again then 1 else 0 }
/-- ATOMIC_RESPONSE. A core of 4,096 or more: the completion of a peer device, for the core 4,096 below (R269). -/
def execAtomicResponse (core _ctx id : Nat) (s : State) : Host.Outcome State Fault Refusal :=
  let n := (answerCore core).1
  onCore n s fun s => (if (answerCore core).2 then s.peerPerformed n id else s).atomicReturn n id

/-- A word of a context whose effect is still to come waits for an operation that has been refused: it is taken back, and issues again
after the report at its boundary (R395, notes/assumptions/84.md). -/
def State.backOut (s : State) (n k id : Nat) : State :=
  let again := fun (t : State) (set : BitVec 2) => t.updCtx n k fun x => { x.sbDown set with run := .ready }
  match (s.ctxAt n k).run with
  | .waiting (.result i) =>
    match (s.coreAt n).flight.find? fun o => o.id == i && o.after.contains id && o.isLoad with
    | some o => again (s.updCore n fun c => { c with flight := c.flight.filter fun x => x.id != i }) o.set
    | none =>
      match s.replies.find? fun r => r.id == i && r.call.isSome && r.after.contains id with
      | some r => again { s with replies := s.replies.filter fun x => x.id != i } r.set
      | none => s
  | .waiting (.sync i) =>
    match s.syncs.find? fun w => w.id == i && w.poll == some 0 && w.after.contains id with
    | some w => again { s with syncs := s.syncs.filter fun x => x.id != i } w.set
    | none => s
  | .waiting _ | .dead | .ready | .parked | .stopped => s
/-- Refused posted operations of a core are given up: their context has ended, or its process ends, or the latch keeps them over a
save (R385, R392). -/
def State.dropRefused (s : State) (n : Nat) : State := s.updCore n fun c => { c with storeq := c.storeq.filter fun o => !o.refused }

/-- A refusal before performing (R393, R395). -/
def State.refuse (s : State) (core id : Nat) (cause : BitVec 8) : State :=
  match (s.coreAt core).findOp id with
  | none => s
  | some o =>
    if o.performed || o.refused || o.place.isHbm then s
    else
      let val : W64 := BitVec.ofNat 64 (2 ^ 63 + o.va % 2 ^ 48)
      match o.rearm with
      | some k =>
        let t := (s.updCore core fun c => c.dropOp id).updCtx core k fun x =>
          { x with latch := { x.latch with sent := false }, trap := { x.trap with cause := cause, val := val } }
        t.endRetarm core o.ctx o.d o.set 3
      | none =>
        let t := s.updCtx core o.ctx fun x => { x with latch := { x.latch with sent := false } }
        match o.kind with
        | .amo .. | .cas _ =>
          let t := t.updCore core fun c => c.dropOp id
          if (t.ctxAt core o.ctx).run = .waiting (.result id) then
            ((t.updCtx core o.ctx fun x => x.sbDown o.set).keepHits core o.ctx o.hits o.va o.ip).takeTrap core o.ctx
              { cause := cause, val := val } o.ip
          else t
        | .red .. | .fset | .fclr | .store | .load .. =>
          let t := t.updCore core fun c => c.mapOp id fun o => { o with refused := true }
          if (t.ctxAt core o.ctx).run = .dead then t.dropRefused core
          else (t.updCtx core o.ctx fun x => { x with deferred := some (cause, val) }).backOut core o.ctx id

/-- KIOSK_REFUSAL. A core of 4,096 or more: a peer device refuses, for the core 4,096 below. -/
def execKioskRefusal (core _ctx id : Nat) (why : RefuseWhy) (s : State) : Host.Outcome State Fault Refusal :=
  let n := (answerCore core).1
  onCore n s fun s => s.refuse n id (if why = .pageAway then cPFAULT else cPROT)
def execRemoteTimeout (core _ctx id : Nat) (s : State) : Host.Outcome State Fault Refusal :=
  onCore core s fun s => s.refuse core id cPROT

/-- A latched word as an operation of context `k`: its kind, capability register, offset and operands (R408). -/
structure Rearm where
  kind : MemKind
  scope : Scope
  size : Nat
  cap : BitVec 6
  off : Int
  need : Need
  operand : W64
  compare : W64
  dest : Option (BitVec 6)
deriving DecidableEq, Repr

def Ctx.giOf (x : Ctx) : GI → Int
  | .g n => (x.readG n).toInt
  | .small v => v.toInt
def Ctx.zOf (x : Ctx) : SrcZ → Int
  | .imm z => z.toInt
  | .g n => (x.readG n).toInt
  | .small v => v.toInt

def Ctx.rearm (x : Ctx) : Instr → Option Rearm
  | .amo _ sc f op d w v off => some
    { kind := .amo f op, scope := sc, size := afmtBytes f, cap := w, off := x.giOf off, need := needRW,
      operand := afmtBits f (x.readG v), compare := 0, dest := some d }
  | .cas _ sc f d w e off => some
    { kind := .cas f, scope := sc, size := afmtBytes f, cap := w, off := x.giOf off, need := needRW,
      operand := afmtBits f (x.readG d), compare := afmtBits f (x.readG e), dest := some d }
  | .red _ sc f op w v off => some
    { kind := .red f op, scope := sc, size := afmtBytes f, cap := w, off := x.giOf off, need := needW,
      operand := afmtBits f (x.readG v), compare := 0, dest := none }
  | .fset _ v w off => some
    { kind := .fset, scope := .dev, size := 8, cap := w, off := x.zOf off, need := needW, operand := x.readG v, compare := 0,
      dest := none }
  | .fclr _ w off => some
    { kind := .fclr, scope := .dev, size := 8, cap := w, off := x.zOf off, need := needW, operand := 0, compare := 0, dest := none }
  | _ => none

/-- Send a latched operation for context `k` (R408). -/
def State.sendRearm (s : State) (c : Ctl) (d : BitVec 6) (k va : Nat) (p : Place) (q : Rearm) : Eff :=
  let l := (s.me.ctx k).latch
  let old := s.me.storeq.find? fun o => o.ctx == k && o.seq == l.seq && o.sequenced || o.ctx == k && o.refused
  let after := match old with
    | some o => o.after
    | none => s.me.poIds k
  let past := match old with
    | some o => o.past
    | none => s.pastOf (.ctx s.core k)
  let o := { s.memOp q.kind va p q.size q.scope with
             d := d, set := c.set, data := l.operand.setWidth 128, compare := l.compare, seq := l.seq, rearm := some k,
             hits := [], policy := .skip, po := [k], after := after, past := past }
  let t := ({ s with ids := s.ids + 1 } : State).updMe fun x => { x with flight := x.flight ++ [o] }
  .wait (.result s.ids) (t.sendAtomic s.core s.k s.ids p)

/-- The place of an address already translated (R392: the latch holds the physical address): an operation sent before the
context parked. -/
def State.latchPlace (s : State) (k : Nat) (q : Rearm) : MAddr :=
  s.memAddr ((s.me.ctx k).gReg q.cap) q.off q.size q.size q.need

def execRetarm (c : Ctl) (d : BitVec 6) (ctx : BitVec 4) (s : State) : Host.Outcome State Fault Refusal :=
  issue c fLate s fun s =>
    let k := ctx.toNat
    let x := s.me.ctx k
    if s.k ≠ 0 then .trap cPROT 0
    else if s.leak d then leakTrap d
    else if x.run ≠ .parked ∨ x.latch.valid = false then
      .wait (.result s.ids) (s.reply s.core s.k [.g d (GReg.data 2)] c.set [] 0 0)
    else
      match decodeWord x.latch.word with
      | .illegal _ => .wait (.result s.ids) (s.reply s.core s.k [.g d (GReg.data 2)] c.set [] 0 0)
      | .ok i =>
        match x.rearm i with
        | none => .wait (.result s.ids) (s.reply s.core s.k [.g d (GReg.data 2)] c.set [] 0 0)
        | some q =>
          if x.latch.sent then
            s.sendRearm c d k x.latch.va (x.latch.place.getD (.hbm x.latch.addr.toNat)) q
          else
            let fail := fun (cause : BitVec 8) (val : W64) =>
              Eff.wait (.result s.ids) ((s.updCtx s.core k fun x => { x with trap := { x.trap with cause := cause, val := val } }).reply
                s.core s.k [.g d (GReg.data 3)] c.set [] 0 0)
            match s.latchPlace k q with
            | .bad cause val _ => fail cause val
            | .ok va p =>
              match q.dest with
              | some r =>
                if (x.gReg r).isEnd then fail cENDLEAK (r.setWidth 64)
                else
                  let t := s.updCtx s.core k fun x => { x with latch :=
                    { x.latch.send x.latch.word va p q.operand q.compare x.latch.posted with result := x.latch.result } }
                  t.sendRearm c d k va p q
              | none =>
                let t := s.updCtx s.core k fun x => { x with latch := x.latch.send x.latch.word va p q.operand q.compare x.latch.posted }
                t.sendRearm c d k va p q

/-! ## Waits (R220 to R224) -/

/-- Waits enrolled at the Kiosk of a die. -/
def State.enrolled (s : State) (die : Nat) : Nat :=
  (s.syncs.filter fun w => w.poll == none && homeDie w.place.pa == die).length
/-- An enrolment finds a free entry of the home Kiosk. A peer's or a host's line is polled. -/
def State.entryFree (s : State) (p : Place) : Bool := p.isHbm && decide (s.enrolled (homeDie p.pa) < Config.waitEntries)

/-- A wait reads its location, SWAIT with a host's line in M (R271). -/
def State.waitRead (s : State) (w : SyncWait) : Nat × State :=
  let t := s.takeLine w.place
  let key := t.keyOf (t.coreAt w.core).dom
  if w.cond.isSome then t.readPlaceFor key w.place (waitSize w) else t.readPlace key w.place (waitSize w)
/-- The first read of a wait, or a poll: it ends the wait, enrols it, or polls again. -/
def State.tryWait (s : State) (w : SyncWait) : State :=
  let r := s.waitRead w
  let q := waitTest w r.1
  let t := { r.2 with syncs := r.2.syncs.filter fun x => x.id != w.id }
  if q.1 || w.ending then t.endWait w q.2
  else if t.entryFree w.place && w.poll == some 0 then
    ({ t with syncs := t.syncs ++ [{ w with poll := none }] } : State).updCtx w.core w.ctx fun x => { x with run := .waiting (.sync w.id) }
  else
    let n := match w.poll with
      | some 0 | none => 64
      | some m => min (2 * m) 65536
    (({ t with syncs := t.syncs ++ [{ w with poll := some n }] } : State).updCtx w.core w.ctx fun x =>
      { x with run := .waiting (.sync w.id) }).atCycle (t.cyc + n) (.waitPoll w.core w.ctx)

/-- A wait's first read comes after the context's earlier posted writes, and its earlier REDs of the same bytes (R191, R192). -/
def State.waitBlocked (s : State) (core : Nat) (w : SyncWait) : Bool :=
  let c := s.coreAt core
  c.postedBefore w.after || c.storeq.any fun p =>
    w.after.contains p.id && !p.performed && placeMeets p.place p.size w.place (waitSize w)

def syncWait (s : State) (c : Ctl) (n : Nat) (cond : Option (WFmt × Rel × W64)) (d w : BitVec 6) (off : Int) : Eff :=
  let s := s.walkFor (s.gReg w) off
  match s.memAddr (s.gReg w) off n n needR with
  | .bad cause val formed => memTrap s n cause val formed
  | .ok va p =>
    if s.leak d then formedTrap s n va cENDLEAK (d.setWidth 64)
    else
      let y : SyncWait := { id := s.ids, core := s.core, ctx := s.k, place := p, va := va, cond := cond, d := d, set := c.set,
                            poll := some 0, hits := s.watchHits va n, ip := s.cx.pc, after := s.me.poIds s.k, ending := false }
      let t := { s with ids := s.ids + 1 }
      if s.waitBlocked s.core y || s.hostHolds p then
        .wait (.sync s.ids) (({ t with syncs := t.syncs ++ [y] } : State).later (.waitPoll s.core s.k))
      else
        let u := t.tryWait y
        match (u.ctxAt s.core s.k).run with
        | .waiting w => .wait w u
        | .dead | .ready | .parked | .stopped => .wait (.sync s.ids) u

def execSwait (c : Ctl) (f : WFmt) (r : Rel) (d w v : BitVec 6) (off : GI) (s : State) : Host.Outcome State Fault Refusal :=
  issue c fFarYieldLate s fun s =>
    syncWait s c (match f with | .i32 | .n32 => 4 | .i64 | .n64 => 8) (some (f, r, s.readG v)) d w (s.offGI off)
def execFwait (c : Ctl) (d w : BitVec 6) (off : SrcZ) (s : State) : Host.Outcome State Fault Refusal :=
  issue c fFarYieldLate s fun s => syncWait s c 8 none d w (s.offZ off)

def execWaitPoll (core ctx : Nat) (s : State) : Host.Outcome State Fault Refusal :=
  onCore core s fun s =>
    match s.syncs.find? fun w => w.core == core && w.ctx == ctx && w.poll.isSome with
    | none => s
    | some w =>
      if s.waitBlocked core w then s.later (.waitPoll core ctx)
      else if s.hostHolds w.place then (s.askBack w.place).later (.waitPoll core ctx)
      else s.tryWait w

/-- The waits of a process end with the value their location holds now (R223). One whose first read is still to come ends with that
read, after the posted writes before it (R192, R211). -/
def State.endWaits (s : State) (core : Nat) : State :=
  (s.syncs.filter fun w => w.core == core).foldl (fun s w =>
    if s.waitBlocked core w then
      { s with syncs := s.syncs.map fun x => if x.id = w.id then { x with ending := true } else x }
    else
      let r := (s.touch (s.keyOf (s.coreAt core).dom) w.place).waitRead w
      r.2.endWait w (waitTest w r.1).2) s

end Sys2Proof.Machine
end

