-- ==== Sys2Proof/Machine/Claim.lean ====
section
/-! DEFINITION. Job cards and footprints (R226 to R228), the claims on a core's local store (R144, R164, R169, R178, R295),
and its reads and writes in the order of R143. -/

namespace Sys2Proof.Machine

/-! ## Cards (R226) -/

/-- `n` bytes of a card at an offset, as a number. -/
def cardField (card : List Byte) (off n : Nat) : Nat := leNat ((card.drop off).take n)
def Job.op (j : Job) : Nat := cardField j.card 1 1
def Job.channel (j : Job) : Nat := cardField j.card 2 1
def Job.size (j : Job) : Nat := cardField j.card 4 4
def Job.count (j : Job) : Nat := cardField j.card 24 4

/-- A footprint entry: offset, length, selector. -/
structure Foot where
  off : Nat
  len : Nat
  sel : Nat
deriving DecidableEq, Repr
def footAt (card : List Byte) (f : Nat) : Foot :=
  { off := cardField card (64 + 16 * f) 8, len := cardField card (72 + 16 * f) 4, sel := cardField card (76 + 16 * f) 1 }


/-- The capability a selector names, as its CapBase + cursor and whether it is a local window. -/
def Job.selBase (j : Job) (sl : Nat) : Nat × Bool :=
  if sl = 2 ∧ j.owner.isNone then (j.block, false)
  else
    let r := if sl = 0 then j.src else if sl = 1 then j.dst else j.window
    (capBase r.bits + capCursor r.bits, capKind r.bits == 2)
/-- The used footprint regions of a job: entries 0 to 3 are read, 4 to 7 written. -/
def Job.regions (j : Job) : List Region :=
  (List.range 8).filterMap fun f =>
    let e := footAt j.card f
    if e.len = 0 ∨ 2 < e.sel then none
    else
      let b := j.selBase e.sel
      some { isLocal := b.2, a := b.1 + e.off, n := e.len, write := decide (4 ≤ f) }
def Job.hasLocal (j : Job) : Bool := j.regions.any fun r => r.isLocal
/-- A copy job into the local store, which moves a write pointer (R231). -/
def Job.moves (j : Job) : Bool := j.engine == 0 && capKind j.dst.bits == 2 && j.owner.isSome
/-- First and end local-store offset of such a job's destination. -/
def Job.dstLo (j : Job) : Nat := (j.selBase 1).1 + cardField j.card 16 8
def Job.dstHi (j : Job) : Nat := j.dstLo + j.size
/-- The write pointer of a begun copy job that has written `pos` bytes (R198, R231). -/
def Job.pointer (j : Job) : Nat := if j.pos = j.size then j.dstHi else max j.dstLo ((j.dstLo + j.pos) / 64 * 64)

/-! ## Claims (R144) -/

/-- Whether a job of core `n` claims bytes for an access of the core. -/
def Job.claims (j : Job) (n a len : Nat) (write : Bool) : Bool :=
  (match j.owner with
    | some o => o.core == n
    | none => false) &&
  j.regions.any fun r => r.isLocal && overlaps a len r.a r.n &&
    (if write then true
     else if !r.write then false
     else if j.moves then
       (List.range len).any fun i =>
         let b := a + i
         decide (r.a ≤ b) && decide (b < r.a + r.n) &&
           !(j.begun && (decide ((b / 64 + 1) * 64 ≤ j.pointer) || (decide (j.pos = j.size) && decide (b < j.dstHi))))
     else true)

/-- The bytes of a queued wide access to the local store (R164). -/
def WEntry.touches (e : WEntry) (a len : Nat) : Bool :=
  match e.op with
  | .ldl | .stl | .mstacc _ => overlaps a len e.addr e.len
  | .ldx | .stx => overlaps a len e.lo (e.hi - e.lo)
  | .fbin .. | .ffma _ | .fun1 .. | .ibin .. | .cmp _ | .sel | .mand .. | .mor .. | .mnot _ | .perm | .shuf | .bcast | .extr _ | .ins _
  | .rsum _ | .rmax _ | .rmin _ | .cvt .. | .pxenc .. | .pxdec .. | .mov | .mrdacc .. | .mwracc .. | .skip => false

/-- `LsInterlock`: the claims of agents other than the core. -/
def State.lsClaimed (s : State) (n a len : Nat) (write : Bool) : Bool :=
  let c := s.coreAt n
  (s.jobs.any fun p => p.2.claims n a len write) || (c.proc.fills.any fun f => overlaps a len f.off f.len)
/-- Accesses of the core itself that must be over first: MLOAD, MSTACC, the source of an XCAST (R164, R169, R178, R295). -/
def State.lsBusy (s : State) (n a len : Nat) (write : Bool) : Bool :=
  let c := s.coreAt n
  (c.mloads.any fun m => overlaps a len m.addr m.len) || (c.mstores.any fun m => overlaps a len m.1 m.2.1 && decide (s.cyc < m.2.2)) ||
    (write && match c.xsend with
      | some x => overlaps a len x.addr x.bytes.length && decide (s.cyc < x.readUntil)
      | none => false)
/-- What holds an LDL or STL at issue. -/
def State.lsHeld (s : State) (n a len : Nat) (write : Bool) : Bool :=
  s.lsClaimed n a len write || s.lsBusy n a len write || (s.coreAt n).wq.any fun e => e.touches a len

/-! ## Reads and writes (R143, R144) -/

/-- The byte a pending planned transfer would write at an offset. -/
def Core.pendingByte (c : Core) (a : Nat) : Option Byte :=
  c.xpend.findSome? fun x => if x.dest ≤ a then ((x.bytes[a - x.dest]?).getD none) else none

/-- `n` bytes of a local store; a byte of a pending planned transfer reads as its old or its new value. -/
def State.lsRead (s : State) (core a : Nat) : Nat → List Byte × State
  | 0 => ([], s)
  | n + 1 =>
    let c := s.coreAt core
    let old := Tab.get 0 c.ls a
    match c.pendingByte a with
    | none =>
      let r := s.lsRead core (a + 1) n
      (old :: r.1, r.2)
    | some b =>
      let v := if Config.freeBit s.fresh then b else old
      let r := ({ s with fresh := s.fresh + 1 } : State).lsRead core (a + 1) n
      (v :: r.1, r.2)

/-- A stored byte may stand over the transferred one. -/
def State.lsKeep (s : State) (core a : Nat) : State :=
  match (s.coreAt core).pendingByte a with
  | none => s
  | some _ =>
    let t := { s with fresh := s.fresh + 1 }
    if Config.freeBit s.fresh then
      t.updCore core fun c => { c with xpend := c.xpend.map fun x =>
        if x.dest ≤ a ∧ a < x.dest + x.bytes.length then { x with bytes := x.bytes.set (a - x.dest) none } else x }
    else t
def State.lsWrite (s : State) (core a : Nat) : List Byte → State
  | [] => s
  | b :: r =>
    ((s.updCore core fun c => { c with ls := Tab.set 0 c.ls a b }).lsKeep core a).lsWrite core (a + 1) r

end Sys2Proof.Machine
end

