-- ==== Sys2Proof/Machine/Engine.lean ====
section
/-! DEFINITION. Engine jobs (R226 to R234): cards and their checks, the hazard unit (R197), the performing of a job piece
by piece with its write pointer (R198, R229, R231), and the ENG class. JOB_COMPLETION stands in Node.lean. -/

namespace Sys2Proof.Machine

/-! ## Cards (R226, R227) -/

def stOK : BitVec 8 := 0
def stBADCARD : BitVec 8 := 1
def stFOOTPRINT : BitVec 8 := 2
def stPFAULT : BitVec 8 := 3
def stPROT : BitVec 8 := 4
def stINTEG : BitVec 8 := 5
def stCANCELLED : BitVec 8 := 6
def jobStatus (cause : BitVec 8) : BitVec 8 := if cause = cPFAULT then stPFAULT else if cause = cINTEG then stINTEG else stPROT

/-- The engine a card is charged to: an invalid engine byte is charged to copy. -/
def cardEngine (card : List Byte) : Nat := let e := cardField card 0 1; if e ≤ 2 then e else 0
def cardZero (card : List Byte) (off n : Nat) : Bool := cardField card off n == 0

/-- Every field of the card is one the engines accept; `localDst` and `kind1Dst` speak of the destination (R226, R229). -/
def cardValid (card : List Byte) (localDst kind1Dst : Bool) : Bool :=
  let engine := cardField card 0 1
  let op := cardField card 1 1
  let channel := cardField card 2 1
  let format := cardField card 3 1
  let size := cardField card 4 4
  let count := cardField card 24 4
  (cardZero card 32 32) &&
  ((List.range 8).all fun f => cardZero card (77 + 16 * f) 3 && (cardZero card (72 + 16 * f) 4 || decide (cardField card (76 + 16 * f) 1 ≤ 2))) &&
  match engine with
  | 0 => op == 0 && (if localDst then decide (channel ≤ 3) else channel == 0) && format == 0 && decide (1 ≤ size) &&
      decide (size ≤ 2 ^ 31) && count == 0 && cardZero card 28 4
  | 1 => decide (op ≤ 1) && channel == 0 && format == 0 && decide (4 ≤ size) && decide (size ≤ 4096) && size % 4 == 0 &&
      decide (1 ≤ count) && decide (count ≤ 65536)
  | 2 => decide (op ≤ 2) && channel == 0 && [9, 11, 3, 7].contains format && size == 0 && decide (1 ≤ count) &&
      decide (count ≤ 2 ^ 28) && cardZero card 28 4 && kind1Dst
  | _ => false

/-- The capability a selector names: source, destination, card window. -/
def selCap (sl : Nat) (window src dst : GReg) : GReg := if sl = 0 then src else if sl = 1 then dst else window

/-- The first footprint entry whose issue check fails (R227). -/
def footCheck (card : List Byte) (window src dst : GReg) : Option (BitVec 8 × W64) :=
  (List.range 8).findSome? fun f =>
    let e := footAt card f
    if e.len = 0 ∨ 2 < e.sel then none
    else
      let r := selCap e.sel window src dst
      let a := capBase r.bits + capCursor r.bits + e.off
      if capBase r.bits + capLength r.bits < a + e.len then some (cCAPBND, BitVec.ofNat 64 f)
      else if (f < 4 ∧ capR r.bits = false) ∨ (4 ≤ f ∧ capW r.bits = false) then some (cCAPPERM, BitVec.ofNat 64 f)
      else none

/-- Tag and kind of a source or destination capability. -/
def jobCapCheck (r : GReg) : Option (BitVec 8 × W64) :=
  if !r.tag then some (cCAPTAG, 0)
  else if capKind r.bits = 1 ∨ capKind r.bits = 2 then none
  else some (cCAPTAG, BitVec.ofNat 64 (capKind r.bits))

/-- Cards in the on-die queue of an engine. -/
def State.queued (s : State) (die engine : Nat) : Nat :=
  (s.jobs.filter fun p => p.2.die == die && p.2.engine == engine && !p.2.begun && !p.2.ended && !p.2.chained).length
/-- Cards in the chain area of a domain. -/
def State.chainedIn (s : State) (d : BitVec 11) : Nat := (s.jobs.filter fun p => p.2.domain == d && p.2.chained && !p.2.ended).length
/-- Cards that the domain's chain area holds, at 256 bytes each (notes/assumptions/12.md). -/
def State.chainRoom (s : State) (d : BitVec 11) : Nat :=
  let b : W128 := BitVec.ofNat 128 ((s.domainAt d).record.toNat / 2 ^ 384 % 2 ^ 128)
  capLength b / 256

/-- Two regions of jobs of one domain overlap with a write among them (R197); `n` and `m` are the jobs' cores. -/
def regionHazard (n m : Option Nat) (a b : Region) : Bool :=
  (a.write || b.write) && (a.isLocal == b.isLocal) && overlaps a.a a.n b.a b.n && (!a.isLocal || n == m)
def Job.core (j : Job) : Option Nat := j.owner.map fun o => o.core
/-- What happens before the accesses of an ended job happens before a later job's that conflict with them (R197, R203). -/
def State.afterEnded (s : State) (id : Nat) (j : Job) : State :=
  s.past.foldl (fun t p => match p.2 with
    | .region die d n r => if die = j.die ∧ d = j.domain ∧ j.regions.any (fun b => regionHazard n j.core r b) then t.flow p.2 (.job id) else t
    | .ctx .. | .byte _ | .atom _ | .msg .. | .job _ | .node .. => t) s
/-- A job enters its engine's chain. -/
def State.addJob (s : State) (j : Job) : State :=
  ({ s.afterEnded s.ids j with jobs := Tab.put s.jobs s.ids j, ids := s.ids + 1 } : State).later (.jobBegin s.ids)

def execJob (c : Ctl) (d w gs gt : BitVec 6) (s : State) : Host.Outcome State Fault Refusal :=
  issue c fFarLate s fun s =>
    let g := s.gReg w
    let p := capBase g.bits + capCursor g.bits
    match windowCheck g true false with
    | some (cause, val) => .trap cause val
    | none =>
      if capBase g.bits + capLength g.bits < p + 192 ∨ Config.lsSize < p + 192 then .trap cCAPBND (BitVec.ofNat 64 p)
      else if p % 64 ≠ 0 then .trap cALIGN (BitVec.ofNat 64 p)
      else if s.lsHeld s.core p 192 false then .hold
      else
        let r := s.lsRead s.core p 192
        let card := r.1
        let src := s.gReg gs
        let dst := s.gReg gt
        match ((jobCapCheck src).orElse fun _ => jobCapCheck dst).orElse fun _ => footCheck card g src dst with
        | some (cause, val) => .trap cause val
        | none =>
          if s.leak d then leakTrap d
          else
            let die := dieOf s.core
            let e := cardEngine card
            let chained := decide (Config.cardQueue ≤ s.queued die e)
            if chained && decide (s.chainRoom s.me.dom ≤ s.chainedIn s.me.dom) then .hold
            else
              let t := Tab.get 0 s.me.proc.issued e + 1
              let localDst := capKind dst.bits == 2
              let ok := cardValid card localDst (!localDst)
              let j : Job := { die := die, engine := e, domain := s.me.dom, owner := some { core := s.core, ctx := s.k, gang := s.me.proc.gang },
                               node := none, ticket := t, card := card, window := g, src := src, dst := dst, block := 0, begun := false,
                               pos := 0, status := if ok then stOK else stBADCARD, flags := 0, ended := false, completed := false, cancelled := false,
                               held := !(s.domainAt s.me.dom).holds.isEmpty, after := s.me.poIds s.k, chained := chained }
              let s' := r.2.flow (.ctx s.core s.k) (.job s.ids)
              let u := s'.updProc s.core fun q => { q with issued := Tab.put q.issued e t }
              .done ((u.addJob j).landLate c.set (.g d (GReg.data t)))

/-! ## The hazard unit (R197, R231) -/

def Job.conflicts (j k : Job) : Bool :=
  j.die == k.die && j.domain == k.domain && j.regions.any fun a => k.regions.any fun b => regionHazard j.core k.core a b
/-- The same process issued both jobs. -/
def sameOwner (a b : Option JobOwner) : Bool :=
  match a, b with
  | some a, some b => a.core == b.core && a.gang == b.gang
  | _, _ => false
/-- A valid copy job on a copy channel (R231). -/
def Job.onChannel (j : Job) (ch : Nat) : Bool := j.moves && j.status != stBADCARD && j.channel == ch
/-- An earlier job that `j` must not overtake. -/
def State.jobBlocked (s : State) (id : Nat) (j : Job) : Bool :=
  s.jobs.any fun p => decide (p.1 < id) && !p.2.ended && p.2.status != stBADCARD &&
    (p.2.conflicts j || (j.moves && sameOwner p.2.owner j.owner && p.2.onChannel j.channel))

def State.putJob (s : State) (id : Nat) (j : Job) : State := { s with jobs := Tab.put s.jobs id j }
/-- What happens before a job happens before the accesses of the later jobs that conflict with it, those that stand already and those
to come (R197, R203). -/
def State.foPast (s : State) (id : Nat) (j : Job) : State :=
  match s.pastOf (.job id) with
  | [] => s
  | l =>
    let t := j.regions.foldl (fun t r =>
      let w := Who.region j.die j.domain j.core r
      { t with past := t.past ++ (l.filter fun x => !t.past.contains (x, w)).map fun x => (x, w) }) s
    t.jobs.foldl (fun t p => if id < p.1 ∧ j.conflicts p.2 = true then t.flow (.job id) (.job p.1) else t) t
/-- A job ends with a status; its completion is counted later. From here on the jobs behind it may begin (notes/assumptions/86.md). -/
def State.endJob (s : State) (id : Nat) (j : Job) (status : BitVec 8) : State :=
  ((s.foPast id j).putJob id { j with status := status, ended := true }).later (.jobCompletion id)

/-- A chained card moves into the on-die queue when it has room and no older card of the engine waits. -/
def State.unchain (s : State) (id : Nat) (j : Job) : State :=
  let older := s.jobs.any fun p => decide (p.1 < id) && p.2.die == j.die && p.2.engine == j.engine && p.2.chained && !p.2.ended
  if older || decide (Config.cardQueue ≤ s.queued j.die j.engine) then s else s.putJob id { j with chained := false }

/-- JOB_BEGIN (R229, R231): after its context's earlier posted writes (R197). -/
def execJobBegin (id : Nat) (s : State) : Host.Outcome State Fault Refusal :=
  match Tab.find s.jobs id with
  | none => .next s
  | some j =>
    if j.begun || j.ended then .next s
    else if j.held then .next (s.later (.jobBegin id))
    else if j.chained then .next ((s.unchain id j).later (.jobBegin id))
    else if j.owner.any fun o => (s.coreAt o.core).postedAny j.after then .next (s.later (.jobBegin id))
    else if j.status = stBADCARD then .next (s.endJob id j stBADCARD)
    else if s.jobBlocked id j then .next (s.later (.jobBegin id))
    else
      let t := s.putJob id { j with begun := true }
      let t := match j.owner with
        | some o => if j.moves then t.updProc o.core fun p => { p with cw := Tab.put p.cw j.channel (BitVec.ofNat 32 j.dstLo) } else t
        | none => t
      .next (t.later (.writePointerAdvance id))

/-! ## Performing (R229) -/

/-- Bytes of a job lie in a used footprint entry of their direction and selector. -/
def Job.allows (j : Job) (sl off n : Nat) (write : Bool) : Bool :=
  (List.range 4).any fun f =>
    let e := footAt j.card (if write then f + 4 else f)
    e.len != 0 && e.sel == sl && decide (e.off ≤ off) && decide (off + n ≤ e.off + e.len)
/-- Bytes that one event can carry, of `n` at an offset: within one aligned 8-byte unit of global memory, and allowed (R187, R188). -/
def Job.unit (j : Job) (sl off n : Nat) (write : Bool) : Nat :=
  let b := j.selBase sl
  let m := if b.2 then min n 1 else min n (8 - (b.1 + off) % 8)
  ((List.range m).takeWhile fun i => j.allows sl (off + i) 1 write).length

/-- What an access of a job answers. -/
structure JobAcc where
  bytes : List Byte
  /-- 0 while no access is in error. -/
  status : BitVec 8
  /-- The place that keeps the job waiting: a host holds its line (R274), or a RED is to perform there first (R203). Nothing of the
  piece is done then. -/
  held : Option Place
  s : State
def JobAcc.stops (r : JobAcc) : Bool := r.status != 0 || r.held.isSome

/-- One event of a read: the bytes of one unit. -/
def State.jobGet (s : State) (id : Nat) (j : Job) (sl off n : Nat) : JobAcc :=
  let ans := fun (bs : List Byte) (t : State) => ({ bytes := bs, status := 0, held := none, s := t } : JobAcc)
  let no := fun (st : BitVec 8) => ({ ans [] s with status := st } : JobAcc)
  let b := j.selBase sl
  let a := b.1 + off
  if n = 0 then no stFOOTPRINT
  else if b.2 then
    match j.owner with
    | some o => if Config.lsSize ≤ a then no stFOOTPRINT else ans [Tab.get 0 (s.coreAt o.core).ls a] s
    | none => no stBADCARD
  else
    let s := s.walkReady j.domain a
    match s.translate j.domain a n .read with
    | .bad cause => { no (jobStatus cause) with s := s }
    | .ok p =>
      if s.hostHolds p then { ans [] s with held := some p }
      else
        let t := s.readPast p n (.job id)
        match p with
        | .hbm pa => let r := t.engineRead (s.keyOf j.domain) pa n; ans r.1 r.2
        | .peer .. | .host .. => let r := t.readPlace (s.keyOf j.domain) p n; ans (natLE n r.1) r.2
/-- Read `n` bytes at an offset from a selected capability, unit by unit. -/
def State.jobReadN (s : State) (id : Nat) (j : Job) (sl off n : Nat) : Nat → JobAcc
  | 0 => { bytes := [], status := 0, held := none, s := s }
  | fuel + 1 =>
    if n = 0 then { bytes := [], status := 0, held := none, s := s }
    else
      let m := j.unit sl off n false
      let one := s.jobGet id j sl off m
      if one.stops then one
      else
        let r := one.s.jobReadN id j sl (off + m) (n - m) fuel
        { r with bytes := one.bytes ++ r.bytes }
def State.jobRead (s : State) (id : Nat) (j : Job) (sl off n : Nat) : JobAcc := s.jobReadN id j sl off n n

/-- One event of a write: the bytes of one unit. -/
def State.jobPut (s : State) (id : Nat) (j : Job) (sl off : Nat) (bs : List Byte) : JobAcc :=
  let no := fun (st : BitVec 8) => ({ bytes := [], status := st, held := none, s := s } : JobAcc)
  let b := j.selBase sl
  let a := b.1 + off
  if bs.isEmpty then no stFOOTPRINT
  else if b.2 then
    match j.owner with
    | some o => if Config.lsSize ≤ a then no stFOOTPRINT else { no 0 with s := s.lsWrite o.core a bs }
    | none => no stBADCARD
  else
    let s := s.walkReady j.domain a
    match s.translate j.domain a bs.length .write with
    | .bad cause => { no (jobStatus cause) with s := s }
    | .ok p =>
      let past := s.pastOf (.job id)
      if s.hostHolds p || s.redHolds past p bs.length then { no 0 with held := some p, s := s }
      else { no 0 with s := (s.writePast p bs.length past).writePlace (s.keyOf j.domain) p bs.length (leNat bs) false none }

/-- Write bytes, unit by unit; those before the first error are written. -/
def State.jobWriteN (s : State) (id : Nat) (j : Job) (sl off : Nat) (bs : List Byte) : Nat → JobAcc
  | 0 => { bytes := [], status := 0, held := none, s := s }
  | fuel + 1 =>
    if bs.isEmpty then { bytes := [], status := 0, held := none, s := s }
    else
      let n := j.unit sl off bs.length true
      let one := s.jobPut id j sl off (bs.take n)
      if one.stops then one else one.s.jobWriteN id j sl (off + n) (bs.drop n) fuel
def State.jobWrite (s : State) (id : Nat) (j : Job) (sl off : Nat) (bs : List Byte) : JobAcc := s.jobWriteN id j sl off bs bs.length

/-- Read then write a piece: source and destination selector offsets, and its bytes. Where source and destination overlap the piece is
read whole before any of it is written (notes/assumptions/86.md). -/
def State.jobMove (s : State) (id : Nat) (j : Job) (srcOff dstOff n : Nat) : JobAcc :=
  let r := s.jobRead id j 0 srcOff n
  if r.held.isSome then r
  else
    let w := r.s.jobWrite id j 1 dstOff r.bytes
    if w.stops then w else { w with status := r.status }

/-- The format and bytes of a collective job's elements. -/
def Job.elemFmt (j : Job) : AFmt :=
  match cardField j.card 3 1 with
  | 9 => .f32
  | 11 => .bf16
  | 3 => .i32
  | _ => .n32
def Job.redOp (j : Job) : AmoOp :=
  match j.op, (afmtFlt j.elemFmt).isSome with
  | 0, true => .fadd
  | 1, true => .fmax
  | _, true => .fmin
  | 0, false => .add
  | 1, false => .max
  | _, false => .min

/-- Bytes at a job's destination as the Kiosk, or the agent of a host, reads them. The destination needs no read entry
(notes/assumptions/86.md). -/
def State.kioskRead (s : State) (id : Nat) (j : Job) (off : Nat) : Nat → List Byte × State
  | 0 => ([], s)
  | n + 1 =>
    let a := (j.selBase 1).1 + off
    let s := s.walkReady j.domain a
    let r : Nat × State := match s.translate j.domain a 1 .read with
      | .ok p => (s.aoRead p 1 (.job id)).readPlaceFor (s.keyOf j.domain) p 1
      | .bad _ => (0, s)
    let q := r.2.kioskRead id j (off + 1) n
    (BitVec.ofNat 8 r.1 :: q.1, q.2)

/-- One element of a collective job, as a RED (R229): it lies in one write entry whole, and its flags are those of a RED that
performs. -/
def State.jobReduce (s : State) (id : Nat) (j : Job) (i : Nat) : JobAcc × Flags :=
  let n := afmtBytes j.elemFmt
  let r := s.jobRead id j 0 (cardField j.card 8 8 + n * i) n
  if r.stops then (r, 0)
  else
    let off := cardField j.card 16 8 + n * i
    if !j.allows 1 off n true then ({ r with status := stFOOTPRINT }, 0)
    else
      let d := r.s.kioskRead id j off n
      let v := amoOp j.elemFmt j.redOp (leNat d.1) (leNat r.bytes)
      let w := d.2.jobWrite id j 1 off (natLE n v.1)
      (w, if w.stops then 0 else v.2)

/-- One element of a gather or scatter. -/
def State.jobIndexed (s : State) (id : Nat) (j : Job) (i : Nat) : JobAcc :=
  let x := s.jobRead id j 2 (cardField j.card 28 4 + 4 * i) 4
  if x.stops then x
  else
    let k := leNat x.bytes
    let src := cardField j.card 8 8
    let dst := cardField j.card 16 8
    if j.op = 0 then x.s.jobMove id j (src + j.size * k) (dst + j.size * i) j.size
    else x.s.jobMove id j (src + j.size * i) (dst + j.size * k) j.size

/-- The piece of a copy from `pos`: up to the next 64-byte line of the destination (R198). -/
def Job.piece (j : Job) : Nat := min (j.size - j.pos) (64 - ((j.selBase 1).1 + cardField j.card 16 8 + j.pos) % 64)
def Job.total (j : Job) : Nat := if j.engine = 0 then j.size else j.count

/-- The next piece of a begun job: the access, its flags and the units it moved. -/
def State.jobPiece (s : State) (id : Nat) (j : Job) : JobAcc × Flags × Nat :=
  match j.engine with
  | 0 => (s.jobMove id j (cardField j.card 8 8 + j.pos) (cardField j.card 16 8 + j.pos) j.piece, 0, j.piece)
  | 1 => (s.jobIndexed id j j.pos, 0, 1)
  | _ => let r := s.jobReduce id j j.pos; (r.1, r.2, 1)

/-- WRITE_POINTER_ADVANCE: the next piece of a job, and the write pointer of a copy into a local store. -/
def execWritePointerAdvance (id : Nat) (s : State) : Host.Outcome State Fault Refusal :=
  match Tab.find s.jobs id with
  | none => .next s
  | some j =>
    if !j.begun || j.ended then .next s
    else
      let r := s.jobPiece id j
      match r.1.held with
      | some p => .next ((s.askFor p).later (.writePointerAdvance id))
      | none =>
        if r.1.status ≠ 0 then .next (r.1.s.endJob id { j with flags := j.flags ||| r.2.1 } r.1.status)
        else
          let j' := { j with pos := j.pos + r.2.2, flags := j.flags ||| r.2.1 }
          let t := match j.owner with
            | some o => if j.moves then r.1.s.updProc o.core fun p => { p with cw := Tab.put p.cw j.channel (BitVec.ofNat 32 j'.pointer) } else r.1.s
            | none => r.1.s
          if j'.total ≤ j'.pos then .next (t.endJob id j' stOK)
          else .next ((t.putJob id j').later (.writePointerAdvance id))

/-! ## Counting (R230, R233, R234) -/

/-- An error word with one more job in error (R233). -/
def errWord (w : W64) (status : BitVec 8) (ticket : W64) : W64 :=
  let n := bits w 63 48
  if n = 0 then (1#64 <<< 48) ||| ((status.setWidth 64) <<< 40) ||| BitVec.ofNat 64 (bits ticket 39 0)
  else if n < 0xFFFF then w + (1#64 <<< 48) else w

/-- JWAITs of a core whose count has been reached end. -/
def State.wakeJobs (s : State) (n : Nat) : State :=
  (List.range 12).foldl (fun s k =>
    match (s.ctxAt n k).run with
    | .waiting (.jobs e v) => if v.toNat ≤ (Tab.get 0 (s.coreAt n).proc.js e).toNat then s.resume n k else s
    | _ => s) s

/-- The process that issued a job is still there. -/
def State.issuerLives (s : State) (o : JobOwner) : Bool := (s.coreAt o.core).bound && (s.coreAt o.core).proc.gang == o.gang
/-- A completed job is counted: `jsN` rises, its flags reach its context, and it is outstanding no more (R144, R229, R230). -/
def State.countJob (s : State) (id : Nat) (j : Job) (o : JobOwner) : State :=
  let t := (List.range 12).foldl (fun s k => s.flow (.job id) (.ctx o.core k)) { s with jobs := Tab.erase s.jobs id }
  let t := t.updProc o.core fun p => { p with js := Tab.put p.js j.engine (Tab.get 0 p.js j.engine + 1) }
  t.updCtx o.core o.ctx fun x => { x with fflags := x.fflags ||| j.flags }
/-- The jobs of a process on one engine, in ticket order. -/
def State.jobsOf (s : State) (o : JobOwner) (engine : Nat) : Tab Job :=
  s.jobs.filter fun p => p.2.engine == engine && sameOwner p.2.owner (some o)
/-- The completed jobs of a process on one engine that no job of an earlier ticket keeps back are counted (R230). Those of a process
that has gone are counted nowhere (R234). -/
def State.countJobs (s : State) (o : JobOwner) (engine : Nat) : State :=
  let mine := s.jobsOf o engine
  if s.issuerLives o then
    ((mine.takeWhile fun p => p.2.completed).foldl (fun t p => t.countJob p.1 p.2 (p.2.owner.getD o)) s).wakeJobs o.core
  else (mine.filter fun p => p.2.completed).foldl (fun t p => { t with jobs := Tab.erase t.jobs p.1 }) s
/-- A job of a process completes: its error is recorded (R233), and what can be counted is. -/
def State.completeJob (s : State) (id : Nat) (j : Job) (o : JobOwner) : State :=
  let t := s.putJob id { j with completed := true }
  let t := if j.status ≠ 0 ∧ t.issuerLives o = true then
      t.updProc o.core fun p => { p with errs := Tab.put p.errs j.engine (errWord (Tab.get 0 p.errs j.engine) j.status j.ticket) }
    else t
  t.countJobs o j.engine

/-- Cancellation, force-stop or fault exit of the process on a core (R234). -/
def State.cancelJobs (s : State) (n : Nat) : State :=
  s.jobs.foldl (fun s p =>
    let j := p.2
    let mine := match j.owner with
      | some o => o.core == n && o.gang == (s.coreAt n).proc.gang
      | none => false
    if mine && !j.ended && (!j.begun || j.hasLocal) then s.endJob p.1 { j with cancelled := true } stCANCELLED else s) s

/-- Jobs of the process on a core that are outstanding: with a local footprint, or all. -/
def State.jobsOut (s : State) (n : Nat) (localOnly : Bool) : Bool :=
  s.jobs.any fun p => (match p.2.owner with
    | some o => o.core == n && o.gang == (s.coreAt n).proc.gang
    | none => false) && (!localOnly || p.2.hasLocal)

/-! ## JWAIT, CWWAIT and JSTAT (R232) -/

def execJwait (c : Ctl) (n : BitVec 2) (v : GI) (s : State) : Host.Outcome State Fault Refusal :=
  issue c fYield s fun s =>
    let w := s.gi v
    if w.toNat ≤ (Tab.get 0 s.me.proc.js n.toNat).toNat then .done s else .wait (.jobs n.toNat w) s
def execCwwait (c : Ctl) (n : BitVec 2) (v : GI) (s : State) : Host.Outcome State Fault Refusal :=
  issue c fPlain s fun s =>
    let reached := decide (((s.gi v).setWidth 32).toNat ≤ (Tab.get 0 s.me.proc.cw n.toNat).toNat)
    let out := s.jobs.any fun p => p.2.onChannel n.toNat && match p.2.owner with
      | some o => o.core == s.core && o.gang == s.me.proc.gang
      | none => false
    if reached || !out then .done s else .hold
def execJstat (c : Ctl) (d : BitVec 6) (n : BitVec 2) (s : State) : Host.Outcome State Fault Refusal :=
  issue c fLate s fun s =>
    if s.leak d then leakTrap d
    else
      let v := Tab.get 0 s.me.proc.errs n.toNat
      .done ((s.updProc s.core fun p => { p with errs := Tab.put p.errs n.toNat 0 }).landLate c.set (.g d (GReg.data v)))

end Sys2Proof.Machine
end

