-- ==== Sys2Proof/Machine/Wide.lean ====
section
/-! DEFINITION. The wide unit (R145 to R149), its operations on w registers (R155 to R165), allotments (R151 to R153),
and the classes VARITH, VINT, VMASK, VPERM, VRED, VCVT, VLMEM and VREG. -/

namespace Sys2Proof.Machine

/-! ## Values -/

/-- Elements of width `e` from a list, first element lowest. -/
def packElems (e : Nat) : List Nat → Nat
  | [] => 0
  | x :: r => x % 2 ^ e + 2 ^ e * packElems e r

/-- A result for every element of width `e` whose lane is active, with the flags of those elements (R149). -/
def mapElems (e : Nat) (mask : W32) (f : Nat → Nat × Flags) : WReg × Flags :=
  let r := (List.range (1024 / e)).map fun k => if mask.getLsbD (k * e / 32) then f k else (0, 0)
  (BitVec.ofNat 1024 (packElems e (r.map Prod.fst)), r.foldl (fun a p => a ||| p.2) 0)

def allLanes : W32 := BitVec.allOnes 32
/-- The mode of an element in a lane (R109). -/
def laneMode (rm : Rm) (draws : List W64) (lane : Nat) : Mode := { rm := rm, u := laneDraw draws lane }

def fbin (op : FBin) (f : Fmt) (md : Mode) (x y : Nat) : Nat × Flags :=
  match op with
  | .add => fAdd f md x y
  | .sub => fSub f md x y
  | .mul => fMul f md x y
  | .div => fDiv f md x y
  | .min => fMinMax f false x y
  | .max => fMinMax f true x y
def fun1 (op : FUn) (f : Fmt) (md : Mode) (x : Nat) : Nat × Flags :=
  match op with
  | .abs => (flipSign f x false, 0)
  | .neg => (flipSign f x (!signOf f x), 0)
  | .rcp => fRcp f md x
  | .rsq => fRsq f md x
  | .exp2 => fExp2 f md x
  | .log2 => fLog2 f md x
/-- Elements of width `e` as patterns (R156). -/
def ibin (op : IBin) (e : Nat) (x y : Nat) : Nat :=
  let sh := y % e
  match op with
  | .add => x + y
  | .sub => x + (2 ^ e - y)
  | .mul => x * y
  | .and => x &&& y
  | .or => x ||| y
  | .xor => x ^^^ y
  | .shl => x * 2 ^ sh
  | .shr => x / 2 ^ sh
  | .sar => if 2 ^ (e - 1) ≤ x then x / 2 ^ sh + (2 ^ e - 2 ^ (e - sh)) else x / 2 ^ sh

/-- One lane of VCMP (R157). -/
def vrel (r : VRel) (x y : Nat) : Bool × Flags :=
  match r with
  | .f32 r => fCompare (fmtOf .f32) r x y
  | .i32 r | .n32 r => (relHolds r ((BitVec.ofNat 32 x).signExtend 64) ((BitVec.ofNat 32 y).signExtend 64), 0)

/-- A value that meets no other at a level: a NaN that enters is the canonical NaN from there on, and a signalling one raises NV
(R99, R160; log 76). -/
def sumAlone (x : Nat) : Nat × Flags :=
  let v := unpack (fmtOf .f32) x
  (if isNan v then (fmtOf .f32).canonicalNaN else x, nvIf (isSig v))
/-- One level of the tree of VRSUM.f32 (R160). -/
def sumLevel (rm : Rm) (draws : List W64) : List (Nat × Option Nat) → List (Nat × Option Nat) × Flags
  | (i, x) :: (_, y) :: r =>
    let rest := sumLevel rm draws r
    match x, y with
    | some x, some y =>
      let v := fAdd (fmtOf .f32) (laneMode rm draws i) x y
      ((i, some v.1) :: rest.1, v.2 ||| rest.2)
    | some x, none | none, some x => ((i, some (sumAlone x).1) :: rest.1, (sumAlone x).2 ||| rest.2)
    | none, none => ((i, none) :: rest.1, rest.2)
  | r => (r, 0)
def sumTree (rm : Rm) (draws : List W64) : Nat → List (Nat × Option Nat) → Nat × Flags
  | 0, l => (match l with
    | (_, some v) :: _ => v
    | _ => 0, 0)
  | n + 1, l =>
    let a := sumLevel rm draws l
    let b := sumTree rm draws n a.1
    (b.1, a.2 ||| b.2)

/-- The participating lanes of a reduction. -/
def lanesOf (mask : W32) (a : WReg) : List Nat := ((List.range 32).filter fun i => mask.getLsbD i).map fun i => lane a i

def reduceSum (f : SumFmt) (draws : List W64) (mask : W32) (a : WReg) : Nat × Flags :=
  match f with
  | .f32 rm => sumTree rm draws 5 ((List.range 32).map fun i => (i, if mask.getLsbD i then some (lane a i) else none))
  | .i32 | .n32 => ((lanesOf mask a).foldl (fun x y => x + y) 0 % 2 ^ 32, 0)

/-- The largest of a list by an order, or the smallest. -/
def best (key : Nat → Int) (wantMax : Bool) : List Nat → Option Nat
  | [] => none
  | x :: r =>
    match best key wantMax r with
    | none => some x
    | some y => some (if decide (key x < key y) = wantMax then y else x)

def reduceBest (f : MaxFmt) (wantMax : Bool) (mask : W32) (a : WReg) : Nat × Flags :=
  let l := lanesOf mask a
  match f with
  | .i32 => ((best (fun x => IFmt.val .i32 x) wantMax l).getD 0, 0)
  | .n32 => ((best (fun x => x) wantMax l).getD 0, 0)
  | .f32 =>
    let g := fmtOf .f32
    if l.any fun x => isSig (unpack g x) then (g.canonicalNaN, flagNV)
    else if l.isEmpty then (0, 0)
    else ((best (orderKey g) wantMax (l.filter fun x => !isNan (unpack g x))).getD g.canonicalNaN, 0)

/-- One lane of VCVT (R161): the elements that fit, packed at the destination width. -/
def convertLane (d : NFmt) (md : Mode) (sat : Bool) (src : NFmt) (x : Nat) : Nat × Flags :=
  let ws := NFmt.width src
  let wd := NFmt.width d
  let r := (List.range (32 / max ws wd)).map fun j => convert d md sat src (x / 2 ^ (ws * j) % 2 ^ ws)
  (packElems wd (r.map Prod.fst), r.foldl (fun a p => a ||| p.2) 0)

/-- VPXENC (R162). -/
def encodeBlocks (px : PxFmt) (src : FFmt) (rm : Rm) (draws : List W64) (a : WReg) : WReg × Flags :=
  let w := (fmtOf src).width
  let r := (List.range (64 / w)).map fun b =>
    pxEncode px (laneMode rm draws b) ((List.range 16).map fun i => unpack (fmtOf src) (elem w (16 * b + i) a))
  (BitVec.ofNat 1024 (packElems (8 * PxFmt.bytes px) (r.map Prod.fst)), r.foldl (fun a p => a ||| p.2) 0)
/-- VPXDEC (R162). -/
def decodeBlocks (d : FFmt) (px : PxFmt) (rm : Rm) (draws : List W64) (a : WReg) : WReg × Flags :=
  let w := (fmtOf d).width
  mapElems w allLanes fun k =>
    pxDecode d (laneMode rm draws (k * w / 32)) (pxElement px (elem (8 * PxFmt.bytes px) (k / 16) a) (k % 16))

/-- What a wide operation on registers writes: lanes, values, flags. -/
structure WOut where
  lanes : W32
  v : WReg
  fl : Flags
deriving DecidableEq, Repr

def wideOut (lanes : W32) (r : WReg × Flags) : WOut := { lanes := lanes, v := r.1, fl := r.2 }

/-- The value of an operation whose result is a w register (R155, R156, R158 to R162, R165). -/
def wideValue (op : WideOp) (rm : Rm) (draws : List W64) (mask : W32) (a b c : WReg) : WOut :=
  match op with
  | .fbin o f =>
    let g := fmtOf f
    wideOut mask (mapElems g.width mask fun k =>
      fbin o g (laneMode rm draws (k * g.width / 32)) (elem g.width k a) (elem g.width k b))
  | .ffma f =>
    let g := fmtOf f
    wideOut mask (mapElems g.width mask fun k =>
      fFma g (laneMode rm draws (k * g.width / 32)) (elem g.width k a) (elem g.width k b) (elem g.width k c))
  | .fun1 o f =>
    let g := fmtOf f
    wideOut mask (mapElems g.width mask fun k => fun1 o g (laneMode rm draws (k * g.width / 32)) (elem g.width k a))
  | .ibin o f =>
    let e := IFmt.width f
    wideOut mask (mapElems e mask fun k => (ibin o e (elem e k a) (elem e k b), 0))
  | .sel => { lanes := allLanes, v := ofLanes fun i => if mask.getLsbD i then lane a i else lane b i, fl := 0 }
  | .perm => { lanes := mask, v := ofLanes fun i => lane a (lane b i % 32), fl := 0 }
  | .shuf => { lanes := mask, v := ofLanes fun i => lane (if (lane c i).testBit 5 then b else a) (lane c i % 32), fl := 0 }
  | .bcast | .mov => { lanes := mask, v := a, fl := 0 }
  | .ins l => { lanes := 1#32 <<< l.toNat, v := a, fl := 0 }
  | .rsum f =>
    let r := reduceSum f draws mask a
    { lanes := 1, v := BitVec.ofNat 1024 r.1, fl := r.2 }
  | .rmax f =>
    let r := reduceBest f true mask a
    { lanes := 1, v := BitVec.ofNat 1024 r.1, fl := r.2 }
  | .rmin f =>
    let r := reduceBest f false mask a
    { lanes := 1, v := BitVec.ofNat 1024 r.1, fl := r.2 }
  | .cvt d sat src => wideOut mask (mapElems 32 mask fun i => convertLane d (laneMode rm draws i) sat src (lane a i))
  | .pxenc px src => wideOut allLanes (encodeBlocks px src rm draws a)
  | .pxdec d px => wideOut allLanes (decodeBlocks d px rm draws a)
  | .cmp _ | .mand .. | .mor .. | .mnot _ | .extr _ | .ldl | .stl | .ldx | .stx | .mrdacc .. | .mwracc .. | .mstacc _
  | .skip => { lanes := 0, v := 0, fl := 0 }

/-- Latencies from wide issue (R57, R178). -/
def WideOp.latency : WideOp → Nat
  | .fbin .div _ => 16
  | .fbin .. | .ffma _ => 4
  | .fun1 .abs _ | .fun1 .neg _ => 4
  | .fun1 .. => 8
  | .ibin .mul _ => 4
  | .ibin .. | .cmp _ | .sel | .mand .. | .mor .. | .mnot _ | .mov => 2
  | .perm | .shuf | .bcast | .extr _ | .ins _ => 3
  | .rsum _ | .rmax _ | .rmin _ => 8
  | .cvt .. => 4
  | .pxenc .. | .pxdec .. => 6
  | .ldl => 4
  | .ldx => 8
  | .mrdacc .. => 6
  | .stl | .stx | .mwracc .. | .mstacc _ | .skip => 1

/-! ## Tiles (R170, R178) -/

def Core.tile (c : Core) (a : BitVec 2) : Tile := Tab.get Tile.init c.tiles a.toNat
def Core.setTile (c : Core) (a : BitVec 2) (t : Tile) : Core := { c with tiles := Tab.put c.tiles a.toNat t }
def Tile.rows (t : Tile) : Nat := if t.h8 then 8 else 16
def Tile.cols (t : Tile) : Nat := if t.n32 then 32 else 64
def Tile.size (t : Tile) : Nat := 4 * t.rows * t.cols
/-- Chunk `j`: 32 consecutive elements, row-major. -/
def Tile.chunk (t : Tile) (j : Nat) : WReg := ofLanes fun i => (Tab.get 0 t.data (32 * j + i)).toNat
def Tile.putChunk (t : Tile) (j : Nat) (v : WReg) : Tile :=
  { t with data := (List.range 32).foldl (fun d i => Tab.set 0 d (32 * j + i) (BitVec.ofNat 32 (lane v i))) t.data }
/-- The entry names tile `a` (R171, R173). -/
def WEntry.namesTile (e : WEntry) (a : BitVec 2) : Bool :=
  match e.op with
  | .mrdacc b _ | .mwracc b _ | .mstacc b => b == a
  | .fbin .. | .ffma _ | .fun1 .. | .ibin .. | .cmp _ | .sel | .mand .. | .mor .. | .mnot _ | .perm | .shuf | .bcast | .extr _
  | .ins _ | .rsum _ | .rmax _ | .rmin _ | .cvt .. | .pxenc .. | .pxdec .. | .ldl | .stl | .ldx | .stx | .mov | .skip => false

/-! ## Wide issue -/

def WSrc.read (c : Core) : WSrc → WReg
  | .reg p => c.wReg p
  | .val v => v

/-- Whether a queue head is ready in this cycle (R147, R164, R178). -/
def State.headReady (s : State) (n : Nat) (e : WEntry) : Bool :=
  let c := s.coreAt n
  decide (e.issued + (if e.hasG then 3 else 1) ≤ s.cyc) && decide ((c.ctx e.ctx).wideNotBefore ≤ s.cyc) &&
  match e.op with
  | .ldl => !(s.lsClaimed n e.addr e.len false || s.lsBusy n e.addr e.len false)
  | .stl => !(s.lsClaimed n e.addr e.len true || s.lsBusy n e.addr e.len true)
  | .ldx => !(s.lsClaimed n e.lo (e.hi - e.lo) false || s.lsBusy n e.lo (e.hi - e.lo) false)
  | .stx => !(s.lsClaimed n e.lo (e.hi - e.lo) true || s.lsBusy n e.lo (e.hi - e.lo) true)
  | .mstacc a => !(s.lsClaimed n e.addr e.len true || s.lsBusy n e.addr e.len true) && (c.tile a).owner.isNone
  | .mwracc a _ => (c.tile a).owner.isNone
  | .fbin .. | .ffma _ | .fun1 .. | .ibin .. | .cmp _ | .sel | .mand .. | .mor .. | .mnot _ | .perm | .shuf | .bcast | .extr _
  | .ins _ | .rsum _ | .rmax _ | .rmin _ | .cvt .. | .pxenc .. | .pxdec .. | .mov | .mrdacc .. | .skip => true

/-- The g result of a queued VEXTR: written, and its count withdrawn, at the instruction's latency (R57, R159). A read before that may
already give the new value (R58), from a free cycle on. -/
def State.landExtr (s : State) (n : Nat) (e : WEntry) (v : GReg) : State :=
  let l : Landing := { due := s.cyc + e.op.latency, issued := e.issued, ctx := e.ctx, res := .g (BitVec.ofNat 6 e.d) v, flags := 0,
                       sb := some e.set, late := true }
  let early : Landing := { l with due := s.cyc + 1 + Config.freeDelay s.fresh % e.op.latency, sb := none }
  ({ s with fresh := s.fresh + 1 } : State).updCore n fun c => { c with land := c.land ++ [early, l] }
/-- A result of a queued instruction. -/
def State.landWide (s : State) (n : Nat) (e : WEntry) (r : Result) (fl : Flags) : State :=
  let l : Landing := { due := s.cyc + e.op.latency, issued := e.issued, ctx := e.ctx, res := r, flags := fl, sb := none, late := false }
  s.updCore n fun c => { c with land := c.land ++ [l] }

/-- The first byte of a lane of VLDX or VSTX, when the lane is not suppressed (R163). -/
def WEntry.laneAddr (e : WEntry) (off : Nat) : Option Nat :=
  let a := e.addr + off
  if e.lo ≤ a ∧ a + 4 ≤ e.hi ∧ a + 4 ≤ Config.lsSize ∧ off % 4 = 0 then some a else none

/-- Active lanes written to consecutive words. -/
def State.storeLanes (s : State) (n a : Nat) (mask : W32) (v : WReg) : State :=
  (List.range 32).foldl (fun s i =>
    if mask.getLsbD i then s.lsWrite n (a + 4 * i) (natLE 4 (lane v i)) else s) s

/-- The effect of an entry at wide issue. -/
def State.performWide (s : State) (n : Nat) (e : WEntry) : State :=
  let c := s.coreAt n
  let x := c.ctx e.ctx
  let mask := x.mask e.mask
  let a := e.a.read c
  let b := e.b.read c
  match e.op with
  | .cmp r =>
    let q := (List.range 32).map fun i => if mask.getLsbD i then vrel r (lane a i) (lane b i) else (false, 0)
    let v : Nat := packElems 1 (q.map fun p => if p.1 then 1 else 0)
    s.landWide n e (.m (BitVec.ofNat 3 e.d) mask (BitVec.ofNat 32 v)) (q.foldl (fun f p => f ||| p.2) 0)
  | .mand p q => s.landWide n e (.m (BitVec.ofNat 3 e.d) allLanes (x.mask p &&& x.mask q)) 0
  | .mor p q => s.landWide n e (.m (BitVec.ofNat 3 e.d) allLanes (x.mask p ||| x.mask q)) 0
  | .mnot p => s.landWide n e (.m (BitVec.ofNat 3 e.d) allLanes (~~~(x.mask p))) 0
  | .extr l => s.landExtr n e (GReg.data (BitVec.ofNat 64 (lane a l.toNat)))
  | .ldl =>
    let r := s.lsRead n e.addr 128
    r.2.landWide n e (.w e.d mask (BitVec.ofNat 1024 (leNat r.1))) 0
  | .stl => s.storeLanes n e.addr mask a
  | .ldx =>
    let r := (List.range 32).foldl (fun (acc : List Nat × State) i =>
      match e.laneAddr (lane b i) with
      | some p =>
        let q := acc.2.lsRead n p 4
        (acc.1 ++ [leNat q.1], q.2)
      | none => (acc.1 ++ [0], acc.2)) ([], s)
    r.2.landWide n e (.w e.d mask (BitVec.ofNat 1024 (packElems 32 r.1))) 0
  | .stx =>
    (List.range 32).foldl (fun s i =>
      match mask.getLsbD i, e.laneAddr (lane b i) with
      | true, some p => s.lsWrite n p (natLE 4 (lane a i))
      | _, _ => s) s
  | .mrdacc t j =>
    let tile := c.tile t
    if tile.owner.isSome then
      ({ s with fresh := s.fresh + 1 } : State).landWide n e (.w e.d allLanes (Config.freeLanes s.fresh)) 0
    else s.landWide n e (.w e.d allLanes (tile.chunk j.toNat)) 0
  | .mwracc t j => s.updCore n fun c => c.setTile t ((c.tile t).putChunk j.toNat a)
  | .mstacc t =>
    let tile := c.tile t
    let w := s.lsWrite n e.addr ((List.range (tile.rows * tile.cols)).flatMap fun i => natLE 4 (Tab.get 0 tile.data i).toNat)
    w.updCore n fun c => { c with mstores := (e.addr, e.len, s.cyc + (e.len + 255) / 256) :: c.mstores.filter fun m => s.cyc < m.2.2 }
  | .skip => s
  | .fbin .. | .ffma _ | .fun1 .. | .ibin .. | .sel | .perm | .shuf | .bcast | .ins _ | .rsum _ | .rmax _ | .rmin _ | .cvt ..
  | .pxenc .. | .pxdec .. | .mov =>
    let o := wideValue e.op e.rm e.draws mask a b (e.c.read c)
    s.landWide n e (.w e.d o.lanes o.v) o.fl

/-- WIDE_ISSUE: the wide unit starts the head of a core's queue (R145 to R147). -/
def execWideIssue (core : Nat) (s : State) : Host.Outcome State Fault Refusal :=
  onCore core s fun s =>
    match (s.coreAt core).wq with
    | [] => s
    | e :: r =>
      if !s.headReady core e then s
      else
        let t := s.updCore core fun c => { c with wq := r }
        let t := t.updCtx core e.ctx fun x => { x with wideNotBefore := s.cyc + e.delay + 1 }
        let t := t.updArbor (arborOf core) fun a => { a with wideLast := posOf core }
        (t.performWide core e).count core 3

/-! ## Core issue (R145, R146, R153) -/

/-- The entry of the running context's wide instruction. -/
def State.wentry (s : State) (c : Ctl) (op : WideOp) (hasG : Bool) (d : Nat) (m : BitVec 3) : WEntry :=
  { ctx := s.k, op := op, issued := s.cyc, hasG := hasG, delay := c.delay.toNat, d := d, a := .val 0, b := .val 0, c := .val 0,
    mask := m, rm := .rn, draws := [], addr := 0, len := 0, lo := 0, hi := 0, set := c.set }
def State.enqueue (s : State) (e : WEntry) : State := s.updMe fun c => { c with wq := c.wq ++ [e] }

/-- The core issue of a wide instruction: a full queue holds it, a false guard takes an entry that changes nothing, and
the allotment checks of `regs`, in field order, come first (R146, R153). -/
def issueWide (c : Ctl) (f : Form) (hasG : Bool) (s : State) (regs : State → List WRes) (body : State → Eff) :
    Host.Outcome State Fault Refusal :=
  if Config.wideSlots ≤ s.me.wq.length then .next s
  else if !s.phaseBad c f.far && !s.guard c then
    .next ((s.enqueue (s.wentry c .skip hasG 0 0)).retire c (s.nextPc s.core s.cx.pc))
  else issue c f s fun s =>
    match firstBad (regs s) with
    | some e => .trap cALLOT e
    | none => body s

/-- An operation with up to three sources, a rounding mode and a w destination. -/
def wideOp (c : Ctl) (op : WideOp) (rm : Rm) (hasG : Bool) (d : WOp) (a b e : State → WSrc) (regs : State → List WRes)
    (m : BitVec 3) (s : State) : Host.Outcome State Fault Refusal :=
  issueWide c fPlain hasG s (fun s => s.resolveW d :: regs s) fun s =>
    let md := s.wideMode rm
    .done (md.2.2.enqueue { s.wentry c op hasG (s.resolveW d).get m with
      a := a s, b := b s, c := e s, rm := md.1, draws := md.2.1 })

def wsrc (o : WOp) (s : State) : WSrc := .reg (s.resolveW o).get
def noSrc (_ : State) : WSrc := .val 0

/-! ## VARITH (R155) -/

def vbin (c : Ctl) (op : FBin) (f : FFmt) (rm : Rm) (d a : WOp) (b : WG) (m : BitVec 3) (s : State) :
    Host.Outcome State Fault Refusal :=
  wideOp c (.fbin op f) rm (WG.isG b) d (wsrc a) (fun s => s.wgSrc (fmtOf f).width b) noSrc
    (fun s => s.resolveW a :: s.wgRes b) m s
def vun (c : Ctl) (op : FUn) (f : FFmt) (rm : Rm) (d a : WOp) (m : BitVec 3) (s : State) : Host.Outcome State Fault Refusal :=
  wideOp c (.fun1 op f) rm false d (wsrc a) noSrc noSrc (fun s => [s.resolveW a]) m s

def execVadd (c : Ctl) (f : FFmt) (rm : Rm) (d a : WOp) (b : WG) (m : BitVec 3) (s : State) : Host.Outcome State Fault Refusal :=
  vbin c .add f rm d a b m s
def execVsub (c : Ctl) (f : FFmt) (rm : Rm) (d a : WOp) (b : WG) (m : BitVec 3) (s : State) : Host.Outcome State Fault Refusal :=
  vbin c .sub f rm d a b m s
def execVmul (c : Ctl) (f : FFmt) (rm : Rm) (d a : WOp) (b : WG) (m : BitVec 3) (s : State) : Host.Outcome State Fault Refusal :=
  vbin c .mul f rm d a b m s
def execVdiv (c : Ctl) (f : FFmt) (rm : Rm) (d a : WOp) (b : WG) (m : BitVec 3) (s : State) : Host.Outcome State Fault Refusal :=
  vbin c .div f rm d a b m s
def execVmin (c : Ctl) (f : FFmt) (d a : WOp) (b : WG) (m : BitVec 3) (s : State) : Host.Outcome State Fault Refusal :=
  vbin c .min f .rn d a b m s
def execVmax (c : Ctl) (f : FFmt) (d a : WOp) (b : WG) (m : BitVec 3) (s : State) : Host.Outcome State Fault Refusal :=
  vbin c .max f .rn d a b m s
def execVfma (c : Ctl) (f : FFmt) (rm : Rm) (d : WOp) (a b : WG) (e : WOp) (m : BitVec 3) (s : State) :
    Host.Outcome State Fault Refusal :=
  wideOp c (.ffma f) rm (WG.isG a || WG.isG b) d (fun s => s.wgSrc (fmtOf f).width a) (fun s => s.wgSrc (fmtOf f).width b) (wsrc e)
    (fun s => s.wgRes a ++ s.wgRes b ++ [s.resolveW e]) m s
def execVabs (c : Ctl) (f : FFmt) (d a : WOp) (m : BitVec 3) (s : State) : Host.Outcome State Fault Refusal :=
  vun c .abs f .rn d a m s
def execVneg (c : Ctl) (f : FFmt) (d a : WOp) (m : BitVec 3) (s : State) : Host.Outcome State Fault Refusal :=
  vun c .neg f .rn d a m s
def execVrcp (c : Ctl) (f : FFmt) (rm : Rm) (d a : WOp) (m : BitVec 3) (s : State) : Host.Outcome State Fault Refusal :=
  vun c .rcp f rm d a m s
def execVrsq (c : Ctl) (f : FFmt) (rm : Rm) (d a : WOp) (m : BitVec 3) (s : State) : Host.Outcome State Fault Refusal :=
  vun c .rsq f rm d a m s
def execVexp2 (c : Ctl) (f : FFmt) (rm : Rm) (d a : WOp) (m : BitVec 3) (s : State) : Host.Outcome State Fault Refusal :=
  vun c .exp2 f rm d a m s
def execVlog2 (c : Ctl) (f : FFmt) (rm : Rm) (d a : WOp) (m : BitVec 3) (s : State) : Host.Outcome State Fault Refusal :=
  vun c .log2 f rm d a m s

/-! ## VINT (R156) -/

def vint (c : Ctl) (op : IBin) (f : IFmt) (d a : WOp) (b : WGI) (m : BitVec 3) (s : State) : Host.Outcome State Fault Refusal :=
  wideOp c (.ibin op f) .rn (WGI.isG b) d (wsrc a) (fun s => s.wgiSrc (IFmt.width f) b) noSrc (fun s => s.resolveW a :: s.wgiRes b) m s

def execViadd (c : Ctl) (f : IFmt) (d a : WOp) (b : WGI) (m : BitVec 3) (s : State) : Host.Outcome State Fault Refusal :=
  vint c .add f d a b m s
def execVisub (c : Ctl) (f : IFmt) (d a : WOp) (b : WGI) (m : BitVec 3) (s : State) : Host.Outcome State Fault Refusal :=
  vint c .sub f d a b m s
def execVimul (c : Ctl) (f : IFmt) (d a : WOp) (b : WGI) (m : BitVec 3) (s : State) : Host.Outcome State Fault Refusal :=
  vint c .mul f d a b m s
def execVand (c : Ctl) (f : IFmt) (d a : WOp) (b : WGI) (m : BitVec 3) (s : State) : Host.Outcome State Fault Refusal :=
  vint c .and f d a b m s
def execVor (c : Ctl) (f : IFmt) (d a : WOp) (b : WGI) (m : BitVec 3) (s : State) : Host.Outcome State Fault Refusal :=
  vint c .or f d a b m s
def execVxor (c : Ctl) (f : IFmt) (d a : WOp) (b : WGI) (m : BitVec 3) (s : State) : Host.Outcome State Fault Refusal :=
  vint c .xor f d a b m s
def execVshl (c : Ctl) (f : IFmt) (d a : WOp) (b : WGI) (m : BitVec 3) (s : State) : Host.Outcome State Fault Refusal :=
  vint c .shl f d a b m s
def execVshr (c : Ctl) (f : IFmt) (d a : WOp) (b : WGI) (m : BitVec 3) (s : State) : Host.Outcome State Fault Refusal :=
  vint c .shr f d a b m s
def execVsar (c : Ctl) (f : IFmt) (d a : WOp) (b : WGI) (m : BitVec 3) (s : State) : Host.Outcome State Fault Refusal :=
  vint c .sar f d a b m s

/-! ## VMASK (R157, R158) -/

def execVcmp (c : Ctl) (r : VRel) (md : BitVec 3) (a : WOp) (b : WGI) (m : BitVec 3) (s : State) :
    Host.Outcome State Fault Refusal :=
  issueWide c fPlain (WGI.isG b) s (fun s => s.resolveW a :: s.wgiRes b) fun s =>
    .done (s.enqueue { s.wentry c (.cmp r) (WGI.isG b) md.toNat m with a := wsrc a s, b := s.wgiSrc 32 b })
def execVsel (c : Ctl) (d a b : WOp) (m : BitVec 3) (s : State) : Host.Outcome State Fault Refusal :=
  wideOp c .sel .rn false d (wsrc a) (wsrc b) noSrc (fun s => [s.resolveW a, s.resolveW b]) m s

/-- A mask instruction: nothing to check. -/
def maskOp (c : Ctl) (op : WideOp) (md : BitVec 3) (s : State) : Host.Outcome State Fault Refusal :=
  issueWide c fPlain false s (fun _ => []) fun s => .done (s.enqueue (s.wentry c op false md.toNat 0))
def execMand (c : Ctl) (md ma mb : BitVec 3) (s : State) : Host.Outcome State Fault Refusal := maskOp c (.mand ma mb) md s
def execMor (c : Ctl) (md ma mb : BitVec 3) (s : State) : Host.Outcome State Fault Refusal := maskOp c (.mor ma mb) md s
def execMnot (c : Ctl) (md ma : BitVec 3) (s : State) : Host.Outcome State Fault Refusal := maskOp c (.mnot ma) md s

/-! ## VPERM (R159) -/

def execVperm (c : Ctl) (d a i : WOp) (m : BitVec 3) (s : State) : Host.Outcome State Fault Refusal :=
  wideOp c .perm .rn false d (wsrc a) (wsrc i) noSrc (fun s => [s.resolveW a, s.resolveW i]) m s
def execVshuf (c : Ctl) (d a b i : WOp) (m : BitVec 3) (s : State) : Host.Outcome State Fault Refusal :=
  wideOp c .shuf .rn false d (wsrc a) (wsrc b) (wsrc i) (fun s => [s.resolveW a, s.resolveW b, s.resolveW i]) m s
def execVbcast (c : Ctl) (f : NFmt) (d : WOp) (v : GI) (m : BitVec 3) (s : State) : Host.Outcome State Fault Refusal :=
  wideOp c .bcast .rn (GI.isG v) d (fun s => .val (replicate (NFmt.width f) (s.gi v))) noSrc noSrc (fun _ => []) m s
def execVextr (c : Ctl) (d : BitVec 6) (a : WOp) (lane : BitVec 5) (s : State) : Host.Outcome State Fault Refusal :=
  issueWide c fLate false s (fun s => [s.resolveW a]) fun s =>
    if s.leak d then leakTrap d
    else .done (s.enqueue { s.wentry c (.extr lane) false d.toNat 0 with a := wsrc a s })
def execVins (c : Ctl) (d : WOp) (v : GI) (lane : BitVec 5) (s : State) : Host.Outcome State Fault Refusal :=
  wideOp c (.ins lane) .rn (GI.isG v) d (fun s => .val (replicate 32 (s.gi v))) noSrc noSrc (fun _ => []) 0 s

/-! ## VRED (R160) -/

def execVrsum (c : Ctl) (f : SumFmt) (d a : WOp) (m : BitVec 3) (s : State) : Host.Outcome State Fault Refusal :=
  let rm : Rm := match f with
    | .f32 rm => rm
    | .i32 | .n32 => .rn
  issueWide c fPlain false s (fun s => [s.resolveW d, s.resolveW a]) fun s =>
    let md := s.wideMode rm
    let f : SumFmt := match f with
      | .f32 _ => .f32 md.1
      | .i32 => .i32
      | .n32 => .n32
    .done (md.2.2.enqueue { s.wentry c (.rsum f) false (s.resolveW d).get m with a := wsrc a s, rm := md.1, draws := md.2.1 })
def execVrmax (c : Ctl) (f : MaxFmt) (d a : WOp) (m : BitVec 3) (s : State) : Host.Outcome State Fault Refusal :=
  wideOp c (.rmax f) .rn false d (wsrc a) noSrc noSrc (fun s => [s.resolveW a]) m s
def execVrmin (c : Ctl) (f : MaxFmt) (d a : WOp) (m : BitVec 3) (s : State) : Host.Outcome State Fault Refusal :=
  wideOp c (.rmin f) .rn false d (wsrc a) noSrc noSrc (fun s => [s.resolveW a]) m s

/-! ## VCVT (R161, R162) -/

def execVcvt (c : Ctl) (dst : NFmt) (rm : RmSat) (src : NFmt) (d a : WOp) (m : BitVec 3) (s : State) :
    Host.Outcome State Fault Refusal :=
  wideOp c (.cvt dst rm.sat src) rm.rm false d (wsrc a) noSrc noSrc (fun s => [s.resolveW a]) m s
def execVpxenc (c : Ctl) (px : PxFmt) (rm : Rm) (src : FFmt) (d a : WOp) (s : State) : Host.Outcome State Fault Refusal :=
  wideOp c (.pxenc px src) rm false d (wsrc a) noSrc noSrc (fun s => [s.resolveW a]) 0 s
def execVpxdec (c : Ctl) (dst : FFmt) (rm : Rm) (px : PxFmt) (d a : WOp) (s : State) : Host.Outcome State Fault Refusal :=
  wideOp c (.pxdec dst px) rm false d (wsrc a) noSrc noSrc (fun s => [s.resolveW a]) 0 s

/-! ## VLMEM (R163, R164) -/

/-- VLDL and VSTL: `r` is the w operand. The window is used at core issue and broadcasts nothing: it is no g operand of R147
(R148, R183, notes/assumptions/88.md). -/
def wideMem (c : Ctl) (load : Bool) (r : WOp) (w : BitVec 6) (off : Int) (m : BitVec 3) (s : State) :
    Host.Outcome State Fault Refusal :=
  issueWide c fPlain false s (fun s => [s.resolveW r]) fun s =>
    match lsAddr (s.gReg w) load (!load) off 128 4 with
    | .bad cause val => .trap cause val
    | .at_ a =>
      .done (s.enqueue { s.wentry c (if load then .ldl else .stl) false (s.resolveW r).get m with
        a := wsrc r s, addr := a, len := 128 })
def execVldlImmediate (c : Ctl) (d : WOp) (w : BitVec 6) (off : BitVec 32) (s : State) : Host.Outcome State Fault Refusal :=
  wideMem c true d w off.toInt 0 s
def execVldlRegister (c : Ctl) (d : WOp) (w : BitVec 6) (off : BitVec 12) (m : BitVec 3) (s : State) :
    Host.Outcome State Fault Refusal :=
  wideMem c true d w off.toInt m s
def execVstlImmediate (c : Ctl) (r : WOp) (w : BitVec 6) (off : BitVec 32) (s : State) : Host.Outcome State Fault Refusal :=
  wideMem c false r w off.toInt 0 s
def execVstlRegister (c : Ctl) (r : WOp) (w : BitVec 6) (off : BitVec 12) (m : BitVec 3) (s : State) :
    Host.Outcome State Fault Refusal :=
  wideMem c false r w off.toInt m s

/-- VLDX and VSTX; the window is no g operand of R147 here either. -/
def wideIndexed (c : Ctl) (load : Bool) (r : WOp) (w : BitVec 6) (i : WOp) (m : BitVec 3) (s : State) :
    Host.Outcome State Fault Refusal :=
  issueWide c fPlain false s (fun s => [s.resolveW r, s.resolveW i]) fun s =>
    let g := s.gReg w
    match windowCheck g load (!load) with
    | some (cause, val) => .trap cause val
    | none =>
      .done (s.enqueue { s.wentry c (if load then .ldx else .stx) false (s.resolveW r).get m with
        a := wsrc r s, b := wsrc i s, addr := capBase g.bits + capCursor g.bits, lo := capBase g.bits,
        hi := capBase g.bits + capLength g.bits })
def execVldx (c : Ctl) (d : WOp) (w : BitVec 6) (i : WOp) (m : BitVec 3) (s : State) : Host.Outcome State Fault Refusal :=
  wideIndexed c true d w i m s
def execVstx (c : Ctl) (r : WOp) (w : BitVec 6) (i : WOp) (m : BitVec 3) (s : State) : Host.Outcome State Fault Refusal :=
  wideIndexed c false r w i m s

/-! ## VREG (R151, R152, R165) -/

/-- The number under which the last results of a helper that has exited land: the entries 12 to 22 of a core's contexts hold
what such a helper leaves behind, its blocks above all (R289). -/
def leftOver (k : Nat) : Nat := 12 + k
/-- A context still holds its blocks: one that has exited does while a wide instruction of it is queued or landing. -/
def Core.holdsBlocks (c : Core) (k : Nat) : Bool :=
  decide (k < 12) || (c.wq.any fun e => e.ctx == k) || c.land.any fun l => l.ctx == k
/-- Blocks of a core that no context holds. -/
def Core.freeBlocks (c : Core) : List Nat := (List.range 8).filter fun b =>
  !(c.ctxs.any fun p => c.holdsBlocks p.1 && p.2.blocks.contains b) && !(c.upcall.any fun x => x.blocks.contains b)
/-- A wide result of the context is under way (R151, R152). -/
def State.widePending (s : State) (n k : Nat) : Bool :=
  let c := s.coreAt n
  let w := fun (r : Result) => match r with
    | .w .. | .m .. => true
    | .g .. | .q .. | .s .. | .none => false
  (c.wq.any fun e => e.ctx == k) || (c.land.any fun l => l.ctx == k && w l.res) ||
    s.replies.any fun r => r.core == n && r.ctx == k && r.res.any w
def Core.zeroBlock (c : Core) (b : Nat) : Core := { c with w := (List.range 8).foldl (fun w i => Tab.put w (8 * b + i) 0) c.w }

def execAllot (c : Ctl) (qd : BitVec 3) (s : State) : Host.Outcome State Fault Refusal :=
  issue c fPlain s fun s =>
    match s.me.freeBlocks with
    | [] => writeQ s 1 qd false 0
    | b :: _ =>
      if s.cx.allot < 64 then
        writeQ ((s.updMe fun c => c.zeroBlock b).updCx fun x => { x with blocks := x.blocks ++ [b] }) 1 qd true 0
      else writeQ s 1 qd false 0
def execShrink (c : Ctl) (qd : BitVec 3) (s : State) : Host.Outcome State Fault Refusal :=
  issue c fPlain s fun s =>
    if s.widePending s.core s.k then .hold
    else if 0 < s.cx.allot then writeQ (s.updCx fun x => { x with blocks := x.blocks.dropLast }) 1 qd true 0
    else writeQ s 1 qd false 0
def execVmov (c : Ctl) (d a : WOp) (m : BitVec 3) (s : State) : Host.Outcome State Fault Refusal :=
  wideOp c .mov .rn false d (wsrc a) noSrc noSrc (fun s => [s.resolveW a]) m s

end Sys2Proof.Machine
end

