-- ==== Sys2Proof/Machine/Matrix.lean ====
section
/-! DEFINITION. The MAT class (R166 to R180): operand slots, tiles, the joint operation of an arbor and its two events. -/

namespace Sys2Proof.Machine

/-! ## Quads and slots (R29, R166) -/

/-- The process bound to a core is a member of a quad (R29, R91). -/
def State.inQuad (s : State) (n : Nat) : Bool :=
  let p := (s.coreAt n).proc
  match s.gangAt p.gang with
  | some g => decide (p.role < 4 * g.h.quads)
  | none => false

/-- The issue of a MAT instruction: the allotment checks of its w operands, then quad membership (R153, R166). -/
def matrix (s : State) (body : Eff) : Eff := if s.inQuad s.core then body else .trap cGANGMIS 1

def State.myArbor (s : State) : Arbor := s.arborAt (arborOf s.core)
def Arbor.slot (a : Arbor) (k : BitVec 5) : Slot := Tab.get Slot.init a.slots k.toNat
def Arbor.setSlot (a : Arbor) (k : BitVec 5) (v : Slot) : Arbor := { a with slots := Tab.put a.slots k.toNat v }
def MGang.reads (m : MGang) (k : BitVec 5) : Bool := m.ka == k.toNat || m.kb == k.toNat

def execMclaim (c : Ctl) (qd : BitVec 3) (k : BitVec 5) (s : State) : Host.Outcome State Fault Refusal :=
  issue c fLate s fun s => matrix s <|
    if (s.myArbor.slot k).claimed then .done (s.landLate c.set (.q qd false))
    else .done ((s.updArbor (arborOf s.core) fun a => a.setSlot k { claimed := true, data := [] }).landLate c.set (.q qd true))
def execMrel (c : Ctl) (k : BitVec 5) (s : State) : Host.Outcome State Fault Refusal :=
  issue c fPlain s fun s => matrix s <|
    if s.myArbor.flying.any fun m => m.reads k then .hold
    else .done (s.updArbor (arborOf s.core) fun a => a.setSlot k { a.slot k with claimed := false })

/-! ## MLOAD (R169) -/

def mload (s : State) (k : BitVec 5) (w : BitVec 6) (desc : W32) : Eff :=
  let g := s.gReg w
  let units := bits desc 20 10
  let off := bits desc 9 0
  let a := capBase g.bits + capCursor g.bits
  let len := 16 * units
  match windowCheck g true false with
  | some (cause, val) => .trap cause val
  | none =>
    if bits desc 31 21 ≠ 0 ∨ units = 0 ∨ 1024 < off + units then .trap cCAPBND (desc.setWidth 64)
    else if !(s.myArbor.slot k).claimed then .trap cCAPPERM (k.setWidth 64)
    else if capBase g.bits + capLength g.bits < a + len ∨ Config.lsSize < a + len then .trap cCAPBND (BitVec.ofNat 64 a)
    else if a % 16 ≠ 0 then .trap cALIGN (BitVec.ofNat 64 a)
    else if ((s.myArbor.waiting ++ s.myArbor.flying).any fun m => m.pos == posOf s.core && m.reads k) ||
        s.lsHeld s.core a len false then .hold
    else
      let r := s.lsRead s.core a len
      let m : MLoad := { id := s.ids, slot := k.toNat, off := 16 * off, addr := a, len := len, data := r.1 }
      .done ((({ r.2 with ids := s.ids + 1 } : State).updMe fun c => { c with mloads := c.mloads ++ [m] }).within
        (4 + (len + 255) / 256) (.mloadCompletion s.core s.ids))

def execMloadImmediate (c : Ctl) (k : BitVec 5) (w : BitVec 6) (desc : BitVec 32) (s : State) : Host.Outcome State Fault Refusal :=
  issue c fPlain s fun s => matrix s (mload s k w desc)
def execMloadRegister (c : Ctl) (k : BitVec 5) (w : BitVec 6) (desc : BitVec 6) (s : State) : Host.Outcome State Fault Refusal :=
  issue c fPlain s fun s => matrix s (mload s k w ((s.readG desc).setWidth 32))

def execMloadCompletion (core id : Nat) (s : State) : Host.Outcome State Fault Refusal :=
  onCore core s fun s =>
    match (s.coreAt core).mloads.find? fun m => m.id == id with
    | none => s
    | some m =>
      (s.updCore core fun c => { c with mloads := c.mloads.filter fun x => x.id != id }).updArbor (arborOf core) fun a =>
        let k := BitVec.ofNat 5 m.slot
        a.setSlot k { a.slot k with data := Tab.writeBytes (a.slot k).data m.off m.data }

/-! ## Tiles (R170, R171) -/

/-- What holds MCFG, MZERO and MGANG of a tile: an owner, or a queued access (R171, R173). -/
def State.tileQueued (s : State) (a : BitVec 2) : Bool := s.me.wq.any fun e => e.namesTile a
def State.tileOwned (s : State) (a : BitVec 2) : Bool := (s.me.tile a).owner.isSome

def execMcfg (c : Ctl) (a : BitVec 2) (shape : BitVec 3) (s : State) : Host.Outcome State Fault Refusal :=
  issue c fPlain s fun s => matrix s <|
    if s.tileOwned a || s.tileQueued a then .hold
    else
      let t := s.me.tile a
      let h8 := shape.getLsbD 0
      let n32 := shape.getLsbD 1
      let isInt := shape.getLsbD 2
      if t.h8 = h8 ∧ t.n32 = n32 ∧ t.isInt = isInt then .done s
      else .done (s.updMe fun c => c.setTile a { h8, n32, isInt, data := [], owner := none })
def execMzero (c : Ctl) (a : BitVec 2) (s : State) : Host.Outcome State Fault Refusal :=
  issue c fPlain s fun s => matrix s <|
    if s.tileOwned a || s.tileQueued a then .hold
    else .done (s.updMe fun c => c.setTile a { c.tile a with data := [] })
def execMwait (c : Ctl) (a : BitVec 2) (s : State) : Host.Outcome State Fault Refusal :=
  issue c fPlain s fun s => matrix s <| if s.tileOwned a then .hold else .done s

/-! ## Gang issue (R172 to R174) -/

def arborCore (a pos : Nat) : Nat := 4 * a + pos
def State.gangTile (s : State) (arbor : Nat) (m : MGang) : Tile := (s.coreAt (arborCore arbor m.pos)).tile (BitVec.ofNat 2 m.a)

def allSame {α : Type} [DecidableEq α] : List α → Bool
  | [] => true
  | x :: r => r.all fun y => decide (y = x)

def MFmt.isI8 : MFmt → Bool
  | .i8 => true
  | .f16 | .bf16 | .px _ => false

/-- `Agree()`: the first reason that applies (R174). -/
def State.disagree (s : State) (arbor : Nat) (l : List MGang) : Option W64 :=
  let a := s.arborAt arbor
  let tiles := l.map fun m => s.gangTile arbor m
  if !allSame (l.map fun m => m.tag) then some 2
  else if !allSame (l.map fun m => (m.ka, m.kb, m.f)) || l.any fun m => m.ka == m.kb then some 3
  else if l.any fun m => !(a.slot (BitVec.ofNat 5 m.ka)).claimed || !(a.slot (BitVec.ofNat 5 m.kb)).claimed then some 4
  else if !allSame (tiles.map fun t => (t.h8, t.n32, t.isInt)) then some 5
  else if l.any fun m => (s.gangTile arbor m).isInt != MFmt.isI8 m.f then some 6
  else none

/-- A tile's ownership ends. -/
def State.disown (s : State) (n : Nat) (a : Nat) : State :=
  s.updCore n fun c => c.setTile (BitVec.ofNat 2 a) { c.tile (BitVec.ofNat 2 a) with owner := none }

/-- A waiting MGANG traps GANGMIS: its ownership ends first (R173). -/
def State.gangMiss (s : State) (arbor : Nat) (m : MGang) (reason : W64) : State :=
  let n := arborCore arbor m.pos
  let t := s.disown n m.a
  t.takeTrap n m.ctx { cause := cGANGMIS, val := reason } (t.ctxAt n m.ctx).pc

def execMgang (c : Ctl) (f : MFmt) (a : BitVec 2) (ka kb : BitVec 5) (tag : BitVec 4) (s : State) : Host.Outcome State Fault Refusal :=
  issue c fYield s fun s => matrix s <|
    let ar := s.myArbor
    if (ar.waiting.any fun m => m.pos == posOf s.core) || !ar.flying.isEmpty || !s.me.mloads.isEmpty || s.tileQueued a then .hold
    else
      let m : MGang := { pos := posOf s.core, ctx := s.k, f := f, a := a.toNat, ka := ka.toNat, kb := kb.toNat, tag := tag }
      let all := ar.waiting ++ [m]
      let t := s.updMe fun c => c.setTile a { c.tile a with owner := some s.k }
      if all.length < 4 then .wait .gangIssue (t.updArbor (arborOf s.core) fun x => { x with waiting := all })
      else
        match t.disagree (arborOf s.core) all with
        | some reason =>
          let u := t.updArbor (arborOf s.core) fun x => { x with waiting := [] }
          let u := ar.waiting.foldl (fun u m => u.gangMiss (arborOf s.core) m reason) u
          .trapIn (u.disown s.core a.toNat) cGANGMIS reason
        | none =>
          let u := t.updArbor (arborOf s.core) fun x => { x with waiting := [], flying := all, started := false }
          .wait .gangIssue (u.within 6 (.matrixOperationStart (arborOf s.core)))

/-- A stop withdraws the MGANG of a context that waits at an incomplete barrier (R180). -/
def State.withdraw (s : State) (n k : Nat) : State :=
  let a := arborOf n
  match (s.arborAt a).waiting.find? fun m => m.pos == posOf n && m.ctx == k with
  | none => s
  | some m => (s.disown n m.a).updArbor a fun x => { x with waiting := x.waiting.filter fun y => y.pos != m.pos }
/-- A started or agreed operation owns a tile of the core (R180). -/
def State.flyingAt (s : State) (n : Nat) : Bool := (s.arborAt (arborOf n)).flying.any fun m => m.pos == posOf n

/-- A partner's process has gone: the MGANGs of the others at the barrier trap with reason 7 (R174). -/
def State.partnerGone (s : State) (n : Nat) : State :=
  let a := arborOf n
  let l := (s.arborAt a).waiting
  if l.isEmpty then s
  else
    let t := s.updArbor a fun x => { x with waiting := [] }
    let t := (l.filter fun m => m.pos == posOf n).foldl (fun t m => t.disown n m.a) t
    (l.filter fun m => m.pos != posOf n).foldl (fun t m => t.gangMiss a m 7) t

/-! ## The operation (R168, R175, R176) -/

/-- K of a format, and the bytes of a row of A or a column of B. -/
def mK : MFmt → Nat
  | .f16 | .bf16 => 64
  | .px .px7 => 128
  | .px .px4 | .i8 => 256
  | .px .px2 => 512
def mRow : MFmt → Nat
  | .f16 | .bf16 => 128
  | .px .px7 => 144
  | .px .px4 => 192
  | .px .px2 | .i8 => 256

/-- The 16 values of chunk `t` of a row or column that starts at a slot byte. -/
def chunkVals (f : MFmt) (data : List Host.Cell) (base t : Nat) : List FVal :=
  match f with
  | .i8 => []
  | .f16 => (List.range 16).map fun k => unpack (fmtOf .f16) (Tab.readLE data (base + 2 * (16 * t + k)) 2)
  | .bf16 => (List.range 16).map fun k => unpack (fmtOf .bf16) (Tab.readLE data (base + 2 * (16 * t + k)) 2)
  | .px p =>
    let block := Tab.readLE data (base + PxFmt.bytes p * t) (PxFmt.bytes p)
    (List.range 16).map fun k => pxElement p block k

/-- An exact product, and its flags (R176). -/
def mProduct (a b : FVal) : FVal × Flags :=
  let nv := nvIf (isSig a || isSig b)
  match a, b with
  | .nan _, _ | _, .nan _ => (.nan false, nv)
  | .inf n, .inf k => (.inf (n != k), 0)
  | .inf n, .fin k m _ | .fin k m _, .inf n => if m = 0 then (.nan false, flagNV) else (.inf (n != k), 0)
  | .fin n m e, .fin k p x => (.fin (n != k) (m * p) (e + x), 0)

/-- The exact sum of two terms of a chunk. -/
def mPlus (a b : FVal) : FVal × Flags :=
  match a, b with
  | .nan _, _ | _, .nan _ => (.nan false, 0)
  | .inf n, .inf k => if n = k then (.inf n, 0) else (.nan false, flagNV)
  | .inf n, .fin .. => (.inf n, 0)
  | .fin .., .inf n => (.inf n, 0)
  | .fin n m e, .fin k p x =>
    let z := exactSum n m e k p x
    (.fin (if z.1 = 0 then decide (m = 0) && decide (p = 0) && n && k else decide (z.1 < 0)) z.1.natAbs z.2, 0)

/-- The exact sum of a chunk's products. A chunk that holds both infinities is NaN and invalid whatever else it holds. -/
def chunkSum : List (FVal × FVal) → FVal × Flags
  | [] => (.nan false, 0)
  | ps =>
    let prods := ps.map fun p => mProduct p.1 p.2
    let fl := prods.foldl (fun f p => f ||| p.2) 0
    let both := (prods.any fun p => p.1 == .inf false) && prods.any fun p => p.1 == .inf true
    match prods with
    | [] => (.nan false, 0)
    | p :: r =>
      let v := r.foldl (fun acc q => (mPlus acc q.1).1) p.1
      (v, fl ||| nvIf both)

/-- One element of a binary32 tile: one rounding a chunk. -/
def mElement (f : MFmt) (da db : List Host.Cell) (ra cb acc : Nat) : Nat × Flags :=
  (List.range (mK f / 16)).foldl (fun (acc : Nat × Flags) t =>
    let c := chunkSum ((chunkVals f da ra t).zip (chunkVals f db cb t))
    let r := addVals (fmtOf .f32) { rm := .rn, u := 0 } (unpack (fmtOf .f32) acc.1) c.1
    (r.1, acc.2 ||| c.2 ||| r.2)) (acc, 0)
/-- One element of an i32 tile. -/
def mElementInt (da db : List Host.Cell) (ra cb acc : Nat) : Nat :=
  lowBits 32 ((List.range 256).foldl (fun (z : Int) k =>
    z + IFmt.val .i8 (Tab.get 0 da (ra + k)).toNat * IFmt.val .i8 (Tab.get 0 db (cb + k)).toNat) (acc : Int))

/-- The new contents of the tile of position `p`, with the flags of its elements. -/
def mTile (f : MFmt) (da db : List Host.Cell) (p : Nat) (t : Tile) : Tab W32 × Flags :=
  (List.range (t.rows * t.cols)).foldl (fun (acc : Tab W32 × Flags) i =>
    let ra := (p * t.rows + i / t.cols) * mRow f
    let cb := (i % t.cols) * mRow f
    let old := (Tab.get 0 t.data i).toNat
    let r : Nat × Flags := if MFmt.isI8 f then (mElementInt da db ra cb old, 0) else mElement f da db ra cb old
    (Tab.set 0 acc.1 i (BitVec.ofNat 32 r.1), acc.2 ||| r.2)) ([], 0)

/-- The MGANG context becomes ready at the start, if it still waits there; under a stop at yield points it stops (R180, R291). -/
def State.leaveIssue (s : State) (n k : Nat) : State :=
  if (s.ctxAt n k).run = .waiting .gangIssue then
    let t := s.resume n k
    if (s.coreAt n).proc.yieldStop && k != 0 then t.updCtx n k fun x => { x with run := .stopped } else t
  else s

/-- MATRIX_OPERATION_START: the slots and tiles are read, and the four contexts become ready (R175, R177). -/
def execMatrixOperationStart (arbor : Nat) (s : State) : Host.Outcome State Fault Refusal :=
  onCore (4 * arbor) s fun s =>
    let a := s.arborAt arbor
    if a.flying.isEmpty || a.started then s
    else
      let res := a.flying.map fun m =>
        (m.pos, mTile m.f (a.slot (BitVec.ofNat 5 m.ka)).data (a.slot (BitVec.ofNat 5 m.kb)).data m.pos (s.gangTile arbor m))
      let t := s.updArbor arbor fun x => { x with started := true, results := res.map fun r => (r.1, r.2.1, r.2.2) }
      let t := a.flying.foldl (fun t m => t.leaveIssue (arborCore arbor m.pos) m.ctx) t
      t.atCycle (s.cyc + Config.matrixCycles) (.matrixOperationCompletion arbor)

/-- MATRIX_OPERATION_COMPLETION: the tiles hold the results, ownership ends and the flags are ORed (R175, R177). -/
def execMatrixOperationCompletion (arbor : Nat) (s : State) : Host.Outcome State Fault Refusal :=
  onCore (4 * arbor) s fun s =>
    let a := s.arborAt arbor
    if !a.started then s
    else
      let t := a.flying.foldl (fun t m =>
        let n := arborCore arbor m.pos
        match a.results.find? fun r => r.1 == m.pos with
        | none => t
        | some r =>
          let t := t.updCore n fun c =>
            c.setTile (BitVec.ofNat 2 m.a) { c.tile (BitVec.ofNat 2 m.a) with data := r.2.1, owner := none }
          (t.updCtx n m.ctx fun x => { x with fflags := x.fflags ||| r.2.2 }).count n 4) s
      t.updArbor arbor fun x => { x with flying := [], started := false, results := [] }

/-! ## Reading, writing and storing tiles (R178) -/

/-- The issue of a queued tile access: allotment first, then quad membership, then its own checks. -/
def tileAccess (c : Ctl) (s : State) (regs : State → List WRes) (body : State → Eff) : Host.Outcome State Fault Refusal :=
  issueWide c fPlain false s regs fun s => matrix s (body s)
/-- The number of chunks of a tile. -/
def Tile.chunks (t : Tile) : Nat := t.rows * t.cols / 32

def execMrdacc (c : Ctl) (d : WOp) (a : BitVec 2) (j : BitVec 5) (s : State) : Host.Outcome State Fault Refusal :=
  tileAccess c s (fun s => [s.resolveW d]) fun s =>
    if (s.me.tile a).chunks ≤ j.toNat then .trap cCAPBND (j.setWidth 64)
    else .done (s.enqueue (s.wentry c (.mrdacc a j) false (s.resolveW d).get 0))
def execMwracc (c : Ctl) (a : BitVec 2) (r : WOp) (j : BitVec 5) (s : State) : Host.Outcome State Fault Refusal :=
  tileAccess c s (fun s => [s.resolveW r]) fun s =>
    if (s.me.tile a).chunks ≤ j.toNat then .trap cCAPBND (j.setWidth 64)
    else .done (s.enqueue { s.wentry c (.mwracc a j) false 0 0 with a := wsrc r s })
def execMstacc (c : Ctl) (a : BitVec 2) (w : BitVec 6) (off : SrcZ) (s : State) : Host.Outcome State Fault Refusal :=
  tileAccess c s (fun _ => []) fun s =>
    let n := (s.me.tile a).size
    match lsAddr (s.gReg w) false true (s.offZ off) n 16 with
    | .bad cause val => .trap cause val
    | .at_ p => .done (s.enqueue { s.wentry c (.mstacc a) false 0 0 with addr := p, len := n })

end Sys2Proof.Machine
end

