-- ==== Sys2Proof/Machine/Wait.lean ====
section
/-! DEFINITION. Withdrawing a wait, the halt tree (R180, R396, R413, R420), stops at yield points (R291, R326, R415) and
gang-level events (R397, R402, R423). -/

namespace Sys2Proof.Machine

/-- The cores of a gang's live processes with their roles, in role order. -/
def Gang.live (g : Gang) : List (Nat × Nat) := g.bound.filter fun p => !g.exited.contains p.1
def State.gangCores (s : State) (g : Nat) : List Nat :=
  match s.gangAt g with
  | some x => x.live.map fun p => p.2
  | none => []

/-- The scoreboard counter of a waiting word whose result has not begun. -/
def Wait.counted : Wait → Option (BitVec 2)
  | .recv _ _ _ _ _ set | .select _ _ _ set | .preds _ set | .helper _ _ set | .event _ _ set => some set
  | .result _ | .sync _ | .jobs .. | .barrier _ | .gangIssue | .helpers | .start => none

/-- A context stops waiting. An agreed MGANG runs on to its completion (R180); any other waiting word issues again: its reference,
its count, its registration or its arrival is withdrawn. What an atomic has done its latch says (R398). -/
def State.unwait (s : State) (n k : Nat) : State :=
  let agreed := (s.arborAt (arborOf n)).flying.any fun m => m.pos == posOf n && m.ctx == k
  match (s.ctxAt n k).run with
  | .waiting w =>
    let again := fun (t : State) => t.updCtx n k fun x => { x with run := .ready }
    match w with
    | .result id =>
      let t := again ({ s with replies := s.replies.filter fun r => r.id != id } : State)
      match (s.coreAt n).flight.find? fun o => o.id == id, s.replies.find? fun r => r.id == id with
      | some o, _ => (t.updCore n fun c => { c with flight := c.flight.filter fun p => p.id != id }).updCtx n k fun x => x.sbDown o.set
      | none, some r => t.updCtx n k fun x => x.sbDown r.set
      | none, none => t
    | .start => s
    | .sync id =>
      match s.syncs.find? fun y => y.id == id with
      | some y => again (({ s with syncs := s.syncs.filter fun z => z.id != id } : State).updCtx n k fun x => x.sbDown y.set)
      | none => again s
    | .barrier _ => again (s.updProc n fun p => { p with arrived := none })
    | .gangIssue =>
      if agreed then s.resume n k else again (s.withdraw n k)
    | .recv .. | .select .. | .jobs .. | .preds .. | .helper .. | .helpers | .event .. =>
      match w.counted with
      | some set => again (s.updCtx n k fun x => x.sbDown set)
      | none => again s
  | .dead | .ready | .parked | .stopped => s

/-- An MGANG whose partners have all arrived is never withdrawn: a stop waits for it (R180). -/
def State.agreed (s : State) (n k : Nat) : Bool :=
  (s.ctxAt n k).run == .waiting .gangIssue && (s.arborAt (arborOf n)).flying.any fun m => m.pos == posOf n && m.ctx == k
/-- A context that waits at a yield point stops there (R291); one at a barrier keeps its arrival and waits on. -/
def State.stopWaiting (s : State) (n k : Nat) : State :=
  match (s.ctxAt n k).run with
  | .waiting w => if w.yields && w.reissues && !s.agreed n k then (s.unwait n k).updCtx n k fun x => { x with run := .stopped } else s
  | .dead | .ready | .parked | .stopped => s
/-- Every context of a process other than S is to stop at its next yield point. -/
def State.stopAtYields (s : State) (n : Nat) : State :=
  ((List.range 12).drop 1).foldl (fun s k => s.stopWaiting n k) (s.updProc n fun p => { p with yieldStop := true })
/-- Nothing keeps the contexts of a process stopped for good: it has started and is not being ended. -/
def Proc.goes (p : Proc) : Bool := p.started && p.faultExit.isNone && !p.forced
/-- The stopped contexts go on; operand latches need no mark, for the model has none (R414). -/
def State.goOn (s : State) (n : Nat) : State :=
  ((List.range 12).drop 1).foldl (fun s k => s.updCtx n k fun x => if x.run == .stopped && (s.coreAt n).proc.goes then { x with run := .ready } else x)
    (s.updProc n fun p => { p with yieldStop := false })
/-- Every live context other than S has stopped or is parked, or waits at a barrier with its arrival made (R291). -/
def State.allStopped (s : State) (n : Nat) : Bool :=
  ((List.range 12).drop 1).all fun k => match (s.ctxAt n k).run with
    | .dead | .parked | .stopped | .waiting (.barrier _) => true
    | .ready | .waiting _ => false

/-! ## The halt tree (R396) -/

/-- A reference that its agent has not performed. -/
def Reply.unperformed (r : Reply) : Bool := r.call.isSome && r.arrive.isNone
/-- Results of variable latency that have not landed are abandoned at a stop: their counts are withdrawn and their words issue again
(R396, R398). `who` selects contexts. -/
def State.abandonRefs (s : State) (n : Nat) (who : Nat → Bool) : State :=
  (List.range 12).foldl (fun t k =>
    match (t.ctxAt n k).run with
    | .waiting (.result id) =>
      if who k && (((t.coreAt n).flight.any fun o => o.id == id && o.isLoad) || t.replies.any fun r => r.id == id && r.unperformed) then
        (t.unwait n k).takeEvent n k
      else t
    | .waiting _ | .dead | .ready | .parked | .stopped => t) s

/-- The stop record of a process (R396). -/
def Proc.stopRecord (p : Proc) : List Byte := natLE 8 (p.halted.getD 0) ++ natLE 8 p.sent.toNat ++ natLE 8 p.received.toNat

/-- A core of the gang stops issuing for every context but S: MGANGs at an incomplete barrier are withdrawn (R180), references that
have not returned are abandoned (R398), and the stop record goes to the trace (R420). -/
def State.haltCore (s : State) (n : Nat) : State :=
  let c := s.coreAt n
  if !c.bound || c.proc.halted.isSome then s
  else
    let t := s.updCore n fun c =>
      let c := { c with proc := { c.proc with halted := some s.cyc } }
      if c.cur = some 0 then c else c.runNext
    let t := ((List.range 12).drop 1).foldl (fun t k =>
      if (t.ctxAt n k).run == .waiting .gangIssue && !t.agreed n k then t.unwait n k else t) t
    let t := t.abandonRefs n fun k => k != 0
    let p := (t.coreAt n).proc
    t.trace c.dom (traceRec 5 0xFF c.dom p.lcn s.cyc p.superstep 0 p.stopRecord)
def State.haltGang (s : State) (g : Nat) : State :=
  ((s.gangCores g).foldl State.haltCore s).updGang g fun x => { x with stopped := true }
/-- The halt tree releases a gang. While a failed page stops its domain, only the return of that page releases it (R367). -/
def State.releaseGang (s : State) (g : Nat) : State :=
  if (s.gangAt g).any fun x => (s.domainAt x.domain).integrityStop then s.updGang g fun x => { x with eventStop := 3 }
  else ((s.gangCores g).foldl (fun s n => s.updProc n fun p => { p with halted := none }) s).updGang g fun x =>
    { x with stopped := false, eventStop := 0 }

/-! ## Gang-level events (R397) -/

/-- The core whose C takes an event: the given one while its process lives, else that of the lowest live role. -/
def State.eventCore (s : State) (g : Nat) (core : Nat) : Option Nat :=
  let l := s.gangCores g
  if l.contains core then some core else l.head?

/-- A word of a context is under way at a stop: an atomic in flight, a reference performed, an MGANG agreed. -/
def State.underWay (s : State) (n k : Nat) : Bool :=
  match (s.ctxAt n k).run with
  | .waiting (.result _) => true
  | .waiting _ | .dead | .ready | .parked | .stopped => s.agreed n k
/-- C takes a gang-level event: it parks at its stop point. The event waits while C is parked, behind those that wait already, and
while a word of C is under way, whose end is C's stop point; a save's event takes C at an atomic in flight (R398, R402). In an
upcall it is taken as STAGEF, and waits for the ERET of that (R329, R397; notes/assumptions/85.md). -/
def State.gangEvent (s : State) (n : Nat) (cause : BitVec 8) (val : W64) : State :=
  let waits := s.updCtx n 1 fun x => { x with gangEvents := x.gangEvents ++ [(cause, val)] }
  if (s.ctxAt n 1).run == .parked || s.underWay n 1 && cause != cSAVEF then waits
  else if (s.coreAt n).upcall.isSome then waits.takeTrap n 1 { cause := cause, val := val } (s.ctxAt n 1).pc
  else
    let t := s.unwait n 1
    t.park n 1 { cause := cause, val := val } (t.ctxAt n 1).pc

end Sys2Proof.Machine
end

