-- ==== Sys2Proof/Machine/Channel.lean ====
section
/-! DEFINITION. Channels (R236 to R262): ends and records, the path of a message, migration, closure, keyed routing, the
CHAN class and the steps at records and inboxes. Records, rings and inboxes are data of State; which free record or ring
space CHAN takes is the lowest (notes/assumptions/13.md). -/

namespace Sys2Proof.Machine

/-! ## Ends (R236 to R238) -/

def endRecv (b : W128) : Bool := b.getLsbD 75
def endDomain (b : W128) : BitVec 11 := b.extractLsb' 110 11
def endDevice (b : W128) : BitVec 12 := b.extractLsb' 98 12
/-- Die and index of an end's record. -/
def endRec (b : W128) : Nat := bits b 97 76
def endGen (b : W128) : W16 := b.extractLsb' 59 16
def makeEnd (d : BitVec 11) (device : BitVec 12) (rec_ : Nat) (recv : Bool) : W128 :=
  BitVec.ofNat 128 (3 * 2 ^ 125 + 7 * 2 ^ 122 + d.toNat * 2 ^ 110 + device.toNat * 2 ^ 98 + rec_ * 2 ^ 76 + if recv then 2 ^ 75 else 0)
/-- The end with its generation plus 1 (R248). -/
def nextGen (b : W128) : W128 :=
  (b &&& ~~~(BitVec.ofNat 128 (0xFFFF * 2 ^ 59))) ||| BitVec.ofNat 128 ((endGen b + 1).toNat * 2 ^ 59)

def bitUSE : Nat := 124
def bitMOVE : Nat := 123
def bitCLOSE : Nat := 122

/-- `EndCheck` (R238): the trap. `want` none accepts either end. -/
def State.endCheck (s : State) (n : BitVec 6) (want : Option Bool) (perm : Nat) : Option (BitVec 8 × W64) :=
  let r := s.gReg n
  if !r.tag then some (cCAPTAG, 0)
  else if capKind r.bits ≠ 3 then some (cCAPTAG, BitVec.ofNat 64 (capKind r.bits))
  else if endDomain r.bits ≠ s.me.dom then some (cENDDOM, (endDomain r.bits).setWidth 64)
  else if (match want with
      | some v => endRecv r.bits != v
      | none => false) then some (cCAPPERM, n.setWidth 64)
  else if !r.bits.getLsbD perm then some (cCAPPERM, n.setWidth 64)
  else none

/-! ## Records -/

def State.recAt (s : State) (k : Nat) : Option ChanRec := Tab.find s.records k
def State.putRec (s : State) (k : Nat) (r : ChanRec) : State := { s with records := Tab.put s.records k r }
def State.updRec (s : State) (k : Nat) (f : ChanRec → ChanRec) : State :=
  match s.recAt k with
  | some r => s.putRec k (f r)
  | none => s
/-- The record of an end, when it is one of this device's. -/
def State.endRecord (s : State) (b : W128) : Option ChanRec := if endDevice b = s.lodge.deviceId then s.recAt (endRec b) else none
def ChanRec.ringSize (r : ChanRec) : Nat := 2 ^ (r.ringCode + 4)
/-- More than one range in force. -/
def ChanRec.keyed (r : ChanRec) : Bool := decide (1 < ((List.range 8).filter fun i => r.ranges.getLsbD i).length)
/-- The holder of a key: of the ranges in force, the one with the largest start key not above it (R240, R244). -/
def ChanRec.holderOf (r : ChanRec) (key : W32) : Nat :=
  if !r.keyed then 0
  else
    let l := (List.range 8).filter fun i => r.ranges.getLsbD i && decide ((Tab.get 0 r.starts i).toNat ≤ key.toNat)
    l.foldl (fun a i => if (Tab.get 0 r.starts a).toNat ≤ (Tab.get 0 r.starts i).toNat then i else a) (l.head?.getD 0)
def ChanRec.rawKey (r : ChanRec) (m : Msg) : W32 := m.payload.setWidth 32 &&& r.keyMask
/-- The key a message carries: 0 on a channel with one range (R242). -/
def ChanRec.keyOf (r : ChanRec) (m : Msg) : W32 := if r.keyed then r.rawKey m else 0
/-- The deliver number that the next message for a holder will carry. -/
def ChanRec.nextFor (r : ChanRec) (h : Nat) : W32 :=
  if r.keyMask = 0 then r.accept else Tab.get 0 r.nexts h + if h = 0 then r.backlog else 0
/-- Spill mode (R245). -/
def ChanRec.spilling (r : ChanRec) : Bool := !r.spill.isEmpty

/-- The ring with only these of its entries, in order: the head is the oldest entry (R240). -/
def ChanRec.keepRing (r : ChanRec) (l : List RingEntry) : ChanRec :=
  let head := (l.head?.map fun e => e.slot).getD r.ringTail
  let r' := { r with ring := l, ringHead := head, ringFull := !l.isEmpty && head == r.ringTail }
  -- spill mode ends for a holder that has no entry left
  { r' with spill := r'.spill.filter fun h => l.any fun e => e.stamped && e.msg.holder.toNat == h }
/-- Entries the ring still has room for. -/
def ChanRec.ringRoom (r : ChanRec) : Nat :=
  if r.ringFull then 0 else if r.ring.isEmpty then r.ringSize else (r.ringHead + r.ringSize - r.ringTail) % r.ringSize
/-- Room for messages the record has not accepted: writes that wait take theirs first. -/
def ChanRec.freeRoom (r : ChanRec) : Nat := r.ringRoom - r.stuck.length
/-- One deliver number or sequence comes before another: they lie less than 2^31 apart. -/
def seqBefore (a b : W32) : Bool := decide (2 ^ 31 ≤ (a - b).toNat)
/-- A message for a holder stays at the record: the holder is away (R249), or its range is being merged away, and the message came
after that began (R255, R331). -/
def ChanRec.away (r : ChanRec) (h : Nat) (number : W32) : Bool :=
  (r.rTransit && h == 0) || (r.twinsAway.any fun a => a.1 == h) || r.mergeHold.any fun x => x.1 == h && !seqBefore number x.2
/-- Accepted messages for a holder that wait at the record: in the ring, or for the ring. -/
def ChanRec.heldFor (r : ChanRec) (h : Nat) : List Msg :=
  (((r.ring.map fun e => (e.stamped, e.msg)) ++ r.stuck).filter fun e => e.1 && e.2.holder.toNat == h).map fun e => e.2

/-! ## Inboxes -/

def msgFor (b : W128) (m : Msg) : Bool := m.device == endDevice b && m.record == endRec b
/-- The register of a core that holds a receive end of a record: context, register; those set aside from C for an upcall are
C's (R328). -/
def Core.recvEnd (c : Core) (device : BitVec 12) (rec_ : Nat) : Option (Nat × GReg) :=
  let all : Tab Ctx := c.ctxs ++ c.upcall.toList.map fun x => (1, x)
  all.findSome? fun p => p.2.g.findSome? fun q =>
    if q.2.isEnd && endRecv q.2.bits && endDevice q.2.bits == device && endRec q.2.bits == rec_ then some (p.1, q.2) else none
/-- The inbox message of an end with a deliver number. -/
def Core.inboxMsg (c : Core) (b : W128) (n : W32) : Option Msg := c.inbox.find? fun m => msgFor b m && m.seq == n
def Core.dropMsg (c : Core) (b : W128) (n : W32) : Core := { c with inbox := c.inbox.filter fun m => !(msgFor b m && m.seq == n) }

/-- A location that is a peer device. -/
def farLoc (n : Nat) : Option (BitVec 12) := if n < Config.coreCount then none else some (BitVec.ofNat 12 (n - Config.coreCount))
/-- A channel flit of a compute die to another device, under the domain's link secret (R269, R368). -/
def State.tell (s : State) (die : Nat) (dom : BitVec 11) (d : BitVec 12) (n : Notice) : State :=
  s.departAs (die % 4) (devicePort d) (some dom) (.peerNotice d n)
/-- The die of a record (R242). -/
def recDie (k : Nat) : Nat := k / 2 ^ 20
def State.recDomain (s : State) (k : Nat) : BitVec 11 := match s.recAt k with
  | some r => r.domain
  | none => 0
/-- Receive ends that the contexts of a core hold of other devices' records. -/
def Core.farRecvs (c : Core) (here : BitVec 12) : List W128 :=
  let all : Tab Ctx := c.ctxs ++ c.upcall.toList.map fun x => (1, x)
  all.flatMap fun p =>
    (p.2.g.filter fun q => q.2.isEnd && endRecv q.2.bits && endDevice q.2.bits != here).map fun q => q.2.bits
/-- A slot of a core has become free: it is offered to every record with a holder on this core (R245). -/
def State.offerSlots (s : State) (n : Nat) : State :=
  let c := s.coreAt n
  let t := s.records.foldl (fun s p =>
    if p.2.rlocs.any fun l => l.2 == n then s.now (.ringSlotOffer p.1) else s) s
  (c.farRecvs s.lodge.deviceId).foldl (fun t b => t.tell (dieOf n) (endDomain b) (endDevice b) (.slot (endRec b))) t
/-- The sender of a message is a core of this device, of a gang; a location from 4,096 on is the peer device that sent it. -/
def ackHere (a : AckTo) : Bool := decide (a.core < Config.coreCount)
/-- The gang whose SEND a message comes from. -/
def msgGang (m : Msg) : Option Nat := (m.ack.filter ackHere).map fun a => a.gang
/-- The gang whose SEND caused the ring write that faulted. -/
def ChanRec.stuckGang (r : ChanRec) : Option Nat := r.stuck.head?.bind fun e => msgGang e.2

/-! ## At the record (R244 to R246) -/

/-- A ring write page-faults: the gang of the SEND's process stops, and its C takes SPILLF (R246, R397). -/
def State.spillFault (s : State) (k : Nat) (va : Nat) (sender : Option AckTo) : State :=
  match sender.filter ackHere with
  | none => s.atCycle (s.cyc + 65536) (.spillRetry k)
  | some a =>
    let g := a.gang
    let t := s.haltGang g
    match t.eventCore g a.core with
    | none => t.atCycle (s.cyc + 65536) (.spillRetry k)
    | some n => (t.updGang g fun x => { x with eventStop := 1 }).gangEvent n cSPILLF (BitVec.ofNat 64 va)

/-- A message as 128 bytes: header, then payload (R242). -/
def msgImage (m : Msg) : List Byte :=
  let flags := (if m.carried.isSome then 1 else 0) + (if m.closure then 2 else 0) + (if m.forwarded then 4 else 0) + 8 * m.holder.toNat
  natLE 4 m.record ++ natLE 2 m.device.toNat ++ [m.len.setWidth 8, BitVec.ofNat 8 flags] ++ natLE 4 m.seq.toNat ++ natLE 4 m.key.toNat ++
    natLE 16 ((m.carried.map fun (b : W128) => b.toNat).getD 0) ++ natLE 64 m.payload.toNat ++ natLE 32 0

/-- Write an entry at the tail of a record's ring, in domain memory (R241); behind a write that has faulted it waits. A stamped
entry is offered to its holder (R245). -/
def State.ringPut (s : State) (k : Nat) (stamped : Bool) (m : Msg) : State :=
  match s.recAt k with
  | none => s
  | some r =>
    if !r.stuck.isEmpty then s.putRec k { r with stuck := r.stuck ++ [(stamped, m)] }
    else
      let va := r.ringVa + 128 * r.ringTail
      let s := s.walkReady r.domain va
      match s.translate r.domain va 128 .write with
      | .ok p =>
        let tail := (r.ringTail + 1) % r.ringSize
        let ring := r.ring ++ [{ slot := r.ringTail, stamped := stamped, msg := m }]
        let head := (ring.head?.map fun e => e.slot).getD tail
        let t := (s.vwrite r.domain va (msgImage m)).1
        let t := t.putRec k { r with ring := ring, ringHead := head, ringTail := tail, ringFull := head == tail,
                                     ringBase := p.pa - 128 * r.ringTail }
        if stamped then t.later (.ringSlotOffer k) else t
      | .bad _ => (s.putRec k { r with stuck := [(stamped, m)] }).spillFault k va m.ack

/-- An accepted message goes to its holder, or to the ring while that holder is away or `ring` (R245, R249, R255). -/
def State.route (s : State) (k : Nat) (r : ChanRec) (ring : Bool) (m : Msg) : State :=
  let m := { m with forwarded := false }
  let h := m.holder.toNat
  match r.away h m.seq || ring, Tab.find r.rlocs h with
  | false, some n =>
    match farLoc n with
    | some d => s.tell (recDie k) r.domain d (.message { m with ack := none })
    | none => s.later (.inboxMessageArrival n m)
  | _, _ => s.ringPut k true m
/-- Forward a message: in spill mode every one passes the ring (R245), and so does one that others for its holder wait there with
(R249). -/
def State.forward (s : State) (k : Nat) (m : Msg) : State :=
  match s.recAt k with
  | none => s
  | some r => s.route k r (r.spilling || !(r.heldFor m.holder.toNat).isEmpty) m

/-- The predicate of an answered SEND lands in the next cycle, in the place of its word in program order (R56). While a routine of its
stage runs in C, what a SEND of before gets is set aside with C's registers (R328). -/
def State.answerSend (s : State) (a : AckTo) (b : Bool) : State :=
  let l : Landing := { due := s.cyc + 1, issued := a.issued, ctx := a.ctx, res := .q a.q b, flags := 0, sb := some a.sb, late := true }
  s.updCore a.core fun c =>
    match (if a.ctx = 1 then c.upcall else none) with
    | some x => { c with upcall := some ((x.setQ a.q b).sbDown a.sb) }
    | none => { c with land := c.land ++ [l] }

/-- The predicate of a SEND lands, if its message is still in the sender's send queue with its word's count (R258). A sender on
another device is answered. -/
def State.settle (s : State) (m : Msg) (b : Bool) : State :=
  match m.ack with
  | none => s
  | some a =>
    if !ackHere a then s.tell (recDie m.record) (s.recDomain m.record) (BitVec.ofNat 12 (a.core - Config.coreCount)) (.answer m.record m.seq b)
    else
    let same := fun (x : Msg) => x.device == m.device && x.record == m.record && x.seq == m.seq
    match (s.coreAt a.core).sendq.find? same with
    | none => s
    | some x =>
      let t := s.updCore a.core fun c => { c with sendq := c.sendq.filter fun y => !same y }
      match x.ack with
      | some y => t.answerSend y b
      | none => t

/-- Discard a message at a record whose receive end has closed (R253). -/
def State.discardMsg (s : State) (k : Nat) (m : Msg) : State :=
  if m.closure then s else s.updRec k fun r => { r with discard := r.discard + 1 }

/-- A message of one of this device's records. -/
def ofRecord (here : BitVec 12) (k : Nat) (m : Msg) : Bool := m.device == here && m.record == k
/-- An event under way of the channel of one of this device's records: a message, a marker or a notice. -/
def namesRecord (here : BitVec 12) (k : Nat) : Instr → Bool
  | .recordMessageArrival m | .inboxMessageArrival _ m => ofRecord here k m
  | .leaveNotice r _ _ _ _ m => r == k || m.any (ofRecord here k)
  | .arrivalNotice r .. | .closureMarkerArrival r _ => r == k
  | _ => false
/-- A record whose two ends have closed, with nothing of its channel left anywhere, returns to its area (R241, R254). -/
def State.retireRec (s : State) (k : Nat) : State :=
  match s.recAt k with
  | none => s
  | some r =>
    if r.sClosed && r.rClosed && r.ring.isEmpty && r.stuck.isEmpty &&
        !(s.calendar.any fun p => namesRecord s.lodge.deviceId k p.2) && !(s.due.any (namesRecord s.lodge.deviceId k)) &&
        !(s.saved.any fun x => x.queued.contains (s.lodge.deviceId, k)) &&
        !(s.cores.any fun c => (c.2.sendq ++ c.2.inbox).any (ofRecord s.lodge.deviceId k)) then
      { s with records := Tab.erase s.records k
               stages := s.stages.map fun p => if p.2.record = k then (p.1, { p.2 with record := Config.noRecord }) else p }
    else s

/-! ## Closure (R252, R253) -/

/-- The counter of an end in transit (R240, R248): that of its record, or for another device's record what left here with it; none
where only that device knows. -/
def State.transitCounter (s : State) (b : W128) : Option W32 :=
  match s.endRecord b with
  | some r => some (if endRecv b then r.expected else r.sendCounter)
  | none => (s.farEnds.find? fun e => e.device == endDevice b && e.record == endRec b && e.recv == endRecv b && e.gen == endGen b).map
      fun e => e.counter

/-- What is left of an end of another device's record when it closes (R252, R253): the notice to that device. A send end answers
its own counter; the messages a receive end's record has discarded are counted there. -/
def State.closeFar (s : State) (n : Nat) (b : W128) (counter : Option W32) (discarded : Nat) : W64 × State :=
  if endRecv b then
    (((Config.freeWord s.fresh).setWidth 32).setWidth 64,
      ({ s with fresh := s.fresh + 1 } : State).tell (dieOf n) (endDomain b) (endDevice b) (.closed (endRec b) discarded))
  else ((counter.getD 0).setWidth 64, s.tell (dieOf n) (endDomain b) (endDevice b) (.closure (endRec b) counter))

/-- Close an end as CLOSE would: a send end sends its marker; a receive end discards every undelivered message, and closes the
ends they carry. `n` is the core that held it, or the peer device. Answers what CLOSE returns (R261). -/
def State.closeEnd : Nat → State → Nat → W128 → Option W32 → W64 × State
  | 0, s, _, _, _ => (0, s)
  | fuel + 1, s, n, b, counter =>
    let k := endRec b
    let inn := if endRecv b && decide (n < Config.coreCount) then (s.coreAt n).inbox.filter fun m => msgFor b m else []
    let s := if inn.isEmpty then s else (s.updCore n fun c => { c with inbox := c.inbox.filter fun m => !msgFor b m }).offerSlots n
    let ends := fun (l : List Msg) (t : State) => l.foldl (fun t m =>
      match m.carried with
      | some c => (State.closeEnd fuel t n c (t.transitCounter c)).2
      | none => t) t
    match s.endRecord b with
    | none => let q := s.closeFar n b counter (inn.filter fun m => !m.closure).length; (q.1, ends inn q.2)
    | some r =>
      if !endRecv b then ((counter.getD 0).setWidth 64, s.later (.closureMarkerArrival k (.marker counter)))
      else
        let kept := (r.ring.map fun e => (e.stamped, e.msg)) ++ r.stuck
        let all := inn ++ kept.map fun e => e.2
        let t := s.putRec k ({ r with rClosed := true, rTransit := false, stuck := [] }.keepRing [])
        let t := all.foldl (fun t m => t.discardMsg k m) t
        let t := (kept.filter fun e => !e.1).foldl (fun t e => t.settle e.2 false) t
        let t := ends all t
        let count : W64 := match t.recAt k with
          | some r => r.discard.setWidth 64
          | none => 0
        (count, t.retireRec k)

def State.closeFuel (s : State) : Nat := s.records.length + 2
/-- Close an end held in a register. -/
def State.close (s : State) (n : Nat) (r : GReg) : W64 × State := State.closeEnd s.closeFuel s n r.bits (some r.endst)
/-- Close an end carried by a message that is discarded. -/
def State.closeInTransit (s : State) (n : Nat) (b : W128) : State := (State.closeEnd s.closeFuel s n b (s.transitCounter b)).2
/-- The receive end of a record has closed on another device, which discarded so many messages: that device is told the count. -/
def State.closeAway (s : State) (k : Nat) (device : BitVec 12) (discarded : Nat) : State :=
  match s.recAt k with
  | none => s
  | some r =>
    let t := s.putRec k { r with discard := r.discard + BitVec.ofNat 32 discarded }
    let q := State.closeEnd t.closeFuel t (Config.coreCount + device.toNat) (makeEnd r.domain s.lodge.deviceId k true) none
    q.2.tell (recDie k) r.domain device (.discards k (q.1.setWidth 32))
def State.discard (s : State) (k : Nat) (m : Msg) : State :=
  let t := s.discardMsg k m
  let n := match m.ack with
    | some a => a.core
    | none => 0
  match m.carried with
  | some b => t.closeInTransit n b
  | none => t

/-! ## RECORD_MESSAGE_ARRIVAL (R244, R246, R253) -/

/-- The record accepts a message: key, holder, deliver number, predicate, and on to the holder. -/
def State.accept (s : State) (k : Nat) (r : ChanRec) (m : Msg) : State :=
  let key := r.keyOf m
  let h := r.holderOf key
  let number := if r.keyMask = 0 then m.seq else r.nextFor h
  let r' := { r with accept := r.accept + 1, nexts := if r.keyMask = 0 then r.nexts else Tab.put r.nexts h (Tab.get 0 r.nexts h + 1) }
  let t := (s.flow (.msg k m.seq) (.msg (k + 2 ^ 32 * (h + 1)) number)).setPast (.msg k m.seq) []
  ((t.putRec k r').settle m true).forward k { m with seq := number, holder := BitVec.ofNat 3 h, key := key }

/-- Take back from the ring, in sequence, the messages that arrived early. -/
def State.acceptRing : Nat → State → Nat → State
  | 0, s, _ => s
  | fuel + 1, s, k =>
    match s.recAt k with
    | none => s
    | some r =>
      match r.ring.find? fun e => !e.stamped && e.msg.seq == r.accept with
      | some e => State.acceptRing fuel (s.accept k (r.keepRing (r.ring.filter fun x => x.stamped || x.msg.seq != e.msg.seq)) e.msg) k
      | none => s

/-- The sender's posted operations that come before the SEND perform before the message is delivered (R192, R199). -/
def State.sendWaits (s : State) (m : Msg) : Bool :=
  match m.ack with
  | some a => (s.coreAt a.core).postedAny a.after
  | none => false

/-- A message of a core's send queue is out on a link to another device (R270). -/
def State.markOut (s : State) (m : Msg) : State :=
  match m.ack with
  | none => s
  | some a => s.updCore a.core fun c =>
      { c with sendq := c.sendq.map fun x => if x.device == m.device && x.record == m.record && x.seq == m.seq then { x with forwarded := true } else x }
/-- The SEND that a peer device answers, as the core has it in its send queue. -/
def State.answered (s : State) (m : Msg) : Option Msg :=
  s.cores.findSome? fun c => c.2.sendq.find? fun x => x.forwarded && x.device == m.device && x.record == m.record && x.seq == m.seq
/-- A message for a record of another device: it goes out, and stays in the send queue until that device answers (R246, R270). Its
answer comes as a second, forwarded arrival: a closure where the receive end has closed. -/
def State.sendFar (s : State) (m : Msg) : State :=
  if m.forwarded then
    match s.answered m with
    | some x => s.settle x (!m.closure)
    | none => s
  else if s.sendWaits m || !s.reachable m.device then s.later (.recordMessageArrival m)
  else
    let n := (m.ack.map fun a => a.core).getD 0
    (s.tell (dieOf n) (s.coreAt n).dom m.device (.message { m with ack := none })).markOut m

/-- Every device that holds a receive end of a record can be reached (R270). -/
def State.holdersReachable (s : State) (r : ChanRec) : Bool := r.rlocs.all fun p => (farLoc p.2).all s.reachable
/-- A record does not take a message yet: the device of its holder is unreachable, its gang has stopped for a ring write (R246), or the
ring has no entry for it. One entry is kept for the message in sequence, without which no other leaves (notes/assumptions/13.md). -/
def State.recWaits (s : State) (r : ChanRec) (m : Msg) : Bool :=
  !s.holdersReachable r || (r.stuckGang.isSome && r.stuckGang == msgGang m) || decide (r.freeRoom < if m.seq = r.accept then 1 else 2)
/-- A message reaches its record, which is one of this device's. -/
def State.reachRec (s : State) (k : Nat) (r : ChanRec) (m : Msg) : State :=
  if m.forwarded then
    if r.rClosed then (s.discard k m).retireRec k
    else if r.freeRoom = 0 then s.later (.recordMessageArrival m)
    else (s.forward k m).later (.ringSlotOffer k)
  else if s.sendWaits m then s.later (.recordMessageArrival m)
  else if r.rClosed then ((s.settle m false).discard k m).retireRec k
  else if s.recWaits r m then s.later (.recordMessageArrival m)
  else if m.seq ≠ r.accept then s.ringPut k false m
  else State.acceptRing r.ring.length (s.accept k r m) k

def execRecordMessageArrival (m : Msg) (s : State) : Host.Outcome State Fault Refusal :=
  if m.device ≠ s.lodge.deviceId then .next (s.sendFar m)
  else
    match s.recAt m.record with
    | none => .next s
    | some r => .next (s.reachRec m.record r m)

/-! ## Delivery (R259) -/

/-- What a RECV finds. -/
inductive Got where
  | absent
  /-- A message that carries an end, and no register to receive it: ENDLEAK with this value. -/
  | leak (val : W64)
  /-- Delivered: the results, and the arrival notice of a carried end. -/
  | ok (s : State) (res : List Result) (arrive : Option (Nat × Bool))

/-- The result of a message in a g or w destination. -/
def recvResult (d : Option (BitVec 6)) (w : Nat) (v : BitVec 512) : Result :=
  match d with
  | some d => .g d (GReg.data (v.setWidth 64))
  | none => .w w allLanes (v.setWidth 1024)
/-- Payload bytes beyond the length read as zero. -/
def msgBytes (m : Msg) : BitVec 512 := BitVec.ofNat 512 (m.payload.toNat % 2 ^ (8 * min m.len.toNat 64))

def State.recvNow (s : State) (n k : Nat) (d : Option (BitVec 6)) (w : Nat) (e : BitVec 6) (carried : Option (BitVec 6)) (qd : BitVec 3) : Got :=
  let r := (s.ctxAt n k).gReg e
  match (s.coreAt n).inboxMsg r.bits r.endst with
  | none => .absent
  | some m =>
    if m.closure then .ok s [recvResult d w (BitVec.ofNat 512 (2 ^ 63 + m.payload.toNat)), .q qd false] none
    else
      match m.carried, carried with
      | some _, none => .leak (r.endst.setWidth 64)
      | c, x =>
        let t := s.updCore n fun y => y.dropMsg r.bits r.endst
        let t := t.updCtx n k fun y => y.setG e { r with endst := r.endst + 1 }
        let t := (t.updProc n fun p => { p with received := p.received + 1 }).count n 8
        let t := (t.offerSlots n).flow (.msg (m.record + 2 ^ 32 * (m.holder.toNat + 1)) m.seq) (.ctx n k)
        match c, x with
        | some b, some reg =>
          .ok t [recvResult d w (msgBytes m), .q qd true, .g reg { bits := b, tag := true, endst := 0 }] (some (endRec b, endRecv b))
        | _, _ => .ok t [recvResult d w (msgBytes m), .q qd true] none

/-- Several results of one variable-latency word land together (R54). -/
def State.landAll (s : State) (n k : Nat) (set : BitVec 2) (res : List Result) : State :=
  let t := s.cyc + 1 + Config.freeDelay s.fresh
  let mk : Result → Option (BitVec 2) → Landing := fun r j => { due := t, issued := s.cyc, ctx := k, res := r, flags := 0, sb := j, late := true }
  ({ s with fresh := s.fresh + 1 } : State).updCore n fun c =>
    { c with land := c.land ++ (res.map fun r => mk r none) ++ [mk .none (some set)] }
/-- The end that a result writes into a register. -/
def endTo (reg : BitVec 6) : Result → Option W128
  | .g n v => if n = reg ∧ v.isEnd then some v.bits else none
  | .q .. | .m .. | .w .. | .s .. | .none => none
/-- Results that land at the arrival of a carried end (R249). -/
def State.landArrival (s : State) (n k : Nat) (set : BitVec 2) (res : List Result) (a : Nat × Bool) (reg : BitVec 6) : State :=
  let r : Reply := { id := s.ids, arrive := some a, call := none, after := [], core := n, ctx := k, res := res, set := set, hits := [], va := 0, ip := 0 }
  let t := ({ s with ids := s.ids + 1, replies := s.replies ++ [r] } : State).later (.arrivalNotice a.1 a.2 { core := n, ctx := k } reg)
  match res.findSome? (endTo reg) with
  | some b => if endDevice b = s.lodge.deviceId then t else t.tell (dieOf n) (endDomain b) (endDevice b) (.arrive a.1 a.2)
  | none => t
def State.landGot (s : State) (n k : Nat) (set : BitVec 2) (res : List Result) (a : Option (Nat × Bool)) (reg : Option (BitVec 6)) : State :=
  match a, reg with
  | some a, some reg => s.landArrival n k set res a reg
  | _, _ => s.landAll n k set res

/-- The first ready end of a SELECT (R260). -/
def State.selectNow (s : State) (n k : Nat) (b : BitVec 6) (mask : W32) : Option Nat :=
  let x := s.ctxAt n k
  ((List.range 8).map fun j => (x.cursor.toNat + j) % 8).find? fun i =>
    mask.getLsbD i && (let r := x.gReg (b + BitVec.ofNat 6 i); ((s.coreAt n).inboxMsg r.bits r.endst).isSome)

/-- Contexts of a core that wait for a message look again (R259, R260). -/
def State.wakeRecv (s : State) (n : Nat) : State :=
  (List.range 12).foldl (fun s k =>
    match (s.ctxAt n k).run with
    | .waiting (.recv d w e carried qd set) =>
      match s.recvNow n k d w e carried qd with
      | .absent => s
      | .leak v => (s.updCtx n k fun x => x.sbDown set).takeTrap n k { cause := cENDLEAK, val := v } (s.ctxAt n k).pc
      | .ok t res a => (t.landGot n k set res a carried).resume n k
    | .waiting (.select d b mask set) =>
      match s.selectNow n k b mask with
      | none => s
      | some i =>
        ((s.updCtx n k fun x => { x with cursor := BitVec.ofNat 3 (i + 1) }).landAll n k set [.g d (GReg.data (BitVec.ofNat 64 i))]).resume n k
    | _ => s) s

/-! ## INBOX_MESSAGE_ARRIVAL, RING_SLOT_OFFER (R244, R245, R249) -/

/-- A message returns to its record: its end is not on the core it reached (R249). -/
def State.returnMsg (s : State) (n : Nat) (m : Msg) : State :=
  if m.device = s.lodge.deviceId then s.later (.recordMessageArrival { m with forwarded := true })
  else s.tell (dieOf n) (s.coreAt n).dom m.device (.message { m with forwarded := true, ack := none })

/-- A core without a free slot, here or on a peer device, refuses a message: the record writes it to the ring, in spill mode while the
holder is there (R245). While the ring has no room the message waits in the network. -/
def State.refuseMsg (s : State) (core : Nat) (m : Msg) : State :=
  match s.recAt m.record with
  | none => s
  | some r =>
    if r.rClosed then (s.discard m.record m).retireRec m.record
    else if r.ringRoom ≤ r.stuck.length then s.later (.inboxMessageArrival core m)
    else
      let h := m.holder.toNat
      let r := if Tab.find r.rlocs h != some core then r
        else { r with spill := if r.spill.contains h then r.spill else r.spill ++ [h]
                      credits := if (farLoc core).isSome then some 0 else r.credits }
      (s.putRec m.record r).ringPut m.record true m

/-- INBOX_MESSAGE_ARRIVAL. A core of 4,096 or more is a peer device that refuses the message (R245, R270). -/
def execInboxMessageArrival (core : Nat) (m : Msg) (s : State) : Host.Outcome State Fault Refusal :=
  if (farLoc core).isSome ∧ core < 2 * Config.coreCount then .next (if m.device = s.lodge.deviceId then s.refuseMsg core m else s)
  else onCore core s fun s =>
    match (s.coreAt core).recvEnd m.device m.record with
    | none => s.returnMsg core m
    | some e =>
      let c := s.coreAt core
      let ahead := (m.seq - e.2.endst).toNat
      -- the messages of one holder travel in order; a lower deliver number that is not here yet goes first
      if (List.range (min ahead 257)).any fun i => (c.inboxMsg e.2.bits (e.2.endst + BitVec.ofNat 32 i)).isNone then
        s.later (.inboxMessageArrival core m)
      else if Config.inboxSlots ≤ c.inbox.length then
        if m.device = s.lodge.deviceId then s.refuseMsg core m else s.tell (dieOf core) c.dom m.device (.refused m)
      else (s.updCore core fun c => { c with inbox := c.inbox ++ [m] }).wakeRecv core

/-- The deliver number of a message for a holder that is neither at the record nor going to that holder's core: it comes back to the
record first (R249). -/
def strayNumber (here : BitVec 12) (k : Nat) (h : BitVec 3) (at_ : Nat) : Instr → Option W32
  | .recordMessageArrival m => if m.forwarded && ofRecord here k m && m.holder == h then some m.seq else none
  | .inboxMessageArrival n m => if (n != at_ || (farLoc n).isSome) && ofRecord here k m && m.holder == h then some m.seq else none
  | _ => none
/-- A message with a lower deliver number is on its way back to the record. -/
def State.strayBefore (s : State) (k at_ : Nat) (m : Msg) : Bool :=
  ((s.calendar.map fun p => p.2) ++ s.due).any fun i => (strayNumber s.lodge.deviceId k m.holder at_ i).any fun q => seqBefore q m.seq
/-- An entry that its holder's core has a free slot for now. -/
def State.deliverable (s : State) (k : Nat) (r : ChanRec) (e : RingEntry) : Bool :=
  let h := e.msg.holder.toNat
  e.stamped && !r.away h e.msg.seq && match Tab.find r.rlocs h with
    | some n => !s.strayBefore k n e.msg && if (farLoc n).isSome then r.credits != some 0
        else decide ((s.coreAt n).inbox.length < Config.inboxSlots)
    | none => false
/-- Of an entry and those of a list for the same holder, the one with the lowest deliver number. -/
def lowestOf (e : RingEntry) (l : List RingEntry) : RingEntry :=
  (l.filter fun x => x.stamped && x.msg.holder == e.msg.holder).foldl (fun a x => if seqBefore x.msg.seq a.msg.seq then x else a) e
/-- The ring entry that an offered slot takes: the lowest deliver number of a holder whose core has a free slot (R245, R249). -/
def State.nextEntry (s : State) (k : Nat) (r : ChanRec) : Option RingEntry :=
  ((r.ring.filter fun e => (lowestOf e r.ring).slot == e.slot).find? (s.deliverable k r))
/-- An offer that a peer device makes carries the record's number from 2^22 on (R245, R270). -/
def farOffer : Nat := 2 ^ 22
/-- RING_SLOT_OFFER: the next entry goes to its holder. Spill mode ends for a holder that has none left. -/
def execRingSlotOffer (record : Nat) (s : State) : Host.Outcome State Fault Refusal :=
  let k := record % farOffer
  let s := if record < farOffer then s else s.updRec k fun r => { r with credits := r.credits.map fun n => n + 1 }
  match s.recAt k with
  | none => .next s
  | some r =>
    match s.nextEntry k r with
    | none => .next (s.retireRec k)
    | some e =>
      let r := r.keepRing (r.ring.filter fun x => x.slot != e.slot)
      match Tab.find r.rlocs e.msg.holder.toNat with
      | some n =>
        match farLoc n with
        | some d => .next (((s.putRec k { r with credits := r.credits.map fun n => n - 1 }).tell (recDie k) r.domain d
            (.message { e.msg with ack := none })).later (.ringSlotOffer k))
        | none => .next (((s.putRec k r).now (.inboxMessageArrival n e.msg)).later (.ringSlotOffer k))
      | none => .next (s.putRec k r)

/-! ## Migration (R248 to R251) -/

/-- A core's inbox messages of an end go back to their record, in deliver order (R248). -/
def State.returnInbox (s : State) (n : Nat) (b : W128) : State :=
  let back := (s.coreAt n).inbox.filter fun m => msgFor b m
  if back.isEmpty then s
  else
    let t := s.updCore n fun c => { c with inbox := c.inbox.filter fun m => !msgFor b m }
    (back.foldl (fun t m =>
      if m.device = s.lodge.deviceId then t.now (.recordMessageArrival { m with forwarded := true }) else t.returnMsg n m) t).offerSlots n

/-- The record learns that an end leaves a core: in transit, with its counter and new generation. An end of another device's record is
given notice of there. -/
def State.noteLeave (s : State) (n : Nat) (b : W128) (gen : W16) (counter : W32) : State :=
  let k := endRec b
  match s.endRecord b with
  | none =>
    if endDevice b = s.lodge.deviceId then s
    else
      let f : FarEnd := { device := endDevice b, record := k, recv := endRecv b, gen := gen, counter := counter }
      ({ s with farEnds := f :: s.farEnds.filter fun e => !(e.device == f.device && e.record == k && e.recv == f.recv) } : State).tell
        (dieOf n) (endDomain b) f.device (.leave k f.recv gen counter)
  | some _ =>
    if endRecv b then s.updRec k fun r => { r with rTransit := true, expected := counter, rgen := gen }
    else s.updRec k fun r => { r with sTransit := true, sendCounter := counter, sgen := gen }
/-- An end leaves a core: the notice, and then a receive end's inbox messages go back to the record (R248). -/
def State.leave (s : State) (n : Nat) (b : W128) (gen : W16) (counter : W32) : State :=
  let t := s.noteLeave n b gen counter
  if endRecv b && decide (n < Config.coreCount) then t.returnInbox n b else t

/-- A message is injected towards its record. -/
def State.inject (s : State) (m : Msg) : State := s.later (.recordMessageArrival m)

/-- LEAVE_NOTICE: the record acknowledges, and the carrying message is injected. For an end of another device's record the notice
went out at the SEND, and this is its acknowledgment. A core of 4,096 or more is a peer device (R270). -/
def execLeaveNotice (record : Nat) (recvEnd : Bool) (gen : BitVec 16) (counter : BitVec 32) (core : Nat) (m : Option Msg) (s : State) :
    Host.Outcome State Fault Refusal :=
  if 2 * Config.coreCount ≤ core then .fault .noSuchUnit
  else
    let b : W128 := match m with
      | some x => x.carried.getD (makeEnd 0 s.lodge.deviceId record recvEnd)
      | none => makeEnd 0 s.lodge.deviceId record recvEnd
    -- no acknowledgment comes from a device that cannot be reached
    if endDevice b ≠ s.lodge.deviceId ∧ s.reachable (endDevice b) = false then .next (s.later (.leaveNotice record recvEnd gen counter core m))
    else
      let t := if endDevice b = s.lodge.deviceId then s.leave core b gen counter else s
      let t := match farLoc core with
        | some d => t.tell (recDie record) (t.recDomain record) d (.left record recvEnd)
        | none => t
      .next ((m.elim t t.inject).retireRec record)

/-- An end arrives at a location: the record notes it, clears the transit mark and gives the counter; the held messages follow
(R249). -/
def State.arriveAt (s : State) (n : Nat) (k : Nat) (recv : Bool) : W32 × State :=
  match s.recAt k with
  | none => (0, s)
  | some r =>
    if !recv then (r.sendCounter, s.putRec k { r with sTransit := false, sloc := n })
    else
      let t := s.putRec k { r with rTransit := false, rlocs := Tab.put r.rlocs 0 n, credits := none }
      (r.expected, if r.ring.isEmpty then t else t.later (.ringSlotOffer k))

/-- The counter that comes with an end of another device's record: that of its leave notice where the end left from here and has
not moved since; otherwise that device's to say. -/
def State.farCounter (s : State) (b : W128) : W32 × State :=
  match s.farEnds.find? fun e => e.device == endDevice b && e.record == endRec b && e.recv == endRecv b && e.gen == endGen b with
  | some e => (e.counter, { s with farEnds := s.farEnds.filter fun x => x != e })
  | none => ((Config.freeWord s.fresh).setWidth 32, { s with fresh := s.fresh + 1 })

/-- ARRIVAL_NOTICE. A core of 4,096 or more is a peer device that an end has reached (R270). -/
def execArrivalNotice (record : Nat) (recvEnd : Bool) (at_ : CtxAt) (reg : BitVec 6) (s : State) : Host.Outcome State Fault Refusal :=
  if 2 * Config.coreCount ≤ at_.core then .fault .noSuchUnit
  else match farLoc at_.core with
  | some d =>
    let q := s.arriveAt at_.core record recvEnd
    .next (q.2.tell (recDie record) (q.2.recDomain record) d (.counter record recvEnd q.1))
  | none =>
    match s.replies.find? fun r => r.core == at_.core && r.ctx == at_.ctx && r.arrive == some (record, recvEnd) &&
        (r.res.findSome? (endTo reg)).isSome with
    | none => .next (s.retireRec record)
    | some p =>
      let t := { s with replies := s.replies.filter fun x => x.id != p.id }
      let q : W32 × State := match p.res.findSome? (endTo reg) with
        | some b => if endDevice b = s.lodge.deviceId then t.arriveAt at_.core record recvEnd else t.farCounter b
        | none => (0, t)
      let res := p.res.map fun x => match x with
        | .g n v => if n = reg ∧ v.isEnd then .g n { v with endst := q.1 } else x
        | .q .. | .m .. | .w .. | .s .. | .none => x
      .next ((q.2.landNow at_.core at_.ctx res 0 (some p.set)).retireRec record)

/-! ## CLOSURE_MARKER_ARRIVAL, SPILL_RETRY -/

/-- The holders of a record: one for each range in force. -/
def ChanRec.holders (r : ChanRec) : List Nat := if r.keyed then (List.range 8).filter fun i => r.ranges.getLsbD i else [0]
/-- The marker as a holder gets it: after every message for that holder. -/
def ChanRec.marker (r : ChanRec) (here : BitVec 12) (k h : Nat) : Msg :=
  { device := here, record := k, len := 0, closure := true, forwarded := false, holder := BitVec.ofNat 3 h, seq := r.nextFor h, key := 0,
    payload := r.final.setWidth 512, carried := none, ack := none }
/-- The marker may go to a holder: the holder is there, and nothing for it waits at the record (R252). -/
def ChanRec.mayMark (r : ChanRec) (h : Nat) : Bool := !r.marked.contains h && !r.away h (r.nextFor h) && (r.heldFor h).isEmpty
/-- The record, which holds the final sequence, forwards the marker to every holder that may have it, and looks again for the others. -/
def State.forwardMarker (s : State) (k : Nat) (r : ChanRec) : State :=
  let go := r.holders.filter r.mayMark
  let r' := { r with marked := r.marked ++ go }
  let t := go.foldl (fun t h => t.route k r false (r.marker s.lodge.deviceId k h)) (s.putRec k r')
  if r'.holders.all fun h => r'.marked.contains h then t else t.later (.closureMarkerArrival k (.marker (some r.final)))

/-- CLOSURE_MARKER_ARRIVAL: the marker of a send end reaches the record, which sends it on once every message before it is accepted
(R252); or the receive end has closed on another device (R253, R270). -/
def execClosureMarkerArrival (record : Nat) (what : Closing) (s : State) : Host.Outcome State Fault Refusal :=
  match what, s.recAt record with
  | _, none => .next s
  | .receiver device n, some _ => .next (s.closeAway record device n)
  | .marker f, some r =>
    let r := { r with sClosed := true, sTransit := false, final := f.getD r.sendCounter }
    let t := s.putRec record r
    if r.rClosed then .next (t.retireRec record)
    else if r.accept ≠ r.final ∨ r.mergeHold.isSome then .next (t.later (.closureMarkerArrival record (.marker (some r.final))))
    else .next (t.forwardMarker record r)

/-- A record of the gang's messages still has a faulted ring write. -/
def State.gangStuck (s : State) (g : Nat) : Bool := s.records.any fun p => p.2.stuckGang == some g
/-- The halt tree releases a gang that stopped for SPILLF once no write of its messages is stuck (R397). -/
def State.spillDone (s : State) (g : Nat) : State :=
  match s.gangAt g with
  | some x => if x.eventStop = 1 && !s.gangStuck g then s.releaseGang g else s
  | none => s

/-- Make the waiting ring writes of a record, in order, until one faults. -/
def State.ringPuts (s : State) (k : Nat) : List (Bool × Msg) → State
  | [] => s
  | e :: l => (s.ringPut k e.1 e.2).ringPuts k l
/-- The record tries its faulted ring write again (R246, R397). -/
def execSpillRetry (record : Nat) (s : State) : Host.Outcome State Fault Refusal :=
  match s.recAt record with
  | none => .next s
  | some r =>
    if r.stuck.isEmpty then .next s
    else
      let t := (s.putRec record { r with stuck := [] }).ringPuts record r.stuck
      let t := State.acceptRing r.ring.length t record
      match r.stuckGang with
      | some g => .next (t.spillDone g)
      | none => .next t

/-! ## CHAN (R239, R257) -/

def domainCap (d : Domain) (off : Nat) : W128 := BitVec.ofNat 128 (d.record.toNat / 2 ^ (8 * off) % 2 ^ 128)

/-- Free indices from `lo`: an even one with the next for a keyable record (R239). -/
def freeIndex (used : List Nat) (lo n : Nat) (keyable : Bool) : Option Nat :=
  ((List.range n).map fun i => lo + i).find? fun i => !used.contains i && (!keyable || (i % 2 == 0 && !used.contains (i + 1)))
/-- Entries that records occupy at these numbers. -/
def usedEntries (l : List (Nat × Bool)) : List Nat := l.flatMap fun p => if p.2 then [p.1, p.1 + 1] else [p.1]

/-- The lowest free record of a die, an SRAM entry or else an entry of the domain's memory-backed area, which pairs its entries
the same way (R239): its number, and its entry of that area. -/
def State.freeRecord (s : State) (die : Nat) (d : BitVec 11) (keyable : Bool) : Option (Nat × Option Nat) :=
  let used := usedEntries ((s.records.filter fun p => p.1 / 2 ^ 20 == die).map fun p => (p.1 % 2 ^ 20, p.2.keyable))
  let width := if keyable then 2 else 1
  match freeIndex used 0 (min Config.sramRecords (2 * used.length + 2)) keyable with
  | some i => if i + width ≤ Config.sramRecords then some (die * 2 ^ 20 + i, none) else none
  | none =>
    let mine := usedEntries ((s.records.filter fun p => p.2.domain == d).filterMap fun p => p.2.areaEntry.map fun a => (a, p.2.keyable))
    let room := capLength (domainCap (s.domainAt d) 32) / 64
    match freeIndex used Config.sramRecords (2 * used.length + 2) keyable, freeIndex mine 0 (2 * mine.length + 2) keyable with
    | some i, some a => if i + width ≤ 2 ^ 20 ∧ a + width ≤ room then some (die * 2 ^ 20 + i, some a) else none
    | _, _ => none

/-- The lowest free space of a size in the domain's overflow area (R241). -/
def State.freeRing (s : State) (d : BitVec 11) (size : Nat) : Option Nat :=
  let a := domainCap (s.domainAt d) 16
  let used := (s.records.filter fun p => p.2.domain == d).map fun p => (p.2.ringVa, 128 * p.2.ringSize)
  let start := (capBase a + 127) / 128 * 128
  let cand := start :: used.map fun u => u.1 + u.2
  (cand.filter fun c => decide (start ≤ c) && decide (c + size ≤ capBase a + capLength a) &&
    !used.any fun u => overlaps c size u.1 u.2).foldl (fun m c => match m with
      | none => some c
      | some b => some (min b c)) none

def execChan (c : Ctl) (r e : BitVec 6) (cfg : BitVec 32) (s : State) : Host.Outcome State Fault Refusal :=
  issue c fFarLate s fun s =>
    if s.leak r then leakTrap r
    else if s.leak e then leakTrap e
    else
      let die := dieOf s.core
      let d := s.me.dom
      let code := bits cfg 3 0
      let keyable := cfg.getLsbD 4
      let zero : List Result := [.g r (GReg.data 0), .g e (GReg.data 0)]
      let go := fun (t : State) (res : List Result) => Eff.wait (.result t.ids) (t.reply s.core s.k res c.set [] 0 s.cx.pc)
      match s.freeRecord die d keyable, s.freeRing d (128 * 2 ^ (code + 4)) with
      | some (k, area), some va =>
        let s := s.walkReady d va
        let base := match s.translate d va 128 .write with
          | .ok p => p.pa
          | .bad _ => 0
        let x : ChanRec := { domain := d, keyable := keyable, ringCode := code, sTransit := false, rTransit := false, sClosed := false,
                             rClosed := false, mergeHold := none, spill := [], ranges := 1, starts := [], nexts := [], sgen := 0,
                             rgen := 0, keyMask := 0, sloc := s.core, rlocs := [(0, s.core)], sendCounter := 0, accept := 0, expected := 0,
                             final := 0, marked := [], credits := none, discard := 0, twinsAway := [], backlog := 0, ring := [], ringHead := 0, ringTail := 0,
                             ringFull := false, ringBase := base, ringVa := va, areaEntry := area, stuck := [] }
        let dev := s.lodge.deviceId
        go (s.putRec k x) [.g r { bits := makeEnd d dev k false, tag := true, endst := 0 },
                           .g e { bits := makeEnd d dev k true, tag := true, endst := 0 }]
      | _, _ => go s zero

/-! ## SEND (R258) -/

/-- The w register an entry writes. -/
def WEntry.writesW (e : WEntry) (p : Nat) : Bool :=
  match e.op with
  | .cmp _ | .mand .. | .mor .. | .mnot _ | .extr _ | .stl | .stx | .mwracc .. | .mstacc _ | .skip => false
  | .fbin .. | .ffma _ | .fun1 .. | .ibin .. | .sel | .perm | .shuf | .bcast | .ins _ | .rsum _ | .rmax _ | .rmin _ | .cvt .. | .pxenc ..
  | .pxdec .. | .ldl | .ldx | .mov | .mrdacc .. => e.d == p
/-- The result of an earlier wide instruction of the context for a register has not landed. -/
def Core.wPending (c : Core) (k p : Nat) : Bool :=
  (c.wq.any fun e => e.ctx == k && e.writesW p) || c.land.any fun l => l.ctx == k && !l.late && match l.res with
    | .w q _ _ => q == p
    | .g .. | .q .. | .m .. | .s .. | .none => false

/-- The checks of a carried end (R258). -/
def State.carriedCheck (s : State) (n : BitVec 6) : Option (BitVec 8 × W64) :=
  let r := s.gReg n
  if !r.tag then some (cCAPTAG, 0)
  else if capKind r.bits ≠ 3 then some (cCAPTAG, BitVec.ofNat 64 (capKind r.bits))
  else if endDomain r.bits ≠ s.me.dom then some (cENDDOM, (endDomain r.bits).setWidth 64)
  else if !r.bits.getLsbD bitMOVE then some (cCAPPERM, n.setWidth 64)
  else if endRecv r.bits && (match s.endRecord r.bits with
      | some x => x.keyed
      | none => false) then some (cENDSPLIT, n.setWidth 64)
  else none

/-- Payload bytes and their number. -/
def State.payload (s : State) : Payload → BitVec 512 × Nat
  | .g n => ((s.readG n).setWidth 512, 8)
  | .small v => ((small64 v).setWidth 512, 8)
  | .w o len =>
    let n := 4 * (len.toNat + 1)
    (BitVec.ofNat 512 ((s.me.wReg (s.resolveW o).get).toNat % 2 ^ (8 * n)), n)
def State.payloadRes (s : State) : Payload → List WRes
  | .g _ | .small _ => []
  | .w o _ => [s.resolveW o]
def State.payloadPending (s : State) : Payload → Bool
  | .g _ | .small _ => false
  | .w o _ => s.me.wPending s.k (s.resolveW o).get

/-- A stage stops being armed, and its monitors are free (R322). -/
def State.disarmStage (s : State) (id : Nat) : State :=
  { s with
    stages := s.stages.map fun p => if p.1 = id then (p.1, { p.2 with armed := false, record := Config.noRecord }) else p
    monitors := s.monitors.map fun p => if (p.2.stage.map fun x => x.1) = some id then (p.1, Monitor.init) else p }
/-- The armed input end of a stage is sent away (R322). -/
def State.disarmEnd (s : State) (b : W128) : State :=
  if endRecv b && endDevice b == s.lodge.deviceId then
    (s.stages.filter fun p => p.2.armed && p.2.record == endRec b).foldl (fun t p => t.disarmStage p.1) s
  else s

/-- The devices that hold a channel's record and, for a record here, its receive end can be reached (R270). -/
def State.channelReachable (s : State) (b : W128) : Bool :=
  if endDevice b = s.lodge.deviceId then (s.endRecord b).all s.holdersReachable else s.reachable (endDevice b)
def execSend (c : Ctl) (qd : BitVec 3) (e : BitVec 6) (v : Payload) (carried : Option (BitVec 6)) (s : State) : Host.Outcome State Fault Refusal :=
  issue c fFarLate s fun s =>
    match firstBad (s.payloadRes v) with
    | some n => .trap cALLOT n
    | none =>
      match s.endCheck e (some false) bitUSE with
      | some (cause, val) => .trap cause val
      | none =>
        if s.payloadPending v then .hold
        else
          match carried.bind s.carriedCheck with
          | some (cause, val) => .trap cause val
          | none =>
            let r := s.gReg e
            if Config.sendSlots ≤ s.me.sendq.length || !s.channelReachable r.bits then .hold
            else
              let p := s.payload v
              let inner := carried.map s.gReg
              let m : Msg := { device := endDevice r.bits, record := endRec r.bits, len := BitVec.ofNat 7 p.2, closure := false,
                               forwarded := false, holder := 0, seq := r.endst, key := 0, payload := p.1,
                               carried := inner.map fun x => nextGen x.bits,
                               ack := some { gang := s.me.proc.gang, core := s.core, ctx := s.k, q := qd, sb := c.set, issued := s.cyc, after := s.me.poIds s.k } }
              let t := s.updCx fun x => x.setG e { r with endst := r.endst + 1 }
              let t := (t.updProc s.core fun q => { q with sent := q.sent + 1 }).count s.core 7
              let t := (t.updMe fun q => { q with sendq := q.sendq ++ [m] }).flow (.ctx s.core s.k) (.msg m.record m.seq)
              match carried, inner with
              | some n, some x =>
                let t := (t.updCx fun y => y.setG n (GReg.data 0)).disarmEnd x.bits
                let gen := endGen x.bits + 1
                let t := if endDevice x.bits = s.lodge.deviceId then t else t.leave s.core x.bits gen x.endst
                .done (t.later (.leaveNotice (endRec x.bits) (endRecv x.bits) gen x.endst s.core (some m)))
              | _, _ => .done (t.inject m)

/-! ## RECV and TRYRECV (R259) -/

def recvRes (s : State) : RDst → List WRes
  | .g _ => []
  | .w o => [s.resolveW o]
def recvG : RDst → Option (BitVec 6)
  | .g n => some n
  | .w _ => none
def State.recvW (s : State) : RDst → Nat
  | .g _ => 0
  | .w o => (s.resolveW o).get
/-- The checks at issue, in order; the register that leaks. -/
def State.recvLeak (s : State) (d : RDst) (carried : Option (BitVec 6)) : Option (BitVec 6) :=
  match recvG d with
  | some n => if s.leak n then some n else carried.filter s.leak
  | none => carried.filter s.leak

/-- The common part of RECV and TRYRECV; `absent` is what an absent message means. -/
def recvIssue (s : State) (c : Ctl) (d : RDst) (e : BitVec 6) (carried : Option (BitVec 6)) (qd : BitVec 3) (absent : Eff) : Eff :=
  match firstBad (recvRes s d) with
  | some n => .trap cALLOT n
  | none =>
    match s.endCheck e (some true) bitUSE with
    | some (cause, val) => .trap cause val
    | none =>
      match s.recvLeak d carried with
      | some n => leakTrap n
      | none =>
        if (recvG d).isNone && s.me.wPending s.k (s.recvW d) then .hold
        else
          match s.recvNow s.core s.k (recvG d) (s.recvW d) e carried qd with
          | .absent => absent
          | .leak v => .trap cENDLEAK v
          | .ok t res a => .done (t.landGot s.core s.k c.set res a carried)

def fRecv : Form := fFarYieldLate
def execRecv (c : Ctl) (d : RDst) (e : BitVec 6) (carried : Option (BitVec 6)) (qd : BitVec 3) (s : State) : Host.Outcome State Fault Refusal :=
  issue c fRecv s fun s => recvIssue s c d e carried qd (.wait (.recv (recvG d) (s.recvW d) e carried qd c.set) s)
def execTryrecv (c : Ctl) (d : RDst) (e : BitVec 6) (carried : Option (BitVec 6)) (qd : BitVec 3) (s : State) : Host.Outcome State Fault Refusal :=
  issue c fFarLate s fun s =>
    recvIssue s c d e carried qd (.done (s.landAll s.core s.k c.set [recvResult (recvG d) (s.recvW d) 0, .q qd false]))

/-! ## SELECT, CLOSE and ENDINFO (R260 to R262) -/

def execSelect (c : Ctl) (d b : BitVec 6) (mask : BitVec 32) (s : State) : Host.Outcome State Fault Refusal :=
  issue c fRecv s fun s =>
    let regs := ((List.range 8).filter fun i => mask.getLsbD i).map fun i => b + BitVec.ofNat 6 i
    match regs.findSome? fun n => s.endCheck n (some true) bitUSE with
    | some (cause, val) => .trap cause val
    | none =>
      if s.leak d then leakTrap d
      else
        match s.selectNow s.core s.k b mask with
        | none => .wait (.select d b mask c.set) s
        | some i =>
          .done ((s.updCx fun x => { x with cursor := BitVec.ofNat 3 (i + 1) }).landAll s.core s.k c.set
            [.g d (GReg.data (BitVec.ofNat 64 i))])

def execClose (c : Ctl) (d e : BitVec 6) (s : State) : Host.Outcome State Fault Refusal :=
  issue c fFarLate s fun s =>
    match s.endCheck e none bitCLOSE with
    | some (cause, val) => .trap cause val
    | none =>
      let r := s.gReg e
      let split := endRecv r.bits && match s.endRecord r.bits with
        | some x => x.keyed
        | none => false
      if split then .trap cENDSPLIT (e.setWidth 64)
      else if s.leak d && d != e then leakTrap d
      else
        let t := s.updCx fun x => x.setG e (GReg.data 0)
        let q := t.close s.core r
        .wait (.result q.2.ids) (q.2.reply s.core s.k [.g d (GReg.data q.1)] c.set [] 0 s.cx.pc)

/-- The holder index of this core's receive end. -/
def ChanRec.holderAt (r : ChanRec) (n : Nat) : Nat := ((r.rlocs.find? fun p => p.2 == n).map fun p => p.1).getD 0
/-- Messages still to be delivered to a holder (R262): accepted ones, and early ones that will come to it. Of a holder whose range is
being merged away, those from before the merge hold; the others count for neither holder. -/
def ChanRec.queuedFor (r : ChanRec) (h : Nat) (endst : W32) : Nat :=
  match r.mergeHold.filter fun x => x.1 == h with
  | some x => min 0xFFFF (x.2 - endst).toNat
  | none =>
    let early := ((r.ring.filter fun e => !e.stamped).map fun e => e.msg) ++ (r.stuck.filter fun e => !e.1).map fun e => e.2
    min 0xFFFF ((r.nextFor h - endst).toNat + (early.filter fun m => r.holderOf (r.keyOf m) == h).length)
def endInfo (r : ChanRec) (n : Nat) (g : GReg) : W64 :=
  let recv := endRecv g.bits
  let h := if recv then r.holderAt n else 0
  BitVec.ofNat 64 (g.endst.toNat * 2 ^ 32 + h * 2 ^ 19 + (if r.keyed then 2 ^ 18 else 0) +
    (if (if recv then r.marked.contains h else r.rClosed) then 2 ^ 17 else 0) + (if recv then 2 ^ 16 + r.queuedFor h g.endst else 0))
/-- For an end of another device's record: the counter and the end are here; holder, keyed, peer closed and queued are that
device's to say. -/
def farInfo (g : GReg) (v : W64) : W64 :=
  let open_ : W64 := if endRecv g.bits then 0x3EFFFF else 0x60000
  (v &&& open_) ||| BitVec.ofNat 64 (g.endst.toNat * 2 ^ 32 + if endRecv g.bits then 2 ^ 16 else 0)
def execEndinfo (c : Ctl) (d e : BitVec 6) (s : State) : Host.Outcome State Fault Refusal :=
  issue c fFarLate s fun s =>
    match s.endCheck e none bitUSE with
    | some (cause, val) => .trap cause val
    | none =>
      if s.leak d then leakTrap d
      else
        let g := s.gReg e
        let q : W64 × State := match s.endRecord g.bits with
          | some r => (endInfo r s.core g, s)
          | none => (farInfo g (Config.freeWord s.fresh), { s with fresh := s.fresh + 1 })
        .wait (.result q.2.ids) (q.2.reply s.core s.k [.g d (GReg.data q.1)] c.set [] 0 s.cx.pc)

end Sys2Proof.Machine
end

