-- ==== Sys2Proof/Machine/Node.lean ====
section
/-! DEFINITION. Dependency graphs (R299 to R318): node records in domain memory, their states and credits, ready queues,
faults, cones and retries, the status block, JOB_COMPLETION and the GRAPH class. Dispatch stands in Launch.lean. -/

namespace Sys2Proof.Machine

/-! ## Records (R300, R312) -/

def nWAITING : Nat := 0
def nEARLY : Nat := 1
def nREADY : Nat := 2
def nRUNNING : Nat := 3
def nDONE : Nat := 4
def nFAULTED : Nat := 5
def nCANCELLED : Nat := 6
def nRETRYING : Nat := 7
def nodeTerminal (st : Nat) : Bool := st == nDONE || st == nFAULTED || st == nCANCELLED

/-- A field of a node record, by offset and size. -/
def State.nGet (s : State) (d : BitVec 11) (va off n : Nat) : Nat := s.vget d (va + off) n
def State.nPut (s : State) (d : BitVec 11) (va off n v : Nat) : State := s.vput d (va + off) n v
def State.nState (s : State) (d : BitVec 11) (va : Nat) : Nat := s.nGet d va 0 1
def State.nKind (s : State) (d : BitVec 11) (va : Nat) : Nat := s.nGet d va 1 1
def State.nMarks (s : State) (d : BitVec 11) (va : Nat) : Nat := s.nGet d va 46 1
/-- The addresses of a successor list, in order. -/
def State.succs (s : State) (d : BitVec 11) (va : Nat) : List Nat :=
  (List.range (s.nGet d va 12 2)).map fun j => s.vget d (s.nGet d va 16 8 + 8 * j) 8

def Graph.nodes (g : Graph) : List Nat := (List.range g.count).map fun i => g.records.toNat + 128 * i
def Graph.holds (g : Graph) (d : BitVec 11) (va : Nat) : Bool :=
  g.domain == d && decide (g.records.toNat ≤ va) && decide (va < g.records.toNat + 128 * g.count) && (va - g.records.toNat) % 128 == 0
/-- The armed graph a record belongs to. -/
def State.graphOf (s : State) (d : BitVec 11) (va : Nat) : Option Graph := s.graphs.find? fun g => g.holds d va

/-- The lines of a record and of its successor list, where the Bandstand reads them (R274, R299). -/
def State.recordReady (s : State) (d : BitVec 11) (va : Nat) : State :=
  let t := s.vready d va 128
  t.vready d (t.nGet d va 16 8) (8 * t.nGet d va 12 2)
/-- Those of every record of the graph a record belongs to; the Bandstand's event begins with them. -/
def State.graphReady (s : State) (d : BitVec 11) (va : Nat) : State :=
  match s.graphOf d va with
  | none => s.vready d va 128
  | some g => g.nodes.foldl (fun t m => t.recordReady d m) s

/-- Nodes of a graph in a state. -/
def State.nodeCount (s : State) (g : Graph) (st : Nat) : Nat := (g.nodes.filter fun va => s.nState g.domain va == st).length
def State.graphDone (s : State) (g : Graph) : Bool := g.nodes.all fun va => nodeTerminal (s.nState g.domain va)
/-- The 64 bytes of a status block (R312). -/
def State.statusBlock (s : State) (g : Graph) : List Byte :=
  ((List.range 8).flatMap fun st => natLE 4 (s.nodeCount g st)) ++ natLE 4 g.count ++ natLE 4 (if s.graphDone g then 1 else 0) ++
    natLE 2 ((g.firstFault.map fun f => f.1).getD 0xFFFF) ++ [(g.firstFault.map fun f => f.2).getD 0] ++ List.replicate 21 0
def State.writeStatus (s : State) (d : BitVec 11) (va : Nat) : State :=
  match s.graphOf d va with
  | some g => (s.vwrite d g.status.toNat (s.statusBlock g)).1
  | none => s
def Saved.ofNode (x : Saved) (d : BitVec 11) (va : Nat) : Bool :=
  x.gangs.any fun g => g.2.domain == d && g.2.node == some (BitVec.ofNat 64 va)
/-- Saved processes of a node that is cancelled or retried are discarded, and their ends close (R254, R292). -/
def State.dropSaved (s : State) (d : BitVec 11) (va : Nat) : State :=
  let mine := s.saved.filter fun x => x.ofNode d va
  if mine.isEmpty then s
  else
    let t := { s with saved := s.saved.filter fun x => !x.ofNode d va }
    let t := (mine.flatMap fun x => x.ends).foldl (fun t b => t.closeInTransit 0 b) t
    -- nothing of those channels is under way there any more (R241)
    ((mine.flatMap fun x => x.queued).filter fun q => q.1 == t.lodge.deviceId).foldl (fun t q => t.retireRec q.2) t
/-- A state change, and the status block after it. -/
def State.setNode (s : State) (d : BitVec 11) (va st : Nat) : State :=
  let t := if st = nEARLY ∨ st = nRUNNING then s else s.dropSaved d va
  (t.nPut d va 0 1 st).writeStatus d va

/-- The gangs of a node's attempt: its own, and for a stage its twins. -/
def State.nodeGangs (s : State) (d : BitVec 11) (va : Nat) : List Nat :=
  (s.gangs.filter fun p => p.2.domain == d && p.2.node == some (BitVec.ofNat 64 va)).map fun p => p.1
/-- The Bandstand that owns a record: the home die of its line (R18, R299). -/
def State.nodeDie (s : State) (d : BitVec 11) (va : Nat) : Nat :=
  match s.translate d va 1 .read with
  | .ok (.hbm pa) => homeDie pa
  | .ok (.peer ..) | .ok (.host ..) | .bad _ => 0

def State.unqueue (s : State) (d : BitVec 11) (va : Nat) : State :=
  { s with ready := s.ready.filter fun r => !(r.domain == d && r.node == BitVec.ofNat 64 va) }
def State.dropExit (s : State) (d : BitVec 11) (va : Nat) : State :=
  { s with keptExits := s.keptExits.filter fun k => !(k == (d, BitVec.ofNat 64 va)) }
/-- Every Bandstand with a queued node looks again: a core has become free or assigned, or an owner claimed. -/
def State.kick (s : State) : State :=
  (List.range 4).foldl (fun s die => if s.ready.any fun r => r.die == die then s.later (.nodeDispatch die) else s) s

/-! ## Firing (R301, R302, R306, R307) -/

/-- The early condition of R301. -/
def State.earlyOk (s : State) (d : BitVec 11) (va : Nat) : Bool :=
  let early := s.nGet d va 8 2
  let kind := s.nKind d va
  decide (1 ≤ early) && s.nGet d va 6 2 + early == s.nGet d va 4 2 && (s.nGet d va 3 1).testBit 5 && (kind == 0 || kind == 3)

/-- WAITPs of the node's processes return true once done credits = tokens needed (R307). -/
def State.wakePreds (s : State) (d : BitVec 11) (va : Nat) : State :=
  if s.nGet d va 10 2 ≠ s.nGet d va 4 2 then s
  else
    ((s.nodeGangs d va).flatMap fun g => s.gangCores g).foldl (fun s n =>
      (List.range 12).foldl (fun s k =>
        match (s.ctxAt n k).run with
        | .waiting (.preds qd set) => ((s.flow (.node d va) (.ctx n k)).landAll n k set [.q qd true]).resume n k
        | _ => s) s) s

/-- What is still to be done at records. -/
inductive NodeTask where
  | eval (va : Nat)
  /-- Evaluation after a withdrawal of credits (R311). -/
  | recheck (va : Nat)
  | start (va : Nat)
  | done (va : Nat)
  | token (va marks : Nat)
  | complete (va : Nat)
deriving DecidableEq, Repr

def NodeTask.va : NodeTask → Nat
  | .eval v | .recheck v | .start v | .done v | .token v _ | .complete v => v

/-- What happens before a node's completion, or its done trigger, happens before what follows it at its successors (R200, R203). -/
def State.passOn (s : State) (d : BitVec 11) (va : Nat) : State :=
  if s.past.isEmpty then s else (s.succs d va).foldl (fun t m => t.flow (.node d va) (.node d m)) s

/-- R301 at one node: the new state, and what follows from it. -/
def State.evalNode (s : State) (d : BitVec 11) (va : Nat) : State × List NodeTask :=
  let st := s.nState d va
  let full := s.nGet d va 6 2 == s.nGet d va 4 2
  if st = nWAITING then
    if full || s.earlyOk d va then
      let t := s.setNode d va nREADY
      if s.nKind d va = 2 then
        (t.toHost (BitVec.ofNat 16 (s.nGet d va 42 2)) none (.signal (BitVec.ofNat 16 (s.nGet d va 42 2)) d (BitVec.ofNat 64 va) (BitVec.ofNat 64 (s.nGet d va 48 8))), [.complete va])
      else
        let die := s.nodeDie d va
        let r : Ready := { die := die, prio := s.nGet d va 2 1 % 4, domain := d, node := BitVec.ofNat 64 va }
        (({ t with ready := t.ready ++ [r] } : State).later (.nodeDispatch die), [])
    else (s, [])
  else if st = nEARLY ∧ full then
    let t := s.setNode d va nRUNNING
    if s.keptExits.contains (d, BitVec.ofNat 64 va) then (t.dropExit d va, [.complete va]) else (t, [])
  else (s, [])

/-- A node is still ready after a withdrawal of credits: it has its tokens, or its early credits still make up for them. A post that
came after the node was queued takes nothing from that (R301). -/
def State.staysReady (s : State) (d : BitVec 11) (va : Nat) : Bool :=
  let early := s.nGet d va 8 2
  decide (s.nGet d va 4 2 ≤ s.nGet d va 6 2) || (decide (1 ≤ early) && decide (s.nGet d va 4 2 ≤ s.nGet d va 6 2 + early))

/-- One task; a record of no armed graph is left alone. -/
def State.nodeStep (s : State) (d : BitVec 11) (t : NodeTask) : State × List NodeTask :=
  let va := t.va
  if (s.graphOf d va).isNone then (s, [])
  else
    match t with
    | .eval _ => s.evalNode d va
    | .recheck _ =>
      if s.nState d va ≠ nREADY then s.evalNode d va
      else if s.staysReady d va then (s, []) else ((s.unqueue d va).setNode d va nWAITING, [])
    | .start _ => (s.nPut d va 8 2 (s.nGet d va 8 2 + 1), [.eval va])
    | .done _ => ((s.nPut d va 10 2 (s.nGet d va 10 2 + 1)).wakePreds d va, [])
    | .token _ marks =>
      let t := s.nPut d va 6 2 (s.nGet d va 6 2 + 1)
      let t := if marks % 2 = 1 then t.nPut d va 8 2 (t.nGet d va 8 2 - 1) else t
      let t := if marks / 2 % 2 = 0 then t.nPut d va 10 2 (t.nGet d va 10 2 + 1) else t
      (t.wakePreds d va, [.eval va])
    | .complete _ => ((s.passOn d va).setNode d va nDONE, (s.succs d va).map fun m => .token m (s.nMarks d va))

def State.nodeRun : Nat → State → BitVec 11 → List NodeTask → State
  | 0, s, _, _ => s
  | _ + 1, s, _, [] => s
  | fuel + 1, s, d, t :: r =>
    let x := s.nodeStep d t
    State.nodeRun fuel x.1 d (x.2 ++ r)
/-- Enough for every node to complete once and every edge to carry its credits. -/
def State.nodeFuel (s : State) (l : List NodeTask) : Nat :=
  s.graphs.foldl (fun n g => n + (g.nodes.foldl (fun m va => m + 4 + 2 * s.nGet g.domain va 12 2) 0)) (2 * l.length + 2)
/-- Perform tasks in order, each with what follows from it before the next. -/
def State.nodes (s : State) (d : BitVec 11) (l : List NodeTask) : State :=
  let t := match l with
    | [] => s
    | x :: _ => s.graphReady d x.va
  State.nodeRun (t.nodeFuel l) t d l

/-! ## Cones, cancellation, faults and retries (R308 to R311) -/

def State.coneRun : Nat → State → BitVec 11 → List Nat → List Nat → List Nat
  | 0, _, _, _, _ => []
  | _ + 1, _, _, [], _ => []
  | fuel + 1, s, d, m :: q, seen =>
    if seen.contains m || (s.graphOf d m).isNone then State.coneRun fuel s d q seen
    else m :: State.coneRun fuel s d (q ++ s.succs d m) (m :: seen)
/-- The cone of a node, breadth-first (R310). -/
def State.cone (s : State) (d : BitVec 11) (va : Nat) : List Nat :=
  State.coneRun (s.nodeFuel []) s d (s.succs d va) [va]

/-- A cancel request to every gang of a node (R292). -/
def State.askCancel (s : State) (d : BitVec 11) (va : Nat) : State :=
  (s.nodeGangs d va).foldl (fun s g => s.now (.preemptRequest g true)) s
def State.markCancel (s : State) (d : BitVec 11) (va : Nat) : State :=
  (s.nodeGangs d va).foldl (fun s g => s.updGang g fun x => { x with cancel := true }) s

/-- One cancellation (R310). -/
def State.cancelNode (s : State) (d : BitVec 11) (m : Nat) : State :=
  let st := s.nState d m
  if st = nWAITING ∨ st = nREADY ∨ st = nRETRYING then
    let t := (s.unqueue d m).setNode d m nCANCELLED
    { t with retries := t.retries.filter fun r => !(r.domain == d && r.node == BitVec.ofNat 64 m) }
  else if nodeTerminal st then s
  else if s.nKind d m = 1 then
    match s.jobs.find? fun p => p.2.domain == d && p.2.node == some (BitVec.ofNat 64 m) with
    | none => s.setNode d m nCANCELLED
    | some (id, j) =>
      if j.begun || j.ended then s.putJob id { j with cancelled := true } else s.endJob id { j with cancelled := true } stCANCELLED
  else if (s.nodeGangs d m).isEmpty then (s.dropExit d m).setNode d m nCANCELLED
  else (s.markCancel d m).askCancel d m
def State.cancelCone (s : State) (d : BitVec 11) (va : Nat) : State :=
  let s := s.graphReady d va
  (s.cone d va).foldl (fun s m => s.cancelNode d m) s

/-- A retry whose processes are gone goes on (R311). -/
def State.checkRetries (s : State) : State :=
  s.retries.foldl (fun s r =>
    if r.waitFor.all fun m => (s.nodeGangs r.domain m.toNat).isEmpty then s.now (.nodeRetry r.domain r.node) else s) s

/-- The fault code in the record, and the first fault of the graph (R308, R312). -/
def State.recordFault (s : State) (d : BitVec 11) (va : Nat) (code : BitVec 8) : State :=
  let t := s.nPut d va 15 1 code.toNat
  let mark := fun (g : Graph) => if g.holds d va && g.firstFault.isNone then { g with firstFault := some (t.nGet d va 44 2, code) } else g
  ({ t with graphs := t.graphs.map mark } : State).writeStatus d va

/-- A cancellation has reached the attempt of a node (R310). -/
def State.cancelled (s : State) (d : BitVec 11) (va : Nat) : Bool :=
  ((s.nodeGangs d va).filterMap s.gangAt).any fun g => g.cancel
/-- The EARLY nodes of a retried node's cone are to end (R311 step 1). One that is being cancelled ends CANCELLED (R310), and is
waited for like the others. -/
def State.stopEarly (s : State) (d : BitVec 11) (va : Nat) : List Nat × State :=
  let early := (s.cone d va).filter fun m => s.nState d m == nEARLY
  (early, early.foldl (fun t m => if t.cancelled d m then t else ((t.dropExit d m).setNode d m nRETRYING).askCancel d m) s)

/-- R309, once the attempt's processes are gone; an invalid header ignores the retry count. -/
def State.failNode (s : State) (d : BitVec 11) (va : Nat) (code : BitVec 8) (retry : Bool) : State :=
  let s := (s.graphReady d va).recordFault d va code
  let policy := s.nGet d va 3 1
  if retry && decide (s.nGet d va 14 1 < policy % 16) then
    let t := s.setNode d va nRETRYING
    let q := t.stopEarly d va
    let r : Retry := { domain := d, node := BitVec.ofNat 64 va, waitFor := q.1.map fun m => BitVec.ofNat 64 m }
    ({ q.2 with retries := q.2.retries ++ [r] } : State).checkRetries
  else
    let t := (s.nPut d va 48 8 code.toNat).setNode d va nFAULTED
    if policy.testBit 4 then (t.passOn d va).nodes d ((t.succs d va).map fun m => .token m (t.nMarks d va))
    else t.cancelCone d va

/-- A process of a node ends by a fault exit (R308): only the attempt's first fault counts, and the others are asked to end. -/
def State.nodeFault (s : State) (g : Nat) (code : BitVec 8) : State :=
  match s.gangAt g with
  | none => s
  | some x =>
    match x.node with
    | none =>
      if x.fault.isSome then s
      else (s.updGang g fun y => { y with fault := some code }).now (.preemptRequest g true)
    | some node =>
      let d := x.domain
      let l := s.nodeGangs d node.toNat
      if x.cancel || x.fault.isSome then s
      else
        let t := l.foldl (fun t h => t.updGang h fun y => { y with fault := some code }) s
        (t.recordFault d node.toNat code).askCancel d node.toNat

/-- The last process of a node's attempt has gone (R301, R309, R310, R336). -/
def State.attemptOver (s : State) (d : BitVec 11) (va : Nat) (cancel : Bool) (fault : Option (BitVec 8)) : State :=
  let s := s.graphReady d va
  let st := s.nState d va
  if st ≠ nEARLY ∧ st ≠ nRUNNING then s.checkRetries
  else if cancel then (s.setNode d va nCANCELLED).checkRetries
  else
    match fault with
    | some c => s.failNode d va c true
    | none =>
      if st = nEARLY then { s with keptExits := s.keptExits ++ [(d, BitVec.ofNat 64 va)] }
      else s.nodes d [.complete va]

/-- NODE_RETRY (R311). -/
def execNodeRetry (domain : BitVec 11) (node : BitVec 64) (s : State) : Host.Outcome State Fault Refusal :=
  let d := domain
  let va := node.toNat
  match s.retries.find? fun r => r.domain == d && r.node == node with
  | none => .next s
  | some r =>
    let s := s.graphReady d va
    let q := s.stopEarly d va
    if s.nState d va ≠ nRETRYING ∨ r.waitFor.any (fun m => !(s.nodeGangs d m.toNat).isEmpty) = true then .next s
    else if !q.1.isEmpty then
      let more := q.1.map fun m => BitVec.ofNat 64 m
      let l := q.2.retries.map fun x => if x = r then { x with waitFor := x.waitFor ++ more } else x
      .next ({ q.2 with retries := l } : State).checkRetries
    else
      let cone := s.cone d va
      let drop := fun (t : State) (r : Retry) => r.domain == d && (r.node == node ||
        (cone.contains r.node.toNat && t.nState d r.node.toNat == nRETRYING))
      let s := { s with retries := s.retries.filter fun r => !drop s r }
      -- withdraw the credits that the node and the nodes of the cone posted to cone nodes, but for a node that has posted tokens,
      -- whose credits its tokens have replaced
      let posted := fun (t : State) (x : Nat) =>
        t.nState d x == nDONE || (t.nState d x == nFAULTED && (t.nGet d x 3 1).testBit 4)
      let t := (va :: cone).foldl (fun t x =>
        if posted t x then t
        else
          let marks := t.nMarks d x
          ((t.succs d x).filter fun m => cone.contains m).foldl (fun t m =>
            let t := if marks % 2 = 1 then t.nPut d m 8 2 (t.nGet d m 8 2 - 1) else t
            if marks / 2 % 2 = 1 then t.nPut d m 10 2 (t.nGet d m 10 2 - 1) else t) t) s
      let t := cone.foldl (fun t m => if posted t m then t else t.nPut d m 46 1 (t.nMarks d m / 4 * 4)) t
      let t := cone.foldl (fun t m => if t.nState d m = nRETRYING then t.setNode d m nWAITING else t) t
      let t := t.nodes d (cone.map .recheck)
      let t := (t.nPut d va 14 1 (t.nGet d va 14 1 + 1)).nPut d va 46 1 0
      let t := t.setNode d va nREADY
      let die := t.nodeDie d va
      let q : Ready := { die := die, prio := t.nGet d va 2 1 % 4, domain := d, node := node }
      .next (({ t with ready := t.ready ++ [q] } : State).later (.nodeDispatch die))

/-! ## Jobs (R229, R230, R305) -/

/-- JOB_COMPLETION: a process's job completes, and is counted in ticket order; the job of a job node decides it. -/
def execJobCompletion (id : Nat) (s : State) : Host.Outcome State Fault Refusal :=
  match Tab.find s.jobs id with
  | none => .next s
  | some j =>
    if !j.ended || j.completed then .next s
    else
      match j.owner, j.node with
      | some o, _ => .next (s.completeJob id j o)
      | none, none => .next { s with jobs := Tab.erase s.jobs id }
      | none, some node =>
        let t := { s with jobs := Tab.erase s.jobs id }
        let d := j.domain
        let va := node.toNat
        let t := (t.flow (.job id) (.node d va)).graphReady d va
        if t.nState d va ≠ nRUNNING then .next t
        else
          let t := t.nPut d va 48 8 j.status.toNat
          if j.cancelled then .next (t.setNode d va nCANCELLED)
          else if j.status = stOK then .next (t.nodes d [.complete va])
          else .next (t.failNode d va (0x80 + j.status) true)

/-! ## Posts (R276, R302, R316) -/

/-- A record lies in this device's HBM where the Bandstand may read and write it (R299). -/
def State.recordAt (s : State) (d : BitVec 11) (va : Nat) : Bool :=
  match s.translate d va 128 .read, s.translate d va 128 .write with
  | .ok (.hbm _), .ok (.hbm _) => true
  | _, _ => false
/-- `count` tokens to a record of a domain: the status, and the new state where it is 0. -/
def State.postTokens (s : State) (d : BitVec 11) (va count : Nat) : Nat × State :=
  if !(s.walkReady d va).recordAt d va then (3, s)
  else
    let s := s.graphReady d va
    let st := s.nState d va
    if (s.graphOf d va).isNone ∨ (st ≠ nWAITING ∧ st ≠ nEARLY) then (4, s)
    else if s.nGet d va 4 2 < s.nGet d va 6 2 + s.nGet d va 8 2 + count then (5, s)
    else
      let t := (s.nPut d va 6 2 (s.nGet d va 6 2 + count)).nPut d va 10 2 (s.nGet d va 10 2 + count)
      (0, (t.wakePreds d va).nodes d [.eval va])

/-! ## TRIG and WAITP (R306, R307) -/

/-- The record of the running process's node, if a graph node launched it. -/
def State.myNode (s : State) : Option (BitVec 11 × Nat) := s.myGang.bind fun g => g.node.map fun n => (g.domain, n.toNat)

/-- The done trigger, once every process of the node has performed TRIG.done or made a normal exit (R306). -/
def State.doneTrigger (s : State) (d : BitVec 11) (va : Nat) : State :=
  let s := s.graphReady d va
  let l := (s.nodeGangs d va).filterMap s.gangAt
  let ok := l.all fun g => g.fault.isNone && !g.cancel && g.bound.all fun p => g.doneBy.contains p.1
  let st := s.nState d va
  let marks := s.nMarks d va
  if !ok || l.isEmpty || marks / 2 % 2 == 1 || !(st == nEARLY || st == nRUNNING) then s
  else ((s.passOn d va).nPut d va 46 1 (marks + 2)).nodes d ((s.succs d va).map .done)
/-- The last process of the node makes a normal exit: in an EARLY node the trigger comes with that exit, in any other the completion
takes its place. A node with no successor posts nothing, and its marks stay (R302, R306, R336, R337). -/
def State.exitTrigger (s : State) (d : BitVec 11) (va : Nat) : State :=
  if s.nState d va = nEARLY ∧ (s.succs d va).isEmpty = false then s.doneTrigger d va else s
def addTo (l : List Nat) (r : Nat) : List Nat := if l.contains r then l else l ++ [r]

def execTrigStart (c : Ctl) (s : State) : Host.Outcome State Fault Refusal :=
  issue c fPlain s fun s =>
    match s.myNode with
    | none => .done s
    | some (d, va) =>
      if s.me.proc.trigStarted then .done s
      else
        let t := s.updProc s.core fun p => { p with trigStarted := true }
        let t := t.graphReady d va
        let marks := t.nMarks d va
        if marks % 2 = 1 then .done t
        else .done ((t.nPut d va 46 1 (marks + 1)).nodes d ((t.succs d va).map .start))

def execTrigDone (c : Ctl) (v : GI) (s : State) : Host.Outcome State Fault Refusal :=
  issue c fPlain s fun s =>
    match s.myNode with
    | none => .done s
    | some (d, va) =>
      if !s.drained s.core s.k then .hold
      else
        let t := (s.engineCtx s.core s.k).flow (.ctx s.core s.k) (.node d va)
        let t := t.nPut d va 48 8 (s.gi v).toNat
        let t := t.updProc s.core fun p => { p with trigDone := true }
        let t := t.updGang s.me.proc.gang fun g => { g with doneBy := addTo g.doneBy s.me.proc.role }
        .done (t.doneTrigger d va)

def execWaitp (c : Ctl) (qd : BitVec 3) (s : State) : Host.Outcome State Fault Refusal :=
  issue c fYieldLate s fun s =>
    let ret := fun (s : State) (b : Bool) => Eff.done (s.landAll s.core s.k c.set [.q qd b])
    match s.myNode with
    | none => ret s true
    | some (d, va) =>
      let s := s.graphReady d va
      if s.nMarks d va / 4 % 2 = 0 ∨ s.nGet d va 4 2 ≤ s.nGet d va 10 2 then ret (s.flow (.node d va) (.ctx s.core s.k)) true
      else if s.me.proc.prq ≠ 0 then ret s false
      else .wait (.preds qd c.set) s

/-! ## GPOST, GLAUNCH, GCANCEL and GSTAT (R313 to R318) -/

def permPOST : Nat := 124
def permCANCEL : Nat := 123
def permSTATUS : Nat := 122
def graphDomain (b : W128) : BitVec 11 := b.extractLsb' 110 11
def graphCount (b : W128) : Nat := bits b 109 94
def graphRecords (b : W128) : Nat := 128 * bits b 93 53
def makeGraph (d : BitVec 11) (n records status : Nat) : W128 :=
  BitVec.ofNat 128 (4 * 2 ^ 125 + 7 * 2 ^ 122 + d.toNat * 2 ^ 110 + n % 2 ^ 16 * 2 ^ 94 + records / 128 % 2 ^ 41 * 2 ^ 53 +
    status / 64 % 2 ^ 42 * 2 ^ 11)

/-- GraphCheck (R313). -/
def State.graphCheck (s : State) (n : BitVec 6) (perm : Nat) : Option (BitVec 8 × W64) :=
  let r := s.gReg n
  if !r.tag then some (cCAPTAG, 0)
  else if capKind r.bits ≠ 4 then some (cCAPTAG, BitVec.ofNat 64 (capKind r.bits))
  else if graphDomain r.bits ≠ s.me.dom then some (cPROT, (graphDomain r.bits).setWidth 64)
  else if !r.bits.getLsbD perm then some (cCAPPERM, 0)
  else none
/-- A node operand against the graph's count: its record's address. -/
def State.nodeOperand (s : State) (n : BitVec 6) (v : GI) : Option Nat :=
  let b := (s.gReg n).bits
  if (s.gi v).toNat < graphCount b then some (graphRecords b + 128 * (s.gi v).toNat) else none

/-- An off-core reference with something to do at its agent: the context waits for its result. -/
def State.call (s : State) (set : BitVec 2) (c : Call) : Eff :=
  let r : Reply := { id := s.ids, arrive := none, call := some c, after := s.me.poIds s.k, core := s.core, ctx := s.k, res := [], set := set, hits := [], va := 0,
                     ip := s.cx.pc }
  .wait (.result s.ids) (({ s with ids := s.ids + 1, replies := s.replies ++ [r] } : State).later (.offCoreReferenceResult s.core s.k))

def execGpost (c : Ctl) (d g : BitVec 6) (node count : GI) (s : State) : Host.Outcome State Fault Refusal :=
  issue c fFarLate s fun s =>
    match s.graphCheck g permPOST with
    | some (cause, val) => .trap cause val
    | none =>
      match s.nodeOperand g node with
      | none => .trap cCAPBND (s.gi node)
      | some va =>
        let n := (s.gi count).toNat
        if n = 0 ∨ 65535 < n then .trap cCAPBND (s.gi count)
        else if s.leak d then leakTrap d
        else s.call c.set (.gpost d va n)

def execGlaunch (c : Ctl) (d m gs : BitVec 6) (n : GI) (s : State) : Host.Outcome State Fault Refusal :=
  issue c fFarLate s fun s =>
    let count := (s.gi n).toNat
    if count = 0 ∨ 65535 < count then .trap cCAPBND (s.gi n)
    else
      let s := (s.walkFor (s.gReg m) 0).walkFor (s.gReg gs) 0
      match s.memAddr (s.gReg m) 0 (128 * count) 128 needRW with
      | .bad cause val _ => .trap cause val
      | .ok a _ =>
        match s.memAddr (s.gReg gs) 0 64 64 needW with
        | .bad cause val _ => .trap cause val
        | .ok b _ => if s.leak d then leakTrap d else s.call c.set (.glaunch d a count b)

def execGcancel (c : Ctl) (qd : BitVec 3) (g : BitVec 6) (node : GI) (s : State) : Host.Outcome State Fault Refusal :=
  issue c fFarLate s fun s =>
    match s.graphCheck g permCANCEL with
    | some (cause, val) => .trap cause val
    | none =>
      match s.nodeOperand g node with
      | none => .trap cCAPBND (s.gi node)
      | some va => s.call c.set (.gcancel qd va)

def execGstat (c : Ctl) (d g : BitVec 6) (sl : BitVec 4) (node : GI) (s : State) : Host.Outcome State Fault Refusal :=
  issue c fFarLate s fun s =>
    match s.graphCheck g permSTATUS with
    | some (cause, val) => .trap cause val
    | none =>
      match s.nodeOperand g node with
      | none => .trap cCAPBND (s.gi node)
      | some va => if s.leak d then leakTrap d else s.call c.set (.gstat d sl.toNat va)

/-! ## At the Bandstands (R315 to R318) -/

/-- In-list edges of every record: how often each is named by the array's successor lists. -/
def State.inEdges (s : State) (d : BitVec 11) (nodes : List Nat) (va : Nat) : Nat :=
  nodes.foldl (fun n m => n + ((s.succs d m).filter fun x => x == va).length) 0

/-- Reserved fields, codes and counts of a record image (R300); what GLAUNCH writes itself is not read. -/
def State.recordValid (s : State) (d : BitVec 11) (nodes : List Nat) (va : Nat) : Bool :=
  let kind := s.nKind d va
  let policy := s.nGet d va 3 1
  s.nState d va == 0 && decide (kind ≤ 3) && decide (s.nGet d va 2 1 ≤ 3) && decide (policy < 64) &&
  (!policy.testBit 5 || kind == 0 || kind == 3) && s.nGet d va 15 1 == 0 && s.nGet d va 16 8 % 8 == 0 && (kind != 2 || s.nGet d va 24 8 == 0) &&
  decide (s.nGet d va 40 2 ≤ 8) && (kind == 2 || s.nGet d va 42 2 == 0) && decide (s.nMarks d va < 8) && s.nGet d va 47 1 == 0 &&
  ((List.range 8).all fun i => s.nGet d va (64 + 8 * i) 8 == 0) &&
  ((s.succs d va).all fun m => nodes.contains m) && decide (s.inEdges d nodes va ≤ s.nGet d va 4 2)

/-- The code a record gives GLAUNCH, tested in the order of R315. -/
def State.recordCode (s : State) (d : BitVec 11) (nodes : List Nat) (va : Nat) : Nat :=
  let placed := s.recordAt d va
  if placed && s.nGet d va 56 8 != 0 then 2 else if placed && !s.recordValid d nodes va then 1 else if placed then 0 else 3

/-- GLAUNCH at the Bandstands: what it writes to its destination. -/
def State.arm (s : State) (d : BitVec 11) (a n b : Nat) : GReg × State :=
  let g : Graph := { domain := d, records := BitVec.ofNat 64 a, count := n, status := BitVec.ofNat 64 b, firstFault := none }
  let nodes := g.nodes
  let s := nodes.foldl (fun t m => t.recordReady d m) s
  match (List.range n).findSome? fun i =>
      let c := s.recordCode d nodes (a + 128 * i)
      if c = 0 then none else some (c, i) with
  | some (c, i) => (GReg.data (BitVec.ofNat 64 (c + 65536 * i)), s)
  | none =>
    let t := { s with graphs := g :: s.graphs.filter fun x => !(x.domain == d && x.nodes.any fun m => nodes.contains m) }
    let t := (List.range n).foldl (fun t i =>
      let va := a + 128 * i
      let t := (t.nPut d va 6 2 0).nPut d va 8 2 0
      let t := (t.nPut d va 10 2 0).nPut d va 14 1 0
      let t := (t.nPut d va 44 2 i).nPut d va 46 1 0
      t.nPut d va 56 8 b) t
    let t := t.writeStatus d a
    ({ bits := makeGraph d n a b, tag := true, endst := 0 }, t.nodes d (nodes.map .eval))

/-- GSTAT's value (R318). -/
def State.graphStat (s : State) (d : BitVec 11) (sl va : Nat) : W64 :=
  match s.graphOf d va with
  | none => 0
  | some g =>
    if sl ≤ 7 then BitVec.ofNat 64 (s.nodeCount g sl)
    else if sl = 8 then BitVec.ofNat 64 g.count
    else if sl = 9 then
      BitVec.ofNat 64 ((if s.graphDone g then 1 else 0) + ((g.firstFault.map fun f => f.1).getD 0xFFFF) * 2 ^ 16 +
        ((g.firstFault.map fun f => f.2.toNat).getD 0) * 2 ^ 8)
    else if sl = 10 then BitVec.ofNat 64 (s.nState d va + s.nGet d va 15 1 * 2 ^ 8 + s.nGet d va 14 1 * 2 ^ 16)
    else BitVec.ofNat 64 (s.nGet d va 48 8)

/-- GCANCEL (R317). -/
def State.graphCancel (s : State) (d : BitVec 11) (va : Nat) : Bool × State :=
  let s := s.graphReady d va
  if (s.graphOf d va).isNone || nodeTerminal (s.nState d va) then (false, s)
  else (true, (s.cancelNode d va).cancelCone d va)

end Sys2Proof.Machine
end

