-- ==== Sys2Proof/Machine/Launch.lean ====
section
/-! DEFINITION. Launching a node (R28 to R32, R90, R91, R304, R305, R319, R321, R350, R379, R390): launch headers and their
limits, the binding of roles to cores, the filling of a core, NODE_DISPATCH and RESIDENCY_FILL_COMPLETE. -/

namespace Sys2Proof.Machine

/-! ## Launch headers (R91) -/

def parseHeader (b : List Byte) : Header :=
  let f := cardField b 54 2
  { entry := BitVec.ofNat 64 (cardField b 0 8), widBase := BitVec.ofNat 64 (cardField b 8 8), seed := BitVec.ofNat 64 (cardField b 16 8),
    parterres := BitVec.ofNat 64 (cardField b 24 8), lstore := BitVec.ofNat 64 (cardField b 32 8), lstoreSize := cardField b 40 4,
    lcnBase := BitVec.ofNat 32 (cardField b 44 4), dlim := BitVec.ofNat 32 (cardField b 48 4), roles := cardField b 52 2,
    planned := f.testBit 0, fuse := f.testBit 1, ixtin := f.testBit 2, stage := f.testBit 3,
    widths := (List.range 6).map fun i => cardField b (56 + i) 1, xlen := cardField b 62 2, caps := BitVec.ofNat 64 (cardField b 64 8),
    capCount := cardField b 72 2, saveCap := cardField b 74 2, quads := cardField b 76 2, allot := cardField b 78 1,
    stageAddr := BitVec.ofNat 64 (cardField b 80 8) }

/-- The limits of R91 and R32. -/
def headerLimits (b : List Byte) (h : Header) : Bool :=
  b.length == 128 && decide (cardField b 54 2 < 16) && cardZero b 79 1 && cardZero b 88 40 &&
  h.entry.toNat % (if h.ixtin then 8 else 4) == 0 && h.lstoreSize % 16 == 0 && decide (h.lstoreSize ≤ Config.lsSize) &&
  decide (1 ≤ h.roles) && decide (h.roles ≤ 4096) && (h.widths.all fun w => decide (w < 64)) &&
  decide (h.widths.foldl (fun a w => a + w) 0 ≤ 64) &&
  (if h.planned then decide (4 ≤ h.xlen) && decide (h.xlen ≤ 1024) && h.xlen % 4 == 0 else h.xlen == 0) &&
  decide (h.capCount ≤ 63) && (h.saveCap == 0xFFFF || decide (h.saveCap < h.capCount)) && decide (4 * h.quads ≤ h.roles) &&
  h.allot % 8 == 0 && decide (h.allot ≤ 64) && (h.stage == (h.stageAddr != 0))

/-- The limits of a stage descriptor (R319). -/
def stageLimits (b : List Byte) : Bool :=
  let st := cardField b 0 4
  let len := cardField b 4 4
  let win := cardField b 40 4
  b.length == 64 && st % 64 == 0 && len % 64 == 0 && decide (64 ≤ len) && decide (len ≤ 131072) && decide (st + 2 * len ≤ Config.lsSize) &&
  decide (1 ≤ cardField b 24 1) && decide (cardField b 24 1 ≤ 63) && decide (1 ≤ cardField b 25 1) && decide (cardField b 25 1 ≤ 7) &&
  cardZero b 26 2 && !cardZero b 28 4 && decide (1 ≤ cardField b 32 4) && decide (cardField b 32 4 ≤ 65535) &&
  decide (cardField b 36 4 < cardField b 32 4) && win % 64 == 0 && decide (64 ≤ win) && decide (win ≤ 2 ^ 24) && cardZero b 44 20

/-- A capability entry (R90) of a kind and range that R350 allows. -/
def capEntryOk (e : List Byte) : Bool :=
  let v : W128 := BitVec.ofNat 128 (cardField e 0 16)
  let top := capBase v + capLength v
  e.length == 32 && decide (cardField e 16 1 ≤ 63) && cardZero e 17 1 && cardZero e 20 12 &&
  ((capKind v == 1 && decide (top ≤ 2 ^ 48)) || (capKind v == 2 && decide (top ≤ Config.lsSize)))

/-- A launch as read from memory: header, capability entries, stage descriptor. -/
structure Launch where
  h : Header
  caps : List (List Byte)
  stage : List Byte
deriving DecidableEq, Repr

def State.readCaps (s : State) (d : BitVec 11) (a : Nat) : Nat → List (List Byte) × State
  | 0 => ([], s)
  | n + 1 =>
    let r := s.vread d a 32
    let q := r.2.2.readCaps d (a + 32) n
    (r.1 :: q.1, q.2)

/-- An address in a section of the entry's format (R319). -/
def Header.sameFormat (h : Header) (image a : Nat) : Bool :=
  decide (a / 65536 = h.entry.toNat / 65536) || Jas.codeIxtin (Config.imageAt image (a / 65536)) a == some h.ixtin
/-- The flag does not disagree with the kind of the section that holds the entry (R91). -/
def Header.entryFormat (h : Header) (image : Nat) : Bool :=
  (Jas.codeIxtin (Config.imageAt image (h.entry.toNat / 65536)) h.entry.toNat).getD h.ixtin == h.ixtin

/-- Read and check a launch header of an image for a node of a kind (R304 step 1): none where it is invalid. -/
def State.readLaunch (s : State) (d : BitVec 11) (image va kind : Nat) : Option Launch × State :=
  let r := s.vread d va 128
  let h := parseHeader r.1
  if !headerLimits r.1 h then (none, r.2.2)
  else
    let c := r.2.2.readCaps d h.caps.toNat h.capCount
    let st := if kind = 3 then c.2.vread d h.stageAddr.toNat 64 else ([], none, c.2)
    let ok := (c.1.all capEntryOk) && h.entryFormat image && (kind != 3 || (h.stage && h.roles == 1 && !h.planned && h.quads == 0 &&
      h.stageAddr.toNat % 64 == 0 && stageLimits st.1 && h.sameFormat image (cardField st.1 8 8) && h.sameFormat image (cardField st.1 16 8)))
    (if ok then some { h := h, caps := c.1, stage := st.1 } else none, st.2.2)

/-! ## Binding (R28, R29) -/

/-- Cores of a domain, and those bound to no running process. -/
def State.domainCores (s : State) (d : BitVec 11) : List Nat :=
  (s.cores.filter fun p => p.2.owner.getLsbD 63 && p.2.dom == d).map fun p => p.1
def State.freeCores (s : State) (d : BitVec 11) : List Nat := (s.domainCores d).filter fun n => !(s.coreAt n).bound
/-- The cores of the parterre set of a header (R91). -/
def State.allowed (s : State) (d : BitVec 11) (set : W64) (n : Nat) : Bool :=
  let pts := ((List.range 64).filter fun p => (s.domainCores d).any fun m => parterreOf m == p)
  set == 0 || (pts.zip (List.range 64)).any fun x => x.1 == parterreOf n && set.getLsbD x.2

/-- `n` of a list, each by a free choice: which free cores are bound is not fixed. -/
def takeFree : Nat → Nat → List Nat → Option (List Nat)
  | 0, _, _ => some []
  | n + 1, k, l =>
    match l[Config.freeDelay k % l.length]? with
    | none => none
    | some x => (takeFree n (k + 1) (l.filter fun y => y != x)).map fun r => x :: r

/-- The cores of roles 0, 1, …: quads first, each on one whole arbor. -/
def State.bindRoles (s : State) (d : BitVec 11) (h : Header) : Option (List Nat) :=
  let free := (s.freeCores d).filter fun n => s.allowed d h.parterres n
  let arbors := (free.filter fun n => posOf n == 0 && (List.range 4).all fun p => free.contains (n + p))
  match takeFree h.quads s.fresh arbors with
  | none => none
  | some q =>
    let quads := q.flatMap fun n => [n, n + 1, n + 2, n + 3]
    (takeFree (h.roles - 4 * h.quads) (s.fresh + h.quads) (free.filter fun n => !quads.contains n)).map fun r => quads ++ r

/-! ## Filling a core (R304, R390) -/

/-- The entry capability of a domain's cores (R352). -/
def entryCap (d : BitVec 11) : GReg :=
  { bits := BitVec.ofNat 128 (5 * 2 ^ 125 + 2 ^ 124 + d.toNat * 2 ^ 110 + 7 * 2 ^ 64), tag := true, endst := 0 }

/-- The registers that a launch's capability entries give a role (R90). -/
def capRegs (caps : List (List Byte)) (role : Nat) : Tab GReg :=
  caps.foldl (fun t e =>
    let reg := cardField e 16 1
    let r := cardField e 18 2
    if reg = 0 ∨ (r ≠ role ∧ r ≠ 0xFFFF) then t
    else Tab.put t reg { bits := BitVec.ofNat 128 (cardField e 0 16), tag := true, endst := 0 }) []

/-- A region of a node's residency table (R87, R300). -/
structure Residency where
  fill : Fill
  role : Nat
deriving DecidableEq, Repr
/-- The table's reserved bytes are zero: a table in which they are not makes the node's launch invalid (R7). No rule names the fault it
gives; it is 0x01 here, after the checks of the header (DESIGN CHOICE, log 87). -/
def State.residencyOk (s : State) (d : BitVec 11) (va : Nat) : Bool :=
  let t := s.nGet d va 32 8
  (List.range (s.nGet d va 40 2)).all fun i => s.vgetAcross d (t + 32 * i + 18) 14 == 0
/-- The lines of the table, where the Bandstand reads them. -/
def State.residencyReady (s : State) (d : BitVec 11) (va : Nat) : State :=
  s.vready d (s.nGet d va 32 8) (32 * s.nGet d va 40 2)
def State.residency (s : State) (d : BitVec 11) (va : Nat) : List Residency :=
  let t := s.nGet d va 32 8
  (List.range (s.nGet d va 40 2)).map fun i =>
    { fill := { addr := s.vgetAcross d (t + 32 * i) 8, len := s.vgetAcross d (t + 32 * i + 8) 4, off := s.vgetAcross d (t + 32 * i + 12) 4 },
      role := s.vgetAcross d (t + 32 * i + 16) 2 }
/-- The first page of a range that refuses a read. -/
def State.rangeCause (s : State) (d : BitVec 11) (a n : Nat) : Option (BitVec 8) :=
  if n = 0 then none
  else (List.range ((a + n - 1) / 65536 - a / 65536 + 1)).findSome? fun i =>
    match s.translate d (max a ((a / 65536 + i) * 65536)) 1 .read with
    | .ok _ => none
    | .bad c => some c
/-- The copies a role's core receives, in order (R304 step 3). -/
def State.fillsFor (s : State) (d : BitVec 11) (node : Option Nat) (h : Header) (role : Nat) : List Fill :=
  let image : List Fill := if h.lstore = 0 ∨ h.lstoreSize = 0 then [] else [{ addr := h.lstore.toNat, off := 0, len := h.lstoreSize }]
  let regions : List Residency := match node with
    | some va => (s.residency d va).filter fun r => r.role == role || r.role == 0xFFFF
    | none => []
  image ++ regions.map fun r => r.fill
/-- What the walks of every region to be fetched read is where they can read it (R271, R274, R275). -/
def State.fillReady (s : State) (d : BitVec 11) (va : Nat) (h : Header) : State :=
  let t := if h.lstore = 0 then s else s.walksReady d h.lstore.toNat h.lstoreSize
  (t.residency d va).foldl (fun t r => t.walksReady d r.fill.addr r.fill.len) t
/-- A region that cannot be fetched faults the node before any process starts. -/
def State.fillCause (s : State) (d : BitVec 11) (va : Nat) (h : Header) : Option (BitVec 8) :=
  (if h.lstore = 0 then none else s.rangeCause d h.lstore.toNat h.lstoreSize).orElse fun _ =>
    (s.residency d va).findSome? fun r =>
      if Config.lsSize < r.fill.off + r.fill.len then some cCAPBND else s.rangeCause d r.fill.addr r.fill.len

/-- A core bound to a role: the process, S and C, and the copies still to be made. No rule says what m1 to m7 of S and C and q1 to
q7 of S hold at a launch: they are zero here (DESIGN CHOICE, log 9). -/
def State.fillCore (s : State) (n g role : Nat) (d : BitVec 11) (l : Launch) (lcn : W32) (fills : List Fill) (stage : Option (Nat × Nat)) : State :=
  let h := l.h
  (s.updCore n fun c =>
    { c with
      bound := true, cur := none, ring := 1, evs := 0, focusLast := 1, icache := [], ifills := [], w := [], wq := [], land := [], flight := [], storeq := [],
      sendq := [], tiles := [], mloads := [], mstores := [], xsend := none, xpend := [], upcall := none
      proc := { Proc.init with gang := g, role := role, wid := h.widBase + BitVec.ofNat 64 role, lcn := lcn, srseed := h.seed,
                               dlim := h.dlim, fills := fills, stage := stage }
      ctxs := [(0, { Ctx.init with pc := h.entry, run := .waiting .start, g := [(1, entryCap d)] }),
               (1, { Ctx.init with pc := h.entry, run := .stopped, g := capRegs l.caps role, blocks := List.range (h.allot / 8) })] }).later
    (.residencyFillComplete n)

def newGang (d : BitVec 11) (die : Nat) (node : Option Nat) (h : Header) (image : Nat) (bound : List Nat) : Gang :=
  { domain := d, die := die, node := node.map (BitVec.ofNat 64), h := h, image := image, bound := (List.range bound.length).zip bound, exited := [], left := [], doneBy := [],
    leavers := [], releasing := false, fault := none, cancel := false, stopped := false, stopReq := false, eventStop := 0, preempt := false, saving := 0, saveFailed := false, raised := 0,
    dueReq := none, dump := none }

/-- The Bandstand reports the digest of the image that a launch header lies in at its first launch in the domain; the Lodge lists
the sixteen most recent, newest first (R379). -/
def State.noteLaunch (s : State) (d : BitVec 11) (image header : Nat) : State :=
  let x := Jas.imageDigest (Config.imageAt image (header / 65536))
  s.updDomain d fun r => if r.digests.contains x then r else { r with digests := x :: r.digests }

def newStage (g : Nat) (d : BitVec 11) (b : List Byte) : Stage :=
  { gang := g, domain := d, descriptor := b, record := Config.noRecord, armed := false, holders := [{ index := 0, gang := g, start := 0 }], op := 0,
    phase := 0, who := 0, other := 0, splitKey := 0, code := 0, since := 0, target := none, snapshot := [] }

/-- Start a node's attempt on its bound cores. A stage is numbered by the gang of its original. -/
def State.launch (s : State) (d : BitVec 11) (va : Nat) (kind : Nat) (l : Launch) (cores : List Nat) : State :=
  let g := s.ids
  let t := { s with ids := s.ids + 1, fresh := s.fresh + cores.length + l.h.quads,
                    gangs := Tab.put s.gangs g (newGang d (s.nodeDie d va) (some va) l.h g cores) }
  let t := t.noteLaunch d g (s.nGet d va 24 8)
  let t := if kind = 3 then { t with stages := Tab.put t.stages g (newStage g d l.stage) } else t
  ((List.range cores.length).zip cores).foldl (fun t p =>
    ([0, 1].foldl (fun t k => t.flow (.node d va) (.ctx p.2 k)) t).fillCore p.2 g p.1 d l (l.h.lcnBase + BitVec.ofNat 32 p.1)
      (s.fillsFor d (some va) l.h p.1) (if kind = 3 then some (g, 0) else none)) t

/-! ## NODE_DISPATCH (R303 to R305) -/

/-- Dispatch takes the node to RUNNING or EARLY (R301). -/
def State.markDispatched (s : State) (d : BitVec 11) (va : Nat) : State :=
  let t := s.unqueue d va
  if t.nGet d va 4 2 ≤ t.nGet d va 6 2 then t.setNode d va nRUNNING
  else (t.nPut d va 46 1 (t.nMarks d va ||| 4)).setNode d va nEARLY

/-- A 16-byte capability in memory with its tag. -/
def State.vcap (s : State) (d : BitVec 11) (va : Nat) : GReg :=
  match s.translate d va 16 .read with
  | .ok p => { bits := BitVec.ofNat 128 (s.bytesAt (s.keyOf d) p 16), tag := s.tagOf (s.keyOf d) p, endst := 0 }
  | .bad _ => GReg.zero

/-- The job of a job node (R305). -/
def State.dispatchJob (s : State) (die : Nat) (d : BitVec 11) (va : Nat) : State :=
  let t := s.markDispatched d va
  let a := t.nGet d va 24 8
  let q := t.vread d a 256
  let r := (q.1, q.2.1, q.2.2.vready d a 256)
  let card := r.1.take 192
  let src := r.2.2.vcap d (a + 192)
  let dst := r.2.2.vcap d (a + 208)
  let k1 := fun (x : GReg) => x.tag && capKind x.bits == 1
  let ok := r.2.1.isNone && a % 64 == 0 && k1 src && k1 dst && cardZero r.1 224 32 && cardValid card false true &&
    (footCheck card { bits := BitVec.ofNat 128 (2 ^ 125 + 3 * 2 ^ 123 + 256 * 2 ^ 86), tag := true, endst := 0 } src dst).isNone
  let u := r.2.2.flow (.node d va) (.job r.2.2.ids)
  u.addJob
    { die := die, engine := cardEngine card, domain := d, owner := none, node := some (BitVec.ofNat 64 va), ticket := 0, card := card,
      window := GReg.zero, src := src, dst := dst, block := a, begun := false, pos := 0,
      status := if ok then stOK else stBADCARD, flags := 0, ended := false, completed := false, cancelled := false,
      held := !(t.domainAt d).holds.isEmpty, after := [], chained := false }

/-- Dispatch one queued node; none while it cannot be. -/
def State.dispatchOne (s : State) (r : Ready) : Option State :=
  let d := r.domain
  let va := r.node.toNat
  let dom := s.domainAt d
  let s := (s.graphReady d va).residencyReady d va
  if !dom.live || dom.integrityStop || s.lodge.owner.isNone then none
  else if s.nKind d va = 1 then some (s.dispatchJob r.die d va)
  else
    let q := s.readLaunch d s.ids (s.nGet d va 24 8) (s.nKind d va)
    match q.1 with
    | none => some ((q.2.markDispatched d va).failNode d va 0x01 false)
    | some l =>
      if !q.2.residencyOk d va then some ((q.2.markDispatched d va).failNode d va 0x01 false)
      else
      match q.2.bindRoles d l.h with
      | none => none
      | some cores =>
        let t := (q.2.markDispatched d va).fillReady d va l.h
        match t.fillCause d va l.h with
        | some c => some (t.failNode d va c true)
        | none => some (t.launch d va (s.nKind d va) l cores)

/-- The oldest dispatchable node of the highest priority that has one (R303). -/
def execNodeDispatch (die : Nat) (s : State) : Host.Outcome State Fault Refusal :=
  let mine := s.ready.filter fun r => r.die == die
  let order := [3, 2, 1, 0].flatMap fun p => mine.filter fun r => r.prio == p
  match order.findSome? s.dispatchOne with
  | none => .next s
  | some t => if t.ready.any fun r => r.die == die then .next (t.later (.nodeDispatch die)) else .next t

/-! ## RESIDENCY_FILL_COMPLETE -/

/-- Make the copies in order; the cause of the first that fails. -/
def State.doFills (s : State) (n : Nat) (d : BitVec 11) : List Fill → State × Option (BitVec 8)
  | [] => (s, none)
  | f :: r =>
    let q := s.vread d f.addr f.len
    match q.2.1 with
    | some c => (q.2.2, some c)
    | none => (q.2.2.lsWrite n f.off q.1).doFills n d r

def execResidencyFillComplete (core : Nat) (s : State) : Host.Outcome State Fault Refusal :=
  onCore core s fun s =>
    let c := s.coreAt core
    if !c.bound || c.proc.started || c.proc.faultExit.isSome || c.proc.forced then s
    else
      let r := s.doFills core c.dom c.proc.fills
      match r.2 with
      | some cause => r.1.faultExit core cause
      | none =>
        let t := r.1.updProc core fun p => { p with started := true, fills := [] }
        if (c.proc.stage.map fun x => x.2).getD 0 = 0 then
          t.updCtx core 1 fun x => if x.run == .stopped then { x with run := .ready } else x
        else t

end Sys2Proof.Machine
end

