-- ==== Sys2Proof/Machine/Exit.lean ====
section
/-! DEFINITION. The end of a process (R166, R174, R254, R289, R292, R331, R391): when its core is quiet, the closing of its
ends, the freeing of the core, and what its gang and its node learn. PROCESS_EXIT stands in Context.lean. -/

namespace Sys2Proof.Machine

/-- A result of a wide instruction for a w or mask register. -/
def Result.isWide : Result → Bool
  | .w .. | .m .. => true
  | .g .. | .q .. | .s .. | .none => false
/-- Nothing of the process's posted, wide or matrix work is still to be done, and no job with a local footprint is out (R183,
R289). -/
def State.exitDrained (s : State) (n : Nat) : Bool :=
  let c := s.coreAt n
  c.storeq.isEmpty && c.wq.isEmpty && (c.land.all fun l => !l.res.isWide) && c.mloads.isEmpty && (c.mstores.all fun m => decide (m.2.2 ≤ s.cyc)) &&
    (c.xsend.all fun x => decide (x.readUntil ≤ s.cyc)) && !s.flyingAt n && !s.jobsOut n true

/-- The live ends in the registers of a core's contexts, in the order S, C, H1 to H10, by register; those set aside from C for an
upcall stand at C's place (R254, R328). -/
def Core.liveEnds (c : Core) : List (Nat × Nat × GReg) :=
  let low := fun (p : Nat × Ctx) => decide (p.1 ≤ 1)
  let all : Tab Ctx := c.ctxs.filter low ++ (c.upcall.toList.map fun x => (1, x)) ++ c.ctxs.filter fun p => !low p
  all.flatMap fun p => (p.2.g.filter fun r => r.2.isEnd).map fun r => (p.1, r.1, r.2)

/-- The ends that replies bring to a core: results of CHAN, carried ends of a RECV. -/
def Reply.ends (r : Reply) : List GReg :=
  r.res.filterMap fun
    | .g _ v => if v.isEnd then some v else none
    | .q .. | .m .. | .w .. | .s .. | .none => none

/-- Close every live end of the contexts that `who` selects, and the ends on their way to them (R254). -/
def State.closeEnds (s : State) (n : Nat) (who : Nat → Bool) : State :=
  let ends := ((s.coreAt n).liveEnds.filter fun e => who e.1).map fun e => e.2.2
  let mine := s.replies.filter fun r => r.core == n && who r.ctx
  let landing := ((s.coreAt n).land.filter fun l => who l.ctx).filterMap fun l => match l.res with
    | .g _ v => if v.isEnd then some v else none
    | .q .. | .m .. | .w .. | .s .. | .none => none
  let t := { s with replies := s.replies.filter fun r => !(r.core == n && who r.ctx) }
  let clear := fun (x : Ctx) => { x with g := x.g.map fun r => if r.2.isEnd then (r.1, GReg.zero) else r }
  let t := t.updCore n fun c =>
    { c with ctxs := c.ctxs.map fun p => if who p.1 then (p.1, clear p.2) else p
             upcall := if who 1 then c.upcall.map clear else c.upcall
             land := c.land.filter fun l => !who l.ctx }
  let t := (ends ++ landing).foldl (fun t e => (t.close n e).2) t
  mine.foldl (fun t r =>
    let arriving := r.arrive
    r.ends.foldl (fun t e =>
      match arriving with
      | some a => if endRec e.bits = a.1 then t.closeInTransit n e.bits else (t.close n e).2
      | none => (t.close n e).2) t) t

/-- Inbox messages whose end the core does not hold go back to their records (R249, R254). -/
def State.sendBack (s : State) (n : Nat) : State :=
  let c := s.coreAt n
  let back := c.inbox.filter fun m => (c.recvEnd m.device m.record).isNone
  if back.isEmpty then s
  else
    let t := s.updCore n fun c => { c with inbox := c.inbox.filter fun m => !back.contains m }
    (back.foldl (fun t m => t.returnMsg n m) t).offerSlots n

/-- A core is bound to no process any more: its contexts are gone, its arbor's slots are free, and the Bandstands look again. -/
def State.vacate (s : State) (n : Nat) : State :=
  let quad := s.inQuad n
  let t := { s with
    syncs := s.syncs.filter fun w => !(w.core == n)
    replies := s.replies.filter fun r => !(r.core == n)
    past := s.past.filter fun p => match p.2 with
      | .ctx m _ => m != n
      | .byte _ | .atom _ | .msg .. | .job _ | .region .. | .node .. => true }
  let t := if quad then
      (t.updArbor (arborOf n) fun a => { a with slots := a.slots.map fun p => (p.1, { p.2 with claimed := false }) }).partnerGone n
    else t
  (t.updCore n fun c =>
    { c with bound := false, cur := none, flight := [], storeq := [], sendq := [], wq := [], land := [], mloads := [], mstores := [],
             xsend := none, xpend := [], tiles := [], w := [], upcall := none, proc := Proc.init, ctxs := [] }).kick
/-- The core of a process that has exited: what agents kept for it goes as well (R394, R412). -/
def State.freeCore (s : State) (n : Nat) : State :=
  let c := s.coreAt n
  ({ s with
     results := s.results.filter fun e => !(e.domain == c.dom && e.lcn == c.proc.lcn)
     hits := s.hits.filter fun h => !(h.domain == c.dom && h.lcn == c.proc.lcn) } : State).vacate n

/-- A stage whose original is gone: its monitors are free, and no operation of it goes on. -/
def State.dropStage (s : State) (id : Nat) : State :=
  { s with stages := Tab.erase s.stages id
           monitors := s.monitors.map fun p => if (p.2.stage.map fun x => x.1) = some id then (p.1, Monitor.init) else p }

/-- No process of a gang lives: the ring writes of its messages that fault are retried every 65,536 cycles (R397). -/
def State.orphanRings (s : State) (g : Nat) : State :=
  (s.records.filter fun p => p.2.stuckGang == some g).foldl (fun t p => t.atCycle (t.cyc + 65536) (.spillRetry p.1)) s

/-- What happens before the exit of a process happens before what its node's completion brings (R200, R203). -/
def State.exitPast (s : State) (n : Nat) : State :=
  if s.past.isEmpty then s
  else
    match (s.gangAt (s.coreAt n).proc.gang).bind fun g => g.node.map fun v => (g.domain, v.toNat) with
    | none => s
    | some (d, va) => (List.range 24).foldl (fun t k => t.flow (.ctx n k) (.node d va)) s

/-- The process on a core has gone: the gang counts its exit, and the last exit of the attempt decides the node. -/
def State.processGone (s : State) (n : Nat) (normal : Bool) : State :=
  let p := (s.coreAt n).proc
  let t := (s.exitPast n).freeCore n
  match t.gangAt p.gang with
  | none => t
  | some g =>
    let g' := { g with exited := addTo g.exited p.role, doneBy := if normal then addTo g.doneBy p.role else g.doneBy }
    if g'.live.isEmpty then
      let t := match g.node, normal with
        | some node, true => ({ t with gangs := Tab.put t.gangs p.gang g' } : State).exitTrigger g.domain node.toNat
        | _, _ => t
      let t := ({ t with gangs := Tab.erase t.gangs p.gang } : State).orphanRings p.gang
      let t := t.dropStage p.gang
      match g.node with
      | none => t
      | some node =>
        if (t.nodeGangs g.domain node.toNat).isEmpty then t.attemptOver g.domain node.toNat g.cancel g.fault
        else if normal then t.doneTrigger g.domain node.toNat
        else t
    else
      let t := { t with gangs := Tab.put t.gangs p.gang g' }
      match g.node with
      | none => t
      | some node => if normal then t.doneTrigger g.domain node.toNat else t

/-- End the process on a quiet core: messages for ends it no longer holds go back, every end closes, and the core is freed. -/
def State.endProcess (s : State) (n : Nat) (normal : Bool) : State :=
  ((s.sendBack n).closeEnds n (fun _ => true)).processGone n normal

end Sys2Proof.Machine
end

