-- ==== Sys2Proof/Machine/Gang.lean ====
section
/-! DEFINITION. Barriers and supersteps (R33 to R36, R45, R115, R293, R294, R420), XCAST (R53, R295, R296), WIDF and ROLEQ
(R297, R298): the GANG class, with BARRIER_RELEASE and XCAST_TRANSFER_COMPLETE. -/

namespace Sys2Proof.Machine

/-! ## Arrivals (R293) -/

/-- Everything an arrival of C waits for: its posted writes and REDs, the flags of its wide words and of its matrix operation. -/
def State.arrivalReady (s : State) (n : Nat) : Bool :=
  let c := s.coreAt n
  s.drained n 1 && !(c.wq.any fun e => e.ctx == 1) && !(c.land.any fun l => l.ctx == 1 && l.flags != 0) &&
    !((s.arborAt (arborOf n)).flying.any fun m => m.pos == posOf n && m.ctx == 1)
/-- The flags a process contributes: of its live contexts other than S (R115). -/
def Core.contribution (c : Core) : Flags :=
  ((List.range 12).drop 1).foldl (fun f k => if (c.ctx k).run == .dead then f else f ||| (c.ctx k).fflags) 0

/-- The processes that the pending barrier of a gang waits for. -/
def State.barrierCores (s : State) (g : Nat) : List Nat := (s.gangCores g).filter fun n => (s.coreAt n).proc.leaving.isNone
/-- Nothing that writes into a local store of the gang is pending (R34). -/
def State.exchangeQuiet (s : State) (g : Nat) : Bool :=
  let cores := s.gangCores g
  (cores.all fun n => (s.coreAt n).xpend.isEmpty && (s.coreAt n).proc.fills.isEmpty) &&
    !s.jobs.any fun p => (match p.2.owner with
      | some o => cores.contains o.core && o.gang == g
      | none => false) && p.2.regions.any fun r => r.isLocal && r.write
/-- The bound of R45 for the span of a gang. -/
def State.releaseBound (s : State) (g : Nat) : Nat :=
  match s.gangCores g with
  | [] => 40
  | n :: r =>
    if r.all fun m => parterreOf m == parterreOf n then 40 else if r.all fun m => dieOf m == dieOf n then 120 else 360

/-- The arrivals of one number are not all of one kind: every arriving context traps, and the arrivals are withdrawn. -/
def State.barrierMiss (s : State) (cores : List Nat) : State :=
  cores.foldl (fun s n =>
    let t := s.updProc n fun p => { p with arrived := none }
    match (t.ctxAt n 1).run with
    | .waiting (.barrier _) => t.takeTrap n 1 { cause := cGANGMIS, val := 8 } (t.ctxAt n 1).pc
    | _ => t) s

/-- Whether every arrival of the pending barrier is made, and all are of one kind: none while some are missing. A process that
ended without its C's HEXIT never arrives. -/
def State.barrierKind (s : State) (g : Nat) : Option Bool :=
  let cores := s.barrierCores g
  let kinds := cores.filterMap fun n => (s.coreAt n).proc.arrived.map fun a => a.2
  let lost := match s.gangAt g with
    | some x => x.exited.any fun r => !x.left.contains r
    | none => true
  if lost || cores.isEmpty || decide (kinds.length < cores.length) then none
  else some (kinds.all fun k => some k == kinds.head?)

/-- An arrival has been made, or a process left: the release begins once all are there. -/
def State.checkBarrier (s : State) (g : Nat) : State :=
  match s.gangAt g, s.barrierKind g with
  | some x, some same =>
    if x.releasing then s
    else if !same then s.barrierMiss (s.barrierCores g)
    else (s.updGang g fun y => { y with releasing := true }).within (s.releaseBound g) (.barrierRelease g)
  | _, _ => s

/-- The issue of BAR and XEND. -/
def barrier (s : State) (xend : Bool) : Eff :=
  let n := s.core
  let p := s.me.proc
  let planned := match s.myGang with
    | some g => g.h.planned
    | none => false
  if p.stage.isSome then .trap cPROT 1
  else if s.k ≠ 1 then .trap cPROT 0
  else if planned && p.exchange != xend then .trap cPHASE (if p.exchange then 1 else 0)
  else if !s.arrivalReady n then .hold
  else
    let t := s.engineCtx n 1
    let t := t.updProc n fun q => { q with arrived := some (s.cyc, xend), contrib := s.me.contribution }
    match t.barrierKind p.gang with
    | some false => .trapIn ((t.barrierMiss (t.barrierCores p.gang))) cGANGMIS 8
    | some true | none => .wait (.barrier xend) (t.checkBarrier p.gang)

def execBar (c : Ctl) (s : State) : Host.Outcome State Fault Refusal := issue c fYield s fun s => barrier s false
def execXend (c : Ctl) (s : State) : Host.Outcome State Fault Refusal := issue c fYield s fun s => barrier s true

/-! ## BARRIER_RELEASE (R33, R34, R115, R294) -/

/-- The imbalance record of arrivals given as (role, cycle). -/
def imbOf (lcnBase : W32) (l : List (Nat × Nat)) : W128 :=
  let times := l.map fun a => a.2
  let first := times.foldl min (times.head?.getD 0)
  let last := times.foldl max 0
  let who := (l.filter fun a => a.2 == last).foldl (fun m a => min m a.1) 4096
  let sum := times.foldl (fun t x => t + (x - first)) 0
  let sat := fun (x : Nat) => min x 0xFFFFFFFF
  BitVec.ofNat 128 ((lcnBase + BitVec.ofNat 32 who).toNat * 2 ^ 96 + sat sum * 2 ^ 64 + sat (last - first) * 2 ^ 32 + first % 2 ^ 32)

/-- What the release does to one process. -/
def Proc.released (p : Proc) (xend : Bool) (fl : Flags) (imb : W128) (cyc : Nat) : Proc :=
  let q := { p with arrived := none, contrib := 0, arrivals := p.arrivals + 1, bflags := fl }
  if xend then { q with exchange := false, superstep := p.superstep + 1 }
  else { q with imb := imb, exchange := true, xstart := if p.exchange then p.xstart else cyc }

/-- C goes on after the barrier; under a request that stops it at yield points it stops there (R291). -/
def State.leaveBarrier (s : State) (n : Nat) : State :=
  match (s.ctxAt n 1).run with
  | .waiting (.barrier _) =>
    let t := s.resume n 1
    if (t.coreAt n).proc.yieldStop && (t.ctxAt n 1).run == .ready then t.updCtx n 1 fun x => { x with run := .stopped } else t
  | .dead | .ready | .parked | .stopped | .waiting _ => s

def State.releaseBarrier (s : State) (g : Nat) (x : Gang) (xend : Bool) : State :=
  let cores := s.barrierCores g
  let l := (cores.map fun n => ((s.coreAt n).proc.role, ((s.coreAt n).proc.arrived.map fun a => a.1).getD s.cyc)) ++ x.leavers
  let imb := imbOf x.h.lcnBase l
  let fl := cores.foldl (fun f n => f ||| (s.coreAt n).proc.contrib) 0
  let step := match cores with
    | n :: _ => (s.coreAt n).proc.superstep
    | [] => 0
  let who := (s.gangCores g).map fun n => Who.ctx n 1
  let t := who.foldl (fun t a => who.foldl (fun t b => t.flow a b) t) s
  let t := cores.foldl (fun t n => t.updProc n fun p => p.released xend fl imb s.cyc) t
  let t := t.updGang g fun y => { y with leavers := [], releasing := false }
  let t := if xend then t
    else t.trace x.domain (traceRec 4 0xFF x.domain (imb.extractLsb' 96 32) s.cyc step 0 (natLE 16 imb.toNat))
  let t := cores.foldl State.leaveBarrier t
  if xend && x.stopReq then (t.updGang g fun y => { y with stopReq := false }).haltGang g else t

def execBarrierRelease (gang : Nat) (s : State) : Host.Outcome State Fault Refusal :=
  match s.gangAt gang with
  | none => .next s
  | some x =>
    match s.barrierKind gang with
    | none | some false => .next (s.updGang gang fun y => { y with releasing := false })
    | some true =>
      let xend := (s.barrierCores gang).any fun n => (s.coreAt n).proc.arrived.any fun a => a.2
      if ((s.domainAt x.domain).holds.any fun h => h.1 == gang) || (xend && !s.exchangeQuiet gang) then .next (s.atCycle (s.cyc + 1) (.barrierRelease gang))
      else .next (s.releaseBarrier gang x xend)

/-! ## XCAST (R53, R295, R296) -/

/-- Cycles from issue to the last byte, beyond the units (R296). -/
def xcastTime (n m : Nat) : Nat :=
  if n = m then 2 else if arborOf n = arborOf m then 4 else if parterreOf n = parterreOf m then 10 else if dieOf n = dieOf m then 24 else 72

/-- The checks of an XCAST's operands: source address and bytes, destination offset. -/
inductive XArgs where
  | ok (a len dest : Nat)
  | bad (cause : BitVec 8) (val : W64)
deriving DecidableEq, Repr
def xcastArgs (r : GReg) (v : W64) : XArgs :=
  let units := bits v 44 32
  let dest := bits v 17 0
  let a := capBase r.bits + capCursor r.bits
  let len := 16 * units
  match windowCheck r true false with
  | some (cause, val) => .bad cause val
  | none =>
    if bits v 63 45 ≠ 0 ∨ bits v 31 18 ≠ 0 ∨ units = 0 ∨ 4096 < units ∨ Config.lsSize < dest + len then .bad cCAPBND v
    else if dest % 16 ≠ 0 then .bad cALIGN v
    else if capBase r.bits + capLength r.bits < a + len ∨ Config.lsSize < a + len then .bad cCAPBND (BitVec.ofNat 64 a)
    else if a % 16 ≠ 0 then .bad cALIGN (BitVec.ofNat 64 a)
    else .ok a len dest

/-- The transfer leaves: to the core of the role, if its process lives. -/
def State.sendUnits (s : State) (g : Gang) (role a len dest : Nat) : State :=
  let units := len / 16
  let r := s.lsRead s.core a len
  let id := r.2.ids
  let x : XSend := { id := id, role := role, dest := dest, bytes := r.1, addr := a, readUntil := s.cyc + units }
  let t := ({ r.2 with ids := id + 1 } : State).updMe fun c => { c with xsend := some x }
  match Tab.find g.bound role with
  | none => t
  | some m =>
    if g.exited.contains role then t
    else
      let others := ((t.coreAt m).xpend.map fun y => y.bytes.length / 16).foldl (fun a b => a + b) 0
      let y : XPend := { id := id, dest := dest, bytes := r.1.map some }
      let base := s.cyc + xcastTime s.core m + units
      let when_ := if g.h.planned then base + (if others = 0 then 0 else Config.freeDelay t.fresh % (others + 1))
        else s.cyc + 1 + Config.freeDelay t.fresh
      (({ t with fresh := t.fresh + 1 } : State).updCore m fun c => { c with xpend := c.xpend ++ [y] }).atCycle when_ (.xcastTransferComplete id)

def xcast (s : State) (c : Ctl) (role : BitVec 12) (w d : BitVec 6) : Eff :=
  match xcastArgs (s.gReg w) (s.readG d), s.myGang with
  | .bad cause val, _ => .trap cause val
  | .ok .., none => .hold
  | .ok a len dest, some g =>
    let x := s.cyc - s.me.proc.xstart
    let p := 4 * c.plan.toNat
    if (s.me.xsend.any fun y => decide (s.cyc < y.readUntil)) then .hold
    else if g.h.planned ∧ p < x then .trap cXPLAN (BitVec.ofNat 64 x)
    else if (g.h.planned ∧ x < p) || s.lsHeld s.core a len false then .hold
    else .done (s.sendUnits g role.toNat a len dest)

/-- The hint of an XCAST is its plan: it has no wait, set, switch or last-use field (R50). -/
def planCtl (c : Ctl) : Ctl := { c with wait := 0, set := 0, sw := false, lu := false }

def execXcast (c : Ctl) (role : BitVec 12) (w d : BitVec 6) (s : State) : Host.Outcome State Fault Refusal :=
  let roles := match s.myGang with
    | some g => g.h.roles
    | none => 0
  let late := match s.myGang with
    | some g => g.h.planned && decide (g.h.xlen ≤ 4 * c.plan.toNat)
    | none => false
  if roles ≤ role.toNat then illegal s
  else if late then .next (s.takeTrap s.core s.k { cause := cXPLAN, val := c.plan.setWidth 64 } s.cx.pc)
  else issue (planCtl c) fFar s fun s => xcast s c role w d

def execXcastTransferComplete (id : Nat) (s : State) : Host.Outcome State Fault Refusal :=
  match s.cores.find? fun p => p.2.xpend.any fun x => x.id == id with
  | none => .next s
  | some (n, c) =>
    match c.xpend.find? fun x => x.id == id with
    | none => .next s
    | some x =>
      .next (s.updCore n fun c =>
        { c with
          xpend := c.xpend.filter fun y => y.id != id
          ls := (x.bytes.zip (List.range x.bytes.length)).foldl (fun ls b => match b.1 with
            | some v => Tab.set 0 ls (x.dest + b.2) v
            | none => ls) c.ls })

/-! ## WIDF and ROLEQ (R297, R298) -/

/-- Field `i` of a work identifier (R32). -/
def widField (wid : W64) (widths : List Nat) (i : Nat) : Nat :=
  wid.toNat / 2 ^ ((widths.take i).foldl (fun a b => a + b) 0) % 2 ^ ((widths[i]?).getD 0)
def execWidf (c : Ctl) (d : BitVec 6) (i : BitVec 3) (s : State) : Host.Outcome State Fault Refusal :=
  issue c fLate s fun s =>
    let p := s.me.proc
    let widths := match s.myGang with
      | some g => g.h.widths
      | none => []
    writeLate s c d (if i = 6 then p.superstep
      else if i = 7 then (if p.exchange then 1 else 0)
      else BitVec.ofNat 64 (widField p.wid widths i.toNat))

/-- The word ROLEQ returns about role `r`, seen from core `n`. -/
def roleWord (g : Gang) (n r : Nat) : W64 :=
  let m := (Tab.find g.bound r).getD 0
  let quad := decide (r < 4 * g.h.quads)
  let bit := fun (b : Bool) (i : Nat) => if b then 2 ^ i else 0
  BitVec.ofNat 64 (bit quad 42 + (if quad then r % 4 * 2 ^ 40 else 0) + bit (dieOf m == dieOf n) 39 + bit (parterreOf m == parterreOf n) 38 +
    bit (arborOf m == arborOf n) 37 + bit (g.exited.contains r) 36 + (g.h.lcnBase + BitVec.ofNat 32 r).toNat)
def roleOf (s : State) : RoleOp → W64
  | .role r => r.setWidth 64
  | .g n => s.readG n
def execRoleq (c : Ctl) (d : BitVec 6) (r : RoleOp) (s : State) : Host.Outcome State Fault Refusal :=
  match s.myGang with
  | none => illegal s
  | some g =>
    if (match r with
      | .role n => decide (g.h.roles ≤ n.toNat)
      | .g _ => false) then illegal s
    else
      issue c fLate s fun s =>
        if g.h.roles ≤ (roleOf s r).toNat then .trap cCAPBND (roleOf s r) else writeLate s c d (roleWord g s.core (roleOf s r).toNat)

end Sys2Proof.Machine
end

