-- ==== Sys2Proof/Machine/Image.lean ====
section
/-! DEFINITION. What a save and a dump write about a process (R400, R401, R421, R422): context blocks, w blocks, tiles,
summaries; and the dump of a gang or of a process that ends by a fault exit (R423). -/

namespace Sys2Proof.Machine

/-! ## Context blocks (R401) -/

/-- The 64 bytes of a retry latch (R392). -/
def Latch.bytes (l : Latch) : List Byte :=
  let flags := (if l.valid then 1 else 0) + (if l.sent then 2 else 0) + (if l.done then 4 else 0) + if l.posted then 8 else 0
  [BitVec.ofNat 8 flags, 0] ++ natLE 2 l.seq.toNat ++ natLE 4 0 ++ natLE 12 l.word.toNat ++ natLE 4 0 ++ natLE 8 l.addr.toNat ++
    natLE 8 l.operand.toNat ++ natLE 8 l.compare.toNat ++ natLE 8 l.result.toNat ++ natLE 8 0

/-- The state code of the block of context `k` of a gang that is stopped: S alone runs on. `ended`: a fault exit stopped it. -/
def Ctx.code (x : Ctx) (k : Nat) (ended : Bool) : Nat :=
  match x.run with
  | .dead => 0
  | .parked => 3
  | .ready => if k = 0 then 1 else 4
  | .stopped => if ended then 4 else 2
  | .waiting w => match w with
    | .result _ => 4
    | .start | .recv .. | .select .. | .sync _ | .jobs .. | .preds .. | .barrier _ | .gangIssue | .helper .. | .helpers | .event .. => 2

/-- A context block; `regs` says what a g register is written as, `code` its state. -/
def Ctx.block (x : Ctx) (code : Nat) (regs : GReg → GReg) : List Byte :=
  let g := (List.range 64).map fun n => regs (x.gReg (BitVec.ofNat 6 n))
  (g.flatMap fun r => natLE 16 r.bits.toNat) ++
    natLE 8 ((List.range 64).foldl (fun a n => a + if ((g[n]?).map fun r => r.tag) == some true then 2 ^ n else 0) 0) ++
    natLE 8 x.pc.toNat ++
    [BitVec.ofNat 8 code, x.q, BitVec.ofNat 8 x.blocks.length, x.cursor.setWidth 8] ++
    ((List.range 4).map fun j => BitVec.ofNat 8 (Tab.get 0 x.sb j)) ++
    [x.fflags.setWidth 8, x.rmode.setWidth 8, (x.gangEvents.head?.map fun e => e.1).getD 0] ++ natLE 5 0 ++
    natLE 8 x.trap.cause.toNat ++ natLE 8 x.trap.val.toNat ++ natLE 8 x.trap.ip.toNat ++
    ((List.range 8).flatMap fun n => natLE 4 (x.mask (BitVec.ofNat 3 n)).toNat) ++ natLE 8 0 ++
    x.latch.bytes ++ natLE 96 0 ++
    (g.flatMap fun r => natLE 4 r.endst.toNat) ++ natLE 512 0

/-- The w blocks of a core: each context's in context-number order and list order, then zero (R151, R400). -/
def Core.wBytes (c : Core) : List Byte :=
  let all := (List.range 12).flatMap fun k =>
    (c.ctx k).blocks.flatMap fun b => (List.range 8).flatMap fun i => natLE 128 (c.wReg (8 * b + i)).toNat
  (all ++ natLE (8192 - all.length) 0).take 8192
/-- The tiles, 4 KiB each, row-major in their shapes. -/
def Core.tileBytes (c : Core) : List Byte :=
  (List.range 4).flatMap fun a =>
    let t := c.tile (BitVec.ofNat 2 a)
    let b := (List.range (t.rows * t.cols)).flatMap fun i => natLE 4 (Tab.get 0 t.data i).toNat
    b ++ natLE (4096 - b.length) 0
/-- The MCFG shape code of a tile (R170). -/
def Tile.shape (t : Tile) : Nat := (if t.h8 then 1 else 0) + (if t.n32 then 2 else 0) + if t.isInt then 4 else 0

/-! ## Dumps (R421 to R423) -/

def TrapRec.bytes (r : TrapRec) : List Byte := natLE 8 r.cause.toNat ++ natLE 8 r.val.toNat ++ natLE 8 r.ip.toNat
/-- Type 1: the summary of a process. -/
def Core.summary (c : Core) : List Byte :=
  c.proc.stopRecord ++ natLE 8 c.proc.superstep.toNat ++ natLE 4 c.proc.lcn.toNat ++ natLE 4 0 ++
    ((List.range 12).drop 1).flatMap fun k => (c.ctx k).trap.bytes
/-- One entry: head and payload. -/
def dumpEntry (type role : Nat) (payload : List Byte) : List Byte :=
  [BitVec.ofNat 8 type, 0] ++ natLE 2 role ++ natLE 4 payload.length ++ natLE 8 0 ++ payload
/-- The pending hits of a process, as one entry, if it has any (R412). -/
def State.hitEntry (s : State) (n : Nat) : List (List Byte) :=
  let c := s.coreAt n
  let mine := (s.hits.filter fun h => h.domain == c.dom && h.lcn == c.proc.lcn).flatMap fun h => h.recs
  if mine.isEmpty then [] else [dumpEntry 2 c.proc.role mine.flatten]
/-- The entries of a dump of the processes on `cores`, in priority order. -/
def State.dumpEntries (s : State) (cores : List Nat) (ended : Bool) : List (List Byte) :=
  let one := fun (type : Nat) (f : Core → List Byte) => cores.map fun n => dumpEntry type (s.coreAt n).proc.role (f (s.coreAt n))
  one 1 Core.summary ++ (cores.flatMap s.hitEntry) ++
    one 3 (fun c => (List.range 12).flatMap fun k => (c.ctx k).block ((c.ctx k).code k ended) id) ++
    one 4 (fun c => c.wBytes ++ c.tileBytes) ++ one 5 fun c => Tab.readBytes c.ls 0 Config.lsSize
def dumpHeader (state cause written required node roles : Nat) : List Byte :=
  [0x44, 0x58, 0x44, 0x50] ++ natLE 2 1 ++ [BitVec.ofNat 8 state, BitVec.ofNat 8 cause] ++ natLE 8 written ++ natLE 8 required ++
    natLE 8 node ++ natLE 2 roles ++ natLE 30 0

/-- Write entries while they fit: the bytes written, and how it ended (1 complete, 2 truncated, 3 write fault). -/
def State.dumpWrite (s : State) (d : BitVec 11) (buf len at_ : Nat) : List (List Byte) → State × Nat × Nat
  | [] => (s, at_, 1)
  | e :: r =>
    if len < at_ + e.length then (s, at_, 2)
    else
      let w := s.vwrite d (buf + at_) e
      match w.2.1 with
      | some _ => (w.1, w.2.2 - buf, 3)
      | none => w.1.dumpWrite d buf len (at_ + e.length) r

/-- The header is rewritten; if that write faults too, a notice to the debugger carries the bytes written (R423). -/
def State.dumpClose (s : State) (d : BitVec 11) (buf state cause written need node roles : Nat) : State :=
  let w := s.vwrite d buf (dumpHeader state cause written need node roles)
  match w.2.1, w.1.lodge.owner with
  | some _, some o => w.1.toHost o.1 none (.debug o.1 3 (natLE 8 written))
  | _, _ => w.1
/-- A dump: header, entries, header again. Answers the bytes written. -/
def State.dump (s : State) (d : BitVec 11) (buf len cause node : Nat) (cores : List Nat) (ended : Bool) : State × Nat :=
  let entries := s.dumpEntries cores ended
  let need := 64 + (entries.map fun e => e.length).foldl (fun a b => a + b) 0
  if len < 64 then (s, 0)
  else
    let w := s.vwrite d buf (dumpHeader 0 cause 64 need node cores.length)
    match w.2.1 with
    | some _ => (w.1.dumpClose d buf 3 cause (w.2.2 - buf) need node cores.length, w.2.2 - buf)
    | none =>
      let r := w.1.dumpWrite d buf len 64 entries
      (r.1.dumpClose d buf r.2.2 cause r.2.1 need node cores.length, r.2.1)

/-- The dump at a fault exit, when the domain has a buffer for it (R421). -/
def State.dumpFault (s : State) (n : Nat) (cause : BitVec 8) : State :=
  let c := s.coreAt n
  match (s.domainAt c.dom).dumpBuf with
  | none => s
  | some b =>
    let node := match s.gangAt c.proc.gang with
      | some g => (g.node.map fun (v : W64) => v.toNat).getD 0
      | none => 0
    (s.dump c.dom b.1.toNat b.2.toNat cause.toNat node [n] true).1

end Sys2Proof.Machine
end

