-- ==== Sys2Proof/Machine/Stage.lean ====
section
/-! DEFINITION. Requests through `prq` (R290 to R292, R334) and stages that clone and merge (R319 to R335): arming, holders,
requests, pauses, upcalls, the range steps, and the STAGE class. A stage is numbered by the gang of its original. -/

namespace Sys2Proof.Machine

/-! ## Stages and holders -/

def State.stageAt (s : State) (id : Nat) : Option Stage := Tab.find s.stages id
def State.updStage (s : State) (id : Nat) (f : Stage → Stage) : State :=
  match s.stageAt id with
  | some x => { s with stages := Tab.put s.stages id (f x) }
  | none => s
/-- Fields of the descriptor (R319). -/
def Stage.stateOff (st : Stage) : Nat := cardField st.descriptor 0 4
def Stage.stateLen (st : Stage) : Nat := cardField st.descriptor 4 4
def Stage.split (st : Stage) : W64 := BitVec.ofNat 64 (cardField st.descriptor 8 8)
def Stage.merge (st : Stage) : W64 := BitVec.ofNat 64 (cardField st.descriptor 16 8)
def Stage.input (st : Stage) : BitVec 6 := BitVec.ofNat 6 (cardField st.descriptor 24 1)
def Stage.twinLimit (st : Stage) : Nat := cardField st.descriptor 25 1
def Stage.keyMask (st : Stage) : W32 := BitVec.ofNat 32 (cardField st.descriptor 28 4)
def Stage.hi (st : Stage) : Nat := cardField st.descriptor 32 4
def Stage.lo (st : Stage) : Nat := cardField st.descriptor 36 4
def Stage.window (st : Stage) : Nat := cardField st.descriptor 40 4
def Stage.twins (st : Stage) : List Nat := (st.holders.filter fun h => h.index != 0).map fun h => h.index
/-- The core of a holder. -/
def State.holderCore (s : State) (st : Stage) (h : Nat) : Option Nat :=
  match st.holders.find? fun x => x.index == h with
  | some x => (s.gangCores x.gang).head?
  | none => none
/-- The stage a gang is a holder of, with its number. -/
def State.stageOf (s : State) (g : Nat) : Option (Nat × Stage) := s.stages.find? fun p => p.2.holders.any fun h => h.gang == g
/-- The gangs a request or a save covers: one, or those of every holder (R334). -/
def State.family (s : State) (g : Nat) : List Nat :=
  match s.stageOf g with
  | some (_, st) => st.holders.map fun h => h.gang
  | none => [g]

/-! ## Monitors of a parterre (R322 to R324, R416) -/

def monEnabled (m : Monitor) : Bool := m.desc.getLsbD 32
def State.freeMonitors (s : State) (par : Nat) : List Nat :=
  ((List.range 16).map fun i => 16 * par + i).filter fun k => let m := Tab.get Monitor.init s.monitors k; m.stage.isNone && !monEnabled m
/-- The descriptor of a stage monitor. -/
def stageDesc (d : BitVec 11) (relation threshold samples action h : Nat) (on : Bool) : W128 :=
  BitVec.ofNat 128 (threshold * 2 ^ 64 + samples % 2 ^ 20 * 2 ^ 44 + action * 2 ^ 40 + relation * 2 ^ 37 + 2 ^ 33 + (if on then 2 ^ 32 else 0) +
    d.toNat * 2 ^ 16 + h)
def State.bindMonitor (s : State) (par id h : Nat) (desc : W128) : State :=
  match s.freeMonitors par with
  | [] => s
  | k :: _ => { s with monitors := Tab.put s.monitors k { Monitor.init with desc := desc, stage := some (id, h) } }
def Stage.cloneDesc (st : Stage) (h : Nat) (on : Bool) : W128 := stageDesc st.domain 0 st.hi (st.window / 64) 4 h on
def Stage.mergeDesc (st : Stage) (h : Nat) (on : Bool) : W128 := stageDesc st.domain 1 st.lo (st.window / 64) 5 h on
def State.freeHolderMonitors (s : State) (id h : Nat) : State :=
  { s with monitors := s.monitors.map fun p => if p.2.stage = some (id, h) then (p.1, Monitor.init) else p }
/-- The requests of a stage's monitors have completed or been refused (R324). -/
def State.rearmMonitors (s : State) (id : Nat) : State :=
  { s with monitors := s.monitors.map fun p => if (p.2.stage.map fun x => x.1) = some id then (p.1, { p.2 with fired := false }) else p }

/-! ## Messages held for a holder (R327, R330, R331) -/

def insertBy {α : Type} (f : α → Nat) (x : α) : List α → List α
  | [] => [x]
  | y :: r => if f x < f y then x :: y :: r else y :: insertBy f x r
/-- Sorted by a number; equal ones keep their order. -/
def sortBy {α : Type} (f : α → Nat) (l : List α) : List α := l.foldl (fun a x => insertBy f x a) []

/-- The next deliver number of a holder's end (R237). -/
def State.endCount (s : State) (k h : Nat) : W32 :=
  match s.recAt k with
  | none => 0
  | some r =>
    match (Tab.find r.rlocs h).bind fun n => (s.coreAt n).recvEnd s.lodge.deviceId k with
    | some e => e.2.endst
    | none => r.expected
/-- The accepted message for a holder that an event is carrying. -/
def carriedMsg (here : BitVec 12) (k h : Nat) : Instr → Option Msg
  | .inboxMessageArrival _ m => if ofRecord here k m ∧ m.holder = BitVec.ofNat 3 h then some m else none
  | .recordMessageArrival m => if ofRecord here k m ∧ m.forwarded ∧ m.holder = BitVec.ofNat 3 h then some m else none
  | _ => none
/-- Every accepted and undelivered message for a holder, in deliver order: in its inbox, in the ring, or on its way. -/
def State.heldMsgs (s : State) (k h : Nat) : List Msg :=
  match s.recAt k with
  | none => []
  | some r =>
    let inbox := match Tab.find r.rlocs h with
      | some n => (s.coreAt n).inbox.filter (ofRecord s.lodge.deviceId k)
      | none => []
    let moving := ((s.calendar.map fun p => p.2) ++ s.due).filterMap (carriedMsg s.lodge.deviceId k h)
    let base := s.endCount k h
    sortBy (fun m => (m.seq - base).toNat) (inbox ++ r.heldFor h ++ moving)
/-- Take them all from where they are. -/
def State.takeHeld (s : State) (k h : Nat) : State :=
  match s.recAt k with
  | none => s
  | some r =>
    let t := s.putRec k (({ r with stuck := r.stuck.filter fun e => !(e.1 && e.2.holder == BitVec.ofNat 3 h) } : ChanRec).keepRing
      (r.ring.filter fun e => !(e.stamped && e.msg.holder == BitVec.ofNat 3 h)))
    let t := { t with calendar := t.calendar.filter fun p => (carriedMsg s.lodge.deviceId k h p.2).isNone
                      due := t.due.filter fun i => (carriedMsg s.lodge.deviceId k h i).isNone }
    match Tab.find r.rlocs h with
    | none => t
    | some n => (t.updCore n fun c => { c with inbox := c.inbox.filter fun m => !ofRecord t.lodge.deviceId k m }).offerSlots n
/-- Number messages from `base` for a holder and forward them, the marker last. They come before whatever waits in the ring. -/
def State.deal (s : State) (k h : Nat) (base : W32) (l : List Msg) (marker : Option Msg) : State :=
  let who := BitVec.ofNat 3 h
  let key := fun (m : Msg) => match s.recAt k with
    | some r => r.keyOf m
    | none => m.key
  let number := fun (m : Msg) (i : Nat) => ({ m with seq := base + BitVec.ofNat 32 i, holder := who, key := key m } : Msg)
  let put : List Msg := (l.zip (List.range l.length)).map fun p => number p.1 p.2
  let last : List Msg := marker.toList.map fun m => number m l.length
  let t := s.updRec k fun r => { r with nexts := Tab.put r.nexts h (base + BitVec.ofNat 32 l.length), backlog := if h = 0 then 0 else r.backlog
                                        marked := if marker.isSome && !r.marked.contains h then r.marked ++ [h] else r.marked }
  (put ++ last).foldl (fun t m => match t.recAt k with
    | some r => t.route k r false m
    | none => t) t

/-- Depth of a holder (R324): the queued field of R262. -/
def State.depth (s : State) (k h : Nat) : Nat :=
  match s.recAt k with
  | some r => r.queuedFor h (s.endCount k h)
  | none => 0

/-! ## Pauses (R326) -/

/-- A helper is live on a core. -/
def Core.helperLive (c : Core) : Bool := ((List.range 12).drop 2).any fun k => (c.ctx k).run != .dead
/-- Nothing of C's is still to land. -/
def State.quietC (s : State) (n : Nat) : Bool :=
  let c := s.coreAt n
  !(c.land.any fun l => l.ctx == 1) && !(c.wq.any fun e => e.ctx == 1) && !(c.flight.any fun o => o.ctx == 1) &&
    !(s.replies.any fun r => r.core == n && r.ctx == 1)
/-- A pause has taken effect. -/
def State.paused (s : State) (n : Nat) : Bool :=
  s.allStopped n && !s.flyingAt n && !s.jobsOut n true && (s.coreAt n).proc.fills.isEmpty && s.quietC n
/-- A partial hold is in force for the process on a core (R415). -/
def State.holding (s : State) (n : Nat) : Bool :=
  let c := s.coreAt n
  (s.domainAt c.dom).holds.contains (c.proc.gang, c.proc.role)
/-- A paused process goes on, unless a hold or a pre-empt request keeps it. -/
def State.unpause (s : State) (n : Nat) : State :=
  if s.holding n || bits (s.coreAt n).proc.prq 63 62 == 1 then s else s.goOn n

/-! ## Upcalls (R328, R329) -/

def windowCap (base len : Nat) : GReg :=
  { bits := BitVec.ofNat 128 (2 * 2 ^ 125 + 3 * 2 ^ 123 + len * 2 ^ 86 + base / 16 * 2 ^ 40), tag := true, endst := 0 }

/-- C of a paused holder starts at a routine. -/
def State.startUpcall (s : State) (id n : Nat) (st : Stage) (routine g1 : W64) (g4 : Nat) : State :=
  let a := st.stateOff
  let len := st.stateLen
  let t := s.updStage id fun x => { x with snapshot := Tab.readBytes (s.coreAt n).ls a (2 * len) }
  t.updCore n fun c =>
    let x := c.ctx 1
    let y := { x with pc := routine, run := Run.ready, q := 1, m := [], sb := [], cursor := 0, blocks := [], wd := 0, branch := none,
                      g := [(1, GReg.data g1), (2, windowCap a len), (3, windowCap (a + len) len), (4, GReg.data (BitVec.ofNat 64 g4))] }
    { c.setCtx 1 y with upcall := some x }
/-- What remains of a result of an upcall word: the registers it was for are set aside no more, its flags and its writes of
special registers land. -/
def Landing.afterUpcall (l : Landing) : Landing :=
  if l.ctx = 1 then
    { l with sb := none, res := match l.res with
      | .s n v => .s n v
      | .g .. | .q .. | .m .. | .w .. | .none => .none }
  else l
/-- The set-aside state goes back into C: its program counter, registers, scoreboard counters, cursor and allotment (R328). -/
def State.leaveUpcall (s : State) (n : Nat) : State :=
  match (s.coreAt n).upcall with
  | none => s
  | some x =>
    s.updCore n fun c =>
      let y := { c.ctx 1 with pc := x.pc, run := x.run, g := x.g, q := x.q, m := x.m, sb := x.sb, cursor := x.cursor, blocks := x.blocks,
                              wd := x.wd, branch := x.branch, notBefore := max (c.ctx 1).notBefore x.notBefore }
      { c.setCtx 1 y with upcall := none, land := c.land.map Landing.afterUpcall }
/-- The state region and the transfer buffer become what they were before the upcall (R329). -/
def State.undoUpcall (s : State) (n : Nat) (st : Stage) : State :=
  s.updCore n fun c => { c with ls := Tab.writeBytes c.ls st.stateOff st.snapshot }

/-! ## The end of an operation (R325, R332) -/

/-- Abandon the operation of a stage, with its code: nothing of it remains, and the holders resume. -/
def State.abandonStage (s : State) (id : Nat) (code : BitVec 8) : State :=
  match s.stageAt id with
  | none => s
  | some st =>
    if st.op = 0 then s
    else
      let cores := [st.who, st.other].filterMap fun h => s.holderCore st h
      let t := cores.foldl State.leaveUpcall s
      let t := match s.holderCore st (if st.op = 1 then st.who else st.other) with
        | some n => t.undoUpcall n st
        | none => t
      let t := t.updStage id fun x => { x with op := 0, phase := 0, code := code, target := none, snapshot := [] }
      let t := match st.target with
        | some n => (t.freeHolderMonitors id st.other).endProcess n false
        | none => t
      let t := if st.op = 2 then
          -- the held messages go to the twin in deliver order; an exit that waited for the merge is made again (R332, R333)
          let t := (t.updRec st.record fun r => { r with mergeHold := none }).now (.ringSlotOffer st.record)
          match s.holderCore st st.who with
          | some n => t.later (.processExit n)
          | none => t
        else t
      (cores.foldl State.unpause t).rearmMonitors id

/-! ## PREEMPT_REQUEST (R290 to R292) -/

def prqWord (cancel : Bool) (cyc : Nat) : W64 := BitVec.ofNat 64 ((if cancel then 2 else 1) * 2 ^ 62 + cyc % 2 ^ 48)

/-- `prq` is written on a core: the waits of R223 end, WAITP returns false, PREEMPT is set; under a pre-empt the contexts
stop at their yield points; a cancellation reaches its jobs (R234). -/
def State.writePrq (s : State) (n : Nat) (cancel : Bool) : State :=
  let t := s.updProc n fun p => { p with prq := prqWord cancel s.cyc, raised := s.cyc }
  let t := t.endWaits n
  let t := (List.range 12).foldl (fun t k =>
    match (t.ctxAt n k).run with
    | .waiting (.preds qd set) => (t.landAll n k set [.q qd false]).resume n k
    | _ => t) t
  let t := t.raise n evPREEMPT
  if cancel then t.cancelJobs n else t.stopAtYields n

def State.gangDlim (s : State) (g : Nat) : Nat :=
  match s.gangCores g with
  | n :: _ => (s.coreAt n).proc.dlim.toNat
  | [] => 0
/-- The request of one gang: a cancel replaces a pre-empt that has not been saved. -/
def State.requestGang (s : State) (g : Nat) (cancel : Bool) : State :=
  let cores := (s.gangCores g).filter fun n => (s.coreAt n).proc.faultExit.isNone
  let now := fun (k : Nat) => cores.any fun n => bits (s.coreAt n).proc.prq 63 62 == k
  if cores.isEmpty || now 2 || (!cancel && now 1) then s
  else
    let halt := fun (p : Proc) => if (s.gangAt g).any fun x => x.saving != 0 && !x.stopped then { p with halted := none } else p
    let t := cores.foldl (fun t n => if cancel && now 1 then (t.goOn n).updProc n halt else t) s
    let t := cores.foldl (fun t n => t.writePrq n cancel) t
    let t := t.updGang g fun x => { x with preempt := !cancel, saving := 0, saveFailed := false, raised := s.cyc, dueReq := none }
    let t := if s.gangDlim g = 0 then t.now (.dlimExpiry g) else t.atCycle (s.cyc + s.gangDlim g) (.dlimExpiry g)
    if cancel then t else t.later (.save g false)

/-- A pre-empt or cancel request; under a partial hold it falls due at UNHOLD (R415), and an operation of the stage is
abandoned first (R334). -/
def State.request (s : State) (g : Nat) (cancel : Bool) : State :=
  match s.gangAt g with
  | none => s
  | some x =>
    if !(s.domainAt x.domain).holds.isEmpty then s.updGang g fun y => { y with dueReq := some (cancel || y.dueReq.getD false) }
    else
      let t := match s.stageOf g with
        | some (id, _) => s.abandonStage id 11
        | none => s
      (t.family g).foldl (fun t h => t.requestGang h cancel) t

def execPreemptRequest (gang : Nat) (cancel : Bool) (s : State) : Host.Outcome State Fault Refusal := .next (s.request gang cancel)

/-- Force-stop (R292): the contexts stop, and PROCESS_EXIT carries out the rest. -/
def State.forceStop (s : State) (n : Nat) : State :=
  let t := s.updCore n fun c =>
    { c with land := c.land.filter fun l => l.res.bringsEnd, cur := none, ctxs := c.ctxs.map fun p => (p.1, p.2.halted),
             proc := { c.proc with forced := true } }
  let t := { t with replies := t.replies.filter fun r => !(r.core == n) || r.carries
                    syncs := t.syncs.filter fun w => !(w.core == n) }
  t.now (.processExit n)

/-- DLIM_EXPIRY (R291, R292). -/
def execDlimExpiry (gang : Nat) (s : State) : Host.Outcome State Fault Refusal :=
  match s.gangAt gang with
  | none => .next s
  | some g =>
    let cores := (s.gangCores gang).filter fun n => (s.coreAt n).proc.faultExit.isNone
    let kind := match cores with
      | n :: _ => bits (s.coreAt n).proc.prq 63 62
      | [] => 0
    if s.cyc < g.raised + s.gangDlim gang then .next s
    else if kind = 2 then .next (cores.foldl State.forceStop s)
    else if kind = 1 ∧ g.saving = 0 then
      -- a process whose fills are not complete has not stopped: its C would issue after the bound
      let stopped := ((s.family gang).flatMap s.gangCores).all fun n => (s.coreAt n).proc.started && s.allStopped n
      .next (s.now (.save gang (!stopped)))
    else .next s

/-! ## Requests of a stage (R323, R325) -/

/-- The spare core for a twin of a holder on die `die`. -/
def State.spareCore (s : State) (d : BitVec 11) (die : Nat) : Option Nat :=
  let ok := (s.freeCores d).filter fun n => decide (2 ≤ (s.freeMonitors (parterreOf n)).length)
  match ok.find? fun n => dieOf n == die with
  | some n => some n
  | none => (sortBy (fun n => n) ok).head?

/-- The refusal code of a request, or 0. -/
def State.stageRefusal (s : State) (st : Stage) (clone : Bool) (h : Nat) : BitVec 8 :=
  if !st.armed then 1
  else if st.op ≠ 0 then 2
  else if clone then
    if st.twinLimit ≤ st.twins.length then 3
    else
      let die := match s.holderCore st h with
        | some n => dieOf n
        | none => 0
      match s.spareCore st.domain die with
      | none => 4
      | some _ => if (match s.recAt st.record with
          | some r => r.sClosed
          | none => true) then 5 else 0
  else if h = 0 then 6
  else 0

/-- The pause of a holder begins. -/
def State.beginPause (s : State) (id n : Nat) : State :=
  let t := (s.stopAtYields n).updStage id fun x => { x with since := s.cyc }
  (t.atCycle (s.cyc + (s.coreAt n).proc.dlim.toNat) (.stagePauseTimeout id s.cyc)).later (.stagePause id)

/-- A twin's process on its spare core, filled but not started (R323). -/
def State.reserveTwin (s : State) (id : Nat) (st : Stage) (n j : Nat) : State :=
  match s.gangAt st.gang with
  | none => s
  | some g =>
    let d := st.domain
    let node := g.node.map fun (x : W64) => x.toNat
    let s := match node with
      | some va => (s.graphReady d va).residencyReady d va
      | none => s
    let q : Option Launch × State := match node with
      | some va => s.readLaunch d g.image (s.nGet d va 24 8) 3
      | none => (none, s)
    let caps := match q.1 with
      | some l => l.caps
      | none => []
    let first := match s.gangCores st.gang with
      | m :: _ => (s.coreAt m).proc.lcn
      | [] => g.h.lcnBase
    let t := q.2.fillCore n q.2.ids 0 d { h := g.h, caps := caps, stage := st.descriptor } (first + BitVec.ofNat 32 (j * 2 ^ 28))
      (s.fillsFor d node g.h 0) (some (id, j))
    let t := { t with ids := t.ids + 1 }
    let t := t.updStage id fun x => { x with target := some n }
    (t.bindMonitor (parterreOf n) id j (st.cloneDesc j false)).bindMonitor (parterreOf n) id j (st.mergeDesc j false)

/-- A clone or merge request for a holder (R325): whether it is accepted. -/
def State.stageRequest (s : State) (id : Nat) (clone : Bool) (h : Nat) : Bool × State :=
  match s.stageAt id with
  | none => (false, s)
  | some st =>
    let code := s.stageRefusal st clone h
    if code ≠ 0 then (false, (s.updStage id fun x => { x with code := code }))
    else
      match s.holderCore st h with
      | none => (false, s)
      | some n =>
        if clone then
          match s.spareCore st.domain (dieOf n) with
          | none => (false, s)
          | some core =>
            let j := (((List.range 8).drop 1).find? fun j => !st.twins.contains j).getD 7
            let t := s.updStage id fun x => { x with op := 1, phase := 1, who := h, other := j }
            (true, (t.reserveTwin id st core j).beginPause id n)
        else
          let t := s.updStage id fun x => { x with op := 2, phase := 0, who := h, other := h }
          let t := t.updRec st.record fun r => { r with mergeHold := some (h, r.nextFor h) }
          (true, t.later (.stageMergeQuiescence id))

/-! ## STAGE_PAUSE (R326 to R328) -/

/-- The split key (R327). -/
def splitKey (start : W32) (keys : List Nat) : Option W32 :=
  let l := sortBy (fun k => k) keys
  match l[l.length / 2]? with
  | none => none
  | some k =>
    if k = start.toNat then (l.find? fun x => decide (start.toNat < x)).map fun x => BitVec.ofNat 32 x else some (BitVec.ofNat 32 k)

/-- A request for a holder's process stands. -/
def State.stagePrq (s : State) (st : Stage) : Bool :=
  st.holders.any fun h => (s.gangCores h.gang).any fun n => (s.coreAt n).proc.prq != 0
def State.stageRec (s : State) (st : Stage) : Option ChanRec := s.recAt st.record

/-- The pause takes effect for a split: the key, and the split upcall. -/
def State.pauseSplit (s : State) (id n : Nat) (st : Stage) : State :=
  let start := match s.stageRec st with
    | some r => Tab.get 0 r.starts st.who
    | none => 0
  let key := fun (m : Msg) => match s.stageRec st with
    | some r => (r.rawKey m).toNat
    | none => 0
  match splitKey start (((s.heldMsgs st.record st.who).filter fun m => !m.closure).map key) with
  | none => s.abandonStage id 7
  | some k =>
    let t := s.updCore n fun c => { c with ls := Tab.writeBytes c.ls (st.stateOff + st.stateLen) (List.replicate st.stateLen 0) }
    let t := t.updStage id fun x => { x with splitKey := k, phase := 2 }
    t.startUpcall id n st st.split (k.setWidth 64) st.other

def execStagePause (stage : Nat) (s : State) : Host.Outcome State Fault Refusal :=
  match s.stageAt stage with
  | none => .next s
  | some st =>
    let h := if st.op = 1 ∧ st.phase = 1 then some st.who else if st.op = 2 ∧ st.phase = 2 then some st.other else none
    match h.bind fun h => s.holderCore st h with
    | none => .next s
    | some n =>
      if s.stagePrq st then .next (s.abandonStage stage 11)
      else if !st.armed then .next (s.abandonStage stage 1)
      else if !s.paused n then .next (s.later (.stagePause stage))
      else
        let t := s.raise n evSTAGE
        if st.op = 1 then .next (t.pauseSplit stage n st)
        else
          let start := match t.stageRec st with
            | some r => Tab.get 0 r.starts st.who
            | none => 0
          .next ((t.updStage stage fun x => { x with phase := 3 }).startUpcall stage n st st.merge (start.setWidth 64) st.who)

/-- STAGE_PAUSE_TIMEOUT: the pause asked for at cycle `op` is abandoned unless it has taken effect (R326). -/
def execStagePauseTimeout (stage op : Nat) (s : State) : Host.Outcome State Fault Refusal :=
  match s.stageAt stage with
  | none => .next s
  | some st =>
    let h := if st.op = 1 ∧ st.phase = 1 then some st.who else if st.op = 2 ∧ st.phase = 2 then some st.other else none
    match (if st.since = op then h else none) with
    | none => .next s
    | some h => if (s.holderCore st h).any s.paused then execStagePause stage s else .next (s.abandonStage stage 8)

/-- STAGEF (R329): the upcall is undone, the request abandoned, and C parks at its paused point. -/
def execStagef (core : Nat) (code : BitVec 16) (addr : BitVec 64) (s : State) : Host.Outcome State Fault Refusal :=
  onCore core s fun s =>
    match (s.coreAt core).upcall, (s.coreAt core).proc.stage with
    | some x, some (id, _) =>
      let t := s.abandonStage id 10
      t.park core 1 { cause := cSTAGEF, val := (addr.setWidth 48) ++ code } x.pc
    | _, _ => s

/-! ## The range steps (R330, R331) -/

/-- The range step of a split: the holder on core `n` keeps the keys below the split key, its twin on core `tn` gets the state that
the upcall wrote, an input end, the keys from the split key on, and their messages. -/
def State.splitRange (s : State) (stage n tn : Nat) (st : Stage) (r : ChanRec) : State :=
  let a := st.stateOff
  let copy := Tab.readBytes (s.coreAt n).ls (a + st.stateLen) st.stateLen
  let t := s.updCore tn fun c => { c with ls := Tab.writeBytes c.ls a copy }
  let all := t.heldMsgs st.record st.who
  let base := t.endCount st.record st.who
  let marker := all.find? fun m => m.closure
  let msgs := all.filter fun m => !m.closure
  let t := t.takeHeld st.record st.who
  let t := t.updRec st.record fun r =>
    { r with ranges := r.ranges ||| (1#8 <<< st.other), starts := Tab.put r.starts st.other st.splitKey,
             rlocs := Tab.put r.rlocs st.other tn }
  let twinEnd : GReg := { bits := makeEnd st.domain s.lodge.deviceId st.record true ||| BitVec.ofNat 128 (r.rgen.toNat * 2 ^ 59),
                          tag := true, endst := 0 }
  let g := (t.coreAt tn).proc.gang
  -- what has reached the attempt has reached its twin: a fault, a cancellation, a stop of the halt tree (R306, R308, R310, R396)
  let t := match t.gangAt st.gang with
    | some x => { t with gangs := Tab.put t.gangs g { newGang st.domain x.die (x.node.map fun (v : W64) => v.toNat) x.h x.image [tn] with
        stopped := x.stopped, cancel := x.cancel, fault := x.fault, eventStop := x.eventStop } }
    | none => t
  let t := t.updCtx tn 1 fun x => { x.setG st.input twinEnd with run := .ready }
  let t := if (t.gangAt g).any fun x => x.stopped then t.haltCore tn else t
  let t := t.deal st.record st.who base (msgs.filter fun m => decide ((r.rawKey m).toNat < st.splitKey.toNat)) marker
  let t := t.deal st.record st.other 0 (msgs.filter fun m => decide (st.splitKey.toNat ≤ (r.rawKey m).toNat)) marker
  let t := t.updStage stage fun x =>
    { x with op := 0, phase := 0, target := none, snapshot := [],
             holders := x.holders ++ [{ index := st.other, gang := g, start := st.splitKey }] }
  let on := fun (p : Nat × Monitor) => if p.2.stage = some (stage, st.other) then (p.1, { p.2 with desc := p.2.desc ||| (1#128 <<< 32) }) else p
  let t := { t with monitors := t.monitors.map on }
  (t.unpause n).rearmMonitors stage

/-- STAGE_SPLIT_COMPLETION: the copy, the new range, the messages, and the twin. -/
def execStageSplitCompletion (stage : Nat) (s : State) : Host.Outcome State Fault Refusal :=
  match s.stageAt stage with
  | none => .next s
  | some st =>
    match st.target, s.holderCore st st.who, s.stageRec st with
    | some tn, some n, some r =>
      if st.op ≠ 1 ∨ st.phase ≠ 3 then .next s
      else if s.stagePrq st then .next (s.abandonStage stage 11)
      else if !(s.coreAt tn).proc.started || !r.stuck.isEmpty then .next (s.later (.stageSplitCompletion stage))
      else .next (s.splitRange stage n tn st r)
    | _, _, _ => if st.op = 1 ∧ st.phase = 3 then .next (s.abandonStage stage 1) else .next s

/-- The holder whose range ends one below a twin's start (R331). -/
def survivor (r : ChanRec) (j : Nat) : Nat :=
  let start := (Tab.get 0 r.starts j).toNat
  let below := (List.range 8).filter fun i => r.ranges.getLsbD i && i != j && decide ((Tab.get 0 r.starts i).toNat < start)
  below.foldl (fun a i => if (Tab.get 0 r.starts a).toNat ≤ (Tab.get 0 r.starts i).toNat then i else a) (below.head?.getD 0)

/-- The twin's input end goes without a closure marker, whichever register holds it (R331). -/
def State.dropInput (s : State) (n record : Nat) : State :=
  let drop := fun (r : GReg) => if r.isEnd && endRecv r.bits && endDevice r.bits == s.lodge.deviceId && endRec r.bits == record then GReg.zero else r
  s.updCore n fun c => { c with ctxs := c.ctxs.map fun p => (p.1, { p.2 with g := p.2.g.map fun r => (r.1, drop r.2) }) }

/-- Steps 5 to 8 of R331, after the merge upcall. -/
def State.mergeJoin (s : State) (id : Nat) (st : Stage) : State :=
  match s.holderCore st st.who, s.holderCore st st.other with
  | some n, some m =>
    let j := st.who
    let sv := st.other
    let base := s.endCount st.record sv
    let all := s.heldMsgs st.record sv ++ s.heldMsgs st.record j
    let marker := all.find? fun x => x.closure
    let t := (s.takeHeld st.record sv).takeHeld st.record j
    let t := t.updRec st.record fun r =>
      { r with ranges := r.ranges &&& ~~~(1#8 <<< j), starts := Tab.erase r.starts j, nexts := Tab.erase r.nexts j, rlocs := Tab.erase r.rlocs j,
               mergeHold := none, spill := r.spill.filter (fun h => h != j), marked := r.marked.filter fun h => h != j }
    let t := t.deal st.record sv base (all.filter fun x => !x.closure) marker
    let t := t.updStage id fun x =>
      { x with op := 0, phase := 0, snapshot := [], holders := x.holders.filter fun h => h.index != j }
    let t := t.freeHolderMonitors id j
    let t := (t.dropInput n st.record).endProcess n true
    (t.unpause m).rearmMonitors id
  | _, _ => s.abandonStage id 11

/-- The twin's depth is 0 and its pause has taken effect: its state goes to the survivor's buffer, and that holder is paused
(R331, steps 3 and 4). -/
def State.mergeCopy (s : State) (id n : Nat) (st : Stage) (r : ChanRec) : State :=
  let sv := survivor r st.who
  match s.holderCore st sv with
  | none => s.abandonStage id 11
  | some m =>
    let t := s.raise n evSTAGE
    let copy := Tab.readBytes (t.coreAt n).ls st.stateOff st.stateLen
    let t := t.updCore m fun c => { c with ls := Tab.writeBytes c.ls (st.stateOff + st.stateLen) copy }
    (t.updStage id fun x => { x with phase := 2, other := sv }).beginPause id m

/-- STAGE_MERGE_QUIESCENCE: the steps of R331 that no other event makes; phase 4 is the range step after the merge upcall. -/
def execStageMergeQuiescence (stage : Nat) (s : State) : Host.Outcome State Fault Refusal :=
  match s.stageAt stage with
  | none => .next s
  | some st =>
    match s.holderCore st st.who, s.stageRec st with
    | some n, some r =>
      let again := s.later (.stageMergeQuiescence stage)
      if st.op ≠ 2 ∨ st.phase = 2 ∨ st.phase = 3 then .next s
      else if s.stagePrq st then .next (s.abandonStage stage 11)
      else if st.phase = 0 then
        if (s.coreAt n).proc.leaving.isSome && !(s.coreAt n).helperLive || s.depth st.record st.who == 0 then
          .next (((s.stopAtYields n).updStage stage fun x => { x with phase := 1 }).later (.stageMergeQuiescence stage))
        else .next again
      else if st.phase = 1 then
        if s.paused n && s.exitDrained n then .next (s.mergeCopy stage n st r) else .next again
      else if r.stuck.isEmpty then .next (s.mergeJoin stage st)
      else .next again
    | _, _ => if st.op = 2 then .next (s.abandonStage stage 11) else .next s

/-! ## The STAGE class (R335) -/

def execSret (c : Ctl) (v : GI) (s : State) : Host.Outcome State Fault Refusal :=
  issue c fPlain s fun s =>
    match s.me.proc.stage, s.me.upcall with
    | some (id, _), some _ =>
      if s.k ≠ 1 then .trap cPROT 2
      else
        match s.stageAt id with
        | none => .trap cPROT 2
        | some st =>
          let n := s.core
          -- the delay of the SRET holds C's next issue back (R51)
          let t := (s.leaveUpcall n).updCtx n 1 fun x => { x with notBefore := max x.notBefore (s.cyc + c.delay.toNat + 1) }
          let t := if s.gi v ≠ 0 then (t.updStage id fun x => { x with snapshot := [] }).abandonStage id 9
            else if st.op = 1 then (t.updStage id fun x => { x with phase := 3 }).now (.stageSplitCompletion id)
            else (t.updStage id fun x => { x with phase := 4 }).now (.stageMergeQuiescence id)
          .gone (t.switch n)
    | _, _ => .trap cPROT 2

/-- The first and last key of a holder's range (R335). -/
def ChanRec.rangeOf (r : ChanRec) (h : Nat) : Nat × Nat :=
  let start := (Tab.get 0 r.starts h).toNat
  let above := (List.range 8).filter fun i => r.ranges.getLsbD i && decide (start < (Tab.get 0 r.starts i).toNat)
  (start, above.foldl (fun m i => min m ((Tab.get 0 r.starts i).toNat - 1)) 0xFFFFFFFF)
/-- What KEYR reads. -/
def State.keyWord (s : State) (sl : BitVec 1) : W64 :=
  match s.me.proc.stage with
  | none => 0
  | some (id, h) =>
    match s.stageAt id with
    | none => 0
    | some st =>
      if sl = 0 then
        let r := match s.stageRec st with
          | some r => r.rangeOf h
          | none => (0, 0xFFFFFFFF)
        BitVec.ofNat 64 (r.2 * 2 ^ 32 + r.1)
      else
        let hold := (s.stageRec st).any fun r => (r.mergeHold.map fun x => x.1) == some h
        BitVec.ofNat 64 ((if hold then 2 ^ 26 else 0) + (if s.me.upcall.isSome then 2 ^ 25 else 0) + (if st.armed then 2 ^ 24 else 0) +
          st.code.toNat * 2 ^ 16 + st.twins.length * 2 ^ 8 + h)
def execKeyr (c : Ctl) (d : BitVec 6) (sl : BitVec 1) (s : State) : Host.Outcome State Fault Refusal :=
  issue c fLate s fun s => writeLate s c d (s.keyWord sl)

/-- The predicate of a SHINT, with the state its request leaves. -/
def shint (s : State) (c : Ctl) (qd : BitVec 3) (f : State → Nat → Nat → Stage → Bool × State) : Eff :=
  let r : Bool × State := match s.me.proc.stage with
    | none => (false, s)
    | some (id, h) =>
      match s.stageAt id with
      | none => (false, s)
      | some st => f s id h st
  .done (r.2.landAll s.core s.k c.set [.q qd r.1])

/-- Arming (R322). -/
def State.armStage (s : State) (id : Nat) (st : Stage) : Bool × State :=
  let no := fun (code : BitVec 8) => (false, s.updStage id fun x => { x with code := code })
  let g := s.gReg st.input
  match s.endCheck st.input (some true) bitUSE, s.endRecord g.bits with
  | none, some r =>
    if !r.keyable || r.keyed then no 12
    else if st.armed then no 13
    else
      match s.freeMonitors (parterreOf s.core) with
      | [] => no 14
      | _ :: _ =>
        -- numbers from the counter up to that of the last message accepted are in use (notes/assumptions/73.md)
        let t := s.putRec (endRec g.bits) { r with keyMask := st.keyMask, starts := Tab.put r.starts 0 0, nexts := Tab.put r.nexts 0 g.endst,
                                                   backlog := r.nextFor 0 - g.endst }
        let t := t.updStage id fun x => { x with armed := true, record := endRec g.bits }
        (true, t.bindMonitor (parterreOf s.core) id 0 (st.cloneDesc 0 true))
  | _, _ => no 12
/-- Disarming (R322). -/
def State.disarm (s : State) (id : Nat) (st : Stage) : Bool × State :=
  if !st.armed then (false, s.updStage id fun x => { x with code := 1 })
  else if !st.twins.isEmpty then (false, s.updStage id fun x => { x with code := 15 })
  else (true, s.disarmStage id)

def execShintArm (c : Ctl) (qd : BitVec 3) (s : State) : Host.Outcome State Fault Refusal :=
  issue c fLate s fun s => shint s c qd fun s id _ st => s.armStage id st
def execShintDisarm (c : Ctl) (qd : BitVec 3) (s : State) : Host.Outcome State Fault Refusal :=
  issue c fLate s fun s => shint s c qd fun s id _ st => s.disarm id st
def execShintClone (c : Ctl) (qd : BitVec 3) (s : State) : Host.Outcome State Fault Refusal :=
  issue c fLate s fun s => shint s c qd fun s id h _ => s.stageRequest id true h
def execShintMerge (c : Ctl) (qd : BitVec 3) (s : State) : Host.Outcome State Fault Refusal :=
  issue c fLate s fun s => shint s c qd fun s id h _ => s.stageRequest id false h

end Sys2Proof.Machine
end

