-- ==== Sys2Proof/Machine/Context.lean ====
section
/-! DEFINITION. The CTX class (R24, R284 to R289) with PROCESS_EXIT (R289, R292, R333, R391) and WATCHDOG_EXPIRY (R26, R282). -/

namespace Sys2Proof.Machine

/-! ## START (R286, R287) -/

/-- The lowest free helper slot (R24). -/
def Core.freeHelper (c : Core) : Option Nat := ((List.range 11).drop 1).find? fun k => (c.ctx (1 + k)).run == .dead
/-- What a helper's register gets from C's: an end copies as untagged zero. -/
def helperReg (r : GReg) : GReg := if r.isEnd then GReg.zero else { r with endst := 0 }
/-- A started helper. The count of sent operations is the context's and goes on (R392). -/
def startedHelper (c : Ctx) (old : Ctx) (k : Nat) (pc : W64) (cyc : Nat) : Ctx :=
  let g : Tab GReg := (c.g.filter fun p => decide (p.1 < 16)).map fun p => (p.1, helperReg p.2)
  { Ctx.init with pc := pc, run := .ready, g := Tab.put g 1 (GReg.data (BitVec.ofNat 64 k)), notBefore := cyc + 1,
                  latch := { Latch.empty with seq := old.latch.seq } }

/-- A helper's slot is a new helper's: what the one before left is joined to no context by it (R288). -/
def State.forgetPo (s : State) (n k : Nat) : State :=
  let t := s.updCore n fun c => { c with storeq := c.storeq.map fun o => { o with po := o.po.filter fun j => j != k } }
  ({ t with late := t.late.map fun l => if l.core = n then { l with po := l.po.filter fun j => j != k } else l } : State).setPast (.ctx n k) []

def start (s : State) (c : Ctl) (qd : BitVec 3) (h : BitVec 6) (pc : W64) : Eff :=
  if s.leak h then leakTrap h
  else
    match s.me.freeHelper with
    | none => .done (s.landAll s.core s.k c.set [.q qd false, .g h (GReg.data 0)])
    | some k =>
      let t := ((s.forgetPo s.core (leftOver (1 + k))).updCtx s.core (1 + k) fun x => startedHelper s.cx x k pc s.cyc).joinPo s.core 1 (1 + k)
      .done (t.landAll s.core s.k c.set [.q qd true, .g h (GReg.data (BitVec.ofNat 64 k))])

def execStartRelative (c : Ctl) (qd : BitVec 3) (h : BitVec 6) (off : BitVec 32) (s : State) : Host.Outcome State Fault Refusal :=
  issue c fLate s fun s => if s.k ≠ 1 then .trap cPROT 0 else start s c qd h (s.cx.pc + off.signExtend 64)
def execStartRegister (c : Ctl) (qd : BitVec 3) (h t : BitVec 6) (s : State) : Host.Outcome State Fault Refusal :=
  issue c fLate s fun s =>
    if s.k ≠ 1 then .trap cPROT 0
    else
      match brTarget (s.gReg t) with
      | .bad cause val => .trap cause val
      | .to a => start s c qd h a

/-! ## HJOIN (R288) -/

def execHjoin (c : Ctl) (qd : BitVec 3) (h : GI) (s : State) : Host.Outcome State Fault Refusal :=
  issue c fYieldLate s fun s =>
    let v := (s.gi h).toNat
    if v = 0 ∨ 10 < v then .trap cCAPBND (s.gi h)
    else if (s.me.ctx (1 + v)).run = .dead then
      .done ((s.joinPo s.core (leftOver (1 + v)) s.k).landAll s.core s.k c.set [.q qd false])
    else .wait (.helper v qd c.set) s

/-- HJOINs on a helper return once it has exited. -/
def State.wakeJoin (s : State) (n v : Nat) : State :=
  (List.range 12).foldl (fun s k =>
    match (s.ctxAt n k).run with
    | .waiting (.helper w qd set) => if w = v then ((s.joinPo n (leftOver (1 + v)) k).landAll n k set [.q qd true]).resume n k else s
    | _ => s) s

/-! ## HEXIT (R289) -/


/-- What a helper leaves under way lands under its left-over number: queued wide instructions with their results and masks,
posted writes, predicates of its SENDs and flags of its jobs. -/
def State.leaveOver (s : State) (n k : Nat) : State :=
  let j := leftOver k
  let own := fun (l : Landing) => l.ctx == k && match l.res with
    | .w .. | .m .. | .none => true
    | .g .. | .q .. | .s .. => false
  let rename := fun (po : List Nat) => po.map fun i => if i = k then j else i
  let acks := fun (m : Msg) => { m with ack := m.ack.map fun a => if a.ctx = k then { a with ctx := j } else a }
  let t := s.updCore n fun c =>
    { c with
      wq := c.wq.map fun e => if e.ctx = k then { e with ctx := j } else e
      land := c.land.map fun l => if own l then { l with ctx := j } else l
      storeq := c.storeq.map fun o => { o with ctx := if o.ctx = k then j else o.ctx, po := rename o.po }
      sendq := c.sendq.map acks
      ctxs := Tab.put c.ctxs j { c.ctx k with run := Run.dead, g := [] } }
  let t := (t.flow (.ctx n k) (.ctx n j)).setPast (.ctx n k) []
  { t with
    late := t.late.map fun l => if l.core = n then { l with po := rename l.po } else l
    jobs := t.jobs.map fun p => (p.1, { p.2 with owner := p.2.owner.map fun o =>
      if o.core = n ∧ o.ctx = k then { o with ctx := j } else o }) }

/-- A helper ends: its pending g and predicate results are discarded, and its ends close. -/
def State.helperExit (s : State) (n k : Nat) : State :=
  let t := (s.leaveOver n k).closeEnds n (fun j => j == k)
  let t := t.updCtx n k fun x => { Ctx.init with latch := { Latch.empty with seq := x.latch.seq } }
  let t := t.wakeJoin n (k - 1)
  if (t.coreAt n).proc.leaving.isSome && !(t.coreAt n).helperLive then t.now (.processExit n) else t

/-- C leaves: its arrival at the pending barrier, and the wait for its helpers. -/
def State.leaveGang (s : State) (n : Nat) : State :=
  let p := (s.coreAt n).proc
  match p.leaving with
  | some _ => s
  | none =>
    let t := s.updProc n fun q => { q with leaving := some s.cyc }
    let t := t.updGang p.gang fun g => { g with left := addTo g.left p.role, leavers := g.leavers ++ [(p.role, s.cyc)] }
    t.checkBarrier p.gang

def execHexit (c : Ctl) (s : State) : Host.Outcome State Fault Refusal :=
  issue c fYield s fun s =>
    let n := s.core
    if s.k = 0 then .trap cPROT 0
    else if (s.arborAt (arborOf n)).flying.any fun m => m.pos == posOf n && m.ctx == s.k then .hold
    else if s.k = 1 then .wait .helpers ((s.leaveGang n).now (.processExit n))
    else if s.me.holdsBlocks (leftOver s.k) then .hold
    else
      let t := s.helperExit n s.k
      .gone (t.switch n)

/-! ## PROCESS_EXIT (R289, R292, R333, R391) -/

/-- A holder that ends abnormally leaves its stage's list of holders. -/
def State.leaveStage (s : State) (n : Nat) : State :=
  match (s.coreAt n).proc.stage with
  | none => s
  | some (id, h) =>
    (s.updStage id fun x => { x with holders := x.holders.filter fun y => y.index != h }).freeHolderMonitors id h

/-- A process that is being ended: by a fault exit or by force. -/
def State.endAbnormal (s : State) (n : Nat) : State :=
  let p := (s.coreAt n).proc
  if p.ending then
    -- a refused posted operation is never armed again
    let s := s.dropRefused n
    if !s.exitDrained n then s.later (.processExit n)
    else
      match p.stage with
      | some (id, h) =>
        if (s.stageAt id).any fun x => x.target == some n then s.abandonStage id 4
        else
          let t := if (s.stageAt id).any fun x => x.op != 0 && (x.who == h || x.other == h) then s.abandonStage id 11 else s
          (t.leaveStage n).endProcess n false
      | none => s.endProcess n false
  else
    let t := s.updProc n fun q => { q with ending := true }
    let t := t.cancelJobs n
    let t := match p.faultExit with
      | some c => (t.dumpFault n c).nodeFault p.gang c
      | none => t
    t.later (.processExit n)

/-- A process whose C has issued HEXIT: a twin merges first, the original merges its twins (R333); it exits once its helpers have
exited (R289). -/
def State.endNormal (s : State) (n : Nat) : State :=
  let p := (s.coreAt n).proc
  let last := if (s.coreAt n).helperLive then s else if s.exitDrained n then s.endProcess n true else s.later (.processExit n)
  match p.stage with
  | none => last
  | some (id, h) =>
    match s.stageAt id with
    | none => last
    | some st =>
      if st.op ≠ 0 then s.later (.processExit n)
      else if h ≠ 0 then
        let r := s.stageRequest id false h
        if r.1 then r.2 else r.2.later (.processExit n)
      else
        match st.twins.foldl max 0 with
        | 0 => last
        | j => (s.stageRequest id false j).2.later (.processExit n)

def execProcessExit (core : Nat) (s : State) : Host.Outcome State Fault Refusal :=
  onCore core s fun s =>
    let c := s.coreAt core
    if !c.bound then s
    else if c.proc.faultExit.isSome || c.proc.forced then s.endAbnormal core
    else if (c.ctx 1).run == .waiting .helpers then s.endNormal core
    else s

/-! ## YIELD and WAITEV (R284, R285), WATCHDOG_EXPIRY -/

def execYield (c : Ctl) (s : State) : Host.Outcome State Fault Refusal :=
  issue (if s.guard c then { c with sw := true } else c) fYield s fun s => .done s

def execWaitev (c : Ctl) (d : BitVec 6) (mask : GI) (s : State) : Host.Outcome State Fault Refusal :=
  issue c fYieldLate s fun s =>
    let w := s.me.eventWord s.k
    if s.leak d then leakTrap d
    else if w &&& s.gi mask = 0 then .wait (.event (s.gi mask) d c.set) s
    else .done (s.landEvent s.core s.k (s.cyc + 1) d c.set w)

/-- The running context has gone `wdog` cycles without a yield point: it parks (R26, R282). -/
def execWatchdogExpiry (core : Nat) (s : State) : Host.Outcome State Fault Refusal :=
  onCore core s fun s =>
    let c := s.coreAt core
    match c.cur with
    | none => s
    | some k =>
      if k = 0 ∨ (c.ctx k).wd < c.wdog.toNat ∨ c.isReady k = false then s
      else s.takeTrap core k { cause := cWDOG, val := c.wdog.setWidth 64 } (c.ctx k).pc

end Sys2Proof.Machine
end

