-- ==== Sys2Proof/Machine/Sys.lean ====
section
/-! DEFINITION. The SYS class (R404 to R407) but for RETARM: NOP, TRAP, the three modes of ERET, RDS and WRS in their plain
and context forms, and the issue of SCALL (R359). -/

namespace Sys2Proof.Machine

def execNop (c : Ctl) (s : State) : Host.Outcome State Fault Refusal := issue c fPlain s fun s => .done s
def execTrap (c : Ctl) (code : BitVec 6) (v : GI) (s : State) : Host.Outcome State Fault Refusal :=
  issue c fPlain s fun s => .trap (0x40 + code.setWidth 8) (s.gi v)

/-! ## The special registers (R41) -/

/-- The record that `tcause`, `tval` and `tip` read (R389). -/
def Core.record (c : Core) : TrapRec :=
  match c.focus with
  | some k => (c.ctx k).trap
  | none => (c.ctx c.focusLast).trap

/-- What RDS of a special register reads in context `k` of core `n`. -/
def State.special (s : State) (n k : Nat) (num : Nat) : W128 :=
  let c := s.coreAt n
  let p := c.proc
  let x := c.ctx k
  let w := fun (v : W64) => (v.setWidth 128 : W128)
  if num = 0x000 then w p.wid
  else if num = 0x001 then p.lcn.setWidth 128
  else if num = 0x002 then BitVec.ofNat 128 (p.role % 4096)
  else if num = 0x003 then c.dom.setWidth 128
  else if num = 0x004 then x.fflags.setWidth 128
  else if num = 0x005 then p.bflags.setWidth 128
  else if num = 0x006 then x.rmode.setWidth 128
  else if num = 0x007 then w p.srseed
  else if num = 0x008 then w p.srctr
  else if num = 0x009 then BitVec.ofNat 128 (s.cyc % 2 ^ 64)
  else if num = 0x00A then w p.prq
  else if num = 0x00B then p.dlim.setWidth 128
  else if num = 0x00C then c.wdog.setWidth 128
  else if num = 0x00D ∨ num = 0x00E ∨ num = 0x00F then w (c.record.read num)
  else if num = 0x010 then BitVec.ofNat 128 x.allot
  else if num = 0x011 then p.imb
  else if num = 0x012 then c.evs.setWidth 128
  else if 0x014 ≤ num ∧ num ≤ 0x017 then (Tab.get 0 p.cw (num - 0x014)).setWidth 128
  else if 0x018 ≤ num ∧ num ≤ 0x01B then w (Tab.get 0 p.js (num - 0x018))
  else if 0x020 ≤ num ∧ num ≤ 0x027 then (Tab.get 0 c.hc (num - 0x020)).setWidth 128
  else if 0x028 ≤ num ∧ num ≤ 0x02B then (Tab.get 0 c.wa (num - 0x028)).setWidth 128
  else if 0x02C ≤ num ∧ num ≤ 0x02F then (Tab.get 0 c.wm (num - 0x02C)).setWidth 128
  else 0

/-- The registers that only S may write, and those that nobody may (R41). -/
def sMarked (num : Nat) : Bool :=
  (decide (0x00C ≤ num) && decide (num ≤ 0x00F)) || num == 0x012 || (decide (0x028 ≤ num) && decide (num ≤ 0x02F))
def readOnly (num : Nat) : Bool :=
  !(num == 0x004 || num == 0x006 || num == 0x008 || sMarked num || (decide (0x020 ≤ num) && decide (num ≤ 0x027)))

def execRds (c : Ctl) (d : BitVec 6) (src : BitVec 9) (s : State) : Host.Outcome State Fault Refusal :=
  issue c (fTo d) s fun s =>
    if s.leak d then leakTrap d
    else .done (s.landAfter 1 (.g d { bits := s.special s.core s.k src.toNat, tag := false, endst := 0 }) 0)
def execWrs (c : Ctl) (dst : BitVec 9) (v : GI) (s : State) : Host.Outcome State Fault Refusal :=
  issue c fPlain s fun s =>
    if sMarked dst.toNat && s.k != 0 then .trap cPROT (dst.setWidth 64)
    else if readOnly dst.toNat then .done s
    else .done (s.landAfter 1 (.s dst (s.gi v)) 0)

/-! ## The context forms (R407) -/

/-- What the context form of RDS reads of a parked context: an end reads as its bits, untagged. -/
def Ctx.readReg (x : Ctx) : CtxReg → GReg
  | .g n => let r := x.gReg n; { r with tag := r.tag && !r.isEnd, endst := 0 }
  | .m n => { bits := (x.mask n).setWidth 128, tag := false, endst := 0 }
  | .q n => { bits := if x.pred n then 1 else 0, tag := false, endst := 0 }
  | .s n =>
    let n := n.toNat
    GReg.data (if n = 0x004 then x.fflags.setWidth 64 else if n = 0x006 then x.rmode.setWidth 64
      else if n = 0x010 then BitVec.ofNat 64 x.allot else x.trap.read n)

def execRdsContext (c : Ctl) (d : BitVec 6) (src : CtxReg) (ctx : BitVec 4) (s : State) : Host.Outcome State Fault Refusal :=
  issue c (fTo d) s fun s =>
    let x := s.me.ctx ctx.toNat
    if s.k ≠ 0 then .trap cPROT 0
    else if s.leak d then leakTrap d
    else .done (s.landAfter 1 (.g d (if x.run = .parked then x.readReg src else GReg.zero)) 0)

/-- A result that lands in another context of the core. -/
def State.landIn (s : State) (k : Nat) (r : Result) : State :=
  let l : Landing := { due := s.cyc + 1, issued := s.cyc, ctx := k, res := r, flags := 0, sb := none, late := false }
  s.updMe fun c => { c with land := c.land ++ [l] }
/-- The value a WRS writes into a g register, with its tag. -/
def State.giReg (s : State) : GI → GReg
  | .g n => { s.gReg n with endst := 0 }
  | .small v => GReg.data (small64 v)

def execWrsContext (c : Ctl) (dst : CtxReg) (v : GI) (ctx : BitVec 4) (s : State) : Host.Outcome State Fault Refusal :=
  issue c fPlain s fun s =>
    let k := ctx.toNat
    let x := s.me.ctx k
    let r := s.giReg v
    let w : W64 := r.bits.setWidth 64
    if s.k ≠ 0 then .trap cPROT 0
    else if r.isEnd then .trap cCAPTAG 3
    else if x.run ≠ .parked then .done s
    else
      match dst with
      | .g n => if (x.gReg n).isEnd then .trap cENDLEAK (n.setWidth 64) else .done (s.landIn k (.g n r))
      | .m n => .done (s.landIn k (.m n (BitVec.allOnes 32) (w.setWidth 32)))
      | .q n => .done (s.landIn k (.q n (w.getLsbD 0)))
      | .s n =>
        if n.toNat = 0x010 then .done s
        else if n.toNat = 0x004 ∨ n.toNat = 0x006 then .done (s.landIn k (.s n w))
        else .done (s.updCtx s.core k fun x => { x with trap := x.trap.write n.toNat w })

/-! ## ERET (R389, R397, R402, R406, R412, R423) -/

/-- ERET of a context whose word is skipped settles its pending hit (R412). -/
def State.settleHit (s : State) (n k : Nat) (ip : W64) : State :=
  match s.pendOf n k ip with
  | none => s
  | some h => (s.dropPend n k ip).reportHits n h.recs

/-- The records of a gang retry their ring writes (R397). -/
def State.retryRings (s : State) (g : Nat) : State :=
  let stuck := s.records.filter fun p => p.2.stuckGang == some g
  if stuck.isEmpty then s.spillDone g else stuck.foldl (fun t p => t.now (.spillRetry p.1)) s

/-- A DUMP is written, of a stage with all its holders, and DUMPF goes to role 0's C (R423). -/
def State.dumpGang (s : State) (g : Nat) : State :=
  match s.gangAt g with
  | none => s
  | some x =>
    match x.dump with
    | none => s
    | some b =>
      let cores := (s.family g).flatMap s.gangCores
      let node := (x.node.map fun (v : W64) => v.toNat).getD 0
      let r := s.dump x.domain b.1.toNat b.2.toNat 0 node cores false
      match r.1.eventCore g ((Tab.find x.bound 0).getD 0) with
      | none => r.1
      | some n => r.1.gangEvent n cDUMPF (BitVec.ofNat 64 r.2)

/-- What an ERET does beside resuming, by the cause it returns from. -/
def State.eretCause (s : State) (g : Nat) (cause : BitVec 8) (mode : Nat) : State :=
  if cause = cSPILLF then s.retryRings g
  else if cause = cSAVEF then
    match s.gangAt g with
    | some x => (s.updGang g fun x => { x with saveFailed := false }).now (.save g (x.saving == 2))
    | none => s
  else if cause = cDUMPF ∧ mode = 0 then s.dumpGang g
  else s

/-- ERET mode 2 of a gang-level event of a save or a dump ends the whole gang; any other ends the process. -/
def State.eretEnd (s : State) (n : Nat) (cause : BitVec 8) : State :=
  if cause = cSAVEF ∨ cause = cDUMPF then
    ((s.family (s.coreAt n).proc.gang).flatMap s.gangCores).foldl (fun t m => t.faultExit m cause) s
  else s.faultExit n cause

/-- A parked context goes on at `addr`; a pending gang-level event is recorded at once. -/
def State.unpark (s : State) (n k : Nat) (addr : W64) : State :=
  let t := (s.joinPo n 0 k).updCore n fun c =>
    (c.updCtx k fun x => { x with pc := addr, run := .ready, wd := 0, notBefore := max x.notBefore (s.cyc + 1), latch := { x.latch with valid := false } })
  let t := t.updCore n fun c => { c with evs := c.evs &&& ~~~(1#32 <<< k), focusLast := k }
  t.takeEvent n k

/-- Modes 0 and 1. -/
def eretGo (s : State) (c : Ctl) (qd : BitVec 3) (k mode : Nat) : Eff :=
  let n := s.core
  let x := s.me.ctx k
  let l := x.latch
  let no := Eff.done (s.landLate c.set (.q qd false))
  if s.k ≠ 0 then .trap cPROT 0
  else if x.run ≠ .parked then no
  else if l.valid && l.posted then no
  else if mode = 0 && l.valid && (l.sent || l.done) then no
  else if mode = 1 && l.valid && l.sent && !l.done then no
  else
    let r := x.trap
    let addr := if mode = 0 then r.ip else s.nextPc n r.ip
    let t := if mode = 1 then s.settleHit n k r.ip else s
    let t := (t.unpark n k addr).eretCause s.me.proc.gang r.cause mode
    .done (t.landLate c.set (.q qd true))

def execEretRetry (c : Ctl) (qd : BitVec 3) (ctx : BitVec 4) (s : State) : Host.Outcome State Fault Refusal :=
  issue c fLate s fun s => eretGo s c qd ctx.toNat 0
def execEretSkip (c : Ctl) (qd : BitVec 3) (ctx : BitVec 4) (s : State) : Host.Outcome State Fault Refusal :=
  issue c fLate s fun s => eretGo s c qd ctx.toNat 1
def execEretExit (c : Ctl) (qd : BitVec 3) (ctx : BitVec 4) (s : State) : Host.Outcome State Fault Refusal :=
  issue c fLate s fun s =>
    let x := s.me.ctx ctx.toNat
    if s.k ≠ 0 then .trap cPROT 0
    else if x.run ≠ .parked then .done (s.landLate c.set (.q qd false))
    else .gone (s.eretEnd s.core x.trap.cause)

/-! ## SCALL (R359) -/

/-- The checks of R353 and R359 on the entry capability. -/
def State.entryCheck (s : State) (e : BitVec 6) : Option (State × BitVec 8 × W64) :=
  let r := s.gReg e
  if !r.tag then some (s, cCAPTAG, 0)
  else if capKind r.bits ≠ 5 then some (s, cCAPTAG, BitVec.ofNat 64 (capKind r.bits))
  else if r.bits.extractLsb' 110 11 ≠ s.me.dom then some ({ s with fresh := s.fresh + 1 }, cPROT, Config.freeWord s.fresh)
  else if !r.bits.getLsbD 124 then some (s, cCAPPERM, 0)
  else none

def execScall (c : Ctl) (d e b : BitVec 6) (service : GI) (s : State) : Host.Outcome State Fault Refusal :=
  issue c fFarLate s fun s =>
    match s.entryCheck e with
    | some (t, cause, val) => .trapIn t cause val
    | none =>
      let v := s.gi service
      if 31 < v.toNat then .trap cCAPBND v
      else if !(s.gReg e).bits.getLsbD (64 + v.toNat) then .trap cCAPPERM v
      else
        let s := s.walkFor (s.gReg b) 0
        match s.memAddr (s.gReg b) 0 16 16 needW with
        | .bad cause val _ => .trap cause val
        | .ok a _ =>
          if s.leak d then leakTrap d
          else
            let r := (s.gReg b).bits
            s.call c.set (.scall d v.toNat a (capBase r + capLength r - a))

end Sys2Proof.Machine
end

