-- ==== Sys2Proof/Machine/Lodge.lean ====
section
/-! DEFINITION. The Lodge after boot: attestation reports (R378, R379), SCALL services (R359 to R361), ownership (R277, R348,
R349), domains and cores (R344 to R347, R352, R371), pages on a host (R366, R367), format windows (R116 to R119) and counter
overflow (R370). -/

namespace Sys2Proof.Machine

def State.booted (s : State) : Bool := s.lodge.boot == .ready
def State.isOwner (s : State) (host : BitVec 16) : Bool := s.booted && match s.lodge.owner with
  | some o => o.1 == host
  | none => false
/-- The Lodge's answer to a host. -/
def State.answer (s : State) (host : BitVec 16) (ok : Bool) (data : List Byte) : State := s.toHost host none (.lodge host ok data)
def State.updLodge (s : State) (f : Lodge → Lodge) : State := { s with lodge := f s.lodge }
/-- A draw of the Lodge's generator. -/
def State.lodgeDraw (s : State) : BitVec 384 × State := (Config.drbg s.lodge.drbg, s.updLodge fun l => { l with drbg := l.drbg + 1 })
def bytes48 (v : BitVec 384) : List Byte := natLE 48 v.toNat
/-- `n` bytes of a list, zero beyond its end. -/
def padTo (n : Nat) (l : List Byte) : List Byte := (l ++ List.replicate n 0).take n

/-! ## Reports (R378) -/

/-- Bytes 0 to 1,167 of a report. -/
def State.reportBody (s : State) (kind : Nat) (d : BitVec 11) (nonce : List Byte) (images : List (BitVec 384)) : List Byte :=
  let l := s.lodge
  ([0x44, 0x58, 0x41, 0x52] : List Byte) ++ natLE 2 1 ++ natLE 2 kind ++ natLE 2 l.deviceId.toNat ++ natLE 2 d.toNat ++ natLE 4 0 ++ padTo 48 nonce ++
    bytes48 l.identity ++ bytes48 l.chain ++ padTo 192 (l.digests.flatMap bytes48) ++
    padTo 16 (l.versions.flatMap fun v => natLE 4 v.toNat) ++ natLE 2 images.length ++ natLE 14 0 ++ padTo 768 (images.flatMap bytes48) ++
    natLE 2 (match l.owner with
      | some o => o.1.toNat
      | none => 0xFFFF) ++ natLE 14 0
/-- A report: its body and the two signatures over it. -/
def State.report (s : State) (kind : Nat) (d : BitVec 11) (nonce : List Byte) (images : List (BitVec 384)) : List Byte :=
  let b := s.reportBody kind d nonce images
  b ++ padTo 384 (Config.rsaSign s.lodge.seed b) ++ padTo 16224 (Config.slhSign s.lodge.seed b)

/-- A device report (kind 0) is served to any host. -/
def execDeviceReportRequest (host : BitVec 16) (nonce : BitVec 384) (s : State) : Host.Outcome State Fault Refusal :=
  if s.booted then .next (s.answer host true (s.report 0 0 (bytes48 nonce) [])) else .next (s.answer host false [])

/-! ## SCALL at the Lodge (R359, R361) -/

/-- The reply of a service, and the state it leaves; none for a service that does not exist. -/
def State.service (s : State) (n : Nat) (d : BitVec 11) (service a : Nat) : Option (List Byte × State) :=
  match service with
  | 0 =>
    let r := s.vread d a 48
    some (r.2.2.report 1 d r.1 ((r.2.2.domainAt d).digests.take 16), r.2.2)
  | 1 =>
    let r := s.lodgeDraw
    some (bytes48 r.1, r.2)
  | 2 =>
    let c := s.coreAt n
    some ((List.range 8).flatMap fun i => natLE 8 ((Tab.get 0 (s.domainAt d).counters i).toNat + (Tab.get 0 c.hc i).toNat), s)
  | _ => none
def serviceNeed (service : Nat) : Nat :=
  match service with
  | 0 => 17776
  | 1 => 48
  | _ => 64
/-- One call: the result of SCALL. -/
def State.scall (s : State) (n service a avail : Nat) : W64 × State :=
  let d := (s.coreAt n).dom
  let need := serviceNeed service
  if 2 < service then (BitVec.ofNat 64 (2 ^ 63), s)
  else if avail < need then (BitVec.ofNat 64 (2 ^ 63 + need), s)
  else
    match s.service n d service a with
    | none => (BitVec.ofNat 64 (2 ^ 63), s)
    | some r =>
      let w := r.2.vwrite d a r.1
      match w.2.1 with
      | some _ => (BitVec.ofNat 64 (2 ^ 62 + (w.2.2 - a)), w.1)
      | none => (BitVec.ofNat 64 need, w.1)

/-! ## Ownership (R348, R349) -/

/-- A draw that is no nonce issued before (R348); none where no draw of these is new. -/
def State.freshNonce : Nat → State → Option (BitVec 384) × State
  | 0, s => (none, s)
  | fuel + 1, s =>
    let r := s.lodgeDraw
    if s.lodge.issued.contains r.1 then State.freshNonce fuel r.2 else (some r.1, r.2)
def execOwnershipChallenge (host : BitVec 16) (s : State) : Host.Outcome State Fault Refusal :=
  if !s.booted then .next (s.answer host false [])
  else
    let r := State.freshNonce (s.lodge.issued.length + 1) s
    match r.1 with
    | some x => .next ((r.2.updLodge fun l => { l with nonces := x :: l.nonces, issued := x :: l.issued }).answer host true (bytes48 x))
    | none => .next (r.2.answer host false [])

def credential (g : Signed) : BitVec 384 := Config.sha384 (g.rsaKey ++ g.slhKey)
def State.listed (s : State) (c : BitVec 384) : Bool := match s.lodge.blob with
  | some b => b.credentials.contains c
  | none => false
/-- Both signatures over device id, nonce and a host id verify, and the nonce is one the Lodge issued. -/
def State.signedOk (s : State) (nonce : BitVec 384) (id : BitVec 16) (g : Signed) : Bool :=
  let text := natLE 2 s.lodge.deviceId.toNat ++ bytes48 nonce ++ natLE 2 id.toNat
  s.lodge.nonces.contains nonce && Config.rsaOk g.rsaKey text g.rsaSig && Config.slhOk g.slhKey text g.slhSig
def State.dropNonce (s : State) (nonce : BitVec 384) : State := s.updLodge fun l => { l with nonces := l.nonces.filter fun x => x != nonce }

def execOwnershipClaim (host : BitVec 16) (nonce : BitVec 384) (g : Signed) (s : State) : Host.Outcome State Fault Refusal :=
  if s.booted && s.lodge.owner.isNone && s.listed (credential g) && s.signedOk nonce host g then
    .next (((s.dropNonce nonce).updLodge fun l => { l with owner := some (host, credential g) }).kick.answer host true [])
  else .next (s.answer host false [])

/-- The owner's signature, under the credential that made it owner. -/
def State.ownerSigned (s : State) (host : BitVec 16) (nonce : BitVec 384) (id : BitVec 16) (g : Signed) : Bool :=
  s.isOwner host && s.lodge.owner.any (fun o => o.2 == credential g) && s.signedOk nonce id g

/-- The Bandstands of the four dies acknowledge a handover, each at its own time (R278). -/
def State.askAcks (s : State) (old : BitVec 16) : State :=
  let more := (List.range 4).map fun die => (die, s.cyc + 1 + Config.freeDelay (s.fresh + die), old)
  ({ s with fresh := s.fresh + 4 } : State).updLodge fun l => { l with acks := (l.acks.filter fun a => decide (s.cyc < a.2.1)) ++ more }
/-- HANDOVER: it takes effect at each Bandstand as that acknowledges it (R278). -/
def execHandover (host : BitVec 16) (nonce : BitVec 384) (newHost : BitVec 16) (newCred : BitVec 384) (g : Signed) (s : State) :
    Host.Outcome State Fault Refusal :=
  if s.ownerSigned host nonce newHost g && s.listed newCred then
    .next ((((s.askAcks host).dropNonce nonce).updLodge fun l => { l with owner := some (newHost, newCred) }).answer host true [])
  else .next (s.answer host false [])
def execOwnershipRelease (host : BitVec 16) (nonce : BitVec 384) (g : Signed) (s : State) : Host.Outcome State Fault Refusal :=
  if s.ownerSigned host nonce host g then
    .next (((s.dropNonce nonce).updLodge fun l => { l with owner := none, acks := [] }).answer host true [])
  else .next (s.answer host false [])

/-- DEVICE_ID_ASSIGN: before any domain spans devices (R269). -/
def execDeviceIdAssign (source : BitVec 16) (id : BitVec 12) (s : State) : Host.Outcome State Fault Refusal :=
  if s.isOwner source && !(s.domains.any fun p => p.2.live && p.2.record.getLsbD 16) then
    .next ((s.updLodge fun l => { l with deviceId := id }).answer source true [])
  else .next (s.answer source false [])

/-! ## Domains and cores (R345 to R347) -/

/-- A capability of a domain request: tagged, kind 1, within the domain's virtual space. -/
def areaOk (tag : Bool) (b : W128) : Bool := tag && capKind b == 1 && decide (capBase b + capLength b ≤ 2 ^ 48)
def domainField (r : BitVec 1024) (off n : Nat) : Nat := r.toNat / 2 ^ (8 * off) % 2 ^ (8 * n)
def requestOk (r : DomainReq) : Bool :=
  let f := domainField r.record
  decide (f 0 2 < 2048) && decide (f 2 2 < 2) && f 4 4 == 0 && f 8 8 % 512 == 0 && f 74 54 == 0 &&
    areaOk (r.tags.getLsbD 0) (BitVec.ofNat 128 (f 16 16)) && areaOk (r.tags.getLsbD 1) (BitVec.ofNat 128 (f 32 16)) &&
    areaOk (r.tags.getLsbD 2) (BitVec.ofNat 128 (f 48 16))

def execDomainCreate (source : BitVec 16) (r : DomainReq) (s : State) : Host.Outcome State Fault Refusal :=
  let d := BitVec.ofNat 11 (domainField r.record 0 2)
  let old := s.domainAt d
  if s.isOwner source && requestOk r && !old.live then
    let secret := Config.drbg (s.lodge.drbg + 1)
    let t := s.updLodge fun l => { l with drbg := l.drbg + 2 }
    .next ((t.updDomain d fun _ => { Domain.init with live := true, gen := old.gen + 1, record := r.record, secret := secret }).answer source true [])
  else .next (s.answer source false [])

/-- The counters of a core are folded into its domain's block (R371). -/
def State.foldCounters (s : State) (n : Nat) : State :=
  let c := s.coreAt n
  if !c.owner.getLsbD 63 then s
  else s.updDomain c.dom fun d => { d with counters := (List.range 8).foldl (fun t i =>
    Tab.put t i (Tab.get 0 t i + (Tab.get 0 c.hc i).setWidth 64)) d.counters }
/-- The owner register of a core of a domain, or of none. -/
def ownerWord (d : Option (BitVec 11)) : W64 :=
  match d with
  | some d => (1#64 <<< 63) ||| d.setWidth 64
  | none => 0
/-- A dirty byte is discarded: memory has it, and the keys of its line, as before the write. -/
def Memory.undo (l : Late) (m : Memory) : Memory :=
  { bytes := Tab.set 0 m.bytes l.pa l.old, tags := Tab.set false m.tags (l.pa / 16) l.oldTag, seals := Tab.set 0 m.seals l.pa l.oldSeal,
    lines := Tab.set 0 m.lines (l.pa / 64) l.oldLine,
    lost := (List.range 64).foldl (fun t i =>
      let a := l.pa / 64 * 64 + i
      Tab.set false t a (l.oldLost.contains a)) m.lost }
/-- A core passes to another domain (R346): dirty lines written back, or discarded where the old domain is destroyed, its state and
its arbor's slots cleared, its counters folded, its owner register written, and the entry capability put into S's g1 (R352). -/
def State.assignCore (s : State) (n : Nat) (d : Option (BitVec 11)) (destroyed : Bool) : State :=
  let t := s.foldCounters n
  let t : State := { t with mem := if destroyed then (t.late.filter fun l => l.core == n).foldr Memory.undo t.mem else t.mem
                            late := t.late.filter fun l => l.core != n }
  let t := t.updArbor (arborOf n) fun a => { a with slots := [] }
  let ctxs : Tab Ctx := match d with
    | some d => [(0, { Ctx.init with g := [(1, entryCap d)] })]
    | none => []
  (t.setCore n { Core.init with owner := ownerWord d, ctxs := ctxs }).kick

def execCoreAssign (source : BitVec 16) (core : BitVec 12) (domain : Option (BitVec 11)) (s : State) : Host.Outcome State Fault Refusal :=
  let n := core.toNat
  let known := match domain with
    | some d => (s.domainAt d).live
    | none => true
  if !s.isOwner source || !known then .next (s.answer source false [])
  else if (s.coreAt n).bound then .next (s.later (.coreAssign source core domain))
  else .next ((s.assignCore n domain false).answer source true [])

/-- Everything of a domain's gangs is discarded, with what is on its way for their ends, which close without closure events (R347). -/
def State.dropDomain (s : State) (d : BitVec 11) : State :=
  let cores := (s.domainCores d)
  let here := fun (k : Nat) => match s.recAt k with
    | some r => r.domain == d
    | none => false
  let mine := fun (m : Msg) => (m.device == s.lodge.deviceId && here m.record) || match m.ack with
    | some a => cores.contains a.core
    | none => false
  let about := fun (i : Instr) => match i with
    | .recordMessageArrival m => mine m
    | .inboxMessageArrival n m => mine m || cores.contains n
    | .ringSlotOffer k => here (k % farOffer)
    | .closureMarkerArrival k _ | .spillRetry k => here k
    -- a location from 4,096 on is a peer device, and the record is one of this device's
    | .leaveNotice k _ _ _ n m => cores.contains n || ((farLoc n).isSome && here k) || m.any mine
    | .arrivalNotice k _ at_ _ => cores.contains at_.core || ((farLoc at_.core).isSome && here k)
    | _ => false
  { s with
    records := s.records.filter fun p => p.2.domain != d
    calendar := s.calendar.filter fun p => !about p.2
    due := s.due.filter fun i => !about i
    syncs := s.syncs.filter fun w => !cores.contains w.core
    replies := s.replies.filter fun r => !cores.contains r.core
    results := s.results.filter fun r => r.domain != d
    hits := s.hits.filter fun h => h.domain != d
    jobs := s.jobs.filter fun p => p.2.domain != d
    arbors := s.arbors.map fun p => if cores.any fun n => arborOf n == p.1 then (p.1, { Arbor.init with wideLast := p.2.wideLast }) else p
    gangs := s.gangs.filter fun p => p.2.domain != d
    graphs := s.graphs.filter fun g => g.domain != d
    ready := s.ready.filter fun r => r.domain != d
    retries := s.retries.filter fun r => r.domain != d
    keptExits := s.keptExits.filter fun k => k.1 != d
    stages := s.stages.filter fun p => p.2.domain != d
    monitors := s.monitors.map fun p => if p.2.desc.extractLsb' 16 11 = d then (p.1, Monitor.init) else p
    saved := s.saved.filter fun x => !x.gangs.any fun g => g.2.domain == d
    links := s.links.filter fun l => l.domain != some d
    txs := s.txs.filter fun x => x.domain != some d
    exposed := s.exposed.filter fun x => x.domain != d
    hostHeld := s.hostHeld.filter fun h => h.2 != d
    peerWaiting := s.peerWaiting.filter fun r => r.domain != d
    lodge := { s.lodge with pages := s.lodge.pages.filter fun p => p.1 / 2 ^ 36 != d.toNat
                            away := s.lodge.away.filter fun p => p.page / 2 ^ 36 != d.toNat
                            evicting := s.lodge.evicting.filter fun p => p / 2 ^ 36 != d.toNat } }

def execDomainDestroy (source : BitVec 16) (domain : BitVec 11) (s : State) : Host.Outcome State Fault Refusal :=
  let d := domain
  if !s.isOwner source || !(s.domainAt d).live then .next (s.answer source false [])
  else
    let t := (s.gangs.filter fun p => p.2.domain == d).foldl (fun t p => t.haltGang p.1) s
    let cores := t.domainCores d
    let t := t.dropDomain d
    let t := cores.foldl (fun t n => t.assignCore n none true) t
    .next ((t.updDomain d fun x => { Domain.init with gen := x.gen }).answer source true [])

/-! ## Pages on a host (R366, R367) -/

/-- The place of the level-3 entry of a page, when the walk reaches one (R362): `n` tables lie below. -/
def State.tableWalk (s : State) (key va : Nat) (top : W64) (table n : Nat) : Option Place :=
  match n with
  | 0 => s.place top (table + 8 * levelIndex va 0) 8
  | m + 1 =>
    match s.entry key .read va 1 top table (m + 1) with
    | .next e frame => s.tableWalk key va e frame m
    | .bad _ | .page _ => none
def State.pageEntry (s : State) (d : BitVec 11) (va : Nat) : Option Place :=
  if 2 ^ 48 ≤ va then none else s.tableWalk (s.keyOf d) va 0 (domainField (s.domainAt d).record 8 8) 2
/-- What the Lodge finds at the page the owner names: the state after its walk (R271, R274), the entry's place and value. -/
def State.ownerPage (s : State) (source : BitVec 16) (d : BitVec 11) (va : Nat) : Option (State × Place × W64) :=
  if s.isOwner source && (s.domainAt d).live && va % 65536 == 0 then
    let t := s.walkReady d va
    (t.pageEntry d va).map fun p => (t, p, t.entryAt (t.keyOf d) p)
  else none
/-- A level-3 leaf whose frame lies in this device's HBM, with its reserved bits zero (R7, R362). -/
def leafHere (e : W64) : Bool := e.getLsbD 1 && bits e 6 5 == 0 && bits e 15 9 == 0 && bits e 63 52 == 0
/-- An entry with V, away and frame replaced. -/
def pte (e : W64) (v : Bool) (away frame : Nat) : W64 :=
  (e &&& ~~~(BitVec.ofNat 64 (0x181 + 0xFFFFFFFFF * 2 ^ 16))) ||| BitVec.ofNat 64 ((if v then 1 else 0) + away * 2 ^ 7 + frame % 2 ^ 36 * 2 ^ 16)
def State.putEntry (s : State) (d : BitVec 11) (p : Place) (e : W64) : State := s.writePlace (s.keyOf d) p 8 e.toNat false none
/-- An access that was translated to a page has not performed yet. -/
def State.pageBusy (s : State) (pa : Nat) : Bool :=
  let on := fun (p : Place) (n : Nat) => match p with
    | .hbm a => overlaps a n pa 65536
    | .peer .. | .host .. => false
  (s.cores.any fun c => (c.2.storeq ++ c.2.flight).any fun o => on o.place o.size) || s.syncs.any fun w => on w.place (waitSize w)
def pageKey (d : BitVec 11) (va : Nat) : Nat := d.toNat * 2 ^ 36 + va / 65536

/-- Lines of a range that hosts hold come back, and no core keeps a write of it back (R196, R274). -/
def State.recallRange (s : State) (a n : Nat) : State :=
  let inside := fun (line : Nat) => overlaps (64 * line) 64 a n
  let t := (s.hostHeld.filter fun h => inside h.1).foldl (fun t h => t.recall h.1) s
  { t with late := t.late.filter fun l => !inside (l.pa / 64) }
def execPageEvict (source : BitVec 16) (domain : BitVec 11) (va : BitVec 48) (host : BitVec 12) (s : State) :
    Host.Outcome State Fault Refusal :=
  let d := domain
  let k := pageKey d va.toNat
  match s.ownerPage source d va.toNat with
  | none => .next (s.answer source false [])
  | some (w, p, e) =>
    let frame := bits e 51 16
    let going := s.lodge.evicting.contains k
    -- a page that meets a scale region outside its window is refused (R118)
    if !s.hbmOk (65536 * frame) 65536 || (!going && !(e.getLsbD 0 && bits e 8 7 == 0 && leafHere e)) then .next (s.answer source false [])
    else
      let t := if going then s else (w.putEntry d p (pte e false 1 frame)).updLodge fun l => { l with evicting := k :: l.evicting }
      if t.pageBusy (65536 * frame) then .next (t.later (.pageEvict source domain va host))
      else
        let t := t.recallRange (65536 * frame) 65536
        let key := t.keyOf d
        let plain := (List.range 65536).map fun i => t.mem.byteAs key (65536 * frame + i)
        let data := Config.sealPage key (65536 * frame) plain
        let v := Tab.get 0 t.lodge.pages k + 1
        let mac := Config.pageMac (t.domainAt d).secret d (va.setWidth 64) v data
        let t := t.updLodge fun l => { l with pages := Tab.put l.pages k v, evicting := l.evicting.filter fun x => x != k
                                              away := { page := k, plain := plain, data := data } :: l.away.filter fun x => x.page != k }
        .next ((t.toHost (host.setWidth 16) none (.page host d va.toNat v data mac)).answer source true [])

/-- The gangs of a domain stop for a failed page. One that is stopped already stays so whatever stopped it. -/
def State.stopIntegrity (s : State) (d : BitVec 11) (page : Nat) : State :=
  let l := s.gangs.filter fun p => p.2.domain == d && !p.2.stopped
  (l.foldl (fun t p => (t.haltGang p.1).updGang p.1 fun g => { g with eventStop := 3 }) s).updDomain d fun x =>
    { x with failedPages := addTo x.failedPages page }
/-- The page that failed has come back: the gangs go on once none is missing. -/
def State.resumeIntegrity (s : State) (d : BitVec 11) (page : Nat) : State :=
  if !(s.domainAt d).failedPages.contains page then s
  else
    let t := s.updDomain d fun x => { x with failedPages := x.failedPages.filter fun q => q != page }
    if (t.domainAt d).integrityStop then t
    else ((t.gangs.filter fun p => p.2.domain == d && p.2.eventStop == 3).foldl (fun t p => t.releaseGang p.1) t).kick

/-- The plaintext of a page that has verified: what was sent, where the ciphertext is what was sent (R366, R367). -/
def State.pagePlain (s : State) (k key pa : Nat) (data : List Byte) : List Byte :=
  match s.lodge.away.find? fun x => x.page == k && x.data == data with
  | some x => x.plain
  | none => padTo 65536 (Config.unsealPage key pa data)

/-- The page goes back to the frame that its entry names. The message gives its virtual address as page number and offset. -/
def execPageReturn (source : BitVec 16) (domain : BitVec 11) (page : BitVec 32) (offset : BitVec 16) (version : BitVec 64)
    (data : List Byte) (mac : BitVec 384) (s : State) : Host.Outcome State Fault Refusal :=
  let d := domain
  let va : BitVec 48 := page ++ offset
  let k := pageKey d va.toNat
  match s.ownerPage source d va.toNat with
  | none => .next (s.answer source false [])
  | some (w, p, e) =>
    let frame := bits e 51 16
    let pa := 65536 * frame
    if e.getLsbD 0 || bits e 8 7 == 0 || !leafHere e || !s.hbmOk pa 65536 then .next (s.answer source false [])
    else
      let t := w.putEntry d p (pte e false 2 frame)
      let good := mac == Config.pageMac (t.domainAt d).secret d (va.setWidth 64) version data &&
        version == Tab.get 0 t.lodge.pages k && decide (data.length = 65536)
      if good then
        let t := t.recallRange pa 65536
        let key := t.keyOf d
        let t := ((t.pagePlain k key pa data).zip (List.range 65536)).foldl (fun t b => t.writePlace key (.hbm (pa + b.2)) 1 b.1.toNat false none) t
        let t := t.updLodge fun l => { l with away := l.away.filter fun x => x.page != k }
        .next (((t.putEntry d p (pte e true 0 frame)).resumeIntegrity d k).answer source true [])
      else
        let t := (t.putEntry d p (pte e false 3 frame)).stopIntegrity d k
        .next ((t.toHost source none (.integrity source d va.toNat)).answer source false [])

/-! ## Format windows (R116 to R119) -/

/-- The RO fields of a descriptor read as zero. -/
def winMask (w : BitVec 256) : BitVec 256 :=
  w &&& ~~~(BitVec.ofNat 256 (2 ^ 251 + (2 ^ 48 - 1) * 2 ^ 192 + (2 ^ 28 - 1) * 2 ^ 100))
/-- The two ranges of a window: block layout, and the scale region where it lies apart. -/
def winRanges (w : BitVec 256) : List (Nat × Nat) :=
  (winBase w, winBlocks w * winBlock w) :: if winTop w then [] else [(winScale w, 2 * winBlocks w)]
/-- The conditions for enabling a descriptor at a controller. -/
def State.windowOk (s : State) (mc j : Nat) (w : BitVec 256) : Bool :=
  let lo := mc * Config.stackBytes
  let inside := (winRanges w).all fun r => decide (lo ≤ r.1) && decide (r.1 + r.2 ≤ lo + Config.stackBytes)
  let others : List (BitVec 256) := s.mcs.flatMap fun m =>
    (m.2.windows.filter fun p => !(m.1 == mc && p.1 == j)).map fun p => p.2
  winBlock w != 0 && winBlocks w != 0 && winBase w % 65536 == 0 && winScale w % 64 == 0 && inside &&
    (winTop w || !overlaps (winBase w) (winBlocks w * winBlock w) (winScale w) (2 * winBlocks w)) &&
    ((others.filter winOn).all fun o => (winRanges w).all fun a => (winRanges o).all fun b => !overlaps a.1 a.2 b.1 b.2)

/-- Bytes of a range as its domain reads them, and their rewriting under the same key. -/
def Memory.bytesAs (m : Memory) (key a n : Nat) : List Byte := (List.range n).map fun i => m.byteAs key (a + i)
def Memory.putBytes (m : Memory) (key a : Nat) (l : List Byte) : Memory :=
  (l.zip (List.range l.length)).foldl (fun m b => m.putByte key (a + b.2) b.1) m
/-- Bytes that hold nothing any more: what they read as is free (notes/assumptions/46.md). -/
def Memory.forget (m : Memory) (a n : Nat) : Memory :=
  let out := fun (x : Nat) => !(decide (a ≤ x) && decide (x < a + n))
  { bytes := m.bytes.filter fun b => out b.1, tags := m.tags.filter fun b => !overlaps (16 * b.1) 16 a n,
    seals := m.seals.filter fun b => out b.1, lines := m.lines, lost := m.lost.filter fun b => out b.1 }
/-- The bytes of a window's blocks leave block layout for the layout at rest, or return to it. Where the scale region lies
elsewhere, the top of the range holds nothing at rest (R117): its bytes are free values (log 46). -/
def Memory.toRest (m : Memory) (key : Nat) (w : BitVec 256) : Memory :=
  let n := winBlock w
  let blocks := (List.range (winBlocks w)).map fun b => m.bytesAs key (winBase w + b * n) n
  let m := m.putBytes key (winBase w) (blocks.flatMap fun b => b.drop 2)
  let m := if winTop w then m else m.forget (winBase w + winBlocks w * (n - 2)) (2 * winBlocks w)
  m.putBytes key (winScale w) (blocks.flatMap fun b => b.take 2)
def Memory.fromRest (m : Memory) (key : Nat) (w : BitVec 256) : Memory :=
  let n := winBlock w
  let blocks := (List.range (winBlocks w)).map fun b =>
    m.bytesAs key (winScale w + 2 * b) 2 ++ m.bytesAs key (winBase w + b * (n - 2)) (n - 2)
  m.putBytes key (winBase w) blocks.flatten

/-- Descriptor `j` of a controller is written: the lines of what it covers are written back (R119), and its layout changes. -/
def State.setWindow (s : State) (mc j : Nat) (w : BitVec 256) : State :=
  let c := Tab.get Mc.init s.mcs mc
  let old := Tab.get 0 c.windows j
  let s := ([old, w].filter winOn).foldl (fun t x => (winRanges x).foldl (fun t r => t.recallRange r.1 r.2) t) s
  let m := if winOn old then s.mem.toRest (s.keyOf (winDomain old)) old else s.mem
  let m := if winOn w then m.fromRest (s.keyOf (winDomain w)) w else m
  { s with mem := m, mcs := Tab.put s.mcs mc { c with windows := Tab.put c.windows j w } }
/-- The Lodge may write a descriptor: no gang of its domain runs, and what it enables meets the conditions (R116, R119). -/
def State.windowMay (s : State) (mc j : Nat) (w : BitVec 256) : Bool :=
  let old := Tab.get 0 (Tab.get Mc.init s.mcs mc).windows j
  let running := fun (d : BitVec 11) => s.gangs.any fun p => p.2.domain == d
  !((winOn w && running (winDomain w)) || (winOn old && running (winDomain old)) || (winOn w && !s.windowOk mc j w))

def execFormatWindowChange (source : BitVec 16) (mc window : BitVec 4) (desc : BitVec 256) (s : State) : Host.Outcome State Fault Refusal :=
  let w := winMask desc
  if 12 ≤ mc.toNat then .fault .noSuchUnit
  else if !s.isOwner source || !s.windowMay mc.toNat window.toNat w then .next (s.answer source false [])
  else .next ((s.setWindow mc.toNat window.toNat w).answer source true [])

/-! ## HARDWARE_COUNTER_WRAP (R370) -/

def execHardwareCounterWrap (core : Nat) (n : BitVec 3) (s : State) : Host.Outcome State Fault Refusal :=
  onCore core s fun s =>
    let d := (s.coreAt core).dom
    let host := domainField (s.domainAt d).record 72 2
    if host = 0xFFFF then s else s.toHost (BitVec.ofNat 16 host) (some d) (.overflow (BitVec.ofNat 16 host) d n)

end Sys2Proof.Machine
end

