-- ==== Sys2Proof/Machine/Call.lean ====
section
/-! DEFINITION. OFF_CORE_REFERENCE_RESULT (R25, R192): the agent performs an off-core reference after its context's earlier
posted writes, and the result arrives at the context. -/

namespace Sys2Proof.Machine

/-- What a call does at its agent, and the results it sends back (R315 to R318, R359). -/
def State.perform (s : State) (core : Nat) (c : Call) : List Result × State :=
  let d := (s.coreAt core).dom
  match c with
  | .gpost r node count =>
    let q := s.postTokens d node count
    ([.g r (GReg.data (BitVec.ofNat 64 q.1))], q.2)
  | .glaunch r records count status =>
    let q := s.arm d records count status
    ([.g r q.1], q.2)
  | .gcancel qd node =>
    let q := s.graphCancel d node
    ([.q qd q.1], q.2)
  | .gstat r sl node =>
    let t := s.graphReady d node
    ([.g r (GReg.data (t.graphStat d sl node))], t)
  | .scall r service addr avail =>
    let q := s.scall core service addr avail
    ([.g r (GReg.data q.1)], q.2)

/-- The result is in the context; it goes on if it waits for it. -/
def State.landReply (s : State) (core ctx : Nat) (r : Reply) : State :=
  let t := { s with replies := s.replies.filter fun x => x.id != r.id }
  let t := (t.landNow core ctx r.res 0 (some r.set)).recordHits core ctx r.hits r.va r.ip
  if (t.ctxAt core ctx).run = .waiting (.result r.id) then t.resume core ctx else t

/-- The oldest reply of a context: performed, or arrived. -/
def State.replyStep (s : State) (core ctx : Nat) : State :=
  match s.replies.find? fun r => r.core == core && r.ctx == ctx && r.arrive.isNone with
  | none => s
  | some r =>
    match r.call with
    | some c =>
      let waits := match c with
        | .gpost .. => (s.coreAt core).postedAny r.after
        | .glaunch .. | .gcancel .. | .gstat .. | .scall .. => (s.coreAt core).postedBefore r.after
      if waits then s.later (.offCoreReferenceResult core ctx)
      else
        let s := match c with
          | .gpost _ node _ => s.flow (.ctx core ctx) (.node (s.coreAt core).dom node)
          | .glaunch .. | .gcancel .. | .gstat .. | .scall .. => s
        let q := s.perform core c
        let done := fun (x : Reply) => if x.id = r.id then { x with res := q.1, call := none } else x
        ({ q.2 with replies := q.2.replies.map done } : State).later (.offCoreReferenceResult core ctx)
    | none => s.landReply core ctx r

def execOffCoreReferenceResult (core ctx : Nat) (s : State) : Host.Outcome State Fault Refusal :=
  onCore core s fun s => s.replyStep core ctx

end Sys2Proof.Machine
end

