-- ==== Sys2Proof/Machine/Save.lean ====
section
/-! DEFINITION. SAVE and RESTORE (R180, R251, R291, R334, R398 to R403): stopping and draining a gang, its records in the save
area, SAVEF, and the return of a complete save. -/

namespace Sys2Proof.Machine

def recordSize : Nat := 0xD0000
def areaHead : Nat := 4096

/-! ## Stopping and draining (R180, R398) -/

/-- One record of a save: the gang, the role in it, and the core, none for a role that has exited. -/
structure Role where
  gang : Nat
  role : Nat
  core : Option Nat
deriving DecidableEq, Repr
/-- The roles of a node's gangs, in record order. -/
def State.saveRoles (s : State) (fam : List Nat) : List Role :=
  fam.flatMap fun g => match s.gangAt g with
    | none => []
    | some x => (List.range x.h.roles).map fun r =>
      { gang := g, role := r, core := if x.exited.contains r then none else Tab.find x.bound r }

/-- A load that has not returned is abandoned; so is an atomic that has performed, whose latch says so. -/
def MemOp.mayDrop (o : MemOp) : Bool :=
  match o.kind with
  | .load .. => true
  | .store | .amo .. | .cas _ | .red .. | .fset | .fclr => o.performed && o.rearm.isNone && o.ctx != 0
/-- A reply that a save waits for: one whose reference has been performed. -/
def Reply.awaited (r : Reply) : Bool := !r.unperformed || r.ctx == 0
/-- A message of the core waits for a leave notice (R248). -/
def leavesFrom (n : Nat) : Instr → Bool
  | .leaveNotice _ _ _ _ core _ => core == n
  | _ => false
/-- Everything of a process that is to finish before it is saved has finished. -/
def State.saveDrained (s : State) (n : Nat) : Bool :=
  let c := s.coreAt n
  c.proc.started && c.proc.faultExit.isNone && !c.proc.forced && c.upcall.isNone &&
    c.storeq.isEmpty && c.wq.isEmpty && (c.land.all fun l => l.ctx == 0) && c.mloads.isEmpty && (c.mstores.all fun m => decide (m.2.2 ≤ s.cyc)) &&
    (c.xsend.all fun x => decide (x.readUntil ≤ s.cyc)) && c.xpend.isEmpty && !s.flyingAt n && !s.jobsOut n false &&
    (c.flight.all MemOp.mayDrop) && !(s.replies.any fun r => r.core == n && r.awaited) &&
    !(s.calendar.any fun p => leavesFrom n p.2) && !(s.due.any (leavesFrom n))

/-- The stop of one process: a forced save is a halt-tree stop (R420). -/
def State.saveStop (s : State) (forced : Bool) (n : Nat) : State :=
  if forced then s.haltCore n else s.updProc n fun p => { p with halted := p.halted.or (some s.cyc) }

/-- References that have not performed are abandoned, those of S too: their words issue again. What is landing lands. A deferred
report waits: no context that a save has stopped takes a trap (R387, R398). -/
def State.abandon (s : State) (n : Nat) : State :=
  (s.abandonRefs n fun _ => true).updCore n fun c => c.landDue (c.land.foldl (fun m l => max m l.due) 0)

/-- The core as its records show it: the counts of atomics under way and of words that wait are withdrawn. -/
def State.imageCore (s : State) (n : Nat) : Core :=
  let c := s.coreAt n
  let counts := fun (k : Nat) => (c.flight.filter fun o => o.ctx == k).map (fun o => o.set) ++
    (s.syncs.filter fun w => w.core == n && w.ctx == k).map (fun w => w.set) ++
    match (c.ctx k).run with
    | .waiting w => w.counted.toList
    | .dead | .ready | .parked | .stopped => []
  (List.range 12).foldl (fun c k => (counts k).foldl (fun c j => c.updCtx k fun x => x.sbDown j) c) c

/-! ## Records (R400, R401) -/

def msgOf (b : List Byte) (ack : Option AckTo) : Msg :=
  let flags := cardField b 7 1
  { device := BitVec.ofNat 12 (cardField b 4 2), record := cardField b 0 4 % 2 ^ 22, len := BitVec.ofNat 7 (cardField b 6 1),
    closure := flags.testBit 1, forwarded := flags.testBit 2, holder := BitVec.ofNat 3 (flags / 8), seq := BitVec.ofNat 32 (cardField b 8 4),
    key := BitVec.ofNat 32 (cardField b 12 4), payload := BitVec.ofNat 512 (cardField b 32 64),
    carried := if flags.testBit 0 then some (BitVec.ofNat 128 (cardField b 16 16)) else none, ack := ack }

/-- The saved register holds an end with its new generation (R251). -/
def leaving (r : GReg) : GReg := if r.isEnd then { r with bits := nextGen r.bits } else r

/-- The arbor of the quad whose position 0 a role has, while a process of that quad lives (R180). -/
def Gang.quadArbor (x : Gang) (role : Nat) : Option Nat :=
  if role < 4 * x.h.quads ∧ role % 4 = 0 then (x.live.find? fun p => p.1 / 4 == role / 4).map fun p => arborOf p.2 else none
/-- The first 256 bytes of a record. -/
def State.recordHead (s : State) (x : Gang) (r : Role) (c : Core) : List Byte :=
  let quad := decide (r.role < 4 * x.h.quads)
  let flags := (if quad then 1 + r.role % 4 * 2 else 0) + if c.proc.exchange then 8 else 0
  let claims := match x.quadArbor r.role with
    | some a => (List.range 32).foldl (fun m i => m + if (Tab.get Slot.init (s.arborAt a).slots i).claimed then 2 ^ i else 0) 0
    | none => 0
  let p := c.proc
  natLE 2 r.role ++ [BitVec.ofNat 8 flags, BitVec.ofNat 8 c.sendq.length] ++ natLE 4 p.lcn.toNat ++ natLE 8 p.superstep.toNat ++ p.stopRecord ++
    natLE 8 p.srctr.toNat ++ natLE 8 p.bflags.toNat ++ natLE 16 p.imb.toNat ++ ((List.range 4).flatMap fun i => natLE 4 (Tab.get 0 p.cw i).toNat) ++
    ((List.range 3).flatMap fun i => natLE 8 (Tab.get 0 p.js i).toNat) ++ ((List.range 3).flatMap fun i => natLE 8 (Tab.get 0 p.issued i).toNat) ++
    ((List.range 4).map fun a => BitVec.ofNat 8 (c.tile (BitVec.ofNat 2 a)).shape) ++ natLE 4 claims ++ natLE 112 0

/-- The pieces of record `i`: offset in the area, and bytes. Slots that are not claimed are skipped. -/
def State.recordPieces (s : State) (x : Gang) (i : Nat) (r : Role) : List (Nat × List Byte) :=
  let c := match r.core with
    | some n => s.imageCore n
    | none => { Core.init with proc := { Proc.init with lcn := x.h.lcnBase + BitVec.ofNat 32 r.role } }
  let base := areaHead + i * recordSize
  let queue := (c.sendq.take 8).flatMap fun m => msgImage { m with forwarded := false }
  let slots : List (Nat × List Byte) := match x.quadArbor r.role with
    | some a =>
      (List.range 32).filterMap fun i =>
        let k := Tab.get Slot.init (s.arborAt a).slots i
        if k.claimed then some (base + 0x50000 + 16384 * i, Tab.readBytes k.data 0 16384) else none
    | none => []
  [(base, s.recordHead x r c), (base + 0x100, queue ++ natLE (1024 - queue.length) 0 ++ natLE 2816 0),
   (base + 0x1000, (List.range 12).flatMap fun k => (c.ctx k).block ((c.ctx k).code k false) leaving),
   (base + 0x7000, c.wBytes), (base + 0x9000, c.tileBytes ++ natLE 12288 0), (base + 0x10000, Tab.readBytes c.ls 0 Config.lsSize)] ++ slots

def saveHeader (state kind reached node roles quads raised stop : Nat) : List Byte :=
  [0x44, 0x58, 0x53, 0x56] ++ natLE 2 1 ++ [BitVec.ofNat 8 state, BitVec.ofNat 8 kind] ++ natLE 8 reached ++ natLE 8 node ++ natLE 2 roles ++
    natLE 2 quads ++ natLE 4 recordSize ++ natLE 8 raised ++ natLE 8 stop ++ natLE 16 0 ++ natLE (areaHead - 64) 0

/-! ## Writing the area (R399, R402) -/

/-- The save area of a launch header: base and length; none when it names no kind-1 capability with W. -/
def State.saveArea (s : State) (x : Gang) : Option (Nat × Nat) :=
  if x.h.capCount ≤ x.h.saveCap then none
  else
    let v : W128 := BitVec.ofNat 128 (leNat (s.vread x.domain (x.h.caps.toNat + 32 * x.h.saveCap) 16).1)
    if capKind v == 1 && capW v then some (capBase v, capLength v) else none

/-- Write pieces while they fit and do not fault: the offset reached, and whether all are written. -/
def State.saveWrite (s : State) (d : BitVec 11) (base len need : Nat) : List (Nat × List Byte) → State × Nat × Bool
  | [] => (s, min len need, decide (need ≤ len))
  | p :: r =>
    let w := s.vwrite d (base + p.1) (p.2.take (len - p.1))
    match w.2.1 with
    | some _ => (w.1, w.2.2 - base, false)
    | none => if len < p.1 + p.2.length then (w.1, len, false) else w.1.saveWrite d base len need r

/-- The save is not written: its header says so, the gang stays stopped, and SAVEF goes to role 0's C. -/
def State.saveFault (s : State) (g : Nat) (x : Gang) (fam : List Nat) (area : Option (Nat × Nat)) (head : Nat → List Byte) (reached : Nat) : State :=
  let t := match area with
    | some a => (s.vwrite x.domain a.1 ((head reached).take a.2)).1
    | none => s
  let t := fam.foldl (fun t h => t.updGang h fun y => { y with saveFailed := true }) t
  match t.eventCore g ((Tab.find x.bound 0).getD 0) with
  | some n => t.gangEvent n cSAVEF (BitVec.ofNat 64 reached)
  | none => t

/-! ## Leaving the cores (R251, R398) -/

/-- An end leaves with its process (R251). A twin's end leaves in the same way: its record keeps its counter with those that are
away. -/
def State.saveEnd (s : State) (n : Nat) (e : GReg) : State :=
  let h := match s.endRecord e.bits with
    | some r => if endRecv e.bits then r.holderAt n else 0
    | none => 0
  if h = 0 then s.leave n e.bits (endGen e.bits + 1) e.endst
  else
    (s.returnInbox n e.bits).updRec (endRec e.bits) fun r =>
      { r with rlocs := Tab.erase r.rlocs h, twinsAway := r.twinsAway ++ [(h, e.endst)] }

/-- The copies of a queued message that are under way or early in a ring are taken back: it is saved whole (R242). -/
def State.takeBack (s : State) (n : Nat) (m : Msg) : State :=
  let same := fun (x : Msg) => x.device == m.device && x.record == m.record && x.seq == m.seq &&
    (!x.forwarded || m.device != s.lodge.deviceId) && (x.ack.map fun a => a.core) == some n
  let under := fun (i : Instr) => match i with
    | .recordMessageArrival x => same x
    | _ => false
  let t := { s with calendar := s.calendar.filter fun p => !under p.2, due := s.due.filter fun i => !under i }
  if m.device = s.lodge.deviceId then
    -- the writes that waited behind a faulted one which is taken back are made
    (t.updRec m.record fun r =>
      ({ r with stuck := r.stuck.filter fun e => e.1 || !same e.2 } : ChanRec).keepRing (r.ring.filter fun e => e.stamped || !same e.msg)).now
        (.spillRetry m.record)
  else t

/-- Every `.home` write of a core that is being freed reaches its engine point (R196). -/
def State.engineCore (s : State) (n : Nat) : State := (List.range 24).foldl (fun t k => t.engineCtx n k) s
def State.saveLeave (s : State) (n : Nat) : State :=
  let c := s.coreAt n
  let ends := c.liveEnds.map fun e => e.2.2
  let t := c.sendq.foldl (fun t m => t.takeBack n m) (s.engineCore n)
  let t := ends.foldl (fun t e => t.saveEnd n e) t
  (t.sendBack n).vacate n

/-- What stays behind of a saved node. -/
def State.saveRest (s : State) (fam : List Nat) (roles : List Role) : Saved :=
  let on := (List.range roles.length).zip roles
  let cores := on.filterMap fun p => p.2.core.map fun n => (p.1, n)
  { gangs := fam.filterMap fun g => (s.gangAt g).map fun x => (g, x)
    arrivals := cores.filterMap fun p =>
      let q := (s.coreAt p.2).proc
      q.arrived.map fun a => (p.1, a.1, a.2, q.contrib)
    acks := cores.flatMap fun p => (s.coreAt p.2).sendq.filterMap fun m => m.ack.map fun a => (p.1, { a with after := [] }, m.forwarded)
    queued := cores.flatMap fun p => (s.coreAt p.2).sendq.map fun m => (m.device, m.record)
    places := cores.flatMap fun p => (List.range 12).filterMap fun k => ((s.ctxAt p.2 k).latch.place).map fun x => (p.1, k, x, (s.ctxAt p.2 k).latch.va)
    events := cores.map fun p => (p.1, (s.ctxAt p.2 1).gangEvents.drop 1)
    started := (cores.filter fun p => (s.coreAt p.2).proc.trigStarted).map fun p => p.1
    deferred := cores.flatMap fun p => (List.range 12).filterMap fun k => ((s.ctxAt p.2 k).deferred).map fun e => (p.1, k, e.1, e.2)
    ends := cores.flatMap fun p => ((s.coreAt p.2).liveEnds.map fun e => nextGen e.2.2.bits) ++
      (s.coreAt p.2).sendq.filterMap fun m => m.carried
    stage := fam.head?.bind fun g => s.stageAt g }

/-- The area is written: the ends leave, the cores are free, and the node has no process. -/
def State.saveDone (s : State) (fam : List Nat) (roles : List Role) : State :=
  let x := s.saveRest fam roles
  let t := { s with saved := x :: s.saved }
  let t := (roles.filterMap fun r => r.core).foldl State.saveLeave t
  let t := fam.foldl (fun t g => (({ t with gangs := Tab.erase t.gangs g } : State).orphanRings g).dropStage g) t
  t.checkRetries

def State.saveWriteAll (s : State) (g : Nat) (x : Gang) (fam : List Nat) (roles : List Role) : State :=
  let cores := roles.filterMap fun r => r.core
  let t := cores.foldl State.abandon s
  let area := t.saveArea x
  let a := area.getD (0, 0)
  let need := areaHead + roles.length * recordSize
  let node := (x.node.map fun (v : W64) => v.toNat).getD 0
  let stops := cores.filterMap fun n => (t.coreAt n).proc.halted
  let raised := cores.head?.elim 0 fun n => (t.coreAt n).proc.prq.toNat % 2 ^ 48
  let head := fun (state reached : Nat) => saveHeader state (if x.saving = 2 then 1 else 2) reached node roles.length x.h.quads raised
    (stops.foldl min (stops.head?.getD 0) % 2 ^ 64)
  let pieces := ((List.range roles.length).zip roles).flatMap fun p => match t.gangAt p.2.gang with
    | some y => t.recordPieces y p.1 p.2
    | none => []
  if a.2 < areaHead then t.saveFault g x fam area (head 0) a.2
  else
    let r := t.saveWrite x.domain a.1 a.2 need pieces
    if !r.2.2 then r.1.saveFault g x fam area (head 0) r.2.1
    else
      let w := r.1.vwrite x.domain a.1 (head 1 need)
      match w.2.1 with
      | some _ => w.1.saveFault g x fam area (head 0) (w.2.2 - a.1)
      | none => w.1.saveDone fam roles

/-- SAVE: asked for by a pre-empt request, cooperatively once every context has stopped, by force from `dlim` on (R291). -/
def execSave (gang : Nat) (forced : Bool) (s : State) : Host.Outcome State Fault Refusal :=
  match s.gangAt gang with
  | none => .next s
  | some x =>
    let busy := match s.stageOf gang with
      | some (id, st) => if st.op ≠ 0 then some id else none
      | none => none
    let fam := s.family gang
    let roles := s.saveRoles fam
    let cores := roles.filterMap fun r => r.core
    if !x.preempt || x.saveFailed then .next s
    else
      match busy with
      | some id => .next ((s.abandonStage id 11).now (.save gang forced))
      | none =>
        if x.saving = 0 then
          if forced = false ∧ (cores.any (fun n => !(s.coreAt n).proc.started) ∨ cores.all s.allStopped = false) then .next (s.later (.save gang forced))
          else
            let t := cores.foldl (fun t n => t.saveStop forced n) s
            let t := fam.foldl (fun t g => t.updGang g fun y => { y with saving := if forced then 2 else 1 }) t
            .next (t.later (.save gang forced))
        else
          -- a posted operation that has been refused is its latch's (R392, R398)
          let t := cores.foldl State.dropRefused s
          if cores.all t.saveDrained then .next (t.saveWriteAll gang x fam roles) else .next (t.later (.save gang forced))

/-! ## RESTORE (R403) -/

def Latch.of (b : List Byte) : Latch :=
  let f := cardField b 0 1
  { valid := f.testBit 0, sent := f.testBit 1, done := f.testBit 2, posted := f.testBit 3, seq := BitVec.ofNat 16 (cardField b 2 2),
    word := BitVec.ofNat 96 (cardField b 8 12), addr := BitVec.ofNat 64 (cardField b 24 8), operand := BitVec.ofNat 64 (cardField b 32 8),
    compare := BitVec.ofNat 64 (cardField b 40 8), result := BitVec.ofNat 64 (cardField b 48 8), place := none, va := 0 }
/-- A context from its block: `phys` its blocks, `entry` where a supervisor that has not started stands, `val` the value of a
pending event, which the block does not hold. -/
def Ctx.of (b : List Byte) (k : Nat) (phys : List Nat) (entry val : W64) (cyc : Nat) : Ctx :=
  let pc : W64 := BitVec.ofNat 64 (cardField b 0x408 8)
  let code := cardField b 0x410 1
  let latch := Latch.of ((b.drop 0x460).take 64)
  let sent := latch.valid && latch.sent && code != 3 && code != 0 && k != 0
  let tags := cardField b 0x400 8
  let ev := cardField b 0x41A 1
  { Ctx.init with
    pc := pc
    run := if code = 0 then .dead else if code = 3 ∨ sent = true then .parked
      else if k = 0 ∧ code = 2 ∧ pc = entry then .waiting .start else .ready
    g := (List.range 64).map fun n =>
      (n, { bits := BitVec.ofNat 128 (cardField b (16 * n) 16), tag := tags.testBit n, endst := BitVec.ofNat 32 (cardField b (0x500 + 4 * n) 4) })
    q := BitVec.ofNat 8 (cardField b 0x411 1)
    m := (List.range 8).map fun n => (n, BitVec.ofNat 32 (cardField b (0x438 + 4 * n) 4))
    sb := (List.range 4).map fun n => (n, cardField b (0x414 + n) 1)
    fflags := BitVec.ofNat 5 (cardField b 0x418 1)
    rmode := BitVec.ofNat 3 (cardField b 0x419 1)
    blocks := phys
    cursor := BitVec.ofNat 3 (cardField b 0x413 1)
    notBefore := cyc + 1
    trap := if sent then { cause := cPREEMPT, val := 0, ip := pc }
      else { cause := BitVec.ofNat 8 (cardField b 0x420 8), val := BitVec.ofNat 64 (cardField b 0x428 8), ip := BitVec.ofNat 64 (cardField b 0x430 8) }
    latch := latch
    gangEvents := if ev = 0 then [] else [(BitVec.ofNat 8 ev, val)] }

/-- The reserved fields of a structure, as offset and size, are zero: otherwise the structure is invalid (R7). -/
def reservedOk (b : List Byte) (l : List (Nat × Nat)) : Bool := l.all fun p => ((b.drop p.1).take p.2).all fun x => x == 0
/-- Reserved fields of a save header, a record's head, a queued message's header, a context block with its latch (R242, R392,
R399 to R401). -/
def saveHeadOk (b : List Byte) : Bool := reservedOk b [(48, 16)]
def recordHeadOk (b : List Byte) : Bool := reservedOk b [(0x90, 112)] && decide (cardField b 2 1 < 16) && decide (cardField b 3 1 ≤ 8)
def queueOk (b : List Byte) (n : Nat) : Bool := (List.range n).all fun j =>
  let m := b.drop (128 * j)
  decide (cardField m 0 4 < 2 ^ 22 ∧ cardField m 4 2 < 2 ^ 12 ∧ cardField m 6 1 < 2 ^ 7 ∧ cardField m 7 1 < 2 ^ 6)
def blockOk (b : List Byte) : Bool :=
  reservedOk b [(0x41B, 5), (0x458, 8), (0x461, 1), (0x464, 4), (0x474, 4), (0x498, 8), (0x4A0, 96), (0x600, 512)] &&
    decide (cardField b 0x460 1 < 16)

/-- The bytes of the area at an offset; none where they cannot be read. -/
def State.areaRead (s : State) (d : BitVec 11) (a n : Nat) : Option (List Byte) :=
  let r := s.vread d a n
  match r.2.1 with
  | none => some r.1
  | some _ => none

def tileOf (b : List Byte) (shape : Nat) : Tile :=
  let t : Tile := { Tile.init with h8 := shape.testBit 0, n32 := shape.testBit 1, isInt := shape.testBit 2 }
  { t with data := (List.range (t.rows * t.cols)).map fun i => (i, BitVec.ofNat 32 (cardField b (4 * i) 4)) }

/-- A record as read: head, queue, contexts, w blocks, tiles, local store. -/
structure RecordImage where
  head : List Byte
  queue : List Byte
  ctxs : List Byte
  w : List Byte
  tiles : List Byte
  ls : List Byte
deriving DecidableEq, Repr
def RecordImage.ok (r : RecordImage) : Bool :=
  recordHeadOk r.head && queueOk r.queue (cardField r.head 3 1) && reservedOk r.queue [(0x400, 2816)] && reservedOk r.tiles [(0x4000, 12288)] &&
    (List.range 12).all fun k => blockOk (r.ctxs.drop (0x800 * k))
/-- A record of the area; none where it cannot be read or is invalid. -/
def State.readRecord (s : State) (d : BitVec 11) (a : Nat) : Option RecordImage :=
  match s.areaRead d a 256, s.areaRead d (a + 0x100) 3840, s.areaRead d (a + 0x1000) 24576, s.areaRead d (a + 0x7000) 8192,
    s.areaRead d (a + 0x9000) 28672, s.areaRead d (a + 0x10000) Config.lsSize with
  | some h, some q, some c, some w, some t, some l =>
    let r : RecordImage := { head := h, queue := q, ctxs := c, w := w, tiles := t, ls := l }
    if r.ok then some r else none
  | _, _, _, _, _, _ => none

/-- The physical blocks that each context's allotment is granted again, in context-number order (R152). -/
def regrant : Nat → List Nat → List (List Nat)
  | _, [] => []
  | at_, n :: r => (List.range n).map (fun i => at_ + i) :: regrant (at_ + n) r

/-- A process comes back on a core. `began` is the cycle its exchange phase counts from. -/
def State.restoreCore (s : State) (x : Saved) (g : Nat) (y : Gang) (i role n : Nat) (stage : Option (Nat × Nat)) (began : Nat)
    (r : RecordImage) : State :=
  let h := r.head
  let blocks := (List.range 12).map fun k => (r.ctxs.drop (0x800 * k)).take 0x800
  let grants := regrant 0 (blocks.map fun b => cardField b 0x412 1 % 9)
  let arrived := x.arrivals.find? fun e => e.1 == i
  let ctxs : Tab Ctx := (List.range 12).zip ((blocks.zip grants).zip (List.range 12) |>.map fun e =>
    let c := Ctx.of e.1.1 e.2 e.1.2 y.h.entry (Config.freeWord (s.fresh + e.2)) s.cyc
    let at_ := (x.places.find? fun q => q.1 == i && q.2.1 == e.2).map fun q => q.2.2
    let c := { c with deferred := (x.deferred.find? fun q => q.1 == i && q.2.1 == e.2).map fun q => q.2.2
                      gangEvents := c.gangEvents ++ if e.2 = 1 then (x.events.find? fun q => q.1 == i).elim [] fun q => q.2 else []
                      latch := { c.latch with place := at_.map fun q => q.1, va := (at_.map fun q => q.2).getD 0 } }
    match arrived with
    | some q => if e.2 = 1 ∧ c.run = .ready then { c with run := .waiting (.barrier q.2.2.1) } else c
    | none => c)
  let p : Proc := { Proc.init with
    gang := g, role := role, wid := y.h.widBase + BitVec.ofNat 64 role, lcn := BitVec.ofNat 32 (cardField h 4 4), srseed := y.h.seed,
    srctr := BitVec.ofNat 64 (cardField h 0x28 8), dlim := y.h.dlim, bflags := BitVec.ofNat 5 (cardField h 0x30 8),
    imb := BitVec.ofNat 128 (cardField h 0x38 16), cw := (List.range 4).map fun j => (j, BitVec.ofNat 32 (cardField h (0x48 + 4 * j) 4)),
    js := (List.range 3).map fun j => (j, BitVec.ofNat 64 (cardField h (0x58 + 8 * j) 8)),
    issued := (List.range 3).map fun j => (j, BitVec.ofNat 64 (cardField h (0x70 + 8 * j) 8)),
    exchange := (cardField h 2 1).testBit 3, superstep := BitVec.ofNat 64 (cardField h 8 8), xstart := began,
    sent := BitVec.ofNat 64 (cardField h 0x18 8), received := BitVec.ofNat 64 (cardField h 0x20 8),
    arrived := arrived.map fun q => (q.2.1, q.2.2.1), contrib := (arrived.map fun q => q.2.2.2).getD 0,
    leaving := if y.left.contains role then some s.cyc else none, trigStarted := x.started.contains i, trigDone := y.doneBy.contains role,
    stage := stage, started := true }
  let t := { s with fresh := s.fresh + 12 }
  let t := t.updCore n fun c =>
    { c with
      bound := true, cur := none, ring := 1, evs := 0, focusLast := 1, icache := [], ifills := [], wq := [], land := [], flight := [], storeq := [],
      sendq := [], mloads := [], mstores := [], xsend := none, xpend := [], upcall := none, proc := p, ctxs := ctxs
      w := (List.range (8 * (grants.map fun l => l.length).foldl (fun a b => a + b) 0)).map fun e => (e, BitVec.ofNat 1024 (cardField r.w (128 * e) 128))
      tiles := (List.range 4).map fun j => (j, tileOf ((r.tiles.drop (4096 * j)).take 4096) (cardField h (0x88 + j) 1))
      ls := Tab.writeBytes [] 0 r.ls }
  let bits := (List.range 12).foldl (fun (e : W32) k =>
    let c := (t.coreAt n).ctx k
    e ||| (if c.run == .parked then 1#32 <<< k else 0) ||| if c.latch.valid then evRETRY else 0) 0
  if bits = 0 then t else t.raise n bits

/-- A quad's slots are reclaimed with their saved contents: those of the record at `a` of its position 0, which may itself have
exited (R180). -/
def State.restoreSlots (s : State) (d : BitVec 11) (y : Gang) (role n a : Nat) (r : RecordImage) : State :=
  match y.quadArbor role with
  | none => s
  | some _ =>
    let claims := cardField r.head 0x8C 4
    s.updArbor (arborOf n) fun b => { b with slots := (List.range 32).map fun j =>
      (j, if claims.testBit j then { claimed := true, data := Tab.writeBytes [] 0 ((s.areaRead d (a + 0x50000 + 16384 * j) 16384).getD []) } else Slot.init) }

/-- An end of a restored register arrives (R251): a twin's end at its holder's place. -/
def State.restoreEnd (s : State) (n k reg : Nat) (e : GReg) (holder : Nat) : State :=
  let write := fun (q : W32 × State) => q.2.updCtx n k fun x => x.setG (BitVec.ofNat 6 reg) { e with endst := q.1 }
  match s.endRecord e.bits with
  | none => if endDevice e.bits = s.lodge.deviceId then s
      else write ((s.farCounter e.bits).1, (s.farCounter e.bits).2.tell (dieOf n) (endDomain e.bits) (endDevice e.bits) (.arrive (endRec e.bits) (endRecv e.bits)))
  | some r =>
    let h := if endRecv e.bits && r.keyed then holder else 0
    if h = 0 then write (s.arriveAt n (endRec e.bits) (endRecv e.bits))
    else
      let counter := ((r.twinsAway.find? fun p => p.1 == h).map fun p => p.2).getD e.endst
      let t := s.putRec (endRec e.bits) { r with rlocs := Tab.put r.rlocs h n, twinsAway := r.twinsAway.filter fun p => p.1 != h }
      write (counter, t.later (.ringSlotOffer (endRec e.bits)))
def State.restoreEnds (s : State) (n holder : Nat) : State :=
  (s.coreAt n).liveEnds.foldl (fun t e => t.restoreEnd n e.1 e.2.1 e.2.2 holder) s
/-- The messages of the send queue leave again, in order. -/
def State.restoreQueue (s : State) (x : Saved) (i n : Nat) (r : RecordImage) : State :=
  let acks := (x.acks.filter fun a => a.1 == i).map fun a => (({ a.2.1 with core := n } : AckTo), a.2.2)
  (List.range (min 8 (cardField r.head 3 1))).foldl (fun t j =>
    let a := acks[j]?
    let out := (a.map fun a => a.2).getD false
    let m := { msgOf ((r.queue.drop (128 * j)).take 128) (a.map fun a => a.1) with forwarded := out }
    let t := t.updCore n fun c => { c with sendq := c.sendq ++ [m] }
    if out then t else t.inject m) s

/-- A gang as it is after a restore: nothing of the request that saved it remains. -/
def Gang.restored (y : Gang) (bound : Tab Nat) : Gang :=
  { y with bound := bound, releasing := false, preempt := false, saving := 0, saveFailed := false, stopped := false, eventStop := 0,
           dueReq := none }
/-- The monitors of a stage are bound again (R322, R323). -/
def State.restoreMonitors (s : State) (id : Nat) (st : Stage) : State :=
  if !st.armed then s
  else st.holders.foldl (fun t h =>
    match (t.holderCore st h.index) with
    | none => t
    | some n =>
      let t := t.bindMonitor (parterreOf n) id h.index (st.cloneDesc h.index true)
      if h.index = 0 then t else t.bindMonitor (parterreOf n) id h.index (st.mergeDesc h.index true)) s

/-- Roles of a saved node: record number, gang, role, its stage and holder. -/
def Saved.roles (x : Saved) : List (Nat × Nat × Gang × Nat × Option (Nat × Nat)) :=
  let all := x.gangs.flatMap fun g => (List.range g.2.h.roles).map fun r =>
    (g.1, g.2, r, x.stage.bind fun st => (st.holders.find? fun h => h.gang == g.1).map fun h => (st.gang, h.index))
  (List.range all.length).zip all

/-- Put a saved node back on cores. -/
def State.restoreAll (s : State) (x : Saved) (area : Nat) (cores : List Nat) (recs : List RecordImage) : State :=
  let d := match x.gangs with
    | g :: _ => g.2.h.quads
    | [] => 0
  let t := { s with saved := s.saved.filter fun y => y != x, fresh := s.fresh + cores.length + d + 1 }
  let began := s.cyc - Config.freeDelay (s.fresh + cores.length + d)
  let on := x.roles.zip (cores.zip recs)
  let at_ := fun (g : Nat) => (on.filter fun p => p.1.2.1 == g).map fun p => (p.1.2.2.2.1, p.2.1)
  let t := x.gangs.foldl (fun t g => { t with gangs := Tab.put t.gangs g.1 (g.2.restored (at_ g.1)) }) t
  let t := match x.stage with
    | some st => { t with stages := Tab.put t.stages st.gang st }
    | none => t
  let live := on.filter fun p => !p.1.2.2.1.exited.contains p.1.2.2.2.1
  let t := live.foldl (fun t p =>
    t.restoreCore x p.1.2.1 p.1.2.2.1 p.1.1 p.1.2.2.2.1 p.2.1 p.1.2.2.2.2 began p.2.2) t
  let t := on.foldl (fun t p =>
    t.restoreSlots p.1.2.2.1.domain p.1.2.2.1 p.1.2.2.2.1 p.2.1 (area + areaHead + p.1.1 * recordSize) p.2.2) t
  let t := live.foldl (fun t p => t.restoreEnds p.2.1 ((p.1.2.2.2.2.map fun h => h.2).getD 0)) t
  let t := live.foldl (fun t p => t.restoreQueue x p.1.1 p.2.1 p.2.2) t
  let t := match x.stage with
    | some st => t.restoreMonitors st.gang st
    | none => t
  x.gangs.foldl (fun t g =>
    let t := if g.2.stopped && g.2.eventStop == 0 then t.haltGang g.1 else t
    t.checkBarrier g.1) t

/-- The lines of the node's record and of the area, where the Bandstand reads them (R274, R299). -/
def State.restoreReady (s : State) (d : BitVec 11) (area node : Nat) : State :=
  let t := s.graphReady d node
  match t.saved.find? fun x => x.ofNode d node with
  | none => t
  | some x => t.vready d area (areaHead + x.roles.length * recordSize)
def execRestore (domain : BitVec 11) (area node : BitVec 64) (s : State) : Host.Outcome State Fault Refusal :=
  let d := domain
  let a := area.toNat
  let s := s.restoreReady d a node.toNat
  let st := s.nState d node.toNat
  match s.saved.find? fun x => x.ofNode d node.toNat, s.areaRead d a 64 with
  | some x, some h =>
    let n := x.roles.length
    let ok := h.take 4 == [0x44, 0x58, 0x53, 0x56] && cardField h 4 2 == 1 && cardField h 6 1 == 1 && saveHeadOk h && cardField h 16 8 == node.toNat &&
      cardField h 24 2 == n && (st == nRUNNING || st == nEARLY)
    let recs := (List.range n).filterMap fun i => s.readRecord d (a + areaHead + i * recordSize)
    match x.gangs with
    | [] => .next s
    | g :: _ =>
      if !ok || recs.length != n || (s.domainAt d).integrityStop then .next s
      else
        match s.bindRoles d { g.2.h with roles := n } with
        | none => .next (s.later (.restore domain area node))
        | some cores => .next (s.restoreAll x a cores recs)
  | _, _ => .next s

end Sys2Proof.Machine
end

