-- ==== Sys2Proof/Machine/Debug.lean ====
section
/-! DEFINITION. The DBG class (R424), MONITOR_SAMPLE (R324, R416, R417) and the commands of the debugger (R409, R413 to R416,
R418, R421, R423). -/

namespace Sys2Proof.Machine

/-! ## BKPT, MARK, RDCNT and MONQ (R424): each a NOP of S -/

/-- A trace record of the running context (R419). -/
def State.ownRec (s : State) (type : Nat) (payload : List Byte) : List Byte :=
  traceRec type s.k s.me.dom s.me.proc.lcn s.cyc s.me.proc.superstep s.cx.pc payload

def execBkpt (c : Ctl) (code : BitVec 8) (s : State) : Host.Outcome State Fault Refusal :=
  issue c fPlain s fun s =>
    if s.k = 0 ∨ (s.domainAt s.me.dom).armed = false then .done s
    else .done ((s.trace s.me.dom (s.ownRec 2 [code])).stopRequest s.me.proc.gang)
def execMark (c : Ctl) (v : GI) (s : State) : Host.Outcome State Fault Refusal :=
  issue c fPlain s fun s =>
    if s.k = 0 ∨ (s.domainAt s.me.dom).traceState ≠ 1 then .done s
    else .done (s.trace s.me.dom (s.ownRec 1 (natLE 8 (s.gi v).toNat)))
def execRdcnt (c : Ctl) (d : BitVec 6) (n : BitVec 4) (s : State) : Host.Outcome State Fault Refusal :=
  issue c fLate s fun s =>
    let p := s.me.proc
    let v : W128 := if n.toNat < 8 then BitVec.ofNat 128 ((Tab.get 0 s.me.hc n.toNat).toNat * 2 ^ 64 + s.cyc % 2 ^ 64)
      else p.received ++ p.sent
    if s.k = 0 then .done (s.landLate c.set .none)
    else if s.leak d then leakTrap d
    else .done (s.landLate c.set (.g d { bits := v, tag := false, endst := 0 }))
/-- What MONQ reads of monitor `n` of the core's parterre. -/
def State.monWord (s : State) (n : Nat) : W64 :=
  let m := Tab.get Monitor.init s.monitors (16 * parterreOf s.core + n)
  if m.desc.extractLsb' 16 11 = s.me.dom ∧ monEnabled m = true then BitVec.ofNat 64 (m.count % 2 ^ 32 * 2 ^ 32 + m.latest % 2 ^ 32) else 0
def execMonq (c : Ctl) (d : BitVec 6) (n : GI) (s : State) : Host.Outcome State Fault Refusal :=
  issue c fLate s fun s =>
    let v := s.gi n
    if s.k = 0 then .done (s.landLate c.set .none)
    else if 15 < v.toNat then .trap cCAPBND v
    else writeLate s c d (s.monWord v.toNat)

/-! ## Monitors (R324, R416, R417) -/

def Monitor.threshold (m : Monitor) : Nat := bits m.desc 95 64
def Monitor.window (m : Monitor) : Nat := bits m.desc 63 44
def Monitor.action (m : Monitor) : Nat := bits m.desc 43 40
def Monitor.relation (m : Monitor) : Nat := bits m.desc 39 37
def Monitor.source (m : Monitor) : Nat := bits m.desc 36 33
def Monitor.domain (m : Monitor) : BitVec 11 := m.desc.extractLsb' 16 11
def Monitor.subject (m : Monitor) : Nat := bits m.desc 15 0
def Monitor.sat (m : Monitor) (v : Nat) : Bool :=
  match m.relation with
  | 0 => decide (m.threshold < v)
  | 1 => decide (v < m.threshold)
  | 2 => v == m.threshold
  | 3 => v != m.threshold
  | 4 => decide (m.threshold ≤ v)
  | 5 => decide (v ≤ m.threshold)
  | _ => false
/-- A monitor that can fire: its relation, action and window are none of the reserved values. -/
def Monitor.canFire (m : Monitor) : Bool :=
  decide (m.relation ≤ 5) && decide (m.action ≤ 7) && decide (1 ≤ m.window) && decide (m.window ≤ 2 ^ 18) && !m.fired

/-- The core of a monitor's subject: its role in a gang of its domain on its parterre. -/
def State.monCore (s : State) (id : Nat) (m : Monitor) : Option Nat :=
  match m.stage with
  | some (st, h) => (s.stageAt st).bind fun x => s.holderCore x h
  | none => (s.cores.find? fun p => p.2.bound && p.2.dom == m.domain && parterreOf p.1 == id / 16 && p.2.proc.role == m.subject).map fun p => p.1
/-- The queued field of the role's receive end; free where the role holds none or several (R416). -/
def State.monDepth (s : State) (m : Monitor) (n : Nat) : Option Nat :=
  match m.stage with
  | some (id, h) => (s.stageAt id).map fun x => s.depth x.record h
  | none =>
    match (s.coreAt n).liveEnds.filter fun e => endRecv e.2.2.bits with
    | [e] => (s.endRecord e.2.2.bits).map fun r => r.queuedFor (r.holderAt n) e.2.2.endst
    | _ => none
/-- A sample of the source; none where the spec fixes no value: a port's slots, a subject that is not there, or no barrier
pending. -/
def State.monSample (s : State) (id : Nat) (m : Monitor) : Option Nat :=
  match s.monCore id m with
  | none => none
  | some n =>
    let c := s.coreAt n
    let times := (s.barrierCores c.proc.gang).filterMap fun k => (s.coreAt k).proc.arrived.map fun a => a.1
    match m.source with
    | 1 => s.monDepth m n
    | 2 => some (Config.inboxSlots - c.inbox.length)
    | 4 => times.head?.map fun _ => (s.barrierCores c.proc.gang).length - times.length
    | 5 => times.head?.map fun t => s.cyc - times.foldl min t
    | _ => none

/-- The action of a firing. -/
def State.monAct (s : State) (id : Nat) (m : Monitor) (v : Nat) : State :=
  let d := m.domain
  let trace := fun (f : Nat → Nat) => s.updDomain d fun t => { t with traceState := f t.traceState }
  match m.action with
  | 1 => trace fun x => if x = 2 then 2 else 1
  | 2 => trace fun x => if x = 2 then 2 else 0
  | 3 => trace fun _ => 2
  | 4 | 5 =>
    match m.stage with
    | some (st, h) =>
      let r := s.stageRequest st (m.action == 4) h
      -- a request that is accepted is outstanding until its operation ends
      if r.1 then { r.2 with monitors := r.2.monitors.map fun p => if p.1 = id then (p.1, { p.2 with fired := true }) else p } else r.2
    | none =>
      match (s.monCore id m).bind fun n => (s.coreAt n).proc.stage with
      | some (st, h) => (s.stageRequest st (m.action == 4) h).2
      | none => s
  | 6 => match s.lodge.owner with
    | some o => s.toHost o.1 none (.debug o.1 2 (natLE 1 (id / 16) ++ natLE 1 (id % 16) ++ natLE 4 v))
    | none => s
  | 7 => match s.monCore id m with
    | some n => s.stopRequest (s.coreAt n).proc.gang
    | none => s
  | _ => s
/-- The record of a firing. -/
def State.monRec (s : State) (id : Nat) (m : Monitor) (v : Nat) : State :=
  let lcn := match s.monCore id m with
    | some n => ((s.gangCores (s.coreAt n).proc.gang).head?.map fun k => (s.coreAt k).proc.lcn).getD 0
    | none => 0
  let step := match s.monCore id m with
    | some n => (s.coreAt n).proc.superstep
    | none => 0
  s.trace m.domain (traceRec 6 0xFF m.domain lcn s.cyc step 0 (natLE 1 (id % 16) ++ natLE 1 (id / 16) ++ natLE 2 0 ++ natLE 4 v))

/-- MONITOR_SAMPLE: one sample of an enabled monitor, and its firing. -/
def execMonitorSample (monitor : Nat) (s : State) : Host.Outcome State Fault Refusal :=
  match Tab.find s.monitors monitor with
  | none => .next s
  | some m =>
    if !monEnabled m || m.source == 0 then .next s
    else
      let q : Nat × State := match s.monSample monitor m with
        | some v => (v, s)
        | none => ((Config.freeWord s.fresh).toNat % 2 ^ 32, { s with fresh := s.fresh + 1 })
      let v := q.1
      let l := (v :: m.samples).take (max 1 m.window)
      let put := fun (t : State) (x : Monitor) => ({ t with monitors := Tab.put t.monitors monitor x } : State)
      if m.canFire && l.length == m.window && l.all m.sat then
        let t := put q.2 { m with samples := [], latest := v, count := min (m.count + 1) (2 ^ 32 - 1) }
        -- whether the record or the action comes first is not stated
        let u := { t with fresh := t.fresh + 1 }
        .next (if Config.freeBit t.fresh then (u.monRec monitor m v).monAct monitor m v else (u.monAct monitor m v).monRec monitor m v)
      else .next (put q.2 { m with samples := l, latest := v })

/-! ## The debugger's commands (R409) -/

def dbgOk : Nat := 0
def dbgRefused : Nat := 1
def State.dbg (s : State) (source : BitVec 16) (status : Nat) (data : List Byte) : State := s.toHost source none (.debug source status data)
/-- The debugger is the device owner, and a command names a live domain. -/
def State.dbgMay (s : State) (source : BitVec 16) (d : BitVec 11) : Bool := s.isOwner source && (s.domainAt d).live
/-- A command on a gang node of the domain; refused when no gang of it lives. -/
def State.dbgGang (s : State) (source : BitVec 16) (d : BitVec 11) (node : W64) (f : List Nat → Option State) : Host.Outcome State Fault Refusal :=
  let l := s.nodeGangs d node.toNat
  match (if s.dbgMay source d && !l.isEmpty then f l else none) with
  | some t => .next (t.dbg source dbgOk [])
  | none => .next (s.dbg source dbgRefused [])

def execArm (source : BitVec 16) (domain : BitVec 11) (s : State) : Host.Outcome State Fault Refusal :=
  if s.dbgMay source domain then .next ((s.updDomain domain fun t => { t with armed := true }).dbg source dbgOk [])
  else .next (s.dbg source dbgRefused [])
def execDisarm (source : BitVec 16) (domain : BitVec 11) (s : State) : Host.Outcome State Fault Refusal :=
  if s.dbgMay source domain then .next ((s.updDomain domain fun t => { t with armed := false }).dbg source dbgOk [])
  else .next (s.dbg source dbgRefused [])

/-- STOP: it lands at the gang's next exchange boundary (R411, R413); a stopped gang is left alone. -/
def execStop (source : BitVec 16) (domain : BitVec 11) (node : BitVec 64) (s : State) : Host.Outcome State Fault Refusal :=
  s.dbgGang source domain node fun l => some (l.foldl (fun t g => t.updGang g fun x => if x.stopped then x else { x with stopReq := true }) s)
/-- RESUME releases a gang that a stop holds; one that waits for a ring write or a page is not the debugger's to release. -/
def execResume (source : BitVec 16) (domain : BitVec 11) (node : BitVec 64) (s : State) : Host.Outcome State Fault Refusal :=
  s.dbgGang source domain node fun l =>
    let mine := l.filter fun g => (s.gangAt g).any fun x => x.stopped && x.eventStop != 1 && x.eventStop != 3 && x.saving == 0
    if mine.isEmpty then none else some (mine.foldl State.releaseGang s)

/-! ## READ and WRITE (R414) -/

/-- A gang is stopped: by the halt tree, or by a save that could not be written (R402). -/
def Gang.still (x : Gang) : Bool := x.stopped || x.saveFailed
/-- A stopped gang has drained: nothing of its contexts other than S is under way (R413). -/
def State.stopDrained (s : State) (g : Nat) : Bool :=
  (s.gangCores g).all fun n =>
    let c := s.coreAt n
    (c.storeq.all fun o => o.refused) && c.wq.isEmpty && (c.land.all fun l => l.ctx == 0) && c.mloads.isEmpty && (c.mstores.all fun m => decide (m.2.2 ≤ s.cyc)) &&
      c.xpend.isEmpty && !s.flyingAt n && (c.flight.all fun o => o.ctx == 0) && !(s.replies.any fun r => r.core == n && r.ctx != 0)
/-- The core of a role of a stopped node; record order numbers the holders of a stage. -/
def State.dbgCore (s : State) (source : BitVec 16) (d : BitVec 11) (node : W64) (role : Nat) : Option Nat :=
  let l := s.nodeGangs d node.toNat
  if s.dbgMay source d && !l.isEmpty && (l.all fun g => (s.gangAt g).any Gang.still && s.stopDrained g) then
    ((s.saveRoles l)[role]?).bind fun r => r.core
  else none

/-- Special registers that the debugger reaches: those of R41 but `cyc`, `dom` and `allot`. -/
def dbgSpecial (n : Nat) : Bool :=
  (decide (n ≤ 0x012) && n != 0x003 && n != 0x009 && n != 0x010) || (decide (0x014 ≤ n) && decide (n ≤ 0x01B)) ||
    (decide (0x020 ≤ n) && decide (n ≤ 0x02F))

/-- The bytes of a target; none where there is no such state. -/
def State.dbgRead (s : State) (n k : Nat) (t : DbgTarget) : Option (List Byte) :=
  let c := s.coreAt n
  let x := c.ctx k
  match t with
  | .g r => let v := x.gReg r; some (natLE 16 v.bits.toNat ++ [if v.tag then 1 else 0])
  | .q r => some [if x.pred r then 1 else 0]
  | .m r => some (natLE 4 (x.mask r).toNat)
  | .w r => if r.toNat < x.allot then some (natLE 128 (c.wReg (x.phys r.toNat)).toNat) else none
  | .s r => if dbgSpecial r.toNat then some (natLE 16 (s.special n k r.toNat).toNat) else none
  | .ls off len => if off.toNat + len.toNat ≤ Config.lsSize then some (Tab.readBytes c.ls off.toNat len.toNat) else none

def execRead (source : BitVec 16) (domain : BitVec 11) (node : BitVec 64) (role ctx : BitVec 12) (t : DbgTarget) (s : State) :
    Host.Outcome State Fault Refusal :=
  match s.dbgCore source domain node role.toNat with
  | none => .next (s.dbg source dbgRefused [])
  | some n =>
    match (if ctx.toNat ≤ 11 then s.dbgRead n ctx.toNat t else none) with
    | some b => .next (s.dbg source dbgOk b)
    | none => .next (s.dbg source dbgRefused [])

/-- A special register as the debugger writes it. -/
def State.dbgSet (s : State) (n k num : Nat) (v : W128) : State :=
  let w : W64 := v.setWidth 64
  let half : W32 := v.setWidth 32
  let p := fun (f : Proc → Proc) => s.updProc n f
  if num = 0x000 then p fun q => { q with wid := w }
  else if num = 0x001 then p fun q => { q with lcn := half }
  else if num = 0x002 then p fun q => { q with role := bits v 11 0 }
  else if num = 0x005 then p fun q => { q with bflags := v.setWidth 5 }
  else if num = 0x007 then p fun q => { q with srseed := w }
  else if num = 0x00A then p fun q => { q with prq := w &&& ~~~BitVec.ofNat 64 (2 ^ 62 - 2 ^ 48) }
  else if num = 0x00B then p fun q => { q with dlim := half }
  else if num = 0x011 then p fun q => { q with imb := v }
  else if num = 0x012 then (s.updCore n fun c => { c with evs := half &&& 0xEFFE }).wakeEvents n
  else if 0x014 ≤ num ∧ num ≤ 0x017 then p fun q => { q with cw := Tab.put q.cw (num - 0x014) half }
  else if 0x018 ≤ num ∧ num ≤ 0x01A then (p fun q => { q with js := Tab.put q.js (num - 0x018) w }).wakeJobs n
  else if num = 0x01B then s
  else s.updCore n fun c => c.landS k (BitVec.ofNat 9 num) w

/-- A write of a target; none where it is refused. -/
def State.dbgWrite (s : State) (n k : Nat) (t : DbgTarget) (tag : Bool) (v : Nat) : Option State :=
  let x := s.ctxAt n k
  match t with
  | .g r =>
    let w : W128 := BitVec.ofNat 128 v
    if tag || capKind w == 3 || (x.gReg r).isEnd then none else some (s.updCtx n k fun x => x.setG r { bits := w, tag := false, endst := 0 })
  | .q r => some (s.updCtx n k fun x => x.setQ r (v.testBit 0))
  | .m r => some (s.updCtx n k fun x => x.setM r (BitVec.ofNat 32 v))
  | .w r => if r.toNat < x.allot then some (s.updCore n fun c => { c with w := Tab.put c.w (x.phys r.toNat) (BitVec.ofNat 1024 v) }) else none
  | .s r => if dbgSpecial r.toNat && !(decide (0x020 ≤ r.toNat) && decide (r.toNat ≤ 0x027)) then some (s.dbgSet n k r.toNat (BitVec.ofNat 128 v)) else none
  | .ls off len =>
    if off.toNat + len.toNat ≤ Config.lsSize then some (s.updCore n fun c => { c with ls := Tab.writeLE c.ls off.toNat len.toNat v }) else none

def execWrite (source : BitVec 16) (domain : BitVec 11) (node : BitVec 64) (role ctx : BitVec 12) (t : DbgTarget) (tag : Bool) (v : Nat)
    (s : State) : Host.Outcome State Fault Refusal :=
  match s.dbgCore source domain node role.toNat with
  | none => .next (s.dbg source dbgRefused [])
  | some n =>
    match (if ctx.toNat ≤ 11 then s.dbgWrite n ctx.toNat t tag v else none) with
    | some u => .next (u.dbg source dbgOk [])
    | none => .next (s.dbg source dbgRefused [])

/-! ## HOLD and UNHOLD (R415) -/

/-- The live role of a node that a hold names. -/
def State.holdRole (s : State) (l : List Nat) (role : Nat) : Option (Role × Nat) :=
  ((s.saveRoles l)[role]?).bind fun r => r.core.map fun n => (r, n)

/-- A held process has reached its quiescent point. -/
def State.settleHolds (s : State) : State :=
  s.domains.foldl (fun s d => d.2.holds.foldl (fun s h =>
    match (s.gangAt h.1).bind fun x => Tab.find x.bound h.2 with
    | some n => if (s.coreAt n).bound && !(s.coreAt n).proc.held && s.paused n then s.updProc n fun p => { p with held := true } else s
    | none => s) s) s

def execHold (source : BitVec 16) (domain : BitVec 11) (node : BitVec 64) (role : BitVec 12) (s : State) : Host.Outcome State Fault Refusal :=
  s.dbgGang source domain node fun l =>
    match s.holdRole l role.toNat with
    | none => none
    | some (r, n) =>
      if s.holding n then some s
      else some ((s.stopAtYields n).updDomain domain fun t => { t with holds := t.holds ++ [(r.gang, r.role)] })

/-- A pause of a stage operation keeps the process stopped. -/
def State.pausing (s : State) (n : Nat) : Bool :=
  match (s.coreAt n).proc.stage with
  | some (id, h) => (s.stageAt id).any fun st => st.op != 0 && (st.who == h || (st.op == 2 && st.other == h)) && (st.op == 1 || st.phase != 0)
  | none => false
/-- The domain is under no partial hold any more: its jobs begin, and the requests that fell due are made. -/
def State.endHolds (s : State) (d : BitVec 11) : State :=
  if !(s.domainAt d).holds.isEmpty then s
  else
    let begin_ := fun (p : Nat × Job) => if p.2.domain = d then (p.1, { p.2 with held := false }) else p
    let fell := fun (p : Nat × Gang) => if p.2.domain = d then p.2.dueReq.map fun c => (p.1, c) else none
    let t : State := { s with jobs := s.jobs.map begin_ }
    (t.gangs.filterMap fell).foldl (fun t r => (t.updGang r.1 fun x => { x with dueReq := none }).request r.1 r.2) t
def execUnhold (source : BitVec 16) (domain : BitVec 11) (node : BitVec 64) (role : BitVec 12) (s : State) : Host.Outcome State Fault Refusal :=
  s.dbgGang source domain node fun l =>
    match s.holdRole l role.toNat with
    | none => none
    | some (r, n) =>
      if !s.holding n then none
      else
        let t := s.updDomain domain fun t => { t with holds := t.holds.filter fun h => h != (r.gang, r.role) }
        let t := t.updProc n fun p => { p with held := false }
        let t := if t.pausing n || bits (t.coreAt n).proc.prq 63 62 == 1 then t else t.goOn n
        some (t.endHolds domain)

/-! ## TRACE, DUMP and MONSET (R416, R418, R421) -/

def execTrace (source : BitVec 16) (domain : BitVec 11) (buf len : BitVec 64) (mode : BitVec 1) (s : State) : Host.Outcome State Fault Refusal :=
  if s.dbgMay source domain && buf.toNat % 64 == 0 && len.toNat % 64 == 0 && len != 0 then
    let t := s.updDomain domain fun t =>
      { t with traceState := 1, traceMode := mode, traceBuf := buf, traceLen := len, traceAt := 64, traceLost := 0 }
    .next ((t.traceHead domain).dbg source dbgOk [])
  else .next (s.dbg source dbgRefused [])

/-- DUMP of a stopped gang, or with no gang named the buffer for fault exits. -/
def execDump (source : BitVec 16) (domain : BitVec 11) (node : Option (BitVec 64)) (buf len : BitVec 64) (s : State) : Host.Outcome State Fault Refusal :=
  match node with
  | none =>
    if s.dbgMay source domain then .next ((s.updDomain domain fun t => { t with dumpBuf := some (buf, len) }).dbg source dbgOk [])
    else .next (s.dbg source dbgRefused [])
  | some v =>
    s.dbgGang source domain v fun l =>
      if l.all fun g => (s.gangAt g).any Gang.still && s.stopDrained g then
        l.head?.map fun g => (l.foldl (fun t g => t.updGang g fun x => { x with dump := some (buf, len) }) s).dumpGang g
      else none

/-- The bits of a descriptor that MONSET writes: `count` and the reserved bits stay out. -/
def monsetMask : W128 := BitVec.ofNat 128 (2 ^ 96 - 1 - 31 * 2 ^ 27)
/-- MONSET: a monitor bound to a stage, or that another domain has enabled, is refused; `count` is not written. -/
def execMonset (source : BitVec 16) (domain : BitVec 11) (monitor : BitVec 10) (desc : BitVec 128) (s : State) : Host.Outcome State Fault Refusal :=
  let id := monitor.toNat
  let m := Tab.get Monitor.init s.monitors id
  let mine := m.domain == domain
  if s.dbgMay source domain && m.stage.isNone && desc.extractLsb' 16 11 == domain && (mine || !monEnabled m) then
    let x : Monitor := { Monitor.init with desc := desc &&& monsetMask, count := if mine then m.count else 0 }
    .next (({ s with monitors := Tab.put s.monitors id x } : State).dbg source dbgOk [])
  else .next (s.dbg source dbgRefused [])

end Sys2Proof.Machine
end

