-- ==== Sys2Proof/Machine/Fabric.lean ====
section
/-! DEFINITION. Hosts, peers and links (R268 to R278, R368, R369): token posts, accesses of hosts and peers to device memory,
snoops, back-invalidates, host-line evictions, and the keys of protected links. -/

namespace Sys2Proof.Config

/-- The message that a packet's bytes carry, by an encoding that the spec does not give. -/
opaque carried (data : List (BitVec 8)) : Option Instr

end Sys2Proof.Config

namespace Sys2Proof.Machine

/-! ## TOKEN_POST (R275 to R278) -/

/-- The owner that a Bandstand judges posts by: the one before a handover, until it acknowledges (R278). -/
def State.bandOwner (s : State) (die : Nat) : Option (BitVec 16) :=
  if !s.booted then none
  else match s.lodge.acks.find? fun a => a.1 == die && decide (s.cyc < a.2.1) with
    | some a => some a.2.2
    | none => s.lodge.owner.map fun o => o.1
/-- The status of a post, and the state it leaves. -/
def State.judgePost (s : State) (t : TokenMsg) : Nat × State :=
  let d : BitVec 11 := t.domain.setWidth 11
  let s := s.walkReady d t.node.toNat
  if s.bandOwner (s.nodeDie d t.node.toNat) ≠ some t.source then (1, s)
  else if t.type != 1 || t.reserved || decide (2048 ≤ t.domain.toNat) || !(s.domainAt d).live || t.count == 0 || t.node.toNat % 128 != 0 then (2, s)
  else s.postTokens d t.node.toNat t.count.toNat
def execTokenPost (t : TokenMsg) (s : State) : Host.Outcome State Fault Refusal :=
  let r := s.judgePost t
  .next (r.2.toHost t.source none (.ack t.source t.tag (BitVec.ofNat 8 r.1)))

/-! ## Accesses of hosts and peers to HBM (R269, R274, R277) -/

/-- Bytes of device memory under a domain's key, and their writing. -/
def State.outRead (s : State) (d : BitVec 11) (a n : Nat) : List Byte := s.mem.bytesAs (s.keyOf d) a n
/-- Each aligned 8-byte unit is one event (R188). -/
def State.outWrite (s : State) (d : BitVec 11) (a : Nat) (l : List Byte) : State :=
  (unitsFrom a l).foldl (fun t u => t.writePlace (t.keyOf d) (.hbm u.1) u.2.length (leNat u.2) false none) s
/-- The lines of a range. -/
def linesOf (a n : Nat) : List Nat := if n = 0 then [] else (List.range ((a + n - 1) / 64 - a / 64 + 1)).map fun i => a / 64 + i
/-- Bytes the spec does not give: the contents of telemetry. -/
def State.freeBytes (s : State) : Nat → List Byte × State
  | 0 => ([], s)
  | n + 1 =>
    let r := ({ s with fresh := s.fresh + 1 } : State).freeBytes n
    ((Config.freeWord s.fresh).setWidth 8 :: r.1, r.2)
/-- A host's lines of a range stay with the host. -/
def State.track (s : State) (d : BitVec 11) (lines : List Nat) : State :=
  { s with hostHeld := (lines.filter fun l => !s.hostHeld.any fun h => h.1 == l).map (fun l => (l, d)) ++ s.hostHeld }

/-- The domain of the exposed range that holds all of a range; none outside the ranges that the owner exposes (R268, R274). -/
def State.exposedAs (s : State) (a n : Nat) : Option (BitVec 11) :=
  (s.exposed.find? fun x => decide (x.base.toNat ≤ a) && decide (a + n ≤ x.base.toNat + x.len.toNat)).map fun x => x.domain
/-- The domain that a host's access is made under: through CXL.mem that of the exposed range. -/
def State.reqDomain (s : State) (r : HostReq) (n : Nat) : Option (BitVec 11) :=
  if r.cxl then s.exposedAs r.addr.toNat n else some r.domain

def execHostMemoryRequest (r : HostReq) (s : State) : Host.Outcome State Fault Refusal :=
  let a := r.addr.toNat
  let n := if r.write then r.data.length else r.len
  let refused := s.toHost r.source none (.hostReply r.source true (if r.write then [] else List.replicate n 0))
  if !s.booted then .next refused
  else if r.telemetry then
    if r.write then .next refused
    -- fabric counters read zero to all but the owner (R277, R370)
    else if r.counters then
      .next (s.toHost r.source none (.hostReply r.source false (if s.isOwner r.source then natLE n s.integrity else List.replicate n 0)))
    else
      let q := s.freeBytes n
      .next (q.2.toHost r.source none (.hostReply r.source false q.1))
  else
    match s.reqDomain r n with
    | none => .next (s.emitTo r.source (.unsupported r.source))
    | some d =>
      if !s.isOwner r.source || !(s.domainAt d).live || !s.hbmOk a n then .next refused
      else
        -- an atomic returns the bytes it replaces, and the two are one event
        let old := if r.write && !r.atomic then [] else s.outRead d a n
        let t := if r.write then s.outWrite d a r.data else s
        let t := if r.hold && r.cxl then t.track d (linesOf a n) else t
        .next (t.toHost r.source (some d) (.hostReply r.source false old))

/-- A peer's atomic as an operation at the home Kiosk of its line (R217, R269). -/
def peerOp (r : PeerReq) (q : PeerAtomic) : MemOp :=
  let k : MemKind × Nat := match q.op with
    | .amo f op => (.amo f op, afmtBytes f)
    | .cas f => (.cas f, afmtBytes f)
    | .fset => (.fset, 8)
    | .fclr => (.fclr, 8)
  { id := 0, ctx := q.ctx, kind := k.1, va := 0, place := .hbm r.addr.toNat, size := k.2, policy := .skip, scope := .sys, d := 0, set := 0,
    data := q.operand.setWidth 128, tag := false, compare := q.compare, seq := q.seq, rearm := some q.ctx, performed := false, result := 0,
    flags := 0, status := 0, hits := [], ip := 0, po := [], after := [], past := [], refused := false, asked := false }
/-- Bytes of a request. -/
def peerSize (r : PeerReq) : Nat :=
  match r.atomic with
  | some q => (peerOp r q).size
  | none => if r.write then r.data.length else r.len
def State.peerReply (s : State) (r : PeerReq) (error : Bool) (data : List Byte) : State :=
  s.depart (devicePort r.device) (some r.domain) (.peerReply r.device error data)
/-- The answer to an atomic: the bits it replaced, its flags, and whether that is a stored result (R394). -/
def atomicReply (r : W64 × Flags × Bool) : List Byte := natLE 8 r.1.toNat ++ [r.2.1.setWidth 8, if r.2.2 then 1 else 0]
/-- A peer's request is performed, or refused with an error. Its atomic is one event of the line's Kiosk, once for its sequence (R394). -/
def State.servePeer (s : State) (r : PeerReq) : State :=
  let a := r.addr.toNat
  if !s.booted || !(s.domainAt r.domain).live || !s.hbmOk a (peerSize r) then s.peerReply r true []
  else match r.atomic with
    | some q =>
      if a % (peerSize r) ≠ 0 then s.peerReply r true []
      else
        let x := s.performOnce (s.keyOf r.domain) r.domain q.lcn q.ctx 0 (peerOp r q)
        x.1.peerReply r false (atomicReply x.2)
    | none =>
      let old := if r.write then [] else s.outRead r.domain a (peerSize r)
      (if r.write then s.outWrite r.domain a r.data else s).peerReply r false old
def peerLines (r : PeerReq) : List Nat := linesOf r.addr.toNat (peerSize r)
/-- Serve a peer, or ask the host that holds a line of the request first. -/
def State.peer (s : State) (r : PeerReq) : State :=
  let held := (peerLines r).filter fun l => s.hostHeld.any fun h => h.1 == l
  if held.isEmpty then s.servePeer r
  else held.foldl (fun t l => t.askBack (.hbm (64 * l))) { s with peerWaiting := s.peerWaiting ++ [r] }
def execPeerMemoryRequest (r : PeerReq) (s : State) : Host.Outcome State Fault Refusal := .next (s.peer r)

/-- The host answers a back-invalidate, with data when it held the line modified. Data for a line that no longer may be written, or
that the host has given up, are dropped (R118, R274). -/
def execBackInvalidateAnswer (line : BitVec 46) (data : Option (BitVec 512)) (s : State) : Host.Outcome State Fault Refusal :=
  let l := line.toNat
  if !s.backInv.contains l then .next s
  else
    let held := s.hostHeld.find? fun h => h.1 == l
    let t := { s with backInv := s.backInv.filter fun x => x != l, hostHeld := s.hostHeld.filter fun h => h.1 != l }
    let t := match data, held with
      | some v, some h => if t.hbmOk (64 * l) 64 then t.outWrite h.2 (64 * l) (natLE 64 v.toNat) else t
      | _, _ => t
    let waiting := t.peerWaiting
    .next (waiting.foldl State.peer { t with peerWaiting := [] })

/-! ## Snoops and evictions (R272) -/

def execHostSnoop (agent : BitVec 1) (host : BitVec 12) (line : BitVec 46) (invalidate : Bool) (s : State) : Host.Outcome State Fault Refusal :=
  let n : Snoop := { agent := agent.toNat, host := host, line := line.toNat, invalidate := invalidate }
  if !s.booted then .next (s.emitTo (host.setWidth 16) (.hostReply (host.setWidth 16) true []))
  else .next (({ s with snoops := s.snoops ++ [n] } : State).later (.snoopDequeue agent))
/-- The oldest snoop leaves the queue. -/
def execSnoopDequeue (agent : BitVec 1) (s : State) : Host.Outcome State Fault Refusal :=
  match s.snoops.find? fun n => n.agent == agent.toNat with
  | none => .next s
  | some n => .next (({ s with snoops := s.snoops.erase n } : State).applySnoop n)
def execHostLineEviction (_agent : BitVec 1) (host : BitVec 12) (line : BitVec 46) (s : State) : Host.Outcome State Fault Refusal :=
  match s.hostLine host line.toNat with
  | none => .next s
  | some l =>
    .next ((s.lineOut l (.writeBack host line.toNat l.data)).dropLine host line.toNat)

/-- CXL.io (R268): the configuration space, in which the owner exposes ranges of device memory (notes/assumptions/39.md), and the
unsupported-request status for all else. A range belongs to one live domain. -/
def execHostCxlIoRequest (host : BitVec 16) (supported : Bool) (q : CxlIo) (s : State) : Host.Outcome State Fault Refusal :=
  if !s.booted then .next (s.emitTo host (.cxlIo host false 0))
  else if !supported then .next (s.emitTo host (.unsupported host))
  else
    let may := fun (x : HdmRange) => s.isOwner host && (s.domainAt x.domain).live &&
      s.exposed.all fun y => x.domain == y.domain || !overlaps x.base.toNat x.len.toNat y.base.toNat y.len.toNat
    let t := match q.expose with
      | some x => if may x then { s with exposed := x :: s.exposed } else s
      | none => s
    .next (t.emitTo host (.cxlIo host true (Config.cxlConfig q.reg.toNat)))

/-! ## Links (R368, R369) -/

def State.link (s : State) (source : BitVec 16) (d : Option (BitVec 11)) : Link :=
  (s.links.find? fun l => l.source == source && l.domain == d).getD
    { source := source, domain := d, gen := 0, last := none, lastPrev := none, newCount := 0 }
def State.putLink (s : State) (l : Link) : State :=
  { s with links := l :: s.links.filter fun x => !(x.source == l.source && x.domain == l.domain) }
def above (n : Nat) : Option Nat → Bool
  | none => true
  | some m => decide (m < n)
/-- Whether a packet is accepted, and what the receiver keeps. A completion names the responder's generation like any packet, whatever
generation its request had (R369). -/
def Link.accept (l : Link) (secret : BitVec 384) (p : Packet) : Bool × Link :=
  let verifies := fun (g : Nat) => Config.packetOk secret p.source g p.number p.data p.tag
  if p.parity == decide (l.gen % 2 = 1) then
    if !verifies l.gen then (false, l)
    else
      let l := { l with newCount := l.newCount + 1 }
      if above p.number l.last then (true, { l with last := some p.number }) else (false, l)
  else if decide (1 ≤ l.gen) && decide (l.newCount < 2 ^ 20) && verifies (l.gen - 1) && above p.number l.lastPrev then
    (true, { l with lastPrev := some p.number })
  else (false, l)

/-- Messages for the Lodge, the Belvedere and the Bandstands, under the device link secret (R368, R409). -/
def lodgeMsg : Instr → Bool
  | .tokenPost _ | .deviceReportRequest .. | .ownershipChallenge _ | .ownershipClaim .. | .handover .. | .ownershipRelease .. | .deviceIdAssign ..
  | .domainCreate .. | .domainDestroy .. | .coreAssign .. | .pageEvict .. | .pageReturn .. | .formatWindowChange .. | .arm .. | .disarm ..
  | .stop .. | .resume .. | .read .. | .write .. | .hold .. | .unhold .. | .trace .. | .dump .. | .monset .. => true
  | _ => false
/-- Messages of another device, under a domain's link secret (R269, R270): its memory requests, its channel flits, and its completions of
what it was asked for, which name the core by 4,096 more. -/
def peerMsg : Instr → Bool
  | .peerMemoryRequest _ | .recordMessageArrival _ | .inboxMessageArrival .. | .ringSlotOffer _ | .leaveNotice .. | .arrivalNotice ..
  | .closureMarkerArrival .. | .loadResponse .. | .atomicResponse .. => true
  | _ => false
def isPost : Instr → Bool
  | .tokenPost _ => true
  | _ => false
/-- A record of this device belongs to a domain. -/
def State.recOf (s : State) (d : BitVec 11) (k : Nat) : Bool := (s.recAt k).any fun r => r.domain == d
/-- The operation that a completion answers was asked of a device, by a core of a domain. -/
def State.askedOf (s : State) (d : BitVec 11) (device : BitVec 12) (core : Nat) (who : MemOp → Bool) : Bool :=
  let c := s.coreAt (answerCore core).1
  (answerCore core).2 && c.dom == d && (c.flight ++ c.storeq).any fun o => who o && o.asked && match o.place with
    | .peer e _ => e == device
    | .hbm _ | .host .. => false
/-- A message of a device is about that device and about records and cores of the packet's domain (R269). -/
def State.peerMay (s : State) (d : BitVec 11) (device : BitVec 12) : Instr → Bool
  | .peerMemoryRequest r => r.domain == d && r.device == device
  | .recordMessageArrival m =>
    if m.device = s.lodge.deviceId then s.recOf d m.record
    else m.forwarded && m.device == device && s.cores.any fun c => c.2.dom == d && c.2.sendq.any fun x =>
      x.forwarded && x.device == m.device && x.record == m.record && x.seq == m.seq
  | .inboxMessageArrival core m =>
    if core < Config.coreCount then m.device == device && (s.coreAt core).dom == d
    else farLoc core == some device && m.device == s.lodge.deviceId && s.recOf d m.record
  | .ringSlotOffer k => decide (farOffer ≤ k) && (s.recAt (k % farOffer)).any fun r => r.domain == d && (Tab.find r.rlocs 0).bind farLoc == some device
  | .leaveNotice k _ _ _ core m => farLoc core == some device && m.isNone && s.recOf d k
  | .arrivalNotice k _ at_ _ => farLoc at_.core == some device && s.recOf d k
  | .closureMarkerArrival k what => s.recOf d k && match what with
    | .marker _ => true
    | .receiver e _ => e == device
  | .loadResponse core ctx => s.askedOf d device core fun o => o.isLoadOf ctx
  | .atomicResponse core _ id | .kioskRefusal core _ id _ => s.askedOf d device core fun o => o.id == id
  | _ => false
/-- What a host sends that holds bytes of a domain comes under that domain's link secret (R274, R343). -/
def State.hostMay (s : State) (p : Packet) (cxl : Bool) (d : BitVec 11) : Instr → Bool
  | .hostMemoryRequest r => r.cxl == cxl && r.source == p.source && s.reqDomain r (if r.write then r.data.length else r.len) == some d
  | .backInvalidateAnswer line (some _) => cxl && s.hostHeld.contains (line.toNat, d)
  | _ => false
/-- A message may travel in a packet: of those under the device secret a CXL port carries token posts only (R267). -/
def State.mayCarry (s : State) (p : Packet) (cxl : Bool) (i : Instr) : Bool :=
  match p.domain with
  | none => if cxl then isPost i else lodgeMsg i
  | some d => s.hostMay p cxl d i || (!cxl && s.peerMay d (p.source.extractLsb' 4 12) i)
/-- A message of a peer's core for a record here says where it is to be answered (R270). -/
def fromPeer (device : BitVec 12) (i : Instr) : Instr :=
  match i with
  | .recordMessageArrival m =>
    if m.forwarded then i
    else .recordMessageArrival { m with ack := some { gang := 0, core := Config.coreCount + device.toNat, ctx := 0, q := 0, sb := 0, issued := 0, after := [] } }
  | _ => i
/-- The link secret that a packet is protected under, where there is one. -/
def State.linkSecret (s : State) (p : Packet) : Option (BitVec 384) :=
  match p.domain with
  | none => (Tab.get Port.init s.ports p.port.toNat).secret
  | some d => if (s.domainAt d).live then some (s.domainAt d).secret else none
/-- A packet is accepted, and its message is performed; or it is dropped and counted, and the link replays it (R270). -/
def execLinkPacketReceive (p : Packet) (s : State) : Host.Outcome State Fault Refusal :=
  match s.linkSecret p with
  | none => .next { s with integrity := s.integrity + 1 }
  | some secret =>
    let q := (s.link p.source p.domain).accept secret p
    let t := s.putLink q.2
    if !q.1 then .next { t with integrity := t.integrity + 1 }
    else match Config.carried p.data with
      | some i =>
        .next (if t.mayCarry p (Tab.get Port.init s.ports p.port.toNat).cxl i then t.now (fromPeer (p.source.extractLsb' 4 12) i) else t)
      | none => .next t
/-- The Lodge moves a source to its next generation (R368): one of the device's own, or another's as the device receives it. -/
def execLinkKeyRollover (source : BitVec 16) (domain : Option (BitVec 11)) (s : State) : Host.Outcome State Fault Refusal :=
  if domain.any fun d => !(s.domainAt d).live then .next s
  else if source.extractLsb' 4 12 = s.lodge.deviceId then
    let x := s.tx source domain
    .next (s.putTx { x with gen := x.gen + 1, number := 0 })
  else
    let l := s.link source domain
    .next (s.putLink { l with gen := l.gen + 1, lastPrev := l.last, last := none, newCount := 0 })

/-- Whether a message from outside can arrive (R267): its port is up in the mode that carries it, and what travels protected comes in
a packet: messages of peers, for the Lodge and its like, and the bytes of a domain that an owner writes or answers (R343). -/
def State.arrives (s : State) : Instr → Bool
  | .hostMemoryRequest r => s.linkUp (hostPort (r.source.setWidth 12)) r.cxl && !(r.write && s.isOwner r.source)
  | .hostCxlIoRequest host .. => s.linkUp (hostPort (host.setWidth 12)) true
  | .hostSnoop _ host .. => s.linkUp (hostPort host) true
  | .backInvalidateAnswer _ data => data.isNone
  | .linkPacketReceive p => (Tab.get Port.init s.ports p.port.toNat).up
  -- an error completion of a host
  | .kioskRefusal core _ id _ => ((s.coreAt core).flight ++ (s.coreAt core).storeq).any fun o => o.id == id && match o.place with
    | .host .. => true
    | .hbm _ | .peer .. => false
  | i => !(lodgeMsg i || peerMsg i)

end Sys2Proof.Machine
end

