-- ==== Sys2Proof/Machine/Boot.lean ====
section
/-! DEFINITION. Power-up, measured boot, memory training and link training (R372 to R384), LINK_LOSS and CONTROL_REGISTER_WRITE
(R6, R363). Times are wall-clock: which bound a step misses is a free choice or comes from outside. -/

namespace Sys2Proof.Machine

/-- A boot that has halted runs no stage, and every die but the Lodge's, I/O die 0, is held in reset: the controllers of the compute dies
and the ports of I/O die 1 (R384). -/
def State.halt (s : State) (code : BitVec 8) : State :=
  ({ s with mcs := [], ports := s.ports.filter fun p => decide (p.1 < 9) } : State).updLodge fun l => { l with boot := .halted code }
def State.bootAt (s : State) (n : Nat) : State := s.updLodge fun l => { l with boot := .step n }
/-- The Lodge's firmware runs and the rails of its dies are up: it can write control registers. -/
def State.controls (s : State) : Bool :=
  match s.lodge.boot with
  | .step n => decide (7 ≤ n)
  | .ready => true
  | .halted _ => false

/-! ## Memory controllers (R380, R381) -/

def State.mcAt (s : State) (j : Nat) : Mc := Tab.get Mc.init s.mcs j
def State.updMc (s : State) (j : Nat) (f : Mc → Mc) : State := { s with mcs := Tab.put s.mcs j (f (s.mcAt j)) }
/-- A write of a code to `MCCMD`: the step starts, and ends at some later time in some way. -/
def State.mcStart (s : State) (j code : Nat) : State :=
  if !s.controls || (s.mcAt j).busy then s
  else
    let t := s.updMc j fun m => { m with cmd := BitVec.ofNat 4 code, busy := true, step := BitVec.ofNat 4 code }
    let k := t.fresh
    ({ t with fresh := k + 3 } : State).later
      (.mcStepDone (BitVec.ofNat 4 j) (Config.freeBit k) ((Config.freeWord (k + 1)).setWidth 8) ((Config.freeWord (k + 2)).setWidth 8))
def onMc (j : BitVec 4) (s : State) (code : Nat) : Host.Outcome State Fault Refusal :=
  if 12 ≤ j.toNat then .fault .noSuchUnit else .next (s.mcStart j.toNat code)

def execMcPhyResetRelease (mc : BitVec 4) (s : State) : Host.Outcome State Fault Refusal := onMc mc s 1
def execMcImpedanceCalibration (mc : BitVec 4) (s : State) : Host.Outcome State Fault Refusal := onMc mc s 2
def execMcCommandAddressTraining (mc : BitVec 4) (s : State) : Host.Outcome State Fault Refusal := onMc mc s 3
def execMcReadTraining (mc : BitVec 4) (s : State) : Host.Outcome State Fault Refusal := onMc mc s 4
def execMcWriteTraining (mc : BitVec 4) (s : State) : Host.Outcome State Fault Refusal := onMc mc s 5
def execMcLaneRepair (mc : BitVec 4) (s : State) : Host.Outcome State Fault Refusal := onMc mc s 6
def execMcInitialise (mc : BitVec 4) (s : State) : Host.Outcome State Fault Refusal := onMc mc s 7
def execMcEnable (mc : BitVec 4) (s : State) : Host.Outcome State Fault Refusal := onMc mc s 8

/-- Every line of a stack is written as zero, under no domain's key. -/
def State.clearStack (s : State) (j : Nat) : State :=
  let out := fun (a : Nat) => a / Config.stackBytes != j
  { s with mem := { bytes := s.mem.bytes.filter fun b => out b.1, tags := s.mem.tags.filter fun b => out (16 * b.1),
                    seals := s.mem.seals.filter fun b => out b.1, lines := s.mem.lines.filter fun b => out (64 * b.1),
                    lost := s.mem.lost.filter fun b => out b.1 } }

/-! ## Ports (R382, R383) -/

def State.portAt (s : State) (p : Nat) : Port := Tab.get Port.init s.ports p
def State.updPort (s : State) (p : Nat) (f : Port → Port) : State := { s with ports := Tab.put s.ports p (f (s.portAt p)) }
/-- A write of a code from 1 to 6 to `PCMD`; the cxl bit counts with the first code 1 since a code 15. -/
def State.portStart (s : State) (p code : Nat) (cxl : Bool) : State :=
  if !s.controls || (s.portAt p).busy then s
  else
    let first := fun (x : Port) => decide (code = 1) && !x.modeSet
    let t := s.updPort p fun x =>
      { x with cmd := BitVec.ofNat 4 code, busy := true, cxl := if first x then cxl else x.cxl, modeSet := x.modeSet || first x }
    let k := t.fresh
    ({ t with fresh := k + 2 } : State).later (.portStepDone (BitVec.ofNat 5 p) (Config.freeBit k) ((Config.freeWord (k + 1)).setWidth 8))
/-- Code 15: the port is down, busy or not. -/
def State.portDrop (s : State) (p : Nat) (fail : Bool) : State :=
  s.updPort p fun x =>
    { x with cmd := 15, busy := false, fail := fail, width := 0, up := false, modeSet := false, peer := none, secret := none }
def onPort (p : BitVec 5) (s : State) (f : State → State) : Host.Outcome State Fault Refusal :=
  if 18 ≤ p.toNat then .fault .noSuchUnit else .next (f s)

/-- Ports that the configuration blob enables. -/
def State.portOn (s : State) (p : Nat) : Bool := s.lodge.blob.any fun b => b.portMask.getLsbD p
/-- Step 8 ends when every enabled port is up or down for good; step 9 sets READY. -/
def State.checkPorts (s : State) : State :=
  if s.lodge.boot = .step 8 ∧ ((List.range 18).all fun p => !s.portOn p || (s.portAt p).up || (s.portAt p).cmd == 15) = true then
    s.updLodge fun l => { l with boot := .ready }
  else s
/-- Step 8: the enabled ports are trained in parallel. -/
def State.trainPorts (s : State) : State :=
  ((List.range 18).foldl (fun t p =>
    if t.portOn p then t.portStart p 1 (t.lodge.blob.any fun b => b.portCxl.getLsbD p) else t) (s.bootAt 8)).checkPorts

def execPortSerdesResetRelease (port : BitVec 5) (cxl : Bool) (s : State) : Host.Outcome State Fault Refusal :=
  onPort port s fun s => s.portStart port.toNat 1 cxl
def execPortReceiverDetect (port : BitVec 5) (s : State) : Host.Outcome State Fault Refusal := onPort port s fun s => s.portStart port.toNat 2 false
def execPortEqualise (port : BitVec 5) (s : State) : Host.Outcome State Fault Refusal := onPort port s fun s => s.portStart port.toNat 3 false
def execPortDeskewFlitLock (port : BitVec 5) (s : State) : Host.Outcome State Fault Refusal := onPort port s fun s => s.portStart port.toNat 4 false
def execPortKeyExchange (port : BitVec 5) (s : State) : Host.Outcome State Fault Refusal := onPort port s fun s => s.portStart port.toNat 5 false
def execPortUp (port : BitVec 5) (s : State) : Host.Outcome State Fault Refusal := onPort port s fun s => s.portStart port.toNat 6 false
def execPortDown (port : BitVec 5) (s : State) : Host.Outcome State Fault Refusal :=
  onPort port s fun s => if s.controls then (s.portDrop port.toNat (s.portAt port.toNat).fail).checkPorts else s

/-- The width after equalisation: x8, x4 on lanes 0 to 3 or on lanes 4 to 7, or none. -/
def widthOf (lanes : BitVec 8) : BitVec 2 :=
  if lanes = 0xFF then 2 else if lanes &&& 0x0F = 0x0F ∨ lanes &&& 0xF0 = 0xF0 then 1 else 0
/-- The Lodge trains a port: at boot, and after a loss. -/
def State.training (s : State) (p : Nat) : Bool := s.portOn p && !(s.portAt p).up && (s.lodge.boot == .step 8 || s.lodge.boot == .ready)

/-- What waited for a port leaves, as far as its mode carries it (R267, R270). -/
def State.flush (s : State) (p : Nat) : State :=
  let go := fun (x : Nat × Out) => x.1 == p && (s.portAt p).carries x.2
  { s with waiting := s.waiting.filter fun x => !go x, out := ((s.waiting.filter go).map fun x => x.2).reverse ++ s.out }
/-- PORT_STEP_DONE, and what the Lodge writes next. -/
def execPortStepDone (port : BitVec 5) (fail : Bool) (lanes : BitVec 8) (s : State) : Host.Outcome State Fault Refusal :=
  onPort port s fun s =>
    let p := port.toNat
    let x := s.portAt p
    if !x.busy then s
    else
      let code := x.cmd.toNat
      -- the peer's device id, and the secret that the two Lodges establish
      let k := s.fresh
      let t := ({ s with fresh := k + 2 } : State).updPort p fun x =>
        { x with busy := false, fail := fail, lanes := if code = 3 then lanes else x.lanes, width := if code = 3 then widthOf lanes else x.width,
                 peer := if code ≠ 5 then x.peer else if fail then none else some ((Config.freeWord k).setWidth 12),
                 secret := if code ≠ 5 then x.secret else if fail then none else some (Config.portSecret (k + 1)),
                 up := if code = 6 then !fail else x.up }
      let t := t.flush p
      if !t.training p then t.checkPorts
      else if fail || (code == 3 && widthOf lanes == 0) then (t.portDrop p fail).checkPorts
      else if 1 ≤ code ∧ code ≤ 5 then t.portStart p (code + 1) false
      else t.checkPorts
/-- A port still busy at the end of step 8 is left down. -/
def execPortTrainingTimeout (port : BitVec 5) (s : State) : Host.Outcome State Fault Refusal :=
  onPort port s fun s => if s.lodge.boot = .step 8 ∧ (s.portAt port.toNat).busy = true then (s.portDrop port.toNat true).checkPorts else s
/-- LINK_LOSS: a port that goes down after READY is trained again. -/
def execLinkLoss (port : BitVec 5) (s : State) : Host.Outcome State Fault Refusal :=
  onPort port s fun s =>
    let p := port.toNat
    if !s.booted || !(s.portAt p).up then s
    else
      let cxl := (s.portAt p).cxl
      (s.updPort p fun x => { x with up := false, width := 0 }).portStart p 1 cxl

/-! ## MC_STEP_DONE: the Lodge's training sequence (R381, R384) -/

/-- What the Lodge does after a step of a controller, at boot step 7. -/
def State.mcNext (s : State) (j : Nat) (fail : Bool) : State :=
  let m := s.mcAt j
  let code := m.step.toNat
  let next := fun (n : Nat) => s.mcStart j n
  match code, fail with
  | 1, true | 2, true => s.halt 0x21
  | 3, true => s.halt 0x22
  | 4, true | 5, true =>
    if m.retried.contains code then s.halt 0x25
    else (s.updMc j fun m => { m with retried := code :: m.retried, again := code }).mcStart j 6
  | 7, true | 8, true => s.halt 0x24
  | 6, _ =>
    if fail && m.spares == 0 then s.halt 0x23
    else if m.again = 0 then next 7
    else (s.updMc j fun m => { m with again := 0 }).mcStart j m.again
  | 8, false => if (List.range 12).all fun i => (s.mcAt i).enabled then s.trainPorts else s
  | n, _ => if n = 0 then s else next (n + 1)

def execMcStepDone (mc : BitVec 4) (fail : Bool) (lanes spares : BitVec 8) (s : State) : Host.Outcome State Fault Refusal :=
  let j := mc.toNat
  let m := s.mcAt j
  if 12 ≤ j then .fault .noSuchUnit
  else if !m.busy then .next s
  else
    let code := m.step.toNat
    let t := s.updMc j fun m =>
      { m with busy := false, fail := fail, repaired := if code = 6 then lanes else m.repaired, spares := if code = 6 then spares else m.spares,
               initialised := if code = 7 then !fail else m.initialised, enabled := if code = 8 then !fail else m.enabled }
    let t := if code = 7 ∧ fail = false then t.clearStack j else t
    .next (if t.lodge.boot = .step 7 then t.mcNext j fail else t)

/-! ## POWER_UP (R372 to R377) -/

def extend (chain digest : BitVec 384) : BitVec 384 := Config.sha384 (bytes48 chain ++ bytes48 digest)
def State.measure (s : State) (digest : BitVec 384) (version : BitVec 32) : State :=
  s.updLodge fun l => { l with chain := extend l.chain digest, digests := l.digests ++ [digest], versions := l.versions ++ [version] }
/-- A field of an image's header (R373). -/
def imageField (i : StageImage) (off n : Nat) : Nat := Jas.num i.bytes off n
def imageVersion (i : StageImage) : BitVec 32 := BitVec.ofNat 32 (imageField i 8 4)
/-- The checks of R374 on an image: magic, kind, reserved bytes and size; both signatures are always verified. -/
def imageOk (i : StageImage) (kind : Nat) (rsa slh : List Byte) : Bool :=
  let a := Config.rsaOk rsa i.bytes i.rsaSig
  let b := Config.slhOk slh i.bytes i.slhSig
  imageField i 0 4 == 0x47535844 && imageField i 4 4 == kind && imageField i 32 32 == 0 && decide (1 ≤ imageField i 12 4) && decide (imageField i 12 4 ≤ 2 ^ 24) &&
    i.bytes.length == 64 + imageField i 12 4 && a && b
def State.measureImage (s : State) (i : StageImage) : State := s.measure (Config.sha384 i.bytes) (imageVersion i)

/-- The bound of the step now under way is missed, or not: a free choice. -/
def State.orMiss (s : State) (f : State → State) : State :=
  let t := { s with fresh := s.fresh + 1 }
  if Config.freeBit s.fresh then t.later .bootStepTimeout else f t

/-- Step 7: the twelve stacks are trained in parallel. -/
def State.trainStacks (s : State) : State := (List.range 12).foldl (fun t j => t.mcStart j 1) (s.bootAt 7)
/-- Step 6: the manager firmware, and the managers. -/
def State.boot6 (s : State) (f : Flash) : State :=
  (s.bootAt 6).orMiss fun s =>
    let t := s.measureImage f.manager
    if !(imageOk f.manager 2 Config.vendorRsa Config.vendorSlh) then t.halt 0x14
    else if !f.managersReady then t.later .bootStepTimeout
    else t.trainStacks
/-- Step 5: rails and PLLs. -/
def State.boot5 (s : State) (f : Flash) : State :=
  let t := s.bootAt 5
  if f.pllLocked then t.boot6 f else t.later .bootStepTimeout
/-- The fields of the blob whose body has been measured and verified, up to eight credentials among them (R376). -/
def blobOf (i : StageImage) : Blob :=
  let b := i.bytes.drop 64
  { deviceId := Config.blobDevice b, credentials := (Config.blobCredentials b).take 8, portMask := Config.blobPorts b,
    portCxl := Config.blobCxl b, refresh := Config.blobRefresh b }
/-- Step 4: the configuration blob, verified by the provisioning credential that the certificate names, then the Lodge firmware. -/
def State.boot4 (s : State) (f : Flash) : State :=
  (s.bootAt 4).orMiss fun s =>
    let t := s.measureImage f.blob
    if !(imageOk f.blob 3 (Config.certProvRsa f.certData) (Config.certProvSlh f.certData)) then t.halt 0x12
    else
      let b := blobOf f.blob
      (t.updLodge fun l => { l with blob := some b, deviceId := b.deviceId }).orMiss fun s =>
        let t := s.measureImage f.lodge
        if imageOk f.lodge 1 Config.vendorRsa Config.vendorSlh then t.boot5 f else t.halt 0x13
/-- Step 3: the identity keys, and the certificate, whose signatures cover the device id with both public keys (R377). -/
def State.boot3 (s : State) (f : Flash) : State :=
  (s.bootAt 3).orMiss fun s =>
    let t := (s.updLodge fun l => { l with seed := f.seed, identity := Config.sha384 f.certData, deviceId := Config.certDevice f.certData }).measure Config.romDigest 0
    let good := Config.rsaOk Config.enrolRsa f.certData f.certRsaSig && Config.slhOk Config.enrolSlh f.certData f.certSlhSig &&
      Config.certRsaPub f.certData == Config.rsaPub f.seed && Config.certSlhPub f.certData == Config.slhPub f.seed
    if good then t.boot4 f else t.halt 0x11

def execPowerUp (f : Flash) (s : State) : Host.Outcome State Fault Refusal :=
  if s.lodge.boot = .step 1 then .next (s.boot3 f) else .next s

/-- PACKAGE_RESET: the package is as at reset; what stands outside it is not. -/
def execPackageReset (s : State) : Host.Outcome State Fault Refusal :=
  .next { State.reset with
    inputs := s.inputs, fresh := s.fresh, ids := s.ids, out := s.out
    lodge := { Lodge.init with drbg := s.lodge.drbg, issued := s.lodge.issued } }

/-- BOOT_STEP_TIMEOUT (R384). -/
def execBootStepTimeout (s : State) : Host.Outcome State Fault Refusal :=
  match s.lodge.boot with
  | .step 3 => .next (s.halt 0x11)
  | .step 4 => .next (s.halt (if s.lodge.blob.isNone then 0x12 else 0x13))
  | .step 5 => .next (s.halt 0x15)
  | .step 6 => .next (s.halt 0x14)
  | .step 7 => .next (s.halt 0x26)
  | .step _ | .ready | .halted _ => .next s

/-! ## CONTROL_REGISTER_WRITE (R6, R7, R116, R363, R380, R382) -/

/-- A write to a controller's block: `MCCMD`, `MCSTAT` and the format windows; none at an offset with no register. The Lodge writes
a descriptor only on the owner's request, which is FORMAT_WINDOW_CHANGE (R119, R349); to any other agent it reads as RO (R6). -/
def State.mcWrite (s : State) (j off : Nat) (v : W64) : Option State :=
  if off = 0 then
    let code := v.toNat % 16
    -- code 0 starts no step and is held; 9 to 15 are ignored, and so is a write while busy
    some (if 1 ≤ code ∧ code ≤ 8 then s.mcStart j code
      else if code = 0 ∧ s.controls = true ∧ (s.mcAt j).busy = false then s.updMc j fun m => { m with cmd := 0 } else s)
  else if off = 8 then some s
  else if 0x400 ≤ off ∧ off < 0x600 ∧ off % 8 = 0 then some s
  else none
/-- A write to a port's block: `PCMD` and `PSTAT`. -/
def State.portWrite (s : State) (p off : Nat) (v : W64) : Option State :=
  if off = 0 then
    let code := v.toNat % 16
    if 1 ≤ code ∧ code ≤ 6 then some (s.portStart p code (v.getLsbD 5))
    else if code = 15 ∧ s.controls = true then some ((s.portDrop p (s.portAt p).fail).checkPorts)
    else some s
  else if off = 8 then some s
  else none
def execControlRegisterWrite (addr : BitVec 52) (v : BitVec 64) (s : State) : Host.Outcome State Fault Refusal :=
  let a := addr.toNat
  let off := a - Config.controlBase
  let r := if a < Config.controlBase then none
    else if off < 12 * 65536 then s.mcWrite (off / 65536) (off % 65536) v
    else if 0x1000000 ≤ off ∧ off < 0x1000000 + 18 * 65536 then s.portWrite ((off - 0x1000000) / 65536) (off % 65536) v
    else none
  match r with
  | some t => .next t
  | none => .refused .controlSpace

end Sys2Proof.Machine
end

