-- ==== Sys2Proof/Machine/Cap.lean ====
section
/-! DEFINITION. The CAP class (R354 to R358). -/

namespace Sys2Proof.Machine

/-- A capability of kind 1 or 2 with new fields: bits 127:120 kept (R350). -/
def capMake (b : W128) (count scale base cursor : Nat) : W128 :=
  b.extractLsb' 120 8 ++ BitVec.ofNat 34 count ++ BitVec.ofNat 2 scale ++ BitVec.ofNat 44 base ++ BitVec.ofNat 40 cursor

/-- A kind check of R354: the trap when `r` is not a tagged capability of an accepted kind. -/
def kindTrap (r : GReg) (ok : Nat → Bool) : Option Eff :=
  if !r.tag then some (.trap cCAPTAG 0)
  else if ok (capKind r.bits) then none
  else some (.trap cCAPTAG (BitVec.ofNat 64 (capKind r.bits)))

/-- A whole g register result, with the ENDLEAK check on `d` unless it is the moved end itself. -/
def writeCap (s : State) (d : BitVec 6) (same : Bool) (v : GReg) : Eff :=
  if s.leak d && !same then leakTrap d else .done (s.landAfter 1 (.g d v) 0)

/-- The smallest scale whose multiplier divides `len` with a 34-bit count (R355). -/
def pickScale (len : Nat) : Option (Nat × Nat) :=
  ([(0, 1), (1, 64), (2, 4096), (3, 262144)].find? fun p => len % p.2 == 0 && decide (len / p.2 < 2 ^ 34)).map
    fun p => (p.1, len / p.2)

def execCbound (c : Ctl) (d g : BitVec 6) (b : SrcZ) (s : State) : Host.Outcome State Fault Refusal :=
  issue c (fTo d) s fun s =>
    let r := s.gReg g
    match kindTrap r (fun k => k == 1 || k == 2) with
    | some e => e
    | none =>
      let len := (s.srcZ b).toNat
      let nb := capBase r.bits + capCursor r.bits
      if nb % 16 ≠ 0 then .trap cALIGN (BitVec.ofNat 64 nb)
      else if capLength r.bits < capCursor r.bits + len then .trap cCAPBND (BitVec.ofNat 64 nb)
      else
        match pickScale len with
        | none => .trap cCAPBND (BitVec.ofNat 64 len)
        | some (sc, n) => writeCap s d false { bits := capMake r.bits n sc (nb / 16) 0, tag := true, endst := 0 }

def execCderive (c : Ctl) (d g : BitVec 6) (b : SrcZ) (s : State) : Host.Outcome State Fault Refusal :=
  issue c (fTo d) s fun s =>
    let r := s.gReg g
    match kindTrap r (fun k => k == 1 || k == 2) with
    | some e => e
    | none =>
      let x : Int := (capCursor r.bits : Int) + (s.srcZ b).toInt
      if x < 0 ∨ 2 ^ 40 ≤ x then .trap cCAPBND (BitVec.ofInt 64 x)
      else writeCap s d false { bits := r.bits.extractLsb' 40 88 ++ BitVec.ofInt 40 x, tag := true, endst := 0 }

/-- CPERM's new bits, by kind (R356). -/
def permBits (b : W128) (mask : W64) : W128 :=
  let m := mask.setWidth 32
  match capKind b with
  | 5 =>
    let sv := b.extractLsb' 64 32 &&& m
    let b := b.extractLsb' 96 32 ++ sv ++ b.extractLsb' 0 64
    if sv = 0 then b &&& ~~~(1#128 <<< 124) else b
  | 3 | 4 => b &&& ~~~((~~~(m.setWidth 3)).setWidth 128 <<< 122)
  | _ => b &&& ~~~((~~~(m.setWidth 5)).setWidth 128 <<< 120)

/-- Moving or copying `r` from register `g` to `d` with new bits: a live end moves with its end-state word (R356, R358). -/
def moveCap (s : State) (d g : BitVec 6) (r : GReg) : Eff :=
  let live := (s.gReg g).isEnd
  if s.leak d && !(live && d == g) then leakTrap d
  else
    let t := if live && !(d == g) then s.landAfter 1 (.g g GReg.zero) 0 else s
    .done (t.landAfter 1 (.g d r) 0)

def execCperm (c : Ctl) (d g : BitVec 6) (b : SrcZ) (s : State) : Host.Outcome State Fault Refusal :=
  issue c (fTo d) s fun s =>
    let r := s.gReg g
    match kindTrap r (fun k => decide (1 ≤ k) && decide (k ≤ 5)) with
    | some e => e
    | none => moveCap s d g { r with bits := permBits r.bits (s.srcZ b) }

/-- The field CGET reads (R357). -/
def capField (r : GReg) (sl : BitVec 3) : W64 :=
  let b := r.bits
  let k := capKind b
  match sl.toNat with
  | 0 => BitVec.ofNat 64 ((if r.tag then 8 else 0) + k)
  | 6 => b.extractLsb' 0 64
  | 7 => b.extractLsb' 64 64
  | n =>
    if !r.tag then 0
    else if n = 1 then BitVec.ofNat 64 (bits b 124 120)
    else if k = 1 ∨ k = 2 then
      BitVec.ofNat 64 (if n = 2 then capBase b else if n = 3 then capLength b else if n = 4 then capCursor b else 0)
    else if k = 3 then
      BitVec.ofNat 64 (if n = 2 then bits b 95 76 else if n = 4 then bits b 74 59 else if n = 5 then bits b 120 110 else 0)
    else if k = 4 then
      BitVec.ofNat 64 (if n = 2 then 128 * bits b 93 53 else if n = 3 then bits b 109 94 else if n = 4 then 64 * bits b 52 11
        else bits b 120 110)
    else if k = 5 then
      BitVec.ofNat 64 (if n = 3 then bits b 95 64 else if n = 5 then bits b 120 110 else 0)
    else 0

def execCget (c : Ctl) (d g : BitVec 6) (sl : BitVec 3) (s : State) : Host.Outcome State Fault Refusal :=
  issue c (fTo d) s fun s => writeG s 1 d (capField (s.gReg g) sl) 0

def execCtest (c : Ctl) (qd : BitVec 3) (g : BitVec 6) (k : BitVec 3) (s : State) : Host.Outcome State Fault Refusal :=
  issue c fPlain s fun s =>
    let r := s.gReg g
    writeQ s 1 qd (if k = 0 then !r.tag else r.tag && capKind r.bits == k.toNat) 0

def execCnull (c : Ctl) (d : BitVec 6) (s : State) : Host.Outcome State Fault Refusal :=
  issue c (fTo d) s fun s => writeCap s d false GReg.zero

def execCmove (c : Ctl) (d g : BitVec 6) (s : State) : Host.Outcome State Fault Refusal :=
  issue c (fTo d) s fun s => if d = g then .done s else moveCap s d g (s.gReg g)

end Sys2Proof.Machine
end

