-- ==== Sys2Proof/Machine/Fetch.lean ====
section
/-! DEFINITION. What a core does in a cycle: the events of a word boundary in the order of R387, the instruction cache
and the fetch of a word (R47, R48, R129, R130), Tsunar Ixtin words (R69 to R72), the waits of the hint (R51, R54), the
words a stage upcall permits (R329); the passing of a cycle; and the placing of a word where the next step fetches it. -/

namespace Sys2Proof.Machine

/-! ## The instruction cache (R48, R130) -/

def lineBytes : Nat := 64

/-- The place of a line, where translation lets it be fetched. -/
def State.codePlace (s : State) (d : BitVec 11) (line : Nat) : Walk := s.translate d (line * lineBytes) lineBytes .fetch

def State.putILine (s : State) (n line : Nat) (p : Place) (b : List Byte) : State :=
  s.updCore n fun c => { c with icache := Tab.put c.icache line { place := p, bytes := b, since := [] },
                                ifills := c.ifills.filter fun l => l != line }

/-- ICACHE_FILL: a line that a context waits for arrives, as memory holds it now. Where translation refuses it by now, the
context's next attempt finds the refusal (R387). -/
def execIcacheFill (core line : Nat) (s : State) : Host.Outcome State Fault Refusal :=
  onCore core s fun s =>
    let c := s.coreAt core
    if !c.ifills.contains line then s
    else
      let s := s.walkReady c.dom (line * lineBytes)
      match s.codePlace c.dom line with
      | .bad _ => s.updCore core fun c => { c with ifills := c.ifills.filter fun l => l != line }
      | .ok p =>
        if s.hostHolds p then (s.askBack p).later (.icacheFill core line)
        else
          let r := s.readPlace (s.keyOf c.dom) p lineBytes
          r.2.putILine core line p (natLE lineBytes r.1)

/-- A line that is there, as a fetch sees it: as it stood in memory at some moment between its fill and now (R48); which moment
is free. A host's or peer's line may also be as it is there now, or hold what the host or the peer had there for a while, which nothing
here tells: any bytes. -/
def State.iline (s : State) (n : Nat) (l : ILine) : List Byte × State :=
  let seen := ((l.bytes :: l.since)[Config.freeDelay s.fresh % (l.since.length + 1)]?).getD l.bytes
  match l.place with
  | .hbm _ => if l.since.isEmpty then (l.bytes, s) else (seen, { s with fresh := s.fresh + 1 })
  | .peer .. | .host .. =>
    let t := { s with fresh := s.fresh + 4 }
    if Config.freeBit (s.fresh + 1) then (seen, t)
    else if Config.freeBit (s.fresh + 2) then (natLE lineBytes (Config.freeLine (s.fresh + 3)).toNat, t)
    else
      let r := t.readPlace (t.keyOf (t.coreAt n).dom) l.place lineBytes
      (natLE lineBytes r.1, r.2)

/-! ## Fetching a word -/

/-- What a fetch answers. -/
inductive Fetch where
  /-- The fetch fails: cause, `tval`, `tip`. -/
  | bad (cause : BitVec 8) (val ip : W64)
  /-- A line is not there yet: the issue is held (R130). -/
  | miss (s : State)
  /-- The 96-bit word. -/
  | word (w : BitVec 96) (ixtin : Bool) (s : State)

/-- One line of the word at `pc`: the line, or the failing cause, or a fill. Every use of a page is translated (R364), and a line of
another place is filled afresh. -/
def State.wantLine (s : State) (n line : Nat) (pc : W64) : Fetch ⊕ (List Byte × State) :=
  let c := s.coreAt n
  let s := s.walkReady c.dom (line * lineBytes)
  match s.codePlace c.dom line with
  | .bad cause =>
    let v := if line * lineBytes / 65536 = pc.toNat / 65536 then pc else BitVec.ofNat 64 (line * lineBytes)
    .inl (.bad cause v pc)
  | .ok p =>
    let fill :=
      if c.ifills.contains line then .inl (.miss s)
      else .inl (.miss ((s.updCore n fun c => { c with ifills := line :: c.ifills }).later (.icacheFill n line)))
    match Tab.find c.icache line with
    | some l => if l.place = p then .inr (s.iline n l) else fill
    | none => fill

/-- The bytes of the word at `pc`, of `len` bytes, from its one or two lines (R47). -/
def State.fetchBytes (s : State) (n : Nat) (pc : W64) (len : Nat) : Fetch ⊕ (List Byte × State) :=
  let a := pc.toNat
  let l1 := a / lineBytes
  let l2 := (a + len - 1) / lineBytes
  match s.wantLine n l1 pc with
  | .inl f => .inl f
  | .inr (x, t) =>
    let first := (x.drop (a % lineBytes)).take len
    if l2 = l1 then .inr (first, t)
    else match t.wantLine n l2 pc with
      | .inl f => .inl f
      | .inr (y, u) => .inr (first ++ y.take (len - first.length), u)

/-- The fetch of the word at a context's pc: ALIGN (R129, R69), translation, the lines, and the translation of an Ixtin
word with its TRANSREF (R72). -/
def State.fetchWord (s : State) (n : Nat) (x : Ctx) : Fetch :=
  let pc := x.pc
  let ixtin := s.isIxtin n pc.toNat
  let len := if ixtin then 8 else 12
  if pc.toNat % (if ixtin then 8 else 4) ≠ 0 then .bad cALIGN pc (x.branch.getD pc)
  else match s.fetchBytes n pc len with
    | .inl f => f
    | .inr (b, t) =>
      if ixtin then
        let w : BitVec 64 := BitVec.ofNat 64 (leNat b)
        match translateIxtin w with
        | none => .bad cTRANSREF w pc
        | some m => .word m true t
      else .word (BitVec.ofNat 96 (leNat b)) false t

/-! ## The words of a stage upcall (R329) -/

/-- NOP, RDS and WRS of SYS; BR; IALU; IMUL; IBIT; IMM; CMP; FPU; LMEM; CAP; SRET and KEYR; MARK. -/
def upcallAllows (cls minor : Nat) : Bool :=
  match minorForm cls minor with
  | none | some none => false
  | some (some _) =>
    if cls = 0x00 then minor == 0 || minor == 3 || minor == 4
    else if cls = 0x33 then minor == 0 || minor == 1
    else if cls = 0x38 then minor == 1
    else decide (1 ≤ cls ∧ cls ≤ 9)

/-! ## One cycle of a core -/

/-- What a core does in a cycle. -/
inductive Act where
  /-- Nothing issues: a hold, a trap, or no context is ready. -/
  | next (s : State)
  /-- The decoded instruction is carried out. -/
  | run (i : Instr) (s : State)

/-- The scoreboard counters the hint waits for are 0 (R54); the hint of XCAST is a plan. -/
def waitsDone (f : Fields) (x : Ctx) : Bool :=
  (f.cls == 0x31 && f.minor == 2) ||
    (List.range 4).all fun j => !f.hint.getLsbD (4 + j) || x.sbAt (BitVec.ofNat 2 j) == 0

/-- The running context `k` of core `n`, whose fetched word is `w`: an upcall's permission, then checks 1 to 5 of R67. -/
def State.decodeAct (s : State) (n k : Nat) (w : BitVec 96) (ixtin : Bool) : Act :=
  let f := fieldsOf w
  let x := s.ctxAt n k
  if !waitsDone f x then .next s
  else if k = 1 ∧ (s.coreAt n).upcall.isSome ∧ !upcallAllows f.cls.toNat f.minor.toNat then
    .next (s.takeTrap n k { cause := cSTAGEF, val := f.cls.setWidth 64 } x.pc)
  else match decodeWord w with
    | .illegal _ => .next (s.takeTrap n k { cause := cILLEGAL, val := w.extractLsb' 32 64 } x.pc)
    | .ok i => .run i { s with core := n, ir := w, irIxtin := ixtin }

/-- Orders 2 to 5 of R387 for the running context; order 1 keeps a stopped context from running. -/
def State.ctxAct (s : State) (n k : Nat) : Act :=
  let x := s.ctxAt n k
  let counts := k != 0 && (s.domainAt (s.coreAt n).dom).holds.isEmpty
  if k ≠ 0 ∧ (s.coreAt n).wdog.toNat ≤ x.wd then .run (.watchdogExpiry n) s
  else
    let s := if counts then s.updCtx n k fun x => { x with wd := x.wd + 1 } else s
    match x.deferred with
    | some d => .next ((s.updCtx n k fun x => { x with deferred := none }).takeTrap n k { cause := d.1, val := d.2 } x.pc)
    | none =>
      let s := s.tryFence n k
      if s.cyc < x.notBefore ∨ (s.ctxAt n k).fence.isSome then .next s
      else match s.fetchWord n x with
        | .bad cause val ip => .next (s.takeTrap n k { cause := cause, val := val } ip)
        | .miss t => .next t
        | .word w ixtin t => t.decodeAct n k w ixtin

/-- The context that has the core in this cycle: the running one while it can issue, else the next ready one (R25). -/
def State.seat (s : State) (n : Nat) : State :=
  match (s.coreAt n).cur with
  | some k => if (s.coreAt n).isReady k then s else s.switch n
  | none => s.switch n
def State.coreAct (s : State) (n : Nat) : Act :=
  let t := s.seat n
  match (t.coreAt n).cur with
  | some k => t.ctxAct n k
  | none => .next t

/-! ## The passing of a cycle -/

/-- The wide issues an arbor makes in a cycle: up to two ready heads, scanning from the position after the last core it issued
from (R147). -/
def State.wideGrants (s : State) (a : Nat) : List Nat :=
  let last := (s.arborAt a).wideLast
  let order := (List.range 4).map fun i => 4 * a + (last + 1 + i) % 4
  (order.filter fun n => match (s.coreAt n).wq with
    | [] => false
    | e :: _ => s.headReady n e).take 2

/-- Arbors with a core whose dispatch queue holds something, ascending. -/
def State.wideArbors (s : State) : List Nat :=
  (s.cores.filterMap fun p => if p.2.wq.isEmpty then none else some (arborOf p.1)).eraseDups

/-- Every monitor that samples in this cycle (R417). -/
def State.samples (s : State) : List Instr :=
  if s.cyc % 64 = 0 then s.monitors.map fun p => .monitorSample p.1 else []

/-- Some counter of the domain counts an event (R370). -/
def Domain.counting (d : Domain) : Bool := d.record.extractLsb' 512 64 != 0

/-- The next cycle: results land, the calendar's events of this cycle are due, the wide units issue, the cycle counters count
(R370), and every bound core has its turn. -/
def State.advance (s : State) : State :=
  let t : State := { s with cyc := s.cyc + 1 }
  let t : State := { t with cores := t.cores.map fun p => (p.1, p.2.landDue t.cyc) }
  let t := t.settleHolds
  let at_ := t.calendar.filter fun e => decide (e.1 ≤ t.cyc)
  let t : State := { t with
    calendar := t.calendar.filter fun e => !decide (e.1 ≤ t.cyc)
    due := at_.reverse.map fun e => e.2 }
  let t := if t.domains.any fun p => p.2.counting then t.cores.foldl (fun t p => t.count p.1 1) t else t
  let wide := (t.wideArbors.flatMap t.wideGrants).map Instr.wideIssue
  { t with due := t.due ++ t.samples ++ wide
           todo := (t.cores.filter fun p => p.2.bound).map fun p => p.1 }

/-! ## A word where the next step fetches it -/

/-- Where the placed word lies, and the page tables of domain 0 that lead there: virtual page 1, physical page 16. -/
def placedVa : Nat := 0x10000
def placedPa : Nat := 0x100000
def placedTables : List (Nat × Nat) := [(0x110000, 0x120001), (0x120000, 0x130001), (0x130000 + 8, 0x100000 + 0x1F)]

/-- Bytes written for domain 0. -/
def State.placeBytes (s : State) (a n v : Nat) : State :=
  { s with mem := s.mem.writeAs (s.keyOf 0) a n v }

/-- A process of one role on core 0 for domain 0, its C about to issue the word at `placedVa`. -/
def State.placeWord (s : State) (w : Nat) : State :=
  let t := s.updDomain 0 fun d => { d with live := true, record := BitVec.ofNat 1024 (0x110000 * 2 ^ 64) }
  let t := placedTables.foldl (fun t e => t.placeBytes e.1 8 e.2) t
  let t := t.placeBytes placedPa 64 (w % 2 ^ 96)
  let h : Header :=
    { entry := BitVec.ofNat 64 placedVa, widBase := 0, seed := 0, parterres := 0, lstore := 0, lstoreSize := 0, lcnBase := 0,
      dlim := 0, roles := 1, planned := false, fuse := false, ixtin := false, stage := false, widths := [], xlen := 0, caps := 0,
      capCount := 0, saveCap := 0xFFFF, quads := 0, allot := 0, stageAddr := 0 }
  let g := newGang 0 0 none h s.ids [0]
  let t : State := { t with
    inputs := [], due := [], todo := [0], ids := t.ids + 1
    lodge := { t.lodge with boot := .ready }
    gangs := Tab.put t.gangs s.ids g }
  t.updCore 0 fun c =>
    { c with
      owner := BitVec.ofNat 64 (2 ^ 63), bound := true, cur := some 1
      icache := Tab.put c.icache (placedVa / lineBytes) { place := .hbm placedPa, bytes := natLE lineBytes (w % 2 ^ 96), since := [] }
      proc := { Proc.init with started := true, gang := s.ids }
      ctxs := [(0, { Ctx.init with pc := BitVec.ofNat 64 placedVa, run := .waiting .start }),
               (1, { Ctx.init with pc := BitVec.ofNat 64 placedVa, run := .ready })] }

end Sys2Proof.Machine
end

