-- ==== Sys2Proof/Machine/Fpu.lean ====
section
/-! DEFINITION. The FPU class (R137 to R140). -/

namespace Sys2Proof.Machine

/-- The arithmetic mould (R138): one rounding; SR takes one draw; the flags land with the result (R114). -/
def fpuArith (c : Ctl) (lat : Nat) (rm : Rm) (d : BitVec 6) (f : Mode → State → Nat × Flags) (s : State) :
    Host.Outcome State Fault Refusal :=
  issue c (fTo d) s fun s =>
    if s.leak d then leakTrap d
    else
      let m := s.scalarMode rm
      let r := f m.1 s
      .done (m.2.landAfter lat (.g d (GReg.data (BitVec.ofNat 64 r.1))) r.2)

def execFadd (c : Ctl) (f : FFmt) (rm : Rm) (d a b : BitVec 6) (s : State) : Host.Outcome State Fault Refusal :=
  fpuArith c 4 rm d (fun md s => fAdd (fmtOf f) md (fBits f (s.readG a)) (fBits f (s.readG b))) s
def execFsub (c : Ctl) (f : FFmt) (rm : Rm) (d a b : BitVec 6) (s : State) : Host.Outcome State Fault Refusal :=
  fpuArith c 4 rm d (fun md s => fSub (fmtOf f) md (fBits f (s.readG a)) (fBits f (s.readG b))) s
def execFmul (c : Ctl) (f : FFmt) (rm : Rm) (d a b : BitVec 6) (s : State) : Host.Outcome State Fault Refusal :=
  fpuArith c 4 rm d (fun md s => fMul (fmtOf f) md (fBits f (s.readG a)) (fBits f (s.readG b))) s
def execFfma (c : Ctl) (f : FFmt) (rm : Rm) (d a b e : BitVec 6) (s : State) : Host.Outcome State Fault Refusal :=
  fpuArith c 4 rm d (fun md s => fFma (fmtOf f) md (fBits f (s.readG a)) (fBits f (s.readG b)) (fBits f (s.readG e))) s
def execFdiv (c : Ctl) (f : FFmt) (rm : Rm) (d a b : BitVec 6) (s : State) : Host.Outcome State Fault Refusal :=
  fpuArith c 16 rm d (fun md s => fDiv (fmtOf f) md (fBits f (s.readG a)) (fBits f (s.readG b))) s
def execFsqrt (c : Ctl) (f : FFmt) (rm : Rm) (d a : BitVec 6) (s : State) : Host.Outcome State Fault Refusal :=
  fpuArith c 16 rm d (fun md s => fSqrt (fmtOf f) md (fBits f (s.readG a))) s

/-- The exact-result mould (R139). -/
def fpuExact (c : Ctl) (d : BitVec 6) (f : State → Nat × Flags) (s : State) : Host.Outcome State Fault Refusal :=
  issue c (fTo d) s fun s =>
    let r := f s
    writeG s 2 d (BitVec.ofNat 64 r.1) r.2

def execFmin (c : Ctl) (f : FFmt) (d a b : BitVec 6) (s : State) : Host.Outcome State Fault Refusal :=
  fpuExact c d (fun s => fMinMax (fmtOf f) false (fBits f (s.readG a)) (fBits f (s.readG b))) s
def execFmax (c : Ctl) (f : FFmt) (d a b : BitVec 6) (s : State) : Host.Outcome State Fault Refusal :=
  fpuExact c d (fun s => fMinMax (fmtOf f) true (fBits f (s.readG a)) (fBits f (s.readG b))) s
def execFcmp (c : Ctl) (f : FFmt) (r : FRel) (qd : BitVec 3) (a b : BitVec 6) (s : State) : Host.Outcome State Fault Refusal :=
  issue c fPlain s fun s =>
    let v := fCompare (fmtOf f) r (fBits f (s.readG a)) (fBits f (s.readG b))
    writeQ s 2 qd v.1 v.2
def execFclass (c : Ctl) (f : FFmt) (d a : BitVec 6) (s : State) : Host.Outcome State Fault Refusal :=
  fpuExact c d (fun s => (2 ^ fClassBit (fmtOf f) (fBits f (s.readG a)), 0)) s

/-- The new sign of FSGN. -/
def sgnOp (op : SgnOp) (a b : Bool) : Bool :=
  match op with
  | .cp => b
  | .neg => !b
  | .xor => a.xor b
def execFsgn (c : Ctl) (f : FFmt) (op : SgnOp) (d a b : BitVec 6) (s : State) : Host.Outcome State Fault Refusal :=
  fpuExact c d (fun s =>
    let x := fBits f (s.readG a)
    (flipSign (fmtOf f) x (sgnOp op (signOf (fmtOf f) x) (signOf (fmtOf f) (fBits f (s.readG b)))), 0)) s

def execFcvt (c : Ctl) (dst : NFmt) (rm : RmSat) (src : NFmt) (d a : BitVec 6) (s : State) : Host.Outcome State Fault Refusal :=
  issue c (fTo d) s fun s =>
    if s.leak d then leakTrap d
    else
      let m := s.scalarMode rm.rm
      let r := convert dst m.1 rm.sat src (nBits src (s.readG a))
      .done (m.2.landAfter 4 (.g d (GReg.data (extend64 dst r.1))) r.2)

end Sys2Proof.Machine
end

