-- ==== Sys2Proof/Machine/Lmem.lean ====
section
/-! DEFINITION. The LMEM class (R141 to R144). -/

namespace Sys2Proof.Machine

def execLdl (c : Ctl) (f : IFmt) (d w : BitVec 6) (off : SrcZ) (s : State) : Host.Outcome State Fault Refusal :=
  issue c (fTo d) s fun s =>
    let n := IFmt.width f / 8
    match lsAddr (s.gReg w) true false (s.offZ off) n n with
    | .bad cause val => .trap cause val
    | .at_ a =>
      if s.lsHeld s.core a n false then .hold
      else if s.leak d then leakTrap d
      else
        let r := s.lsRead s.core a n
        .done (r.2.landAfter 4 (.g d (GReg.data (extInt f (leNat r.1)))) 0)

def execStl (c : Ctl) (f : IFmt) (r w : BitVec 6) (off : SrcZ) (s : State) : Host.Outcome State Fault Refusal :=
  issue c fPlain s fun s =>
    let n := IFmt.width f / 8
    match lsAddr (s.gReg w) false true (s.offZ off) n n with
    | .bad cause val => .trap cause val
    | .at_ a =>
      if s.lsHeld s.core a n true then .hold
      else .done (s.lsWrite s.core a (natLE n (s.readG r).toNat))

end Sys2Proof.Machine
end

