-- ==== Sys2Proof/Machine/Scalar.lean ====
section
/-! DEFINITION. The scalar integer classes: BR (R126 to R129), IALU (R131), IMUL (R132), IBIT (R133, R134), IMM (R135)
and CMP (R136). -/

namespace Sys2Proof.Machine

/-! ## Control transfer (R126 to R128) -/

/-- The address of the word after the running context's word (R126). -/
def State.linkAddr (s : State) : W64 := s.nextPc s.core s.cx.pc
/-- PC plus a 32-bit offset. -/
def State.pcRel (s : State) (off : BitVec 32) : W64 := s.cx.pc + off.signExtend 64

/-- A branch through a register (R127). -/
def branchReg (s : State) (t : BitVec 6) : Eff :=
  match brTarget (s.gReg t) with
  | .to a => .jump s a
  | .bad cause val => .trap cause val
/-- A branch that writes a link (R126). -/
def callTo (s : State) (l : BitVec 6) (a : W64) : Eff :=
  if s.leak l then leakTrap l else .jump (s.landAfter 1 (.g l (GReg.data s.linkAddr)) 0) a

def execBra (c : Ctl) (off : BitVec 32) (s : State) : Host.Outcome State Fault Refusal :=
  issue c fPlain s fun s => .jump s (s.pcRel off)
def execBrx (c : Ctl) (t : BitVec 6) (s : State) : Host.Outcome State Fault Refusal :=
  issue c fPlain s fun s => branchReg s t
def execCallRelative (c : Ctl) (l : BitVec 6) (off : BitVec 32) (s : State) : Host.Outcome State Fault Refusal :=
  issue c (fTo l) s fun s => callTo s l (s.pcRel off)
def execCallRegister (c : Ctl) (l t : BitVec 6) (s : State) : Host.Outcome State Fault Refusal :=
  issue c (fTo l) s fun s =>
    match brTarget (s.gReg t) with
    | .to a => callTo s l a
    | .bad cause val => .trap cause val
def execRet (c : Ctl) (l : BitVec 6) (s : State) : Host.Outcome State Fault Refusal :=
  issue c fPlain s fun s => branchReg s l

/-- A variable-latency g result that lands in the next cycle, before the context's next issue (R128). -/
def State.landNext (s : State) (set : BitVec 2) (r : Result) : State :=
  let l : Landing := { due := s.cyc + 1, issued := s.cyc, ctx := s.k, res := r, flags := 0, sb := some set, late := true }
  s.updMe fun c => { c with land := c.land ++ [l] }

def execLoop (c : Ctl) (n : BitVec 6) (off : BitVec 32) (s : State) : Host.Outcome State Fault Refusal :=
  issue c { fLate with d := some n } s fun s =>
    if s.leak n then leakTrap n
    else
      let v := s.readG n - 1
      let t := s.landNext c.set (.g n (GReg.data v))
      if v = 0 then .done t else .jump t (s.pcRel off)

/-! ## Integer arithmetic and logic (R131, R132) -/

/-- The one form of IALU and IMUL: WriteG(d, f(ReadG(a), SrcZ())). -/
def alu (c : Ctl) (lat : Nat) (d a : BitVec 6) (b : SrcZ) (f : W64 → W64 → W64) (s : State) :
    Host.Outcome State Fault Refusal :=
  issue c (fTo d) s fun s => writeG s lat d (f (s.readG a) (s.srcZ b)) 0

/-- A shift count: bits 5:0. -/
def shiftCount (b : W64) : Nat := bits b 5 0

def execAdd (c : Ctl) (d a : BitVec 6) (b : SrcZ) (s : State) : Host.Outcome State Fault Refusal :=
  alu c 1 d a b (fun x y => x + y) s
def execSub (c : Ctl) (d a : BitVec 6) (b : SrcZ) (s : State) : Host.Outcome State Fault Refusal :=
  alu c 1 d a b (fun x y => x - y) s
def execAnd (c : Ctl) (d a : BitVec 6) (b : SrcZ) (s : State) : Host.Outcome State Fault Refusal :=
  alu c 1 d a b (fun x y => x &&& y) s
def execOr (c : Ctl) (d a : BitVec 6) (b : SrcZ) (s : State) : Host.Outcome State Fault Refusal :=
  alu c 1 d a b (fun x y => x ||| y) s
def execXor (c : Ctl) (d a : BitVec 6) (b : SrcZ) (s : State) : Host.Outcome State Fault Refusal :=
  alu c 1 d a b (fun x y => x ^^^ y) s
def execAndn (c : Ctl) (d a : BitVec 6) (b : SrcZ) (s : State) : Host.Outcome State Fault Refusal :=
  alu c 1 d a b (fun x y => x &&& ~~~y) s
def execShl (c : Ctl) (d a : BitVec 6) (b : SrcZ) (s : State) : Host.Outcome State Fault Refusal :=
  alu c 1 d a b (fun x y => x <<< shiftCount y) s
def execShr (c : Ctl) (d a : BitVec 6) (b : SrcZ) (s : State) : Host.Outcome State Fault Refusal :=
  alu c 1 d a b (fun x y => x >>> shiftCount y) s
def execSar (c : Ctl) (d a : BitVec 6) (b : SrcZ) (s : State) : Host.Outcome State Fault Refusal :=
  alu c 1 d a b (fun x y => x.sshiftRight (shiftCount y)) s
def execRot (c : Ctl) (d a : BitVec 6) (b : SrcZ) (s : State) : Host.Outcome State Fault Refusal :=
  alu c 1 d a b (fun x y => x.rotateLeft (shiftCount y)) s
def execMin (c : Ctl) (d a : BitVec 6) (b : SrcZ) (s : State) : Host.Outcome State Fault Refusal :=
  alu c 1 d a b (fun x y => if y.slt x then y else x) s
def execMax (c : Ctl) (d a : BitVec 6) (b : SrcZ) (s : State) : Host.Outcome State Fault Refusal :=
  alu c 1 d a b (fun x y => if x.slt y then y else x) s
def execMinn (c : Ctl) (d a : BitVec 6) (b : SrcZ) (s : State) : Host.Outcome State Fault Refusal :=
  alu c 1 d a b (fun x y => if y.ult x then y else x) s
def execMaxn (c : Ctl) (d a : BitVec 6) (b : SrcZ) (s : State) : Host.Outcome State Fault Refusal :=
  alu c 1 d a b (fun x y => if x.ult y then y else x) s

def execMul (c : Ctl) (d a : BitVec 6) (b : SrcZ) (s : State) : Host.Outcome State Fault Refusal :=
  alu c 3 d a b (fun x y => x * y) s
def execMulh (c : Ctl) (d a : BitVec 6) (b : SrcZ) (s : State) : Host.Outcome State Fault Refusal :=
  alu c 3 d a b (fun x y => BitVec.ofInt 64 (x.toInt * y.toInt / 2 ^ 64)) s
def execMulhn (c : Ctl) (d a : BitVec 6) (b : SrcZ) (s : State) : Host.Outcome State Fault Refusal :=
  alu c 3 d a b (fun x y => BitVec.ofNat 64 (x.toNat * y.toNat / 2 ^ 64)) s
def execDiv (c : Ctl) (d a : BitVec 6) (b : SrcZ) (s : State) : Host.Outcome State Fault Refusal :=
  alu c 16 d a b (fun x y => BitVec.ofInt 64 (divS 64 x.toInt y.toInt)) s
def execDivn (c : Ctl) (d a : BitVec 6) (b : SrcZ) (s : State) : Host.Outcome State Fault Refusal :=
  alu c 16 d a b (fun x y => BitVec.ofNat 64 (divU 64 x.toNat y.toNat)) s
def execRem (c : Ctl) (d a : BitVec 6) (b : SrcZ) (s : State) : Host.Outcome State Fault Refusal :=
  alu c 16 d a b (fun x y => BitVec.ofInt 64 (remS 64 x.toInt y.toInt)) s
def execRemn (c : Ctl) (d a : BitVec 6) (b : SrcZ) (s : State) : Host.Outcome State Fault Refusal :=
  alu c 16 d a b (fun x y => BitVec.ofNat 64 (remU x.toNat y.toNat)) s

/-! ## Bit fields and extension (R133, R134) -/

def bitOp (c : Ctl) (d a : BitVec 6) (f : W64 → W64) (s : State) : Host.Outcome State Fault Refusal :=
  issue c (fTo d) s fun s => writeG s 1 d (f (s.readG a)) 0

/-- Leading zeros, trailing zeros, ones. -/
def clz64 (x : W64) : Nat := if x = 0 then 64 else 63 - Nat.log2 x.toNat
def ctz64 (x : W64) : Nat := ((List.range 64).find? fun i => x.getLsbD i).getD 64
def popc64 (x : W64) : Nat := ((List.range 64).filter fun i => x.getLsbD i).length
/-- Bit i of the result is bit 63 - i of the operand. -/
def brev64 (x : W64) : W64 :=
  BitVec.ofNat 64 ((List.range 64).foldl (fun acc i => 2 * acc + (if x.getLsbD i then 1 else 0)) 0)

def execClz (c : Ctl) (d a : BitVec 6) (s : State) : Host.Outcome State Fault Refusal :=
  bitOp c d a (fun x => BitVec.ofNat 64 (clz64 x)) s
def execCtz (c : Ctl) (d a : BitVec 6) (s : State) : Host.Outcome State Fault Refusal :=
  bitOp c d a (fun x => BitVec.ofNat 64 (ctz64 x)) s
def execPopc (c : Ctl) (d a : BitVec 6) (s : State) : Host.Outcome State Fault Refusal :=
  bitOp c d a (fun x => BitVec.ofNat 64 (popc64 x)) s
def execBrev (c : Ctl) (d a : BitVec 6) (s : State) : Host.Outcome State Fault Refusal :=
  bitOp c d a brev64 s
def execExt (c : Ctl) (d : BitVec 6) (f : IFmt) (a : BitVec 6) (s : State) : Host.Outcome State Fault Refusal :=
  bitOp c d a (fun x => extInt f (x.toNat % 2 ^ IFmt.width f)) s

/-- Position and length of a field: p[5:0], and n[6:0] taken as at most 64. -/
def fieldPos (p : W64) : Nat := bits p 5 0
def fieldLen (n : W64) : Nat := min 64 (bits n 6 0)
/-- BFX: the field of `a` extended above bit 63 by zeros. -/
def bfx (a p n : W64) : W64 := BitVec.ofNat 64 (a.toNat / 2 ^ fieldPos p % 2 ^ fieldLen n)
/-- BFXS: the field of `a` extended above bit 63 by its sign, sign-extended from its top bit. -/
def bfxs (a p n : W64) : W64 :=
  if fieldLen n = 0 then 0
  else
    let f := (a.toInt / 2 ^ fieldPos p) % 2 ^ fieldLen n
    BitVec.ofInt 64 (if f < 2 ^ (fieldLen n - 1) then f else f - 2 ^ fieldLen n)
/-- BFI: bits pos to pos + len - 1 of `old`, as far as they exist, from bit 0 of `a` up. -/
def bfi (old a p n : W64) : W64 :=
  let m : W64 := BitVec.ofNat 64 ((2 ^ fieldLen n - 1) * 2 ^ fieldPos p)
  (old &&& ~~~m) ||| ((a <<< fieldPos p) &&& m)

def execBfx (c : Ctl) (d a : BitVec 6) (p n : GI) (s : State) : Host.Outcome State Fault Refusal :=
  issue c (fTo d) s fun s => writeG s 1 d (bfx (s.readG a) (s.gi p) (s.gi n)) 0
def execBfxs (c : Ctl) (d a : BitVec 6) (p n : GI) (s : State) : Host.Outcome State Fault Refusal :=
  issue c (fTo d) s fun s => writeG s 1 d (bfxs (s.readG a) (s.gi p) (s.gi n)) 0
def execBfi (c : Ctl) (d a : BitVec 6) (p n : GI) (s : State) : Host.Outcome State Fault Refusal :=
  issue c (fTo d) s fun s => writeG s 1 d (bfi (s.readG d) (s.readG a) (s.gi p) (s.gi n)) 0

/-! ## Immediates (R135) -/

def execMovi (c : Ctl) (d : BitVec 6) (z : BitVec 32) (s : State) : Host.Outcome State Fault Refusal :=
  issue c (fTo d) s fun s => writeG s 1 d (z.signExtend 64) 0
def execMovh (c : Ctl) (d : BitVec 6) (z : BitVec 32) (s : State) : Host.Outcome State Fault Refusal :=
  issue c (fTo d) s fun s => writeG s 1 d (z ++ (s.readG d).setWidth 32) 0

/-! ## Comparison, selection and predicates (R136) -/

def execCmp (c : Ctl) (qd : BitVec 3) (r : Rel) (a : BitVec 6) (b : SrcZ) (s : State) : Host.Outcome State Fault Refusal :=
  issue c fPlain s fun s => writeQ s 1 qd (relHolds r (s.readG a) (s.srcZ b)) 0
def execSel (c : Ctl) (d : BitVec 6) (qs : BitVec 3) (a b : BitVec 6) (s : State) : Host.Outcome State Fault Refusal :=
  issue c (fTo d) s fun s => writeG s 1 d (if s.cx.pred qs then s.readG a else s.readG b) 0
def execPand (c : Ctl) (qd qa qb : BitVec 3) (s : State) : Host.Outcome State Fault Refusal :=
  issue c fPlain s fun s => writeQ s 1 qd (s.cx.pred qa && s.cx.pred qb) 0
def execPor (c : Ctl) (qd qa qb : BitVec 3) (s : State) : Host.Outcome State Fault Refusal :=
  issue c fPlain s fun s => writeQ s 1 qd (s.cx.pred qa || s.cx.pred qb) 0
def execPnot (c : Ctl) (qd qa : BitVec 3) (s : State) : Host.Outcome State Fault Refusal :=
  issue c fPlain s fun s => writeQ s 1 qd (!s.cx.pred qa) 0

end Sys2Proof.Machine
end

