-- ==== Sys2Proof/Machine/Dispatch.lean ====
section
/-! DEFINITION. The meaning of every instruction and step: one arm per constructor of Instr. -/

namespace Sys2Proof.Machine

def exec (i : Instr) (s : State) : Host.Outcome State Fault Refusal :=
  match i with
  | .nop v0 => Sys2Proof.Machine.execNop v0 s
  | .trap v0 v1 v2 => Sys2Proof.Machine.execTrap v0 v1 v2 s
  | .eretRetry v0 v1 v2 => Sys2Proof.Machine.execEretRetry v0 v1 v2 s
  | .eretSkip v0 v1 v2 => Sys2Proof.Machine.execEretSkip v0 v1 v2 s
  | .eretExit v0 v1 v2 => Sys2Proof.Machine.execEretExit v0 v1 v2 s
  | .rds v0 v1 v2 => Sys2Proof.Machine.execRds v0 v1 v2 s
  | .rdsContext v0 v1 v2 v3 => Sys2Proof.Machine.execRdsContext v0 v1 v2 v3 s
  | .wrs v0 v1 v2 => Sys2Proof.Machine.execWrs v0 v1 v2 s
  | .wrsContext v0 v1 v2 v3 => Sys2Proof.Machine.execWrsContext v0 v1 v2 v3 s
  | .retarm v0 v1 v2 => Sys2Proof.Machine.execRetarm v0 v1 v2 s
  | .scall v0 v1 v2 v3 v4 => Sys2Proof.Machine.execScall v0 v1 v2 v3 v4 s
  | .bra v0 v1 => Sys2Proof.Machine.execBra v0 v1 s
  | .brx v0 v1 => Sys2Proof.Machine.execBrx v0 v1 s
  | .callRelative v0 v1 v2 => Sys2Proof.Machine.execCallRelative v0 v1 v2 s
  | .callRegister v0 v1 v2 => Sys2Proof.Machine.execCallRegister v0 v1 v2 s
  | .ret v0 v1 => Sys2Proof.Machine.execRet v0 v1 s
  | .loop v0 v1 v2 => Sys2Proof.Machine.execLoop v0 v1 v2 s
  | .add v0 v1 v2 v3 => Sys2Proof.Machine.execAdd v0 v1 v2 v3 s
  | .sub v0 v1 v2 v3 => Sys2Proof.Machine.execSub v0 v1 v2 v3 s
  | .and v0 v1 v2 v3 => Sys2Proof.Machine.execAnd v0 v1 v2 v3 s
  | .or v0 v1 v2 v3 => Sys2Proof.Machine.execOr v0 v1 v2 v3 s
  | .xor v0 v1 v2 v3 => Sys2Proof.Machine.execXor v0 v1 v2 v3 s
  | .andn v0 v1 v2 v3 => Sys2Proof.Machine.execAndn v0 v1 v2 v3 s
  | .shl v0 v1 v2 v3 => Sys2Proof.Machine.execShl v0 v1 v2 v3 s
  | .shr v0 v1 v2 v3 => Sys2Proof.Machine.execShr v0 v1 v2 v3 s
  | .sar v0 v1 v2 v3 => Sys2Proof.Machine.execSar v0 v1 v2 v3 s
  | .rot v0 v1 v2 v3 => Sys2Proof.Machine.execRot v0 v1 v2 v3 s
  | .min v0 v1 v2 v3 => Sys2Proof.Machine.execMin v0 v1 v2 v3 s
  | .max v0 v1 v2 v3 => Sys2Proof.Machine.execMax v0 v1 v2 v3 s
  | .minn v0 v1 v2 v3 => Sys2Proof.Machine.execMinn v0 v1 v2 v3 s
  | .maxn v0 v1 v2 v3 => Sys2Proof.Machine.execMaxn v0 v1 v2 v3 s
  | .mul v0 v1 v2 v3 => Sys2Proof.Machine.execMul v0 v1 v2 v3 s
  | .mulh v0 v1 v2 v3 => Sys2Proof.Machine.execMulh v0 v1 v2 v3 s
  | .mulhn v0 v1 v2 v3 => Sys2Proof.Machine.execMulhn v0 v1 v2 v3 s
  | .div v0 v1 v2 v3 => Sys2Proof.Machine.execDiv v0 v1 v2 v3 s
  | .divn v0 v1 v2 v3 => Sys2Proof.Machine.execDivn v0 v1 v2 v3 s
  | .rem v0 v1 v2 v3 => Sys2Proof.Machine.execRem v0 v1 v2 v3 s
  | .remn v0 v1 v2 v3 => Sys2Proof.Machine.execRemn v0 v1 v2 v3 s
  | .clz v0 v1 v2 => Sys2Proof.Machine.execClz v0 v1 v2 s
  | .ctz v0 v1 v2 => Sys2Proof.Machine.execCtz v0 v1 v2 s
  | .popc v0 v1 v2 => Sys2Proof.Machine.execPopc v0 v1 v2 s
  | .bfx v0 v1 v2 v3 v4 => Sys2Proof.Machine.execBfx v0 v1 v2 v3 v4 s
  | .bfxs v0 v1 v2 v3 v4 => Sys2Proof.Machine.execBfxs v0 v1 v2 v3 v4 s
  | .bfi v0 v1 v2 v3 v4 => Sys2Proof.Machine.execBfi v0 v1 v2 v3 v4 s
  | .brev v0 v1 v2 => Sys2Proof.Machine.execBrev v0 v1 v2 s
  | .ext v0 v1 v2 v3 => Sys2Proof.Machine.execExt v0 v1 v2 v3 s
  | .movi v0 v1 v2 => Sys2Proof.Machine.execMovi v0 v1 v2 s
  | .movh v0 v1 v2 => Sys2Proof.Machine.execMovh v0 v1 v2 s
  | .cmp v0 v1 v2 v3 v4 => Sys2Proof.Machine.execCmp v0 v1 v2 v3 v4 s
  | .sel v0 v1 v2 v3 v4 => Sys2Proof.Machine.execSel v0 v1 v2 v3 v4 s
  | .pand v0 v1 v2 v3 => Sys2Proof.Machine.execPand v0 v1 v2 v3 s
  | .por v0 v1 v2 v3 => Sys2Proof.Machine.execPor v0 v1 v2 v3 s
  | .pnot v0 v1 v2 => Sys2Proof.Machine.execPnot v0 v1 v2 s
  | .fadd v0 v1 v2 v3 v4 v5 => Sys2Proof.Machine.execFadd v0 v1 v2 v3 v4 v5 s
  | .fsub v0 v1 v2 v3 v4 v5 => Sys2Proof.Machine.execFsub v0 v1 v2 v3 v4 v5 s
  | .fmul v0 v1 v2 v3 v4 v5 => Sys2Proof.Machine.execFmul v0 v1 v2 v3 v4 v5 s
  | .ffma v0 v1 v2 v3 v4 v5 v6 => Sys2Proof.Machine.execFfma v0 v1 v2 v3 v4 v5 v6 s
  | .fdiv v0 v1 v2 v3 v4 v5 => Sys2Proof.Machine.execFdiv v0 v1 v2 v3 v4 v5 s
  | .fsqrt v0 v1 v2 v3 v4 => Sys2Proof.Machine.execFsqrt v0 v1 v2 v3 v4 s
  | .fmin v0 v1 v2 v3 v4 => Sys2Proof.Machine.execFmin v0 v1 v2 v3 v4 s
  | .fmax v0 v1 v2 v3 v4 => Sys2Proof.Machine.execFmax v0 v1 v2 v3 v4 s
  | .fcmp v0 v1 v2 v3 v4 v5 => Sys2Proof.Machine.execFcmp v0 v1 v2 v3 v4 v5 s
  | .fclass v0 v1 v2 v3 => Sys2Proof.Machine.execFclass v0 v1 v2 v3 s
  | .fcvt v0 v1 v2 v3 v4 v5 => Sys2Proof.Machine.execFcvt v0 v1 v2 v3 v4 v5 s
  | .fsgn v0 v1 v2 v3 v4 v5 => Sys2Proof.Machine.execFsgn v0 v1 v2 v3 v4 v5 s
  | .ldl v0 v1 v2 v3 v4 => Sys2Proof.Machine.execLdl v0 v1 v2 v3 v4 s
  | .stl v0 v1 v2 v3 v4 => Sys2Proof.Machine.execStl v0 v1 v2 v3 v4 s
  | .cbound v0 v1 v2 v3 => Sys2Proof.Machine.execCbound v0 v1 v2 v3 s
  | .cperm v0 v1 v2 v3 => Sys2Proof.Machine.execCperm v0 v1 v2 v3 s
  | .cget v0 v1 v2 v3 => Sys2Proof.Machine.execCget v0 v1 v2 v3 s
  | .cderive v0 v1 v2 v3 => Sys2Proof.Machine.execCderive v0 v1 v2 v3 s
  | .ctest v0 v1 v2 v3 => Sys2Proof.Machine.execCtest v0 v1 v2 v3 s
  | .cnull v0 v1 => Sys2Proof.Machine.execCnull v0 v1 s
  | .cmove v0 v1 v2 => Sys2Proof.Machine.execCmove v0 v1 v2 s
  | .vadd v0 v1 v2 v3 v4 v5 v6 => Sys2Proof.Machine.execVadd v0 v1 v2 v3 v4 v5 v6 s
  | .vsub v0 v1 v2 v3 v4 v5 v6 => Sys2Proof.Machine.execVsub v0 v1 v2 v3 v4 v5 v6 s
  | .vmul v0 v1 v2 v3 v4 v5 v6 => Sys2Proof.Machine.execVmul v0 v1 v2 v3 v4 v5 v6 s
  | .vfma v0 v1 v2 v3 v4 v5 v6 v7 => Sys2Proof.Machine.execVfma v0 v1 v2 v3 v4 v5 v6 v7 s
  | .vmin v0 v1 v2 v3 v4 v5 => Sys2Proof.Machine.execVmin v0 v1 v2 v3 v4 v5 s
  | .vmax v0 v1 v2 v3 v4 v5 => Sys2Proof.Machine.execVmax v0 v1 v2 v3 v4 v5 s
  | .vabs v0 v1 v2 v3 v4 => Sys2Proof.Machine.execVabs v0 v1 v2 v3 v4 s
  | .vneg v0 v1 v2 v3 v4 => Sys2Proof.Machine.execVneg v0 v1 v2 v3 v4 s
  | .vrcp v0 v1 v2 v3 v4 v5 => Sys2Proof.Machine.execVrcp v0 v1 v2 v3 v4 v5 s
  | .vrsq v0 v1 v2 v3 v4 v5 => Sys2Proof.Machine.execVrsq v0 v1 v2 v3 v4 v5 s
  | .vexp2 v0 v1 v2 v3 v4 v5 => Sys2Proof.Machine.execVexp2 v0 v1 v2 v3 v4 v5 s
  | .vlog2 v0 v1 v2 v3 v4 v5 => Sys2Proof.Machine.execVlog2 v0 v1 v2 v3 v4 v5 s
  | .vdiv v0 v1 v2 v3 v4 v5 v6 => Sys2Proof.Machine.execVdiv v0 v1 v2 v3 v4 v5 v6 s
  | .viadd v0 v1 v2 v3 v4 v5 => Sys2Proof.Machine.execViadd v0 v1 v2 v3 v4 v5 s
  | .visub v0 v1 v2 v3 v4 v5 => Sys2Proof.Machine.execVisub v0 v1 v2 v3 v4 v5 s
  | .vimul v0 v1 v2 v3 v4 v5 => Sys2Proof.Machine.execVimul v0 v1 v2 v3 v4 v5 s
  | .vand v0 v1 v2 v3 v4 v5 => Sys2Proof.Machine.execVand v0 v1 v2 v3 v4 v5 s
  | .vor v0 v1 v2 v3 v4 v5 => Sys2Proof.Machine.execVor v0 v1 v2 v3 v4 v5 s
  | .vxor v0 v1 v2 v3 v4 v5 => Sys2Proof.Machine.execVxor v0 v1 v2 v3 v4 v5 s
  | .vshl v0 v1 v2 v3 v4 v5 => Sys2Proof.Machine.execVshl v0 v1 v2 v3 v4 v5 s
  | .vshr v0 v1 v2 v3 v4 v5 => Sys2Proof.Machine.execVshr v0 v1 v2 v3 v4 v5 s
  | .vsar v0 v1 v2 v3 v4 v5 => Sys2Proof.Machine.execVsar v0 v1 v2 v3 v4 v5 s
  | .vcmp v0 v1 v2 v3 v4 v5 => Sys2Proof.Machine.execVcmp v0 v1 v2 v3 v4 v5 s
  | .vsel v0 v1 v2 v3 v4 => Sys2Proof.Machine.execVsel v0 v1 v2 v3 v4 s
  | .mand v0 v1 v2 v3 => Sys2Proof.Machine.execMand v0 v1 v2 v3 s
  | .mor v0 v1 v2 v3 => Sys2Proof.Machine.execMor v0 v1 v2 v3 s
  | .mnot v0 v1 v2 => Sys2Proof.Machine.execMnot v0 v1 v2 s
  | .vperm v0 v1 v2 v3 v4 => Sys2Proof.Machine.execVperm v0 v1 v2 v3 v4 s
  | .vshuf v0 v1 v2 v3 v4 v5 => Sys2Proof.Machine.execVshuf v0 v1 v2 v3 v4 v5 s
  | .vbcast v0 v1 v2 v3 v4 => Sys2Proof.Machine.execVbcast v0 v1 v2 v3 v4 s
  | .vextr v0 v1 v2 v3 => Sys2Proof.Machine.execVextr v0 v1 v2 v3 s
  | .vins v0 v1 v2 v3 => Sys2Proof.Machine.execVins v0 v1 v2 v3 s
  | .vrsum v0 v1 v2 v3 v4 => Sys2Proof.Machine.execVrsum v0 v1 v2 v3 v4 s
  | .vrmax v0 v1 v2 v3 v4 => Sys2Proof.Machine.execVrmax v0 v1 v2 v3 v4 s
  | .vrmin v0 v1 v2 v3 v4 => Sys2Proof.Machine.execVrmin v0 v1 v2 v3 v4 s
  | .vcvt v0 v1 v2 v3 v4 v5 v6 => Sys2Proof.Machine.execVcvt v0 v1 v2 v3 v4 v5 v6 s
  | .vpxenc v0 v1 v2 v3 v4 v5 => Sys2Proof.Machine.execVpxenc v0 v1 v2 v3 v4 v5 s
  | .vpxdec v0 v1 v2 v3 v4 v5 => Sys2Proof.Machine.execVpxdec v0 v1 v2 v3 v4 v5 s
  | .vldlImmediate v0 v1 v2 v3 => Sys2Proof.Machine.execVldlImmediate v0 v1 v2 v3 s
  | .vldlRegister v0 v1 v2 v3 v4 => Sys2Proof.Machine.execVldlRegister v0 v1 v2 v3 v4 s
  | .vstlImmediate v0 v1 v2 v3 => Sys2Proof.Machine.execVstlImmediate v0 v1 v2 v3 s
  | .vstlRegister v0 v1 v2 v3 v4 => Sys2Proof.Machine.execVstlRegister v0 v1 v2 v3 v4 s
  | .vldx v0 v1 v2 v3 v4 => Sys2Proof.Machine.execVldx v0 v1 v2 v3 v4 s
  | .vstx v0 v1 v2 v3 v4 => Sys2Proof.Machine.execVstx v0 v1 v2 v3 v4 s
  | .allot v0 v1 => Sys2Proof.Machine.execAllot v0 v1 s
  | .shrink v0 v1 => Sys2Proof.Machine.execShrink v0 v1 s
  | .vmov v0 v1 v2 v3 => Sys2Proof.Machine.execVmov v0 v1 v2 v3 s
  | .mclaim v0 v1 v2 => Sys2Proof.Machine.execMclaim v0 v1 v2 s
  | .mrel v0 v1 => Sys2Proof.Machine.execMrel v0 v1 s
  | .mloadImmediate v0 v1 v2 v3 => Sys2Proof.Machine.execMloadImmediate v0 v1 v2 v3 s
  | .mloadRegister v0 v1 v2 v3 => Sys2Proof.Machine.execMloadRegister v0 v1 v2 v3 s
  | .mloadCompletion v0 v1 => Sys2Proof.Machine.execMloadCompletion v0 v1 s
  | .mcfg v0 v1 v2 => Sys2Proof.Machine.execMcfg v0 v1 v2 s
  | .mzero v0 v1 => Sys2Proof.Machine.execMzero v0 v1 s
  | .mgang v0 v1 v2 v3 v4 v5 => Sys2Proof.Machine.execMgang v0 v1 v2 v3 v4 v5 s
  | .matrixOperationStart v0 => Sys2Proof.Machine.execMatrixOperationStart v0 s
  | .matrixOperationCompletion v0 => Sys2Proof.Machine.execMatrixOperationCompletion v0 s
  | .mwait v0 v1 => Sys2Proof.Machine.execMwait v0 v1 s
  | .mrdacc v0 v1 v2 v3 => Sys2Proof.Machine.execMrdacc v0 v1 v2 v3 s
  | .mwracc v0 v1 v2 v3 => Sys2Proof.Machine.execMwracc v0 v1 v2 v3 s
  | .mstacc v0 v1 v2 v3 => Sys2Proof.Machine.execMstacc v0 v1 v2 v3 s
  | .wideIssue v0 => Sys2Proof.Machine.execWideIssue v0 s
  | .ld v0 v1 v2 v3 v4 v5 => Sys2Proof.Machine.execLd v0 v1 v2 v3 v4 v5 s
  | .st v0 v1 v2 v3 v4 v5 => Sys2Proof.Machine.execSt v0 v1 v2 v3 v4 v5 s
  | .pref v0 v1 v2 v3 => Sys2Proof.Machine.execPref v0 v1 v2 v3 s
  | .ldacq v0 v1 v2 v3 v4 v5 v6 => Sys2Proof.Machine.execLdacq v0 v1 v2 v3 v4 v5 v6 s
  | .strel v0 v1 v2 v3 v4 v5 v6 => Sys2Proof.Machine.execStrel v0 v1 v2 v3 v4 v5 v6 s
  | .loadResponse v0 v1 => Sys2Proof.Machine.execLoadResponse v0 v1 s
  | .postedWritePerform v0 v1 => Sys2Proof.Machine.execPostedWritePerform v0 v1 s
  | .fence v0 v1 => Sys2Proof.Machine.execFence v0 v1 s
  | .fenceRed v0 v1 => Sys2Proof.Machine.execFenceRed v0 v1 s
  | .fenceEng v0 => Sys2Proof.Machine.execFenceEng v0 s
  | .amo v0 v1 v2 v3 v4 v5 v6 v7 => Sys2Proof.Machine.execAmo v0 v1 v2 v3 v4 v5 v6 v7 s
  | .cas v0 v1 v2 v3 v4 v5 v6 => Sys2Proof.Machine.execCas v0 v1 v2 v3 v4 v5 v6 s
  | .red v0 v1 v2 v3 v4 v5 v6 => Sys2Proof.Machine.execRed v0 v1 v2 v3 v4 v5 v6 s
  | .kioskAtomicPerform v0 v1 v2 => Sys2Proof.Machine.execKioskAtomicPerform v0 v1 v2 s
  | .atomicResponse v0 v1 v2 => Sys2Proof.Machine.execAtomicResponse v0 v1 v2 s
  | .kioskRefusal v0 v1 v2 v3 => Sys2Proof.Machine.execKioskRefusal v0 v1 v2 v3 s
  | .remoteTimeout v0 v1 v2 => Sys2Proof.Machine.execRemoteTimeout v0 v1 v2 s
  | .swait v0 v1 v2 v3 v4 v5 v6 => Sys2Proof.Machine.execSwait v0 v1 v2 v3 v4 v5 v6 s
  | .fwait v0 v1 v2 v3 => Sys2Proof.Machine.execFwait v0 v1 v2 v3 s
  | .fset v0 v1 v2 v3 => Sys2Proof.Machine.execFset v0 v1 v2 v3 s
  | .fclr v0 v1 v2 => Sys2Proof.Machine.execFclr v0 v1 v2 s
  | .waitPoll v0 v1 => Sys2Proof.Machine.execWaitPoll v0 v1 s
  | .job v0 v1 v2 v3 v4 => Sys2Proof.Machine.execJob v0 v1 v2 v3 v4 s
  | .jwait v0 v1 v2 => Sys2Proof.Machine.execJwait v0 v1 v2 s
  | .cwwait v0 v1 v2 => Sys2Proof.Machine.execCwwait v0 v1 v2 s
  | .jstat v0 v1 v2 => Sys2Proof.Machine.execJstat v0 v1 v2 s
  | .jobBegin v0 => Sys2Proof.Machine.execJobBegin v0 s
  | .jobCompletion v0 => Sys2Proof.Machine.execJobCompletion v0 s
  | .chan v0 v1 v2 v3 => Sys2Proof.Machine.execChan v0 v1 v2 v3 s
  | .send v0 v1 v2 v3 v4 => Sys2Proof.Machine.execSend v0 v1 v2 v3 v4 s
  | .recv v0 v1 v2 v3 v4 => Sys2Proof.Machine.execRecv v0 v1 v2 v3 v4 s
  | .tryrecv v0 v1 v2 v3 v4 => Sys2Proof.Machine.execTryrecv v0 v1 v2 v3 v4 s
  | .select v0 v1 v2 v3 => Sys2Proof.Machine.execSelect v0 v1 v2 v3 s
  | .close v0 v1 v2 => Sys2Proof.Machine.execClose v0 v1 v2 s
  | .endinfo v0 v1 v2 => Sys2Proof.Machine.execEndinfo v0 v1 v2 s
  | .recordMessageArrival v0 => Sys2Proof.Machine.execRecordMessageArrival v0 s
  | .inboxMessageArrival v0 v1 => Sys2Proof.Machine.execInboxMessageArrival v0 v1 s
  | .ringSlotOffer v0 => Sys2Proof.Machine.execRingSlotOffer v0 s
  | .leaveNotice v0 v1 v2 v3 v4 v5 => Sys2Proof.Machine.execLeaveNotice v0 v1 v2 v3 v4 v5 s
  | .arrivalNotice v0 v1 v2 v3 => Sys2Proof.Machine.execArrivalNotice v0 v1 v2 v3 s
  | .closureMarkerArrival v0 v1 => Sys2Proof.Machine.execClosureMarkerArrival v0 v1 s
  | .spillRetry v0 => Sys2Proof.Machine.execSpillRetry v0 s
  | .startRelative v0 v1 v2 v3 => Sys2Proof.Machine.execStartRelative v0 v1 v2 v3 s
  | .startRegister v0 v1 v2 v3 => Sys2Proof.Machine.execStartRegister v0 v1 v2 v3 s
  | .hjoin v0 v1 v2 => Sys2Proof.Machine.execHjoin v0 v1 v2 s
  | .hexit v0 => Sys2Proof.Machine.execHexit v0 s
  | .processExit v0 => Sys2Proof.Machine.execProcessExit v0 s
  | .yield v0 => Sys2Proof.Machine.execYield v0 s
  | .waitev v0 v1 v2 => Sys2Proof.Machine.execWaitev v0 v1 v2 s
  | .watchdogExpiry v0 => Sys2Proof.Machine.execWatchdogExpiry v0 s
  | .bar v0 => Sys2Proof.Machine.execBar v0 s
  | .xend v0 => Sys2Proof.Machine.execXend v0 s
  | .barrierRelease v0 => Sys2Proof.Machine.execBarrierRelease v0 s
  | .xcast v0 v1 v2 v3 => Sys2Proof.Machine.execXcast v0 v1 v2 v3 s
  | .xcastTransferComplete v0 => Sys2Proof.Machine.execXcastTransferComplete v0 s
  | .widf v0 v1 v2 => Sys2Proof.Machine.execWidf v0 v1 v2 s
  | .roleq v0 v1 v2 => Sys2Proof.Machine.execRoleq v0 v1 v2 s
  | .gpost v0 v1 v2 v3 v4 => Sys2Proof.Machine.execGpost v0 v1 v2 v3 v4 s
  | .trigStart v0 => Sys2Proof.Machine.execTrigStart v0 s
  | .trigDone v0 v1 => Sys2Proof.Machine.execTrigDone v0 v1 s
  | .waitp v0 v1 => Sys2Proof.Machine.execWaitp v0 v1 s
  | .glaunch v0 v1 v2 v3 v4 => Sys2Proof.Machine.execGlaunch v0 v1 v2 v3 v4 s
  | .gcancel v0 v1 v2 v3 => Sys2Proof.Machine.execGcancel v0 v1 v2 v3 s
  | .gstat v0 v1 v2 v3 v4 => Sys2Proof.Machine.execGstat v0 v1 v2 v3 v4 s
  | .nodeDispatch v0 => Sys2Proof.Machine.execNodeDispatch v0 s
  | .nodeRetry v0 v1 => Sys2Proof.Machine.execNodeRetry v0 v1 s
  | .preemptRequest v0 v1 => Sys2Proof.Machine.execPreemptRequest v0 v1 s
  | .dlimExpiry v0 => Sys2Proof.Machine.execDlimExpiry v0 s
  | .save v0 v1 => Sys2Proof.Machine.execSave v0 v1 s
  | .restore v0 v1 v2 => Sys2Proof.Machine.execRestore v0 v1 v2 s
  | .sret v0 v1 => Sys2Proof.Machine.execSret v0 v1 s
  | .keyr v0 v1 v2 => Sys2Proof.Machine.execKeyr v0 v1 v2 s
  | .shintArm v0 v1 => Sys2Proof.Machine.execShintArm v0 v1 s
  | .shintClone v0 v1 => Sys2Proof.Machine.execShintClone v0 v1 s
  | .shintMerge v0 v1 => Sys2Proof.Machine.execShintMerge v0 v1 s
  | .shintDisarm v0 v1 => Sys2Proof.Machine.execShintDisarm v0 v1 s
  | .stagePause v0 => Sys2Proof.Machine.execStagePause v0 s
  | .stagePauseTimeout v0 v1 => Sys2Proof.Machine.execStagePauseTimeout v0 v1 s
  | .stagef v0 v1 v2 => Sys2Proof.Machine.execStagef v0 v1 v2 s
  | .stageSplitCompletion v0 => Sys2Proof.Machine.execStageSplitCompletion v0 s
  | .stageMergeQuiescence v0 => Sys2Proof.Machine.execStageMergeQuiescence v0 s
  | .bkpt v0 v1 => Sys2Proof.Machine.execBkpt v0 v1 s
  | .mark v0 v1 => Sys2Proof.Machine.execMark v0 v1 s
  | .rdcnt v0 v1 v2 => Sys2Proof.Machine.execRdcnt v0 v1 v2 s
  | .monq v0 v1 v2 => Sys2Proof.Machine.execMonq v0 v1 v2 s
  | .monitorSample v0 => Sys2Proof.Machine.execMonitorSample v0 s
  | .icacheFill v0 v1 => Sys2Proof.Machine.execIcacheFill v0 v1 s
  | .snoopDequeue v0 => Sys2Proof.Machine.execSnoopDequeue v0 s
  | .hardwareCounterWrap v0 v1 => Sys2Proof.Machine.execHardwareCounterWrap v0 v1 s
  | .coreAssign v0 v1 v2 => Sys2Proof.Machine.execCoreAssign v0 v1 v2 s
  | .domainDestroy v0 v1 => Sys2Proof.Machine.execDomainDestroy v0 v1 s
  | .pageEvict v0 v1 v2 v3 => Sys2Proof.Machine.execPageEvict v0 v1 v2 v3 s
  | .bootStepTimeout => Sys2Proof.Machine.execBootStepTimeout s
  | .mcStepDone v0 v1 v2 v3 => Sys2Proof.Machine.execMcStepDone v0 v1 v2 v3 s
  | .portStepDone v0 v1 v2 => Sys2Proof.Machine.execPortStepDone v0 v1 v2 s
  | .portTrainingTimeout v0 => Sys2Proof.Machine.execPortTrainingTimeout v0 s
  | .residencyFillComplete v0 => Sys2Proof.Machine.execResidencyFillComplete v0 s
  | .writePointerAdvance v0 => Sys2Proof.Machine.execWritePointerAdvance v0 s
  | .offCoreReferenceResult v0 v1 => Sys2Proof.Machine.execOffCoreReferenceResult v0 v1 s
  | .arm v0 v1 => Sys2Proof.Machine.execArm v0 v1 s
  | .disarm v0 v1 => Sys2Proof.Machine.execDisarm v0 v1 s
  | .stop v0 v1 v2 => Sys2Proof.Machine.execStop v0 v1 v2 s
  | .resume v0 v1 v2 => Sys2Proof.Machine.execResume v0 v1 v2 s
  | .read v0 v1 v2 v3 v4 v5 => Sys2Proof.Machine.execRead v0 v1 v2 v3 v4 v5 s
  | .write v0 v1 v2 v3 v4 v5 v6 v7 => Sys2Proof.Machine.execWrite v0 v1 v2 v3 v4 v5 v6 v7 s
  | .hold v0 v1 v2 v3 => Sys2Proof.Machine.execHold v0 v1 v2 v3 s
  | .unhold v0 v1 v2 v3 => Sys2Proof.Machine.execUnhold v0 v1 v2 v3 s
  | .trace v0 v1 v2 v3 v4 => Sys2Proof.Machine.execTrace v0 v1 v2 v3 v4 s
  | .dump v0 v1 v2 v3 v4 => Sys2Proof.Machine.execDump v0 v1 v2 v3 v4 s
  | .monset v0 v1 v2 v3 => Sys2Proof.Machine.execMonset v0 v1 v2 v3 s
  | .hostMemoryRequest v0 => Sys2Proof.Machine.execHostMemoryRequest v0 s
  | .peerMemoryRequest v0 => Sys2Proof.Machine.execPeerMemoryRequest v0 s
  | .linkPacketReceive v0 => Sys2Proof.Machine.execLinkPacketReceive v0 s
  | .linkKeyRollover v0 v1 => Sys2Proof.Machine.execLinkKeyRollover v0 v1 s
  | .deviceReportRequest v0 v1 => Sys2Proof.Machine.execDeviceReportRequest v0 v1 s
  | .ownershipChallenge v0 => Sys2Proof.Machine.execOwnershipChallenge v0 s
  | .ownershipClaim v0 v1 v2 => Sys2Proof.Machine.execOwnershipClaim v0 v1 v2 s
  | .handover v0 v1 v2 v3 v4 => Sys2Proof.Machine.execHandover v0 v1 v2 v3 v4 s
  | .ownershipRelease v0 v1 v2 => Sys2Proof.Machine.execOwnershipRelease v0 v1 v2 s
  | .deviceIdAssign v0 v1 => Sys2Proof.Machine.execDeviceIdAssign v0 v1 s
  | .domainCreate v0 v1 => Sys2Proof.Machine.execDomainCreate v0 v1 s
  | .pageReturn v0 v1 v2 v3 v4 v5 v6 => Sys2Proof.Machine.execPageReturn v0 v1 v2 v3 v4 v5 v6 s
  | .formatWindowChange v0 v1 v2 v3 => Sys2Proof.Machine.execFormatWindowChange v0 v1 v2 v3 s
  | .powerUp v0 => Sys2Proof.Machine.execPowerUp v0 s
  | .packageReset => Sys2Proof.Machine.execPackageReset s
  | .mcPhyResetRelease v0 => Sys2Proof.Machine.execMcPhyResetRelease v0 s
  | .mcImpedanceCalibration v0 => Sys2Proof.Machine.execMcImpedanceCalibration v0 s
  | .mcCommandAddressTraining v0 => Sys2Proof.Machine.execMcCommandAddressTraining v0 s
  | .mcReadTraining v0 => Sys2Proof.Machine.execMcReadTraining v0 s
  | .mcWriteTraining v0 => Sys2Proof.Machine.execMcWriteTraining v0 s
  | .mcLaneRepair v0 => Sys2Proof.Machine.execMcLaneRepair v0 s
  | .mcInitialise v0 => Sys2Proof.Machine.execMcInitialise v0 s
  | .mcEnable v0 => Sys2Proof.Machine.execMcEnable v0 s
  | .portSerdesResetRelease v0 v1 => Sys2Proof.Machine.execPortSerdesResetRelease v0 v1 s
  | .portReceiverDetect v0 => Sys2Proof.Machine.execPortReceiverDetect v0 s
  | .portEqualise v0 => Sys2Proof.Machine.execPortEqualise v0 s
  | .portDeskewFlitLock v0 => Sys2Proof.Machine.execPortDeskewFlitLock v0 s
  | .portKeyExchange v0 => Sys2Proof.Machine.execPortKeyExchange v0 s
  | .portUp v0 => Sys2Proof.Machine.execPortUp v0 s
  | .portDown v0 => Sys2Proof.Machine.execPortDown v0 s
  | .controlRegisterWrite v0 v1 => Sys2Proof.Machine.execControlRegisterWrite v0 v1 s
  | .hostCxlIoRequest v0 v1 v2 => Sys2Proof.Machine.execHostCxlIoRequest v0 v1 v2 s
  | .hostSnoop v0 v1 v2 v3 => Sys2Proof.Machine.execHostSnoop v0 v1 v2 v3 s
  | .backInvalidateAnswer v0 v1 => Sys2Proof.Machine.execBackInvalidateAnswer v0 v1 s
  | .linkLoss v0 => Sys2Proof.Machine.execLinkLoss v0 s
  | .tokenPost v0 => Sys2Proof.Machine.execTokenPost v0 s
  | .hostLineEviction v0 v1 v2 => Sys2Proof.Machine.execHostLineEviction v0 v1 v2 s
  | .l1Eviction v0 v1 => Sys2Proof.Machine.execL1Eviction v0 v1 s

end Sys2Proof.Machine
end

