-- ==== Sys2Proof/Machine/Step.lean ====
section
/-! DEFINITION. One step of the package: what the outside has started, then what is due in this cycle, then one core's turn,
then the next cycle (notes/assumptions/1.md). -/

namespace Sys2Proof.Machine

/-- A core's turn: the word it fetches is carried out by `exec`. -/
def turn (n : Nat) (s : State) : Host.Outcome State Fault Refusal :=
  match s.coreAct n with
  | .next t => .next t
  | .run i t => exec i t

def step (s : State) : Host.Outcome State Fault Refusal :=
  match s.inputs with
  | i :: r => if s.arrives i then exec i { s with inputs := r } else .next { s with inputs := r }
  | [] =>
    match s.due with
    | i :: r => exec i { s with due := r }
    | [] =>
      match s.todo with
      | n :: r => turn n { s with todo := r }
      | [] => .next s.advance

/-- A process on core 0 whose C issues next the word of an opcode-table row: the launch, the page tables and the code that this
takes stand for the load of a program (notes/assumptions/15.md). -/
def State.withFetchWord (s : State) (_nbits w : Nat) : State := s.placeWord w

end Sys2Proof.Machine
end

