-- ==== Sys2Proof/Safety.lean ====
section
/-! DEFINITION. What counts as a safe run, and the terms the statements of Certificates are made of: the invariant of memory,
when a word issues, what a completed scalar word leaves behind, and what an instruction leaves alone. -/

namespace Sys2Proof.Machine

/-- The outcome is a next state. -/
def goesOn (o : Host.Outcome State Fault Refusal) : Prop := ∃ t, o = .next t

/-- The first `k` steps from a state all go on. -/
def safeFor (s : State) : Nat → Prop
  | 0 => True
  | k + 1 => ∃ t, step s = .next t ∧ safeFor t k

/-- The invariant of the memory: keys rising, no default listed. -/
def memOk (s : State) : Prop := s.mem.wf = true

/-! ## When a word issues, and what it leaves -/

/-- The running context's word issues: its phase is right (R67 step 7), its guard true (R49), its scoreboard counter not full
(R54), and no late result is on its way to its g destination (R121). -/
def Issues (c : Ctl) (f : Form) (s : State) : Bool :=
  !s.phaseBad c f.far && s.guard c && !(f.late && decide (63 ≤ s.cx.sbAt c.set)) &&
    match f.d with
    | some d => !(s.me.pendingG s.k d || s.replyTo d)
    | none => true

/-- A wide word issues: its dispatch queue also has room (R146), and its w operands lie in the allotment (R153). -/
def IssuesWide (c : Ctl) (s : State) (regs : List WRes) : Bool :=
  decide (s.me.wq.length < Config.wideSlots) && Issues c fPlain s && (firstBad regs).isNone

/-- A hint and guard that say nothing: the word without options. -/
def plainCtl : Ctl := { neg := false, q := 0, delay := 0, phase := .any, wait := 0, set := 0, sw := false, lu := false }

/-- The running context's word traps. -/
def State.traps (s : State) (cause : BitVec 8) (val : W64) : State := s.takeTrap s.core s.k { cause := cause, val := val } s.cx.pc

/-- A scalar word has issued whose one result lands in g register `d` after `lat` cycles, and the next word follows. -/
def wroteG (c : Ctl) (lat : Nat) (d : BitVec 6) (v : GReg) (fl : Flags) (s : State) : State :=
  (s.landAfter lat (.g d v) fl).retire c s.linkAddr
/-- As `wroteG`, with a predicate result. -/
def wroteQ (c : Ctl) (lat : Nat) (qd : BitVec 3) (b : Bool) (fl : Flags) (s : State) : State :=
  (s.landAfter lat (.q qd b) fl).retire c s.linkAddr

/-- Where an instruction issues, it completes with one g result; a live end in its destination traps ENDLEAK (R120). -/
def CompletesG (i : Instr) (c : Ctl) (lat : Nat) (d : BitVec 6) (v : GReg) (fl : Flags) (s : State) : Prop :=
  Issues c (fTo d) s = true →
    (s.leak d = false → exec i s = .next (wroteG c lat d v fl s)) ∧
    (s.leak d = true → exec i s = .next (s.traps cENDLEAK (d.setWidth 64)))
/-- Where an instruction issues, it completes with one predicate result. -/
def CompletesQ (i : Instr) (c : Ctl) (lat : Nat) (qd : BitVec 3) (b : Bool) (fl : Flags) (s : State) : Prop :=
  Issues c fPlain s = true → exec i s = .next (wroteQ c lat qd b fl s)
/-- Where an instruction of a form issues and its own conditions hold, it completes with effect `t`, and the next word follows. -/
def CompletesAs (i : Instr) (c : Ctl) (f : Form) (ok : Prop) (t s : State) : Prop :=
  Issues c f s = true → ok → exec i s = .next (s.finish c f (.done t))
/-- Where it issues and its own conditions hold, the context waits for `w` after effect `t`. -/
def WaitsAs (i : Instr) (c : Ctl) (f : Form) (ok : Prop) (w : Wait) (t s : State) : Prop :=
  Issues c f s = true → ok → exec i s = .next (s.finish c f (.wait w t))

/-- The context whose turn it is counts a cycle towards its watchdog (R26). -/
def State.ticked (s : State) (n k : Nat) : State :=
  if k != 0 && (s.domainAt (s.coreAt n).dom).holds.isEmpty then s.updCtx n k fun x => { x with wd := x.wd + 1 } else s

/-! ## What stays as it was -/

/-- The registers of a context (R39, R54, R151): not its pc, its run state or its trap record. -/
def sameRegs (x y : Ctx) : Prop :=
  y.g = x.g ∧ y.q = x.q ∧ y.m = x.m ∧ y.fflags = x.fflags ∧ y.rmode = x.rmode ∧ y.blocks = x.blocks ∧ y.cursor = x.cursor ∧
    y.latch = x.latch
/-- A process but for the mark of a fault exit and, where an SR rounding draws, `srctr` (R108). -/
def procFrame (draws : Bool) (p : Proc) : Proc :=
  { p with faultExit := none, srctr := if draws then 0 else p.srctr }
/-- Operations under way, but for the contexts that come after them in program order: a park adds S (R190). -/
def opsFrame (l : List MemOp) : List MemOp := l.map fun o => { o with po := [] }
def lateFrame (l : List Late) : List Late := l.map fun o => { o with po := [] }
/-- The storage of a core: local store, w registers, tiles, inbox, send and store queues, operations under way, and the
special registers a program sets. The event counters `hcN` may count (R370), and `evs` may show a trap (R389). -/
def sameCore (draws : Bool) (a b : Core) : Prop :=
  b.ls = a.ls ∧ b.w = a.w ∧ b.tiles = a.tiles ∧ b.inbox = a.inbox ∧ b.sendq = a.sendq ∧ opsFrame b.storeq = opsFrame a.storeq ∧
    b.flight = a.flight ∧ b.owner = a.owner ∧ b.wdog = a.wdog ∧ b.wa = a.wa ∧ b.wm = a.wm ∧ b.bound = a.bound ∧
    procFrame draws b.proc = procFrame draws a.proc
/-- What a word leaves alone whose result lands later or goes to a queue: memory, every register of every context, every
core's storage, the arbors, the records of the agents; and every other core's results and queue. -/
def framed (draws : Bool) (s t : State) : Prop :=
  t.mem = s.mem ∧ lateFrame t.late = lateFrame s.late ∧ t.arbors = s.arbors ∧ t.records = s.records ∧ t.domains = s.domains ∧ t.lodge = s.lodge ∧
    t.cyc = s.cyc ∧ (∀ n k, sameRegs (s.ctxAt n k) (t.ctxAt n k)) ∧ (∀ n, sameCore draws (s.coreAt n) (t.coreAt n)) ∧
    ∀ n, n ≠ s.core → (t.coreAt n).land = (s.coreAt n).land ∧ (t.coreAt n).wq = (s.coreAt n).wq

end Sys2Proof.Machine

namespace Sys2Proof

/-- The hint and guard of the scalar words whose results land after a fixed latency or at once, and that draw nothing (R126 to R142, R354, R404). -/
def Instr.scalarCtl : Instr → Option Ctl
  | .nop c | .rds c _ _ | .bra c _ | .brx c _ | .callRelative c _ _ | .callRegister c _ _ | .ret c _ | .loop c _ _ => some c
  | .add c _ _ _ | .sub c _ _ _ | .and c _ _ _ | .or c _ _ _ | .xor c _ _ _ | .andn c _ _ _ | .shl c _ _ _ | .shr c _ _ _
  | .sar c _ _ _ | .rot c _ _ _ | .min c _ _ _ | .max c _ _ _ | .minn c _ _ _ | .maxn c _ _ _ => some c
  | .mul c _ _ _ | .mulh c _ _ _ | .mulhn c _ _ _ | .div c _ _ _ | .divn c _ _ _ | .rem c _ _ _ | .remn c _ _ _ => some c
  | .clz c _ _ | .ctz c _ _ | .popc c _ _ | .brev c _ _ | .ext c _ _ _ | .bfx c _ _ _ _ | .bfxs c _ _ _ _ | .bfi c _ _ _ _ => some c
  | .movi c _ _ | .movh c _ _ | .cmp c _ _ _ _ | .sel c _ _ _ _ | .pand c _ _ _ | .por c _ _ _ | .pnot c _ _ => some c
  | .fmin c _ _ _ _ | .fmax c _ _ _ _ | .fcmp c _ _ _ _ _ | .fclass c _ _ _ | .fsgn c _ _ _ _ _ | .ldl c _ _ _ _ => some c
  | .cbound c _ _ _ | .cperm c _ _ _ | .cget c _ _ _ | .cderive c _ _ _ | .ctest c _ _ _ | .cnull c _ | .cmove c _ _ => some c
  | _ => none
def Instr.scalar (i : Instr) : Bool := (Instr.scalarCtl i).isSome
/-- The hint and guard of the words that R35 keeps out of a planned compute phase. -/
def Instr.farCtl : Instr → Option Ctl
  | .ld c _ _ _ _ _ | .st c _ _ _ _ _ | .pref c _ _ _ | .ldacq c _ _ _ _ _ _ | .strel c _ _ _ _ _ _ => some c
  | .amo c _ _ _ _ _ _ _ | .cas c _ _ _ _ _ _ | .red c _ _ _ _ _ _ | .swait c _ _ _ _ _ _ | .fwait c _ _ _ | .fset c _ _ _
  | .fclr c _ _ => some c
  | .job c _ _ _ _ | .chan c _ _ _ | .send c _ _ _ _ | .recv c _ _ _ _ | .tryrecv c _ _ _ _ | .select c _ _ _ | .close c _ _
  | .endinfo c _ _ => some c
  | .gpost c _ _ _ _ | .glaunch c _ _ _ _ | .gcancel c _ _ _ | .gstat c _ _ _ _ | .scall c _ _ _ _ => some c
  | _ => none

/-- Words that take a draw under SR and otherwise only send a result or a queue entry on its way (R108, R145). -/
def Instr.drawing : Instr → Bool
  | .fadd .. | .fsub .. | .fmul .. | .ffma .. | .fdiv .. | .fsqrt .. | .fcvt .. => true
  | .vadd .. | .vsub .. | .vmul .. | .vfma .. | .vmin .. | .vmax .. | .vabs .. | .vneg .. | .vrcp .. | .vrsq .. | .vexp2 ..
  | .vlog2 .. | .vdiv .. => true
  | .viadd .. | .visub .. | .vimul .. | .vand .. | .vor .. | .vxor .. | .vshl .. | .vshr .. | .vsar .. => true
  | .vcmp .. | .vsel .. | .mand .. | .mor .. | .mnot .. | .vperm .. | .vshuf .. | .vbcast .. | .vextr .. | .vins .. => true
  | .vrsum .. | .vrmax .. | .vrmin .. | .vcvt .. | .vpxenc .. | .vpxdec .. | .vmov .. => true
  | .vldlImmediate .. | .vldlRegister .. | .vstlImmediate .. | .vstlRegister .. | .vldx .. | .vstx .. => true
  | .mrdacc .. | .mwracc .. | .mstacc .. => true
  | _ => false

end Sys2Proof
end

