-- ==== Sys2Proof/Certificates/Slice0/Obligations.lean ====
section
/-! DEFINITION. The statements for the provers, from the numbered rules of the spec. `Issues`, `CompletesG`, `CompletesQ`,
`CompletesAs`, `WaitsAs`, `wroteG`, `wroteQ`, `framed` and `Instr.scalar` are those of Sys2Proof/Safety.lean. -/

open Sys2Proof Sys2Proof.Machine

/-! ## Decoding and the step -/

/-- Words the spec prints beside their assembly text, one or more for each family (R68, R72, R136, R142, R155, R169, R215,
R227, R257, R258, R259, R295, R316, R335, R353, R404 to R408, R424, R427). -/
def Obligations.SpecWordsDecode : Prop :=
  decodeWord 0x1A00_0000_F002_0056_0000_0064 = .ok (.cmp plainCtl 2 .ltn 5 (.imm 100)) ∧
  decodeWord 0x2200_4000_0072_00C0_FFFF_FFFA = .ok (.ldl { plainCtl with q := 1 } .i16 7 12 (.imm (-6))) ∧
  decodeWord 0x1C08_0C10_006B_0060_0040_0000 =
    .ok (.fmul { plainCtl with delay := 3, wait := 1 } .bf16 .rn 6 6 4) ∧
  decodeWord 0x4C08_0000_4009_0090_0000_0000 = .ok (.vbcast plainCtl (.flt .f32) (.w 0) (.g 9) 0) ∧
  decodeWord 0x5400_0000_404B_4020_0009_0000 =
    .ok (.vcvt plainCtl (.flt .bf16) { rm := .rn, sat := false } (.flt .f32) (.w 4) (.w 2) 0) ∧
  decodeWord 0x6008_0010_D010_00A0_0040_0000 = .ok (.mloadRegister { plainCtl with wait := 1 } 1 10 4) ∧
  decodeWord 0xA008_0000_0050_0160_F000_F002 = .ok (.recv plainCtl (.g 5) 22 none 2) ∧
  decodeWord 0x000C_0000_0020_20D0_0000_0000 = .ok (.rds plainCtl 2 0x00D) ∧
  decodeWord 0x0008_0000_F001_F001_F001_0000 = .ok (.eretSkip plainCtl 1 1) ∧
  decodeWord 0xC80D_4000_F002_0000_0000_0000 = .ok (.waitp { plainCtl with q := 5 } 2) ∧
  decodeWord 0xE008_0000_0060_F008_0000_0000 = .ok (.rdcnt plainCtl 6 8)

/-- No bit of an encoding is dropped: every well-formed instruction that a word encodes is read back from that word. -/
def Obligations.DecodeOfEncodeIsTheInstruction : Prop :=
  ∀ (i : Instr) (w : BitVec 96), i.wellFormed = true → encode i = some w → decodeWord w = .ok i

/-- Steps 1, 2 and 4 of R67, on the word itself: a class with no row of the opcode map, phase bits 0b11, and scope codes
6 and 7 of the scoped minors (R65) give no instruction; and a word that fails a check of R67 traps ILLEGAL with bits 95:32 of the word
in `tval`, at its own address. -/
def Obligations.StaticChecksTrapIllegal : Prop :=
  (∀ (w : BitVec 96) (i : Instr),
    (let c := (w.extractLsb' 90 6).toNat
     (0x0A ≤ c ∧ c ≤ 0x0F ∨ 0x19 ≤ c ∧ c ≤ 0x1F ∨ 0x25 ≤ c ∧ c ≤ 0x27 ∨ 0x29 ≤ c ∧ c ≤ 0x2F ∨ 0x34 ≤ c ∧ c ≤ 0x37 ∨ 0x39 ≤ c) →
      decodeWord w ≠ .ok i) ∧
    (w.extractLsb' 72 2 = 3#2 → decodeWord w ≠ .ok i) ∧
    (w.extractLsb' 90 6 ∈ [0x20#6, 0x22#6] → w.extractLsb' 82 7 ∈ [0x0E#7, 0x0F#7, 0x16#7, 0x17#7] → decodeWord w ≠ .ok i) ∧
    (w.extractLsb' 90 6 ∈ [0x21#6, 0x22#6] → w.extractLsb' 82 7 ∈ [0x06#7, 0x07#7, 0x0E#7, 0x0F#7] → decodeWord w ≠ .ok i)) ∧
  ∀ (s t : State) (n k : Nat) (r : List Nat) (w : BitVec 96) (ix : Bool) (e : Reject),
    s.inputs = [] → s.due = [] → s.todo = n :: r →
    (s.coreAt n).cur = some k → (s.coreAt n).isReady k = true →
    (k = 0 ∨ (s.ctxAt n k).wd < (s.coreAt n).wdog.toNat) →
    (s.ctxAt n k).deferred = none → (s.ctxAt n k).fence = none → (s.ctxAt n k).notBefore ≤ s.cyc →
    (({ s with todo := r } : State).ticked n k).fetchWord n (s.ctxAt n k) = .word w ix t →
    waitsDone (fieldsOf w) (t.ctxAt n k) = true → (t.coreAt n).upcall = none →
    decodeWord w = .illegal e →
    step s = .next (t.takeTrap n k { cause := cILLEGAL, val := w.extractLsb' 32 64 } (t.ctxAt n k).pc)

/-- A step runs the decoded instruction: where the next turn is core `n`'s, its running context `k` can issue, nothing earlier
in the order of R387 takes the cycle, a fence of the context is over by now, and the word fetched at its pc decodes, the step is
`exec` of that instruction at the state the fetch leaves, with the acting core and its word set. While a fence of the context is
not over, nothing issues (R213). -/
def Obligations.StepRunsTheDecodedWord : Prop :=
  ∀ (s : State) (n k : Nat) (r : List Nat),
    let v := ({ s with todo := r } : State).ticked n k
    let u := v.tryFence n k
    s.inputs = [] → s.due = [] → s.todo = n :: r →
    (s.coreAt n).cur = some k → (s.coreAt n).isReady k = true →
    (k = 0 ∨ (s.ctxAt n k).wd < (s.coreAt n).wdog.toNat) →
    (s.ctxAt n k).deferred = none →
    (∀ (t : State) (w : BitVec 96) (ix : Bool) (i : Instr),
      (u.ctxAt n k).fence = none → (s.ctxAt n k).notBefore ≤ u.cyc →
      u.fetchWord n (s.ctxAt n k) = .word w ix t →
      waitsDone (fieldsOf w) (t.ctxAt n k) = true →
      (k = 1 → (t.coreAt n).upcall.isSome = true → upcallAllows (fieldsOf w).cls.toNat (fieldsOf w).minor.toNat = true) →
      decodeWord w = .ok i →
      step s = exec i { t with core := n, ir := w, irIxtin := ix }) ∧
    ((s.ctxAt n k).fence = none → u = v) ∧
    (∀ x, (s.ctxAt n k).fence = some x → v.fenceMet n k x = false → step s = .next v) ∧
    (∀ x, (s.ctxAt n k).fence = some x → v.fenceMet n k x = true → u = (v.endFence n k x).updCtx n k fun y => { y with fence := none })

/-- The fetch of a native word that lies within a resident line of HBM whose page still translates to it (R47, R48, R364): 12 bytes
at the pc, little-endian, of the line as it stood at its fill or after one of the writes since; exactly the bytes of memory, as the
domain's key reads them, where the line has not been written since and is what memory holds. A pc that is no multiple of 4
traps ALIGN (R129). -/
def Obligations.FetchReadsTheWordAtThePc : Prop :=
  ∀ (s : State) (n pa : Nat) (x : Ctx) (l : ILine),
    let dom := (s.coreAt n).dom
    let line := x.pc.toNat / 64
    let u := s.walkReady dom (line * 64)
    s.isIxtin n x.pc.toNat = false →
    (x.pc.toNat % 4 = 0 → x.pc.toNat % 64 ≤ 52 →
      u.codePlace dom line = .ok (.hbm pa) → Tab.find (s.coreAt n).icache line = some l → l.place = .hbm pa →
      (∃ b ∈ l.bytes :: l.since, ∃ t : State,
        s.fetchWord n x = .word (BitVec.ofNat 96 (leNat ((b.drop (x.pc.toNat % 64)).take 12))) false t) ∧
      (l.since = [] → l.bytes = natLE 64 (u.mem.readAs (s.keyOf dom) pa 64) →
        s.fetchWord n x = .word (BitVec.ofNat 96 (u.mem.readAs (s.keyOf dom) (pa + x.pc.toNat % 64) 12)) false u)) ∧
    (x.pc.toNat % 4 ≠ 0 → s.fetchWord n x = .bad cALIGN x.pc (x.branch.getD x.pc))

/-! ## The whole machine -/

/-- What a package reset leaves, as far as the spec gives it: no domain is live and no core belongs to one (R41 `owner`,
R372), memory lists nothing, the boot is at its first step, and every special register for which R41 gives a reset value reads as it
(R41, R42, R43, R389). That q1 to q7 are false is the model's choice (log 9), and so is what an unlisted byte of memory reads as (log 47). -/
def Obligations.ResetLeavesNothingLive : Prop :=
  State.reset.lodge.boot = .step 1 ∧ (∀ d, (State.reset.domainAt d).live = false) ∧
    (∀ n, (State.reset.coreAt n).owner = 0 ∧ (State.reset.coreAt n).bound = false ∧ (State.reset.coreAt n).wdog = 0x1000000 ∧
      (State.reset.coreAt n).evs = 0) ∧
    (∀ n k, (State.reset.ctxAt n k).run = .dead ∧ (State.reset.ctxAt n k).rmode = 0 ∧ (State.reset.ctxAt n k).fflags = 0 ∧
      ∀ q, (State.reset.ctxAt n k).pred q = decide (q = 0)) ∧
    (∀ n k, State.reset.special n k 0x00C = 0x1000000 ∧
      ∀ i ∈ [0x004, 0x005, 0x006, 0x008, 0x009, 0x00A, 0x00D, 0x010, 0x011, 0x012] ++ (List.range 8).map (0x014 + ·) ++
        (List.range 16).map (0x020 + ·), State.reset.special n k i = 0) ∧
    State.reset.mem = Memory.empty ∧ State.reset.cyc = 0

/-- The memory of the reset state is in canonical form. -/
def Obligations.ResetMemoryIsCanonical : Prop := memOk State.reset

/-- Every step keeps the canonical form of memory: equal memories are equal data. -/
def Obligations.StepKeepsMemoryCanonical : Prop := ∀ s t : State, memOk s → step s = .next t → memOk t

/-- From every state every well-formed instruction and step of an agent goes on, but for a write to the control space, which
may name an address at which the spec describes no register (R363): no instruction is refused, and no unit that exists faults. -/
def Obligations.EveryInstructionGoesOn : Prop :=
  ∀ (i : Instr) (s : State), i.wellFormed = true → (∀ a v, i ≠ .controlRegisterWrite a v) → goesOn (exec i s)

/-- A scalar word changes no memory, no register and no storage when it issues, traps or is held: its one result lands later. -/
def Obligations.ScalarWordsFrame : Prop :=
  ∀ (i : Instr) (s t : State), i.scalar = true → exec i s = .next t → framed false s t

/-- A word that draws or goes to the wide unit changes no memory, no register and no storage when it issues, but for `srctr`. -/
def Obligations.DrawingWordsFrame : Prop :=
  ∀ (i : Instr) (s t : State), i.drawing = true → exec i s = .next t → framed true s t

/-! ## The issue of a word -/

/-- Phase hints (R52) and planned gangs (R35): a scalar word whose hint names the other phase, and a word that reaches outside
the core in the compute phase of a planned gang, trap PHASE whatever their guard; `tval` is 1 in the exchange phase. -/
def Obligations.WrongPhaseTraps : Prop :=
  ∀ (i : Instr) (c : Ctl) (s : State),
    (i.scalarCtl = some c → (c.phase = .compute ∧ s.me.proc.exchange = true ∨ c.phase = .exchange ∧ s.me.proc.exchange = false) →
      exec i s = .next (s.traps cPHASE (if s.me.proc.exchange then 1 else 0))) ∧
    (i.farCtl = some c → s.me.proc.exchange = false → (∃ g, s.myGang = some g ∧ g.h.planned = true) →
      exec i s = .next (s.traps cPHASE 0))

/-- A false guard: a scalar word, and a word that reaches outside its core, takes no effect, and the next word follows under the
word's delay and switch bit (R49, R51, R55). -/
def Obligations.FalseGuardTakesNoEffect : Prop :=
  ∀ (i : Instr) (c : Ctl) (s : State), (i.scalarCtl = some c ∨ i.farCtl = some c) →
    s.phaseBad c (i.farCtl.isSome) = false → s.guard c = false → exec i s = .next (s.retire c s.linkAddr)

/-- What `retire` does: the context stands at the given pc and may issue again `delay + 1` cycles later (R51); no other context
of the core changes, and the core passes on only where the hint's switch bit says so (R55). -/
def Obligations.RetireMovesToTheNextWord : Prop :=
  ∀ (c : Ctl) (s : State) (pc : W64) (b : Option W64),
    let t := s.retire c pc b
    (t.ctxAt s.core s.k).pc = pc ∧ (t.ctxAt s.core s.k).notBefore = s.cyc + c.delay.toNat + 1 ∧
      sameRegs s.cx (t.ctxAt s.core s.k) ∧ (t.ctxAt s.core s.k).run = s.cx.run ∧
      (∀ k, k ≠ s.k → t.ctxAt s.core k = s.ctxAt s.core k) ∧ (∀ n, n ≠ s.core → t.coreAt n = s.coreAt n) ∧
      t.mem = s.mem ∧ (c.sw = false → (t.coreAt s.core).cur = s.me.cur)

/-- A landed result is read from its register, and nothing else changes (R40, R56, R120, R123): a g register holds the value
untagged where the result is data; q0 and m0 keep reading true and all ones; flags are ORed in. A result of latency `lat` lands at its issue's cycle + `lat` and not earlier. -/
def Obligations.LandedResultIsRead : Prop :=
  (∀ (c : Core) (l : Landing), l.res.isS = false →
    let d := c.landOne l
    (∀ k n, (d.ctx k).gReg n = match l.res with
      | .g r v => if k = l.ctx ∧ n = r then v else (c.ctx k).gReg n
      | _ => (c.ctx k).gReg n) ∧
    (∀ k n, (d.ctx k).pred n = match l.res with
      | .q r b => if k = l.ctx ∧ n = r ∧ n ≠ 0 then b else (c.ctx k).pred n
      | _ => (c.ctx k).pred n) ∧
    (∀ k n, (d.ctx k).mask n = match l.res with
      | .m r mk v => if k = l.ctx ∧ n = r ∧ n ≠ 0 then ((c.ctx k).mask n &&& ~~~mk) ||| (v &&& mk) else (c.ctx k).mask n
      | _ => (c.ctx k).mask n) ∧
    (∀ p, d.wReg p = match l.res with
      | .w r mk v => if p = r then laneMerge mk (c.wReg p) v else c.wReg p
      | _ => c.wReg p) ∧
    (∀ k, (d.ctx k).fflags = if k = l.ctx then (c.ctx k).fflags ||| l.flags else (c.ctx k).fflags) ∧
    d.ls = c.ls ∧ d.tiles = c.tiles ∧ d.proc = c.proc ∧ d.evs = c.evs ∧ d.land = c.land) ∧
  ∀ (s : State) (lat cyc : Nat) (r : Result) (fl : Flags), s.me.land = [] →
    let c := (s.landAfter lat r fl).coreAt s.core
    (cyc < s.cyc + lat → c.landDue cyc = c) ∧
    (s.cyc + lat ≤ cyc → c.landDue cyc =
      (s.me.landOne { due := s.cyc + lat, issued := s.cyc, ctx := s.k, res := r, flags := fl, sb := none, late := false }))

/-! ## Traps and the return from them -/

/-- Taking a trap (R388, R389): a context other than S parks, its record holds the cause, the value and the resume address, its
bit of `evs` is set, and RETRY with it where its retry latch is valid (R392). No register, no memory and no other context's
record changes. -/
def Obligations.TrapParksTheContext : Prop :=
  ∀ (s : State) (n k : Nat) (t : Trap) (ip : W64), 0 < k → k < 12 → (k = 1 → (s.coreAt n).upcall = none) →
    let u := s.takeTrap n k t ip
    (u.ctxAt n k).run = .parked ∧ (u.ctxAt n k).trap = { cause := t.cause, val := t.val, ip := ip } ∧ (u.ctxAt n k).pc = ip ∧
      (u.coreAt n).evs = ((s.coreAt n).evs ||| (1#32 <<< k) ||| (if (s.ctxAt n k).latch.valid then evRETRY else 0)) ∧
      (∀ j, sameRegs (s.ctxAt n j) (u.ctxAt n j)) ∧ (∀ j, j ≠ k → (u.ctxAt n j).trap = (s.ctxAt n j).trap) ∧
      (∀ m, m ≠ n → u.coreAt m = s.coreAt m) ∧ (u.coreAt n).ls = (s.coreAt n).ls ∧ u.mem = s.mem

/-- A trap of S is a fault exit of its process with that cause, or the cause of one that has begun (R391): no context of the core
goes on, of the results on their way only live ends are kept, which PROCESS_EXIT closes (R254), wide words that have passed core issue
stay in their queue and complete (R145), and PROCESS_EXIT is due. -/
def Obligations.TrapOfSupervisorIsAFaultExit : Prop :=
  ∀ (s : State) (n : Nat) (t : Trap) (ip : W64),
    let u := s.takeTrap n 0 t ip
    (u.coreAt n).proc.faultExit = some ((s.coreAt n).proc.faultExit.getD t.cause) ∧
      (u.coreAt n).land = (s.coreAt n).land.filter (fun l => l.res.bringsEnd) ∧
      (u.coreAt n).wq = (s.coreAt n).wq ∧ (u.coreAt n).cur = none ∧
      (∀ k, (u.ctxAt n k).run ≠ .ready) ∧
      .processExit n ∈ u.due ∧ u.mem = s.mem

/-- ERET of a parked context by S (R406): mode 0 resumes it at its `tip`, mode 1 at the word after, each with its predicate true.
The predicate is false, and the context stays as it is, where it is not parked, where a posted operation of its latch is unsettled
(R395), in mode 0 for one sent or done, and in mode 1 for one sent and not done. Mode 2 ends its process, and after SAVEF or
DUMPF every process of its gang, by a fault exit with the cause it parked with. The context goes on with its registers as it parked with
them, its watchdog and retry latch cleared, and its bit of `evs` alone cleared (R389). -/
def Obligations.EretReturns : Prop :=
  (∀ (c : Ctl) (qd : BitVec 3) (ctx : BitVec 4) (s : State),
    let x := s.me.ctx ctx.toNat
    let l := x.latch
    let no := (.next (s.finish c fLate (.done (s.landLate c.set (.q qd false)))) : Host.Outcome State Fault Refusal)
    Issues c fLate s = true → s.k = 0 →
    (x.run = .parked →
      (exec (.eretRetry c qd ctx) s = if l.valid && (l.posted || l.sent || l.done) then no
        else .next (s.finish c fLate (.done
          (((s.unpark s.core ctx.toNat x.trap.ip).eretCause s.me.proc.gang x.trap.cause 0).landLate c.set (.q qd true))))) ∧
      (exec (.eretSkip c qd ctx) s = if l.valid && (l.posted || (l.sent && !l.done)) then no
        else .next (s.finish c fLate (.done
          ((((s.settleHit s.core ctx.toNat x.trap.ip).unpark s.core ctx.toNat (s.nextPc s.core x.trap.ip)).eretCause s.me.proc.gang
            x.trap.cause 1).landLate c.set (.q qd true))))) ∧
      exec (.eretExit c qd ctx) s = .next (s.finish c fLate (.gone (s.eretEnd s.core x.trap.cause)))) ∧
    (x.run ≠ .parked →
      exec (.eretRetry c qd ctx) s = no ∧ exec (.eretSkip c qd ctx) s = no ∧ exec (.eretExit c qd ctx) s = no) ∧
    s.eretEnd s.core x.trap.cause = if x.trap.cause = cSAVEF ∨ x.trap.cause = cDUMPF then
        ((s.family s.me.proc.gang).flatMap s.gangCores).foldl (fun t m => t.faultExit m x.trap.cause) s
      else s.faultExit s.core x.trap.cause) ∧
  ∀ (s : State) (n k : Nat) (a : W64), (s.ctxAt n k).gangEvents = [] →
    let u := s.unpark n k a
    (u.ctxAt n k).run = .ready ∧ (u.ctxAt n k).pc = a ∧ (u.ctxAt n k).wd = 0 ∧ (u.ctxAt n k).latch.valid = false ∧
      (u.ctxAt n k).g = (s.ctxAt n k).g ∧ (u.ctxAt n k).q = (s.ctxAt n k).q ∧ (u.ctxAt n k).m = (s.ctxAt n k).m ∧
      (u.ctxAt n k).fflags = (s.ctxAt n k).fflags ∧ (u.ctxAt n k).trap = (s.ctxAt n k).trap ∧
      (u.coreAt n).evs = ((s.coreAt n).evs &&& ~~~(1#32 <<< k)) ∧ (u.coreAt n).focusLast = k ∧
      (∀ j, j ≠ k → u.ctxAt n j = s.ctxAt n j) ∧ u.mem = s.mem

/-- The words that only S may issue trap PROT in every other context with no effect (R404 to R408): ERET, RETARM and the context
forms of RDS and WRS with `tval` 0; a WRS of a register marked S with its number; and START in any context but C (R286), and
HEXIT in S (R289), with `tval` 0. -/
def Obligations.SupervisorWordsTrapElsewhere : Prop :=
  ∀ (c : Ctl) (qd : BitVec 3) (d h : BitVec 6) (ctx : BitVec 4) (r : CtxReg) (v : GI) (n : BitVec 9) (off : W32) (s : State),
    (s.k ≠ 0 → Issues c fLate s = true →
      exec (.eretRetry c qd ctx) s = .next (s.traps cPROT 0) ∧ exec (.eretSkip c qd ctx) s = .next (s.traps cPROT 0) ∧
      exec (.eretExit c qd ctx) s = .next (s.traps cPROT 0) ∧ exec (.retarm c d ctx) s = .next (s.traps cPROT 0)) ∧
    (s.k ≠ 0 → Issues c (fTo d) s = true → exec (.rdsContext c d r ctx) s = .next (s.traps cPROT 0)) ∧
    (s.k ≠ 0 → Issues c fPlain s = true → exec (.wrsContext c r v ctx) s = .next (s.traps cPROT 0)) ∧
    (s.k ≠ 0 → Issues c fPlain s = true → sMarked n.toNat = true →
      exec (.wrs c n v) s = .next (s.traps cPROT (n.setWidth 64))) ∧
    (s.k ≠ 1 → Issues c fLate s = true →
      exec (.startRelative c qd h off) s = .next (s.traps cPROT 0) ∧ exec (.startRegister c qd h d) s = .next (s.traps cPROT 0)) ∧
    (s.k = 0 → Issues c fYield s = true → exec (.hexit c) s = .next (s.traps cPROT 0))

/-! ## SYS -/

/-- TRAP (R405): cause 0x40 + code, the operand as `tval`, the word itself as resume address, in every context (in S a fault
exit); and a word of TRAP whose code is above 63 is no instruction. -/
def Obligations.TrapWordTraps : Prop :=
  (∀ (c : Ctl) (code : BitVec 6) (v : GI) (s : State), Issues c fPlain s = true →
    exec (.trap c code v) s = .next (s.takeTrap s.core s.k
      { cause := 0x40 + code.setWidth 8, val := match v with
          | .g n => (s.gReg n).bits.setWidth 64
          | .small z => z.signExtend 64 } s.cx.pc)) ∧
  (∀ (s : State) (t : Trap) (ip : W64), 0 < s.k → s.k < 12 → s.me.upcall = none →
    let u := s.takeTrap s.core s.k t ip
    (u.ctxAt s.core s.k).run = .parked ∧ (u.ctxAt s.core s.k).trap = { cause := t.cause, val := t.val, ip := ip }) ∧
  (∀ (s : State) (t : Trap) (ip : W64), s.k = 0 → s.me.proc.faultExit = none →
    ((s.takeTrap s.core s.k t ip).coreAt s.core).proc.faultExit = some t.cause) ∧
  ∀ (w : BitVec 96) (i : Instr), w.extractLsb' 90 6 = 0 → w.extractLsb' 82 7 = 1 → w.extractLsb' 54 6 ≠ 0 → decodeWord w ≠ .ok i

/-- `rmode` (R43): it resets to RN; a WRS that lands writes bits 2:0 where they name a mode, and leaves the register as it is
for 0b110 and 0b111; RDS reads bits 63:3 as zero. -/
def Obligations.RmodeKeepsReservedModesOut : Prop :=
  Ctx.init.rmode = 0 ∧
  (∀ (c : Core) (k : Nat) (v : W64),
    ((c.landS k 0x006 v).ctx k).rmode = if v.extractLsb' 0 3 = 6#3 ∨ v.extractLsb' 0 3 = 7#3 then (c.ctx k).rmode else v.extractLsb' 0 3) ∧
  (∀ (s : State) (n k : Nat), (s.special n k 0x006).extractLsb' 3 125 = 0 ∧ (s.special n k 0x006).extractLsb' 0 3 = (s.ctxAt n k).rmode) ∧
  (∀ (c : Ctl) (v : GI) (s : State), Issues c fPlain s = true →
    exec (.wrs c 0x006 v) s = .next ((s.landAfter 1 (.s 0x006 (s.gi v)) 0).retire c s.linkAddr)) ∧
  rmOfCode 0 = .rn ∧ rmOfCode 1 = .rz ∧ rmOfCode 2 = .ru ∧ rmOfCode 3 = .rd ∧ rmOfCode 4 = .ra ∧ rmOfCode 5 = .sr

/-- NOP, RDS, WRS and their context forms complete (R404, R407): RDS writes the special register's value; a WRS of a writable
register lands in the next cycle and of a read-only one has no effect; S reads and writes a parked context's g, q and m registers,
`fflags`, `rmode` and trap record, a write to its `allot` is ignored, and a write to a context that is not parked changes nothing. -/
def Obligations.SystemWordsComplete : Prop :=
  ∀ (c : Ctl) (d : BitVec 6) (n : BitVec 9) (r : CtxReg) (v : GI) (ctx : BitVec 4) (s : State),
    CompletesAs (.nop c) c fPlain True s s ∧
    CompletesG (.rds c d n) c 1 d { bits := s.special s.core s.k n.toNat, tag := false, endst := 0 } 0 s ∧
    CompletesAs (.wrs c n v) c fPlain ((sMarked n.toNat = true → s.k = 0) ∧ readOnly n.toNat = false)
      (s.landAfter 1 (.s n (s.gi v)) 0) s ∧
    CompletesAs (.wrs c n v) c fPlain (readOnly n.toNat = true) s s ∧
    (s.k = 0 → CompletesG (.rdsContext c d r ctx) c 1 d
      (if (s.me.ctx ctx.toNat).run = .parked then (s.me.ctx ctx.toNat).readReg r else GReg.zero) 0 s) ∧
    (∀ g : BitVec 6, CompletesAs (.wrsContext c (.g g) v ctx) c fPlain
      (s.k = 0 ∧ (s.me.ctx ctx.toNat).run = .parked ∧ (s.giReg v).isEnd = false ∧ ((s.me.ctx ctx.toNat).gReg g).isEnd = false)
      (s.landIn ctx.toNat (.g g (s.giReg v))) s) ∧
    (let may := s.k = 0 ∧ (s.me.ctx ctx.toNat).run = .parked ∧ (s.giReg v).isEnd = false
     let v64 : W64 := (s.giReg v).bits.setWidth 64
     let record := fun (x : TrapRec) => s.updCtx s.core ctx.toNat fun y => { y with trap := x }
     let old := (s.me.ctx ctx.toNat).trap
     (∀ q : BitVec 3, CompletesAs (.wrsContext c (.q q) v ctx) c fPlain may (s.landIn ctx.toNat (.q q ((s.giReg v).bits.getLsbD 0))) s) ∧
     (∀ m : BitVec 3, CompletesAs (.wrsContext c (.m m) v ctx) c fPlain may
       (s.landIn ctx.toNat (.m m (BitVec.allOnes 32) ((s.giReg v).bits.setWidth 64 |>.setWidth 32))) s) ∧
     CompletesAs (.wrsContext c (.s 0x004) v ctx) c fPlain may (s.landIn ctx.toNat (.s 0x004 v64)) s ∧
     CompletesAs (.wrsContext c (.s 0x006) v ctx) c fPlain may (s.landIn ctx.toNat (.s 0x006 v64)) s ∧
     CompletesAs (.wrsContext c (.s 0x00D) v ctx) c fPlain may (record { old with cause := v64.setWidth 8 }) s ∧
     CompletesAs (.wrsContext c (.s 0x00E) v ctx) c fPlain may (record { old with val := v64 }) s ∧
     CompletesAs (.wrsContext c (.s 0x00F) v ctx) c fPlain may (record { old with ip := v64 }) s ∧
     CompletesAs (.wrsContext c (.s 0x010) v ctx) c fPlain may s s ∧
     CompletesAs (.wrsContext c r v ctx) c fPlain
       (s.k = 0 ∧ (s.giReg v).isEnd = false ∧ (s.me.ctx ctx.toNat).run ≠ .parked) s s ∧
     (Issues c fPlain s = true → s.k = 0 → (s.giReg v).isEnd = true →
       exec (.wrsContext c r v ctx) s = .next (s.traps cCAPTAG 3)))

/-! ## Scalar words -/

/-- The IALU and IMUL classes (R103, R131, R132): each word completes with its table's function of `a` and `b` and no flag, one cycle
later, a product three and a quotient or remainder sixteen, a division by zero and the quotient of −2^63 by −1 included. -/
def Obligations.IntegerWordsComplete : Prop :=
  ∀ (c : Ctl) (d a : BitVec 6) (z : SrcZ) (s : State),
    let x := s.readG a
    let y := s.srcZ z
    let sh := (y.extractLsb' 0 6).toNat
    CompletesG (.add c d a z) c 1 d (GReg.data (x + y)) 0 s ∧
    CompletesG (.sub c d a z) c 1 d (GReg.data (x - y)) 0 s ∧
    CompletesG (.and c d a z) c 1 d (GReg.data (x &&& y)) 0 s ∧
    CompletesG (.or c d a z) c 1 d (GReg.data (x ||| y)) 0 s ∧
    CompletesG (.xor c d a z) c 1 d (GReg.data (x ^^^ y)) 0 s ∧
    CompletesG (.andn c d a z) c 1 d (GReg.data (x &&& ~~~y)) 0 s ∧
    CompletesG (.shl c d a z) c 1 d (GReg.data (x <<< sh)) 0 s ∧
    CompletesG (.shr c d a z) c 1 d (GReg.data (x >>> sh)) 0 s ∧
    CompletesG (.sar c d a z) c 1 d (GReg.data (x.sshiftRight sh)) 0 s ∧
    CompletesG (.rot c d a z) c 1 d (GReg.data (x.rotateLeft sh)) 0 s ∧
    CompletesG (.min c d a z) c 1 d (GReg.data (BitVec.ofInt 64 (Min.min x.toInt y.toInt))) 0 s ∧
    CompletesG (.max c d a z) c 1 d (GReg.data (BitVec.ofInt 64 (Max.max x.toInt y.toInt))) 0 s ∧
    CompletesG (.minn c d a z) c 1 d (GReg.data (BitVec.ofNat 64 (Min.min x.toNat y.toNat))) 0 s ∧
    CompletesG (.maxn c d a z) c 1 d (GReg.data (BitVec.ofNat 64 (Max.max x.toNat y.toNat))) 0 s ∧
    CompletesG (.mul c d a z) c 3 d (GReg.data (x * y)) 0 s ∧
    CompletesG (.mulh c d a z) c 3 d (GReg.data (((x.signExtend 128 * y.signExtend 128 : W128)).extractLsb' 64 64)) 0 s ∧
    CompletesG (.mulhn c d a z) c 3 d (GReg.data (((x.setWidth 128 * y.setWidth 128 : W128)).extractLsb' 64 64)) 0 s ∧
    CompletesG (.div c d a z) c 16 d (GReg.data (if y = 0 then BitVec.allOnes 64 else x.sdiv y)) 0 s ∧
    CompletesG (.divn c d a z) c 16 d (GReg.data (if y = 0 then BitVec.allOnes 64 else x / y)) 0 s ∧
    CompletesG (.rem c d a z) c 16 d (GReg.data (if y = 0 then x else x.srem y)) 0 s ∧
    CompletesG (.remn c d a z) c 16 d (GReg.data (if y = 0 then x else x % y)) 0 s

/-- The second source of the two-source scalar forms (R122), from the fields of the word to the value. -/
def Obligations.SecondSourceIsAsEncoded : Prop :=
  ∀ (f : Fields) (s : State),
    (f.imm = true → srcZ f = some (.imm (f.zhi ++ f.zlo)) ∧ s.srcZ (.imm (f.zhi ++ f.zlo)) = (f.zhi ++ f.zlo).signExtend 64) ∧
    (∀ n : BitVec 6, f.imm = false → f.zhi = encG n 0 → (f.zlo = 0 → srcZ f = some (.g n)) ∧ (f.zlo ≠ 0 → srcZ f = none) ∧
      s.srcZ (.g n) = (s.cx.gReg n).bits.setWidth 64) ∧
    (∀ v : BitVec 12, f.imm = false → f.zhi = encSmall v → (f.zlo = 0 → srcZ f = some (.small v)) ∧ (f.zlo ≠ 0 → srcZ f = none) ∧
      s.srcZ (.small v) = v.signExtend 64)

/-- Bits of a result that a rule gives one by one. -/
def hasBits (v : W64) (f : Nat → Bool) : Prop := ∀ i, i < 64 → v.getLsbD i = f i

/-- The IBIT and IMM classes (R133 to R135): each word completes with a value that has the bits its rule gives; counts are
stated by what they count. -/
def Obligations.FieldAndImmediateWordsComplete : Prop :=
  ∀ (c : Ctl) (d a : BitVec 6) (p n : GI) (f : IFmt) (z : BitVec 32) (s : State),
    let x := s.readG a
    let pos := (s.gi p).toNat % 64
    let len := Min.min 64 ((s.gi n).toNat % 128)
    (∃ v : W64, CompletesG (.clz c d a) c 1 d (GReg.data v) 0 s ∧ v.toNat ≤ 64 ∧ (∀ i, 64 ≤ i + v.toNat → x.getLsbD i = false) ∧
      (v.toNat < 64 → x.getLsbD (63 - v.toNat) = true)) ∧
    (∃ v : W64, CompletesG (.ctz c d a) c 1 d (GReg.data v) 0 s ∧ v.toNat ≤ 64 ∧ (∀ i, i < v.toNat → x.getLsbD i = false) ∧
      (v.toNat < 64 → x.getLsbD v.toNat = true)) ∧
    (∃ v : W64, CompletesG (.popc c d a) c 1 d (GReg.data v) 0 s ∧ v.toNat = ((List.range 64).filter fun i => x.getLsbD i).length) ∧
    (∃ v : W64, CompletesG (.brev c d a) c 1 d (GReg.data v) 0 s ∧ hasBits v fun i => x.getLsbD (63 - i)) ∧
    CompletesG (.ext c d f a) c 1 d (GReg.data (match f with
      | .i8 => (x.setWidth 8).signExtend 64 | .i16 => (x.setWidth 16).signExtend 64 | .i32 => (x.setWidth 32).signExtend 64
      | .n8 => (x.setWidth 8).setWidth 64 | .n16 => (x.setWidth 16).setWidth 64 | .n32 => (x.setWidth 32).setWidth 64
      | .i64 | .n64 => x)) 0 s ∧
    (∃ v : W64, CompletesG (.bfx c d a p n) c 1 d (GReg.data v) 0 s ∧
      hasBits v fun i => decide (i < len) && decide (pos + i < 64) && x.getLsbD (pos + i)) ∧
    (∃ v : W64, CompletesG (.bfxs c d a p n) c 1 d (GReg.data v) 0 s ∧
      hasBits v fun i => decide (0 < len) && x.getLsbD (Min.min 63 (pos + Min.min i (len - 1)))) ∧
    (∃ v : W64, CompletesG (.bfi c d a p n) c 1 d (GReg.data v) 0 s ∧
      hasBits v fun i => if pos ≤ i ∧ i < pos + len then x.getLsbD (i - pos) else (s.readG d).getLsbD i) ∧
    CompletesG (.movi c d z) c 1 d (GReg.data (z.signExtend 64)) 0 s ∧
    CompletesG (.movh c d z) c 1 d (GReg.data (z ++ (s.readG d).setWidth 32)) 0 s

/-- The CMP class (R124, R136): the relation of `a` to `b` on integers, the selection, and the predicate logic. -/
def Obligations.CompareAndSelectWordsComplete : Prop :=
  ∀ (c : Ctl) (qd qa qb : BitVec 3) (r : Rel) (d a b : BitVec 6) (z : SrcZ) (s : State),
    let x := s.readG a
    let y := s.srcZ z
    CompletesQ (.cmp c qd r a z) c 1 qd (match r with
      | .eq => decide (x = y) | .ne => decide (x ≠ y)
      | .lt => decide (x.toInt < y.toInt) | .le => decide (x.toInt ≤ y.toInt)
      | .gt => decide (y.toInt < x.toInt) | .ge => decide (y.toInt ≤ x.toInt)
      | .ltn => decide (x.toNat < y.toNat) | .len => decide (x.toNat ≤ y.toNat)
      | .gtn => decide (y.toNat < x.toNat) | .gen => decide (y.toNat ≤ x.toNat)
      | .tst => decide (x &&& y ≠ 0)) 0 s ∧
    CompletesG (.sel c d qa a b) c 1 d (GReg.data (if s.cx.pred qa = true then x else s.readG b)) 0 s ∧
    CompletesQ (.pand c qd qa qb) c 1 qd (s.cx.pred qa && s.cx.pred qb) 0 s ∧
    CompletesQ (.por c qd qa qb) c 1 qd (s.cx.pred qa || s.cx.pred qb) 0 s ∧
    CompletesQ (.pnot c qd qa) c 1 qd (!s.cx.pred qa) 0 s

/-- The BR class (R126 to R128): a taken branch goes to its target, and a link is the next word's address; a register
target is an untagged address or an executable kind-1 capability, and any other traps as R127 says; LOOP's counter lands before
the context's next issue, and LOOP waits for a pending result to it (R121). -/
def Obligations.BranchWordsComplete : Prop :=
  ∀ (c : Ctl) (l t n : BitVec 6) (off : BitVec 32) (a : W64) (cause : BitVec 8) (val : W64) (s : State),
    let here := s.cx.pc
    let rel := here + off.signExtend 64
    (Issues c fPlain s = true → exec (.bra c off) s = .next (s.retire c rel (some here))) ∧
    (Issues c fPlain s = true → brTarget (s.gReg t) = .to a →
      exec (.brx c t) s = .next (s.retire c a (some here)) ∧ exec (.ret c t) s = .next (s.retire c a (some here))) ∧
    (Issues c fPlain s = true → brTarget (s.gReg t) = .bad cause val →
      exec (.brx c t) s = .next (s.traps cause val) ∧ exec (.ret c t) s = .next (s.traps cause val)) ∧
    (Issues c (fTo l) s = true → s.leak l = false →
      exec (.callRelative c l off) s = .next ((s.landAfter 1 (.g l (GReg.data s.linkAddr)) 0).retire c rel (some here)) ∧
      (brTarget (s.gReg t) = .to a →
        exec (.callRegister c l t) s = .next ((s.landAfter 1 (.g l (GReg.data s.linkAddr)) 0).retire c a (some here)))) ∧
    (Issues c { fLate with d := some n } s = true → s.leak n = false →
      let v := s.readG n - 1
      let u := s.landNext c.set (.g n (GReg.data v))
      (v = 0 → exec (.loop c n off) s = .next (s.finish c fLate (.done u))) ∧
      (v ≠ 0 → exec (.loop c n off) s = .next (s.finish c fLate (.jump u rel)))) ∧
    ((s.gReg t).tag = false → brTarget (s.gReg t) = .to (s.readG t)) ∧
    ((s.gReg t).tag = true → capKind (s.gReg t).bits ≠ 1 →
      brTarget (s.gReg t) = .bad cCAPTAG (BitVec.ofNat 64 (capKind (s.gReg t).bits))) ∧
    ((s.gReg t).tag = true → capKind (s.gReg t).bits = 1 → capX (s.gReg t).bits = false → brTarget (s.gReg t) = .bad cCAPPERM 0)

/-! ## Floating point -/

/-- The rounding FPU words (R108, R138, R140) complete: one rounding in the mode at issue, SR taking one draw from the
generator first, the flags landing with the result; operands are the low bits of their format. -/
def Obligations.RoundingFloatWordsComplete : Prop :=
  ∀ (c : Ctl) (f : FFmt) (rm : Rm) (rs : RmSat) (dst src : NFmt) (d a b e : BitVec 6) (s : State),
    let g := fmtOf f
    let md := s.scalarMode rm
    let x := (s.readG a).toNat % 2 ^ g.width
    let y := (s.readG b).toNat % 2 ^ g.width
    let z := (s.readG e).toNat % 2 ^ g.width
    let done := fun (lat : Nat) (r : Nat × Flags) =>
      (md.2.landAfter lat (.g d (GReg.data (BitVec.ofNat 64 r.1))) r.2).retire c s.linkAddr
    let cv := convert dst (s.scalarMode rs.rm).1 rs.sat src ((s.readG a).toNat % 2 ^ NFmt.width src)
    Issues c (fTo d) s = true →
    (s.leak d = false →
      exec (.fadd c f rm d a b) s = .next (done 4 (fAdd g md.1 x y)) ∧
      exec (.fsub c f rm d a b) s = .next (done 4 (fSub g md.1 x y)) ∧
      exec (.fmul c f rm d a b) s = .next (done 4 (fMul g md.1 x y)) ∧
      exec (.ffma c f rm d a b e) s = .next (done 4 (fFma g md.1 x y z)) ∧
      exec (.fdiv c f rm d a b) s = .next (done 16 (fDiv g md.1 x y)) ∧
      exec (.fsqrt c f rm d a) s = .next (done 16 (fSqrt g md.1 x)) ∧
      exec (.fcvt c dst rs src d a) s = .next
        (((s.scalarMode rs.rm).2.landAfter 4 (.g d (GReg.data (extend64 dst cv.1))) cv.2).retire c s.linkAddr)) ∧
    (s.leak d = true → exec (.fadd c f rm d a b) s = .next (s.traps cENDLEAK (d.setWidth 64)) ∧
      exec (.fcvt c dst rs src d a) s = .next (s.traps cENDLEAK (d.setWidth 64))) ∧
    (let m := if rm = .dyn then rmOfCode s.cx.rmode else rm
     let p := s.me.proc
     md.1.rm = m ∧ (m ≠ .sr → md.2 = s) ∧
     (m = .sr → md.1.u = (drawAt p.srseed p.lcn p.srctr).toNat % 2 ^ 16 ∧ (md.2.coreAt s.core).proc.srctr = p.srctr + 1))

/-- The exact FPU words (R124, R139) complete two cycles later: the smaller and larger value, the class mask with one bit set,
the sign replaced, and the relation, with the flags of a comparison or a signalling NaN. -/
def Obligations.ExactFloatWordsComplete : Prop :=
  ∀ (c : Ctl) (f : FFmt) (r : FRel) (op : SgnOp) (qd : BitVec 3) (d a b : BitVec 6) (s : State),
    let g := fmtOf f
    let x := (s.readG a).toNat % 2 ^ g.width
    let y := (s.readG b).toNat % 2 ^ g.width
    let neg := match op with
      | .cp => signOf g y
      | .neg => !signOf g y
      | .xor => signOf g x != signOf g y
    CompletesG (.fmin c f d a b) c 2 d (GReg.data (BitVec.ofNat 64 (fMinMax g false x y).1)) (fMinMax g false x y).2 s ∧
    CompletesG (.fmax c f d a b) c 2 d (GReg.data (BitVec.ofNat 64 (fMinMax g true x y).1)) (fMinMax g true x y).2 s ∧
    CompletesG (.fclass c f d a) c 2 d (GReg.data (BitVec.ofNat 64 (2 ^ fClassBit g x))) 0 s ∧
    CompletesG (.fsgn c f op d a b) c 2 d
      (GReg.data (BitVec.ofNat 64 ((if neg then 2 ^ (g.width - 1) else 0) + x % 2 ^ (g.width - 1)))) 0 s ∧
    CompletesQ (.fcmp c f r qd a b) c 2 qd (fCompare g r x y).1 (fCompare g r x y).2 s

/-! ## The local store and capabilities -/

/-- LDL and STL (R142) complete where the window's checks give an address that no agent claims: LDL lands the little-endian
value four cycles later, sign- or zero-extended by its format; STL writes its low bytes at once. A window's trap is the word's. -/
def Obligations.LocalWordsComplete : Prop :=
  ∀ (c : Ctl) (f : IFmt) (d w r : BitVec 6) (z : SrcZ) (a : Nat) (s : State),
    let n := IFmt.width f / 8
    (Issues c (fTo d) s = true → lsAddr (s.gReg w) true false (s.srcZ z).toInt n n = .at_ a → s.lsHeld s.core a n false = false →
      s.leak d = false →
      exec (.ldl c f d w z) s = .next
        (((s.lsRead s.core a n).2.landAfter 4 (.g d (GReg.data (extInt f (leNat (s.lsRead s.core a n).1)))) 0).retire c s.linkAddr)) ∧
    (Issues c fPlain s = true → lsAddr (s.gReg w) false true (s.srcZ z).toInt n n = .at_ a → s.lsHeld s.core a n true = false →
      exec (.stl c f r w z) s = .next ((s.lsWrite s.core a (natLE n (s.readG r).toNat)).retire c s.linkAddr)) ∧
    (∀ cause val, (Issues c (fTo d) s = true → lsAddr (s.gReg w) true false (s.srcZ z).toInt n n = .bad cause val →
        exec (.ldl c f d w z) s = .next (s.traps cause val)) ∧
      (Issues c fPlain s = true → lsAddr (s.gReg w) false true (s.srcZ z).toInt n n = .bad cause val →
        exec (.stl c f r w z) s = .next (s.traps cause val)))

/-- The checks of a window in the order of R142: tag, kind, permission, bounds of the window and of the local store, alignment;
each trap with its `tval`, and the address where none fails. -/
def Obligations.WindowChecksInOrder : Prop :=
  ∀ (r : GReg) (rd wr : Bool) (off : Int) (size align : Nat), 0 < align →
    let a : Int := (capBase r.bits + capCursor r.bits : Nat) + off
    (r.tag = false → lsAddr r rd wr off size align = .bad cCAPTAG 0) ∧
    (r.tag = true → capKind r.bits ≠ 2 → lsAddr r rd wr off size align = .bad cCAPTAG (BitVec.ofNat 64 (capKind r.bits))) ∧
    (r.tag = true → capKind r.bits = 2 →
      ((rd = true ∧ capR r.bits = false ∨ wr = true ∧ capW r.bits = false) → lsAddr r rd wr off size align = .bad cCAPPERM 0) ∧
      ((rd = true → capR r.bits = true) → (wr = true → capW r.bits = true) →
        ((a < capBase r.bits ∨ (capBase r.bits + capLength r.bits : Nat) < a + size ∨ (262144 : Int) < a + size) →
          lsAddr r rd wr off size align = .bad cCAPBND (BitVec.ofInt 64 a)) ∧
        ((capBase r.bits : Int) ≤ a → a + size ≤ (capBase r.bits + capLength r.bits : Nat) → a + size ≤ 262144 →
          (a % align ≠ 0 → lsAddr r rd wr off size align = .bad cALIGN (BitVec.ofInt 64 a)) ∧
          (a % align = 0 → ∃ n : Nat, lsAddr r rd wr off size align = .at_ n ∧ (n : Int) = a))))

/-- What STL leaves alone: every byte of the local store outside the bytes at the address its window gives, every other core, all
of memory and every register. -/
def Obligations.StoreLocalFrame : Prop :=
  ∀ (c : Ctl) (f : IFmt) (r w : BitVec 6) (z : SrcZ) (s t : State), exec (.stl c f r w z) s = .next t →
    t.mem = s.mem ∧ (∀ n k, sameRegs (s.ctxAt n k) (t.ctxAt n k)) ∧ (∀ n, n ≠ s.core → (t.coreAt n).ls = (s.coreAt n).ls) ∧
    ∀ a, lsAddr (s.gReg w) false true (s.offZ z) (IFmt.width f / 8) (IFmt.width f / 8) = .at_ a →
      ∀ j, j < a ∨ a + IFmt.width f / 8 ≤ j → Tab.get 0 (t.coreAt s.core).ls j = Tab.get 0 s.me.ls j

/-- The CAP class (R354 to R358) completes: CBOUND, CDERIVE and CPERM on a capability of their kinds whose new fields fit, CGET,
CTEST and CNULL on every register; CMOVE and CPERM of a live end move it, and its old register becomes untagged zero; CPERM of an end
to its own register clears in place, and CMOVE of a register to itself changes nothing. A source of another kind traps CAPTAG, and a
new base that is no multiple of 16, a length that does not fit and a cursor out of range trap as R355 says, in its order. -/
def Obligations.CapabilityWordsComplete : Prop :=
  ∀ (c : Ctl) (d g : BitVec 6) (qd : BitVec 3) (sl k : BitVec 3) (z : SrcZ) (s : State),
    let r := s.gReg g
    let len := (s.srcZ z).toNat
    let nb := capBase r.bits + capCursor r.bits
    let x : Int := (capCursor r.bits : Int) + (s.srcZ z).toInt
    (∀ sc n, r.tag = true → (capKind r.bits = 1 ∨ capKind r.bits = 2) → nb % 16 = 0 → nb < 2 ^ 48 →
      capCursor r.bits + len ≤ capLength r.bits → pickScale len = some (sc, n) →
      CompletesG (.cbound c d g z) c 1 d { bits := capMake r.bits n sc (nb / 16) 0, tag := true, endst := 0 } 0 s) ∧
    (r.tag = true → (capKind r.bits = 1 ∨ capKind r.bits = 2) → 0 ≤ x → x < 2 ^ 40 →
      CompletesG (.cderive c d g z) c 1 d { bits := r.bits.extractLsb' 40 88 ++ BitVec.ofInt 40 x, tag := true, endst := 0 } 0 s) ∧
    (r.tag = true → 1 ≤ capKind r.bits → capKind r.bits ≤ 5 → r.isEnd = false →
      CompletesG (.cperm c d g z) c 1 d { r with bits := permBits r.bits (s.srcZ z) } 0 s) ∧
    CompletesG (.cget c d g sl) c 1 d (GReg.data (capField r sl)) 0 s ∧
    CompletesQ (.ctest c qd g k) c 1 qd (if k = 0 then !r.tag else r.tag && capKind r.bits == k.toNat) 0 s ∧
    CompletesG (.cnull c d) c 1 d GReg.zero 0 s ∧
    (r.isEnd = false → d ≠ g → CompletesG (.cmove c d g) c 1 d r 0 s) ∧
    (r.isEnd = true → d ≠ g → s.leak d = false → Issues c (fTo d) s = true →
      exec (.cmove c d g) s = .next (((s.landAfter 1 (.g g GReg.zero) 0).landAfter 1 (.g d r) 0).retire c s.linkAddr) ∧
      exec (.cperm c d g z) s = .next (((s.landAfter 1 (.g g GReg.zero) 0).landAfter 1
        (.g d { r with bits := permBits r.bits (s.srcZ z) }) 0).retire c s.linkAddr)) ∧
    (Issues c (fTo g) s = true → exec (.cmove c g g) s = .next (s.retire c s.linkAddr) ∧
      (r.isEnd = true → exec (.cperm c g g z) s =
        .next ((s.landAfter 1 (.g g { r with bits := permBits r.bits (s.srcZ z) }) 0).retire c s.linkAddr))) ∧
    (Issues c (fTo d) s = true →
      (∀ val, (r.tag = false ∧ val = 0 ∨ r.tag = true ∧ val = BitVec.ofNat 64 (capKind r.bits)) →
        (r.tag = true → capKind r.bits ≠ 1 ∧ capKind r.bits ≠ 2) →
          exec (.cbound c d g z) s = .next (s.traps cCAPTAG val) ∧ exec (.cderive c d g z) s = .next (s.traps cCAPTAG val) ∧
          ((r.tag = true → capKind r.bits < 1 ∨ 5 < capKind r.bits) → exec (.cperm c d g z) s = .next (s.traps cCAPTAG val))) ∧
      (r.tag = true → (capKind r.bits = 1 ∨ capKind r.bits = 2) →
        (nb % 16 ≠ 0 → exec (.cbound c d g z) s = .next (s.traps cALIGN (BitVec.ofNat 64 nb))) ∧
        (nb % 16 = 0 → capLength r.bits < capCursor r.bits + len →
          exec (.cbound c d g z) s = .next (s.traps cCAPBND (BitVec.ofNat 64 nb))) ∧
        (nb % 16 = 0 → capCursor r.bits + len ≤ capLength r.bits → pickScale len = none →
          exec (.cbound c d g z) s = .next (s.traps cCAPBND (BitVec.ofNat 64 len))) ∧
        ((x < 0 ∨ 2 ^ 40 ≤ x) → exec (.cderive c d g z) s = .next (s.traps cCAPBND (BitVec.ofInt 64 x)))))

/-- No word grants more than its source held (R350 to R357): a capability that CBOUND, CDERIVE or CPERM makes has the kind of its
source, no permission its source lacked, and, for kinds 1 and 2, bytes inside the bytes of its source (a base is an address, below 2^48: R350);
CPERM of an end or a graph keeps the permissions of its mask and nothing else changes, and of a kind-5 capability the services of its
mask, with CALL cleared when none is left. -/
def Obligations.DerivedCapabilitiesGrantNoMore : Prop :=
  ∀ (b : W128) (len : Nat) (x : Int) (m : W64) (sc n : Nat),
    ((capKind b = 3 ∨ capKind b = 4) →
      let v := permBits b m
      v.extractLsb' 125 3 = b.extractLsb' 125 3 ∧ v.extractLsb' 122 3 = b.extractLsb' 122 3 &&& m.setWidth 3 ∧
        v.extractLsb' 0 122 = b.extractLsb' 0 122) ∧
    (capKind b = 5 →
      let v := permBits b m
      v.extractLsb' 125 3 = b.extractLsb' 125 3 ∧ v.extractLsb' 64 32 = b.extractLsb' 64 32 &&& m.setWidth 32 ∧
        v.extractLsb' 0 64 = b.extractLsb' 0 64 ∧ v.extractLsb' 96 28 = b.extractLsb' 96 28 ∧
        v.getLsbD 124 = (b.getLsbD 124 && decide (b.extractLsb' 64 32 &&& m.setWidth 32 ≠ 0))) ∧
    ((capKind b = 1 ∨ capKind b = 2) →
    (let nb := capBase b + capCursor b
     nb % 16 = 0 → nb < 2 ^ 48 → capCursor b + len ≤ capLength b → pickScale len = some (sc, n) →
      let v := capMake b n sc (nb / 16) 0
      capKind v = capKind b ∧ v.extractLsb' 120 5 = b.extractLsb' 120 5 ∧ capBase b ≤ capBase v ∧
        capBase v + capLength v ≤ capBase b + capLength b ∧ capLength v = len) ∧
    (let v : W128 := b.extractLsb' 40 88 ++ BitVec.ofInt 40 x
     capKind v = capKind b ∧ v.extractLsb' 120 5 = b.extractLsb' 120 5 ∧ capBase v = capBase b ∧ capLength v = capLength b) ∧
    (let v := permBits b m
     capKind v = capKind b ∧ v.extractLsb' 120 5 = (b.extractLsb' 120 5 &&& m.setWidth 5) ∧ capBase v = capBase b ∧
       capLength v = capLength b ∧ capCursor v = capCursor b))

/-! ## Wide words -/

/-- The core issue of a wide floating-point word (R145 to R148, R155) completes: one entry at the end of the core's queue with its
physical registers, its mode and draws, and its g operand's value in every element. -/
def Obligations.WideFloatWordsQueue : Prop :=
  ∀ (c : Ctl) (f : FFmt) (rm : Rm) (d a e : WOp) (b : WG) (m : BitVec 3) (s : State),
    let w := (fmtOf f).width
    let src := fun (o : WOp) => WSrc.reg (s.resolveW o).get
    let put := fun (op : WideOp) (r : Rm) (hasG : Bool) (x y z : WSrc) =>
      ((s.wideMode r).2.2.enqueue { s.wentry c op hasG (s.resolveW d).get m with
        a := x, b := y, c := z, rm := (s.wideMode r).1, draws := (s.wideMode r).2.1 }).retire c s.linkAddr
    (IssuesWide c s (s.resolveW d :: s.resolveW a :: s.wgRes b) = true →
      exec (.vadd c f rm d a b m) s = .next (put (.fbin .add f) rm (WG.isG b) (src a) (s.wgSrc w b) (.val 0)) ∧
      exec (.vsub c f rm d a b m) s = .next (put (.fbin .sub f) rm (WG.isG b) (src a) (s.wgSrc w b) (.val 0)) ∧
      exec (.vmul c f rm d a b m) s = .next (put (.fbin .mul f) rm (WG.isG b) (src a) (s.wgSrc w b) (.val 0)) ∧
      exec (.vdiv c f rm d a b m) s = .next (put (.fbin .div f) rm (WG.isG b) (src a) (s.wgSrc w b) (.val 0)) ∧
      exec (.vmin c f d a b m) s = .next (put (.fbin .min f) .rn (WG.isG b) (src a) (s.wgSrc w b) (.val 0)) ∧
      exec (.vmax c f d a b m) s = .next (put (.fbin .max f) .rn (WG.isG b) (src a) (s.wgSrc w b) (.val 0))) ∧
    (IssuesWide c s [s.resolveW d, s.resolveW a] = true →
      exec (.vabs c f d a m) s = .next (put (.fun1 .abs f) .rn false (src a) (.val 0) (.val 0)) ∧
      exec (.vneg c f d a m) s = .next (put (.fun1 .neg f) .rn false (src a) (.val 0) (.val 0)) ∧
      exec (.vrcp c f rm d a m) s = .next (put (.fun1 .rcp f) rm false (src a) (.val 0) (.val 0)) ∧
      exec (.vrsq c f rm d a m) s = .next (put (.fun1 .rsq f) rm false (src a) (.val 0) (.val 0)) ∧
      exec (.vexp2 c f rm d a m) s = .next (put (.fun1 .exp2 f) rm false (src a) (.val 0) (.val 0)) ∧
      exec (.vlog2 c f rm d a m) s = .next (put (.fun1 .log2 f) rm false (src a) (.val 0) (.val 0))) ∧
    (∀ a' : WG, IssuesWide c s (s.resolveW d :: (s.wgRes a' ++ s.wgRes b ++ [s.resolveW e])) = true →
      exec (.vfma c f rm d a' b e m) s =
        .next (put (.ffma f) rm (WG.isG a' || WG.isG b) (s.wgSrc w a') (s.wgSrc w b) (src e)))

/-- The core issue of a wide integer, mask, permutation, reduction, conversion or move word (R156 to R162, R165) completes in the
same way; none of them but a rounding reduction or conversion draws. -/
def Obligations.WideIntegerWordsQueue : Prop :=
  ∀ (c : Ctl) (f : IFmt) (nf nf' : NFmt) (d a a' i : WOp) (b : WGI) (m md ma mb : BitVec 3) (r : VRel) (v : GI) (x : BitVec 6)
    (ln : BitVec 5) (sf : SumFmt) (xf : MaxFmt) (rs : RmSat) (rm : Rm) (px : PxFmt) (ff : FFmt) (s : State),
    let w := IFmt.width f
    let src := fun (o : WOp) => WSrc.reg (s.resolveW o).get
    let put := fun (op : WideOp) (hasG : Bool) (p : Nat) (m : BitVec 3) (x y z : WSrc) =>
      (s.enqueue { s.wentry c op hasG p m with a := x, b := y, c := z, rm := .rn, draws := [] }).retire c s.linkAddr
    let conv := fun (op : WideOp) (r : Rm) (m : BitVec 3) =>
      ((s.wideMode r).2.2.enqueue { s.wentry c op false (s.resolveW d).get m with
        a := src a, rm := (s.wideMode r).1, draws := (s.wideMode r).2.1 }).retire c s.linkAddr
    let D := (s.resolveW d).get
    let int := fun (op : IBin) => put (.ibin op f) (WGI.isG b) D m (src a) (s.wgiSrc w b) (.val 0)
    (IssuesWide c s (s.resolveW d :: s.resolveW a :: s.wgiRes b) = true →
      exec (.viadd c f d a b m) s = .next (int .add) ∧ exec (.visub c f d a b m) s = .next (int .sub) ∧
      exec (.vimul c f d a b m) s = .next (int .mul) ∧ exec (.vand c f d a b m) s = .next (int .and) ∧
      exec (.vor c f d a b m) s = .next (int .or) ∧ exec (.vxor c f d a b m) s = .next (int .xor) ∧
      exec (.vshl c f d a b m) s = .next (int .shl) ∧ exec (.vshr c f d a b m) s = .next (int .shr) ∧
      exec (.vsar c f d a b m) s = .next (int .sar)) ∧
    (IssuesWide c s (s.resolveW a :: s.wgiRes b) = true →
      exec (.vcmp c r md a b m) s = .next (put (.cmp r) (WGI.isG b) md.toNat m (src a) (s.wgiSrc 32 b) (.val 0))) ∧
    (IssuesWide c s [s.resolveW d, s.resolveW a, s.resolveW a'] = true →
      exec (.vsel c d a a' m) s = .next (put .sel false D m (src a) (src a') (.val 0)) ∧
      exec (.vperm c d a a' m) s = .next (put .perm false D m (src a) (src a') (.val 0))) ∧
    (IssuesWide c s [s.resolveW d, s.resolveW a, s.resolveW a', s.resolveW i] = true →
      exec (.vshuf c d a a' i m) s = .next (put .shuf false D m (src a) (src a') (src i))) ∧
    (IssuesWide c s [] = true →
      exec (.mand c md ma mb) s = .next (put (.mand ma mb) false md.toNat 0 (.val 0) (.val 0) (.val 0)) ∧
      exec (.mor c md ma mb) s = .next (put (.mor ma mb) false md.toNat 0 (.val 0) (.val 0) (.val 0)) ∧
      exec (.mnot c md ma) s = .next (put (.mnot ma) false md.toNat 0 (.val 0) (.val 0) (.val 0))) ∧
    (IssuesWide c s [s.resolveW d] = true →
      exec (.vbcast c nf d v m) s = .next (put .bcast (GI.isG v) D m (.val (replicate (NFmt.width nf) (s.gi v))) (.val 0) (.val 0)) ∧
      exec (.vins c d v ln) s = .next (put (.ins ln) (GI.isG v) D 0 (.val (replicate 32 (s.gi v))) (.val 0) (.val 0))) ∧
    (IssuesWide c s [s.resolveW a] = true → Issues c fLate s = true → s.leak x = false →
      exec (.vextr c x a ln) s =
        .next (s.finish c fLate (.done (s.enqueue { s.wentry c (.extr ln) false x.toNat 0 with a := src a })))) ∧
    (IssuesWide c s [s.resolveW d, s.resolveW a] = true →
      (∀ rm, sf = .f32 rm → exec (.vrsum c sf d a m) s = .next (conv (.rsum (.f32 (s.wideMode rm).1)) rm m)) ∧
      (sf = .i32 ∨ sf = .n32 → exec (.vrsum c sf d a m) s = .next (conv (.rsum sf) .rn m)) ∧
      exec (.vrmax c xf d a m) s = .next (conv (.rmax xf) .rn m) ∧ exec (.vrmin c xf d a m) s = .next (conv (.rmin xf) .rn m) ∧
      exec (.vcvt c nf rs nf' d a m) s = .next (conv (.cvt nf rs.sat nf') rs.rm m) ∧
      exec (.vpxenc c px rm ff d a) s = .next (conv (.pxenc px ff) rm 0) ∧
      exec (.vpxdec c ff rm px d a) s = .next (conv (.pxdec ff px) rm 0) ∧
      exec (.vmov c d a m) s = .next (conv .mov .rn m))

/-- The core issue of a wide local-store word (R163) completes with the address its window gives; VLDX and VSTX carry the window's
bounds, for a lane out of bounds is left out and does not trap. The window is no g operand of
R147 (log 88, the model's reading of R148 and R183). -/
def Obligations.WideLocalWordsQueue : Prop :=
  ∀ (c : Ctl) (r i : WOp) (w : BitVec 6) (off : BitVec 32) (o : BitVec 12) (m : BitVec 3) (a : Nat) (s : State),
    let src := fun (o : WOp) => WSrc.reg (s.resolveW o).get
    let put := fun (op : WideOp) (m : BitVec 3) =>
      (s.enqueue { s.wentry c op false (s.resolveW r).get m with a := src r, addr := a, len := 128 }).retire c s.linkAddr
    let g := s.gReg w
    let ind := fun (op : WideOp) =>
      (s.enqueue { s.wentry c op false (s.resolveW r).get m with
        a := src r, b := src i, addr := capBase g.bits + capCursor g.bits, lo := capBase g.bits,
        hi := capBase g.bits + capLength g.bits }).retire c s.linkAddr
    (IssuesWide c s [s.resolveW r] = true →
      (lsAddr g true false off.toInt 128 4 = .at_ a → exec (.vldlImmediate c r w off) s = .next (put .ldl 0)) ∧
      (lsAddr g true false o.toInt 128 4 = .at_ a → exec (.vldlRegister c r w o m) s = .next (put .ldl m)) ∧
      (lsAddr g false true off.toInt 128 4 = .at_ a → exec (.vstlImmediate c r w off) s = .next (put .stl 0)) ∧
      (lsAddr g false true o.toInt 128 4 = .at_ a → exec (.vstlRegister c r w o m) s = .next (put .stl m))) ∧
    (IssuesWide c s [s.resolveW r, s.resolveW i] = true →
      (windowCheck g true false = none → exec (.vldx c r w i m) s = .next (ind .ldx)) ∧
      (windowCheck g false true = none → exec (.vstx c r w i m) s = .next (ind .stx))) ∧
    ∀ (e : WEntry) (off : Nat), (e.laneAddr off = none ↔
      ¬ (e.lo ≤ e.addr + off ∧ e.addr + off + 4 ≤ e.hi ∧ e.addr + off + 4 ≤ Config.lsSize ∧ off % 4 = 0))

/-- The wide unit starts the head of a queue that is ready (R145 to R147): the entry leaves the queue, the context's next wide issue
waits for its delay, and the operation is performed; a head that is not ready stays. Where it computes a w register, the value and
the flags land at its latency in the lanes it writes (R57, R148, R149); a VEXTR's g result lands, and its count is withdrawn, at its latency
of 3 (R57, R159), and a read before that may already give it (R58). -/
def Obligations.WideIssueStartsTheHead : Prop :=
  ∀ (n : Nat) (e : WEntry) (r : List WEntry) (s : State), n < 4096 → (s.coreAt n).wq = e :: r →
    let mask := (s.ctxAt n e.ctx).mask e.mask
    let o := wideValue e.op e.rm e.draws mask (e.a.read (s.coreAt n)) (e.b.read (s.coreAt n)) (e.c.read (s.coreAt n))
    (s.headReady n e = false → exec (.wideIssue n) s = .next s) ∧
    (s.headReady n e = true → ∃ t u : State, exec (.wideIssue n) s = .next t ∧ t = (u.performWide n e).count n 3 ∧
      (u.coreAt n).wq = r ∧ (u.ctxAt n e.ctx).wideNotBefore = s.cyc + e.delay + 1 ∧ u.mem = s.mem ∧ u.cyc = s.cyc ∧
      (u.coreAt n).w = (s.coreAt n).w ∧ (u.coreAt n).ls = (s.coreAt n).ls ∧ (u.coreAt n).land = (s.coreAt n).land) ∧
    ((match e.op with
      | .fbin .. | .ffma _ | .fun1 .. | .ibin .. | .sel | .perm | .shuf | .bcast | .ins _ | .rsum _ | .rmax _ | .rmin _ | .cvt ..
      | .pxenc .. | .pxdec .. | .mov => True
      | _ => False) →
      s.performWide n e = s.landWide n e (.w e.d o.lanes o.v) o.fl ∧
        ((s.landWide n e (.w e.d o.lanes o.v) o.fl).coreAt n).land = (s.coreAt n).land ++
          [{ due := s.cyc + e.op.latency, issued := e.issued, ctx := e.ctx, res := .w e.d o.lanes o.v, flags := o.fl, sb := none, late := false }]) ∧
    ∀ l, e.op = .extr l → ∃ d, s.cyc < d ∧ d ≤ s.cyc + 3 ∧
      let v := GReg.data (BitVec.ofNat 64 (lane (e.a.read (s.coreAt n)) l.toNat))
      let at_ : Landing := { due := s.cyc + 3, issued := e.issued, ctx := e.ctx, res := .g (BitVec.ofNat 6 e.d) v, flags := 0, sb := some e.set, late := true }
      ((s.performWide n e).coreAt n).land = (s.coreAt n).land ++ [{ at_ with due := d, sb := none }, at_]

/-- ALLOT and SHRINK (R151, R152) complete: a free block below 64 registers is taken zeroed and the predicate is true, else false;
the last block is given back when no wide result of the context is under way; and a w operand at or above the allotment traps ALLOT
with its number (R60, R153), for the first such operand in field order. -/
def Obligations.AllotmentWordsComplete : Prop :=
  ∀ (c : Ctl) (qd : BitVec 3) (s : State),
    (∀ b l, CompletesAs (.allot c qd) c fPlain (s.me.freeBlocks = b :: l ∧ s.cx.allot < 64)
      (((s.updMe fun c => c.zeroBlock b).updCx fun x => { x with blocks := x.blocks ++ [b] }).landAfter 1 (.q qd true) 0) s) ∧
    CompletesAs (.allot c qd) c fPlain (s.me.freeBlocks = [] ∨ 64 ≤ s.cx.allot) (s.landAfter 1 (.q qd false) 0) s ∧
    CompletesAs (.shrink c qd) c fPlain (s.widePending s.core s.k = false ∧ 0 < s.cx.allot)
      ((s.updCx fun x => { x with blocks := x.blocks.dropLast }).landAfter 1 (.q qd true) 0) s ∧
    CompletesAs (.shrink c qd) c fPlain (s.widePending s.core s.k = false ∧ s.cx.allot = 0) (s.landAfter 1 (.q qd false) 0) s ∧
    ∀ (f : FFmt) (rm : Rm) (d a : WOp) (b : WG) (m : BitVec 3) (e : W64),
      s.me.wq.length < 8 → Issues c fPlain s = true →
      (firstBad (s.resolveW d :: s.resolveW a :: s.wgRes b) = some e → exec (.vadd c f rm d a b m) s = .next (s.traps cALLOT e)) ∧
      (firstBad [s.resolveW d, s.resolveW a] = some e → exec (.vmov c d a m) s = .next (s.traps cALLOT e)) ∧
      (∀ n : BitVec 6, s.resolveW (.w n) = if n.toNat < s.cx.allot then .ok (s.cx.phys n.toNat) else .bad (n.setWidth 64))

/-! ## The matrix unit -/

/-- The slot and tile words (R166, R169 to R171, R178) complete on a core of a quad: MCLAIM tells whether the slot was free, MREL
frees it when no operation reads it, MLOAD copies the window's bytes into a claimed slot by an event of its own, MCFG and MZERO
work on an unowned tile that no queued word names, and the tile accesses join the dispatch queue. -/
def Obligations.SlotAndTileWordsComplete : Prop :=
  ∀ (c : Ctl) (qd : BitVec 3) (k : BitVec 5) (w g : BitVec 6) (desc : BitVec 32) (a : BitVec 2) (sh : BitVec 3) (o : WOp)
    (j : BitVec 5) (z : SrcZ) (p : Nat) (s : State), s.inQuad s.core = true →
    let slot := s.myArbor.slot k
    let put := fun (v : Slot) (t : State) => t.updArbor (arborOf s.core) fun x => x.setSlot k v
    let free := s.tileOwned a = false ∧ s.tileQueued a = false
    let src := capBase (s.gReg w).bits + capCursor (s.gReg w).bits
    let copied := fun (d : W32) =>
      let len := 16 * (bits d 20 10)
      let r := s.lsRead s.core src len
      let m : MLoad := { id := s.ids, slot := k.toNat, off := 16 * (bits d 9 0), addr := src, len := len, data := r.1 }
      (({ r.2 with ids := s.ids + 1 } : State).updMe fun c => { c with mloads := c.mloads ++ [m] }).within
        (4 + (len + 255) / 256) (.mloadCompletion s.core s.ids)
    let fits := fun (d : W32) =>
      windowCheck (s.gReg w) true false = none ∧ bits d 31 21 = 0 ∧ bits d 20 10 ≠ 0 ∧ bits d 9 0 + bits d 20 10 ≤ 1024 ∧
        slot.claimed = true ∧ src + 16 * bits d 20 10 ≤ capBase (s.gReg w).bits + capLength (s.gReg w).bits ∧
        src + 16 * bits d 20 10 ≤ 262144 ∧ src % 16 = 0 ∧
        ((s.myArbor.waiting ++ s.myArbor.flying).any fun m => m.pos == posOf s.core && m.reads k) = false ∧
        s.lsHeld s.core src (16 * bits d 20 10) false = false
    CompletesAs (.mclaim c qd k) c fLate (slot.claimed = true) (s.landLate c.set (.q qd false)) s ∧
    CompletesAs (.mclaim c qd k) c fLate (slot.claimed = false)
      ((put { claimed := true, data := [] } s).landLate c.set (.q qd true)) s ∧
    CompletesAs (.mrel c k) c fPlain ((s.myArbor.flying.any fun m => m.reads k) = false) (put { slot with claimed := false } s) s ∧
    CompletesAs (.mloadImmediate c k w desc) c fPlain (fits desc) (copied desc) s ∧
    CompletesAs (.mloadRegister c k w g) c fPlain (fits ((s.readG g).setWidth 32)) (copied ((s.readG g).setWidth 32)) s ∧
    (∀ n id m, n < 4096 → (s.coreAt n).mloads.find? (fun m => m.id == id) = some m →
      exec (.mloadCompletion n id) s = .next ((s.updCore n fun c => { c with mloads := c.mloads.filter fun x => x.id != id }).updArbor
        (arborOf n) fun x =>
          let i := BitVec.ofNat 5 m.slot
          x.setSlot i { x.slot i with data := Tab.writeBytes (x.slot i).data m.off m.data })) ∧
    CompletesAs (.mcfg c a sh) c fPlain (free ∧ ¬ ((s.me.tile a).h8 = sh.getLsbD 0 ∧ (s.me.tile a).n32 = sh.getLsbD 1 ∧
        (s.me.tile a).isInt = sh.getLsbD 2))
      (s.updMe fun c => c.setTile a { h8 := sh.getLsbD 0, n32 := sh.getLsbD 1, isInt := sh.getLsbD 2, data := [], owner := none }) s ∧
    CompletesAs (.mcfg c a sh) c fPlain (free ∧ (s.me.tile a).h8 = sh.getLsbD 0 ∧ (s.me.tile a).n32 = sh.getLsbD 1 ∧
        (s.me.tile a).isInt = sh.getLsbD 2) s s ∧
    CompletesAs (.mzero c a) c fPlain free (s.updMe fun c => c.setTile a { c.tile a with data := [] }) s ∧
    CompletesAs (.mwait c a) c fPlain (s.tileOwned a = false) s s ∧
    (IssuesWide c s [s.resolveW o] = true → j.toNat < (s.me.tile a).chunks →
      exec (.mrdacc c o a j) s = .next ((s.enqueue (s.wentry c (.mrdacc a j) false (s.resolveW o).get 0)).retire c s.linkAddr) ∧
      exec (.mwracc c a o j) s = .next ((s.enqueue { s.wentry c (.mwracc a j) false 0 0 with
        a := .reg (s.resolveW o).get }).retire c s.linkAddr)) ∧
    (IssuesWide c s [] = true → lsAddr (s.gReg w) false true (s.offZ z) (s.me.tile a).size 16 = .at_ p →
      exec (.mstacc c a w z) s = .next ((s.enqueue { s.wentry c (.mstacc a) false 0 0 with
        addr := p, len := (s.me.tile a).size }).retire c s.linkAddr))

/-- The joint operation of an arbor (R172 to R177): MGANG owns its tile and waits; the fourth of four that agree sets the operation
going, to start within 6 cycles; on a core outside a quad MGANG traps GANGMIS with reason 1. The start reads slots and tiles, and each of
the four contexts that waits there goes on at its next word, or stops under a stop at yield points (R180); the completion follows at its
fixed distance. It writes the tiles, ends their ownership and ORs the flags into the issuing contexts. -/
def Obligations.JointOperationCompletes : Prop :=
  ∀ (c : Ctl) (f : MFmt) (a : BitVec 2) (ka kb : BitVec 5) (tag : BitVec 4) (s : State),
    let ar := s.myArbor
    let m : MGang := { pos := posOf s.core, ctx := s.k, f := f, a := a.toNat, ka := ka.toNat, kb := kb.toNat, tag := tag }
    let t := s.updMe fun c => c.setTile a { c.tile a with owner := some s.k }
    let ok := s.inQuad s.core = true ∧ (ar.waiting.any fun x => x.pos == posOf s.core) = false ∧ ar.flying = [] ∧
      s.me.mloads = [] ∧ s.tileQueued a = false
    WaitsAs (.mgang c f a ka kb tag) c fYield (ok ∧ ar.waiting.length < 3) .gangIssue
      (t.updArbor (arborOf s.core) fun x => { x with waiting := ar.waiting ++ [m] }) s ∧
    WaitsAs (.mgang c f a ka kb tag) c fYield
      (ok ∧ 3 ≤ ar.waiting.length ∧ t.disagree (arborOf s.core) (ar.waiting ++ [m]) = none) .gangIssue
      ((t.updArbor (arborOf s.core) fun x => { x with waiting := [], flying := ar.waiting ++ [m], started := false }).within 6
        (.matrixOperationStart (arborOf s.core))) s ∧
    (Issues c fYield s = true → s.inQuad s.core = false → exec (.mgang c f a ka kb tag) s = .next (s.traps cGANGMIS 1)) ∧
    (∀ b, 4 * b < 4096 → (s.arborAt b).flying ≠ [] → (s.arborAt b).started = false →
      ∃ u : State, exec (.matrixOperationStart b) s = .next u ∧ (u.arborAt b).started = true ∧
        (u.arborAt b).flying = (s.arborAt b).flying ∧ (u.arborAt b).slots = (s.arborAt b).slots ∧ u.mem = s.mem ∧
        (s.cyc + Config.matrixCycles, .matrixOperationCompletion b) ∈ u.calendar ∧
        (u.arborAt b).results = ((s.arborAt b).flying.map fun m =>
          (m.pos, mTile m.f ((s.arborAt b).slot (BitVec.ofNat 5 m.ka)).data ((s.arborAt b).slot (BitVec.ofNat 5 m.kb)).data m.pos
            (s.gangTile b m))) ∧
        ∀ m ∈ (s.arborAt b).flying, (s.ctxAt (4 * b + m.pos) m.ctx).run = .waiting .gangIssue →
          (s.ctxAt (4 * b + m.pos) m.ctx).gangEvents = [] →
          (u.ctxAt (4 * b + m.pos) m.ctx).pc = s.nextPc (4 * b + m.pos) (s.ctxAt (4 * b + m.pos) m.ctx).pc ∧
          (u.ctxAt (4 * b + m.pos) m.ctx).run =
            if (s.coreAt (4 * b + m.pos)).proc.yieldStop = true ∧ m.ctx ≠ 0 then .stopped else .ready) ∧
    ∀ b, 4 * b < 4096 → (s.arborAt b).started = true →
      ∃ u : State, exec (.matrixOperationCompletion b) s = .next u ∧ (u.arborAt b).flying = [] ∧ (u.arborAt b).started = false ∧
        (u.arborAt b).slots = (s.arborAt b).slots ∧ u.mem = s.mem ∧
        (((s.arborAt b).flying.map fun m => m.pos).Nodup →
          ∀ m ∈ (s.arborAt b).flying, ∀ r, (s.arborAt b).results.find? (fun r => r.1 == m.pos) = some r →
            (u.gangTile b m).data = r.2.1 ∧ (u.gangTile b m).owner = none ∧
            (u.ctxAt (4 * b + m.pos) m.ctx).fflags = (s.ctxAt (4 * b + m.pos) m.ctx).fflags ||| r.2.2)

/-! ## Global memory -/

/-- The MEM class and the fences (R184, R209 to R213) complete where MemAddr gives a place: a load and its acquire form wait for
their response, a store and its release form enter the store queue when it has room, a prefetch never traps, and a fence issues and
holds its context's next issue until the operations it names have performed, REDs until they are acknowledged (R218). A response
reads its place of HBM, after the snoops where it is an acquire at `.sys`, once no earlier operation blocks it, and is put off until
then; a load of a peer's memory asks that device once, and lands what it answers (R269); a posted write does the same and puts its bytes at
its place; and an eviction gives the line's writes their engine points. That a peer's completion comes as that of core 4,096 + n is the
model's naming (log 38). -/
def Obligations.GlobalAccessesComplete : Prop :=
  ∀ (c : Ctl) (sc : Scope) (f : MemFmt) (pol : Policy) (d r w : BitVec 6) (z : SrcZ) (va : Nat) (p : Place) (s : State),
    let u := s.walkFor (s.gReg w) (s.offZ z)
    let n := memSize f
    let held := fun (sc : Scope) =>
      ((({ u with ids := u.ids + 1 } : State).updMe fun x => { x with flight := x.flight ++
        [{ u.memOp (.load f (capLC (u.gReg w).bits)) va p n sc with policy := pol, d := d, set := c.set }] }).later
        (.loadResponse u.core u.k))
    let tagged := decide (f = .cap) && (u.gReg r).tag
    let stored := fun (sc : Scope) => post u { u.memOp .store va p n sc with policy := pol, data := (u.gReg r).bits, tag := tagged }
      (.postedWritePerform u.core u.ids)
    let canLoad := u.memAddr (u.gReg w) (s.offZ z) n n needR = .ok va p ∧ u.leak d = false
    let canStore := u.memAddr (u.gReg w) (s.offZ z) n n { needW with sc := tagged } = .ok va p ∧
      (tagged && capKind (u.gReg r).bits == 3) = false ∧ u.me.storeq.length < 16
    let fenced := fun (x : Fence) => (s.updCx fun y => { y with fence := some x }).tryFence s.core s.k
    WaitsAs (.ld c f pol d w z) c fFarLate canLoad (.result u.ids) (held .dev) s ∧
    WaitsAs (.ldacq c sc f pol d w z) c fFarLate canLoad (.result u.ids) (held sc) s ∧
    CompletesAs (.st c f pol r w z) c fFar canStore (stored .dev) s ∧
    CompletesAs (.strel c sc f pol r w z) c fFar canStore (stored sc) s ∧
    (∀ cause val formed, CompletesAs (.pref c pol w z) c fFar
      (u.memAddr (u.gReg w) (s.offZ z) 1 1 needR = .bad cause val formed) u s) ∧
    (∀ a, CompletesAs (.pref c pol w z) c fFar (u.memAddr (u.gReg w) (s.offZ z) 1 1 needR = .ok va (.hbm a)) u s) ∧
    (∀ h a, CompletesAs (.pref c pol w z) c fFar (u.memAddr (u.gReg w) (s.offZ z) 1 1 needR = .ok va (.peer h a)) u s ∧
      CompletesAs (.pref c pol w z) c fFar (u.memAddr (u.gReg w) (s.offZ z) 1 1 needR = .ok va (.host h a))
        (u.getLine (u.keyOf u.me.dom) h (a / 64) false).2 s) ∧
    CompletesAs (.fence c sc) c fPlain True (fenced (.full (decide (sc = Scope.sys)))) s ∧
    CompletesAs (.fenceRed c sc) c fPlain True (fenced .red) s ∧
    CompletesAs (.fenceEng c) c fPlain True (fenced .eng) s ∧
    (∀ (t : State) (n k : Nat),
      (∀ x, (t.ctxAt n k).fence = some x → t.tryFence n k =
        if t.fenceMet n k x then (t.endFence n k x).updCtx n k fun y => { y with fence := none } else t) ∧
      (t.fenceMet n k (.full false) = true ↔ ∀ o ∈ (t.coreAt n).storeq, k ∈ o.po → o.performed = true ∧ ∀ f op, o.kind ≠ .red f op) ∧
      (t.fenceMet n k (.full true) = true ↔ ∀ o ∈ (t.coreAt n).storeq, k ∉ o.po) ∧
      (t.fenceMet n k .red = true ↔ ∀ o ∈ (t.coreAt n).storeq, k ∈ o.po → ∀ f op, o.kind ≠ .red f op) ∧
      (t.fenceMet n k .eng = true → ∀ o ∈ (t.coreAt n).storeq, k ∈ o.po → o.ordered = false)) ∧
    ∀ (n k id : Nat) (o : MemOp) (l : BitVec 46), n < 4096 → s.hostHolds o.place = false →
      (∀ d pa, (s.coreAt n).flight.find? (fun x => x.isLoadOf k) = some o → o.place = .peer d pa → o.asked = false →
        o.scope ≠ Scope.sys → (s.coreAt n).opBlocked o = false →
        exec (.loadResponse n k) s = .next ((s.askPeer (s.keyOf (s.coreAt n).dom) d (.peerLoad d pa o.size)).updCore n fun c =>
          { c with flight := c.flight.map fun x => if x.id = o.id then { x with asked := true } else x })) ∧
      (∀ d pa, (s.coreAt n).flight.find? (fun x => x.isLoadOf k && x.asked) = some o → o.place = .peer d pa →
        exec (.loadResponse (4096 + n) k) s =
          .next ((s.peerBytes pa o.size).2.loadReturn n k o (s.peerBytes pa o.size).1 (Config.freeBit (s.fresh + 1)))) ∧
      (∀ f lc pa, (s.coreAt n).flight.find? (fun x => x.isLoadOf k) = some o →
        o.kind = .load f lc → o.place = .hbm pa →
        ((s.coreAt n).opBlocked o = true → exec (.loadResponse n k) s = .next (s.later (.loadResponse n k))) ∧
        ((s.coreAt n).opBlocked o = false →
          let t := if o.scope = Scope.sys then (s.drain 0).drain 1 else s
          let t := if o.policy = Policy.home then t else t.engineLine (pa / 64)
          let key := t.keyOf (s.coreAt n).dom
          let v := loadValue f lc (t.mem.tagAs key pa) (t.mem.readAs key pa o.size)
          exec (.loadResponse n k) s = .next (((((((t.readPast o.place o.size (.ctx n k)).updCore n fun x =>
            { x with flight := x.flight.filter fun y => y.id != o.id }).landNow n k [.g o.d v] 0 (some o.set)).recordHits
            n k o.hits o.va o.ip).missCount n).resume n k)))) ∧
      (let blocked := (s.coreAt n).opBlocked o || (o.scope == Scope.sys && (s.coreAt n).postedOpen o.after) ||
         s.redHolds o.past o.place o.size
       (s.coreAt n).storeq.find? (fun x => x.id == id) = some o → o.kind = .store →
        (blocked = true → exec (.postedWritePerform n id) s = .next (s.later (.postedWritePerform n id))) ∧
        (blocked = false →
          let t := if o.scope = Scope.sys then s.engineCtx n o.ctx else s
          exec (.postedWritePerform n id) s = .next ((((t.writePast o.place o.size o.past).writePlace (t.keyOf (t.coreAt n).dom) o.place
            o.size (o.data.toNat % 2 ^ (8 * o.size)) o.tag (if o.policy = Policy.home then some (n, o.po) else none)).updCore n fun x => { x with storeq := x.storeq.filter fun y => y.id != o.id }).missCount n))) ∧
      ∃ u : State, exec (.l1Eviction n l) s = .next u ∧ u.mem = s.mem ∧
        ∀ x, x ∈ u.late ↔ x ∈ s.late ∧ ¬ (x.core = n ∧ x.pa / 64 = l.toNat)

/-- The frame of an operation at memory (R182, R210, R217, R365): a posted write or an atomic changes no byte of HBM, as its domain's key
reads it, outside the bytes of its own place, and none at all where its place is a peer's or a host's; for every other key it changes
no byte outside the 64-byte lines of its place, which it seals under its own. -/
def Obligations.PerformedOperationFrame : Prop :=
  ∀ (n k id : Nat) (o : MemOp) (s t : State),
    (exec (.postedWritePerform n id) s = .next t ∧ (s.coreAt n).storeq.find? (fun x => x.id == id) = some o ∨
      exec (.kioskAtomicPerform n k id) s = .next t ∧ (s.coreAt n).findOp id = some o) →
    (∀ pa, o.place = .hbm pa → ∀ a, (a < pa ∨ pa + o.size ≤ a) →
      t.mem.byteAs (s.keyOf (s.coreAt n).dom) a = s.mem.byteAs (s.keyOf (s.coreAt n).dom) a ∧
      ((∀ i, i < o.size → (pa + i) / 64 ≠ a / 64) → ∀ key, t.mem.byteAs key a = s.mem.byteAs key a)) ∧
    (o.place.isHbm = false → t.mem = s.mem)

/-- AMO, CAS, RED, FSET and FCLR (R214 to R220, R392, R393, R395) complete at the core where MemAddr gives a place: the returning
words load the latch and wait, unless a posted operation holds it; the posted ones enter the store queue when it has room, and
load the latch, which must be free of another posted one, when their place is a peer's or a host's; at such a place the time limit
for an answer starts. -/
def Obligations.AtomicWordsComplete : Prop :=
  ∀ (c : Ctl) (sc : Scope) (f : AFmt) (op : AmoOp) (d w v : BitVec 6) (off : GI) (z : SrcZ) (va : Nat) (p : Place) (s : State),
    let n := afmtBytes f
    let low := fun (x : W64) => (BitVec.ofNat 64 (x.toNat % 2 ^ (8 * n)) : W64)
    let u := s.walkFor (s.gReg w) (s.offGI off)
    let u' := s.walkFor (s.gReg w) (s.offZ z)
    let busy := s.cx.latch.valid && s.cx.latch.posted
    let latch := fun (u : State) (x y : W64) (posted : Bool) =>
      ({ valid := true, sent := true, done := false, posted := posted, seq := u.cx.latch.seq + 1, word := u.ir,
         addr := BitVec.ofNat 64 p.pa, operand := x, compare := y, result := 0, place := some p, va := va } : Latch)
    let limit := fun (u t : State) => t.atCycle (u.cyc + 2 ^ 24) (.remoteTimeout u.core u.k u.ids)
    let sent := fun (kind : MemKind) (x y : W64) =>
      let o := { u.memOp kind va p n sc with
        d := d, set := c.set, data := x.setWidth 128, compare := y, seq := u.cx.latch.seq + 1 }
      let b := (({ u with ids := u.ids + 1 } : State).updMe fun x => { x with flight := x.flight ++ [o] }).updCtx u.core u.k
        fun z => { z with latch := latch u x y false }
      let t := b.later (.kioskAtomicPerform u.core u.k u.ids)
      if p.isHbm then t else t.atCycle (b.cyc + 2 ^ 24) (.remoteTimeout u.core u.k u.ids)
    let near := fun (u : State) (kind : MemKind) (size : Nat) (sc : Scope) (x : W64) =>
      ({ u.memOp kind va p size sc with data := x.setWidth 128, policy := .skip, seq := 0 } : MemOp)
    let far := fun (u : State) (kind : MemKind) (size : Nat) (sc : Scope) (x : W64) =>
      ({ u.memOp kind va p size sc with data := x.setWidth 128, policy := .skip, seq := u.cx.latch.seq + 1 } : MemOp)
    let room := fun (u : State) => u.me.storeq.length < 16
    let canReturn := (u.cx.latch.valid && u.cx.latch.posted) = false ∧
      u.memAddr (u.gReg w) (u.offGI off) n n needRW = .ok va p ∧ u.leak d = false
    let canRed := u.memAddr (u.gReg w) (s.offGI off) n n needW = .ok va p ∧ room u
    let canFlag := u'.memAddr (u'.gReg w) (s.offZ z) 8 8 needW = .ok va p ∧ room u'
    WaitsAs (.amo c sc f op d w v off) c fFarLate canReturn (.result u.ids) (sent (.amo f op) (low (s.readG v)) 0) s ∧
    WaitsAs (.cas c sc f d w v off) c fFarLate canReturn (.result u.ids) (sent (.cas f) (low (s.readG d)) (low (s.readG v))) s ∧
    CompletesAs (.red c sc f op w v off) c fFar (canRed ∧ p.isHbm = true) (postRed u (near u (.red f op) n sc (low (s.readG v)))) s ∧
    CompletesAs (.red c sc f op w v off) c fFar (canRed ∧ p.isHbm = false ∧ busy = false)
      (limit u ((postRed u (far u (.red f op) n sc (low (s.readG v)))).updCtx u.core u.k fun y =>
        { y with latch := latch u (low (s.readG v)) 0 true })) s ∧
    CompletesAs (.fset c v w z) c fFar (canFlag ∧ p.isHbm = true)
      (post u' (near u' .fset 8 .dev (s.readG v)) (.postedWritePerform u'.core u'.ids)) s ∧
    CompletesAs (.fset c v w z) c fFar (canFlag ∧ p.isHbm = false ∧ busy = false)
      (limit u' ((post u' (far u' .fset 8 .dev (s.readG v)) (.kioskAtomicPerform u'.core u'.k u'.ids)).updCtx u'.core u'.k fun y =>
        { y with latch := latch u' (s.readG v) 0 true })) s ∧
    CompletesAs (.fclr c w z) c fFar (canFlag ∧ p.isHbm = true)
      (post u' (near u' .fclr 8 .dev 0) (.postedWritePerform u'.core u'.ids)) s ∧
    CompletesAs (.fclr c w z) c fFar (canFlag ∧ p.isHbm = false ∧ busy = false)
      (limit u' ((post u' (far u' .fclr 8 .dev 0) (.kioskAtomicPerform u'.core u'.k u'.ids)).updCtx u'.core u'.k fun y =>
        { y with latch := latch u' 0 0 true })) s

/-- The home Kiosk performs an AMO, CAS or RED once (R215 to R217, R394): the location holds the table's function of its old value and the
operand, for CAS the operand where the old value is the one compared, the response carries the old value and the function's flags, and an
operation under a sequence number that is not above the last kept one repeats the kept result and changes no memory. -/
def Obligations.AtomicOperationIsPerformedOnce : Prop :=
  ∀ (n k id pa : Nat) (o : MemOp) (f : AFmt) (s : State),
    n < 4096 → (s.coreAt n).findOp id = some o → o.performed = false → o.refused = false → (s.coreAt n).opBlocked o = false →
    s.redHolds o.past o.place o.size = false → o.place = .hbm pa → s.hostHolds o.place = false → o.size = afmtBytes f →
    (o.kind = .cas f ∨ ∃ op, o.kind = .amo f op ∨ o.kind = .red f op) →
    let c := s.coreAt n
    let key := s.keyOf c.dom
    let w := 8 * afmtBytes f
    let m := s.mem.readAs key pa o.size
    let x := o.data.toNat % 2 ^ w
    let old := s.results.find? fun e => e.isFor (homeDie pa) c.dom c.proc.lcn o.poCtx
    let ff : Fmt := fmtOf (match f with
      | .f16 => .f16
      | .bf16 => .bf16
      | .i32 | .i64 | .n32 | .n64 | .f32 => .f32)
    let less := fun (a b : Nat) => match f with
      | .i32 | .i64 => decide ((BitVec.ofNat w a).toInt < (BitVec.ofNat w b).toInt)
      | .n32 | .n64 | .f32 | .f16 | .bf16 => decide (a < b)
    let value : AmoOp → Nat × Flags := fun op => match op with
      | .swap => (x, 0)
      | .add => ((m + x) % 2 ^ w, 0)
      | .and => (m &&& x, 0)
      | .or => (m ||| x, 0)
      | .xor => (m ^^^ x, 0)
      | .min => (if less x m then x else m, 0)
      | .max => (if less m x then x else m, 0)
      | .fadd => fAdd ff { rm := .rn, u := 0 } m x
      | .fmin => fMinMax ff false m x
      | .fmax => fMinMax ff true m x
    let put := fun (v : Nat) => s.mem.writeAs key pa o.size v
    let after : Memory × Flags := match o.kind with
      | .cas _ => (if m = o.compare.toNat % 2 ^ w then put x else s.mem, 0)
      | .amo _ op | .red _ op => (put (value op).1, (value op).2)
      | _ => (s.mem, 0)
    (∀ e, o.sequenced = true → old = some e → seqAbove o.seq e.seq = false → ∃ t, exec (.kioskAtomicPerform n k id) s = .next t ∧
      t.mem = s.mem ∧ t.results = s.results ∧
      (t.coreAt n).findOp id = some { o with performed := true, result := e.result, flags := e.flags, status := 1 }) ∧
    ((o.sequenced = true → ∀ e, old = some e → seqAbove o.seq e.seq = true) → ∃ t, exec (.kioskAtomicPerform n k id) s = .next t ∧
      t.mem = after.1 ∧
      (o.sequenced = true → ∃ e ∈ t.results, e.seq = o.seq ∧ e.ctx = o.poCtx ∧ e.result = BitVec.ofNat 64 m ∧ e.flags = after.2) ∧
      (o.sequenced = false → t.results = s.results) ∧
      (t.coreAt n).findOp id = some { o with performed := true, result := BitVec.ofNat 64 m, flags := after.2, status := 0 })

/-- The answers to atomics (R217, R218, R392, R393, R395, R408) complete: a response lands the old value of an AMO or CAS, ORs the flags and
settles the latch; a refusal before performing traps the word's context with the remote address, an AMO or CAS at once and a posted
operation at its context's next issue; RETARM sends a parked context's latched operation again, under the sequence number it had if
it was sent before and under the next one otherwise, and answers 2 where there is none and 3 where its address or destination traps.
That a refusal takes back a word of its context whose effect is still to come (`backOut`) is the model's choice (log 84). -/
def Obligations.AtomicAnswersComplete : Prop :=
  ∀ (c : Ctl) (d : BitVec 6) (ctx : BitVec 4) (n k id : Nat) (o : MemOp) (why : RefuseWhy) (s : State),
    n < 4096 →
    ((s.coreAt n).findOp id = some o → o.rearm = none →
      let t := (s.updCore n fun c => c.dropOp id)
      let returns := ∃ f op, o.kind = .amo f op ∨ o.kind = .cas f
      let posts := (∃ f op, o.kind = .red f op) ∨ o.kind = .fset ∨ o.kind = .fclr
      (o.performed = true → returns → exec (.atomicResponse n k id) s = .next
        (let u := ((t.landNow n o.ctx [.g o.d (GReg.data o.result)] o.flags (some o.set)).updCtx n o.ctx fun x => { x with
          latch := { x.latch with valid := false, result := o.result } }).recordHits n o.ctx o.hits o.va o.ip
         if (u.ctxAt n o.ctx).run = .waiting (.result id) then u.resume n o.ctx else u)) ∧
      (o.performed = true → posts → exec (.atomicResponse n k id) s = .next
        ((t.landNow n o.ctx [] o.flags none).updCtx n o.ctx fun x =>
          if o.sequenced && x.latch.posted && x.latch.seq == o.seq then { x with latch := { x.latch with valid := false } } else x)) ∧
      (o.performed = false → o.refused = false → o.place.isHbm = false →
        let val : W64 := BitVec.ofNat 64 (2 ^ 63 + o.va % 2 ^ 48)
        let v := s.updCtx n o.ctx fun x => { x with latch := { x.latch with sent := false } }
        let b := v.updCore n fun c => c.dropOp id
        let u := (b.updCtx n o.ctx fun x => x.sbDown o.set).keepHits n o.ctx o.hits o.va o.ip
        let z := v.updCore n fun c => c.mapOp id fun o => { o with refused := true }
        let refused := fun (cause : BitVec 8) (t : State) =>
          (returns → t = if (b.ctxAt n o.ctx).run = .waiting (.result id) then u.takeTrap n o.ctx { cause := cause, val := val } o.ip else b) ∧
          (posts → t = if (z.ctxAt n o.ctx).run = .dead then z.dropRefused n
            else (z.updCtx n o.ctx fun x => { x with deferred := some (cause, val) }).backOut n o.ctx id)
        (returns ∨ posts → ∃ t, exec (.remoteTimeout n k id) s = .next t ∧ refused cPROT t) ∧
        (returns ∨ posts → ∃ t, exec (.kioskRefusal n k id why) s = .next t ∧
          refused (if why = .pageAway then cPFAULT else cPROT) t))) ∧
    (let x := s.me.ctx ctx.toNat
     let l := x.latch
     let answer := fun (v : W64) (t : State) => t.reply s.core s.k [.g d (GReg.data v)] c.set [] 0 0
     let fails := fun (cause : BitVec 8) (val : W64) =>
       answer 3 (s.updCtx s.core ctx.toNat fun x => { x with trap := { x.trap with cause := cause, val := val } })
     let ok := s.k = 0 ∧ s.leak d = false
     let sends := fun (p : Place) (q : Rearm) (seq : W16) (operand compare : W64) =>
       ∃ u : State, exec (.retarm c d ctx) s = .next (s.finish c fLate (.wait (.result s.ids) u)) ∧ u.mem = s.mem ∧
         (u.ctxAt s.core ctx.toNat).latch.sent = true ∧ (u.ctxAt s.core ctx.toNat).latch.seq = seq ∧
         ∃ o ∈ (u.coreAt s.core).flight, o.id = s.ids ∧ o.rearm = some ctx.toNat ∧ o.ctx = s.k ∧ o.kind = q.kind ∧ o.place = p ∧
           o.size = q.size ∧ o.seq = seq ∧ o.data = operand.setWidth 128 ∧ o.compare = compare ∧ o.d = d
     (Issues c fLate s = true → s.k ≠ 0 → exec (.retarm c d ctx) s = .next (s.traps cPROT 0)) ∧
     WaitsAs (.retarm c d ctx) c fLate
       (ok ∧ (x.run ≠ .parked ∨ l.valid = false ∨ (∀ i q, decodeWord l.word = .ok i → x.rearm i ≠ some q)))
       (.result s.ids) (answer 2 s) s ∧
     ∀ i q, Issues c fLate s = true → ok → x.run = .parked → l.valid = true → decodeWord l.word = .ok i → x.rearm i = some q →
       (l.sent = true → sends (l.place.getD (.hbm l.addr.toNat)) q l.seq l.operand l.compare) ∧
       (l.sent = false →
         (∀ cause val formed, s.latchPlace ctx.toNat q = .bad cause val formed →
           exec (.retarm c d ctx) s = .next (s.finish c fLate (.wait (.result s.ids) (fails cause val)))) ∧
         ∀ va p, s.latchPlace ctx.toNat q = .ok va p →
           (∀ r, q.dest = some r → (x.gReg r).isEnd = true →
             exec (.retarm c d ctx) s = .next (s.finish c fLate (.wait (.result s.ids) (fails cENDLEAK (r.setWidth 64))))) ∧
           ((∀ r, q.dest = some r → (x.gReg r).isEnd = false) → sends p q (l.seq + 1) q.operand q.compare)))

/-- SWAIT, FWAIT and the polls (R220 to R223) complete where MemAddr gives a place: a wait whose first read an earlier operation
of its context or a host that holds the line blocks reads later; else, at a place of HBM, one whose condition holds replies with the
location's value, any other enrols at the home Kiosk while it has room, and is polled otherwise, the first time after 64 cycles and then
after twice the time, up to 65,536. -/
def Obligations.SynchronizationWordsComplete : Prop :=
  ∀ (c : Ctl) (f : WFmt) (r : Rel) (d w v : BitVec 6) (off : GI) (z : SrcZ) (va : Nat) (p : Place) (s : State),
    let entry := fun (u : State) (cond : Option (WFmt × Rel × W64)) (n : Nat) =>
      ({ id := u.ids, core := u.core, ctx := u.k, place := p, va := va, cond := cond, d := d, set := c.set, poll := some 0,
         hits := u.watchHits va n, ip := u.cx.pc, after := u.me.poIds u.k, ending := false } : SyncWait)
    let test := fun (s : State) (y : SyncWait) (pa : Nat) =>
      waitTest y (s.mem.readAs (s.keyOf (s.coreAt y.core).dom) pa (waitSize y))
    let tried := fun (s : State) (y : SyncWait) (pa : Nat) =>
      let e := s.engineLine (pa / 64)
      let t : State := { e with syncs := e.syncs.filter fun x => x.id != y.id }
      let waits := fun (p : Option Nat) => ({ t with syncs := t.syncs ++ [{ y with poll := p }] } : State).updCtx y.core y.ctx fun x =>
        { x with run := .waiting (.sync y.id) }
      let n := match y.poll with
        | some 0 | none => 64
        | some m => Min.min (2 * m) 65536
      if (test s y pa).1 = true ∨ y.ending = true then t.endWait y (test s y pa).2
      else if t.enrolled (homeDie pa) < 8192 ∧ y.poll = some 0 then waits none
      else (waits (some n)).atCycle (t.cyc + n) (.waitPoll y.core y.ctx)
    let word := fun (i : Instr) (u : State) (off : Int) (n : Nat) (y : SyncWait) =>
      let ok := u.memAddr (u.gReg w) off n n needR = .ok va p ∧ u.leak d = false
      let blocked := u.waitBlocked u.core y || u.hostHolds p
      let t := ({ u with ids := u.ids + 1 } : State)
      WaitsAs i c fFarYieldLate (ok ∧ blocked = true) (.sync u.ids)
        (({ t with syncs := t.syncs ++ [y] } : State).later (.waitPoll u.core u.k)) s ∧
      ∀ pa, p = .hbm pa →
        WaitsAs i c fFarYieldLate (ok ∧ blocked = false) (if (test t y pa).1 = true then .result (u.ids + 1) else .sync u.ids)
          (tried t y pa) s
    let n := match f with
      | .i32 | .n32 => 4
      | .i64 | .n64 => 8
    let u := s.walkFor (s.gReg w) (s.offGI off)
    let u' := s.walkFor (s.gReg w) (s.offZ z)
    word (.swait c f r d w v off) u (s.offGI off) n (entry u (some (f, r, s.readG v)) n) ∧
    word (.fwait c d w z) u' (s.offZ z) 8 (entry u' none 8) ∧
    ∀ (y : SyncWait), s.syncs.find? (fun x => x.core == y.core && x.ctx == y.ctx && x.poll.isSome) = some y → y.core < 4096 →
      (s.waitBlocked y.core y = true → exec (.waitPoll y.core y.ctx) s = .next (s.later (.waitPoll y.core y.ctx))) ∧
      (s.waitBlocked y.core y = false → s.hostHolds y.place = true →
        exec (.waitPoll y.core y.ctx) s = .next ((s.askBack y.place).later (.waitPoll y.core y.ctx))) ∧
      (s.waitBlocked y.core y = false → s.hostHolds y.place = false → ∀ pa, y.place = .hbm pa →
        exec (.waitPoll y.core y.ctx) s = .next (tried s y pa))

/-! ## Engine jobs -/

/-- JOB, JWAIT, CWWAIT, JSTAT and the steps of a job (R197, R227 to R233) complete: a job whose checks pass enters its engine's chain with
the next ticket of the process, while the on-die queue or its domain's chain area has room; a wait ends at once when its count or pointer
is reached and waits otherwise; JSTAT reads and clears the error word; a job begins when nothing earlier that it must not overtake is
left, its pieces are performed in order, and its completion counts for the process that issued it. -/
def Obligations.EngineWordsAndJobsComplete : Prop :=
  ∀ (c : Ctl) (d w gs gt : BitVec 6) (n : BitVec 2) (v : GI) (s : State),
    let g := s.gReg w
    let p := capBase g.bits + capCursor g.bits
    let card := (s.lsRead s.core p 192).1
    let e := cardEngine card
    let js := Tab.get 0 s.me.proc.js n.toNat
    let cw := Tab.get 0 s.me.proc.cw n.toNat
    let out := s.jobs.any fun q => q.2.onChannel n.toNat && match q.2.owner with
      | some o => o.core == s.core && o.gang == s.me.proc.gang
      | none => false
    (Issues c fFarLate s = true → windowCheck g true false = none → p + 192 ≤ capBase g.bits + capLength g.bits → p + 192 ≤ 262144 →
      p % 64 = 0 → s.lsHeld s.core p 192 false = false → jobCapCheck (s.gReg gs) = none → jobCapCheck (s.gReg gt) = none →
      footCheck card g (s.gReg gs) (s.gReg gt) = none → s.leak d = false →
      (s.queued (dieOf s.core) e < 256 ∨ s.chainedIn s.me.dom < s.chainRoom s.me.dom) →
      ∃ t u : State, exec (.job c d w gs gt) s = .next (s.finish c fFarLate (.done (t.landLate c.set
          (.g d (GReg.data (Tab.get 0 s.me.proc.issued e + 1)))))) ∧ t = u.later (.jobBegin s.ids) ∧
        ∃ j, Tab.find u.jobs s.ids = some j ∧ j.engine = e ∧ j.card = card ∧ j.src = s.gReg gs ∧
          j.dst = s.gReg gt ∧ j.window = g ∧ j.ticket = Tab.get 0 s.me.proc.issued e + 1 ∧ j.begun = false ∧ j.ended = false ∧
          j.die = dieOf s.core ∧ j.domain = s.me.dom ∧ j.chained = decide (256 ≤ s.queued (dieOf s.core) e) ∧
          j.after = s.me.poIds s.k ∧ j.owner = some { core := s.core, ctx := s.k, gang := s.me.proc.gang } ∧
          Tab.get 0 (u.coreAt s.core).proc.issued e = Tab.get 0 s.me.proc.issued e + 1) ∧
    CompletesAs (.jwait c n v) c fYield ((s.gi v).toNat ≤ js.toNat) s s ∧
    WaitsAs (.jwait c n v) c fYield (js.toNat < (s.gi v).toNat) (.jobs n.toNat (s.gi v)) s s ∧
    CompletesAs (.cwwait c n v) c fPlain (((s.gi v).setWidth 32).toNat ≤ cw.toNat ∨ out = false) s s ∧
    (Issues c fPlain s = true → cw.toNat < ((s.gi v).setWidth 32).toNat → out = true → exec (.cwwait c n v) s = .next s) ∧
    CompletesAs (.jstat c d n) c fLate (s.leak d = false)
      ((s.updProc s.core fun p => { p with errs := Tab.put p.errs n.toNat 0 }).landLate c.set
        (.g d (GReg.data (Tab.get 0 s.me.proc.errs n.toNat)))) s ∧
    ∀ (id : Nat) (j : Job), Tab.find s.jobs id = some j →
      (j.begun = false → j.ended = false → j.held = false → j.chained = false →
        let waits := j.owner.any fun o => (s.coreAt o.core).postedAny j.after
        (waits = true → exec (.jobBegin id) s = .next (s.later (.jobBegin id))) ∧
        (waits = false →
          (j.status = stBADCARD → exec (.jobBegin id) s = .next (s.endJob id j stBADCARD)) ∧
          (j.status ≠ stBADCARD → s.jobBlocked id j = true → exec (.jobBegin id) s = .next (s.later (.jobBegin id))) ∧
          (j.status ≠ stBADCARD → s.jobBlocked id j = false →
            (j.moves = false → exec (.jobBegin id) s = .next ((s.putJob id { j with begun := true }).later (.writePointerAdvance id))) ∧
            ∀ o, j.owner = some o → j.moves = true → exec (.jobBegin id) s =
              .next (((s.putJob id { j with begun := true }).updProc o.core fun p =>
                { p with cw := Tab.put p.cw j.channel (BitVec.ofNat 32 j.dstLo) }).later (.writePointerAdvance id))))) ∧
      (j.begun = true → j.ended = false →
        let r := s.jobPiece id j
        let j' := { j with pos := j.pos + r.2.2, flags := j.flags ||| r.2.1 }
        let t := match j.owner with
          | some o => if j.moves then r.1.s.updProc o.core fun p =>
              { p with cw := Tab.put p.cw j.channel (BitVec.ofNat 32 j'.pointer) } else r.1.s
          | none => r.1.s
        (∀ p, r.1.held = some p → exec (.writePointerAdvance id) s = .next ((s.askFor p).later (.writePointerAdvance id))) ∧
        (r.1.held = none → r.1.status ≠ 0 → exec (.writePointerAdvance id) s =
          .next (r.1.s.endJob id { j with flags := j.flags ||| r.2.1 } r.1.status)) ∧
        (r.1.held = none → r.1.status = 0 → exec (.writePointerAdvance id) s =
          .next (if j'.total ≤ j'.pos then t.endJob id j' stOK else (t.putJob id j').later (.writePointerAdvance id)))) ∧
      ∀ o, j.owner = some o →
        (j.ended = true → j.completed = false → exec (.jobCompletion id) s = .next (s.completeJob id j o)) ∧
        (let t := s.countJob id j o
         Tab.get 0 (t.coreAt o.core).proc.js j.engine = Tab.get 0 (s.coreAt o.core).proc.js j.engine + 1 ∧
           (t.ctxAt o.core o.ctx).fflags = (s.ctxAt o.core o.ctx).fflags ||| j.flags ∧ t.mem = s.mem) ∧
        (let j' := { j with completed := true }
         let t := s.putJob id j'
         t.issuerLives o = true → j.status = stOK → t.jobsOf o j.engine = [(id, j')] →
          s.completeJob id j o = (t.countJob id j' o).wakeJobs o.core)

/-! ## Channels -/

/-- The CHAN class (R257 to R262) completes where its checks pass: CHAN hands out both ends of a new record with a free ring, or two zeros
where there is none; SEND takes the next send number, enters the send queue and sets its message on its way, a carried end first leaving
its register; RECV and TRYRECV take the message their end expects, RECV waits for an absent one and TRYRECV answers false; SELECT takes the
first ready end in cyclic order or waits; CLOSE closes, a send end by its marker; and ENDINFO reads the record, of which another device's says
only the counter and the end here. -/
def Obligations.ChannelWordsComplete : Prop :=
  ∀ (c : Ctl) (d e b : BitVec 6) (qd : BitVec 3) (cfg : BitVec 32) (v : Payload) (rd : RDst) (carried : Option (BitVec 6)) (s : State),
    let r := s.gReg e
    let recvs := firstBad (recvRes s rd) = none ∧ s.endCheck e (some true) 124 = none ∧ s.recvLeak rd carried = none ∧
      ((recvG rd).isNone && s.me.wPending s.k (s.recvW rd)) = false
    let got := s.recvNow s.core s.k (recvG rd) (s.recvW rd) e carried qd
    let free := s.freeRecord (dieOf s.core) s.me.dom (cfg.getLsbD 4)
    let space := s.freeRing s.me.dom (128 * 2 ^ ((bits cfg 3 0) + 4))
    (∀ k area va, free = some (k, area) → space = some va →
      let u := s.walkReady s.me.dom va
      ∃ (t : State) (x : ChanRec), WaitsAs (.chan c d e cfg) c fFarLate (s.leak d = false ∧ s.leak e = false) (.result t.ids)
          (t.reply s.core s.k [.g d { bits := makeEnd s.me.dom u.lodge.deviceId k false, tag := true, endst := 0 },
            .g e { bits := makeEnd s.me.dom u.lodge.deviceId k true, tag := true, endst := 0 }] c.set [] 0 s.cx.pc) s ∧
        t = u.putRec k x ∧ x.domain = s.me.dom ∧ x.ringVa = va ∧ (∀ p, u.translate s.me.dom va 128 .write = .ok p → x.ringBase = p.pa) ∧
        x.ringCode = bits cfg 3 0 ∧ x.keyable = cfg.getLsbD 4 ∧ x.areaEntry = area ∧ x.ring = [] ∧ x.ringHead = 0 ∧ x.ringTail = 0 ∧
        x.accept = 0 ∧ x.expected = 0 ∧ x.sendCounter = 0 ∧ x.sloc = u.core ∧ x.rlocs = [(0, u.core)]) ∧
    (free = none ∨ space = none →
      WaitsAs (.chan c d e cfg) c fFarLate (s.leak d = false ∧ s.leak e = false) (.result s.ids)
        (s.reply s.core s.k [.g d (GReg.data 0), .g e (GReg.data 0)] c.set [] 0 s.cx.pc) s) ∧
    (let may := firstBad (s.payloadRes v) = none ∧ s.endCheck e (some false) 124 = none ∧ s.payloadPending v = false ∧
       s.me.sendq.length < Config.sendSlots ∧ s.channelReachable r.bits = true
     let m := fun (inner : Option W128) =>
       ({ device := endDevice r.bits, record := endRec r.bits, len := BitVec.ofNat 7 (s.payload v).2, closure := false, forwarded := false,
          holder := 0, seq := r.endst, key := 0, payload := (s.payload v).1, carried := inner,
          ack := some { gang := s.me.proc.gang, core := s.core, ctx := s.k, q := qd, sb := c.set, issued := s.cyc, after := s.me.poIds s.k } } : Msg)
     let sent := fun (m : Msg) => ((((s.updCx fun x => x.setG e { r with endst := r.endst + 1 }).updProc s.core fun q =>
       { q with sent := q.sent + 1 }).count s.core 7).updMe fun q => { q with sendq := q.sendq ++ [m] }).flow
         (.ctx s.core s.k) (.msg m.record m.seq)
     CompletesAs (.send c qd e v none) c fFarLate may ((sent (m none)).later (.recordMessageArrival (m none))) s ∧
     ∀ n, let x := s.gReg n
       let m := m (some (nextGen x.bits))
       let gen := endGen x.bits + 1
       let t := ((sent m).updCx fun y => y.setG n (GReg.data 0)).disarmEnd x.bits
       CompletesAs (.send c qd e v (some n)) c fFarLate (may ∧ s.carriedCheck n = none)
         ((if endDevice x.bits = s.lodge.deviceId then t else t.leave s.core x.bits gen x.endst).later
           (.leaveNotice (endRec x.bits) (endRecv x.bits) gen x.endst s.core (some m))) s) ∧
    (∀ t res a, got = .ok t res a →
      CompletesAs (.recv c rd e carried qd) c fRecv recvs (t.landGot s.core s.k c.set res a carried) s ∧
      CompletesAs (.tryrecv c rd e carried qd) c fFarLate recvs (t.landGot s.core s.k c.set res a carried) s) ∧
    (got = .absent →
      WaitsAs (.recv c rd e carried qd) c fRecv recvs (.recv (recvG rd) (s.recvW rd) e carried qd c.set) s s ∧
      CompletesAs (.tryrecv c rd e carried qd) c fFarLate recvs
        (s.landAll s.core s.k c.set [recvResult (recvG rd) (s.recvW rd) 0, .q qd false]) s) ∧
    (let good := (∀ i, i < 8 → cfg.getLsbD i = true → s.endCheck (b + BitVec.ofNat 6 i) (some true) 124 = none) ∧ s.leak d = false
     (∀ i, s.selectNow s.core s.k b cfg = some i → CompletesAs (.select c d b cfg) c fRecv good
        ((s.updCx fun x => { x with cursor := BitVec.ofNat 3 (i + 1) }).landAll s.core s.k c.set [.g d (GReg.data (BitVec.ofNat 64 i))]) s) ∧
     (s.selectNow s.core s.k b cfg = none → WaitsAs (.select c d b cfg) c fRecv good (.select d b cfg c.set) s s)) ∧
    (let u := s.updCx fun x => x.setG e (GReg.data 0)
     let q := u.close s.core r
     WaitsAs (.close c d e) c fFarLate
       (s.endCheck e none 122 = none ∧ (endRecv r.bits && (s.endRecord r.bits).any fun x => x.keyed) = false ∧
         (s.leak d && d != e) = false) (.result q.2.ids)
       (q.2.reply s.core s.k [.g d (GReg.data q.1)] c.set [] 0 s.cx.pc) s ∧
     (∀ x, u.endRecord r.bits = some x → endRecv r.bits = false →
       q = (r.endst.setWidth 64, u.later (.closureMarkerArrival (endRec r.bits) (.marker (some r.endst)))))) ∧
    (let ok := s.endCheck e none 124 = none ∧ s.leak d = false
     (∀ x, s.endRecord r.bits = some x → WaitsAs (.endinfo c d e) c fFarLate ok (.result s.ids)
       (s.reply s.core s.k [.g d (GReg.data (endInfo x s.core r))] c.set [] 0 s.cx.pc) s) ∧
     (s.endRecord r.bits = none → ∃ v, WaitsAs (.endinfo c d e) c fFarLate ok (.result s.ids)
       (({ s with fresh := s.fresh + 1 } : State).reply s.core s.k [.g d (GReg.data (farInfo r v))] c.set [] 0 s.cx.pc) s))

/-- A delivered message (R242, R259): the end's expected number rises by one, the message leaves the inbox, and the destination gets
its payload with a true predicate, and the named register the end it carries, whose arrival is given notice of; a message with an end and
no register for it leaks (R237); a closure marker gives its count with bit 63 and a false predicate, and stays. -/
def Obligations.ReceivedMessageIsTheExpectedOne : Prop :=
  ∀ (n k : Nat) (d e : BitVec 6) (qd : BitVec 3) (m : Msg) (s : State),
    let r := (s.ctxAt n k).gReg e
    let value := (BitVec.ofNat 512 (m.payload.toNat % 2 ^ (8 * min m.len.toNat 64))).setWidth 64
    let taken := fun (t : State) => (t.ctxAt n k).gReg e = { r with endst := r.endst + 1 } ∧ t.mem = s.mem ∧
      (t.coreAt n).inbox = (s.coreAt n).inbox.filter fun x => !(msgFor r.bits x && x.seq == r.endst)
    (s.coreAt n).inbox.find? (fun x => msgFor r.bits x && x.seq == r.endst) = some m →
    (m.closure = true → ∀ x, s.recvNow n k (some d) 0 e x qd =
      .ok s [.g d (GReg.data ((BitVec.ofNat 512 (2 ^ 63 + m.payload.toNat)).setWidth 64)), .q qd false] none) ∧
    (m.closure = false → m.carried.isSome = true → s.recvNow n k (some d) 0 e none qd = .leak (r.endst.setWidth 64)) ∧
    (m.closure = false → ∀ b reg, m.carried = some b →
      ∃ t, s.recvNow n k (some d) 0 e (some reg) qd =
          .ok t [.g d (GReg.data value), .q qd true, .g reg { bits := b, tag := true, endst := 0 }] (some (endRec b, endRecv b)) ∧
        taken t) ∧
    (m.closure = false → m.carried = none → ∀ x,
      ∃ t, s.recvNow n k (some d) 0 e x qd = .ok t [.g d (GReg.data value), .q qd true] none ∧ taken t)

/-- The events of channels (R244 to R253) complete. A record accepts the message whose turn it is, keeps an early one in its ring, and
discards one whose receive end has closed; an inbox takes the message its end expects while it has room, and refuses it to the ring
otherwise; a message for an end that is not on the core goes back; a ring entry goes to its holder's core when it has a slot; a record
learns of a leaving and an arriving end; a closure marker follows the messages before it to every holder; and ring writes that faulted are
made again. When a message waits is the model's reading: that a forwarded one waits for a free entry, that an early one leaves the last free
entry to the message in sequence, which R244 does not say, and that offers and refusals of peers come under numbers of their own (log 13). -/
def Obligations.ChannelEventsComplete : Prop :=
  ∀ (m : Msg) (n k : Nat) (x : ChanRec) (s : State), n < 4096 →
    (m.device = s.lodge.deviceId → s.recAt m.record = some x →
      let put := fun (t : State) => exec (.recordMessageArrival m) s = .next t
      (m.forwarded = false →
        (s.sendWaits m = true → put (s.later (.recordMessageArrival m))) ∧
        (s.sendWaits m = false → x.rClosed = true → put (((s.settle m false).discard m.record m).retireRec m.record)) ∧
        (s.sendWaits m = false → x.rClosed = false →
          let waits := s.holdersReachable x = false ∨ (x.stuckGang.isSome = true ∧ x.stuckGang = msgGang m) ∨
            x.freeRoom < (if m.seq = x.accept then 1 else 2)
          (waits → put (s.later (.recordMessageArrival m))) ∧
          (¬ waits → m.seq = x.accept → put (State.acceptRing x.ring.length (s.accept m.record x m) m.record)) ∧
          (¬ waits → m.seq ≠ x.accept → put (s.ringPut m.record false m)))) ∧
      (m.forwarded = true →
        (x.rClosed = true → put ((s.discard m.record m).retireRec m.record)) ∧
        (x.rClosed = false → x.freeRoom = 0 → put (s.later (.recordMessageArrival m))) ∧
        (x.rClosed = false → x.freeRoom ≠ 0 → put ((s.forward m.record m).later (.ringSlotOffer m.record))))) ∧
    (m.device ≠ s.lodge.deviceId → exec (.recordMessageArrival m) s = .next (s.sendFar m)) ∧
    (∀ e, (s.coreAt n).recvEnd m.device m.record = some e → m.seq = e.2.endst →
      ((s.coreAt n).inbox.length < Config.inboxSlots →
        exec (.inboxMessageArrival n m) s = .next ((s.updCore n fun c => { c with inbox := c.inbox ++ [m] }).wakeRecv n)) ∧
      (Config.inboxSlots ≤ (s.coreAt n).inbox.length → exec (.inboxMessageArrival n m) s =
        .next (if m.device = s.lodge.deviceId then s.refuseMsg n m else s.tell (dieOf n) (s.coreAt n).dom m.device (.refused m)))) ∧
    (m.device = s.lodge.deviceId → exec (.inboxMessageArrival (4096 + n) m) s = .next (s.refuseMsg (4096 + n) m)) ∧
    ((s.coreAt n).recvEnd m.device m.record = none → exec (.inboxMessageArrival n m) s =
      .next (if m.device = s.lodge.deviceId then s.later (.recordMessageArrival { m with forwarded := true })
        else s.tell (dieOf n) (s.coreAt n).dom m.device (.message { m with forwarded := true, ack := none }))) ∧
    (k < farOffer → exec (.ringSlotOffer (farOffer + k)) s =
      exec (.ringSlotOffer k) (s.updRec k fun r => { r with credits := r.credits.map fun n => n + 1 })) ∧
    (s.recAt k = some x → k < farOffer →
      (s.nextEntry k x = none → exec (.ringSlotOffer k) s = .next (s.retireRec k)) ∧
      ∀ e, s.nextEntry k x = some e → Tab.find x.rlocs e.msg.holder.toNat = some n →
        exec (.ringSlotOffer k) s = .next (((s.putRec k (x.keepRing (x.ring.filter fun y => y.slot != e.slot))).now
          (.inboxMessageArrival n e.msg)).later (.ringSlotOffer k))) ∧
    (∀ gen counter b, m.carried = some b → s.endRecord b = some x →
      (endRecv b = false → exec (.leaveNotice (endRec b) false gen counter n (some m)) s =
        .next (((s.putRec (endRec b) { x with sTransit := true, sendCounter := counter, sgen := gen }).inject m).retireRec (endRec b))) ∧
      (endRecv b = true → exec (.leaveNotice (endRec b) true gen counter n (some m)) s =
        .next ((((s.putRec (endRec b) { x with rTransit := true, expected := counter, rgen := gen }).returnInbox n b).inject m).retireRec
          (endRec b)))) ∧
    (∀ (p : Reply) (v : GReg) (reg : BitVec 6) (recv : Bool) (ctx : Nat),
      s.replies.find? (fun r => r.core == n && r.ctx == ctx && r.arrive == some (k, recv) &&
        (r.res.findSome? (endTo reg)).isSome) = some p →
      p.res = [.g reg v] → v.isEnd = true → endDevice v.bits = s.lodge.deviceId →
      let q := ({ s with replies := s.replies.filter fun x => x.id != p.id } : State).arriveAt n k recv
      exec (.arrivalNotice k recv { core := n, ctx := ctx } reg) s =
        .next ((q.2.landNow n ctx [.g reg { v with endst := q.1 }] 0 (some p.set)).retireRec k)) ∧
    (s.recAt k = some x → (∀ device count, exec (.closureMarkerArrival k (.receiver device count)) s = .next (s.closeAway k device count)) ∧
      ∀ f : Option W32,
      let x' := { x with sClosed := true, sTransit := false, final := f.getD x.sendCounter }
      let t := s.putRec k x'
      let late := x.accept ≠ x'.final ∨ x.mergeHold.isSome = true
      let go := x'.holders.filter x'.mayMark
      let marked := { x' with marked := x'.marked ++ go }
      let u := go.foldl (fun t h => t.route k x' false
        { device := s.lodge.deviceId, record := k, len := 0, closure := true, forwarded := false, holder := BitVec.ofNat 3 h,
          seq := x'.nextFor h, key := 0, payload := x'.final.setWidth 512, carried := none, ack := none }) (t.putRec k marked)
      let again := fun (t : State) => t.later (.closureMarkerArrival k (.marker (some x'.final)))
      (x.rClosed = true → exec (.closureMarkerArrival k (.marker f)) s = .next (t.retireRec k)) ∧
      (x.rClosed = false → late → exec (.closureMarkerArrival k (.marker f)) s = .next (again t)) ∧
      (x.rClosed = false → ¬ late → exec (.closureMarkerArrival k (.marker f)) s =
        .next (if marked.holders.all fun h => marked.marked.contains h then u else again u))) ∧
    (s.recAt k = some x → x.stuck ≠ [] →
      let t := State.acceptRing x.ring.length ((s.putRec k { x with stuck := [] }).ringPuts k x.stuck) k
      exec (.spillRetry k) s = .next (match x.stuckGang with
        | some g => t.spillDone g
        | none => t))

/-! ## Contexts and gangs -/

/-- The CTX class and its events (R24, R26, R284 to R292, R304) complete: START copies C's registers into the lowest free helper, which comes
after C in program order (R190), or answers false where there is none; HJOIN waits for a live helper and answers false for one that is
not; HEXIT ends a helper and takes C out of its gang; YIELD passes the core on; WAITEV waits for an event, its result landing within a
cycle (log 82, the model's reading); the watchdog parks a context that
has gone its limit without a yield point; a process whose residency fills are done starts, and one whose fill fails exits by a fault;
and a process that has ended goes once its core is quiet. -/
def Obligations.ContextWordsComplete : Prop :=
  ∀ (c : Ctl) (qd : BitVec 3) (h t d : BitVec 6) (off : BitVec 32) (a : W64) (v : GI) (n k : Nat) (s : State),
    let started := fun (j : Nat) (pc : W64) =>
      (((s.forgetPo s.core (leftOver (1 + j))).updCtx s.core (1 + j) fun x => startedHelper s.cx x j pc s.cyc).joinPo s.core 1 (1 + j)).landAll
        s.core s.k c.set [.q qd true, .g h (GReg.data (BitVec.ofNat 64 j))]
    let none_ := s.landAll s.core s.k c.set [.q qd false, .g h (GReg.data 0)]
    let ok := s.k = 1 ∧ s.leak h = false
    (∀ j, s.me.freeHelper = some j →
      CompletesAs (.startRelative c qd h off) c fLate ok (started j (s.cx.pc + off.signExtend 64)) s ∧
      CompletesAs (.startRegister c qd h t) c fLate (ok ∧ brTarget (s.gReg t) = .to a) (started j a) s) ∧
    (s.me.freeHelper = none → CompletesAs (.startRelative c qd h off) c fLate ok none_ s ∧
      CompletesAs (.startRegister c qd h t) c fLate (ok ∧ brTarget (s.gReg t) = .to a) none_ s) ∧
    CompletesAs (.hjoin c qd v) c fYieldLate
      (1 ≤ (s.gi v).toNat ∧ (s.gi v).toNat ≤ 10 ∧ (s.me.ctx (1 + (s.gi v).toNat)).run = .dead)
      ((s.joinPo s.core (leftOver (1 + (s.gi v).toNat)) s.k).landAll s.core s.k c.set [.q qd false]) s ∧
    WaitsAs (.hjoin c qd v) c fYieldLate
      (1 ≤ (s.gi v).toNat ∧ (s.gi v).toNat ≤ 10 ∧ (s.me.ctx (1 + (s.gi v).toNat)).run ≠ .dead)
      (.helper (s.gi v).toNat qd c.set) s s ∧
    (let busy := (s.arborAt (arborOf s.core)).flying.any fun m => m.pos == posOf s.core && m.ctx == s.k
     WaitsAs (.hexit c) c fYield (busy = false ∧ s.k = 1) .helpers ((s.leaveGang s.core).now (.processExit s.core)) s ∧
     (Issues c fYield s = true → busy = false → 1 < s.k → s.me.holdsBlocks (leftOver s.k) = false →
       exec (.hexit c) s = .next (s.finish c fYield (.gone ((s.helperExit s.core s.k).switch s.core))))) ∧
    (Issues c fYield s = true → exec (.yield c) s = .next (s.finish { c with sw := true } fYield (.done s))) ∧
    CompletesAs (.waitev c d v) c fYieldLate (s.leak d = false ∧ s.me.eventWord s.k &&& s.gi v ≠ 0)
      (s.landEvent s.core s.k (s.cyc + 1) d c.set (s.me.eventWord s.k)) s ∧
    WaitsAs (.waitev c d v) c fYieldLate (s.leak d = false ∧ s.me.eventWord s.k &&& s.gi v = 0) (.event (s.gi v) d c.set) s s ∧
    (n < 4096 → (s.coreAt n).cur = some k → k ≠ 0 → (s.coreAt n).wdog.toNat ≤ (s.ctxAt n k).wd → (s.coreAt n).isReady k = true →
      exec (.watchdogExpiry n) s = .next (s.takeTrap n k { cause := cWDOG, val := (s.coreAt n).wdog.setWidth 64 } (s.ctxAt n k).pc)) ∧
    (n < 4096 → (s.coreAt n).bound = true → (s.coreAt n).proc.stage = none →
      ((s.coreAt n).proc.faultExit = none → (s.coreAt n).proc.forced = false →
        (s.ctxAt n 1).run = .waiting .helpers → (s.coreAt n).helperLive = false →
        exec (.processExit n) s = .next (if s.exitDrained n then s.endProcess n true else s.later (.processExit n))) ∧
      ((s.coreAt n).proc.faultExit.isSome = true ∨ (s.coreAt n).proc.forced = true → (s.coreAt n).proc.ending = true →
        let u := s.dropRefused n
        exec (.processExit n) s = .next (if u.exitDrained n then u.endProcess n false else u.later (.processExit n)))) ∧
    (n < 4096 → (s.coreAt n).bound = true → (s.coreAt n).proc.started = false → (s.coreAt n).proc.faultExit = none →
      (s.coreAt n).proc.forced = false → (s.coreAt n).proc.stage = none → ∀ u : State,
      (s.doFills n (s.coreAt n).dom (s.coreAt n).proc.fills = (u, none) → exec (.residencyFillComplete n) s =
        .next ((u.updProc n fun p => { p with started := true, fills := [] }).updCtx n 1 fun x =>
          if x.run == .stopped then { x with run := .ready } else x)) ∧
      ∀ cause, s.doFills n (s.coreAt n).dom (s.coreAt n).proc.fills = (u, some cause) →
        exec (.residencyFillComplete n) s = .next (u.faultExit n cause))

/-- The GANG class and its events (R33, R34, R53, R115, R293 to R298) complete. An arrival at a barrier waits for its release, and where the
arrivals are of two kinds each traps GANGMIS with reason 8; the release, tried again in the next cycle while this gang is held or a write
into a local store of the gang is pending, gives every process the OR of the flags, and by XEND the next superstep. XCAST, at its planned
cycle in a planned gang, reads its units and sends them to the core of a live role; they are all in place at the transfer's end and nothing
else is. WIDF reads a field of the work identifier, the superstep or the phase, and ROLEQ a role. -/
def Obligations.GangWordsComplete : Prop :=
  ∀ (c : Ctl) (role : BitVec 12) (w d : BitVec 6) (i : BitVec 3) (n : BitVec 6) (g : Gang) (id : Nat) (s : State),
    let p := s.me.proc
    let arrived := fun (xend : Bool) => (s.engineCtx s.core 1).updProc s.core fun q =>
      { q with arrived := some (s.cyc, xend), contrib := s.me.contribution }
    let may := fun (xend : Bool) => p.stage = none ∧ s.k = 1 ∧ s.arrivalReady s.core = true ∧
      (∀ g, s.myGang = some g → g.h.planned = true → p.exchange = xend)
    let kind := fun (xend : Bool) => (arrived xend).barrierKind p.gang
    let miss := fun (xend : Bool) => s.finish c fYield (.trapIn ((arrived xend).barrierMiss ((arrived xend).barrierCores p.gang)) cGANGMIS 8)
    WaitsAs (.bar c) c fYield (may false ∧ kind false ≠ some false) (.barrier false) ((arrived false).checkBarrier p.gang) s ∧
    WaitsAs (.xend c) c fYield (may true ∧ kind true ≠ some false) (.barrier true) ((arrived true).checkBarrier p.gang) s ∧
    (Issues c fYield s = true → (may false → kind false = some false → exec (.bar c) s = .next (miss false)) ∧
      (may true → kind true = some false → exec (.xend c) s = .next (miss true))) ∧
    (s.gangAt id = some g → s.barrierKind id = some true →
      let cores := s.barrierCores id
      let x := cores.any fun n => (s.coreAt n).proc.arrived.any fun a => a.2
      let fl := cores.foldl (fun f n => f ||| (s.coreAt n).proc.contrib) 0
      let held := (s.domainAt g.domain).holds.any fun h => h.1 == id
      (held = true ∨ (x = true ∧ s.exchangeQuiet id = false) →
        exec (.barrierRelease id) s = .next (s.atCycle (s.cyc + 1) (.barrierRelease id))) ∧
      (held = false → (x = true → s.exchangeQuiet id = true) →
        ∃ u : State, exec (.barrierRelease id) s = .next u ∧ (cores.Nodup → ∀ n ∈ cores,
          let p := (s.coreAt n).proc
          let q := (u.coreAt n).proc
          q.arrived = none ∧ q.bflags = fl ∧ q.exchange = !x ∧ q.superstep = if x then p.superstep + 1 else p.superstep))) ∧
    (∀ a len dest, s.myGang = some g → xcastArgs (s.gReg w) (s.readG d) = .ok a len dest →
      role.toNat < g.h.roles → (g.h.planned = true → 4 * c.plan.toNat < g.h.xlen ∧ s.cyc - p.xstart = 4 * c.plan.toNat) →
      CompletesAs (.xcast c role w d) (planCtl c) fFar
        ((s.me.xsend.any fun y => decide (s.cyc < y.readUntil)) = false ∧ s.lsHeld s.core a len false = false)
        (s.sendUnits g role.toNat a len dest) s) ∧
    (∀ a len dest m, Tab.find g.bound role.toNat = some m → g.exited.contains role.toNat = false →
      let u := s.sendUnits g role.toNat a len dest
      ((u.coreAt s.core).xsend.map fun x => x.readUntil) = some (s.cyc + len / 16) ∧
      ∃ y ∈ (u.coreAt m).xpend, y.dest = dest ∧ y.bytes = (s.lsRead s.core a len).1.map some ∧
        (g.h.planned = true → (s.coreAt m).xpend = [] →
          (s.cyc + xcastTime s.core m + len / 16, .xcastTransferComplete y.id) ∈ u.calendar)) ∧
    (∀ m r x, s.cores.find? (fun q => q.2.xpend.any fun x => x.id == id) = some (m, r) →
      r.xpend.find? (fun x => x.id == id) = some x → ∃ u : State, exec (.xcastTransferComplete id) s = .next u ∧ u.mem = s.mem ∧
        (u.coreAt m).xpend = (s.coreAt m).xpend.filter (fun y => y.id != id) ∧ (∀ k, k ≠ m → u.coreAt k = s.coreAt k) ∧
        (∀ i b, x.bytes[i]? = some (some b) → Tab.get 0 (u.coreAt m).ls (x.dest + i) = b) ∧
        ∀ a, (∀ i b, x.bytes[i]? = some (some b) → a ≠ x.dest + i) → Tab.get 0 (u.coreAt m).ls a = Tab.get 0 (s.coreAt m).ls a) ∧
    (s.leak d = false → s.myGang = some g →
      CompletesAs (.widf c d i) c fLate True (s.landLate c.set (.g d (GReg.data (if i = 6 then p.superstep
        else if i = 7 then (if p.exchange then 1 else 0) else BitVec.ofNat 64 (widField p.wid g.h.widths i.toNat))))) s ∧
      CompletesAs (.roleq c d (.role role)) c fLate (role.toNat < g.h.roles)
        (s.landLate c.set (.g d (GReg.data (roleWord g s.core role.toNat)))) s ∧
      CompletesAs (.roleq c d (.g n)) c fLate ((s.readG n).toNat < g.h.roles)
        (s.landLate c.set (.g d (GReg.data (roleWord g s.core (s.readG n).toNat)))) s)

/-! ## Graphs -/

/-- The GRAPH class, SCALL and the results of off-core references (R192, R276, R306, R307, R313 to R318, R359) complete. Where the checks of
their operands pass, GPOST, GLAUNCH, GCANCEL, GSTAT and SCALL wait for the answer of their agent, which does their work once the posted
writes before them in program order have been performed (for GPOST the REDs as well), and whose answer then lands. A post of tokens to
a record has status 3, 4, 5 or 0, and only at 0 an effect. TRIG.start posts a start credit to every successor, once for the
node (log 21, the model's reading of R306); TRIG.done stores its
value and counts its role, once what is before it has performed, its REDs acknowledged; and WAITP answers at once where its process
has no node or no predecessor is missing, and under a request, and waits otherwise. -/
def Obligations.GraphWordsComplete : Prop :=
  ∀ (c : Ctl) (d g m gs : BitVec 6) (qd : BitVec 3) (v z : GI) (sl : BitVec 4) (va a b : Nat) (dom : BitVec 11) (s : State),
    let calls := fun (i : Instr) (ok : Prop) (u : State) (x : Call) =>
      Issues c fFarLate s = true → ok → exec i s = .next (s.finish c fFarLate (u.call c.set x))
    let n := (s.gi z).toNat
    let count := 1 ≤ n ∧ n ≤ 65535
    let w := (s.walkFor (s.gReg m) 0).walkFor (s.gReg gs) 0
    let wm := s.walkFor (s.gReg m) 0
    let mine := s.myNode = some (dom, va)
    calls (.gpost c d g v z) (s.graphCheck g permPOST = none ∧ s.nodeOperand g v = some va ∧ count ∧ s.leak d = false) s (.gpost d va n) ∧
    (∀ p q, calls (.glaunch c d m gs z) (count ∧ w.memAddr (w.gReg m) 0 (128 * n) 128 needRW = .ok a p ∧
        w.memAddr (w.gReg gs) 0 64 64 needW = .ok b q ∧ w.leak d = false) w (.glaunch d a n b)) ∧
    calls (.gcancel c qd g v) (s.graphCheck g permCANCEL = none ∧ s.nodeOperand g v = some va) s (.gcancel qd va) ∧
    calls (.gstat c d g sl v) (s.graphCheck g permSTATUS = none ∧ s.nodeOperand g v = some va ∧ s.leak d = false) s (.gstat d sl.toNat va) ∧
    (∀ p, calls (.scall c d g m z) (s.entryCheck g = none ∧ n ≤ 31 ∧ (s.gReg g).bits.getLsbD (64 + n) = true ∧
        wm.memAddr (wm.gReg m) 0 16 16 needW = .ok a p ∧ wm.leak d = false) wm
      (.scall d n a (capBase (wm.gReg m).bits + capLength (wm.gReg m).bits - a))) ∧
    (∀ k r, k < 4096 → s.replies.find? (fun r => r.core == k && r.ctx == a && r.arrive.isNone) = some r →
      (r.call = none → exec (.offCoreReferenceResult k a) s = .next (s.landReply k a r)) ∧
      ∀ x, r.call = some x →
        let waits := match x with
          | .gpost .. => (s.coreAt k).postedAny r.after
          | .glaunch .. | .gcancel .. | .gstat .. | .scall .. => (s.coreAt k).postedBefore r.after
        let q := (match x with
          | .gpost _ node _ => s.flow (.ctx k a) (.node (s.coreAt k).dom node)
          | .glaunch .. | .gcancel .. | .gstat .. | .scall .. => s).perform k x
        (waits = true → exec (.offCoreReferenceResult k a) s = .next (s.later (.offCoreReferenceResult k a))) ∧
        (waits = false → exec (.offCoreReferenceResult k a) s = .next (({ q.2 with replies := q.2.replies.map fun y =>
          if y.id = r.id then { y with res := q.1, call := none } else y } : State).later (.offCoreReferenceResult k a)))) ∧
    (let ok := (s.walkReady dom va).recordAt dom va
     let u := s.graphReady dom va
     let open_ := (u.graphOf dom va).isSome = true ∧ (u.nState dom va = nWAITING ∨ u.nState dom va = nEARLY)
     let sum := u.nGet dom va 6 2 + u.nGet dom va 8 2 + a
     let t := (u.nPut dom va 6 2 (u.nGet dom va 6 2 + a)).nPut dom va 10 2 (u.nGet dom va 10 2 + a)
     (ok = false → s.postTokens dom va a = (3, s)) ∧ (ok = true → ¬ open_ → s.postTokens dom va a = (4, u)) ∧
     (ok = true → open_ → u.nGet dom va 4 2 < sum → s.postTokens dom va a = (5, u)) ∧
     (ok = true → open_ → sum ≤ u.nGet dom va 4 2 → s.postTokens dom va a = (0, (t.wakePreds dom va).nodes dom [.eval va]))) ∧
    CompletesAs (.trigStart c) c fPlain (s.myNode = none ∨ s.me.proc.trigStarted = true) s s ∧
    (let t := (s.updProc s.core fun p => { p with trigStarted := true }).graphReady dom va
     let first := mine ∧ s.me.proc.trigStarted = false
     CompletesAs (.trigStart c) c fPlain (first ∧ t.nMarks dom va % 2 = 1) t s ∧
     CompletesAs (.trigStart c) c fPlain (first ∧ t.nMarks dom va % 2 = 0)
       ((t.nPut dom va 46 1 (t.nMarks dom va + 1)).nodes dom ((t.succs dom va).map .start)) s) ∧
    CompletesAs (.trigDone c v) c fPlain (s.myNode = none) s s ∧
    CompletesAs (.trigDone c v) c fPlain (mine ∧ s.drained s.core s.k = true)
      (((((((s.engineCtx s.core s.k).flow (.ctx s.core s.k) (.node dom va)).nPut dom va 48 8 (s.gi v).toNat).updProc s.core
        fun p => { p with trigDone := true }).updGang s.me.proc.gang
          fun g => { g with doneBy := addTo g.doneBy s.me.proc.role }).doneTrigger dom va)) s ∧
    CompletesAs (.waitp c qd) c fYieldLate (s.myNode = none) (s.landAll s.core s.k c.set [.q qd true]) s ∧
    (let u := s.graphReady dom va
     let f := u.flow (.node dom va) (.ctx u.core u.k)
     let met := u.nMarks dom va / 4 % 2 = 0 ∨ u.nGet dom va 4 2 ≤ u.nGet dom va 10 2
     CompletesAs (.waitp c qd) c fYieldLate (mine ∧ met) (f.landAll f.core f.k c.set [.q qd true]) s ∧
     CompletesAs (.waitp c qd) c fYieldLate (mine ∧ ¬ met ∧ u.me.proc.prq ≠ 0) (u.landAll u.core u.k c.set [.q qd false]) s ∧
     WaitsAs (.waitp c qd) c fYieldLate (mine ∧ ¬ met ∧ u.me.proc.prq = 0) (.preds qd c.set) u s)

/-- The events of a graph (R276, R291, R292, R301, R303, R309 to R311, R398 to R403) complete. A dispatch runs the first queued node of its
die, by priority and then by age, that can be dispatched, and looks again while one is left; a retry waits for the EARLY nodes of its
cone, then queues its node again as READY and is over. A pre-empt or cancel request writes `prq` of a gang's processes and sets its
limit; under a partial hold it is only kept. At its limit a cancelled process is stopped by force, and a pre-empted gang is saved,
by force unless all its contexts have stopped. A save stops the processes, waits for what they have under way and then writes the
area; and a complete area restores its node once it has the cores, where a restore that must wait or can do nothing is the model's choice
(log 33). A host's post of tokens is answered with its status, another type than 1 with 2 (log 39, the model's choice). -/
def Obligations.GraphEventsComplete : Prop :=
  ∀ (die : Nat) (g : Nat) (x : Gang) (cancel : Bool) (dom : BitVec 11) (node area : W64) (t : TokenMsg) (s : State),
    (let mine := s.ready.filter fun r => r.die == die
     let order := [3, 2, 1, 0].flatMap fun p => mine.filter fun r => r.prio == p
     (order.findSome? s.dispatchOne = none → exec (.nodeDispatch die) s = .next s) ∧
     ∀ u, order.findSome? s.dispatchOne = some u →
       exec (.nodeDispatch die) s = .next (if u.ready.any fun r => r.die == die then u.later (.nodeDispatch die) else u)) ∧
    (∀ r, s.retries.find? (fun r => r.domain == dom && r.node == node) = some r →
      let w := s.graphReady dom node.toNat
      let early := w.stopEarly dom node.toNat
      let more := early.1.map fun m => BitVec.ofNat 64 m
      w.nState dom node.toNat = nRETRYING → (r.waitFor.any fun m => !(w.nodeGangs dom m.toNat).isEmpty) = false →
      (early.1 ≠ [] → exec (.nodeRetry dom node) s = .next ({ early.2 with retries := early.2.retries.map fun x =>
        if x = r then { x with waitFor := x.waitFor ++ more } else x } : State).checkRetries) ∧
      (early.1 = [] → ∃ u : State, exec (.nodeRetry dom node) s = .next u ∧ (∃ q ∈ u.ready, q.domain = dom ∧ q.node = node) ∧
        ∀ r ∈ u.retries, ¬ (r.domain = dom ∧ r.node = node))) ∧
    (s.gangAt g = none → exec (.preemptRequest g cancel) s = .next s) ∧
    (s.gangAt g = some x → ((s.domainAt x.domain).holds ≠ [] → exec (.preemptRequest g cancel) s =
        .next (s.updGang g fun y => { y with dueReq := some (cancel || y.dueReq.getD false) })) ∧
      ((s.domainAt x.domain).holds = [] → s.stageOf g = none →
        let cores := (s.gangCores g).filter fun n => (s.coreAt n).proc.faultExit.isNone
        cores ≠ [] → (∀ n ∈ cores, (s.coreAt n).proc.prq = 0) →
        let u := (cores.foldl (fun t n => t.writePrq n cancel) s).updGang g fun y => { y with
          preempt := !cancel, saving := 0, saveFailed := false, raised := s.cyc, dueReq := none }
        let u := if s.gangDlim g = 0 then u.now (.dlimExpiry g) else u.atCycle (s.cyc + s.gangDlim g) (.dlimExpiry g)
        exec (.preemptRequest g cancel) s = .next (if cancel then u else u.later (.save g false)))) ∧
    (∀ n r, s.gangAt g = some x → (s.gangCores g).filter (fun n => (s.coreAt n).proc.faultExit.isNone) = n :: r →
      x.raised + s.gangDlim g ≤ s.cyc →
      (bits (s.coreAt n).proc.prq 63 62 = 2 → exec (.dlimExpiry g) s = .next ((n :: r).foldl State.forceStop s)) ∧
      (bits (s.coreAt n).proc.prq 63 62 = 1 → x.saving = 0 → exec (.dlimExpiry g) s =
        .next (s.now (.save g (!((s.family g).flatMap s.gangCores).all fun n => (s.coreAt n).proc.started && s.allStopped n))))) ∧
    (s.gangAt g = some x → x.preempt = true → x.saveFailed = false → (∀ id st, s.stageOf g = some (id, st) → st.op = 0) →
      let fam := s.family g
      let roles := s.saveRoles fam
      let cores := roles.filterMap fun r => r.core
      let stopped := (cores.all fun n => (s.coreAt n).proc.started) = true ∧ cores.all s.allStopped = true
      (x.saving = 0 → cancel = false → ¬ stopped → exec (.save g cancel) s = .next (s.later (.save g cancel))) ∧
      (x.saving = 0 → (cancel = true ∨ stopped) → exec (.save g cancel) s = .next ((fam.foldl (fun t g => t.updGang g fun y =>
        { y with saving := if cancel then 2 else 1 }) (cores.foldl (fun t n => t.saveStop cancel n) s)).later (.save g cancel))) ∧
      (x.saving ≠ 0 → exec (.save g cancel) s =
        let u := cores.foldl State.dropRefused s
        .next (if cores.all u.saveDrained then u.saveWriteAll g x fam roles else u.later (.save g cancel)))) ∧
    (let w := s.restoreReady dom area.toNat node.toNat
     ∀ y gg l h, w.saved.find? (fun x => x.ofNode dom node.toNat) = some y → y.gangs = gg :: l → w.areaRead dom area.toNat 64 = some h →
      let n := y.roles.length
      let recs := (List.range n).filterMap fun i => w.readRecord dom (area.toNat + areaHead + i * recordSize)
      let ok := h.take 4 = [0x44, 0x58, 0x53, 0x56] ∧ cardField h 4 2 = 1 ∧ cardField h 6 1 = 1 ∧ saveHeadOk h = true ∧
        cardField h 16 8 = node.toNat ∧ cardField h 24 2 = n ∧ (w.nState dom node.toNat = nRUNNING ∨ w.nState dom node.toNat = nEARLY) ∧
        (w.domainAt dom).integrityStop = false ∧ recs.length = n
      (¬ ok → exec (.restore dom area node) s = .next w) ∧
      (ok → w.bindRoles dom { gg.2.h with roles := n } = none → exec (.restore dom area node) s = .next (w.later (.restore dom area node))) ∧
      (ok → ∀ cores, w.bindRoles dom { gg.2.h with roles := n } = some cores →
        exec (.restore dom area node) s = .next (w.restoreAll y area.toNat cores recs))) ∧
    (let d : BitVec 11 := t.domain.setWidth 11
     let w := s.walkReady d t.node.toNat
     let owns := w.bandOwner (w.nodeDie d t.node.toNat) = some t.source
     let valid := t.type = 1 ∧ t.reserved = false ∧ t.domain.toNat < 2048 ∧ (w.domainAt d).live = true ∧ t.count ≠ 0 ∧ t.node.toNat % 128 = 0
     let ack := fun (u : State) (n : Nat) => u.toHost t.source none (.ack t.source t.tag (BitVec.ofNat 8 n))
     (¬ owns → exec (.tokenPost t) s = .next (ack w 1)) ∧ (owns → ¬ valid → exec (.tokenPost t) s = .next (ack w 2)) ∧
     (owns → valid → let q := w.postTokens d t.node.toNat t.count.toNat
       exec (.tokenPost t) s = .next (ack q.2 q.1)))

/-! ## Stages -/

/-- The STAGE class and its events (R319 to R335) complete. KEYR reads the holder's range or state. SHINT answers whether its request is
accepted, and leaves a code where it is not: arming needs a whole keyable channel and a free monitor, disarming a stage without twins,
and a clone or a merge what R325 asks for; in a process of no stage each answers false. SRET ends the upcall and goes on with the
operation, or abandons it where its operand is not zero, without putting the snapshot back (log 29, the model's reading). The backlog that
arming writes is log 73. A pause that takes effect starts the upcall; a pause is abandoned under a
request of a holder, where the stage is not armed (with code 1: log 29), and at its limit, unless the holder has stopped by then; an upcall's event parks C as STAGEF. The range steps of a split
and a merge wait for their twin's fills, its depth, its pause and the ring, and are abandoned under a request. -/
def Obligations.StageWordsComplete : Prop :=
  ∀ (c : Ctl) (d : BitVec 6) (qd : BitVec 3) (sl : BitVec 1) (v : GI) (id h n m : Nat) (st : Stage) (op : Nat) (code : BitVec 16) (a : W64)
    (r : ChanRec) (s : State), s.stageAt id = some st →
    let mine := s.me.proc.stage = some (id, h)
    let landed := fun (b : Bool) (t : State) => t.landAll s.core s.k c.set [.q qd b]
    let coded := fun (x : BitVec 8) => s.updStage id fun y => { y with code := x }
    let whole := s.endCheck st.input (some true) bitUSE = none ∧ s.endRecord (s.gReg st.input).bits = some r
    let input := s.gReg st.input
    CompletesAs (.keyr c d sl) c fLate (s.leak d = false) (s.landLate c.set (.g d (GReg.data (s.keyWord sl)))) s ∧
    (Issues c fLate s = true → mine →
      (whole → (r.keyable = false ∨ r.keyed = true) → exec (.shintArm c qd) s = .next (s.finish c fLate (.done (landed false (coded 12))))) ∧
      ((s.endCheck st.input (some true) bitUSE ≠ none ∨ s.endRecord input.bits = none) →
        exec (.shintArm c qd) s = .next (s.finish c fLate (.done (landed false (coded 12))))) ∧
      (whole → r.keyable = true → r.keyed = false →
        (st.armed = true → exec (.shintArm c qd) s = .next (s.finish c fLate (.done (landed false (coded 13))))) ∧
        (st.armed = false → s.freeMonitors (parterreOf s.core) = [] →
          exec (.shintArm c qd) s = .next (s.finish c fLate (.done (landed false (coded 14))))))) ∧
    CompletesAs (.shintArm c qd) c fLate (mine ∧ whole ∧ r.keyable = true ∧ r.keyed = false ∧ st.armed = false ∧
        s.freeMonitors (parterreOf s.core) ≠ [])
      (landed true (((s.putRec (endRec input.bits) { r with
          keyMask := st.keyMask, starts := Tab.put r.starts 0 0, nexts := Tab.put r.nexts 0 input.endst,
          backlog := r.nextFor 0 - input.endst }).updStage id fun x =>
        { x with armed := true, record := endRec input.bits }).bindMonitor (parterreOf s.core) id 0 (st.cloneDesc 0 true))) s ∧
    CompletesAs (.shintDisarm c qd) c fLate (mine ∧ st.armed = false) (landed false (coded 1)) s ∧
    CompletesAs (.shintDisarm c qd) c fLate (mine ∧ st.armed = true ∧ st.twins ≠ []) (landed false (coded 15)) s ∧
    CompletesAs (.shintDisarm c qd) c fLate (mine ∧ st.armed = true ∧ st.twins = []) (landed true (s.disarmStage id)) s ∧
    CompletesAs (.shintClone c qd) c fLate mine (landed (s.stageRequest id true h).1 (s.stageRequest id true h).2) s ∧
    CompletesAs (.shintMerge c qd) c fLate mine (landed (s.stageRequest id false h).1 (s.stageRequest id false h).2) s ∧
    (∀ clone, s.stageRefusal st clone h ≠ 0 → s.stageRequest id clone h = (false, coded (s.stageRefusal st clone h))) ∧
    (s.me.proc.stage = none → CompletesAs (.shintArm c qd) c fLate True (landed false s) s ∧
      CompletesAs (.shintDisarm c qd) c fLate True (landed false s) s ∧ CompletesAs (.shintClone c qd) c fLate True (landed false s) s ∧
      CompletesAs (.shintMerge c qd) c fLate True (landed false s) s) ∧
    (Issues c fPlain s = true → mine → s.me.upcall.isSome = true → s.k = 1 →
      let left := (s.leaveUpcall s.core).updCtx s.core 1 fun x => { x with notBefore := max x.notBefore (s.cyc + c.delay.toNat + 1) }
      let gone := fun (t : State) => (.next (s.finish c fPlain (.gone (t.switch s.core))) : Host.Outcome State Fault Refusal)
      (s.gi v = 0 → st.op = 1 → exec (.sret c v) s = gone ((left.updStage id fun x => { x with phase := 3 }).now (.stageSplitCompletion id))) ∧
      (s.gi v = 0 → st.op ≠ 1 → exec (.sret c v) s = gone ((left.updStage id fun x => { x with phase := 4 }).now (.stageMergeQuiescence id))) ∧
      (s.gi v ≠ 0 → exec (.sret c v) s = gone ((left.updStage id fun x => { x with snapshot := [] }).abandonStage id 9))) ∧
    (Issues c fPlain s = true → (s.me.upcall = none ∨ s.me.proc.stage = none ∨ s.k ≠ 1) →
      exec (.sret c v) s = .next (s.finish c fPlain (.trap cPROT 2))) ∧
    (let who := if st.op = 1 ∧ st.phase = 1 then some st.who else if st.op = 2 ∧ st.phase = 2 then some st.other else none
     let u := s.raise n evSTAGE
     let start := ((u.stageRec st).map fun r => Tab.get 0 r.starts st.who).getD 0
     (who.bind (fun h => s.holderCore st h) = none → exec (.stagePause id) s = .next s) ∧
     (who.bind (fun h => s.holderCore st h) = some n →
      (s.stagePrq st = true → exec (.stagePause id) s = .next (s.abandonStage id 11)) ∧
      (s.stagePrq st = false → st.armed = false → exec (.stagePause id) s = .next (s.abandonStage id 1)) ∧
      (s.stagePrq st = false → st.armed = true → s.paused n = false → exec (.stagePause id) s = .next (s.later (.stagePause id))) ∧
      (s.stagePrq st = false → st.armed = true → s.paused n = true →
        (st.op = 1 → exec (.stagePause id) s = .next (u.pauseSplit id n st)) ∧
        (st.op ≠ 1 → exec (.stagePause id) s =
          .next ((u.updStage id fun x => { x with phase := 3 }).startUpcall id n st st.merge (start.setWidth 64) st.who))))) ∧
    (let who := if st.op = 1 ∧ st.phase = 1 then some st.who else if st.op = 2 ∧ st.phase = 2 then some st.other else none
     let still := (who.bind (fun h => s.holderCore st h)).any s.paused
     let due := st.since = op ∧ who.isSome = true
     (due → still = false → exec (.stagePauseTimeout id op) s = .next (s.abandonStage id 8)) ∧
     (due → still = true → exec (.stagePauseTimeout id op) s = exec (.stagePause id) s) ∧
     (¬ due → exec (.stagePauseTimeout id op) s = .next s)) ∧
    (∀ x, n < 4096 → (s.coreAt n).upcall = some x → (s.coreAt n).proc.stage = some (id, h) →
      exec (.stagef n code a) s = .next ((s.abandonStage id 10).park n 1 { cause := cSTAGEF, val := a.setWidth 48 ++ code } x.pc)) ∧
    (st.target = some m → s.holderCore st st.who = some n → s.stageRec st = some r → st.op = 1 → st.phase = 3 →
      (s.stagePrq st = true → exec (.stageSplitCompletion id) s = .next (s.abandonStage id 11)) ∧
      (s.stagePrq st = false → ((s.coreAt m).proc.started = false ∨ r.stuck ≠ []) →
        exec (.stageSplitCompletion id) s = .next (s.later (.stageSplitCompletion id))) ∧
      (s.stagePrq st = false → (s.coreAt m).proc.started = true → r.stuck = [] →
        exec (.stageSplitCompletion id) s = .next (s.splitRange id n m st r))) ∧
    (s.holderCore st st.who = some n → s.stageRec st = some r → st.op = 2 →
      let run := fun (t : State) => exec (.stageMergeQuiescence id) s = .next t
      let again := s.later (.stageMergeQuiescence id)
      let idle := ((s.coreAt n).proc.leaving.isSome = true ∧ (s.coreAt n).helperLive = false) ∨ s.depth st.record st.who = 0
      let still := s.paused n = true ∧ s.exitDrained n = true
      (st.phase ≠ 2 → st.phase ≠ 3 → s.stagePrq st = true → run (s.abandonStage id 11)) ∧
      (s.stagePrq st = false →
        (st.phase = 0 → idle → run (((s.stopAtYields n).updStage id fun x => { x with phase := 1 }).later (.stageMergeQuiescence id))) ∧
        (st.phase = 0 → ¬ idle → run again) ∧ (st.phase = 1 → still → run (s.mergeCopy id n st r)) ∧ (st.phase = 1 → ¬ still → run again) ∧
        (3 < st.phase → r.stuck = [] → run (s.mergeJoin id st)) ∧ (3 < st.phase → r.stuck ≠ [] → run again)))

/-! ## Debugging -/

/-- The DBG class, MONITOR_SAMPLE and the debugger's commands (R324, R409, R413 to R418, R421, R424) complete. A breakpoint of an armed domain
and a marker of a traced one write their records, the breakpoint also asks for a stop, and otherwise each does nothing; RDCNT and MONQ
read, and in S do nothing. A sample, free where the spec fixes none, goes into its monitor's window, and a whole window of samples that
its relation holds for fires it.
Each command of the owner on a live domain is answered with status 0 and has its effect where its operands name what is there, and in
every other case is answered with status 1 and has none. That TRACE is refused for an unaligned or empty buffer is log 37, that MONSET
sets a monitor of its own domain alone and keeps its count log 36, and that DUMP, READ and WRITE wait until the gangs have drained log 35,
each the model's reading. -/
def Obligations.DebugWordsComplete : Prop :=
  ∀ (c : Ctl) (code : BitVec 8) (d : BitVec 6) (n : BitVec 4) (v : GI) (src : BitVec 16) (dom : BitVec 11) (node buf len : W64)
    (role ctx : BitVec 12) (mode : BitVec 1) (mon : BitVec 10) (desc : BitVec 128) (tgt : DbgTarget) (tag : Bool) (w : Nat)
    (m : Monitor) (s : State),
    let own := s.domainAt s.me.dom
    let ok := fun (i : Instr) (t : State) => exec i s = .next (t.dbg src 0 [])
    let no := fun (i : Instr) => exec i s = .next (s.dbg src 1 [])
    let gangs := s.nodeGangs dom node.toNat
    let isStopped := fun (g : Nat) => (s.gangAt g).any Gang.still && s.stopDrained g
    let mine := gangs.filter fun g => (s.gangAt g).any fun x => x.stopped && x.eventStop != 1 && x.eventStop != 3 && x.saving == 0
    CompletesAs (.bkpt c code) c fPlain (s.k = 0 ∨ own.armed = false) s s ∧
    CompletesAs (.bkpt c code) c fPlain (s.k ≠ 0 ∧ own.armed = true)
      ((s.trace s.me.dom (s.ownRec 2 [code])).stopRequest s.me.proc.gang) s ∧
    CompletesAs (.mark c v) c fPlain (s.k = 0 ∨ own.traceState ≠ 1) s s ∧
    CompletesAs (.mark c v) c fPlain (s.k ≠ 0 ∧ own.traceState = 1) (s.trace s.me.dom (s.ownRec 1 (natLE 8 (s.gi v).toNat))) s ∧
    CompletesAs (.rdcnt c d n) c fLate (s.k ≠ 0 ∧ s.leak d = false) (s.landLate c.set (.g d
      { bits := if n.toNat < 8 then BitVec.ofNat 128 ((Tab.get 0 s.me.hc n.toNat).toNat * 2 ^ 64 + s.cyc % 2 ^ 64)
          else s.me.proc.received ++ s.me.proc.sent, tag := false, endst := 0 })) s ∧
    CompletesAs (.monq c d v) c fLate (s.k ≠ 0 ∧ (s.gi v).toNat ≤ 15 ∧ s.leak d = false)
      (s.landLate c.set (.g d (GReg.data (s.monWord (s.gi v).toNat)))) s ∧
    (s.k = 0 → CompletesAs (.rdcnt c d n) c fLate True (s.landLate c.set .none) s ∧
      CompletesAs (.monq c d v) c fLate True (s.landLate c.set .none) s) ∧
    (∀ x (t : State), Tab.find s.monitors mon.toNat = some m → monEnabled m = true → m.source ≠ 0 →
      (s.monSample mon.toNat m = some x ∧ t = s) ∨ (s.monSample mon.toNat m = none ∧
        x = (Config.freeWord s.fresh).toNat % 2 ^ 32 ∧ t = { s with fresh := s.fresh + 1 }) →
      let l := (x :: m.samples).take (max 1 m.window)
      let put := fun (y : Monitor) => { t with monitors := Tab.put t.monitors mon.toNat y }
      let fires := m.canFire = true ∧ l.length = m.window ∧ l.all m.sat = true
      let f := put { m with samples := [], latest := x, count := min (m.count + 1) (2 ^ 32 - 1) }
      let u := { f with fresh := f.fresh + 1 }
      (¬ fires → exec (.monitorSample mon.toNat) s = .next (put { m with samples := l, latest := x })) ∧
      (fires → exec (.monitorSample mon.toNat) s = .next (if Config.freeBit f.fresh then (u.monRec mon.toNat m x).monAct mon.toNat m x
        else (u.monAct mon.toNat m x).monRec mon.toNat m x))) ∧
    (s.dbgMay src dom = false → no (.arm src dom) ∧ no (.disarm src dom) ∧ no (.stop src dom node) ∧ no (.resume src dom node) ∧
      no (.hold src dom node role) ∧ no (.unhold src dom node role) ∧ no (.trace src dom buf len mode) ∧ no (.dump src dom none buf len) ∧
      no (.dump src dom (some node) buf len) ∧ no (.monset src dom mon desc) ∧ no (.read src dom node role ctx tgt) ∧
      no (.write src dom node role ctx tgt tag w)) ∧
    (gangs = [] → no (.stop src dom node) ∧ no (.resume src dom node) ∧ no (.hold src dom node role) ∧ no (.unhold src dom node role) ∧
      no (.dump src dom (some node) buf len) ∧ no (.read src dom node role ctx tgt) ∧ no (.write src dom node role ctx tgt tag w)) ∧
    (s.dbgMay src dom = true → ok (.arm src dom) (s.updDomain dom fun t => { t with armed := true }) ∧
      ok (.disarm src dom) (s.updDomain dom fun t => { t with armed := false }) ∧
      ok (.dump src dom none buf len) (s.updDomain dom fun t => { t with dumpBuf := some (buf, len) }) ∧
      (let good := buf.toNat % 64 = 0 ∧ len.toNat % 64 = 0 ∧ len ≠ 0
       (good → ok (.trace src dom buf len mode) ((s.updDomain dom fun t => { t with
          traceState := 1, traceMode := mode, traceBuf := buf, traceLen := len, traceAt := 64, traceLost := 0 }).traceHead dom)) ∧
       (¬ good → no (.trace src dom buf len mode))) ∧
      (let y := Tab.get Monitor.init s.monitors mon.toNat
       let good := y.stage = none ∧ desc.extractLsb' 16 11 = dom ∧ (y.domain = dom ∨ monEnabled y = false)
       (good → ok (.monset src dom mon desc) { s with monitors := Tab.put s.monitors mon.toNat { Monitor.init with
          desc := desc &&& monsetMask, count := if y.domain = dom then y.count else 0 } }) ∧
       (¬ good → no (.monset src dom mon desc)))) ∧
    (∀ g gs, s.dbgMay src dom = true → gangs = g :: gs →
      ok (.stop src dom node) (gangs.foldl (fun t g => t.updGang g fun x => if x.stopped then x else { x with stopReq := true }) s) ∧
      (mine ≠ [] → ok (.resume src dom node) (mine.foldl State.releaseGang s)) ∧ (mine = [] → no (.resume src dom node)) ∧
      (gangs.all isStopped = true → ok (.dump src dom (some node) buf len)
        ((gangs.foldl (fun t g => t.updGang g fun x => { x with dump := some (buf, len) }) s).dumpGang g)) ∧
      (gangs.all isStopped = false → no (.dump src dom (some node) buf len)) ∧
      (s.holdRole gangs role.toNat = none → no (.hold src dom node role) ∧ no (.unhold src dom node role)) ∧
      ∀ r k, s.holdRole gangs role.toNat = some (r, k) →
        (s.holding k = true → ok (.hold src dom node role) s) ∧
        (s.holding k = false → no (.unhold src dom node role) ∧ ok (.hold src dom node role)
          ((s.stopAtYields k).updDomain dom fun t => { t with holds := t.holds ++ [(r.gang, r.role)] })) ∧
        (s.holding k = true →
          let t := (s.updDomain dom fun t => { t with holds := t.holds.filter fun h => h != (r.gang, r.role) }).updProc k
            fun p => { p with held := false }
          let stays := t.pausing k = true ∨ bits (t.coreAt k).proc.prq 63 62 = 1
          (stays → ok (.unhold src dom node role) (t.endHolds dom)) ∧ (¬ stays → ok (.unhold src dom node role) ((t.goOn k).endHolds dom)))) ∧
    (s.dbgCore src dom node role.toNat = none → no (.read src dom node role ctx tgt) ∧ no (.write src dom node role ctx tgt tag w)) ∧
    (∀ k, s.dbgCore src dom node role.toNat = some k →
      (11 < ctx.toNat → no (.read src dom node role ctx tgt) ∧ no (.write src dom node role ctx tgt tag w)) ∧
      (s.dbgRead k ctx.toNat tgt = none → no (.read src dom node role ctx tgt)) ∧
      (s.dbgWrite k ctx.toNat tgt tag w = none → no (.write src dom node role ctx tgt tag w)) ∧
      (ctx.toNat ≤ 11 → (∀ b, s.dbgRead k ctx.toNat tgt = some b → exec (.read src dom node role ctx tgt) s = .next (s.dbg src 0 b)) ∧
        ∀ u, s.dbgWrite k ctx.toNat tgt tag w = some u → ok (.write src dom node role ctx tgt tag w) u))

/-! ## The outside of the machine -/

/-- The events of fabric, hosts and links (R48, R267 to R274, R277, R368 to R371) complete. An instruction-cache line that a core waits
for arrives as memory holds it, where translation still lets it be fetched. Hosts and peers
have their accesses performed and answered where the owner, the domain and the range allow it, and otherwise refused and answered; a
line that a host holds is asked back before a peer's access. Snoops queue and leave in order, and before READY are answered with an
error; an evicted host line is written back where it is modified. A packet that its link secret does not verify is dropped and
counted, one that it does is performed; a rollover starts the next generation; a lost port trains again; and a counter's overflow is
reported where the domain names a host. Telemetry for the owner, exposure by CXL.io and a host's atomic are log 39, what a packet carries
and its source log 40, the one count of integrity events log 6, each the model's choice. -/
def Obligations.FabricEventsComplete : Prop :=
  ∀ (n line : Nat) (host : BitVec 16) (src : BitVec 16) (h : BitVec 12) (l : BitVec 46) (agent : BitVec 1) (inv supported : Bool)
    (dom : Option (BitVec 11)) (reg : BitVec 12) (x : HdmRange) (io : CxlIo) (r : HostReq) (q : PeerReq) (p : Packet) (data : Option (BitVec 512)) (s : State),
    (n < 4096 →
      let c := s.coreAt n
      let w := s.walkReady c.dom (line * 64)
      (c.ifills.contains line = false → exec (.icacheFill n line) s = .next s) ∧
      (c.ifills.contains line = true →
        (∀ why, w.codePlace c.dom line = .bad why → exec (.icacheFill n line) s =
          .next (w.updCore n fun c => { c with ifills := c.ifills.filter fun l => l != line })) ∧
        ∀ pl, w.codePlace c.dom line = .ok pl →
          (w.hostHolds pl = true → exec (.icacheFill n line) s = .next ((w.askBack pl).later (.icacheFill n line))) ∧
          (w.hostHolds pl = false → let z := w.readPlace (w.keyOf c.dom) pl 64
            exec (.icacheFill n line) s = .next (z.2.putILine n line pl (natLE 64 z.1)))) ∧
      ∀ j : BitVec 3, let d := (s.coreAt n).dom
        let dest := domainField (s.domainAt d).record 72 2
        (dest = 0xFFFF → exec (.hardwareCounterWrap n j) s = .next s) ∧
        (dest ≠ 0xFFFF → exec (.hardwareCounterWrap n j) s =
          .next (s.toHost (BitVec.ofNat 16 dest) (some d) (.overflow (BitVec.ofNat 16 dest) d j)))) ∧
    exec (.hostSnoop agent h l inv) s = .next (if s.booted then ({ s with snoops := s.snoops ++
      [{ agent := agent.toNat, host := h, line := l.toNat, invalidate := inv }] } : State).later (.snoopDequeue agent)
      else s.emitTo (h.setWidth 16) (.hostReply (h.setWidth 16) true [])) ∧
    exec (.snoopDequeue agent) s = .next (match s.snoops.find? (fun x => x.agent == agent.toNat) with
      | some x => ({ s with snoops := s.snoops.erase x } : State).applySnoop x
      | none => s) ∧
    exec (.hostLineEviction agent h l) s = .next (match s.hostLine h l.toNat with
      | some y => (s.lineOut y (.writeBack h l.toNat y.data)).dropLine h l.toNat
      | none => s) ∧
    (let a := r.addr.toNat
     let k := if r.write then r.data.length else r.len
     let dest := fun (t : State) (d : Option (BitVec 11)) (bad : Bool) (b : List Byte) => t.toHost r.source d (.hostReply r.source bad b)
     let refused := dest s none true (if r.write then [] else List.replicate k 0)
     let done := exec (.hostMemoryRequest r) s
     (s.booted = false → done = .next refused) ∧
     (s.booted = true → r.telemetry = true →
       (r.write = true → done = .next refused) ∧
       (r.write = false → r.counters = true →
         done = .next (dest s none false (if s.isOwner r.source then natLE k s.integrity else List.replicate k 0))) ∧
       (r.write = false → r.counters = false → done = .next (dest (s.freeBytes k).2 none false (s.freeBytes k).1))) ∧
     (s.booted = true → r.telemetry = false →
       (s.reqDomain r k = none → done = .next (s.emitTo r.source (.unsupported r.source))) ∧
       ∀ d, s.reqDomain r k = some d →
         let may := s.isOwner r.source = true ∧ (s.domainAt d).live = true ∧ s.hbmOk a k = true
         let held := fun (t : State) => if r.hold && r.cxl then t.track d (linesOf a k) else t
         (¬ may → done = .next refused) ∧
         (may → r.write = false → done = .next (dest (held s) (some d) false (s.outRead d a k))) ∧
         (may → r.write = true → done = .next (dest (held (s.outWrite d a r.data)) (some d) false (if r.atomic then s.outRead d a k else []))))) ∧
    (let a := q.addr.toNat
     let k := peerSize q
     let held := (peerLines q).filter fun l => s.hostHeld.any fun h => h.1 == l
     let may := s.booted = true ∧ (s.domainAt q.domain).live = true ∧ s.hbmOk a k = true
     let dest := fun (t : State) (bad : Bool) (b : List Byte) => t.peerReply q bad b
     (held ≠ [] → exec (.peerMemoryRequest q) s =
       .next (held.foldl (fun t l => t.askBack (.hbm (64 * l))) { s with peerWaiting := s.peerWaiting ++ [q] })) ∧
     (held = [] → (¬ may → exec (.peerMemoryRequest q) s = .next (dest s true [])) ∧
       (may → q.atomic = none → exec (.peerMemoryRequest q) s =
         .next (if q.write then dest (s.outWrite q.domain a q.data) false [] else dest s false (s.outRead q.domain a k))) ∧
       ∀ y, may → q.atomic = some y → (a % k ≠ 0 → exec (.peerMemoryRequest q) s = .next (dest s true [])) ∧
         (a % k = 0 → let x := s.performOnce (s.keyOf q.domain) q.domain y.lcn y.ctx 0 (peerOp q y)
           exec (.peerMemoryRequest q) s = .next (dest x.1 false (atomicReply x.2))))) ∧
    (s.backInv.contains l.toNat = false → exec (.backInvalidateAnswer l data) s = .next s) ∧
    (s.backInv.contains l.toNat = true →
      let t := { s with backInv := s.backInv.filter fun x => x != l.toNat, hostHeld := s.hostHeld.filter fun h => h.1 != l.toNat }
      let go := fun (t : State) => (.next (t.peerWaiting.foldl State.peer { t with peerWaiting := [] }) : Host.Outcome State Fault Refusal)
      (data = none → exec (.backInvalidateAnswer l data) s = go t) ∧
      ∀ v y, data = some v → s.hostHeld.find? (fun h => h.1 == l.toNat) = some y → exec (.backInvalidateAnswer l data) s =
        go (if t.hbmOk (64 * l.toNat) 64 then t.outWrite y.2 (64 * l.toNat) (natLE 64 v.toNat) else t)) ∧
    (s.booted = false → exec (.hostCxlIoRequest host supported io) s = .next (s.emitTo host (.cxlIo host false 0))) ∧
    (s.booted = true → exec (.hostCxlIoRequest host false io) s = .next (s.emitTo host (.unsupported host)) ∧
      exec (.hostCxlIoRequest host true { reg := reg, expose := none }) s = .next (s.emitTo host (.cxlIo host true (Config.cxlConfig reg.toNat))) ∧
      (let may := s.isOwner host = true ∧ (s.domainAt x.domain).live = true ∧ (s.exposed.all fun y =>
         x.domain == y.domain || !overlaps x.base.toNat x.len.toNat y.base.toNat y.len.toNat) = true
       (may → exec (.hostCxlIoRequest host true { reg := reg, expose := some x }) s =
         .next (({ s with exposed := x :: s.exposed } : State).emitTo host (.cxlIo host true (Config.cxlConfig reg.toNat)))) ∧
       (¬ may → exec (.hostCxlIoRequest host true { reg := reg, expose := some x }) s = .next (s.emitTo host (.cxlIo host true (Config.cxlConfig reg.toNat)))))) ∧
    (s.linkSecret p = none → exec (.linkPacketReceive p) s = .next { s with integrity := s.integrity + 1 }) ∧
    (∀ secret, s.linkSecret p = some secret →
      let v := (s.link p.source p.domain).accept secret p
      let t := s.putLink v.2
      (v.1 = false → exec (.linkPacketReceive p) s = .next { t with integrity := t.integrity + 1 }) ∧
      (v.1 = true → (Config.carried p.data = none → exec (.linkPacketReceive p) s = .next t) ∧
        ∀ i, Config.carried p.data = some i →
          exec (.linkPacketReceive p) s =
            .next (if t.mayCarry p (s.portAt p.port.toNat).cxl i then t.now (fromPeer (p.source.extractLsb' 4 12) i) else t))) ∧
    ((∀ d, dom = some d → (s.domainAt d).live = true) →
      (src.extractLsb' 4 12 = s.lodge.deviceId → exec (.linkKeyRollover src dom) s =
        .next (s.putTx { s.tx src dom with gen := (s.tx src dom).gen + 1, number := 0 })) ∧
      (src.extractLsb' 4 12 ≠ s.lodge.deviceId → exec (.linkKeyRollover src dom) s = .next (s.putLink { s.link src dom with
        gen := (s.link src dom).gen + 1, lastPrev := (s.link src dom).last, last := none, newCount := 0 }))) ∧
    (∀ p : BitVec 5, p.toNat < 18 → let up := s.booted = true ∧ (s.portAt p.toNat).up = true
      (up → exec (.linkLoss p) s =
        .next ((s.updPort p.toNat fun x => { x with up := false, width := 0 }).portStart p.toNat 1 (s.portAt p.toNat).cxl)) ∧
      (¬ up → exec (.linkLoss p) s = .next s))

/-- The Lodge's requests (R269, R344 to R349, R352, R366, R367, R378) complete. A booted Lodge serves device reports to any host, issues nonces
that it has not issued before, and gives ownership to a listed credential whose signatures verify while there is no owner; the owner hands
over or gives up ownership under its signatures. The owner may assign a device id while no live domain spans devices, create a domain from
a valid record and destroy it, pass a core that is not bound between domains, move a page to a host and back, and write a format
window that meets the conditions. Everything else that is asked of it is answered with a refusal and has no effect, but that a page
returned with a MAC, version or length that does not fit stops its domain and is reported. What a release signs and that a nonce survives a
failed claim are log 43, the checks of a domain request log 44, a returned page's bytes log 81, each the model's reading. -/
def Obligations.LodgeRequestsComplete : Prop :=
  ∀ (src host newHost : BitVec 16) (nonce newCred : BitVec 384) (g : Signed) (id core : BitVec 12) (r : DomainReq) (dom : BitVec 11)
    (dest : Option (BitVec 11)) (page : BitVec 32) (off : BitVec 16) (ver : W64) (data : List Byte) (mac : BitVec 384) (h : BitVec 12)
    (mc win : BitVec 4) (desc : BitVec 256) (s : State), ∀ va : BitVec 48, va = page ++ off →
    let run := fun (i : Instr) (t : State) => exec i s = .next t
    let no := fun (i : Instr) (x : BitVec 16) => exec i s = .next (s.answer x false [])
    let yes := fun (i : Instr) (t : State) => exec i s = .next (t.answer src true [])
    let owner := s.isOwner src = true
    (s.booted = true → run (.deviceReportRequest host nonce) (s.answer host true (s.report 0 0 (bytes48 nonce) []))) ∧
    (s.booted = false → no (.deviceReportRequest host nonce) host ∧ no (.ownershipChallenge host) host) ∧
    (s.booted = true → let z := State.freshNonce (s.lodge.issued.length + 1) s
      (z.1 = none → run (.ownershipChallenge host) (z.2.answer host false [])) ∧
      ∀ x, z.1 = some x → x ∉ s.lodge.issued ∧ run (.ownershipChallenge host)
        ((z.2.updLodge fun l => { l with nonces := x :: l.nonces, issued := x :: l.issued }).answer host true (bytes48 x))) ∧
    (let may := s.booted = true ∧ s.lodge.owner = none ∧ s.listed (credential g) = true ∧ s.signedOk nonce host g = true
     (may → run (.ownershipClaim host nonce g)
       (((s.dropNonce nonce).updLodge fun l => { l with owner := some (host, credential g) }).kick.answer host true [])) ∧
     (¬ may → no (.ownershipClaim host nonce g) host)) ∧
    (let may := s.ownerSigned host nonce newHost g = true ∧ s.listed newCred = true
     (may → run (.handover host nonce newHost newCred g)
       ((((s.askAcks host).dropNonce nonce).updLodge fun l => { l with owner := some (newHost, newCred) }).answer host true [])) ∧
     (¬ may → no (.handover host nonce newHost newCred g) host)) ∧
    (s.ownerSigned host nonce host g = true → run (.ownershipRelease host nonce g)
      (((s.dropNonce nonce).updLodge fun l => { l with owner := none, acks := [] }).answer host true [])) ∧
    (s.ownerSigned host nonce host g = false → no (.ownershipRelease host nonce g) host) ∧
    (¬ owner → no (.deviceIdAssign src id) src ∧ no (.domainCreate src r) src ∧ no (.coreAssign src core dest) src ∧
      no (.domainDestroy src dom) src ∧ no (.pageEvict src dom va h) src ∧ no (.pageReturn src dom page off ver data mac) src ∧
      (mc.toNat < 12 → no (.formatWindowChange src mc win desc) src)) ∧
    (owner →
      ((s.domains.any fun p => p.2.live && p.2.record.getLsbD 16) = false →
        yes (.deviceIdAssign src id) (s.updLodge fun l => { l with deviceId := id })) ∧
      ((s.domains.any fun p => p.2.live && p.2.record.getLsbD 16) = true → no (.deviceIdAssign src id) src) ∧
      (let d := BitVec.ofNat 11 (domainField r.record 0 2)
       let may := requestOk r = true ∧ (s.domainAt d).live = false
       (may → yes (.domainCreate src r) ((s.updLodge fun l => { l with drbg := l.drbg + 2 }).updDomain d fun _ => { Domain.init with
          live := true, gen := (s.domainAt d).gen + 1, record := r.record, secret := Config.drbg (s.lodge.drbg + 1) })) ∧
       (¬ may → no (.domainCreate src r) src)) ∧
      (let known := ∀ d, dest = some d → (s.domainAt d).live = true
       (¬ known → no (.coreAssign src core dest) src) ∧
       (known → (s.coreAt core.toNat).bound = true → run (.coreAssign src core dest) (s.later (.coreAssign src core dest))) ∧
       (known → (s.coreAt core.toNat).bound = false → yes (.coreAssign src core dest) (s.assignCore core.toNat dest false))) ∧
      (let t := (s.gangs.filter fun p => p.2.domain == dom).foldl (fun t p => t.haltGang p.1) s
       ((s.domainAt dom).live = true → yes (.domainDestroy src dom) (((t.domainCores dom).foldl (fun t n => t.assignCore n none true)
          (t.dropDomain dom)).updDomain dom fun x => { Domain.init with gen := x.gen })) ∧
       ((s.domainAt dom).live = false → no (.domainDestroy src dom) src ∧ no (.pageEvict src dom va h) src ∧
          no (.pageReturn src dom page off ver data mac) src)) ∧
      (s.ownerPage src dom va.toNat = none →
        no (.pageEvict src dom va h) src ∧ no (.pageReturn src dom page off ver data mac) src) ∧
      (mc.toNat < 12 → (s.windowMay mc.toNat win.toNat (winMask desc) = true →
          yes (.formatWindowChange src mc win desc) (s.setWindow mc.toNat win.toNat (winMask desc))) ∧
        (s.windowMay mc.toNat win.toNat (winMask desc) = false → no (.formatWindowChange src mc win desc) src))) ∧
    (∀ x a e, s.ownerPage src dom va.toNat = some (x, a, e) →
      let frame := bits e 51 16
      let pa := 65536 * frame
      let k := pageKey dom va.toNat
      let going := s.lodge.evicting.contains k = true
      let may := s.hbmOk pa 65536 = true ∧ (going ∨ (e.getLsbD 0 = true ∧ bits e 8 7 = 0 ∧ leafHere e = true))
      let back := e.getLsbD 0 = false ∧ bits e 8 7 ≠ 0 ∧ leafHere e = true ∧ s.hbmOk pa 65536 = true
      (¬ may → no (.pageEvict src dom va h) src) ∧
      (may → ∀ t, t = (if s.lodge.evicting.contains k then s
          else (x.putEntry dom a (pte e false 1 frame)).updLodge fun l => { l with evicting := k :: l.evicting }) →
        (t.pageBusy pa = true → run (.pageEvict src dom va h) (t.later (.pageEvict src dom va h))) ∧
        (t.pageBusy pa = false →
          let u := t.recallRange pa 65536
          let plain := (List.range 65536).map fun i => u.mem.byteAs (u.keyOf dom) (pa + i)
          let sent := Config.sealPage (u.keyOf dom) pa plain
          let v := Tab.get 0 u.lodge.pages k + 1
          yes (.pageEvict src dom va h) ((u.updLodge fun l => { l with
            pages := Tab.put l.pages k v, evicting := l.evicting.filter fun x => x != k,
            away := { page := k, plain := plain, data := sent } :: l.away.filter fun x => x.page != k }).toHost (h.setWidth 16) none
              (.page h dom va.toNat v sent (Config.pageMac (u.domainAt dom).secret dom (va.setWidth 64) v sent))))) ∧
      (¬ back → no (.pageReturn src dom page off ver data mac) src) ∧
      (back → ∀ t, t = x.putEntry dom a (pte e false 2 frame) →
        let good := mac = Config.pageMac (t.domainAt dom).secret dom (va.setWidth 64) ver data ∧ ver = Tab.get 0 t.lodge.pages k ∧
          data.length = 65536
        (good → let u := t.recallRange pa 65536
          yes (.pageReturn src dom page off ver data mac) ((((((u.pagePlain k (u.keyOf dom) pa data).zip
            (List.range 65536)).foldl (fun u' b => u'.writePlace (u.keyOf dom) (.hbm (pa + b.2)) 1 b.1.toNat false none) u).updLodge
              fun l => { l with away := l.away.filter fun x => x.page != k }).putEntry dom a (pte e true 0 frame)).resumeIntegrity dom k)) ∧
        (¬ good → run (.pageReturn src dom page off ver data mac) ((((t.putEntry dom a (pte e false 3 frame)).stopIntegrity dom k).toHost src none
          (.integrity src dom va.toNat)).answer src false []))))

/-- Boot and training (R6, R363, R372 to R384) complete. A power-up starts boot at its step 3, and a missed bound halts the step under way with
its code; a package reset leaves the reset state, but for what stands outside the package and the count and list of the draws of the
Lodge's generator, which the model keeps (notes/assumptions/42.md). A memory controller or a port that exists starts the step that its command names, where it is idle and the Lodge
runs, and takes over the outcome at the end of the step; PORT_DOWN takes a port down at once, and a port still busy at the end of step
8 is left down. A failure of any of a port's steps leaves it down (R383 names codes 4 and 5: log 41, the model's choice).
A write to `MCCMD` or `PCMD` is its command, one to another control register changes nothing,
and one to an address with none is refused (log 60, the model's choice). -/
def Obligations.BootEventsComplete : Prop :=
  ∀ (f : Flash) (mc : BitVec 4) (p : BitVec 5) (fail cxl : Bool) (lanes spares : BitVec 8) (a : BitVec 52) (v : W64) (s : State),
    let run := fun (i : Instr) (t : State) => exec i s = .next t
    let halts := fun (n : Nat) (code : BitVec 8) => s.lodge.boot = .step n → run .bootStepTimeout (s.halt code)
    (s.lodge.boot = .step 1 → run (.powerUp f) (s.boot3 f)) ∧ (s.lodge.boot ≠ .step 1 → run (.powerUp f) s) ∧
    run .packageReset { State.reset with
      inputs := s.inputs, fresh := s.fresh, ids := s.ids, out := s.out
      lodge := { Lodge.init with drbg := s.lodge.drbg, issued := s.lodge.issued } } ∧
    halts 3 0x11 ∧ halts 5 0x15 ∧ halts 6 0x14 ∧ halts 7 0x26 ∧
    (s.lodge.boot = .step 4 → run .bootStepTimeout (s.halt (if s.lodge.blob.isNone then 0x12 else 0x13))) ∧
    ((∀ n, s.lodge.boot = .step n → n < 3 ∨ 7 < n) → run .bootStepTimeout s) ∧
    (mc.toNat < 12 →
      run (.mcPhyResetRelease mc) (s.mcStart mc.toNat 1) ∧ run (.mcImpedanceCalibration mc) (s.mcStart mc.toNat 2) ∧
      run (.mcCommandAddressTraining mc) (s.mcStart mc.toNat 3) ∧ run (.mcReadTraining mc) (s.mcStart mc.toNat 4) ∧
      run (.mcWriteTraining mc) (s.mcStart mc.toNat 5) ∧ run (.mcLaneRepair mc) (s.mcStart mc.toNat 6) ∧
      run (.mcInitialise mc) (s.mcStart mc.toNat 7) ∧ run (.mcEnable mc) (s.mcStart mc.toNat 8) ∧
      (let m := s.mcAt mc.toNat
       let code := m.step.toNat
       let t := s.updMc mc.toNat fun m => { m with
         busy := false, fail := fail, repaired := if code = 6 then lanes else m.repaired, spares := if code = 6 then spares else m.spares,
         initialised := if code = 7 then !fail else m.initialised, enabled := if code = 8 then !fail else m.enabled }
       let t := if code = 7 ∧ fail = false then t.clearStack mc.toNat else t
       (m.busy = false → run (.mcStepDone mc fail lanes spares) s) ∧
       (m.busy = true → run (.mcStepDone mc fail lanes spares) (if t.lodge.boot = .step 7 then t.mcNext mc.toNat fail else t)))) ∧
    (s.controls = true → (s.mcAt mc.toNat).busy = false → ∀ code, 1 ≤ code → code ≤ 8 →
      ((s.mcStart mc.toNat code).mcAt mc.toNat).busy = true ∧ ((s.mcStart mc.toNat code).mcAt mc.toNat).step.toNat = code) ∧
    ((s.controls = false ∨ (s.mcAt mc.toNat).busy = true) → ∀ code, s.mcStart mc.toNat code = s) ∧
    (s.controls = true → (s.portAt p.toNat).busy = false → ∀ code, 1 ≤ code → code ≤ 6 →
      ((s.portStart p.toNat code cxl).portAt p.toNat).busy = true ∧ ((s.portStart p.toNat code cxl).portAt p.toNat).cmd.toNat = code ∧
        (code = 1 → (s.portAt p.toNat).modeSet = false → ((s.portStart p.toNat code cxl).portAt p.toNat).cxl = cxl) ∧
        (code ≠ 1 ∨ (s.portAt p.toNat).modeSet = true → ((s.portStart p.toNat code cxl).portAt p.toNat).cxl = (s.portAt p.toNat).cxl)) ∧
    ((s.controls = false ∨ (s.portAt p.toNat).busy = true) → ∀ code, s.portStart p.toNat code cxl = s) ∧
    (p.toNat < 18 →
      run (.portSerdesResetRelease p cxl) (s.portStart p.toNat 1 cxl) ∧ run (.portReceiverDetect p) (s.portStart p.toNat 2 false) ∧
      run (.portEqualise p) (s.portStart p.toNat 3 false) ∧ run (.portDeskewFlitLock p) (s.portStart p.toNat 4 false) ∧
      run (.portKeyExchange p) (s.portStart p.toNat 5 false) ∧ run (.portUp p) (s.portStart p.toNat 6 false) ∧
      (s.controls = true → run (.portDown p) ((s.portDrop p.toNat (s.portAt p.toNat).fail).checkPorts)) ∧
      (s.controls = false → run (.portDown p) s) ∧
      (let x := s.portAt p.toNat
       let code := x.cmd.toNat
       let t := (({ s with fresh := s.fresh + 2 } : State).updPort p.toNat fun x => { x with
         busy := false, fail := fail, lanes := if code = 3 then lanes else x.lanes, width := if code = 3 then widthOf lanes else x.width,
         peer := if code ≠ 5 then x.peer else if fail then none else some ((Config.freeWord s.fresh).setWidth 12),
         secret := if code ≠ 5 then x.secret else if fail then none else some (Config.portSecret (s.fresh + 1)),
         up := if code = 6 then !fail else x.up }).flush p.toNat
       let lost := fail = true ∨ (code = 3 ∧ widthOf lanes = 0)
       (x.busy = false → run (.portStepDone p fail lanes) s) ∧
       (x.busy = true → (t.training p.toNat = false → run (.portStepDone p fail lanes) t.checkPorts) ∧
         (t.training p.toNat = true → (lost → run (.portStepDone p fail lanes) ((t.portDrop p.toNat fail).checkPorts)) ∧
           (¬ lost → 1 ≤ code → code ≤ 5 → run (.portStepDone p fail lanes) (t.portStart p.toNat (code + 1) false)) ∧
           (¬ lost → (code = 0 ∨ 5 < code) → run (.portStepDone p fail lanes) t.checkPorts)))) ∧
      (let late := s.lodge.boot = .step 8 ∧ (s.portAt p.toNat).busy = true
       (late → run (.portTrainingTimeout p) ((s.portDrop p.toNat true).checkPorts)) ∧ (¬ late → run (.portTrainingTimeout p) s))) ∧
    (let off := a.toNat - Config.controlBase
     let r := if a.toNat < Config.controlBase then none
       else if off < 12 * 65536 then s.mcWrite (off / 65536) (off % 65536) v
       else if 0x1000000 ≤ off ∧ off < 0x1000000 + 18 * 65536 then s.portWrite ((off - 0x1000000) / 65536) (off % 65536) v
       else none
     let code := v.toNat % 16
     (∀ j, s.mcWrite j 0 v = some (if 1 ≤ code ∧ code ≤ 8 then s.mcStart j code
        else if code = 0 ∧ s.controls = true ∧ (s.mcAt j).busy = false then s.updMc j fun m => { m with cmd := 0 } else s) ∧ s.mcWrite j 8 v = some s ∧
       ∀ i, i < 64 → s.mcWrite j (0x400 + 8 * i) v = some s) ∧
     (∀ j, (1 ≤ code → code ≤ 6 → s.portWrite j 0 v = some (s.portStart j code (v.getLsbD 5))) ∧
       (code = 15 → s.controls = true → s.portWrite j 0 v = some ((s.portDrop j (s.portAt j).fail).checkPorts)) ∧ s.portWrite j 8 v = some s) ∧
     (∀ t, r = some t → run (.controlRegisterWrite a v) t) ∧ (r = none → exec (.controlRegisterWrite a v) s = .refused .controlSpace))
end

