-- ==== Sys2Proof/Machine/JasWord.lean ====
section
/-! DEFINITION. Instruction statements of `jas` (R68, R76 to R80): mnemonic, suffixes, operands and hints give the fields of
one word. The accepted forms are checked a second time by the decoder (readings: log 67, 68, 72). -/

namespace Sys2Proof.Jas

/-! ## Suffixes (R63, R65, R68 item 3) -/

/-- The four mod nibbles. -/
inductive Nib where | x | y | zhi | zlo
deriving DecidableEq, Repr

/-- What a nibble carries. Rounding, policy and mask have a value when they are left out (R77, R149). -/
inductive Fam where
  | codes (l : List (String × BitVec 4))
  | memFormat
  | rounding
  /-- rounding code 0x0 only (R154) -/
  | nearest
  | saturating
  | policy
  | mask
  | maskWritten
  | units
deriving DecidableEq, Repr

def fInt : List (String × BitVec 4) :=
  [("i8", 1), ("i16", 2), ("i32", 3), ("i64", 4), ("n8", 5), ("n16", 6), ("n32", 7), ("n64", 8)]
def fLane : List (String × BitVec 4) := [("i8", 1), ("i16", 2), ("i32", 3), ("n8", 5), ("n16", 6), ("n32", 7)]
def fFlt : List (String × BitVec 4) := [("f32", 9), ("f16", 10), ("bf16", 11)]
def fPx : List (String × BitVec 4) := [("px2", 12), ("px4", 13), ("px7", 14)]
def fWord : List (String × BitVec 4) := [("i32", 3), ("i64", 4), ("n32", 7), ("n64", 8)]
def fRed : List (String × BitVec 4) := [("f32", 9), ("i32", 3), ("n32", 7)]
def fMat : List (String × BitVec 4) := [("i8", 1), ("f16", 10), ("bf16", 11)] ++ fPx
/-- The relations of R124, those of CMP and those of FCMP. -/
def rSix : List (String × BitVec 4) := [("eq", 0), ("ne", 1), ("lt", 2), ("le", 3), ("gt", 4), ("ge", 5)]
def rInt : List (String × BitVec 4) := rSix ++ [("ltn", 6), ("len", 7), ("gtn", 8), ("gen", 9), ("tst", 10)]
def rFlt : List (String × BitVec 4) := rSix ++ [("un", 11), ("or", 12)]
def rAll : List (String × BitVec 4) := rInt ++ [("un", 11), ("or", 12)]
def oSign : List (String × BitVec 4) := [("cp", 0), ("neg", 1), ("xor", 2)]
/-- The operation codes of R215. -/
def oAtomic : List (String × BitVec 4) :=
  [("swap", 0), ("add", 1), ("and", 2), ("or", 3), ("xor", 4), ("min", 5), ("max", 6), ("fadd", 8), ("fmin", 9), ("fmax", 10)]
def rCodes : List (String × BitVec 4) := [("rn", 0), ("rz", 1), ("ru", 2), ("rd", 3), ("ra", 4), ("sr", 5), ("dyn", 6)]
def pCodes : List (String × BitVec 4) := [("home", 0), ("skip", 1), ("stream", 2)]
def mCodes : List (String × BitVec 4) :=
  [("m0", 0), ("m1", 1), ("m2", 2), ("m3", 3), ("m4", 4), ("m5", 5), ("m6", 6), ("m7", 7)]
/-- `.bN`, N a multiple of 4 from 4 to 64, gives N/4 - 1 (R258). -/
def uCodes : List (String × BitVec 4) :=
  [("b4", 0), ("b8", 1), ("b12", 2), ("b16", 3), ("b20", 4), ("b24", 5), ("b28", 6), ("b32", 7), ("b36", 8), ("b40", 9), ("b44", 10),
   ("b48", 11), ("b52", 12), ("b56", 13), ("b60", 14), ("b64", 15)]
def scopes : List (String × Nat) := [("core", 0), ("arbor", 1), ("parterre", 2), ("die", 3), ("dev", 4), ("sys", 5)]

/-- The code a family takes from the front of the suffixes, and the suffixes that are left. -/
def Fam.take (f : Fam) (l : List String) : JRes (BitVec 4 × List String) :=
  let from_ := fun (t : List (String × BitVec 4)) => l.head?.bind fun s => t.lookup s
  let opt := fun (t : List (String × BitVec 4)) => match from_ t with
    | some c => .ok (c, l.tail)
    | none => .ok (0, l)
  let req := fun (t : List (String × BitVec 4)) => match from_ t with
    | some c => .ok (c, l.tail)
    | none => .error .j02
  match f with
  | .codes t => req t
  | .memFormat => opt fInt
  | .rounding => opt rCodes
  | .nearest => opt [("rn", 0)]
  | .saturating =>
    match from_ rCodes with
    | some c => if l.tail.head? = some "sat" then .ok (c ||| 8, l.tail.tail) else .ok (c, l.tail)
    | none => .ok (0, l)
  | .policy => opt pCodes
  | .mask => opt mCodes
  | .maskWritten => req mCodes
  | .units => opt uCodes

/-- The codes of a form's nibbles, in the order of R68; none may be left over. -/
def takeAll : List (Nib × Fam) → List String → JRes (List (Nib × BitVec 4))
  | [], [] => .ok []
  | [], _ :: _ => .error .j02
  | (n, f) :: r, l => do
    let p ← f.take l
    return (n, p.1) :: (← takeAll r p.2)

/-! ## Operands (R59, R68, R78) -/

inductive Opd where
  | g (n : Nat) | w (n : Nat) | rel (idx : Nat) (off : Int) | m (n : Nat) | s (n : Nat) | role (n : Nat) | slot (n : Nat)
  | tile (n : Nat) | q (n : Nat)
  | val (v : Val)
  | part (hi : Bool) (v : Val)
deriving DecidableEq, Repr

/-- The text within `t` after the opening text and before the final `close`, if `t` has that form. -/
def inside (opening : String) (close : Char) (t : Txt) : Option Txt :=
  let k := opening.length
  if low (t.take k) == opening && decide (k < t.length) && t.getLast? == some close then some ((t.drop k).dropLast) else none

/-- An operand of a statement. -/
def Env.operand (e : Env) (t : Txt) : JRes Opd := do
  match regName "g" 63 t, regName "w" 63 t, regName "m" 7 t, regName "q" 7 t with
  | some n, _, _, _ => return .g n
  | _, some n, _, _ => return .w n
  | _, _, some n, _ => return .m n
  | _, _, _, some n => return .q n
  | none, none, none, none =>
    match regName "k" 31 t, regName "a" 3 t, regName "ro" 4095 t, sName t with
    | some n, _, _, _ => return .slot n
    | _, some n, _, _ => return .tile n
    | _, _, some n, _ => return .role n
    | _, _, _, some n => return .s n
    | none, none, none, none =>
      match inside "w[" ']' t, inside "ro(" ')' t, inside "lo(" ')' t, inside "hi(" ')' t with
      | some u, _, _, _ =>
        let r := u.takeWhile fun c => c != '+' && c != '-'
        let n ← need .j03 (regName "g" 15 (trim r))
        let x := u.drop r.length
        must .j03 (!x.isEmpty)
        return .rel n (← e.number .j04 (-32) 31 (if x.head? = some '+' then x.drop 1 else x))
      | _, some u, _, _ => return .role (← e.number .j04 0 4095 u).toNat
      | _, _, some u, _ => return .part false (← e.value u)
      | _, _, _, some u => return .part true (← e.value u)
      | none, none, none, none => return .val (← e.value t)

/-- An operand kind a field accepts. A number is a small immediate, in the range the form gives it. -/
inductive Kind where
  | g | w | m | s | role | slot | tile | pred
  | num (lo hi : Int)
deriving DecidableEq, Repr

/-- A place of the template. -/
inductive Pos where
  /-- an operand field -/
  | at (n : Nib) (ks : List Kind)
  /-- Z: a number sets I = 1 and lies in the range of the immediate; a register of the kinds goes into Z.hi -/
  | z (lo hi : Int) (ks : List Kind)
  /-- as `z`, relative to the word's own address (R78) -/
  | target (ks : List Kind)
  /-- Z of MOVI and MOVH: a number, or `lo( )`, `hi( )` (R135) -/
  | half (hi : Bool)
deriving DecidableEq, Repr

/-- A minor of R66: its name, class, minor, scope, suffixes and template. -/
structure Form where
  name : String
  cls : Nat
  minor : Nat
  hasScope : Bool
  sfx : List (Nib × Fam)
  ops : List Pos
deriving DecidableEq, Repr

def small : Kind := .num (-2048) 2047
def signed32 (ks : List Kind) : Pos := .z (-2147483648) 2147483647 ks
def unsigned32 (ks : List Kind) : Pos := .z 0 4294967295 ks
def gAt (n : Nib) : Pos := .at n [.g]
def giAt (n : Nib) : Pos := .at n [.g, small]
def wAt (n : Nib) : Pos := .at n [.w]
def qAt (n : Nib) : Pos := .at n [.pred]
def mAt (n : Nib) : Pos := .at n [.m]
def numAt (n : Nib) (hi : Int) : Pos := .at n [.num 0 hi]

/-- Names of minors 0, 1, 2 … of a class that share suffixes and template. -/
def group (cls first : Nat) (sfx : List (Nib × Fam)) (ops : List Pos) : List String → List Form
  | [] => []
  | n :: r => { name := n, cls, minor := first, hasScope := false, sfx, ops } :: group cls (first + 1) sfx ops r
def one (name : String) (cls minor : Nat) (sfx : List (Nib × Fam)) (ops : List Pos) : Form :=
  { name, cls, minor, hasScope := false, sfx, ops }
def withScope (f : Form) : Form := { f with hasScope := true }

/-- SYS, BR, IALU, IMUL, IBIT, IMM and CMP (R126 to R136, R359, R404). -/
def forms1 : List Form :=
  let ctx : Kind := .num 1 11
  let reg : List Kind := [.g, .m, .pred, .s]
  [one "nop" 0 0 [] [], one "trap" 0 1 [] [numAt .x 63, giAt .y], one "eret" 0 2 [] [qAt .x, .at .y [ctx], numAt .zhi 2],
   one "rds" 0 3 [] [gAt .x, .at .y [.s]], one "rds" 0 3 [] [gAt .x, .at .y reg, .at .zhi [ctx]],
   one "wrs" 0 4 [] [.at .x [.s], giAt .y], one "wrs" 0 4 [] [.at .x reg, giAt .y, .at .zhi [ctx]],
   one "retarm" 0 5 [] [gAt .x, .at .y [ctx]], one "scall" 0 6 [] [gAt .x, gAt .y, gAt .zhi, giAt .zlo]] ++
  [one "bra" 1 0 [] [.target []], one "brx" 1 1 [] [gAt .x], one "call" 1 2 [] [gAt .x, .target [.g]], one "ret" 1 3 [] [gAt .x],
   one "loop" 1 4 [] [gAt .x, .target []]] ++
  group 2 0 [] [gAt .x, gAt .y, signed32 [.g]]
    ["add", "sub", "and", "or", "xor", "andn", "shl", "shr", "sar", "rot", "min", "max", "minn", "maxn"] ++
  group 3 0 [] [gAt .x, gAt .y, signed32 [.g]] ["mul", "mulh", "mulhn", "div", "divn", "rem", "remn"] ++
  group 4 0 [] [gAt .x, gAt .y] ["clz", "ctz", "popc"] ++
  group 4 3 [] [gAt .x, gAt .y, giAt .zhi, giAt .zlo] ["bfx", "bfxs", "bfi"] ++
  [one "brev" 4 6 [] [gAt .x, gAt .y], one "ext" 4 7 [(.x, .codes fInt)] [gAt .x, gAt .y],
   one "movi" 5 0 [] [gAt .x, .half false], one "movh" 5 1 [] [gAt .x, .half true],
   one "cmp" 6 0 [(.y, .codes rInt)] [qAt .x, gAt .y, signed32 [.g]], one "sel" 6 1 [] [gAt .x, qAt .y, gAt .zhi, gAt .zlo]] ++
  group 6 2 [] [qAt .x, qAt .y, qAt .zhi] ["pand", "por"] ++ [one "pnot" 6 4 [] [qAt .x, qAt .y]]

/-- FPU, LMEM and CAP (R138 to R142, R354). -/
def forms2 : List Form :=
  let ff : List (Nib × Fam) := [(.x, .codes fFlt), (.y, .rounding)]
  let f : List (Nib × Fam) := [(.x, .codes fFlt)]
  group 7 0 ff [gAt .x, gAt .y, gAt .zhi] ["fadd", "fsub", "fmul"] ++
  [one "ffma" 7 3 ff [gAt .x, gAt .y, gAt .zhi, gAt .zlo], one "fdiv" 7 4 ff [gAt .x, gAt .y, gAt .zhi],
   one "fsqrt" 7 5 ff [gAt .x, gAt .y]] ++
  group 7 6 f [gAt .x, gAt .y, gAt .zhi] ["fmin", "fmax"] ++
  [one "fcmp" 7 8 [(.y, .codes fFlt), (.zhi, .codes rFlt)] [qAt .x, gAt .y, gAt .zhi], one "fclass" 7 9 f [gAt .x, gAt .y],
   one "fcvt" 7 10 [(.x, .codes (fInt ++ fFlt)), (.y, .saturating), (.zhi, .codes (fInt ++ fFlt))] [gAt .x, gAt .y],
   one "fsgn" 7 11 [(.x, .codes fFlt), (.zhi, .codes oSign)] [gAt .x, gAt .y, gAt .zhi]] ++
  group 8 0 [(.x, .codes fInt)] [gAt .x, gAt .y, signed32 [.g]] ["ldl", "stl"] ++
  group 9 0 [] [gAt .x, gAt .y, signed32 [.g]] ["cbound", "cperm"] ++
  [one "cget" 9 2 [] [gAt .x, gAt .y, numAt .zhi 7], one "cderive" 9 3 [] [gAt .x, gAt .y, signed32 [.g]],
   one "ctest" 9 4 [] [qAt .x, gAt .y, numAt .zhi 7], one "cnull" 9 5 [] [gAt .x], one "cmove" 9 6 [] [gAt .x, gAt .y]]

/-- VARITH to VREG (R153 to R163). VLDL and VSTL take their register form when a mask suffix is written (R163). -/
def forms3 : List Form :=
  let f : List (Nib × Fam) := [(.x, .codes fFlt), (.y, .nearest), (.zlo, .mask)]
  let ff : List (Nib × Fam) := [(.x, .codes fFlt), (.y, .rounding), (.zlo, .mask)]
  let m : List (Nib × Fam) := [(.zlo, .mask)]
  let b : Pos := .at .zhi [.w, .g]
  group 0x10 0 ff [wAt .x, wAt .y, b] ["vadd", "vsub", "vmul"] ++
  [one "vfma" 0x10 3 ff [wAt .x, .at .y [.w, .g], b, wAt .zlo]] ++
  group 0x10 4 f [wAt .x, wAt .y, b] ["vmin", "vmax"] ++ group 0x10 6 f [wAt .x, wAt .y] ["vabs", "vneg"] ++
  group 0x10 8 ff [wAt .x, wAt .y] ["vrcp", "vrsq", "vexp2", "vlog2"] ++ [one "vdiv" 0x10 12 ff [wAt .x, wAt .y, b]] ++
  group 0x11 0 [(.x, .codes fLane), (.y, .nearest), (.zlo, .mask)] [wAt .x, wAt .y, .at .zhi [.w, .g, small]]
    ["viadd", "visub", "vimul", "vand", "vor", "vxor", "vshl", "vshr", "vsar"] ++
  [one "vcmp" 0x12 0 [(.x, .codes fRed), (.y, .codes rAll), (.zlo, .mask)] [mAt .x, wAt .y, .at .zhi [.w, .g, small]],
   one "vsel" 0x12 1 m [wAt .x, wAt .y, wAt .zhi]] ++
  group 0x12 2 [] [mAt .x, mAt .y, mAt .zhi] ["mand", "mor"] ++
  [one "mnot" 0x12 4 [] [mAt .x, mAt .y], one "vperm" 0x13 0 m [wAt .x, wAt .y, wAt .zhi],
   one "vshuf" 0x13 1 m [wAt .x, wAt .y, wAt .zhi, wAt .zlo],
   one "vbcast" 0x13 2 [(.x, .codes (fLane ++ fFlt)), (.zlo, .mask)] [wAt .x, giAt .y],
   one "vextr" 0x13 3 [] [gAt .x, wAt .y, numAt .zhi 31], one "vins" 0x13 4 [] [wAt .x, giAt .y, numAt .zhi 31],
   one "vrsum" 0x14 0 [(.x, .codes fRed), (.y, .rounding), (.zlo, .mask)] [wAt .x, wAt .y]] ++
  group 0x14 1 [(.x, .codes fRed), (.y, .nearest), (.zlo, .mask)] [wAt .x, wAt .y] ["vrmax", "vrmin"] ++
  [one "vcvt" 0x15 0 [(.x, .codes (fLane ++ fFlt)), (.y, .saturating), (.zhi, .codes (fLane ++ fFlt)), (.zlo, .mask)] [wAt .x, wAt .y],
   one "vpxenc" 0x15 1 [(.x, .codes fPx), (.y, .rounding), (.zhi, .codes fFlt)] [wAt .x, wAt .y],
   one "vpxdec" 0x15 2 [(.x, .codes fFlt), (.y, .rounding), (.zhi, .codes fPx)] [wAt .x, wAt .y]] ++
  group 0x16 0 [] [wAt .x, gAt .y, signed32 []] ["vldl", "vstl"] ++
  group 0x16 0 [(.zlo, .maskWritten)] [wAt .x, gAt .y, .at .zhi [small]] ["vldl", "vstl"] ++
  group 0x16 2 m [wAt .x, gAt .y, wAt .zhi] ["vldx", "vstx"] ++
  group 0x17 0 [] [qAt .x] ["allot", "shrink"] ++ [one "vmov" 0x17 2 m [wAt .x, wAt .y]]

/-- MAT, MEM, FENCE, AMO, SYNC and ENG (R167 to R171, R209, R213, R214, R220, R227, R232). -/
def forms4 : List Form :=
  let mem : List (Nib × Fam) := [(.x, .memFormat), (.y, .policy)]
  let none0 : Kind := .slot
  [one "mclaim" 0x18 0 [] [qAt .x, .at .y [none0]], one "mrel" 0x18 1 [] [.at .x [.slot]],
   one "mload" 0x18 2 [] [.at .x [.slot], gAt .y, unsigned32 [.g]], one "mcfg" 0x18 3 [] [.at .x [.tile], .z 0 7 []],
   one "mzero" 0x18 4 [] [.at .x [.tile]],
   one "mgang" 0x18 5 [(.x, .codes fMat)] [.at .x [.tile], .at .y [.slot], .at .zhi [.slot], numAt .zlo 15],
   one "mwait" 0x18 6 [] [.at .x [.tile]], one "mrdacc" 0x18 7 [] [wAt .x, .at .y [.tile], numAt .zhi 31],
   one "mwracc" 0x18 8 [] [.at .x [.tile], wAt .y, numAt .zhi 31], one "mstacc" 0x18 9 [] [.at .x [.tile], gAt .y, signed32 [.g]]] ++
  group 0x20 0 mem [gAt .x, gAt .y, signed32 [.g]] ["ld", "st"] ++
  [one "pref" 0x20 2 [(.y, .policy)] [gAt .y, signed32 [.g]], withScope (one "ldacq" 0x20 8 mem [gAt .x, gAt .y, signed32 [.g]]),
   withScope (one "strel" 0x20 0x10 mem [gAt .x, gAt .y, signed32 [.g]]),
   withScope (one "fence" 0x21 0 [] []), withScope (one "fence.red" 0x21 8 [] []), one "fence.eng" 0x21 0x10 [] [],
   withScope (one "amo" 0x22 0 [(.x, .codes (fWord ++ fFlt)), (.zhi, .codes oAtomic)] [gAt .x, gAt .y, gAt .zhi, giAt .zlo]),
   withScope (one "cas" 0x22 8 [(.x, .codes fWord)] [gAt .x, gAt .y, gAt .zhi, giAt .zlo]),
   withScope (one "red" 0x22 0x10 [(.x, .codes (fWord ++ fFlt)), (.zhi, .codes oAtomic)] [gAt .y, gAt .zhi, giAt .zlo]),
   one "swait" 0x23 0 [(.x, .codes fWord), (.zhi, .codes rInt)] [gAt .x, gAt .y, gAt .zhi, giAt .zlo]] ++
  group 0x23 1 [] [gAt .x, gAt .y, signed32 [.g]] ["fwait", "fset"] ++ [one "fclr" 0x23 3 [] [gAt .y, signed32 [.g]]] ++
  [one "job" 0x24 0 [] [gAt .x, gAt .y, gAt .zhi, gAt .zlo], one "jwait" 0x24 1 [] [.at .x [.s], giAt .y],
   one "cwwait" 0x24 2 [] [.at .x [.s], giAt .y], one "jstat" 0x24 3 [] [gAt .x, .at .y [.s]]]

/-- CHAN, CTX, GANG, GRAPH, STAGE and DBG (R256, R284 to R289, R293, R295, R297, R298, R314, R335, R424). -/
def forms5 : List Form :=
  let carried : List Kind := [.g, .num 0 0]
  [one "chan" 0x28 0 [] [gAt .x, gAt .y, unsigned32 []],
   one "send" 0x28 1 [(.zhi, .units)] [qAt .x, gAt .y, .at .zhi [.g, small, .w], .at .zlo carried]] ++
  group 0x28 2 [] [.at .x [.g, .w], gAt .y, .at .zhi carried, qAt .zlo] ["recv", "tryrecv"] ++
  [one "select" 0x28 4 [] [gAt .x, gAt .y, unsigned32 []]] ++ group 0x28 5 [] [gAt .x, gAt .y] ["close", "endinfo"] ++
  [one "start" 0x30 0 [] [qAt .x, gAt .y, .target [.g]], one "hjoin" 0x30 1 [] [qAt .x, .at .y [.g, .num 1 10]],
   one "hexit" 0x30 2 [] [], one "yield" 0x30 3 [] [], one "waitev" 0x30 4 [] [gAt .x, giAt .y]] ++
  group 0x31 0 [] [] ["bar", "xend"] ++
  [one "xcast" 0x31 2 [] [.at .x [.role], gAt .y, gAt .zhi], one "widf" 0x31 3 [] [gAt .x, numAt .y 7],
   one "roleq" 0x31 4 [] [gAt .x, .at .y [.role, .g]]] ++
  [one "gpost" 0x32 0 [] [gAt .x, gAt .y, giAt .zhi, giAt .zlo], one "trig.start" 0x32 1 [] [], one "trig.done" 0x32 2 [] [giAt .x],
   one "waitp" 0x32 3 [] [qAt .x], one "glaunch" 0x32 4 [] [gAt .x, gAt .y, gAt .zhi, giAt .zlo],
   one "gcancel" 0x32 5 [] [qAt .x, gAt .y, giAt .zhi], one "gstat" 0x32 6 [] [gAt .x, gAt .y, numAt .zhi 15, giAt .zlo]] ++
  [one "sret" 0x33 0 [] [giAt .x], one "keyr" 0x33 1 [] [gAt .x, numAt .y 1], one "shint" 0x33 2 [] [qAt .x, numAt .y 3],
   one "bkpt" 0x38 0 [] [numAt .x 255], one "mark" 0x38 1 [] [giAt .x], one "rdcnt" 0x38 2 [] [gAt .x, numAt .y 8],
   one "monq" 0x38 3 [] [gAt .x, .at .y [.g, .num 0 15]]]

def forms : List Form := forms1 ++ forms2 ++ forms3 ++ forms4 ++ forms5

/-- The classes of R66 by name, for the form CLASS.MINOR (R68). -/
def classes : List (String × Nat) :=
  [("sys", 0x00), ("br", 0x01), ("ialu", 0x02), ("imul", 0x03), ("ibit", 0x04), ("imm", 0x05), ("cmp", 0x06), ("fpu", 0x07), ("lmem", 0x08),
   ("cap", 0x09), ("varith", 0x10), ("vint", 0x11), ("vmask", 0x12), ("vperm", 0x13), ("vred", 0x14), ("vcvt", 0x15), ("vlmem", 0x16),
   ("vreg", 0x17), ("mat", 0x18), ("mem", 0x20), ("fence", 0x21), ("amo", 0x22), ("sync", 0x23), ("eng", 0x24), ("chan", 0x28),
   ("ctx", 0x30), ("gang", 0x31), ("graph", 0x32), ("stage", 0x33), ("dbg", 0x38)]

/-- A mnemonic of R66. -/
def isMnemonic (t : Txt) : Bool := forms.any fun f => f.name == low t
/-- A name that no symbol may have (R74). -/
def reserved (t : Txt) : Bool := registerName t || isMnemonic t

/-! ## The statement (R68, R76, R77) -/

/-- The parts of a head between its dots, in lower case. -/
def dots : Txt → Txt → List String
  | cur, [] => [low cur.reverse]
  | cur, '.' :: r => low cur.reverse :: dots [] r
  | cur, c :: r => dots (c :: cur) r

/-- The forms with a minor name that the front of the parts spells, of one class if given, and the parts after it. -/
def formsAt (cls : Option Nat) (l : List String) : Option (List Form × List String) :=
  let of := fun (n : String) => forms.filter fun f => f.name == n && (cls.isNone || cls == some f.cls)
  match l with
  | a :: b :: r =>
    match of (a ++ "." ++ b) with
    | [] =>
      match of a with
      | [] => none
      | fs => some (fs, b :: r)
    | fs => some (fs, r)
  | [a] =>
    match of a with
    | [] => none
    | fs => some (fs, [])
  | [] => none
/-- The forms of a head, with its suffixes. `CLASS.MINOR` is accepted. -/
def formsOf (head : Txt) : JRes (List Form × List String) :=
  let l := dots [] head
  match l with
  | c :: r =>
    match (classes.lookup c).bind fun k => formsAt (some k) r with
    | some p => .ok p
    | none => need .j01 (formsAt none l)
  | [] => .error .j01

/-- The form that a statement takes: VLDL and VSTL by their mask suffix, RDS and WRS by their operand count. -/
def pickForm (fs : List Form) (sfx : List String) (n : Nat) : JRes Form :=
  let mask := sfx.any fun s => (mCodes.lookup s).isSome
  match fs.filter fun f => (f.sfx.any fun p => p.2 == .maskWritten) == mask with
  | [] =>
    match fs with
    | [f] => .ok f
    | _ => need .j03 (fs.find? fun f => f.ops.length == n)
  | l => need .j03 (match l with
    | [f] => some f
    | l => l.find? fun f => f.ops.length == n)

/-- A guard `qn` or `!qn`, as its four bits. -/
def guardOf : Option Txt → JRes (BitVec 4)
  | none => .ok 0
  | some ('!' :: r) => do return 8 + BitVec.ofNat 4 (← need .j03 (regName "q" 7 r))
  | some r => do return BitVec.ofNat 4 (← need .j03 (regName "q" 7 r))

/-- The bits of one hint (R50, R79): where its value stands, and which values it takes. -/
def Env.hint (e : Env) (xcast : Bool) (t : Txt) : JRes (String × BitVec 14) := do
  let n := t.takeWhile isName
  let v := (t.drop n.length).dropWhile isBlank
  let val := fun (c : JCode) (lo hi : Int) (sh : Nat) => do
    match v with
    | '=' :: x => return (low n, BitVec.ofNat 14 ((← e.number c lo hi x).toNat * 2 ^ sh))
    | _ => .error .j03
  let flag := fun (b : BitVec 14) => if v.isEmpty && !xcast then .ok (low n, b) else .error .j03
  match low n with
  | "d" => val .j04 0 15 10
  | "ph" => val .j04 1 2 8
  | "plan" => if xcast then val .j03 0 255 0 else .error .j03
  | "w" => if xcast then .error .j03 else val .j04 0 15 4
  | "s" => if xcast then .error .j03 else val .j04 0 3 2
  | "sw" => flag 2
  | "lu" => flag 1
  | _ => .error .j03
/-- All hints of a statement; each at most once. -/
def Env.hints (e : Env) (xcast : Bool) : List Txt → JRes (List (String × BitVec 14))
  | [] => .ok []
  | t :: r => do
    let h ← e.hint xcast t
    let l ← e.hints xcast r
    must .j03 ((l.lookup h.1).isNone)
    return h :: l

/-- What a relocation is against: nothing (the value 0), a name, the entry of the symbol table at a place, or the symbol of a
section (R91). -/
inductive Target where
  | zero
  | name (n : Txt)
  | place (p : Place)
  | section_ (k : SecKey)
deriving DecidableEq, Repr

/-- A relocation to be written: kind (R89), target, addend, and the line it comes from. -/
structure Want where
  kind : Nat
  sym : Target
  add : W64
  line : Nat := 0
deriving DecidableEq, Repr

/-- The field of an operand, with its mod nibble; none where the kind is not accepted. A number that the instruction itself
refuses, though it fits the field (TRAP 64, WIDF 8), is J04, for which R78 names no code; so is one of MCFG's Z (`Env.place`)
(DESIGN CHOICE, log 68). -/
def fieldOf (ks : List Kind) (mod : BitVec 4) (o : Opd) : JRes (BitVec 16) :=
  let has := fun (k : Kind) (v : BitVec 16) => if ks.contains k then Except.ok v else .error .j03
  match o with
  | .g n => has .g (encG (BitVec.ofNat 6 n) mod)
  | .w n => has .w (encW (.w (BitVec.ofNat 6 n)) mod)
  | .rel i x => has .w (encW (.rel (BitVec.ofNat 4 i) (BitVec.ofInt 6 x)) mod)
  | .m n => has .m (encM (BitVec.ofNat 3 n) mod)
  | .s n => has .s (encS (BitVec.ofNat 9 n) mod)
  | .role n => has .role (encRole (BitVec.ofNat 12 n))
  | .slot n => has .slot (encSlot (BitVec.ofNat 5 n) mod)
  | .tile n => has .tile (encTile (BitVec.ofNat 2 n) mod)
  | .q n => has .pred (encSmall (BitVec.ofNat 12 n))
  | .val (.abs v) =>
    match ks.findSome? fun k => match k with
      | .num lo hi => some (lo, hi)
      | _ => none with
    | none => .error .j03
    | some r => do
      let x ← inRange .j04 r.1 r.2 v
      must .j02 (mod == 0)
      return encSmall (BitVec.ofInt 12 x)
  | .val (.rel _ _) => if ks.any fun k => match k with
      | .num _ _ => true
      | _ => false then .error .j04 else .error .j03
  | .part _ _ => .error .j03

/-- The word of a statement so far: fields, and the relocation of its Z. -/
structure Build where
  x : BitVec 16
  y : BitVec 16
  zhi : BitVec 16
  zlo : BitVec 16
  imm : Bool
  want : Option Want
deriving DecidableEq, Repr

def Build.put (b : Build) (n : Nib) (v : BitVec 16) : Build :=
  match n with
  | .x => { b with x := v }
  | .y => { b with y := v }
  | .zhi => { b with zhi := v }
  | .zlo => { b with zlo := v }
def Build.putZ (b : Build) (v : W64) (w : Option Want) : Build :=
  { b with imm := true, zhi := v.extractLsb' 16 16, zlo := v.extractLsb' 0 16, want := w }

/-- The symbol of a relocatable value; the location counter has none. -/
def symOf : Base → JRes Txt
  | .sym n => .ok n
  | .here => .error .j04
/-- The relocation of a given kind against a value. -/
def wantOf (kind : Nat) (b : Base) (a : W64) : JRes Want := do return { kind, sym := .name (← symOf b), add := a }

/-- One operand in its place. -/
def Env.place (e : Env) (mods : List (Nib × BitVec 4)) (b : Build) (p : Pos) (o : Opd) : JRes Build := do
  match p, o with
  | .at n ks, o => return b.put n (← fieldOf ks ((mods.lookup n).getD 0) o)
  | .z lo hi _, .val (.abs v) => return b.putZ (BitVec.ofInt 64 (← inRange .j04 lo hi v)) none
  | .z _ _ _, .val (.rel s a) => return b.putZ 0 (some (← wantOf 3 s a))
  | .z _ _ ks, o => return b.put .zhi (← fieldOf ks 0 o)
  | .target _, .val (.abs v) => return b.putZ 0 (some { kind := 4, sym := .zero, add := v })
  | .target _, .val (.rel s a) =>
    match e.here, e.placeOf s with
    | some h, some q =>
      if h.sec = q.sec then
        let d := BitVec.ofNat 64 q.off + a - BitVec.ofNat 64 h.off
        return b.putZ (BitVec.ofInt 64 (← inRange .j04 (-2147483648) 2147483647 d)) none
      else return b.putZ 0 (some (← wantOf 4 s a))
    | _, _ => return b.putZ 0 (some (← wantOf 4 s a))
  | .target ks, o => return b.put .zhi (← fieldOf ks 0 o)
  | .half _, .val (.abs v) => return b.putZ (BitVec.ofInt 64 (← inRange .j04 (-2147483648) 2147483647 v)) none
  | .half _, .val (.rel s a) => return b.putZ 0 (some (← wantOf 3 s a))
  | .half h, .part k v =>
    must .j03 (h == k)
    match v with
    | .abs v => return b.putZ (if k then v >>> 32 else v) none
    | .rel s a => return b.putZ 0 (some (← wantOf (if k then 6 else 5) s a))
  | .half _, _ => .error .j03

def Env.placeAll (e : Env) (mods : List (Nib × BitVec 4)) (b : Build) : List Pos → List Txt → JRes Build
  | [], [] => .ok b
  | p :: ps, t :: ts => do
    let b ← e.place mods b p (← e.operand t)
    e.placeAll mods b ps ts
  | _, _ => .error .j03

/-- The fields with each small immediate that stands where a register may stand replaced by g0. -/
def plain (f : Form) (fl : Fields) : Fields :=
  let soft := fun (n : Nib) (v : BitVec 16) =>
    if v.extractLsb' 12 4 = 0xF ∧ (f.ops.any fun p => match p with
      | .at k ks => k == n && ks.contains .g
      | _ => false) then 0 else v
  { fl with x := soft .x fl.x, y := soft .y fl.y, zhi := if fl.imm then fl.zhi else soft .zhi fl.zhi,
            zlo := if fl.imm then fl.zlo else soft .zlo fl.zlo }
def accepted (f : Fields) : Bool :=
  match decodeFields f with
  | .ok _ => true
  | .illegal _ => false

/-- The form, the fields and the relocation of an instruction statement (R68, R76 to R79). -/
def Env.compose (e : Env) (guard : Option Txt) (head : Txt) (ops hs : List Txt) : JRes (Form × Fields × Option Want) := do
  let (fs, sfx) ← formsOf head
  let f ← pickForm fs sfx ops.length
  let (scope, sfx) ← if f.hasScope then
      match sfx with
      | s :: r => pure (← need .j02 (scopes.lookup s), r)
      | [] => .error .j02
    else pure (0, sfx)
  let mods ← takeAll f.sfx sfx
  let g ← guardOf guard
  let md := fun (n : Nib) => BitVec.setWidth 16 ((mods.lookup n).getD 0)
  let b ← e.placeAll mods { x := md .x, y := md .y, zhi := md .zhi, zlo := md .zlo, imm := false, want := none } f.ops ops
  let h ← e.hints (f.name == "xcast") hs
  -- `.bN` is written for a w payload, and for it only (R258)
  must .j02 (f.name != "send" || (!sfx.isEmpty == ((opW b.zhi).isSome : Bool)))
  let fl : Fields :=
    { cls := BitVec.ofNat 6 f.cls, imm := b.imm, minor := BitVec.ofNat 7 (f.minor + scope), guard := g,
      hint := h.foldl (fun a p => a ||| p.2) 0, x := b.x, y := b.y, zhi := b.zhi, zlo := b.zlo }
  return (f, fl, b.want)

/-- The fields and the relocation of an instruction statement whose word the decoder accepts. -/
def Env.assemble (e : Env) (guard : Option Txt) (head : Txt) (ops hs : List Txt) : JRes (Fields × Option Want) :=
  match e.compose guard head ops hs with
  | .error c => .error c
  | .ok r => if accepted r.2.1 then .ok r.2 else .error (if accepted (plain r.1 r.2.1) then .j03 else .j02)

/-! ## Ixtin statements (R80) -/

/-- The operand byte whose widening is a field, if one is: kind and number. -/
def ixByte (o : BitVec 16) : BitVec 8 :=
  if o.extractLsb' 10 6 = 0 then 0b00#2 ++ o.extractLsb' 4 6
  else if o.extractLsb' 10 6 = 0b010000 then 0b01#2 ++ o.extractLsb' 4 6
  else if o.extractLsb' 13 3 = 1 then 0b10#2 ++ o.extractLsb' 4 6
  else 0b11#2 ++ o.extractLsb' 0 6

/-- The Ixtin word with a variant and an operation that could stand for the fields. -/
def ixCandidate (f : Fields) (v op : Nat) : BitVec 64 :=
  let z : BitVec 32 := if f.imm then f.zhi ++ f.zlo
    else ixByte f.zhi ++ ixByte f.zlo ++ f.hint.extractLsb' 4 4 ++ f.hint.extractLsb' 2 2 ++ 0#10
  f.cls ++ BitVec.ofBool f.imm ++ BitVec.ofNat 2 v ++ BitVec.ofNat 4 op ++ f.guard.extractLsb' 0 3 ++ ixByte f.x ++ ixByte f.y ++ z

/-- The Ixtin word whose translation is the word of `f`, the delay apart, which the translation sets itself. -/
def ixtinWord (f : Fields) : Option (BitVec 64) :=
  let ok := fun (w : BitVec 64) => match translateIxtin w with
    | some t => decide (fieldsOf t = { f with hint := (fieldsOf t).hint.extractLsb' 10 4 ++ f.hint.extractLsb' 0 10 })
    | none => false
  ((List.range 64).map fun i => ixCandidate f (i / 16) (i % 16)).find? ok

/-- An instruction statement in an `ixtin` section. -/
def Env.assembleIxtin (e : Env) (guard : Option Txt) (head : Txt) (ops hs : List Txt) : JRes (BitVec 64 × Option Want) := do
  must .j03 (hs.all fun h => ["w", "s"].contains (low (h.takeWhile isName)))
  let p ← e.assemble guard head ops hs
  return (← need .j03 (ixtinWord p.1), p.2)

end Sys2Proof.Jas
end

