-- ==== Sys2Proof/Machine/Jas.lean ====
section
/-! DEFINITION. The assembler `jas` (R73 to R96, R300, R305, R319, R320): directives, sections, launch headers, capability
entries, stage descriptors, node records and job blocks, put together to a relocatable object (readings and choices: log 68 to 71). -/

namespace Sys2Proof.Jas

open Sys2Proof.Machine

/-! ## What a file declares -/

/-- What stands at a place of a section. Words and integer data are evaluated when every symbol is known. -/
inductive Body where
  | raw (bs : List Byte)
  | word (guard : Option Txt) (head : Txt) (args hints : List Txt)
  | value (width : Nat) (t : Txt)
deriving DecidableEq, Repr

structure Piece where
  off : Nat
  line : Nat
  body : Body
deriving DecidableEq, Repr

/-- A section, or the card of a job block, while it is filled. The pieces stand in order. -/
structure Filled where
  key : SecKey
  align : Nat
  size : Nat
  pieces : List Piece
deriving DecidableEq, Repr

/-- A symbol, with its type (R88) and size. -/
structure Named where
  name : Txt
  sym : Sym
  type : Nat
  size : Nat
deriving DecidableEq, Repr

abbrev Keys := List (String × Txt)

/-- A `.cap` line (R81, R90). Its name is a label at its entry. -/
structure CapLine where
  line : Nat
  name : Txt
  here : Option Place
  kind : Nat
  target : Txt
  length : Txt
  perms : Nat
  keys : Keys
deriving DecidableEq, Repr

/-- A group: its `.launch` line, its widths, its capability entries, the indexes of its `.role` lines. -/
structure GroupDecl where
  line : Nat
  name : Txt
  launch : Option (Nat × Option Place × Keys)
  widths : List Nat
  caps : List CapLine
  roles : List (Nat × Nat)
deriving DecidableEq, Repr

structure FootLine where
  line : Nat
  here : Option Place
  args : List Txt
  keys : Keys
deriving DecidableEq, Repr

/-- A `.node` line with its footprints; `graph` is the number of its graph. -/
structure NodeDecl where
  line : Nat
  here : Option Place
  graph : Nat
  name : Txt
  kind : Txt
  keys : Keys
  foots : List FootLine
deriving DecidableEq, Repr

structure EdgeLine where
  line : Nat
  graph : Nat
  from_ : Txt
  to_ : Txt
deriving DecidableEq, Repr

structure StageDecl where
  line : Nat
  here : Option Place
  name : Txt
  keys : Keys
deriving DecidableEq, Repr

structure JobDecl where
  line : Nat
  here : Option Place
  name : Txt
  keys : Keys
deriving DecidableEq, Repr

/-- Which directives apply to what stands above (R81): a group, or a graph. -/
inductive Scope where | none | group | graph
deriving DecidableEq, Repr

/-- The assembler between two lines. `card` is the job block that is open; `routine` the open routine and its place. -/
structure Asm where
  secs : List Filled
  cur : Option SecKey
  card : Option (Option SecKey)
  routine : Option (Txt × Place)
  named : List Named
  globals : List Txt
  scope : Scope
  groups : List GroupDecl
  graphs : Nat
  nodes : List NodeDecl
  edges : List EdgeLine
  stages : List StageDecl
  jobs : List JobDecl
  diags : List Diag
deriving DecidableEq, Repr

def Asm.empty : Asm :=
  { secs := [], cur := none, card := none, routine := none, named := [], globals := [], scope := .none, groups := [], graphs := 0,
    nodes := [], edges := [], stages := [], jobs := [], diags := [] }

def groupsKey : SecKey := { kind := kGroups, name := "groups".toList }
def capsKey : SecKey := { kind := kCaps, name := "caps".toList }
def stagesKey : SecKey := { kind := kStages, name := "stages".toList }
def graphKey : SecKey := { kind := kGraph, name := "graph".toList }
def tagsKey : SecKey := { kind := kTags, name := "tags".toList }
/-- The card of a job block until its place in the graph section is known. -/
def cardKey (name : Txt) : SecKey := { kind := 0, name }

def Asm.filled (a : Asm) (k : SecKey) : Option Filled := a.secs.find? fun f => f.key == k
def Asm.here (a : Asm) : Option Place := do
  let k ← a.cur
  let f ← a.filled k
  return { sec := k, off := f.size }
/-- The symbols so far and the location counter: what the layout of a file may depend on. -/
def Asm.env (a : Asm) : Env := { syms := a.named.map fun n => (n.name, n.sym), here := a.here }

/-- Define a name (R74): its form, not reserved, not defined before. -/
def Asm.define (a : Asm) (name : Txt) (s : Sym) (type size : Nat) : JRes Asm := do
  must .j01 (nameForm name)
  must .j05 (!reserved name && !(a.named.any fun n => n.name == name))
  return { a with named := a.named ++ [{ name, sym := s, type, size }] }

/-- Put a piece at the location counter. -/
def Asm.emit (a : Asm) (line size : Nat) (b : Body) : Asm :=
  match a.cur with
  | none => a
  | some k =>
    { a with secs := a.secs.map fun f =>
        if f.key = k then { f with size := f.size + size, pieces := f.pieces ++ [{ off := f.size, line, body := b }] } else f }
def Asm.raw (a : Asm) (line : Nat) (bs : List Byte) : Asm := a.emit line bs.length (.raw bs)

/-! ## Data (R81) -/

/-- Data directives stand in a data or `lstore` section, or in a card; `.space` also in a `zero` section. R81 names no code for
another data directive in a `zero` section: it is J06 here (DESIGN CHOICE, log 69). -/
def Asm.dataPlace (a : Asm) (space : Bool) : JRes SecKey := do
  let k ← need .j07 a.cur
  must .j06 (k.kind != kText && k.kind != kIxtin && (k.kind != kZero || space))
  return k

def mapAll {α β : Type} (f : α → JRes β) : List α → JRes (List β)
  | [] => .ok []
  | x :: r => do
    let y ← f x
    return y :: (← mapAll f r)

/-- A literal as (m, e, sticky): its magnitude is m × 2^e and a part below that is there if `sticky`. -/
def scaled (num den : Nat) (exp : Int) : Nat × Int × Bool :=
  let k := 256 + (Nat.log2 den - Nat.log2 num)
  (num * 2 ^ k / den, exp - k, decide (num * 2 ^ k % den ≠ 0))
def rnMode : Mode := { rm := .rn, u := 0 }
/-- A literal in a floating format, rounded once by RN (R81). -/
def floatBytes (f : FFmt) (l : Flt) : JRes (List Byte) :=
  let fm := fmtOf f
  let w := fm.width / 8
  match l with
  | .nan => .ok (natLE w fm.canonicalNaN)
  | .inf n => .ok (natLE w (fm.signBit n + fm.infBits))
  | .fin n num den exp =>
    let s := scaled num den exp
    let r := roundTo fm rnMode false n s.1 s.2.1 s.2.2
    if r.2 &&& flagOF ≠ 0 then .error .j09 else .ok (natLE w r.1)

/-- A literal as an element of a PX block. An inexact value keeps a bit below every place a block rounds at. -/
def pxValue : Flt → JRes FVal
  | .nan | .inf _ => .error .j09
  | .fin n num den exp =>
    let s := scaled num den exp
    .ok (.fin n (2 * s.1 + if s.2.2 then 1 else 0) (s.2.1 - 1))
def pxBlocks (f : PxFmt) : Nat → List FVal → JRes (List Byte)
  | 0, _ => .ok []
  | n + 1, l => do
    let r := pxEncode f rnMode (l.take 16)
    must .j09 (r.2 &&& (flagOF ||| flagUF) == 0)
    return natLE (PxFmt.bytes f) r.1 ++ (← pxBlocks f n (l.drop 16))

/-- The bytes of a quoted string; the escapes are `\n`, `\t`, `\\`, `\"` and `\xhh`. -/
def stringBytes : Txt → Option (List Byte)
  | ['"'] => some []
  | '\\' :: 'n' :: r => (stringBytes r).map fun l => 10 :: l
  | '\\' :: 't' :: r => (stringBytes r).map fun l => 9 :: l
  | '\\' :: '\\' :: r => (stringBytes r).map fun l => 92 :: l
  | '\\' :: '"' :: r => (stringBytes r).map fun l => 34 :: l
  | '\\' :: 'x' :: a :: b :: r => do
    let v ← digits 16 [a, b]
    let l ← stringBytes r
    return BitVec.ofNat 8 v :: l
  | '\\' :: _ => none
  | '"' :: _ => none
  | c :: r => (stringBytes r).map fun l => BitVec.ofNat 8 c.toNat :: l
  | [] => none

/-- Padding of `.align` and of a link (R82): the fewest words, or bytes, that reach a multiple of 2^n. -/
def padding (kind off n : Nat) : JRes Nat :=
  let reach := fun (w : Nat) => ((List.range (2 ^ n + 1)).find? fun c => (off + w * c) % 2 ^ n == 0).map fun c => w * c
  if kind = kText then (if off % 4 = 0 then need .j04 (reach 12) else .error .j04)
  else if kind = kIxtin then (if off % 8 = 0 then need .j04 (reach 8) else .error .j04)
  else .ok (upTo (2 ^ n) off - off)

def sumTo {α : Type} (f : α → Nat) (l : List α) : Nat := (l.map f).foldl (fun x y => x + y) 0

/-! ## Keyed arguments (R81) -/

/-- An argument `key=value`. -/
def keyed (t : Txt) : Option (String × Txt) :=
  let n := t.takeWhile isName
  match (t.drop n.length).dropWhile isBlank with
  | '=' :: r => if n.isEmpty then none else some (low n, trim r)
  | _ => none
/-- Positional and keyed arguments. A key that is not listed, or given twice, is J07. -/
def splitKeys (listed : List String) : List Txt → JRes (List Txt × Keys)
  | [] => .ok ([], [])
  | t :: r => do
    let p ← splitKeys listed r
    match keyed t with
    | none => return (t :: p.1, p.2)
    | some k =>
      must .j07 (listed.contains k.1 && (p.2.lookup k.1).isNone)
      return (p.1, k :: p.2)
def keyText (ks : Keys) (k : String) : Option Txt := ks.lookup k
/-- The value of a key, or its default, within limits. -/
def Env.key (e : Env) (ks : Keys) (k : String) (dflt : Int) (c : JCode) (lo hi : Int) : JRes Int :=
  match keyText ks k with
  | none => .ok dflt
  | some t => e.number c lo hi t

/-- Permissions joined by `+`, as bits of R350: R 16, W 8, X 4, LC 2, SC 1. -/
def permBits (listed : List (String × Nat)) (t : Txt) : JRes Nat := do
  let ws := ((String.ofList t).splitOn "+").map fun s => low (trim s.toList)
  let vs ← mapAll (fun w => need .j07 (listed.lookup w)) ws
  must .j07 vs.Nodup
  return vs.foldl (fun a v => a + v) 0
def capPerms : List (String × Nat) := [("r", 16), ("w", 8), ("x", 4), ("lc", 2), ("sc", 1)]
def jobPerms : List (String × Nat) := [("r", 16), ("w", 8)]

/-- A register g1 to g63, by name or by number. -/
def Env.register (e : Env) (t : Txt) : JRes Nat :=
  match regName "g" 63 t with
  | some n => if n = 0 then .error .j04 else .ok n
  | none => do return (← e.number .j04 1 63 t).toNat

/-! ## Directives (R81) -/

/-- The kinds a `.section` names, and their default alignments. -/
def kindNames : List (String × Nat) := [("text", kText), ("ixtin", kIxtin), ("data", kData), ("zero", kZero), ("lstore", kLstore)]
def defaultAlign (kind : Nat) : Nat := if kind = kText then 2 else if kind = kIxtin then 3 else 4

/-- Open or reopen a section. A section that is opened again with a larger `align=`, or that an `.align` asks more of
(`Asm.structural`), has the largest of them: R81 does not say what becomes of it (DESIGN CHOICE, log 69). -/
def Asm.openSection (a : Asm) (key : SecKey) (align : Option Nat) : JRes Asm := do
  must .j07 (!(a.secs.any fun f => f.key.name == key.name && f.key.kind != key.kind && f.key.kind != 0))
  let secs := if (a.filled key).isSome then a.secs
    else a.secs ++ [{ key, align := align.getD (defaultAlign key.kind), size := 0, pieces := [] }]
  return { a with cur := some key,
                  secs := secs.map fun f => if f.key = key then { f with align := max f.align (align.getD 0) } else f }

def floatFmts : List (String × FFmt) := [(".f16", .f16), (".bf16", .bf16), (".f32", .f32)]
def pxFmts : List (String × PxFmt) := [(".px2", .px2), (".px4", .px4), (".px7", .px7)]
def intWidths : List (String × Nat) := [(".byte", 1), (".half", 2), (".word", 4), (".dword", 8)]
def isData (d : String) : Bool :=
  (floatFmts.lookup d).isSome || (pxFmts.lookup d).isSome || (intWidths.lookup d).isSome || d == ".space" || d == ".ascii"

/-- The data directives. A malformed floating literal is J09, and a bad escape of `.ascii` J04: R75 and R81 name no code for
them (DESIGN CHOICE, log 69). -/
def Asm.data (a : Asm) (line : Nat) (d : String) (as : List Txt) : JRes Asm := do
  let k ← a.dataPlace (d == ".space")
  match floatFmts.lookup d, pxFmts.lookup d, intWidths.lookup d with
  | some f, _, _ =>
    must .j07 (!as.isEmpty)
    let bs ← mapAll (fun t => do floatBytes f (← need .j09 (floatLit t))) as
    return a.raw line bs.flatten
  | _, some f, _ =>
    must .j07 (!as.isEmpty)
    must .j09 (as.length % 16 == 0)
    let vs ← mapAll (fun t => do pxValue (← need .j09 (floatLit t))) as
    return a.raw line (← pxBlocks f (as.length / 16) vs)
  | _, _, some w =>
    must .j07 (!as.isEmpty)
    return as.foldl (fun a t => a.emit line w (.value w t)) a
  | none, none, none =>
    match d, as with
    | ".ascii", [t] =>
      match t with
      | '"' :: r => return a.raw line (← need .j04 (stringBytes r))
      | _ => .error .j07
    | ".space", [n] => return a.raw line (List.replicate (← a.env.number .j04 0 281474976710656 n).toNat 0)
    | ".space", [n, f] =>
      let v ← a.env.number .j04 (-128) 255 f
      must .j04 (k.kind != kZero || v == 0)
      return a.raw line (List.replicate (← a.env.number .j04 0 281474976710656 n).toNat (BitVec.ofInt 8 v))
    | _, _ => .error .j07

/-- Change the last group. -/
def Asm.onGroup (a : Asm) (f : GroupDecl → JRes GroupDecl) : JRes Asm := do
  must .j07 (a.scope == .group)
  match a.groups.reverse with
  | [] => .error .j07
  | g :: r => return { a with groups := (← f g) :: r |>.reverse }
/-- Change the last node. -/
def Asm.onNode (a : Asm) (f : NodeDecl → JRes NodeDecl) : JRes Asm := do
  must .j07 (a.scope == .graph)
  match a.nodes.reverse with
  | [] => .error .j07
  | n :: r =>
    must .j07 (n.graph == a.graphs)
    return { a with nodes := (← f n) :: r |>.reverse }

/-- Code and section directives. An `.end` in another section than its `.routine` is J07: R81 does not speak of it (DESIGN
CHOICE, log 69). -/
def Asm.structural (a : Asm) (line : Nat) (d : String) (as : List Txt) : JRes Asm := do
  match d, as with
  | ".section", as =>
    let (ps, ks) ← splitKeys ["align"] as
    match ps with
    | [n, k] =>
      let kind ← need .j07 (kindNames.lookup (low k))
      must .j07 (decide (n.length ≤ 63) && n.head? == some '.' && n.all isName && decide (1 < n.length))
      let al ← match keyText ks "align" with
        | none => pure none
        | some t => pure (some (← a.env.number .j04 0 16 t).toNat)
      a.openSection { kind, name := n } al
    | _ => .error .j07
  | ".text", [] => a.openSection { kind := kText, name := ".text".toList } none
  | ".lstore", [] => a.openSection { kind := kLstore, name := ".lstore".toList } none
  | ".align", [t] =>
    let h ← need .j07 a.here
    let n := (← a.env.number .j04 0 16 t).toNat
    must .j04 (decide (defaultAlign h.sec.kind ≤ n) || (h.sec.kind != kText && h.sec.kind != kIxtin))
    let p ← padding h.sec.kind h.off n
    let b := a.raw line (List.replicate p 0)
    return { b with secs := b.secs.map fun f => if f.key = h.sec then { f with align := max f.align n } else f }
  | ".equ", [n, t] => a.define n (.abs (← a.env.absolute t)) 2 0
  | ".global", [n] =>
    must .j01 (nameForm n)
    must .j05 (!reserved n && !isLocal n)
    return { a with globals := a.globals ++ [n] }
  | ".routine", [n] =>
    let h ← need .j07 a.here
    must .j07 (a.routine.isNone && (h.sec.kind == kText || h.sec.kind == kIxtin))
    let a ← a.define n (.at h) 1 0
    return { a with routine := some (n, h) }
  | ".end", [] =>
    let r ← need .j07 a.routine
    let h ← need .j07 a.here
    must .j07 (h.sec == r.2.sec)
    return { a with routine := none, named := a.named.map fun n => if n.name == r.1 then { n with size := h.off - r.2.off } else n }
  | _, _ => .error .j07

/-- Directives of groups, stages, graphs and job blocks. -/
def Asm.declare (a : Asm) (line : Nat) (d : String) (as : List Txt) : JRes Asm := do
  let here := a.here
  match d with
  | ".group" =>
    match as with
    | [n] =>
      let a ← a.define n (.at { sec := groupsKey, off := 128 * a.groups.length }) 3 128
      return { a with scope := .group,
                      groups := a.groups ++ [{ line, name := n, launch := none, widths := [], caps := [], roles := [] }] }
    | _ => .error .j07
  | ".launch" =>
    let (ps, ks) ← splitKeys ["entry", "roles", "lcnbase", "widbase", "seed", "dlim", "xlen", "allot", "quads", "parterres", "lstore",
      "save", "stage", "flags"] as
    must .j07 (ps.isEmpty && (keyText ks "entry").isSome && (keyText ks "roles").isSome)
    a.onGroup fun g => if g.launch.isNone then .ok { g with launch := some (line, here, ks) } else .error .j07
  | ".widths" =>
    must .j07 (!as.isEmpty)
    let ws ← mapAll (a.env.number .j08 0 63) as
    must .j08 (decide (ws.length ≤ 6) && decide (ws.foldl (fun x y => x + y) 0 ≤ 64))
    a.onGroup fun g => .ok { g with widths := ws.map fun w => w.toNat }
  | ".role" =>
    match as with
    | [n, t] =>
      let i := (← a.env.number .j04 0 4095 t).toNat
      let a ← a.define n (.abs (BitVec.ofNat 64 i)) 2 0
      a.onGroup fun g => .ok { g with roles := g.roles ++ [(line, i)] }
    | _ => .error .j07
  | ".cap" =>
    let (ps, keys) ← splitKeys ["reg", "role"] as
    match ps with
    | [n, k, target, length, p] =>
      let kind ← need .j07 ([("mem", 1), ("local", 2)].lookup (low k))
      let perms ← permBits capPerms p
      must .j05 (!isLocal n)
      let a ← a.define n (.at { sec := capsKey, off := 32 * sumTo (fun g => g.caps.length) a.groups }) 0 0
      a.onGroup fun g => .ok { g with caps := g.caps ++ [{ line, name := n, here, kind, target, length, perms, keys }] }
    | _ => .error .j07
  | ".stage" =>
    let all := ["state", "statelen", "split", "merge", "input", "keymask", "twins", "hi", "lo", "window"]
    let (ps, keys) ← splitKeys all as
    match ps with
    | [n] =>
      must .j07 (all.all fun k => (keyText keys k).isSome)
      let a ← a.define n (.at { sec := stagesKey, off := 64 * a.stages.length }) 5 64
      return { a with stages := a.stages ++ [{ line, here, name := n, keys }] }
    | _ => .error .j07
  | ".graph" =>
    match as with
    | [n] =>
      must .j01 (nameForm n)
      return { a with scope := .graph, graphs := a.graphs + 1 }
    | _ => .error .j07
  | ".node" =>
    must .j07 (a.scope == .graph)
    let (ps, keys) ← splitKeys ["group", "stage", "prio", "policy", "retries", "ext", "job", "early", "host"] as
    match ps with
    | [n, kind] =>
      let a ← a.define n (.at { sec := graphKey, off := 128 * a.nodes.length }) 4 128
      return { a with nodes := a.nodes ++ [{ line, here, graph := a.graphs, name := n, kind, keys, foots := [] }] }
    | _ => .error .j07
  | ".edge" =>
    must .j07 (a.scope == .graph)
    match as with
    | [f, t] => return { a with edges := a.edges ++ [{ line, graph := a.graphs, from_ := f, to_ := t }] }
    | _ => .error .j07
  | ".footprint" =>
    let (ps, keys) ← splitKeys ["role"] as
    must .j07 (ps.length == 3)
    a.onNode fun n => if n.foots.length < 8 then .ok { n with foots := n.foots ++ [{ line, here, args := ps, keys }] } else .error .j04
  | ".jobblock" =>
    let all := ["src", "srclen", "srcperms", "dst", "dstlen", "dstperms"]
    let (ps, keys) ← splitKeys all as
    match ps with
    | [n] =>
      must .j07 (all.all fun k => (keyText keys k).isSome)
      let a ← a.define n (.at { sec := cardKey n, off := 0 }) 0 0
      return { a with jobs := a.jobs ++ [{ line, here, name := n, keys }], card := some a.cur, cur := some (cardKey n),
                      secs := a.secs ++ [{ key := cardKey n, align := 6, size := 0, pieces := [] }] }
    | _ => .error .j07
  | _ => .error .j01

/-- The directives that take no keyed argument, the data directives apart. -/
def keyless : List String :=
  [".text", ".lstore", ".align", ".equ", ".global", ".routine", ".end", ".group", ".widths", ".role", ".graph", ".edge", ".endjob"]
/-- A directive. Within a job block only data directives and `.endjob` are taken (R84). -/
def Asm.directive (a : Asm) (line : Nat) (d : String) (as : List Txt) : JRes Asm := do
  must .j07 (!(isData d || keyless.contains d) || as.all fun t => (keyed t).isNone)
  if isData d then a.data line d as
  else
    match a.card with
    | some back =>
      must .j07 (d == ".endjob" && as.isEmpty)
      let h ← need .j07 a.here
      must .j04 (decide (h.off ≤ 192))
      return { a with card := none, cur := back }
    | none =>
      if d == ".endjob" then .error .j07
      else if [".section", ".text", ".lstore", ".align", ".equ", ".global", ".routine", ".end"].contains d then a.structural line d as
      else a.declare line d as

/-- The statement of a line. -/
def Asm.stmt (a : Asm) (line : Nat) : Stmt → JRes Asm
  | .empty => .ok a
  | .directive d as => a.directive line d as
  | .word g h as hs => do
    let k ← need .j06 a.cur
    if k.kind = kText then return a.emit line 12 (.word g h as hs)
    else if k.kind = kIxtin then return a.emit line 8 (.word g h as hs)
    else .error .j06

/-- One line: its label, then its statement. A line in error changes nothing but the diagnostics (R85). -/
def Asm.line (a : Asm) (n : Nat) (bs : List Byte) : Asm :=
  let fail := fun (a : Asm) (c : JCode) => { a with diags := a.diags ++ [{ line := n, code := c }] }
  match parseLine bs with
  | .error c => fail a c
  | .ok l =>
    let b := match l.label with
      | none => a
      | some m =>
        match a.here with
        | none => fail a .j07
        | some h =>
          match a.define m (.at h) 0 0 with
          | .ok b => b
          | .error c => fail a c
    match b.stmt n l.stmt with
    | .ok d => d
    | .error c => fail b c

def Asm.lines (a : Asm) (n : Nat) : List (List Byte) → Asm
  | [] => a
  | l :: r => (a.line n l).lines (n + 1) r

/-! ## The object -/

/-- Bytes of a section with the relocations they need, and the diagnostics. Relocations name a symbol by its name. -/
structure Out where
  bytes : List Byte
  rels : List (Place × Want)
  diags : List Diag
deriving DecidableEq, Repr
def Out.none : Out := { bytes := [], rels := [], diags := [] }
def Out.join (a b : Out) : Out := { bytes := a.bytes ++ b.bytes, rels := a.rels ++ b.rels, diags := a.diags ++ b.diags }
/-- The part of a result, or its diagnostic and as many zero bytes. -/
def outOf (line size : Nat) (r : JRes (List Byte × List (Place × Want))) : Out :=
  match r with
  | .ok p => { bytes := p.1, rels := p.2.map fun q => (q.1, { q.2 with line }), diags := [] }
  | .error c => { bytes := List.replicate size 0, rels := [], diags := [{ line, code := c }] }

/-- A field that holds an address: its bytes, and an ABS64 relocation if the value is relocatable. -/
def Env.address (e : Env) (at_ : Place) (t : Txt) : JRes (List Byte × List (Place × Want)) := do
  match ← e.value t with
  | .abs v => return (natLE 8 v.toNat, [])
  | .rel b a => return (natLE 8 0, [(at_, ← wantOf 1 b a)])

/-- The bytes of a piece. -/
def Env.piece (e : Env) (k : SecKey) (p : Piece) : Out :=
  let pl : Place := { sec := k, off := p.off }
  let e := { e with here := some pl }
  match p.body with
  | .raw bs => { bytes := bs, rels := [], diags := [] }
  | .value w t => outOf p.line w do
    match ← e.value t with
    | .abs v => return (natLE w (BitVec.ofInt 64 (← inRange .j04 (-((2 ^ (8 * w - 1) : Nat) : Int)) (if w = 8 then 9223372036854775807 else ((2 ^ (8 * w) : Nat) : Int) - 1) v)).toNat, [])
    | .rel b a =>
      let kind ← need .j04 ([(4, 2), (8, 1)].lookup w)
      return (natLE w 0, [(pl, ← wantOf kind b a)])
  | .word g h as hs =>
    if k.kind = kText then outOf p.line 12 do
      let r ← e.assemble g h as hs
      return (natLE 12 r.1.word.toNat, r.2.toList.map fun w => (pl, w))
    else outOf p.line 8 do
      let r ← e.assembleIxtin g h as hs
      return (natLE 8 r.1.toNat, r.2.toList.map fun w => (pl, w))

/-- The contents of a section. -/
def Env.contents (e : Env) (f : Filled) : Out := f.pieces.foldl (fun o p => o.join (e.piece f.key p)) Out.none

/-- A capability of a kind with a length in its smallest exact scale, cursor 0, base 0 (R84, R90, R350). -/
def Env.capBits (e : Env) (kind perms : Nat) (length : Txt) : JRes W128 := do
  let n ← e.absolute length
  let s ← need .j04 (pickScale n.toNat)
  return BitVec.ofNat 128 (kind * 2 ^ 125 + perms * 2 ^ 120 + s.2 * 2 ^ 86 + s.1 * 2 ^ 84)
/-- The sixteen bytes of a capability over a target: its base by CAPBASE, or at once where the target is absolute. -/
def Env.capability (e : Env) (at_ : Place) (kind perms : Nat) (target length : Txt) : JRes (List Byte × List (Place × Want)) := do
  let c ← e.capBits kind perms length
  match ← e.value target with
  | .abs v =>
    must .j04 (v.toNat % 16 == 0 && decide (v.toNat < 2 ^ 48))
    return (natLE 16 (c.toNat + v.toNat / 16 * 2 ^ 40), [])
  | .rel b a => return (natLE 16 c.toNat, [(at_, ← wantOf 8 b a)])

/-- The role count of a group's `.launch` line. -/
def GroupDecl.roleCount (g : GroupDecl) (e : Env) : JRes Nat := do
  let l ← need .j07 g.launch
  return (← e.number .j08 1 4096 (← need .j07 (keyText l.2.2 "roles"))).toNat

/-- The register and the role of a capability entry: 0 and 0xFFFF where there is none (R90). -/
def Env.capRole (e : Env) (roles : Nat) (c : CapLine) : JRes (Nat × Nat) := do
  let reg ← match keyText c.keys "reg" with
    | none => pure 0
    | some t => e.register t
  let role ← e.key c.keys "role" 0xFFFF .j04 0 (roles - 1)
  return (reg, role.toNat)

/-- The capability entry at `off` of the `caps` section (R90); `before` are the registers and roles of earlier entries. -/
def Env.capEntry (e : Env) (roles off : Nat) (before : List (Nat × Nat)) (c : CapLine) : JRes (List Byte × List (Place × Want)) := do
  let r ← e.capRole roles c
  must .j07 (r.1 == 0 || !(before.any fun b => b.1 == r.1 && (b.2 == r.2 || b.2 == 0xFFFF || r.2 == 0xFFFF)))
  let p ← e.capability { sec := capsKey, off } c.kind c.perms c.target c.length
  return (p.1 ++ natLE 1 r.1 ++ natLE 1 0 ++ natLE 2 r.2 ++ natLE 12 0, p.2)
/-- The capability entries of a group, from offset `off` of the section on. -/
def Env.capTable (e : Env) (roles : Nat) : Nat → List (Nat × Nat) → List CapLine → Out
  | _, _, [] => Out.none
  | off, before, c :: r =>
    let e := { e with here := c.here }
    let mine := match e.capRole roles c with
      | .ok p => [p]
      | .error _ => []
    (outOf c.line 32 (e.capEntry roles off before c)).join (e.capTable roles (off + 32) (before ++ mine) r)

/-- The bits of `flags=`: names joined by `+`, or a number. -/
def Env.flags (e : Env) (t : Txt) : JRes Nat := do
  let ws := ((String.ofList t).splitOn "+").map fun s => low (trim s.toList)
  let names := [("planned", 1), ("fuse", 2), ("ixtin", 4), ("stage", 8)]
  if ws.all fun w => (names.lookup w).isSome then return ws.foldl (fun a w => a ||| (names.lookup w).getD 0) 0
  else return (← e.number .j08 0 15 t).toNat

/-- The launch header of a group (R91): `off` is its place, `capOff` that of its first capability entry. -/
def Env.header (e : Env) (secs : List Filled) (g : GroupDecl) (off capOff : Nat) : JRes (List Byte × List (Place × Want)) := do
  let l ← need .j07 g.launch
  let e := { e with here := l.2.1 }
  let ks := l.2.2
  let at_ := fun (o : Nat) => ({ sec := groupsKey, off := off + o } : Place)
  let wide := fun (k : String) => match keyText ks k with
    | none => Except.ok (0 : Nat)
    | some t => do return (← e.absolute t).toNat
  let n := fun (k : String) (d lo hi : Int) => do return (← e.key ks k d .j08 lo hi).toNat
  let roles ← g.roleCount e
  let entry ← need .j07 (keyText ks "entry")
  let ep ← e.address (at_ 0) entry
  let eSec : Option (Nat × Nat) := match e.value entry with
    | .ok (.rel b a) => (e.placeOf b).map fun (p : Place) => (p.sec.kind, (BitVec.ofNat 64 p.off + a).toNat)
    | _ => none
  let fl ← match keyText ks "flags" with
    | none => pure 0
    | some t => e.flags t
  let isIx := eSec.map fun p => p.1 == kIxtin
  must .j08 (!(fl.testBit 2 && isIx == some false))
  let fl := if isIx = some true then fl ||| 4 else fl
  must .j08 (match eSec with
    | some p => p.2 % (if fl.testBit 2 then 8 else 4) == 0
    | none => num ep.1 0 8 % (if fl.testBit 2 then 8 else 4) == 0)
  let ls := keyText ks "lstore"
  let lsec := ls.bind fun t => secs.find? fun f => f.key == { kind := kLstore, name := t }
  must .j08 (ls.isNone || lsec.isSome)
  let lsSize := (lsec.map fun f => f.size).getD 0
  must .j08 (lsSize % 16 == 0 && decide (lsSize ≤ 262144))
  let lsRel : List (Place × Want) := match ls with
    | some t => [(at_ 32, { kind := 1, sym := .section_ { kind := kLstore, name := t }, add := 0 })]
    | none => []
  let caps := g.caps.length
  must .j08 (decide (caps ≤ 63))
  let capRel : List (Place × Want) := if caps = 0 then []
    else [(at_ 64, { kind := 1, sym := .place { sec := capsKey, off := capOff }, add := 0 })]
  let save ← n "save" 0xFFFF 0 0xFFFF
  must .j08 (save == 0xFFFF || decide (save < caps))
  let quads ← n "quads" 0 0 0xFFFF
  must .j08 (decide (4 * quads ≤ roles))
  let allot ← n "allot" 0 0 64
  must .j08 (allot % 8 == 0)
  let xlen ← n "xlen" 0 0 1024
  must .j08 (if fl.testBit 0 then xlen % 4 == 0 && decide (4 ≤ xlen) else xlen == 0)
  let st ← match keyText ks "stage" with
    | none => pure (natLE 8 0, [])
    | some t => e.address (at_ 80) t
  must .j08 (fl.testBit 3 == (!st.2.isEmpty || num st.1 0 8 != 0))
  let bytes := ep.1 ++ natLE 8 (← wide "widbase") ++ natLE 8 (← wide "seed") ++ natLE 8 (← wide "parterres") ++ natLE 8 0 ++
    natLE 4 lsSize ++ natLE 4 (← n "lcnbase" 0 0 0xFFFFFFFF) ++ natLE 4 (← n "dlim" 65536 0 0xFFFFFFFF) ++ natLE 2 roles ++ natLE 2 fl ++
    ((List.range 6).map fun i => BitVec.ofNat 8 ((g.widths[i]?).getD 0)) ++ natLE 2 xlen ++ natLE 8 0 ++ natLE 2 caps ++ natLE 2 save ++
    natLE 2 quads ++ natLE 1 allot ++ natLE 1 0 ++ st.1 ++ natLE 40 0
  return (bytes, ep.2 ++ lsRel ++ capRel ++ st.2)

/-- The section kinds of the entries of the groups that launch a stage, where this file defines the entry. -/
def Env.entryKinds (e : Env) (groups : List GroupDecl) (stage : Txt) : List Nat :=
  groups.filterMap fun g => do
    let l ← g.launch
    if keyText l.2.2 "stage" = some stage then
      match ({ e with here := l.2.1 } : Env).value (← keyText l.2.2 "entry") with
      | .ok (.rel b _) => (e.placeOf b).map fun p => p.sec.kind
      | _ => none
    else none
/-- The stage descriptor at `off` (R319, R320). Its limits are those of a descriptor with its routines in place; the routines
lie in sections of the entry's format. -/
def Env.stage (e : Env) (groups : List GroupDecl) (named : List Named) (s : StageDecl) (off : Nat) :
    JRes (List Byte × List (Place × Want)) := do
  let kinds := e.entryKinds groups s.name
  let e := { e with here := s.here }
  let n := fun (k : String) => do return (← e.number .j04 0 0xFFFFFFFF (← need .j07 (keyText s.keys k))).toNat
  let routine := fun (k : String) => do
    let t ← need .j07 (keyText s.keys k)
    must .j04 (named.any fun x => x.name == t && x.type == 1)
    return t
  let split ← routine "split"
  let merge ← routine "merge"
  let kinds := kinds ++ [split, merge].filterMap fun t => (e.placeOf (.sym t)).map fun p => p.sec.kind
  must .j04 (kinds.all fun k => kinds.head? == some k)
  let input ← need .j04 ((keyText s.keys "input").bind fun t => regName "g" 63 t)
  let bytes := natLE 4 (← n "state") ++ natLE 4 (← n "statelen") ++ natLE 16 0 ++ natLE 1 input ++ natLE 1 (min 255 (← n "twins")) ++ natLE 2 0 ++
    natLE 4 (← n "keymask") ++ natLE 4 (← n "hi") ++ natLE 4 (← n "lo") ++ natLE 4 (← n "window") ++ natLE 20 0
  must .j04 (stageLimits bytes)
  return (bytes, [({ sec := stagesKey, off := off + 8 }, { kind := 1, sym := .name split, add := 0 }),
                  ({ sec := stagesKey, off := off + 16 }, { kind := 1, sym := .name merge, add := 0 })])

/-! ## Graphs (R83, R300) -/

def EdgeLine.leaves (x : EdgeLine) (n : NodeDecl) : Bool := x.graph == n.graph && x.from_ == n.name
def EdgeLine.enters (x : EdgeLine) (n : NodeDecl) : Bool := x.graph == n.graph && x.to_ == n.name
/-- Both nodes of an edge are nodes of its graph, and no edge is repeated. -/
def edgeDiags (nodes : List NodeDecl) : List EdgeLine → List EdgeLine → List Diag
  | _, [] => []
  | before, x :: r =>
    let ok := (nodes.any fun n => x.leaves n) && (nodes.any fun n => x.enters n) &&
      !(before.any fun y => y.graph == x.graph && y.from_ == x.from_ && y.to_ == x.to_)
    (if ok then [] else [{ line := x.line, code := .j07 }]) ++ edgeDiags nodes (before ++ [x]) r

def nodeKinds : List (String × Nat) := [("gang", 0), ("job", 1), ("signal", 2), ("stage", 3)]

/-- The work field of a node: a launch header for a gang or a stage, a job block for a job, 0 for a signal. The header of a
stage node is that of its `group=`, or of the group that launches its stage. -/
def Env.work (e : Env) (groups : List GroupDecl) (kind : Nat) (ks : Keys) (at_ : Place) : JRes (List Byte × List (Place × Want)) := do
  match kind with
  | 0 => e.address at_ (← need .j07 (keyText ks "group"))
  | 1 => e.address at_ (← need .j07 (keyText ks "job"))
  | 2 => return (natLE 8 0, [])
  | _ =>
    let st ← need .j07 (keyText ks "stage")
    let own := groups.find? fun g => match g.launch with
      | some l => keyText l.2.2 "stage" == some st
      | none => false
    match keyText ks "group" with
    | some g => e.address at_ g
    | none => e.address at_ (← need .j07 (own.map fun g => g.name))

/-- A node record (R300). `succ` and `res` are the offsets of its successor list and residency table in the graph section. -/
def Env.node (e : Env) (groups : List GroupDecl) (edges : List EdgeLine) (n : NodeDecl) (off succ res : Nat) :
    JRes (List Byte × List (Place × Want)) := do
  let e := { e with here := n.here }
  let kind ← need .j07 (nodeKinds.lookup (low n.kind))
  let ks := n.keys
  let at_ := fun (o : Nat) => ({ sec := graphKey, off := off + o } : Place)
  must .j07 ((keyText ks "host").isNone || kind == 2)
  must .j07 (kind != 2 || (keyText ks "host").isSome)
  must .j07 ((keyText ks "early").isNone || kind == 0 || kind == 3)
  let prio ← e.key ks "prio" 0 .j04 0 3
  let retries ← e.key ks "retries" 0 .j04 0 15
  let early ← e.key ks "early" 0 .j04 0 1
  let host ← e.key ks "host" 0 .j04 0 65535
  let ext ← e.key ks "ext" 0 .j04 0 65535
  let cont ← match (keyText ks "policy").map low with
    | none => pure 0
    | some "cancel" => pure 0
    | some "continue" => pure 1
    | some _ => .error .j04
  let tokens := (edges.filter fun x => x.enters n).length + ext.toNat
  let succs := (edges.filter fun x => x.leaves n).length
  must .j08 (decide (tokens ≤ 65535) && decide (succs ≤ 65535))
  let work ← e.work groups kind ks (at_ 24)
  let own := fun (o : Nat) (to_ : Nat) => (at_ o, ({ kind := 1, sym := .name n.name, add := BitVec.ofNat 64 to_ - BitVec.ofNat 64 off } : Want))
  let bytes := natLE 1 0 ++ natLE 1 kind ++ natLE 1 prio.toNat ++ natLE 1 (retries.toNat + 16 * cont + 32 * early.toNat) ++ natLE 2 tokens ++
    natLE 6 0 ++ natLE 2 succs ++ natLE 2 0 ++ natLE 8 0 ++ work.1 ++ natLE 8 0 ++ natLE 2 n.foots.length ++ natLE 2 host.toNat ++ natLE 84 0
  return (bytes, (if succs = 0 then [] else [own 16 succ]) ++ work.2 ++ if n.foots.isEmpty then [] else [own 32 res])

/-- A residency region (R87). -/
def Env.foot (e : Env) (f : FootLine) (off : Nat) : JRes (List Byte × List (Place × Want)) := do
  let e := { e with here := f.here }
  match f.args with
  | [target, length, lsoff] =>
    let t ← e.address { sec := graphKey, off } target
    let n := (← e.number .j04 0 0xFFFFFFFF length).toNat
    let o := (← e.number .j04 0 262144 lsoff).toNat
    must .j04 (decide (o + n ≤ 262144))
    let role ← e.key f.keys "role" 0xFFFF .j04 0 0xFFFE
    return (t.1 ++ natLE 4 n ++ natLE 4 o ++ natLE 2 role.toNat ++ natLE 14 0, t.2)
  | _ => .error .j07

/-- Join parts laid out one after another from `off` on, each of a known size. -/
def joinAt {α : Type} (size : α → Nat) (f : α → Nat → Out) : Nat → List α → Out
  | _, [] => Out.none
  | off, x :: r => (f x off).join (joinAt size f (off + size x) r)

/-- Bytes of the records, successor lists and residency tables: the first job block stands at the next multiple of 64 (R87). -/
def Asm.graphPlaces (a : Asm) : Nat × Nat × Nat :=
  let n := 128 * a.nodes.length
  let m := n + 8 * (a.edges.filter fun x => a.nodes.any fun y => x.leaves y).length
  let r := m + 32 * (a.nodes.map fun y => y.foots.length).foldl (fun x y => x + y) 0
  (n, m, upTo 64 r)

/-- The records, successor lists and residency tables of the graph section. -/
def Asm.graphRecords (a : Asm) (e : Env) : Out :=
  let succs := fun (n : NodeDecl) => a.edges.filter fun x => x.leaves n
  let p := a.graphPlaces
  let before := fun (off : Nat) => a.nodes.take (off / 128)
  let rec_ := fun (n : NodeDecl) (off : Nat) =>
    outOf n.line 128 (e.node a.groups a.edges n off (p.1 + 8 * sumTo (fun y => (succs y).length) (before off))
      (p.2.1 + 32 * sumTo (fun y => y.foots.length) (before off)))
  let entry := fun (x : EdgeLine) (off : Nat) =>
    -- an edge to no node of its graph is reported by `edgeDiags`
    ({ bytes := natLE 8 0, diags := [],
       rels := if a.nodes.any fun n => x.enters n then [({ sec := graphKey, off }, { kind := 1, sym := .name x.to_, add := 0, line := x.line })]
         else [] } : Out)
  let foot := fun (f : FootLine) (off : Nat) => outOf f.line 32 (e.foot f off)
  ((joinAt (fun _ => 128) rec_ 0 a.nodes).join (joinAt (fun _ => 8) entry p.1 (a.nodes.flatMap succs))).join
    (joinAt (fun _ => 32) foot p.2.1 (a.nodes.flatMap fun n => n.foots))

/-- A job block (R84, R305) at `off` of the graph section: card, capabilities, zeros. -/
def Asm.jobBlock (a : Asm) (e : Env) (j : JobDecl) (off : Nat) : Out :=
  let card := match a.filled (cardKey j.name) with
    | some f => e.contents { f with key := graphKey, pieces := f.pieces.map fun (p : Piece) => { p with off := off + p.off } }
    | none => Out.none
  let e := { e with here := j.here }
  let cap := fun (o : Nat) (t n p : String) => outOf j.line 16 do
    let perms ← permBits jobPerms (← need .j07 (keyText j.keys p))
    e.capability { sec := graphKey, off := off + o } 1 perms (← need .j07 (keyText j.keys t)) (← need .j07 (keyText j.keys n))
  let head : Out := { card with bytes := card.bytes ++ List.replicate (192 - card.bytes.length) 0 }
  ((head.join (cap 192 "src" "srclen" "srcperms")).join (cap 208 "dst" "dstlen" "dstperms")).join
    { bytes := List.replicate 32 0, rels := [], diags := [] }

/-- The places of job blocks, once the graph section is laid out. -/
def Asm.fixPlace (a : Asm) (p : Place) : Place :=
  if p.sec.kind = 0 then
    { sec := graphKey, off := a.graphPlaces.2.2 + 256 * a.jobs.findIdx (fun j => cardKey j.name == p.sec) + p.off }
  else p
def Asm.fixSym (a : Asm) : Sym → Sym
  | .at p => .at (a.fixPlace p)
  | s => s

/-! ## Symbols and relocations -/

/-- An `lstore` section that a header names has a symbol of its own (R91). -/
def Asm.sectionSymbols (a : Asm) : List Named :=
  (a.secs.filter fun f => f.key.kind == kLstore && a.groups.any fun g => match g.launch with
    | some l => keyText l.2.2 "lstore" == some f.key.name
    | none => false).map fun f => { name := f.key.name, sym := .at { sec := f.key, off := 0 }, type := 0, size := 0 }

/-- Every symbol of the file, imports included. -/
def Asm.allNamed (a : Asm) : List Named :=
  (a.named.map fun n => { n with sym := a.fixSym n.sym }) ++
  ((a.globals.filter fun g => !(a.named.any fun n => n.name == g)).map fun g => { name := g, sym := .imported, type := 0, size := 0 })

def Asm.symbolOf (a : Asm) (n : Named) : Symbol :=
  { name := n.name, type := n.type, glob := a.globals.contains n.name, size := n.size,
    sec := match n.sym with
      | .at p => some p.sec
      | _ => none,
    value := match n.sym with
      | .at p => p.off
      | .abs v => v.toNat
      | .imported => 0 }

/-- The symbol that a relocation names, and its addend. A local label enters no table: another symbol of its section stands
for it. -/
def Asm.resolve (a : Asm) (syms : List Symbol) (all : List Named) (w : Want) : JRes (Symbol × W64) := do
  match w.sym with
  | .zero => return (nullSymbol, w.add)
  | .place p => return (← need .j05 (syms.find? fun s => s.sec == some p.sec && s.value == p.off), w.add)
  | .section_ k => return (← need .j05 (syms.find? fun s => s.sec == some k && s.name == k.name), w.add)
  | .name n =>
    let x ← need .j05 (all.find? fun x => x.name == n)
    if syms.contains (a.symbolOf x) then return (a.symbolOf x, w.add)
    else
      match x.sym with
      | .at p =>
        let s ← need .j04 (syms.find? fun s => s.sec == some p.sec && !(p.sec.kind == kLstore && s.name == p.sec.name))
        return (s, w.add + BitVec.ofNat 64 p.off - BitVec.ofNat 64 s.value)
      | _ => .error .j05

/-- The relocations of an output, with their symbols. -/
def Asm.relocsOf (a : Asm) (syms : List Symbol) (all : List Named) (l : List (Place × Want)) : List Reloc × List Diag :=
  l.foldl (fun acc p =>
    match a.resolve syms all p.2 with
    | .ok s => (acc.1 ++ [{ at_ := p.1, kind := p.2.kind, sym := s.1, add := s.2 }], acc.2)
    | .error c => (acc.1, acc.2 ++ [{ line := p.2.line, code := c }])) ([], [])

/-- The alignments of the sections that `jas` makes itself (R84, R300, R319). -/
def ownAlign (kind : Nat) : Nat := if kind = kGroups ∨ kind = kGraph then 7 else if kind = kStages then 6 else 4

/-- A section of the object from its contents. -/
def sectionOf (key : SecKey) (align : Nat) (bytes : List Byte) : Section :=
  { key, align, body := if key.kind = kZero then [] else bytes, size := bytes.length, addr := 0 }

/-- The tag table of the job blocks (R84): two granules each. -/
def tagEntries (first count graphIndex : Nat) : List Byte :=
  (List.range count).flatMap fun i => [192, 208].flatMap fun o => natLE 8 (first + 256 * i + o) ++ natLE 2 graphIndex ++ natLE 6 0

/-- The object of a file that has been read line by line, or every diagnostic in source order (R85). `last` is the last line. -/
def Asm.finish (a : Asm) (last : Nat) : Except (List Diag) Obj :=
  let all := a.allNamed ++ a.sectionSymbols
  let syms := ((a.allNamed.filter fun n => !isLocal n.name) ++ a.sectionSymbols).map a.symbolOf
  let e : Env := { syms := all.map fun n => (n.name, n.sym), here := none }
  let open_ : List Diag := if a.routine.isSome || a.card.isSome then [{ line := last, code := .j07 }] else []
  let plain := a.secs.filter fun f => f.key.kind != 0
  let outs : List (SecKey × Nat × Out) := plain.map fun f => (f.key, f.align, e.contents f)
  let roleDiags := a.groups.flatMap fun g =>
    match g.roleCount e with
    | .ok n => g.roles.filterMap fun r => if r.2 < n then none else some ({ line := r.1, code := .j04 } : Diag)
    | .error _ => []
  let caps := joinAt (fun g : GroupDecl => 32 * g.caps.length)
    -- a role count in error is reported by the header
    (fun g off => match g.roleCount e with
      | .ok n => e.capTable n off [] g.caps
      | .error _ => e.capTable 4096 off [] g.caps) 0 a.groups
  let groups := joinAt (fun _ => 128) (fun g off => outOf ((g.launch.map fun l => l.1).getD g.line) 128
    (e.header plain g off (32 * sumTo (fun h => h.caps.length) (a.groups.take (off / 128))))) 0 a.groups
  let stages := joinAt (fun _ => 64) (fun s off => outOf s.line 64 (e.stage a.groups a.named s off)) 0 a.stages
  let recs := a.graphRecords e
  let jobAt := a.graphPlaces.2.2
  let gap : Out := { bytes := if a.jobs.isEmpty then [] else List.replicate (jobAt - recs.bytes.length) 0, rels := [], diags := [] }
  let graph := (recs.join gap).join (joinAt (fun _ => 256) (fun j off => a.jobBlock e j off) jobAt a.jobs)
  let outs := outs ++ ([(capsKey, caps), (groupsKey, groups), (stagesKey, stages), (graphKey, graph)].filter fun p =>
    !p.2.bytes.isEmpty || !p.2.diags.isEmpty).map fun p => (p.1, ownAlign p.1.kind, p.2)
  let rels := a.relocsOf syms all (outs.flatMap fun o => o.2.2.rels)
  let secs := outs.map fun o => sectionOf o.1 o.2.1 o.2.2.bytes
  let keys := names (({ exec := false, secs, syms := [], rels := [] } : Obj).sorted)
  let tags := if a.jobs.isEmpty then []
    else [sectionOf tagsKey 4 (tagEntries jobAt a.jobs.length (secIndex keys graphKey))]
  let diags := a.diags ++ open_ ++ (outs.flatMap fun o => o.2.2.diags) ++ roleDiags ++ edgeDiags a.nodes [] a.edges ++ rels.2
  let o : Obj := { exec := false, secs := secs ++ tags, syms, rels := rels.1 }
  let diags := diags ++ if o.fits then [] else [{ line := last, code := .j07 }]
  if diags.isEmpty then .ok o
  else .error (sortWith (fun x y => decide (x.line < y.line)) diags)

/-- `jas`: the object of a source file, or its diagnostics. -/
def assemble (src : List Byte) : Except (List Diag) Obj :=
  let ls := splitLines [] src
  (Asm.empty.lines 1 ls).finish ls.length
/-- The object file. -/
def assembleFile (src : List Byte) : Except (List Diag) (List Byte) :=
  (assemble src).map fun o => o.bytes (toolRecord "jas" Config.jasVersion Config.jasOptions)

end Sys2Proof.Jas
end

