-- ==== Sys2Proof/Machine/Jld.lean ====
section
/-! DEFINITION. The linker `jld` (R89, R92): merging of sections, layout, relocation; and what a loader writes tagged (R84) (log 67, 71). -/

namespace Sys2Proof.Jas

open Sys2Proof.Machine

/-- A piece of a merged section: which object it comes from and where it stands. -/
structure Merged where
  key : SecKey
  align : Nat
  body : List Byte
  size : Nat
  /-- object number, offset within the merged section -/
  parts : List (Nat × Nat)
deriving DecidableEq, Repr

/-- A result with the codes of the errors met on the way: the linker reports every one (R85). -/
abbrev Told (α : Type) := α × List JCode

/-- Add a section of object `i`: it is aligned to its own alignment, and the padding follows R82. -/
def addPart (m : Merged) (i : Nat) (s : Section) : Told Merged :=
  let put := fun (p : Nat) =>
    { m with align := max m.align s.align, size := m.size + p + s.size,
             body := if s.key.kind = kZero then [] else m.body ++ List.replicate p 0 ++ s.body,
             parts := m.parts ++ [(i, m.size + p)] }
  match padding s.key.kind m.size s.align with
  | .ok p => (put p, [])
  | .error c => (put 0, [c])

/-- Put a section with those of equal name and kind. -/
def mergeInto (i : Nat) (s : Section) : List Merged → Told (List Merged)
  | [] =>
    let m := addPart { key := s.key, align := 0, body := [], size := 0, parts := [] } i s
    ([m.1], m.2)
  | m :: r =>
    if m.key = s.key then
      let n := addPart m i s
      (n.1 :: r, n.2)
    else
      let n := mergeInto i s r
      (m :: n.1, n.2)
def mergeObj (i : Nat) : List Section → Told (List Merged) → Told (List Merged)
  | [], l => l
  | s :: r, l =>
    let n := mergeInto i s l.1
    mergeObj i r (n.1, l.2 ++ n.2)
/-- Contents are joined in the order the objects are named. -/
def mergeAll : Nat → List Obj → Told (List Merged) → Told (List Merged)
  | _, [], l => l
  | i, o :: r, l => mergeAll (i + 1) r (mergeObj i o.sorted l)

/-- Where the section of object `i` begins in its merged section. -/
def partAt (l : List Merged) (i : Nat) (k : SecKey) : Nat :=
  ((l.find? fun m => m.key == k).bind fun m => m.parts.lookup i).getD 0

/-- An `lstore` section's own symbol (R91). -/
def isSectionSymbol (s : Symbol) : Bool :=
  match s.sec with
  | some k => k.kind == kLstore && s.name == k.name
  | none => false
/-- An import: global, without a section, not absolute. -/
def isImport (s : Symbol) : Bool := s.glob && s.sec.isNone && s.type != 2

/-- A symbol of object `i` in the merged sections. -/
def moveSymbol (l : List Merged) (i : Nat) (s : Symbol) : Symbol :=
  match s.sec with
  | none => s
  | some k => if isSectionSymbol s then { s with value := 0 } else { s with value := partAt l i k + s.value }

/-- The symbols of the executable, imports left out. -/
def movedSymbols (l : List Merged) : Nat → List Obj → List Symbol
  | _, [] => []
  | i, o :: r => ((o.syms.filter fun s => !isImport s).map (moveSymbol l i)) ++ movedSymbols l (i + 1) r

/-- Layout in canonical order from the base: each loaded section starts on a 64 KiB boundary, below 2^48 (R92). -/
def layout (at_ : Nat) : List Section → Told (List Section)
  | [] => ([], [])
  | s :: r =>
    if isLoaded s.key.kind then
      let a := upTo 65536 at_
      let l := layout (a + s.size) r
      ({ s with addr := a } :: l.1, (if a + s.size ≤ 2 ^ 48 then [] else [.j10]) ++ l.2)
    else
      let l := layout at_ r
      (s :: l.1, l.2)

/-- The address of a section. -/
def addrOf (l : List Section) (k : SecKey) : Nat := ((l.find? fun s => s.key == k).map fun s => s.addr).getD 0
/-- S of R89: an address; an offset for a symbol in an `lstore` section, its section symbol apart; or an absolute value. -/
def symValue (l : List Section) (s : Symbol) : W64 :=
  match s.sec with
  | none => BitVec.ofNat 64 s.value
  | some k => BitVec.ofNat 64 (if k.kind = kLstore ∧ ¬ isSectionSymbol s then s.value else addrOf l k + s.value)

/-- Replace bytes from `off` on. -/
def patch (b : List Byte) (off : Nat) (v : List Byte) : List Byte := b.take off ++ v ++ b.drop (off + v.length)
/-- `v` as a signed value of 32 bits. -/
def fits32 (v : W64) : Bool := decide (-2147483648 ≤ v.toInt) && decide (v.toInt ≤ 2147483647)

/-- Apply a relocation at `off` of a section's bytes (R89): S, A, P, and whether the symbol lies in an `lstore` section. -/
def applyReloc (kind : Nat) (s a p : W64) (ls : Bool) (off : Nat) (b : List Byte) : JRes (List Byte) :=
  let v := s + a
  let put4 := fun (x : W64) => Except.ok (patch b off (natLE 4 x.toNat))
  match kind with
  | 1 => .ok (patch b off (natLE 8 v.toNat))
  | 2 => if v.toNat < 2 ^ 32 then put4 v else .error .j10
  | 3 => if fits32 v then put4 v else .error .j10
  | 4 => if (v - p).toNat % 4 = 0 ∧ fits32 (v - p) then put4 (v - p) else .error .j10
  | 5 => put4 v
  | 6 => put4 (v >>> 32)
  | 7 => if ls ∧ v.toNat < 262144 then put4 v else .error .j10
  | 8 =>
    if v.toNat % 16 = 0 then
      let c := num b off 16
      .ok (patch b off (natLE 16 (c % 2 ^ 40 + v.toNat / 16 % 2 ^ 44 * 2 ^ 40 + c / 2 ^ 84 * 2 ^ 84)))
    else .error .j10
  | _ => .error .j10

/-- The definition that an import names. -/
def definition (syms : List Symbol) (s : Symbol) : Option Symbol :=
  if isImport s then syms.find? fun d => d.glob && d.name == s.name else some s
/-- An import left unresolved is J05 in an executable, whether or not a relocation uses it (R81). -/
def unresolved (syms : List Symbol) (objs : List Obj) : List JCode :=
  (objs.flatMap fun o => o.syms.filter fun s => (definition syms s).isNone).map fun _ => .j05

/-- One relocation of object `i`. A header's `lstore` address brings the size of the merged section with it (R91). -/
def relocate (l : List Merged) (i : Nat) (r : Reloc) (s : Symbol) (secs : List Section) : JRes (List Section) := do
  let off := partAt l i r.at_.sec + r.at_.off
  let inLs := match s.sec with
    | some k => k.kind == kLstore
    | none => false
  let sec ← need .j10 (secs.find? fun x => x.key == r.at_.sec)
  let b ← applyReloc r.kind (symValue secs s) r.add (BitVec.ofNat 64 (sec.addr + off)) inLs off sec.body
  let b := if sec.key.kind = kGroups ∧ off % 128 = 32 then
      match s.sec with
      | some k => patch b (off + 8) (natLE 4 (((secs.find? fun x => x.key == k).map fun x => x.size).getD 0))
      | none => b
    else b
  return secs.map fun x => if x.key = sec.key then { x with body := b } else x
/-- The relocations of object `i`. One against an import that stays unresolved was reported with it. -/
def relocateObj (l : List Merged) (syms : List Symbol) (i : Nat) : List Reloc → Told (List Section) → Told (List Section)
  | [], secs => secs
  | r :: rs, secs => relocateObj l syms i rs <|
      match definition syms (moveSymbol l i r.sym) with
      | none => secs
      | some s =>
        match relocate l i r s secs.1 with
        | .ok t => (t, secs.2)
        | .error c => (secs.1, secs.2 ++ [c])
def relocateAll (l : List Merged) (syms : List Symbol) : Nat → List Obj → Told (List Section) → Told (List Section)
  | _, [], secs => secs
  | i, o :: r, secs => relocateAll l syms (i + 1) r (relocateObj l syms i o.rels secs)

/-- The tag entries of object `i`: each granule's virtual address, and the index of its section in the executable (R84). -/
def moveTags (l : List Merged) (keys : List SecKey) (secs : List Section) (i : Nat) (o : Obj) (b : List Byte) : List Byte :=
  let own := names o.sorted
  (records 16 (b.length / 16) b).flatMap fun e =>
    match own[num e 8 2 - 1]? with
    | some k => natLE 8 (addrOf secs k + partAt l i k + num e 0 8) ++ natLE 2 (secIndex keys k) ++ natLE 6 0
    | none => e
def tagsFrom (l : List Merged) (keys : List SecKey) (secs : List Section) : Nat → List Obj → List Byte
  | _, [] => []
  | i, o :: r =>
    ((o.secs.filter fun s => s.key.kind == kTags).flatMap fun s => moveTags l keys secs i o s.body) ++ tagsFrom l keys secs (i + 1) r

/-- Each global defined twice (R92). -/
def definedTwice : List Symbol → List JCode
  | [] => []
  | s :: r => (if s.glob && r.any fun t => t.glob && t.name == s.name then [.j05] else []) ++ definedTwice r

/-- `jld`: relocatable objects, in the order they are named, to an executable; or the code of every link error (R85). -/
def link (base : Nat) (objs : List Obj) : Except (List JCode) Obj :=
  let (l, e1) := mergeAll 0 objs ([], [])
  let syms := movedSymbols l 0 objs
  let plain := (l.filter fun m => m.key.kind != kTags).map fun m =>
    ({ key := m.key, align := m.align, body := m.body, size := m.size, addr := 0 } : Section)
  let sorted := (({ exec := true, secs := plain, syms := [], rels := [] } : Obj).sorted)
  let (secs, e2) := layout base sorted
  let (secs, e3) := relocateAll l syms 0 objs (secs, [])
  let tags := tagsFrom l (names secs) secs 0 objs
  let o : Obj := { exec := true, secs := secs ++ (if tags.isEmpty then [] else [sectionOf tagsKey 4 tags]), syms, rels := [] }
  let errors := e1 ++ definedTwice syms ++ unresolved syms objs ++ e2 ++ e3 ++ if o.fits then [] else [.j07]
  if errors.isEmpty then .ok o else .error errors

/-- The default image base (R92). -/
def defaultBase : Nat := 0x0000100000000000
/-- The executable file of object files; none where a file is no JOF file. -/
def linkFiles (base : Nat) (files : List (List Byte)) : Option (Except (List JCode) (List Byte)) :=
  (files.mapM readObj).map fun os => (link base os).map fun o => o.bytes (toolRecord "jld" Config.jldVersion (Config.jldOptions base))

/-! ## Loading -/

/-- What a loader makes of a granule of an image (R84): from a kind-1 capability `have_` that it holds, by CBOUND, CPERM and
CDERIVE, the value `want` of the image; none where this capability cannot yield it. -/
def yields (have_ want : W128) : Bool :=
  capKind have_ == 1 && capKind want == 1 && decide (capBase have_ ≤ capBase want) &&
    decide (capBase want + capLength want ≤ capBase have_ + capLength have_) &&
    (bits want 124 120 &&& bits have_ 124 120) == bits want 124 120 && decide (capCursor want < 2 ^ 40)

/-- The tagged writes of a loader that holds `held`: address and value of every granule. It refuses the image if one of them
comes from none of its capabilities, or if the digests of the file disagree (R84, R95). -/
def tagWrites (held : List W128) (f : List Byte) : Option (List (Nat × W128)) := do
  let o ← readObj f
  if !digestsAgree f then none
  else
    o.granules.mapM fun a => do
      let s ← o.secs.find? fun s => isLoaded s.key.kind && decide (s.addr ≤ a) && decide (a + 16 ≤ s.addr + s.body.length)
      let v : W128 := BitVec.ofNat 128 (num s.body (a - s.addr) 16)
      if held.any fun h => yields h v then some (a, v) else none

end Sys2Proof.Jas
end

