-- ==== Sys2Proof/Laws/Jof.lean ====
section
/-! SUPPORT. Laws of the object format and the linker: a file header is read as it was written, a relocation changes only the
bytes it patches, padding reaches its boundary, a statement that is assembled decodes. -/

namespace Sys2Proof.Jas

open Sys2Proof.Machine

@[simp] theorem natLE_length (n v : Nat) : (natLE n v).length = n := by
  induction n generalizing v with
  | zero => rfl
  | succ n ih => simp [natLE, ih]

theorem leNat_natLE (n v : Nat) (h : v < 256 ^ n) : leNat (natLE n v) = v := by
  induction n generalizing v with
  | zero => simp [natLE, leNat] at *; omega
  | succ n ih =>
    have h2 : v / 256 < 256 ^ n := by rw [Nat.pow_succ] at h; omega
    simp [natLE, leNat, ih _ h2]; omega

/-- A field of known length before the one that is read. -/
theorem num_append (a b : List Byte) (off n : Nat) (h : a.length ≤ off) : num (a ++ b) off n = num b (off - a.length) n := by
  simp [num, List.drop_append, List.drop_eq_nil_of_le h]
theorem num_front (n v : Nat) (b : List Byte) (h : v < 256 ^ n) : num (natLE n v ++ b) 0 n = v := by
  simp [num, leNat_natLE n v h]

@[simp] theorem patch_length (b v : List Byte) (off : Nat) (h : off + v.length ≤ b.length) : (patch b off v).length = b.length := by
  simp [patch]; omega
theorem patch_outside (b v : List Byte) (off i : Nat) (h : off + v.length ≤ b.length) (hi : i < off ∨ off + v.length ≤ i) :
    (patch b off v)[i]? = b[i]? := by
  unfold patch
  rcases hi with hi | hi
  · rw [List.append_assoc, List.getElem?_append_left (by simp; omega), List.getElem?_take_of_lt hi]
  · rw [List.getElem?_append_right (by simp; omega)]
    simp only [List.length_append, List.length_take, List.getElem?_drop]
    congr 1
    omega

/-- A file header is read as it was written (R86). -/
theorem readHead_bytes (h : FileHead) (r : List Byte) (h0 : 1 ≤ h.count) (h1 : h.count ≤ 4096) (h2 : h.base < 2 ^ 64) (h3 : h.symsec < 65536)
    (h4 : h.strsec < 65536) (h5 : h.relsec < 65536) (h6 : h.mansec < 65536) : readHead (h.bytes ++ r) = some h := by
  have hl : ¬ (h.bytes ++ r).length < 64 := by simp [FileHead.bytes]; omega
  have e0 : num (h.bytes ++ r) 0 4 = 0x00464F4A := by simp [FileHead.bytes, num, leNat]
  have f (a b : List Byte) (off n v : Nat) (ha : a.length = off) (hv : v < 256 ^ n) : num (a ++ (natLE n v ++ b)) off n = v := by
    rw [num_append _ _ _ _ (by omega), ha, Nat.sub_self, num_front _ _ _ hv]
  have e1 := f ([0x4A, 0x4F, 0x46, 0x00])
    (natLE 2 ((if h.exec then 1 else 0) + if h.ixtin then 2 else 0) ++ (natLE 2 h.count ++ (natLE 2 64 ++ (natLE 4 64 ++ (natLE 8 h.base ++ (natLE 2 h.symsec ++ (natLE 2 h.strsec ++ (natLE 2 h.relsec ++ (natLE 2 h.mansec ++ (natLE 32 0 ++ r)))))))))) 4 2 1 (by simp) (by decide)
  have e2 := f ([0x4A, 0x4F, 0x46, 0x00] ++ natLE 2 1)
    (natLE 2 h.count ++ (natLE 2 64 ++ (natLE 4 64 ++ (natLE 8 h.base ++ (natLE 2 h.symsec ++ (natLE 2 h.strsec ++ (natLE 2 h.relsec ++ (natLE 2 h.mansec ++ (natLE 32 0 ++ r))))))))) 6 2 ((if h.exec then 1 else 0) + if h.ixtin then 2 else 0) (by simp) (by cases h.exec <;> cases h.ixtin <;> simp)
  have e3 := f ([0x4A, 0x4F, 0x46, 0x00] ++ natLE 2 1 ++ natLE 2 ((if h.exec then 1 else 0) + if h.ixtin then 2 else 0))
    (natLE 2 64 ++ (natLE 4 64 ++ (natLE 8 h.base ++ (natLE 2 h.symsec ++ (natLE 2 h.strsec ++ (natLE 2 h.relsec ++ (natLE 2 h.mansec ++ (natLE 32 0 ++ r)))))))) 8 2 h.count (by simp) (by omega)
  have e4 := f ([0x4A, 0x4F, 0x46, 0x00] ++ natLE 2 1 ++ natLE 2 ((if h.exec then 1 else 0) + if h.ixtin then 2 else 0) ++ natLE 2 h.count)
    (natLE 4 64 ++ (natLE 8 h.base ++ (natLE 2 h.symsec ++ (natLE 2 h.strsec ++ (natLE 2 h.relsec ++ (natLE 2 h.mansec ++ (natLE 32 0 ++ r))))))) 10 2 64 (by simp) (by decide)
  have e5 := f ([0x4A, 0x4F, 0x46, 0x00] ++ natLE 2 1 ++ natLE 2 ((if h.exec then 1 else 0) + if h.ixtin then 2 else 0) ++ natLE 2 h.count ++ natLE 2 64)
    (natLE 8 h.base ++ (natLE 2 h.symsec ++ (natLE 2 h.strsec ++ (natLE 2 h.relsec ++ (natLE 2 h.mansec ++ (natLE 32 0 ++ r)))))) 12 4 64 (by simp) (by decide)
  have e6 := f ([0x4A, 0x4F, 0x46, 0x00] ++ natLE 2 1 ++ natLE 2 ((if h.exec then 1 else 0) + if h.ixtin then 2 else 0) ++ natLE 2 h.count ++ natLE 2 64 ++ natLE 4 64)
    (natLE 2 h.symsec ++ (natLE 2 h.strsec ++ (natLE 2 h.relsec ++ (natLE 2 h.mansec ++ (natLE 32 0 ++ r))))) 16 8 h.base (by simp) (by simpa using h2)
  have e7 := f ([0x4A, 0x4F, 0x46, 0x00] ++ natLE 2 1 ++ natLE 2 ((if h.exec then 1 else 0) + if h.ixtin then 2 else 0) ++ natLE 2 h.count ++ natLE 2 64 ++ natLE 4 64 ++ natLE 8 h.base)
    (natLE 2 h.strsec ++ (natLE 2 h.relsec ++ (natLE 2 h.mansec ++ (natLE 32 0 ++ r)))) 24 2 h.symsec (by simp) (h3)
  have e8 := f ([0x4A, 0x4F, 0x46, 0x00] ++ natLE 2 1 ++ natLE 2 ((if h.exec then 1 else 0) + if h.ixtin then 2 else 0) ++ natLE 2 h.count ++ natLE 2 64 ++ natLE 4 64 ++ natLE 8 h.base ++ natLE 2 h.symsec)
    (natLE 2 h.relsec ++ (natLE 2 h.mansec ++ (natLE 32 0 ++ r))) 26 2 h.strsec (by simp) (h4)
  have e9 := f ([0x4A, 0x4F, 0x46, 0x00] ++ natLE 2 1 ++ natLE 2 ((if h.exec then 1 else 0) + if h.ixtin then 2 else 0) ++ natLE 2 h.count ++ natLE 2 64 ++ natLE 4 64 ++ natLE 8 h.base ++ natLE 2 h.symsec ++ natLE 2 h.strsec)
    (natLE 2 h.mansec ++ (natLE 32 0 ++ r)) 28 2 h.relsec (by simp) (h5)
  have e10 := f ([0x4A, 0x4F, 0x46, 0x00] ++ natLE 2 1 ++ natLE 2 ((if h.exec then 1 else 0) + if h.ixtin then 2 else 0) ++ natLE 2 h.count ++ natLE 2 64 ++ natLE 4 64 ++ natLE 8 h.base ++ natLE 2 h.symsec ++ natLE 2 h.strsec ++ natLE 2 h.relsec)
    (natLE 32 0 ++ r) 30 2 h.mansec (by simp) (h6)
  have hb : h.bytes ++ r = [0x4A, 0x4F, 0x46, 0x00] ++ (natLE 2 1 ++ (natLE 2 ((if h.exec then 1 else 0) + if h.ixtin then 2 else 0) ++ (natLE 2 h.count ++ (natLE 2 64 ++ (natLE 4 64 ++ (natLE 8 h.base ++ (natLE 2 h.symsec ++ (natLE 2 h.strsec ++ (natLE 2 h.relsec ++ (natLE 2 h.mansec ++ (natLE 32 0 ++ r))))))))))) := by simp [FileHead.bytes]
  simp only [List.append_assoc] at e1 e2 e3 e4 e5 e6 e7 e8 e9 e10
  rw [hb] at hl e0 ⊢
  unfold readHead
  rw [if_neg (by rw [e0, e1, e3, e4, e5]; simp only [not_or]; exact ⟨hl, by decide, by decide, by decide, by decide, by omega, by omega⟩), e2, e3, e6, e7, e8, e9, e10]
  clear hb hl e0 e1 e2 e3 e4 e5 e6 e7 e8 e9 e10 f
  cases h with | mk x i _ _ _ _ _ _ => cases x <;> cases i <;> simp <;> decide

/-- How many bytes a relocation of a kind patches (R89). -/
def patched (kind : Nat) : Nat := if kind = 1 then 8 else if kind = 8 then 16 else 4

/-- What a relocation can do: it patches the bytes of its kind and leaves all others, or it is J10 (R89). -/
theorem applyReloc_frame (kind off : Nat) (s a p : W64) (ls : Bool) (b d : List Byte) (h : off + patched kind ≤ b.length)
    (hr : applyReloc kind s a p ls off b = .ok d) :
    d.length = b.length ∧ ∀ i, i < off ∨ off + patched kind ≤ i → d[i]? = b[i]? := by
  have key : ∀ v : List Byte, v.length = patched kind → d = patch b off v →
      d.length = b.length ∧ ∀ i, i < off ∨ off + patched kind ≤ i → d[i]? = b[i]? := by
    intro v hv hc
    subst hc
    rw [← hv] at h ⊢
    exact ⟨patch_length b v off h, fun i hi => patch_outside b v off i h hi⟩
  simp only [applyReloc] at hr
  repeat' split at hr
  all_goals first
    | (injection hr with hr; exact key _ (by simp [patched]) hr.symm)
    | cases hr

/-- `upTo` reaches a multiple, and no earlier one is skipped. -/
theorem upTo_spec (m n : Nat) (h : 0 < m) : upTo m n % m = 0 ∧ n ≤ upTo m n ∧ upTo m n < n + m := by
  have := Nat.mod_lt n h
  have hd := Nat.div_add_mod n m
  unfold upTo
  by_cases hz : n % m = 0
  · simp [hz]
    omega
  · have hlt : (m - n % m) % m = m - n % m := Nat.mod_eq_of_lt (by omega)
    refine ⟨?_, by omega, by omega⟩
    rw [hlt, show n + (m - n % m) = m * (n / m) + m by omega]
    simp

/-- A statement that is assembled gives fields that decode (R67 steps 1 to 5, R76). -/
theorem assemble_decodes (e : Env) (g : Option Txt) (head : Txt) (ops hs : List Txt) (r : Fields × Option Want)
    (h : e.assemble g head ops hs = .ok r) : ∃ i, decodeFields r.1 = .ok i := by
  unfold Env.assemble at h
  split at h
  · cases h
  · split at h
    · rename_i hf
      injection h with h
      subst h
      unfold accepted at hf
      split at hf
      · exact ⟨_, by assumption⟩
      · cases hf
    · cases h

end Sys2Proof.Jas
end

