-- ==== Sys2Proof/Laws/State.lean ====
section
/-! SUPPORT. One lemma per field and update of State, Core and Ctx: what each update of Ops.lean leaves as it was. -/

namespace Sys2Proof.Machine

/-! ## State -/

@[simp] theorem State.setCore_inputs (s : State) (n : Nat) (c : Core) : (s.setCore n c).inputs = s.inputs := rfl
@[simp] theorem State.setCore_calendar (s : State) (n : Nat) (c : Core) : (s.setCore n c).calendar = s.calendar := rfl
@[simp] theorem State.setCore_due (s : State) (n : Nat) (c : Core) : (s.setCore n c).due = s.due := rfl
@[simp] theorem State.setCore_todo (s : State) (n : Nat) (c : Core) : (s.setCore n c).todo = s.todo := rfl
@[simp] theorem State.setCore_core (s : State) (n : Nat) (c : Core) : (s.setCore n c).core = s.core := rfl
@[simp] theorem State.setCore_ir (s : State) (n : Nat) (c : Core) : (s.setCore n c).ir = s.ir := rfl
@[simp] theorem State.setCore_irIxtin (s : State) (n : Nat) (c : Core) : (s.setCore n c).irIxtin = s.irIxtin := rfl
@[simp] theorem State.setCore_fresh (s : State) (n : Nat) (c : Core) : (s.setCore n c).fresh = s.fresh := rfl
@[simp] theorem State.setCore_ids (s : State) (n : Nat) (c : Core) : (s.setCore n c).ids = s.ids := rfl
@[simp] theorem State.setCore_out (s : State) (n : Nat) (c : Core) : (s.setCore n c).out = s.out := rfl
@[simp] theorem State.setCore_waiting (s : State) (n : Nat) (c : Core) : (s.setCore n c).waiting = s.waiting := rfl
@[simp] theorem State.setCore_cyc (s : State) (n : Nat) (c : Core) : (s.setCore n c).cyc = s.cyc := rfl
@[simp] theorem State.setCore_arbors (s : State) (n : Nat) (c : Core) : (s.setCore n c).arbors = s.arbors := rfl
@[simp] theorem State.setCore_mem (s : State) (n : Nat) (c : Core) : (s.setCore n c).mem = s.mem := rfl
@[simp] theorem State.setCore_late (s : State) (n : Nat) (c : Core) : (s.setCore n c).late = s.late := rfl
@[simp] theorem State.setCore_past (s : State) (n : Nat) (c : Core) : (s.setCore n c).past = s.past := rfl
@[simp] theorem State.setCore_domains (s : State) (n : Nat) (c : Core) : (s.setCore n c).domains = s.domains := rfl
@[simp] theorem State.setCore_lodge (s : State) (n : Nat) (c : Core) : (s.setCore n c).lodge = s.lodge := rfl
@[simp] theorem State.setCore_mcs (s : State) (n : Nat) (c : Core) : (s.setCore n c).mcs = s.mcs := rfl
@[simp] theorem State.setCore_ports (s : State) (n : Nat) (c : Core) : (s.setCore n c).ports = s.ports := rfl
@[simp] theorem State.setCore_records (s : State) (n : Nat) (c : Core) : (s.setCore n c).records = s.records := rfl
@[simp] theorem State.setCore_farEnds (s : State) (n : Nat) (c : Core) : (s.setCore n c).farEnds = s.farEnds := rfl
@[simp] theorem State.setCore_syncs (s : State) (n : Nat) (c : Core) : (s.setCore n c).syncs = s.syncs := rfl
@[simp] theorem State.setCore_results (s : State) (n : Nat) (c : Core) : (s.setCore n c).results = s.results := rfl
@[simp] theorem State.setCore_replies (s : State) (n : Nat) (c : Core) : (s.setCore n c).replies = s.replies := rfl
@[simp] theorem State.setCore_jobs (s : State) (n : Nat) (c : Core) : (s.setCore n c).jobs = s.jobs := rfl
@[simp] theorem State.setCore_gangs (s : State) (n : Nat) (c : Core) : (s.setCore n c).gangs = s.gangs := rfl
@[simp] theorem State.setCore_graphs (s : State) (n : Nat) (c : Core) : (s.setCore n c).graphs = s.graphs := rfl
@[simp] theorem State.setCore_ready (s : State) (n : Nat) (c : Core) : (s.setCore n c).ready = s.ready := rfl
@[simp] theorem State.setCore_retries (s : State) (n : Nat) (c : Core) : (s.setCore n c).retries = s.retries := rfl
@[simp] theorem State.setCore_keptExits (s : State) (n : Nat) (c : Core) : (s.setCore n c).keptExits = s.keptExits := rfl
@[simp] theorem State.setCore_stages (s : State) (n : Nat) (c : Core) : (s.setCore n c).stages = s.stages := rfl
@[simp] theorem State.setCore_monitors (s : State) (n : Nat) (c : Core) : (s.setCore n c).monitors = s.monitors := rfl
@[simp] theorem State.setCore_saved (s : State) (n : Nat) (c : Core) : (s.setCore n c).saved = s.saved := rfl
@[simp] theorem State.setCore_hits (s : State) (n : Nat) (c : Core) : (s.setCore n c).hits = s.hits := rfl
@[simp] theorem State.setCore_hostLines (s : State) (n : Nat) (c : Core) : (s.setCore n c).hostLines = s.hostLines := rfl
@[simp] theorem State.setCore_hostTags (s : State) (n : Nat) (c : Core) : (s.setCore n c).hostTags = s.hostTags := rfl
@[simp] theorem State.setCore_snoops (s : State) (n : Nat) (c : Core) : (s.setCore n c).snoops = s.snoops := rfl
@[simp] theorem State.setCore_exposed (s : State) (n : Nat) (c : Core) : (s.setCore n c).exposed = s.exposed := rfl
@[simp] theorem State.setCore_hostHeld (s : State) (n : Nat) (c : Core) : (s.setCore n c).hostHeld = s.hostHeld := rfl
@[simp] theorem State.setCore_backInv (s : State) (n : Nat) (c : Core) : (s.setCore n c).backInv = s.backInv := rfl
@[simp] theorem State.setCore_peerWaiting (s : State) (n : Nat) (c : Core) : (s.setCore n c).peerWaiting = s.peerWaiting := rfl
@[simp] theorem State.setCore_links (s : State) (n : Nat) (c : Core) : (s.setCore n c).links = s.links := rfl
@[simp] theorem State.setCore_txs (s : State) (n : Nat) (c : Core) : (s.setCore n c).txs = s.txs := rfl
@[simp] theorem State.setCore_integrity (s : State) (n : Nat) (c : Core) : (s.setCore n c).integrity = s.integrity := rfl

@[simp] theorem State.updCore_inputs (s : State) (n : Nat) (f : Core → Core) : (s.updCore n f).inputs = s.inputs := rfl
@[simp] theorem State.updCore_calendar (s : State) (n : Nat) (f : Core → Core) : (s.updCore n f).calendar = s.calendar := rfl
@[simp] theorem State.updCore_due (s : State) (n : Nat) (f : Core → Core) : (s.updCore n f).due = s.due := rfl
@[simp] theorem State.updCore_todo (s : State) (n : Nat) (f : Core → Core) : (s.updCore n f).todo = s.todo := rfl
@[simp] theorem State.updCore_core (s : State) (n : Nat) (f : Core → Core) : (s.updCore n f).core = s.core := rfl
@[simp] theorem State.updCore_ir (s : State) (n : Nat) (f : Core → Core) : (s.updCore n f).ir = s.ir := rfl
@[simp] theorem State.updCore_irIxtin (s : State) (n : Nat) (f : Core → Core) : (s.updCore n f).irIxtin = s.irIxtin := rfl
@[simp] theorem State.updCore_fresh (s : State) (n : Nat) (f : Core → Core) : (s.updCore n f).fresh = s.fresh := rfl
@[simp] theorem State.updCore_ids (s : State) (n : Nat) (f : Core → Core) : (s.updCore n f).ids = s.ids := rfl
@[simp] theorem State.updCore_out (s : State) (n : Nat) (f : Core → Core) : (s.updCore n f).out = s.out := rfl
@[simp] theorem State.updCore_waiting (s : State) (n : Nat) (f : Core → Core) : (s.updCore n f).waiting = s.waiting := rfl
@[simp] theorem State.updCore_cyc (s : State) (n : Nat) (f : Core → Core) : (s.updCore n f).cyc = s.cyc := rfl
@[simp] theorem State.updCore_arbors (s : State) (n : Nat) (f : Core → Core) : (s.updCore n f).arbors = s.arbors := rfl
@[simp] theorem State.updCore_mem (s : State) (n : Nat) (f : Core → Core) : (s.updCore n f).mem = s.mem := rfl
@[simp] theorem State.updCore_late (s : State) (n : Nat) (f : Core → Core) : (s.updCore n f).late = s.late := rfl
@[simp] theorem State.updCore_past (s : State) (n : Nat) (f : Core → Core) : (s.updCore n f).past = s.past := rfl
@[simp] theorem State.updCore_domains (s : State) (n : Nat) (f : Core → Core) : (s.updCore n f).domains = s.domains := rfl
@[simp] theorem State.updCore_lodge (s : State) (n : Nat) (f : Core → Core) : (s.updCore n f).lodge = s.lodge := rfl
@[simp] theorem State.updCore_mcs (s : State) (n : Nat) (f : Core → Core) : (s.updCore n f).mcs = s.mcs := rfl
@[simp] theorem State.updCore_ports (s : State) (n : Nat) (f : Core → Core) : (s.updCore n f).ports = s.ports := rfl
@[simp] theorem State.updCore_records (s : State) (n : Nat) (f : Core → Core) : (s.updCore n f).records = s.records := rfl
@[simp] theorem State.updCore_farEnds (s : State) (n : Nat) (f : Core → Core) : (s.updCore n f).farEnds = s.farEnds := rfl
@[simp] theorem State.updCore_syncs (s : State) (n : Nat) (f : Core → Core) : (s.updCore n f).syncs = s.syncs := rfl
@[simp] theorem State.updCore_results (s : State) (n : Nat) (f : Core → Core) : (s.updCore n f).results = s.results := rfl
@[simp] theorem State.updCore_replies (s : State) (n : Nat) (f : Core → Core) : (s.updCore n f).replies = s.replies := rfl
@[simp] theorem State.updCore_jobs (s : State) (n : Nat) (f : Core → Core) : (s.updCore n f).jobs = s.jobs := rfl
@[simp] theorem State.updCore_gangs (s : State) (n : Nat) (f : Core → Core) : (s.updCore n f).gangs = s.gangs := rfl
@[simp] theorem State.updCore_graphs (s : State) (n : Nat) (f : Core → Core) : (s.updCore n f).graphs = s.graphs := rfl
@[simp] theorem State.updCore_ready (s : State) (n : Nat) (f : Core → Core) : (s.updCore n f).ready = s.ready := rfl
@[simp] theorem State.updCore_retries (s : State) (n : Nat) (f : Core → Core) : (s.updCore n f).retries = s.retries := rfl
@[simp] theorem State.updCore_keptExits (s : State) (n : Nat) (f : Core → Core) : (s.updCore n f).keptExits = s.keptExits := rfl
@[simp] theorem State.updCore_stages (s : State) (n : Nat) (f : Core → Core) : (s.updCore n f).stages = s.stages := rfl
@[simp] theorem State.updCore_monitors (s : State) (n : Nat) (f : Core → Core) : (s.updCore n f).monitors = s.monitors := rfl
@[simp] theorem State.updCore_saved (s : State) (n : Nat) (f : Core → Core) : (s.updCore n f).saved = s.saved := rfl
@[simp] theorem State.updCore_hits (s : State) (n : Nat) (f : Core → Core) : (s.updCore n f).hits = s.hits := rfl
@[simp] theorem State.updCore_hostLines (s : State) (n : Nat) (f : Core → Core) : (s.updCore n f).hostLines = s.hostLines := rfl
@[simp] theorem State.updCore_hostTags (s : State) (n : Nat) (f : Core → Core) : (s.updCore n f).hostTags = s.hostTags := rfl
@[simp] theorem State.updCore_snoops (s : State) (n : Nat) (f : Core → Core) : (s.updCore n f).snoops = s.snoops := rfl
@[simp] theorem State.updCore_exposed (s : State) (n : Nat) (f : Core → Core) : (s.updCore n f).exposed = s.exposed := rfl
@[simp] theorem State.updCore_hostHeld (s : State) (n : Nat) (f : Core → Core) : (s.updCore n f).hostHeld = s.hostHeld := rfl
@[simp] theorem State.updCore_backInv (s : State) (n : Nat) (f : Core → Core) : (s.updCore n f).backInv = s.backInv := rfl
@[simp] theorem State.updCore_peerWaiting (s : State) (n : Nat) (f : Core → Core) : (s.updCore n f).peerWaiting = s.peerWaiting := rfl
@[simp] theorem State.updCore_links (s : State) (n : Nat) (f : Core → Core) : (s.updCore n f).links = s.links := rfl
@[simp] theorem State.updCore_txs (s : State) (n : Nat) (f : Core → Core) : (s.updCore n f).txs = s.txs := rfl
@[simp] theorem State.updCore_integrity (s : State) (n : Nat) (f : Core → Core) : (s.updCore n f).integrity = s.integrity := rfl

@[simp] theorem State.updCtx_inputs (s : State) (n k : Nat) (f : Ctx → Ctx) : (s.updCtx n k f).inputs = s.inputs := rfl
@[simp] theorem State.updCtx_calendar (s : State) (n k : Nat) (f : Ctx → Ctx) : (s.updCtx n k f).calendar = s.calendar := rfl
@[simp] theorem State.updCtx_due (s : State) (n k : Nat) (f : Ctx → Ctx) : (s.updCtx n k f).due = s.due := rfl
@[simp] theorem State.updCtx_todo (s : State) (n k : Nat) (f : Ctx → Ctx) : (s.updCtx n k f).todo = s.todo := rfl
@[simp] theorem State.updCtx_core (s : State) (n k : Nat) (f : Ctx → Ctx) : (s.updCtx n k f).core = s.core := rfl
@[simp] theorem State.updCtx_ir (s : State) (n k : Nat) (f : Ctx → Ctx) : (s.updCtx n k f).ir = s.ir := rfl
@[simp] theorem State.updCtx_irIxtin (s : State) (n k : Nat) (f : Ctx → Ctx) : (s.updCtx n k f).irIxtin = s.irIxtin := rfl
@[simp] theorem State.updCtx_fresh (s : State) (n k : Nat) (f : Ctx → Ctx) : (s.updCtx n k f).fresh = s.fresh := rfl
@[simp] theorem State.updCtx_ids (s : State) (n k : Nat) (f : Ctx → Ctx) : (s.updCtx n k f).ids = s.ids := rfl
@[simp] theorem State.updCtx_out (s : State) (n k : Nat) (f : Ctx → Ctx) : (s.updCtx n k f).out = s.out := rfl
@[simp] theorem State.updCtx_waiting (s : State) (n k : Nat) (f : Ctx → Ctx) : (s.updCtx n k f).waiting = s.waiting := rfl
@[simp] theorem State.updCtx_cyc (s : State) (n k : Nat) (f : Ctx → Ctx) : (s.updCtx n k f).cyc = s.cyc := rfl
@[simp] theorem State.updCtx_arbors (s : State) (n k : Nat) (f : Ctx → Ctx) : (s.updCtx n k f).arbors = s.arbors := rfl
@[simp] theorem State.updCtx_mem (s : State) (n k : Nat) (f : Ctx → Ctx) : (s.updCtx n k f).mem = s.mem := rfl
@[simp] theorem State.updCtx_late (s : State) (n k : Nat) (f : Ctx → Ctx) : (s.updCtx n k f).late = s.late := rfl
@[simp] theorem State.updCtx_past (s : State) (n k : Nat) (f : Ctx → Ctx) : (s.updCtx n k f).past = s.past := rfl
@[simp] theorem State.updCtx_domains (s : State) (n k : Nat) (f : Ctx → Ctx) : (s.updCtx n k f).domains = s.domains := rfl
@[simp] theorem State.updCtx_lodge (s : State) (n k : Nat) (f : Ctx → Ctx) : (s.updCtx n k f).lodge = s.lodge := rfl
@[simp] theorem State.updCtx_mcs (s : State) (n k : Nat) (f : Ctx → Ctx) : (s.updCtx n k f).mcs = s.mcs := rfl
@[simp] theorem State.updCtx_ports (s : State) (n k : Nat) (f : Ctx → Ctx) : (s.updCtx n k f).ports = s.ports := rfl
@[simp] theorem State.updCtx_records (s : State) (n k : Nat) (f : Ctx → Ctx) : (s.updCtx n k f).records = s.records := rfl
@[simp] theorem State.updCtx_farEnds (s : State) (n k : Nat) (f : Ctx → Ctx) : (s.updCtx n k f).farEnds = s.farEnds := rfl
@[simp] theorem State.updCtx_syncs (s : State) (n k : Nat) (f : Ctx → Ctx) : (s.updCtx n k f).syncs = s.syncs := rfl
@[simp] theorem State.updCtx_results (s : State) (n k : Nat) (f : Ctx → Ctx) : (s.updCtx n k f).results = s.results := rfl
@[simp] theorem State.updCtx_replies (s : State) (n k : Nat) (f : Ctx → Ctx) : (s.updCtx n k f).replies = s.replies := rfl
@[simp] theorem State.updCtx_jobs (s : State) (n k : Nat) (f : Ctx → Ctx) : (s.updCtx n k f).jobs = s.jobs := rfl
@[simp] theorem State.updCtx_gangs (s : State) (n k : Nat) (f : Ctx → Ctx) : (s.updCtx n k f).gangs = s.gangs := rfl
@[simp] theorem State.updCtx_graphs (s : State) (n k : Nat) (f : Ctx → Ctx) : (s.updCtx n k f).graphs = s.graphs := rfl
@[simp] theorem State.updCtx_ready (s : State) (n k : Nat) (f : Ctx → Ctx) : (s.updCtx n k f).ready = s.ready := rfl
@[simp] theorem State.updCtx_retries (s : State) (n k : Nat) (f : Ctx → Ctx) : (s.updCtx n k f).retries = s.retries := rfl
@[simp] theorem State.updCtx_keptExits (s : State) (n k : Nat) (f : Ctx → Ctx) : (s.updCtx n k f).keptExits = s.keptExits := rfl
@[simp] theorem State.updCtx_stages (s : State) (n k : Nat) (f : Ctx → Ctx) : (s.updCtx n k f).stages = s.stages := rfl
@[simp] theorem State.updCtx_monitors (s : State) (n k : Nat) (f : Ctx → Ctx) : (s.updCtx n k f).monitors = s.monitors := rfl
@[simp] theorem State.updCtx_saved (s : State) (n k : Nat) (f : Ctx → Ctx) : (s.updCtx n k f).saved = s.saved := rfl
@[simp] theorem State.updCtx_hits (s : State) (n k : Nat) (f : Ctx → Ctx) : (s.updCtx n k f).hits = s.hits := rfl
@[simp] theorem State.updCtx_hostLines (s : State) (n k : Nat) (f : Ctx → Ctx) : (s.updCtx n k f).hostLines = s.hostLines := rfl
@[simp] theorem State.updCtx_hostTags (s : State) (n k : Nat) (f : Ctx → Ctx) : (s.updCtx n k f).hostTags = s.hostTags := rfl
@[simp] theorem State.updCtx_snoops (s : State) (n k : Nat) (f : Ctx → Ctx) : (s.updCtx n k f).snoops = s.snoops := rfl
@[simp] theorem State.updCtx_exposed (s : State) (n k : Nat) (f : Ctx → Ctx) : (s.updCtx n k f).exposed = s.exposed := rfl
@[simp] theorem State.updCtx_hostHeld (s : State) (n k : Nat) (f : Ctx → Ctx) : (s.updCtx n k f).hostHeld = s.hostHeld := rfl
@[simp] theorem State.updCtx_backInv (s : State) (n k : Nat) (f : Ctx → Ctx) : (s.updCtx n k f).backInv = s.backInv := rfl
@[simp] theorem State.updCtx_peerWaiting (s : State) (n k : Nat) (f : Ctx → Ctx) : (s.updCtx n k f).peerWaiting = s.peerWaiting := rfl
@[simp] theorem State.updCtx_links (s : State) (n k : Nat) (f : Ctx → Ctx) : (s.updCtx n k f).links = s.links := rfl
@[simp] theorem State.updCtx_txs (s : State) (n k : Nat) (f : Ctx → Ctx) : (s.updCtx n k f).txs = s.txs := rfl
@[simp] theorem State.updCtx_integrity (s : State) (n k : Nat) (f : Ctx → Ctx) : (s.updCtx n k f).integrity = s.integrity := rfl

@[simp] theorem State.updMe_inputs (s : State) (f : Core → Core) : (s.updMe f).inputs = s.inputs := rfl
@[simp] theorem State.updMe_calendar (s : State) (f : Core → Core) : (s.updMe f).calendar = s.calendar := rfl
@[simp] theorem State.updMe_due (s : State) (f : Core → Core) : (s.updMe f).due = s.due := rfl
@[simp] theorem State.updMe_todo (s : State) (f : Core → Core) : (s.updMe f).todo = s.todo := rfl
@[simp] theorem State.updMe_core (s : State) (f : Core → Core) : (s.updMe f).core = s.core := rfl
@[simp] theorem State.updMe_ir (s : State) (f : Core → Core) : (s.updMe f).ir = s.ir := rfl
@[simp] theorem State.updMe_irIxtin (s : State) (f : Core → Core) : (s.updMe f).irIxtin = s.irIxtin := rfl
@[simp] theorem State.updMe_fresh (s : State) (f : Core → Core) : (s.updMe f).fresh = s.fresh := rfl
@[simp] theorem State.updMe_ids (s : State) (f : Core → Core) : (s.updMe f).ids = s.ids := rfl
@[simp] theorem State.updMe_out (s : State) (f : Core → Core) : (s.updMe f).out = s.out := rfl
@[simp] theorem State.updMe_waiting (s : State) (f : Core → Core) : (s.updMe f).waiting = s.waiting := rfl
@[simp] theorem State.updMe_cyc (s : State) (f : Core → Core) : (s.updMe f).cyc = s.cyc := rfl
@[simp] theorem State.updMe_arbors (s : State) (f : Core → Core) : (s.updMe f).arbors = s.arbors := rfl
@[simp] theorem State.updMe_mem (s : State) (f : Core → Core) : (s.updMe f).mem = s.mem := rfl
@[simp] theorem State.updMe_late (s : State) (f : Core → Core) : (s.updMe f).late = s.late := rfl
@[simp] theorem State.updMe_past (s : State) (f : Core → Core) : (s.updMe f).past = s.past := rfl
@[simp] theorem State.updMe_domains (s : State) (f : Core → Core) : (s.updMe f).domains = s.domains := rfl
@[simp] theorem State.updMe_lodge (s : State) (f : Core → Core) : (s.updMe f).lodge = s.lodge := rfl
@[simp] theorem State.updMe_mcs (s : State) (f : Core → Core) : (s.updMe f).mcs = s.mcs := rfl
@[simp] theorem State.updMe_ports (s : State) (f : Core → Core) : (s.updMe f).ports = s.ports := rfl
@[simp] theorem State.updMe_records (s : State) (f : Core → Core) : (s.updMe f).records = s.records := rfl
@[simp] theorem State.updMe_farEnds (s : State) (f : Core → Core) : (s.updMe f).farEnds = s.farEnds := rfl
@[simp] theorem State.updMe_syncs (s : State) (f : Core → Core) : (s.updMe f).syncs = s.syncs := rfl
@[simp] theorem State.updMe_results (s : State) (f : Core → Core) : (s.updMe f).results = s.results := rfl
@[simp] theorem State.updMe_replies (s : State) (f : Core → Core) : (s.updMe f).replies = s.replies := rfl
@[simp] theorem State.updMe_jobs (s : State) (f : Core → Core) : (s.updMe f).jobs = s.jobs := rfl
@[simp] theorem State.updMe_gangs (s : State) (f : Core → Core) : (s.updMe f).gangs = s.gangs := rfl
@[simp] theorem State.updMe_graphs (s : State) (f : Core → Core) : (s.updMe f).graphs = s.graphs := rfl
@[simp] theorem State.updMe_ready (s : State) (f : Core → Core) : (s.updMe f).ready = s.ready := rfl
@[simp] theorem State.updMe_retries (s : State) (f : Core → Core) : (s.updMe f).retries = s.retries := rfl
@[simp] theorem State.updMe_keptExits (s : State) (f : Core → Core) : (s.updMe f).keptExits = s.keptExits := rfl
@[simp] theorem State.updMe_stages (s : State) (f : Core → Core) : (s.updMe f).stages = s.stages := rfl
@[simp] theorem State.updMe_monitors (s : State) (f : Core → Core) : (s.updMe f).monitors = s.monitors := rfl
@[simp] theorem State.updMe_saved (s : State) (f : Core → Core) : (s.updMe f).saved = s.saved := rfl
@[simp] theorem State.updMe_hits (s : State) (f : Core → Core) : (s.updMe f).hits = s.hits := rfl
@[simp] theorem State.updMe_hostLines (s : State) (f : Core → Core) : (s.updMe f).hostLines = s.hostLines := rfl
@[simp] theorem State.updMe_hostTags (s : State) (f : Core → Core) : (s.updMe f).hostTags = s.hostTags := rfl
@[simp] theorem State.updMe_snoops (s : State) (f : Core → Core) : (s.updMe f).snoops = s.snoops := rfl
@[simp] theorem State.updMe_exposed (s : State) (f : Core → Core) : (s.updMe f).exposed = s.exposed := rfl
@[simp] theorem State.updMe_hostHeld (s : State) (f : Core → Core) : (s.updMe f).hostHeld = s.hostHeld := rfl
@[simp] theorem State.updMe_backInv (s : State) (f : Core → Core) : (s.updMe f).backInv = s.backInv := rfl
@[simp] theorem State.updMe_peerWaiting (s : State) (f : Core → Core) : (s.updMe f).peerWaiting = s.peerWaiting := rfl
@[simp] theorem State.updMe_links (s : State) (f : Core → Core) : (s.updMe f).links = s.links := rfl
@[simp] theorem State.updMe_txs (s : State) (f : Core → Core) : (s.updMe f).txs = s.txs := rfl
@[simp] theorem State.updMe_integrity (s : State) (f : Core → Core) : (s.updMe f).integrity = s.integrity := rfl

@[simp] theorem State.updCx_inputs (s : State) (f : Ctx → Ctx) : (s.updCx f).inputs = s.inputs := rfl
@[simp] theorem State.updCx_calendar (s : State) (f : Ctx → Ctx) : (s.updCx f).calendar = s.calendar := rfl
@[simp] theorem State.updCx_due (s : State) (f : Ctx → Ctx) : (s.updCx f).due = s.due := rfl
@[simp] theorem State.updCx_todo (s : State) (f : Ctx → Ctx) : (s.updCx f).todo = s.todo := rfl
@[simp] theorem State.updCx_core (s : State) (f : Ctx → Ctx) : (s.updCx f).core = s.core := rfl
@[simp] theorem State.updCx_ir (s : State) (f : Ctx → Ctx) : (s.updCx f).ir = s.ir := rfl
@[simp] theorem State.updCx_irIxtin (s : State) (f : Ctx → Ctx) : (s.updCx f).irIxtin = s.irIxtin := rfl
@[simp] theorem State.updCx_fresh (s : State) (f : Ctx → Ctx) : (s.updCx f).fresh = s.fresh := rfl
@[simp] theorem State.updCx_ids (s : State) (f : Ctx → Ctx) : (s.updCx f).ids = s.ids := rfl
@[simp] theorem State.updCx_out (s : State) (f : Ctx → Ctx) : (s.updCx f).out = s.out := rfl
@[simp] theorem State.updCx_waiting (s : State) (f : Ctx → Ctx) : (s.updCx f).waiting = s.waiting := rfl
@[simp] theorem State.updCx_cyc (s : State) (f : Ctx → Ctx) : (s.updCx f).cyc = s.cyc := rfl
@[simp] theorem State.updCx_arbors (s : State) (f : Ctx → Ctx) : (s.updCx f).arbors = s.arbors := rfl
@[simp] theorem State.updCx_mem (s : State) (f : Ctx → Ctx) : (s.updCx f).mem = s.mem := rfl
@[simp] theorem State.updCx_late (s : State) (f : Ctx → Ctx) : (s.updCx f).late = s.late := rfl
@[simp] theorem State.updCx_past (s : State) (f : Ctx → Ctx) : (s.updCx f).past = s.past := rfl
@[simp] theorem State.updCx_domains (s : State) (f : Ctx → Ctx) : (s.updCx f).domains = s.domains := rfl
@[simp] theorem State.updCx_lodge (s : State) (f : Ctx → Ctx) : (s.updCx f).lodge = s.lodge := rfl
@[simp] theorem State.updCx_mcs (s : State) (f : Ctx → Ctx) : (s.updCx f).mcs = s.mcs := rfl
@[simp] theorem State.updCx_ports (s : State) (f : Ctx → Ctx) : (s.updCx f).ports = s.ports := rfl
@[simp] theorem State.updCx_records (s : State) (f : Ctx → Ctx) : (s.updCx f).records = s.records := rfl
@[simp] theorem State.updCx_farEnds (s : State) (f : Ctx → Ctx) : (s.updCx f).farEnds = s.farEnds := rfl
@[simp] theorem State.updCx_syncs (s : State) (f : Ctx → Ctx) : (s.updCx f).syncs = s.syncs := rfl
@[simp] theorem State.updCx_results (s : State) (f : Ctx → Ctx) : (s.updCx f).results = s.results := rfl
@[simp] theorem State.updCx_replies (s : State) (f : Ctx → Ctx) : (s.updCx f).replies = s.replies := rfl
@[simp] theorem State.updCx_jobs (s : State) (f : Ctx → Ctx) : (s.updCx f).jobs = s.jobs := rfl
@[simp] theorem State.updCx_gangs (s : State) (f : Ctx → Ctx) : (s.updCx f).gangs = s.gangs := rfl
@[simp] theorem State.updCx_graphs (s : State) (f : Ctx → Ctx) : (s.updCx f).graphs = s.graphs := rfl
@[simp] theorem State.updCx_ready (s : State) (f : Ctx → Ctx) : (s.updCx f).ready = s.ready := rfl
@[simp] theorem State.updCx_retries (s : State) (f : Ctx → Ctx) : (s.updCx f).retries = s.retries := rfl
@[simp] theorem State.updCx_keptExits (s : State) (f : Ctx → Ctx) : (s.updCx f).keptExits = s.keptExits := rfl
@[simp] theorem State.updCx_stages (s : State) (f : Ctx → Ctx) : (s.updCx f).stages = s.stages := rfl
@[simp] theorem State.updCx_monitors (s : State) (f : Ctx → Ctx) : (s.updCx f).monitors = s.monitors := rfl
@[simp] theorem State.updCx_saved (s : State) (f : Ctx → Ctx) : (s.updCx f).saved = s.saved := rfl
@[simp] theorem State.updCx_hits (s : State) (f : Ctx → Ctx) : (s.updCx f).hits = s.hits := rfl
@[simp] theorem State.updCx_hostLines (s : State) (f : Ctx → Ctx) : (s.updCx f).hostLines = s.hostLines := rfl
@[simp] theorem State.updCx_hostTags (s : State) (f : Ctx → Ctx) : (s.updCx f).hostTags = s.hostTags := rfl
@[simp] theorem State.updCx_snoops (s : State) (f : Ctx → Ctx) : (s.updCx f).snoops = s.snoops := rfl
@[simp] theorem State.updCx_exposed (s : State) (f : Ctx → Ctx) : (s.updCx f).exposed = s.exposed := rfl
@[simp] theorem State.updCx_hostHeld (s : State) (f : Ctx → Ctx) : (s.updCx f).hostHeld = s.hostHeld := rfl
@[simp] theorem State.updCx_backInv (s : State) (f : Ctx → Ctx) : (s.updCx f).backInv = s.backInv := rfl
@[simp] theorem State.updCx_peerWaiting (s : State) (f : Ctx → Ctx) : (s.updCx f).peerWaiting = s.peerWaiting := rfl
@[simp] theorem State.updCx_links (s : State) (f : Ctx → Ctx) : (s.updCx f).links = s.links := rfl
@[simp] theorem State.updCx_txs (s : State) (f : Ctx → Ctx) : (s.updCx f).txs = s.txs := rfl
@[simp] theorem State.updCx_integrity (s : State) (f : Ctx → Ctx) : (s.updCx f).integrity = s.integrity := rfl

@[simp] theorem State.updProc_inputs (s : State) (n : Nat) (f : Proc → Proc) : (s.updProc n f).inputs = s.inputs := rfl
@[simp] theorem State.updProc_calendar (s : State) (n : Nat) (f : Proc → Proc) : (s.updProc n f).calendar = s.calendar := rfl
@[simp] theorem State.updProc_due (s : State) (n : Nat) (f : Proc → Proc) : (s.updProc n f).due = s.due := rfl
@[simp] theorem State.updProc_todo (s : State) (n : Nat) (f : Proc → Proc) : (s.updProc n f).todo = s.todo := rfl
@[simp] theorem State.updProc_core (s : State) (n : Nat) (f : Proc → Proc) : (s.updProc n f).core = s.core := rfl
@[simp] theorem State.updProc_ir (s : State) (n : Nat) (f : Proc → Proc) : (s.updProc n f).ir = s.ir := rfl
@[simp] theorem State.updProc_irIxtin (s : State) (n : Nat) (f : Proc → Proc) : (s.updProc n f).irIxtin = s.irIxtin := rfl
@[simp] theorem State.updProc_fresh (s : State) (n : Nat) (f : Proc → Proc) : (s.updProc n f).fresh = s.fresh := rfl
@[simp] theorem State.updProc_ids (s : State) (n : Nat) (f : Proc → Proc) : (s.updProc n f).ids = s.ids := rfl
@[simp] theorem State.updProc_out (s : State) (n : Nat) (f : Proc → Proc) : (s.updProc n f).out = s.out := rfl
@[simp] theorem State.updProc_waiting (s : State) (n : Nat) (f : Proc → Proc) : (s.updProc n f).waiting = s.waiting := rfl
@[simp] theorem State.updProc_cyc (s : State) (n : Nat) (f : Proc → Proc) : (s.updProc n f).cyc = s.cyc := rfl
@[simp] theorem State.updProc_arbors (s : State) (n : Nat) (f : Proc → Proc) : (s.updProc n f).arbors = s.arbors := rfl
@[simp] theorem State.updProc_mem (s : State) (n : Nat) (f : Proc → Proc) : (s.updProc n f).mem = s.mem := rfl
@[simp] theorem State.updProc_late (s : State) (n : Nat) (f : Proc → Proc) : (s.updProc n f).late = s.late := rfl
@[simp] theorem State.updProc_past (s : State) (n : Nat) (f : Proc → Proc) : (s.updProc n f).past = s.past := rfl
@[simp] theorem State.updProc_domains (s : State) (n : Nat) (f : Proc → Proc) : (s.updProc n f).domains = s.domains := rfl
@[simp] theorem State.updProc_lodge (s : State) (n : Nat) (f : Proc → Proc) : (s.updProc n f).lodge = s.lodge := rfl
@[simp] theorem State.updProc_mcs (s : State) (n : Nat) (f : Proc → Proc) : (s.updProc n f).mcs = s.mcs := rfl
@[simp] theorem State.updProc_ports (s : State) (n : Nat) (f : Proc → Proc) : (s.updProc n f).ports = s.ports := rfl
@[simp] theorem State.updProc_records (s : State) (n : Nat) (f : Proc → Proc) : (s.updProc n f).records = s.records := rfl
@[simp] theorem State.updProc_farEnds (s : State) (n : Nat) (f : Proc → Proc) : (s.updProc n f).farEnds = s.farEnds := rfl
@[simp] theorem State.updProc_syncs (s : State) (n : Nat) (f : Proc → Proc) : (s.updProc n f).syncs = s.syncs := rfl
@[simp] theorem State.updProc_results (s : State) (n : Nat) (f : Proc → Proc) : (s.updProc n f).results = s.results := rfl
@[simp] theorem State.updProc_replies (s : State) (n : Nat) (f : Proc → Proc) : (s.updProc n f).replies = s.replies := rfl
@[simp] theorem State.updProc_jobs (s : State) (n : Nat) (f : Proc → Proc) : (s.updProc n f).jobs = s.jobs := rfl
@[simp] theorem State.updProc_gangs (s : State) (n : Nat) (f : Proc → Proc) : (s.updProc n f).gangs = s.gangs := rfl
@[simp] theorem State.updProc_graphs (s : State) (n : Nat) (f : Proc → Proc) : (s.updProc n f).graphs = s.graphs := rfl
@[simp] theorem State.updProc_ready (s : State) (n : Nat) (f : Proc → Proc) : (s.updProc n f).ready = s.ready := rfl
@[simp] theorem State.updProc_retries (s : State) (n : Nat) (f : Proc → Proc) : (s.updProc n f).retries = s.retries := rfl
@[simp] theorem State.updProc_keptExits (s : State) (n : Nat) (f : Proc → Proc) : (s.updProc n f).keptExits = s.keptExits := rfl
@[simp] theorem State.updProc_stages (s : State) (n : Nat) (f : Proc → Proc) : (s.updProc n f).stages = s.stages := rfl
@[simp] theorem State.updProc_monitors (s : State) (n : Nat) (f : Proc → Proc) : (s.updProc n f).monitors = s.monitors := rfl
@[simp] theorem State.updProc_saved (s : State) (n : Nat) (f : Proc → Proc) : (s.updProc n f).saved = s.saved := rfl
@[simp] theorem State.updProc_hits (s : State) (n : Nat) (f : Proc → Proc) : (s.updProc n f).hits = s.hits := rfl
@[simp] theorem State.updProc_hostLines (s : State) (n : Nat) (f : Proc → Proc) : (s.updProc n f).hostLines = s.hostLines := rfl
@[simp] theorem State.updProc_hostTags (s : State) (n : Nat) (f : Proc → Proc) : (s.updProc n f).hostTags = s.hostTags := rfl
@[simp] theorem State.updProc_snoops (s : State) (n : Nat) (f : Proc → Proc) : (s.updProc n f).snoops = s.snoops := rfl
@[simp] theorem State.updProc_exposed (s : State) (n : Nat) (f : Proc → Proc) : (s.updProc n f).exposed = s.exposed := rfl
@[simp] theorem State.updProc_hostHeld (s : State) (n : Nat) (f : Proc → Proc) : (s.updProc n f).hostHeld = s.hostHeld := rfl
@[simp] theorem State.updProc_backInv (s : State) (n : Nat) (f : Proc → Proc) : (s.updProc n f).backInv = s.backInv := rfl
@[simp] theorem State.updProc_peerWaiting (s : State) (n : Nat) (f : Proc → Proc) : (s.updProc n f).peerWaiting = s.peerWaiting := rfl
@[simp] theorem State.updProc_links (s : State) (n : Nat) (f : Proc → Proc) : (s.updProc n f).links = s.links := rfl
@[simp] theorem State.updProc_txs (s : State) (n : Nat) (f : Proc → Proc) : (s.updProc n f).txs = s.txs := rfl
@[simp] theorem State.updProc_integrity (s : State) (n : Nat) (f : Proc → Proc) : (s.updProc n f).integrity = s.integrity := rfl

@[simp] theorem State.updDomain_inputs (s : State) (d : BitVec 11) (f : Domain → Domain) : (s.updDomain d f).inputs = s.inputs := rfl
@[simp] theorem State.updDomain_calendar (s : State) (d : BitVec 11) (f : Domain → Domain) : (s.updDomain d f).calendar = s.calendar := rfl
@[simp] theorem State.updDomain_due (s : State) (d : BitVec 11) (f : Domain → Domain) : (s.updDomain d f).due = s.due := rfl
@[simp] theorem State.updDomain_todo (s : State) (d : BitVec 11) (f : Domain → Domain) : (s.updDomain d f).todo = s.todo := rfl
@[simp] theorem State.updDomain_core (s : State) (d : BitVec 11) (f : Domain → Domain) : (s.updDomain d f).core = s.core := rfl
@[simp] theorem State.updDomain_ir (s : State) (d : BitVec 11) (f : Domain → Domain) : (s.updDomain d f).ir = s.ir := rfl
@[simp] theorem State.updDomain_irIxtin (s : State) (d : BitVec 11) (f : Domain → Domain) : (s.updDomain d f).irIxtin = s.irIxtin := rfl
@[simp] theorem State.updDomain_fresh (s : State) (d : BitVec 11) (f : Domain → Domain) : (s.updDomain d f).fresh = s.fresh := rfl
@[simp] theorem State.updDomain_ids (s : State) (d : BitVec 11) (f : Domain → Domain) : (s.updDomain d f).ids = s.ids := rfl
@[simp] theorem State.updDomain_out (s : State) (d : BitVec 11) (f : Domain → Domain) : (s.updDomain d f).out = s.out := rfl
@[simp] theorem State.updDomain_waiting (s : State) (d : BitVec 11) (f : Domain → Domain) : (s.updDomain d f).waiting = s.waiting := rfl
@[simp] theorem State.updDomain_cyc (s : State) (d : BitVec 11) (f : Domain → Domain) : (s.updDomain d f).cyc = s.cyc := rfl
@[simp] theorem State.updDomain_cores (s : State) (d : BitVec 11) (f : Domain → Domain) : (s.updDomain d f).cores = s.cores := rfl
@[simp] theorem State.updDomain_arbors (s : State) (d : BitVec 11) (f : Domain → Domain) : (s.updDomain d f).arbors = s.arbors := rfl
@[simp] theorem State.updDomain_mem (s : State) (d : BitVec 11) (f : Domain → Domain) : (s.updDomain d f).mem = s.mem := rfl
@[simp] theorem State.updDomain_late (s : State) (d : BitVec 11) (f : Domain → Domain) : (s.updDomain d f).late = s.late := rfl
@[simp] theorem State.updDomain_past (s : State) (d : BitVec 11) (f : Domain → Domain) : (s.updDomain d f).past = s.past := rfl
@[simp] theorem State.updDomain_lodge (s : State) (d : BitVec 11) (f : Domain → Domain) : (s.updDomain d f).lodge = s.lodge := rfl
@[simp] theorem State.updDomain_mcs (s : State) (d : BitVec 11) (f : Domain → Domain) : (s.updDomain d f).mcs = s.mcs := rfl
@[simp] theorem State.updDomain_ports (s : State) (d : BitVec 11) (f : Domain → Domain) : (s.updDomain d f).ports = s.ports := rfl
@[simp] theorem State.updDomain_records (s : State) (d : BitVec 11) (f : Domain → Domain) : (s.updDomain d f).records = s.records := rfl
@[simp] theorem State.updDomain_farEnds (s : State) (d : BitVec 11) (f : Domain → Domain) : (s.updDomain d f).farEnds = s.farEnds := rfl
@[simp] theorem State.updDomain_syncs (s : State) (d : BitVec 11) (f : Domain → Domain) : (s.updDomain d f).syncs = s.syncs := rfl
@[simp] theorem State.updDomain_results (s : State) (d : BitVec 11) (f : Domain → Domain) : (s.updDomain d f).results = s.results := rfl
@[simp] theorem State.updDomain_replies (s : State) (d : BitVec 11) (f : Domain → Domain) : (s.updDomain d f).replies = s.replies := rfl
@[simp] theorem State.updDomain_jobs (s : State) (d : BitVec 11) (f : Domain → Domain) : (s.updDomain d f).jobs = s.jobs := rfl
@[simp] theorem State.updDomain_gangs (s : State) (d : BitVec 11) (f : Domain → Domain) : (s.updDomain d f).gangs = s.gangs := rfl
@[simp] theorem State.updDomain_graphs (s : State) (d : BitVec 11) (f : Domain → Domain) : (s.updDomain d f).graphs = s.graphs := rfl
@[simp] theorem State.updDomain_ready (s : State) (d : BitVec 11) (f : Domain → Domain) : (s.updDomain d f).ready = s.ready := rfl
@[simp] theorem State.updDomain_retries (s : State) (d : BitVec 11) (f : Domain → Domain) : (s.updDomain d f).retries = s.retries := rfl
@[simp] theorem State.updDomain_keptExits (s : State) (d : BitVec 11) (f : Domain → Domain) : (s.updDomain d f).keptExits = s.keptExits := rfl
@[simp] theorem State.updDomain_stages (s : State) (d : BitVec 11) (f : Domain → Domain) : (s.updDomain d f).stages = s.stages := rfl
@[simp] theorem State.updDomain_monitors (s : State) (d : BitVec 11) (f : Domain → Domain) : (s.updDomain d f).monitors = s.monitors := rfl
@[simp] theorem State.updDomain_saved (s : State) (d : BitVec 11) (f : Domain → Domain) : (s.updDomain d f).saved = s.saved := rfl
@[simp] theorem State.updDomain_hits (s : State) (d : BitVec 11) (f : Domain → Domain) : (s.updDomain d f).hits = s.hits := rfl
@[simp] theorem State.updDomain_hostLines (s : State) (d : BitVec 11) (f : Domain → Domain) : (s.updDomain d f).hostLines = s.hostLines := rfl
@[simp] theorem State.updDomain_hostTags (s : State) (d : BitVec 11) (f : Domain → Domain) : (s.updDomain d f).hostTags = s.hostTags := rfl
@[simp] theorem State.updDomain_snoops (s : State) (d : BitVec 11) (f : Domain → Domain) : (s.updDomain d f).snoops = s.snoops := rfl
@[simp] theorem State.updDomain_exposed (s : State) (d : BitVec 11) (f : Domain → Domain) : (s.updDomain d f).exposed = s.exposed := rfl
@[simp] theorem State.updDomain_hostHeld (s : State) (d : BitVec 11) (f : Domain → Domain) : (s.updDomain d f).hostHeld = s.hostHeld := rfl
@[simp] theorem State.updDomain_backInv (s : State) (d : BitVec 11) (f : Domain → Domain) : (s.updDomain d f).backInv = s.backInv := rfl
@[simp] theorem State.updDomain_peerWaiting (s : State) (d : BitVec 11) (f : Domain → Domain) : (s.updDomain d f).peerWaiting = s.peerWaiting := rfl
@[simp] theorem State.updDomain_links (s : State) (d : BitVec 11) (f : Domain → Domain) : (s.updDomain d f).links = s.links := rfl
@[simp] theorem State.updDomain_txs (s : State) (d : BitVec 11) (f : Domain → Domain) : (s.updDomain d f).txs = s.txs := rfl
@[simp] theorem State.updDomain_integrity (s : State) (d : BitVec 11) (f : Domain → Domain) : (s.updDomain d f).integrity = s.integrity := rfl

@[simp] theorem State.updArbor_inputs (s : State) (a : Nat) (f : Arbor → Arbor) : (s.updArbor a f).inputs = s.inputs := rfl
@[simp] theorem State.updArbor_calendar (s : State) (a : Nat) (f : Arbor → Arbor) : (s.updArbor a f).calendar = s.calendar := rfl
@[simp] theorem State.updArbor_due (s : State) (a : Nat) (f : Arbor → Arbor) : (s.updArbor a f).due = s.due := rfl
@[simp] theorem State.updArbor_todo (s : State) (a : Nat) (f : Arbor → Arbor) : (s.updArbor a f).todo = s.todo := rfl
@[simp] theorem State.updArbor_core (s : State) (a : Nat) (f : Arbor → Arbor) : (s.updArbor a f).core = s.core := rfl
@[simp] theorem State.updArbor_ir (s : State) (a : Nat) (f : Arbor → Arbor) : (s.updArbor a f).ir = s.ir := rfl
@[simp] theorem State.updArbor_irIxtin (s : State) (a : Nat) (f : Arbor → Arbor) : (s.updArbor a f).irIxtin = s.irIxtin := rfl
@[simp] theorem State.updArbor_fresh (s : State) (a : Nat) (f : Arbor → Arbor) : (s.updArbor a f).fresh = s.fresh := rfl
@[simp] theorem State.updArbor_ids (s : State) (a : Nat) (f : Arbor → Arbor) : (s.updArbor a f).ids = s.ids := rfl
@[simp] theorem State.updArbor_out (s : State) (a : Nat) (f : Arbor → Arbor) : (s.updArbor a f).out = s.out := rfl
@[simp] theorem State.updArbor_waiting (s : State) (a : Nat) (f : Arbor → Arbor) : (s.updArbor a f).waiting = s.waiting := rfl
@[simp] theorem State.updArbor_cyc (s : State) (a : Nat) (f : Arbor → Arbor) : (s.updArbor a f).cyc = s.cyc := rfl
@[simp] theorem State.updArbor_cores (s : State) (a : Nat) (f : Arbor → Arbor) : (s.updArbor a f).cores = s.cores := rfl
@[simp] theorem State.updArbor_mem (s : State) (a : Nat) (f : Arbor → Arbor) : (s.updArbor a f).mem = s.mem := rfl
@[simp] theorem State.updArbor_late (s : State) (a : Nat) (f : Arbor → Arbor) : (s.updArbor a f).late = s.late := rfl
@[simp] theorem State.updArbor_past (s : State) (a : Nat) (f : Arbor → Arbor) : (s.updArbor a f).past = s.past := rfl
@[simp] theorem State.updArbor_domains (s : State) (a : Nat) (f : Arbor → Arbor) : (s.updArbor a f).domains = s.domains := rfl
@[simp] theorem State.updArbor_lodge (s : State) (a : Nat) (f : Arbor → Arbor) : (s.updArbor a f).lodge = s.lodge := rfl
@[simp] theorem State.updArbor_mcs (s : State) (a : Nat) (f : Arbor → Arbor) : (s.updArbor a f).mcs = s.mcs := rfl
@[simp] theorem State.updArbor_ports (s : State) (a : Nat) (f : Arbor → Arbor) : (s.updArbor a f).ports = s.ports := rfl
@[simp] theorem State.updArbor_records (s : State) (a : Nat) (f : Arbor → Arbor) : (s.updArbor a f).records = s.records := rfl
@[simp] theorem State.updArbor_farEnds (s : State) (a : Nat) (f : Arbor → Arbor) : (s.updArbor a f).farEnds = s.farEnds := rfl
@[simp] theorem State.updArbor_syncs (s : State) (a : Nat) (f : Arbor → Arbor) : (s.updArbor a f).syncs = s.syncs := rfl
@[simp] theorem State.updArbor_results (s : State) (a : Nat) (f : Arbor → Arbor) : (s.updArbor a f).results = s.results := rfl
@[simp] theorem State.updArbor_replies (s : State) (a : Nat) (f : Arbor → Arbor) : (s.updArbor a f).replies = s.replies := rfl
@[simp] theorem State.updArbor_jobs (s : State) (a : Nat) (f : Arbor → Arbor) : (s.updArbor a f).jobs = s.jobs := rfl
@[simp] theorem State.updArbor_gangs (s : State) (a : Nat) (f : Arbor → Arbor) : (s.updArbor a f).gangs = s.gangs := rfl
@[simp] theorem State.updArbor_graphs (s : State) (a : Nat) (f : Arbor → Arbor) : (s.updArbor a f).graphs = s.graphs := rfl
@[simp] theorem State.updArbor_ready (s : State) (a : Nat) (f : Arbor → Arbor) : (s.updArbor a f).ready = s.ready := rfl
@[simp] theorem State.updArbor_retries (s : State) (a : Nat) (f : Arbor → Arbor) : (s.updArbor a f).retries = s.retries := rfl
@[simp] theorem State.updArbor_keptExits (s : State) (a : Nat) (f : Arbor → Arbor) : (s.updArbor a f).keptExits = s.keptExits := rfl
@[simp] theorem State.updArbor_stages (s : State) (a : Nat) (f : Arbor → Arbor) : (s.updArbor a f).stages = s.stages := rfl
@[simp] theorem State.updArbor_monitors (s : State) (a : Nat) (f : Arbor → Arbor) : (s.updArbor a f).monitors = s.monitors := rfl
@[simp] theorem State.updArbor_saved (s : State) (a : Nat) (f : Arbor → Arbor) : (s.updArbor a f).saved = s.saved := rfl
@[simp] theorem State.updArbor_hits (s : State) (a : Nat) (f : Arbor → Arbor) : (s.updArbor a f).hits = s.hits := rfl
@[simp] theorem State.updArbor_hostLines (s : State) (a : Nat) (f : Arbor → Arbor) : (s.updArbor a f).hostLines = s.hostLines := rfl
@[simp] theorem State.updArbor_hostTags (s : State) (a : Nat) (f : Arbor → Arbor) : (s.updArbor a f).hostTags = s.hostTags := rfl
@[simp] theorem State.updArbor_snoops (s : State) (a : Nat) (f : Arbor → Arbor) : (s.updArbor a f).snoops = s.snoops := rfl
@[simp] theorem State.updArbor_exposed (s : State) (a : Nat) (f : Arbor → Arbor) : (s.updArbor a f).exposed = s.exposed := rfl
@[simp] theorem State.updArbor_hostHeld (s : State) (a : Nat) (f : Arbor → Arbor) : (s.updArbor a f).hostHeld = s.hostHeld := rfl
@[simp] theorem State.updArbor_backInv (s : State) (a : Nat) (f : Arbor → Arbor) : (s.updArbor a f).backInv = s.backInv := rfl
@[simp] theorem State.updArbor_peerWaiting (s : State) (a : Nat) (f : Arbor → Arbor) : (s.updArbor a f).peerWaiting = s.peerWaiting := rfl
@[simp] theorem State.updArbor_links (s : State) (a : Nat) (f : Arbor → Arbor) : (s.updArbor a f).links = s.links := rfl
@[simp] theorem State.updArbor_txs (s : State) (a : Nat) (f : Arbor → Arbor) : (s.updArbor a f).txs = s.txs := rfl
@[simp] theorem State.updArbor_integrity (s : State) (a : Nat) (f : Arbor → Arbor) : (s.updArbor a f).integrity = s.integrity := rfl

@[simp] theorem State.updGang_inputs (s : State) (g : Nat) (f : Gang → Gang) : (s.updGang g f).inputs = s.inputs := by unfold State.updGang; split <;> rfl
@[simp] theorem State.updGang_calendar (s : State) (g : Nat) (f : Gang → Gang) : (s.updGang g f).calendar = s.calendar := by unfold State.updGang; split <;> rfl
@[simp] theorem State.updGang_due (s : State) (g : Nat) (f : Gang → Gang) : (s.updGang g f).due = s.due := by unfold State.updGang; split <;> rfl
@[simp] theorem State.updGang_todo (s : State) (g : Nat) (f : Gang → Gang) : (s.updGang g f).todo = s.todo := by unfold State.updGang; split <;> rfl
@[simp] theorem State.updGang_core (s : State) (g : Nat) (f : Gang → Gang) : (s.updGang g f).core = s.core := by unfold State.updGang; split <;> rfl
@[simp] theorem State.updGang_ir (s : State) (g : Nat) (f : Gang → Gang) : (s.updGang g f).ir = s.ir := by unfold State.updGang; split <;> rfl
@[simp] theorem State.updGang_irIxtin (s : State) (g : Nat) (f : Gang → Gang) : (s.updGang g f).irIxtin = s.irIxtin := by unfold State.updGang; split <;> rfl
@[simp] theorem State.updGang_fresh (s : State) (g : Nat) (f : Gang → Gang) : (s.updGang g f).fresh = s.fresh := by unfold State.updGang; split <;> rfl
@[simp] theorem State.updGang_ids (s : State) (g : Nat) (f : Gang → Gang) : (s.updGang g f).ids = s.ids := by unfold State.updGang; split <;> rfl
@[simp] theorem State.updGang_out (s : State) (g : Nat) (f : Gang → Gang) : (s.updGang g f).out = s.out := by unfold State.updGang; split <;> rfl
@[simp] theorem State.updGang_waiting (s : State) (g : Nat) (f : Gang → Gang) : (s.updGang g f).waiting = s.waiting := by unfold State.updGang; split <;> rfl
@[simp] theorem State.updGang_cyc (s : State) (g : Nat) (f : Gang → Gang) : (s.updGang g f).cyc = s.cyc := by unfold State.updGang; split <;> rfl
@[simp] theorem State.updGang_cores (s : State) (g : Nat) (f : Gang → Gang) : (s.updGang g f).cores = s.cores := by unfold State.updGang; split <;> rfl
@[simp] theorem State.updGang_arbors (s : State) (g : Nat) (f : Gang → Gang) : (s.updGang g f).arbors = s.arbors := by unfold State.updGang; split <;> rfl
@[simp] theorem State.updGang_mem (s : State) (g : Nat) (f : Gang → Gang) : (s.updGang g f).mem = s.mem := by unfold State.updGang; split <;> rfl
@[simp] theorem State.updGang_late (s : State) (g : Nat) (f : Gang → Gang) : (s.updGang g f).late = s.late := by unfold State.updGang; split <;> rfl
@[simp] theorem State.updGang_past (s : State) (g : Nat) (f : Gang → Gang) : (s.updGang g f).past = s.past := by unfold State.updGang; split <;> rfl
@[simp] theorem State.updGang_domains (s : State) (g : Nat) (f : Gang → Gang) : (s.updGang g f).domains = s.domains := by unfold State.updGang; split <;> rfl
@[simp] theorem State.updGang_lodge (s : State) (g : Nat) (f : Gang → Gang) : (s.updGang g f).lodge = s.lodge := by unfold State.updGang; split <;> rfl
@[simp] theorem State.updGang_mcs (s : State) (g : Nat) (f : Gang → Gang) : (s.updGang g f).mcs = s.mcs := by unfold State.updGang; split <;> rfl
@[simp] theorem State.updGang_ports (s : State) (g : Nat) (f : Gang → Gang) : (s.updGang g f).ports = s.ports := by unfold State.updGang; split <;> rfl
@[simp] theorem State.updGang_records (s : State) (g : Nat) (f : Gang → Gang) : (s.updGang g f).records = s.records := by unfold State.updGang; split <;> rfl
@[simp] theorem State.updGang_farEnds (s : State) (g : Nat) (f : Gang → Gang) : (s.updGang g f).farEnds = s.farEnds := by unfold State.updGang; split <;> rfl
@[simp] theorem State.updGang_syncs (s : State) (g : Nat) (f : Gang → Gang) : (s.updGang g f).syncs = s.syncs := by unfold State.updGang; split <;> rfl
@[simp] theorem State.updGang_results (s : State) (g : Nat) (f : Gang → Gang) : (s.updGang g f).results = s.results := by unfold State.updGang; split <;> rfl
@[simp] theorem State.updGang_replies (s : State) (g : Nat) (f : Gang → Gang) : (s.updGang g f).replies = s.replies := by unfold State.updGang; split <;> rfl
@[simp] theorem State.updGang_jobs (s : State) (g : Nat) (f : Gang → Gang) : (s.updGang g f).jobs = s.jobs := by unfold State.updGang; split <;> rfl
@[simp] theorem State.updGang_graphs (s : State) (g : Nat) (f : Gang → Gang) : (s.updGang g f).graphs = s.graphs := by unfold State.updGang; split <;> rfl
@[simp] theorem State.updGang_ready (s : State) (g : Nat) (f : Gang → Gang) : (s.updGang g f).ready = s.ready := by unfold State.updGang; split <;> rfl
@[simp] theorem State.updGang_retries (s : State) (g : Nat) (f : Gang → Gang) : (s.updGang g f).retries = s.retries := by unfold State.updGang; split <;> rfl
@[simp] theorem State.updGang_keptExits (s : State) (g : Nat) (f : Gang → Gang) : (s.updGang g f).keptExits = s.keptExits := by unfold State.updGang; split <;> rfl
@[simp] theorem State.updGang_stages (s : State) (g : Nat) (f : Gang → Gang) : (s.updGang g f).stages = s.stages := by unfold State.updGang; split <;> rfl
@[simp] theorem State.updGang_monitors (s : State) (g : Nat) (f : Gang → Gang) : (s.updGang g f).monitors = s.monitors := by unfold State.updGang; split <;> rfl
@[simp] theorem State.updGang_saved (s : State) (g : Nat) (f : Gang → Gang) : (s.updGang g f).saved = s.saved := by unfold State.updGang; split <;> rfl
@[simp] theorem State.updGang_hits (s : State) (g : Nat) (f : Gang → Gang) : (s.updGang g f).hits = s.hits := by unfold State.updGang; split <;> rfl
@[simp] theorem State.updGang_hostLines (s : State) (g : Nat) (f : Gang → Gang) : (s.updGang g f).hostLines = s.hostLines := by unfold State.updGang; split <;> rfl
@[simp] theorem State.updGang_hostTags (s : State) (g : Nat) (f : Gang → Gang) : (s.updGang g f).hostTags = s.hostTags := by unfold State.updGang; split <;> rfl
@[simp] theorem State.updGang_snoops (s : State) (g : Nat) (f : Gang → Gang) : (s.updGang g f).snoops = s.snoops := by unfold State.updGang; split <;> rfl
@[simp] theorem State.updGang_exposed (s : State) (g : Nat) (f : Gang → Gang) : (s.updGang g f).exposed = s.exposed := by unfold State.updGang; split <;> rfl
@[simp] theorem State.updGang_hostHeld (s : State) (g : Nat) (f : Gang → Gang) : (s.updGang g f).hostHeld = s.hostHeld := by unfold State.updGang; split <;> rfl
@[simp] theorem State.updGang_backInv (s : State) (g : Nat) (f : Gang → Gang) : (s.updGang g f).backInv = s.backInv := by unfold State.updGang; split <;> rfl
@[simp] theorem State.updGang_peerWaiting (s : State) (g : Nat) (f : Gang → Gang) : (s.updGang g f).peerWaiting = s.peerWaiting := by unfold State.updGang; split <;> rfl
@[simp] theorem State.updGang_links (s : State) (g : Nat) (f : Gang → Gang) : (s.updGang g f).links = s.links := by unfold State.updGang; split <;> rfl
@[simp] theorem State.updGang_txs (s : State) (g : Nat) (f : Gang → Gang) : (s.updGang g f).txs = s.txs := by unfold State.updGang; split <;> rfl
@[simp] theorem State.updGang_integrity (s : State) (g : Nat) (f : Gang → Gang) : (s.updGang g f).integrity = s.integrity := by unfold State.updGang; split <;> rfl

@[simp] theorem State.now_inputs (s : State) (i : Instr) : (s.now i).inputs = s.inputs := rfl
@[simp] theorem State.now_calendar (s : State) (i : Instr) : (s.now i).calendar = s.calendar := rfl
@[simp] theorem State.now_todo (s : State) (i : Instr) : (s.now i).todo = s.todo := rfl
@[simp] theorem State.now_core (s : State) (i : Instr) : (s.now i).core = s.core := rfl
@[simp] theorem State.now_ir (s : State) (i : Instr) : (s.now i).ir = s.ir := rfl
@[simp] theorem State.now_irIxtin (s : State) (i : Instr) : (s.now i).irIxtin = s.irIxtin := rfl
@[simp] theorem State.now_fresh (s : State) (i : Instr) : (s.now i).fresh = s.fresh := rfl
@[simp] theorem State.now_ids (s : State) (i : Instr) : (s.now i).ids = s.ids := rfl
@[simp] theorem State.now_out (s : State) (i : Instr) : (s.now i).out = s.out := rfl
@[simp] theorem State.now_waiting (s : State) (i : Instr) : (s.now i).waiting = s.waiting := rfl
@[simp] theorem State.now_cyc (s : State) (i : Instr) : (s.now i).cyc = s.cyc := rfl
@[simp] theorem State.now_cores (s : State) (i : Instr) : (s.now i).cores = s.cores := rfl
@[simp] theorem State.now_arbors (s : State) (i : Instr) : (s.now i).arbors = s.arbors := rfl
@[simp] theorem State.now_mem (s : State) (i : Instr) : (s.now i).mem = s.mem := rfl
@[simp] theorem State.now_late (s : State) (i : Instr) : (s.now i).late = s.late := rfl
@[simp] theorem State.now_past (s : State) (i : Instr) : (s.now i).past = s.past := rfl
@[simp] theorem State.now_domains (s : State) (i : Instr) : (s.now i).domains = s.domains := rfl
@[simp] theorem State.now_lodge (s : State) (i : Instr) : (s.now i).lodge = s.lodge := rfl
@[simp] theorem State.now_mcs (s : State) (i : Instr) : (s.now i).mcs = s.mcs := rfl
@[simp] theorem State.now_ports (s : State) (i : Instr) : (s.now i).ports = s.ports := rfl
@[simp] theorem State.now_records (s : State) (i : Instr) : (s.now i).records = s.records := rfl
@[simp] theorem State.now_farEnds (s : State) (i : Instr) : (s.now i).farEnds = s.farEnds := rfl
@[simp] theorem State.now_syncs (s : State) (i : Instr) : (s.now i).syncs = s.syncs := rfl
@[simp] theorem State.now_results (s : State) (i : Instr) : (s.now i).results = s.results := rfl
@[simp] theorem State.now_replies (s : State) (i : Instr) : (s.now i).replies = s.replies := rfl
@[simp] theorem State.now_jobs (s : State) (i : Instr) : (s.now i).jobs = s.jobs := rfl
@[simp] theorem State.now_gangs (s : State) (i : Instr) : (s.now i).gangs = s.gangs := rfl
@[simp] theorem State.now_graphs (s : State) (i : Instr) : (s.now i).graphs = s.graphs := rfl
@[simp] theorem State.now_ready (s : State) (i : Instr) : (s.now i).ready = s.ready := rfl
@[simp] theorem State.now_retries (s : State) (i : Instr) : (s.now i).retries = s.retries := rfl
@[simp] theorem State.now_keptExits (s : State) (i : Instr) : (s.now i).keptExits = s.keptExits := rfl
@[simp] theorem State.now_stages (s : State) (i : Instr) : (s.now i).stages = s.stages := rfl
@[simp] theorem State.now_monitors (s : State) (i : Instr) : (s.now i).monitors = s.monitors := rfl
@[simp] theorem State.now_saved (s : State) (i : Instr) : (s.now i).saved = s.saved := rfl
@[simp] theorem State.now_hits (s : State) (i : Instr) : (s.now i).hits = s.hits := rfl
@[simp] theorem State.now_hostLines (s : State) (i : Instr) : (s.now i).hostLines = s.hostLines := rfl
@[simp] theorem State.now_hostTags (s : State) (i : Instr) : (s.now i).hostTags = s.hostTags := rfl
@[simp] theorem State.now_snoops (s : State) (i : Instr) : (s.now i).snoops = s.snoops := rfl
@[simp] theorem State.now_exposed (s : State) (i : Instr) : (s.now i).exposed = s.exposed := rfl
@[simp] theorem State.now_hostHeld (s : State) (i : Instr) : (s.now i).hostHeld = s.hostHeld := rfl
@[simp] theorem State.now_backInv (s : State) (i : Instr) : (s.now i).backInv = s.backInv := rfl
@[simp] theorem State.now_peerWaiting (s : State) (i : Instr) : (s.now i).peerWaiting = s.peerWaiting := rfl
@[simp] theorem State.now_links (s : State) (i : Instr) : (s.now i).links = s.links := rfl
@[simp] theorem State.now_txs (s : State) (i : Instr) : (s.now i).txs = s.txs := rfl
@[simp] theorem State.now_integrity (s : State) (i : Instr) : (s.now i).integrity = s.integrity := rfl

@[simp] theorem State.atCycle_inputs (s : State) (t : Nat) (i : Instr) : (s.atCycle t i).inputs = s.inputs := rfl
@[simp] theorem State.atCycle_due (s : State) (t : Nat) (i : Instr) : (s.atCycle t i).due = s.due := rfl
@[simp] theorem State.atCycle_todo (s : State) (t : Nat) (i : Instr) : (s.atCycle t i).todo = s.todo := rfl
@[simp] theorem State.atCycle_core (s : State) (t : Nat) (i : Instr) : (s.atCycle t i).core = s.core := rfl
@[simp] theorem State.atCycle_ir (s : State) (t : Nat) (i : Instr) : (s.atCycle t i).ir = s.ir := rfl
@[simp] theorem State.atCycle_irIxtin (s : State) (t : Nat) (i : Instr) : (s.atCycle t i).irIxtin = s.irIxtin := rfl
@[simp] theorem State.atCycle_fresh (s : State) (t : Nat) (i : Instr) : (s.atCycle t i).fresh = s.fresh := rfl
@[simp] theorem State.atCycle_ids (s : State) (t : Nat) (i : Instr) : (s.atCycle t i).ids = s.ids := rfl
@[simp] theorem State.atCycle_out (s : State) (t : Nat) (i : Instr) : (s.atCycle t i).out = s.out := rfl
@[simp] theorem State.atCycle_waiting (s : State) (t : Nat) (i : Instr) : (s.atCycle t i).waiting = s.waiting := rfl
@[simp] theorem State.atCycle_cyc (s : State) (t : Nat) (i : Instr) : (s.atCycle t i).cyc = s.cyc := rfl
@[simp] theorem State.atCycle_cores (s : State) (t : Nat) (i : Instr) : (s.atCycle t i).cores = s.cores := rfl
@[simp] theorem State.atCycle_arbors (s : State) (t : Nat) (i : Instr) : (s.atCycle t i).arbors = s.arbors := rfl
@[simp] theorem State.atCycle_mem (s : State) (t : Nat) (i : Instr) : (s.atCycle t i).mem = s.mem := rfl
@[simp] theorem State.atCycle_late (s : State) (t : Nat) (i : Instr) : (s.atCycle t i).late = s.late := rfl
@[simp] theorem State.atCycle_past (s : State) (t : Nat) (i : Instr) : (s.atCycle t i).past = s.past := rfl
@[simp] theorem State.atCycle_domains (s : State) (t : Nat) (i : Instr) : (s.atCycle t i).domains = s.domains := rfl
@[simp] theorem State.atCycle_lodge (s : State) (t : Nat) (i : Instr) : (s.atCycle t i).lodge = s.lodge := rfl
@[simp] theorem State.atCycle_mcs (s : State) (t : Nat) (i : Instr) : (s.atCycle t i).mcs = s.mcs := rfl
@[simp] theorem State.atCycle_ports (s : State) (t : Nat) (i : Instr) : (s.atCycle t i).ports = s.ports := rfl
@[simp] theorem State.atCycle_records (s : State) (t : Nat) (i : Instr) : (s.atCycle t i).records = s.records := rfl
@[simp] theorem State.atCycle_farEnds (s : State) (t : Nat) (i : Instr) : (s.atCycle t i).farEnds = s.farEnds := rfl
@[simp] theorem State.atCycle_syncs (s : State) (t : Nat) (i : Instr) : (s.atCycle t i).syncs = s.syncs := rfl
@[simp] theorem State.atCycle_results (s : State) (t : Nat) (i : Instr) : (s.atCycle t i).results = s.results := rfl
@[simp] theorem State.atCycle_replies (s : State) (t : Nat) (i : Instr) : (s.atCycle t i).replies = s.replies := rfl
@[simp] theorem State.atCycle_jobs (s : State) (t : Nat) (i : Instr) : (s.atCycle t i).jobs = s.jobs := rfl
@[simp] theorem State.atCycle_gangs (s : State) (t : Nat) (i : Instr) : (s.atCycle t i).gangs = s.gangs := rfl
@[simp] theorem State.atCycle_graphs (s : State) (t : Nat) (i : Instr) : (s.atCycle t i).graphs = s.graphs := rfl
@[simp] theorem State.atCycle_ready (s : State) (t : Nat) (i : Instr) : (s.atCycle t i).ready = s.ready := rfl
@[simp] theorem State.atCycle_retries (s : State) (t : Nat) (i : Instr) : (s.atCycle t i).retries = s.retries := rfl
@[simp] theorem State.atCycle_keptExits (s : State) (t : Nat) (i : Instr) : (s.atCycle t i).keptExits = s.keptExits := rfl
@[simp] theorem State.atCycle_stages (s : State) (t : Nat) (i : Instr) : (s.atCycle t i).stages = s.stages := rfl
@[simp] theorem State.atCycle_monitors (s : State) (t : Nat) (i : Instr) : (s.atCycle t i).monitors = s.monitors := rfl
@[simp] theorem State.atCycle_saved (s : State) (t : Nat) (i : Instr) : (s.atCycle t i).saved = s.saved := rfl
@[simp] theorem State.atCycle_hits (s : State) (t : Nat) (i : Instr) : (s.atCycle t i).hits = s.hits := rfl
@[simp] theorem State.atCycle_hostLines (s : State) (t : Nat) (i : Instr) : (s.atCycle t i).hostLines = s.hostLines := rfl
@[simp] theorem State.atCycle_hostTags (s : State) (t : Nat) (i : Instr) : (s.atCycle t i).hostTags = s.hostTags := rfl
@[simp] theorem State.atCycle_snoops (s : State) (t : Nat) (i : Instr) : (s.atCycle t i).snoops = s.snoops := rfl
@[simp] theorem State.atCycle_exposed (s : State) (t : Nat) (i : Instr) : (s.atCycle t i).exposed = s.exposed := rfl
@[simp] theorem State.atCycle_hostHeld (s : State) (t : Nat) (i : Instr) : (s.atCycle t i).hostHeld = s.hostHeld := rfl
@[simp] theorem State.atCycle_backInv (s : State) (t : Nat) (i : Instr) : (s.atCycle t i).backInv = s.backInv := rfl
@[simp] theorem State.atCycle_peerWaiting (s : State) (t : Nat) (i : Instr) : (s.atCycle t i).peerWaiting = s.peerWaiting := rfl
@[simp] theorem State.atCycle_links (s : State) (t : Nat) (i : Instr) : (s.atCycle t i).links = s.links := rfl
@[simp] theorem State.atCycle_txs (s : State) (t : Nat) (i : Instr) : (s.atCycle t i).txs = s.txs := rfl
@[simp] theorem State.atCycle_integrity (s : State) (t : Nat) (i : Instr) : (s.atCycle t i).integrity = s.integrity := rfl

@[simp] theorem State.later_inputs (s : State) (i : Instr) : (s.later i).inputs = s.inputs := rfl
@[simp] theorem State.later_due (s : State) (i : Instr) : (s.later i).due = s.due := rfl
@[simp] theorem State.later_todo (s : State) (i : Instr) : (s.later i).todo = s.todo := rfl
@[simp] theorem State.later_core (s : State) (i : Instr) : (s.later i).core = s.core := rfl
@[simp] theorem State.later_ir (s : State) (i : Instr) : (s.later i).ir = s.ir := rfl
@[simp] theorem State.later_irIxtin (s : State) (i : Instr) : (s.later i).irIxtin = s.irIxtin := rfl
@[simp] theorem State.later_ids (s : State) (i : Instr) : (s.later i).ids = s.ids := rfl
@[simp] theorem State.later_out (s : State) (i : Instr) : (s.later i).out = s.out := rfl
@[simp] theorem State.later_waiting (s : State) (i : Instr) : (s.later i).waiting = s.waiting := rfl
@[simp] theorem State.later_cyc (s : State) (i : Instr) : (s.later i).cyc = s.cyc := rfl
@[simp] theorem State.later_cores (s : State) (i : Instr) : (s.later i).cores = s.cores := rfl
@[simp] theorem State.later_arbors (s : State) (i : Instr) : (s.later i).arbors = s.arbors := rfl
@[simp] theorem State.later_mem (s : State) (i : Instr) : (s.later i).mem = s.mem := rfl
@[simp] theorem State.later_late (s : State) (i : Instr) : (s.later i).late = s.late := rfl
@[simp] theorem State.later_past (s : State) (i : Instr) : (s.later i).past = s.past := rfl
@[simp] theorem State.later_domains (s : State) (i : Instr) : (s.later i).domains = s.domains := rfl
@[simp] theorem State.later_lodge (s : State) (i : Instr) : (s.later i).lodge = s.lodge := rfl
@[simp] theorem State.later_mcs (s : State) (i : Instr) : (s.later i).mcs = s.mcs := rfl
@[simp] theorem State.later_ports (s : State) (i : Instr) : (s.later i).ports = s.ports := rfl
@[simp] theorem State.later_records (s : State) (i : Instr) : (s.later i).records = s.records := rfl
@[simp] theorem State.later_farEnds (s : State) (i : Instr) : (s.later i).farEnds = s.farEnds := rfl
@[simp] theorem State.later_syncs (s : State) (i : Instr) : (s.later i).syncs = s.syncs := rfl
@[simp] theorem State.later_results (s : State) (i : Instr) : (s.later i).results = s.results := rfl
@[simp] theorem State.later_replies (s : State) (i : Instr) : (s.later i).replies = s.replies := rfl
@[simp] theorem State.later_jobs (s : State) (i : Instr) : (s.later i).jobs = s.jobs := rfl
@[simp] theorem State.later_gangs (s : State) (i : Instr) : (s.later i).gangs = s.gangs := rfl
@[simp] theorem State.later_graphs (s : State) (i : Instr) : (s.later i).graphs = s.graphs := rfl
@[simp] theorem State.later_ready (s : State) (i : Instr) : (s.later i).ready = s.ready := rfl
@[simp] theorem State.later_retries (s : State) (i : Instr) : (s.later i).retries = s.retries := rfl
@[simp] theorem State.later_keptExits (s : State) (i : Instr) : (s.later i).keptExits = s.keptExits := rfl
@[simp] theorem State.later_stages (s : State) (i : Instr) : (s.later i).stages = s.stages := rfl
@[simp] theorem State.later_monitors (s : State) (i : Instr) : (s.later i).monitors = s.monitors := rfl
@[simp] theorem State.later_saved (s : State) (i : Instr) : (s.later i).saved = s.saved := rfl
@[simp] theorem State.later_hits (s : State) (i : Instr) : (s.later i).hits = s.hits := rfl
@[simp] theorem State.later_hostLines (s : State) (i : Instr) : (s.later i).hostLines = s.hostLines := rfl
@[simp] theorem State.later_hostTags (s : State) (i : Instr) : (s.later i).hostTags = s.hostTags := rfl
@[simp] theorem State.later_snoops (s : State) (i : Instr) : (s.later i).snoops = s.snoops := rfl
@[simp] theorem State.later_exposed (s : State) (i : Instr) : (s.later i).exposed = s.exposed := rfl
@[simp] theorem State.later_hostHeld (s : State) (i : Instr) : (s.later i).hostHeld = s.hostHeld := rfl
@[simp] theorem State.later_backInv (s : State) (i : Instr) : (s.later i).backInv = s.backInv := rfl
@[simp] theorem State.later_peerWaiting (s : State) (i : Instr) : (s.later i).peerWaiting = s.peerWaiting := rfl
@[simp] theorem State.later_links (s : State) (i : Instr) : (s.later i).links = s.links := rfl
@[simp] theorem State.later_txs (s : State) (i : Instr) : (s.later i).txs = s.txs := rfl
@[simp] theorem State.later_integrity (s : State) (i : Instr) : (s.later i).integrity = s.integrity := rfl

@[simp] theorem State.within_inputs (s : State) (n : Nat) (i : Instr) : (s.within n i).inputs = s.inputs := rfl
@[simp] theorem State.within_due (s : State) (n : Nat) (i : Instr) : (s.within n i).due = s.due := rfl
@[simp] theorem State.within_todo (s : State) (n : Nat) (i : Instr) : (s.within n i).todo = s.todo := rfl
@[simp] theorem State.within_core (s : State) (n : Nat) (i : Instr) : (s.within n i).core = s.core := rfl
@[simp] theorem State.within_ir (s : State) (n : Nat) (i : Instr) : (s.within n i).ir = s.ir := rfl
@[simp] theorem State.within_irIxtin (s : State) (n : Nat) (i : Instr) : (s.within n i).irIxtin = s.irIxtin := rfl
@[simp] theorem State.within_ids (s : State) (n : Nat) (i : Instr) : (s.within n i).ids = s.ids := rfl
@[simp] theorem State.within_out (s : State) (n : Nat) (i : Instr) : (s.within n i).out = s.out := rfl
@[simp] theorem State.within_waiting (s : State) (n : Nat) (i : Instr) : (s.within n i).waiting = s.waiting := rfl
@[simp] theorem State.within_cyc (s : State) (n : Nat) (i : Instr) : (s.within n i).cyc = s.cyc := rfl
@[simp] theorem State.within_cores (s : State) (n : Nat) (i : Instr) : (s.within n i).cores = s.cores := rfl
@[simp] theorem State.within_arbors (s : State) (n : Nat) (i : Instr) : (s.within n i).arbors = s.arbors := rfl
@[simp] theorem State.within_mem (s : State) (n : Nat) (i : Instr) : (s.within n i).mem = s.mem := rfl
@[simp] theorem State.within_late (s : State) (n : Nat) (i : Instr) : (s.within n i).late = s.late := rfl
@[simp] theorem State.within_past (s : State) (n : Nat) (i : Instr) : (s.within n i).past = s.past := rfl
@[simp] theorem State.within_domains (s : State) (n : Nat) (i : Instr) : (s.within n i).domains = s.domains := rfl
@[simp] theorem State.within_lodge (s : State) (n : Nat) (i : Instr) : (s.within n i).lodge = s.lodge := rfl
@[simp] theorem State.within_mcs (s : State) (n : Nat) (i : Instr) : (s.within n i).mcs = s.mcs := rfl
@[simp] theorem State.within_ports (s : State) (n : Nat) (i : Instr) : (s.within n i).ports = s.ports := rfl
@[simp] theorem State.within_records (s : State) (n : Nat) (i : Instr) : (s.within n i).records = s.records := rfl
@[simp] theorem State.within_farEnds (s : State) (n : Nat) (i : Instr) : (s.within n i).farEnds = s.farEnds := rfl
@[simp] theorem State.within_syncs (s : State) (n : Nat) (i : Instr) : (s.within n i).syncs = s.syncs := rfl
@[simp] theorem State.within_results (s : State) (n : Nat) (i : Instr) : (s.within n i).results = s.results := rfl
@[simp] theorem State.within_replies (s : State) (n : Nat) (i : Instr) : (s.within n i).replies = s.replies := rfl
@[simp] theorem State.within_jobs (s : State) (n : Nat) (i : Instr) : (s.within n i).jobs = s.jobs := rfl
@[simp] theorem State.within_gangs (s : State) (n : Nat) (i : Instr) : (s.within n i).gangs = s.gangs := rfl
@[simp] theorem State.within_graphs (s : State) (n : Nat) (i : Instr) : (s.within n i).graphs = s.graphs := rfl
@[simp] theorem State.within_ready (s : State) (n : Nat) (i : Instr) : (s.within n i).ready = s.ready := rfl
@[simp] theorem State.within_retries (s : State) (n : Nat) (i : Instr) : (s.within n i).retries = s.retries := rfl
@[simp] theorem State.within_keptExits (s : State) (n : Nat) (i : Instr) : (s.within n i).keptExits = s.keptExits := rfl
@[simp] theorem State.within_stages (s : State) (n : Nat) (i : Instr) : (s.within n i).stages = s.stages := rfl
@[simp] theorem State.within_monitors (s : State) (n : Nat) (i : Instr) : (s.within n i).monitors = s.monitors := rfl
@[simp] theorem State.within_saved (s : State) (n : Nat) (i : Instr) : (s.within n i).saved = s.saved := rfl
@[simp] theorem State.within_hits (s : State) (n : Nat) (i : Instr) : (s.within n i).hits = s.hits := rfl
@[simp] theorem State.within_hostLines (s : State) (n : Nat) (i : Instr) : (s.within n i).hostLines = s.hostLines := rfl
@[simp] theorem State.within_hostTags (s : State) (n : Nat) (i : Instr) : (s.within n i).hostTags = s.hostTags := rfl
@[simp] theorem State.within_snoops (s : State) (n : Nat) (i : Instr) : (s.within n i).snoops = s.snoops := rfl
@[simp] theorem State.within_exposed (s : State) (n : Nat) (i : Instr) : (s.within n i).exposed = s.exposed := rfl
@[simp] theorem State.within_hostHeld (s : State) (n : Nat) (i : Instr) : (s.within n i).hostHeld = s.hostHeld := rfl
@[simp] theorem State.within_backInv (s : State) (n : Nat) (i : Instr) : (s.within n i).backInv = s.backInv := rfl
@[simp] theorem State.within_peerWaiting (s : State) (n : Nat) (i : Instr) : (s.within n i).peerWaiting = s.peerWaiting := rfl
@[simp] theorem State.within_links (s : State) (n : Nat) (i : Instr) : (s.within n i).links = s.links := rfl
@[simp] theorem State.within_txs (s : State) (n : Nat) (i : Instr) : (s.within n i).txs = s.txs := rfl
@[simp] theorem State.within_integrity (s : State) (n : Nat) (i : Instr) : (s.within n i).integrity = s.integrity := rfl

@[simp] theorem State.send_inputs (s : State) (o : Out) : (s.send o).inputs = s.inputs := rfl
@[simp] theorem State.send_calendar (s : State) (o : Out) : (s.send o).calendar = s.calendar := rfl
@[simp] theorem State.send_due (s : State) (o : Out) : (s.send o).due = s.due := rfl
@[simp] theorem State.send_todo (s : State) (o : Out) : (s.send o).todo = s.todo := rfl
@[simp] theorem State.send_core (s : State) (o : Out) : (s.send o).core = s.core := rfl
@[simp] theorem State.send_ir (s : State) (o : Out) : (s.send o).ir = s.ir := rfl
@[simp] theorem State.send_irIxtin (s : State) (o : Out) : (s.send o).irIxtin = s.irIxtin := rfl
@[simp] theorem State.send_fresh (s : State) (o : Out) : (s.send o).fresh = s.fresh := rfl
@[simp] theorem State.send_ids (s : State) (o : Out) : (s.send o).ids = s.ids := rfl
@[simp] theorem State.send_waiting (s : State) (o : Out) : (s.send o).waiting = s.waiting := rfl
@[simp] theorem State.send_cyc (s : State) (o : Out) : (s.send o).cyc = s.cyc := rfl
@[simp] theorem State.send_cores (s : State) (o : Out) : (s.send o).cores = s.cores := rfl
@[simp] theorem State.send_arbors (s : State) (o : Out) : (s.send o).arbors = s.arbors := rfl
@[simp] theorem State.send_mem (s : State) (o : Out) : (s.send o).mem = s.mem := rfl
@[simp] theorem State.send_late (s : State) (o : Out) : (s.send o).late = s.late := rfl
@[simp] theorem State.send_past (s : State) (o : Out) : (s.send o).past = s.past := rfl
@[simp] theorem State.send_domains (s : State) (o : Out) : (s.send o).domains = s.domains := rfl
@[simp] theorem State.send_lodge (s : State) (o : Out) : (s.send o).lodge = s.lodge := rfl
@[simp] theorem State.send_mcs (s : State) (o : Out) : (s.send o).mcs = s.mcs := rfl
@[simp] theorem State.send_ports (s : State) (o : Out) : (s.send o).ports = s.ports := rfl
@[simp] theorem State.send_records (s : State) (o : Out) : (s.send o).records = s.records := rfl
@[simp] theorem State.send_farEnds (s : State) (o : Out) : (s.send o).farEnds = s.farEnds := rfl
@[simp] theorem State.send_syncs (s : State) (o : Out) : (s.send o).syncs = s.syncs := rfl
@[simp] theorem State.send_results (s : State) (o : Out) : (s.send o).results = s.results := rfl
@[simp] theorem State.send_replies (s : State) (o : Out) : (s.send o).replies = s.replies := rfl
@[simp] theorem State.send_jobs (s : State) (o : Out) : (s.send o).jobs = s.jobs := rfl
@[simp] theorem State.send_gangs (s : State) (o : Out) : (s.send o).gangs = s.gangs := rfl
@[simp] theorem State.send_graphs (s : State) (o : Out) : (s.send o).graphs = s.graphs := rfl
@[simp] theorem State.send_ready (s : State) (o : Out) : (s.send o).ready = s.ready := rfl
@[simp] theorem State.send_retries (s : State) (o : Out) : (s.send o).retries = s.retries := rfl
@[simp] theorem State.send_keptExits (s : State) (o : Out) : (s.send o).keptExits = s.keptExits := rfl
@[simp] theorem State.send_stages (s : State) (o : Out) : (s.send o).stages = s.stages := rfl
@[simp] theorem State.send_monitors (s : State) (o : Out) : (s.send o).monitors = s.monitors := rfl
@[simp] theorem State.send_saved (s : State) (o : Out) : (s.send o).saved = s.saved := rfl
@[simp] theorem State.send_hits (s : State) (o : Out) : (s.send o).hits = s.hits := rfl
@[simp] theorem State.send_hostLines (s : State) (o : Out) : (s.send o).hostLines = s.hostLines := rfl
@[simp] theorem State.send_hostTags (s : State) (o : Out) : (s.send o).hostTags = s.hostTags := rfl
@[simp] theorem State.send_snoops (s : State) (o : Out) : (s.send o).snoops = s.snoops := rfl
@[simp] theorem State.send_exposed (s : State) (o : Out) : (s.send o).exposed = s.exposed := rfl
@[simp] theorem State.send_hostHeld (s : State) (o : Out) : (s.send o).hostHeld = s.hostHeld := rfl
@[simp] theorem State.send_backInv (s : State) (o : Out) : (s.send o).backInv = s.backInv := rfl
@[simp] theorem State.send_peerWaiting (s : State) (o : Out) : (s.send o).peerWaiting = s.peerWaiting := rfl
@[simp] theorem State.send_links (s : State) (o : Out) : (s.send o).links = s.links := rfl
@[simp] theorem State.send_txs (s : State) (o : Out) : (s.send o).txs = s.txs := rfl
@[simp] theorem State.send_integrity (s : State) (o : Out) : (s.send o).integrity = s.integrity := rfl

@[simp] theorem State.landAfter_inputs (s : State) (lat : Nat) (r : Result) (fl : Flags) : (s.landAfter lat r fl).inputs = s.inputs := rfl
@[simp] theorem State.landAfter_calendar (s : State) (lat : Nat) (r : Result) (fl : Flags) : (s.landAfter lat r fl).calendar = s.calendar := rfl
@[simp] theorem State.landAfter_due (s : State) (lat : Nat) (r : Result) (fl : Flags) : (s.landAfter lat r fl).due = s.due := rfl
@[simp] theorem State.landAfter_todo (s : State) (lat : Nat) (r : Result) (fl : Flags) : (s.landAfter lat r fl).todo = s.todo := rfl
@[simp] theorem State.landAfter_core (s : State) (lat : Nat) (r : Result) (fl : Flags) : (s.landAfter lat r fl).core = s.core := rfl
@[simp] theorem State.landAfter_ir (s : State) (lat : Nat) (r : Result) (fl : Flags) : (s.landAfter lat r fl).ir = s.ir := rfl
@[simp] theorem State.landAfter_irIxtin (s : State) (lat : Nat) (r : Result) (fl : Flags) : (s.landAfter lat r fl).irIxtin = s.irIxtin := rfl
@[simp] theorem State.landAfter_fresh (s : State) (lat : Nat) (r : Result) (fl : Flags) : (s.landAfter lat r fl).fresh = s.fresh := rfl
@[simp] theorem State.landAfter_ids (s : State) (lat : Nat) (r : Result) (fl : Flags) : (s.landAfter lat r fl).ids = s.ids := rfl
@[simp] theorem State.landAfter_out (s : State) (lat : Nat) (r : Result) (fl : Flags) : (s.landAfter lat r fl).out = s.out := rfl
@[simp] theorem State.landAfter_waiting (s : State) (lat : Nat) (r : Result) (fl : Flags) : (s.landAfter lat r fl).waiting = s.waiting := rfl
@[simp] theorem State.landAfter_cyc (s : State) (lat : Nat) (r : Result) (fl : Flags) : (s.landAfter lat r fl).cyc = s.cyc := rfl
@[simp] theorem State.landAfter_arbors (s : State) (lat : Nat) (r : Result) (fl : Flags) : (s.landAfter lat r fl).arbors = s.arbors := rfl
@[simp] theorem State.landAfter_mem (s : State) (lat : Nat) (r : Result) (fl : Flags) : (s.landAfter lat r fl).mem = s.mem := rfl
@[simp] theorem State.landAfter_late (s : State) (lat : Nat) (r : Result) (fl : Flags) : (s.landAfter lat r fl).late = s.late := rfl
@[simp] theorem State.landAfter_past (s : State) (lat : Nat) (r : Result) (fl : Flags) : (s.landAfter lat r fl).past = s.past := rfl
@[simp] theorem State.landAfter_domains (s : State) (lat : Nat) (r : Result) (fl : Flags) : (s.landAfter lat r fl).domains = s.domains := rfl
@[simp] theorem State.landAfter_lodge (s : State) (lat : Nat) (r : Result) (fl : Flags) : (s.landAfter lat r fl).lodge = s.lodge := rfl
@[simp] theorem State.landAfter_mcs (s : State) (lat : Nat) (r : Result) (fl : Flags) : (s.landAfter lat r fl).mcs = s.mcs := rfl
@[simp] theorem State.landAfter_ports (s : State) (lat : Nat) (r : Result) (fl : Flags) : (s.landAfter lat r fl).ports = s.ports := rfl
@[simp] theorem State.landAfter_records (s : State) (lat : Nat) (r : Result) (fl : Flags) : (s.landAfter lat r fl).records = s.records := rfl
@[simp] theorem State.landAfter_farEnds (s : State) (lat : Nat) (r : Result) (fl : Flags) : (s.landAfter lat r fl).farEnds = s.farEnds := rfl
@[simp] theorem State.landAfter_syncs (s : State) (lat : Nat) (r : Result) (fl : Flags) : (s.landAfter lat r fl).syncs = s.syncs := rfl
@[simp] theorem State.landAfter_results (s : State) (lat : Nat) (r : Result) (fl : Flags) : (s.landAfter lat r fl).results = s.results := rfl
@[simp] theorem State.landAfter_replies (s : State) (lat : Nat) (r : Result) (fl : Flags) : (s.landAfter lat r fl).replies = s.replies := rfl
@[simp] theorem State.landAfter_jobs (s : State) (lat : Nat) (r : Result) (fl : Flags) : (s.landAfter lat r fl).jobs = s.jobs := rfl
@[simp] theorem State.landAfter_gangs (s : State) (lat : Nat) (r : Result) (fl : Flags) : (s.landAfter lat r fl).gangs = s.gangs := rfl
@[simp] theorem State.landAfter_graphs (s : State) (lat : Nat) (r : Result) (fl : Flags) : (s.landAfter lat r fl).graphs = s.graphs := rfl
@[simp] theorem State.landAfter_ready (s : State) (lat : Nat) (r : Result) (fl : Flags) : (s.landAfter lat r fl).ready = s.ready := rfl
@[simp] theorem State.landAfter_retries (s : State) (lat : Nat) (r : Result) (fl : Flags) : (s.landAfter lat r fl).retries = s.retries := rfl
@[simp] theorem State.landAfter_keptExits (s : State) (lat : Nat) (r : Result) (fl : Flags) : (s.landAfter lat r fl).keptExits = s.keptExits := rfl
@[simp] theorem State.landAfter_stages (s : State) (lat : Nat) (r : Result) (fl : Flags) : (s.landAfter lat r fl).stages = s.stages := rfl
@[simp] theorem State.landAfter_monitors (s : State) (lat : Nat) (r : Result) (fl : Flags) : (s.landAfter lat r fl).monitors = s.monitors := rfl
@[simp] theorem State.landAfter_saved (s : State) (lat : Nat) (r : Result) (fl : Flags) : (s.landAfter lat r fl).saved = s.saved := rfl
@[simp] theorem State.landAfter_hits (s : State) (lat : Nat) (r : Result) (fl : Flags) : (s.landAfter lat r fl).hits = s.hits := rfl
@[simp] theorem State.landAfter_hostLines (s : State) (lat : Nat) (r : Result) (fl : Flags) : (s.landAfter lat r fl).hostLines = s.hostLines := rfl
@[simp] theorem State.landAfter_hostTags (s : State) (lat : Nat) (r : Result) (fl : Flags) : (s.landAfter lat r fl).hostTags = s.hostTags := rfl
@[simp] theorem State.landAfter_snoops (s : State) (lat : Nat) (r : Result) (fl : Flags) : (s.landAfter lat r fl).snoops = s.snoops := rfl
@[simp] theorem State.landAfter_exposed (s : State) (lat : Nat) (r : Result) (fl : Flags) : (s.landAfter lat r fl).exposed = s.exposed := rfl
@[simp] theorem State.landAfter_hostHeld (s : State) (lat : Nat) (r : Result) (fl : Flags) : (s.landAfter lat r fl).hostHeld = s.hostHeld := rfl
@[simp] theorem State.landAfter_backInv (s : State) (lat : Nat) (r : Result) (fl : Flags) : (s.landAfter lat r fl).backInv = s.backInv := rfl
@[simp] theorem State.landAfter_peerWaiting (s : State) (lat : Nat) (r : Result) (fl : Flags) : (s.landAfter lat r fl).peerWaiting = s.peerWaiting := rfl
@[simp] theorem State.landAfter_links (s : State) (lat : Nat) (r : Result) (fl : Flags) : (s.landAfter lat r fl).links = s.links := rfl
@[simp] theorem State.landAfter_txs (s : State) (lat : Nat) (r : Result) (fl : Flags) : (s.landAfter lat r fl).txs = s.txs := rfl
@[simp] theorem State.landAfter_integrity (s : State) (lat : Nat) (r : Result) (fl : Flags) : (s.landAfter lat r fl).integrity = s.integrity := rfl

@[simp] theorem State.landLate_inputs (s : State) (set : BitVec 2) (r : Result) : (s.landLate set r).inputs = s.inputs := rfl
@[simp] theorem State.landLate_calendar (s : State) (set : BitVec 2) (r : Result) : (s.landLate set r).calendar = s.calendar := rfl
@[simp] theorem State.landLate_due (s : State) (set : BitVec 2) (r : Result) : (s.landLate set r).due = s.due := rfl
@[simp] theorem State.landLate_todo (s : State) (set : BitVec 2) (r : Result) : (s.landLate set r).todo = s.todo := rfl
@[simp] theorem State.landLate_core (s : State) (set : BitVec 2) (r : Result) : (s.landLate set r).core = s.core := rfl
@[simp] theorem State.landLate_ir (s : State) (set : BitVec 2) (r : Result) : (s.landLate set r).ir = s.ir := rfl
@[simp] theorem State.landLate_irIxtin (s : State) (set : BitVec 2) (r : Result) : (s.landLate set r).irIxtin = s.irIxtin := rfl
@[simp] theorem State.landLate_ids (s : State) (set : BitVec 2) (r : Result) : (s.landLate set r).ids = s.ids := rfl
@[simp] theorem State.landLate_out (s : State) (set : BitVec 2) (r : Result) : (s.landLate set r).out = s.out := rfl
@[simp] theorem State.landLate_waiting (s : State) (set : BitVec 2) (r : Result) : (s.landLate set r).waiting = s.waiting := rfl
@[simp] theorem State.landLate_cyc (s : State) (set : BitVec 2) (r : Result) : (s.landLate set r).cyc = s.cyc := rfl
@[simp] theorem State.landLate_arbors (s : State) (set : BitVec 2) (r : Result) : (s.landLate set r).arbors = s.arbors := rfl
@[simp] theorem State.landLate_mem (s : State) (set : BitVec 2) (r : Result) : (s.landLate set r).mem = s.mem := rfl
@[simp] theorem State.landLate_late (s : State) (set : BitVec 2) (r : Result) : (s.landLate set r).late = s.late := rfl
@[simp] theorem State.landLate_past (s : State) (set : BitVec 2) (r : Result) : (s.landLate set r).past = s.past := rfl
@[simp] theorem State.landLate_domains (s : State) (set : BitVec 2) (r : Result) : (s.landLate set r).domains = s.domains := rfl
@[simp] theorem State.landLate_lodge (s : State) (set : BitVec 2) (r : Result) : (s.landLate set r).lodge = s.lodge := rfl
@[simp] theorem State.landLate_mcs (s : State) (set : BitVec 2) (r : Result) : (s.landLate set r).mcs = s.mcs := rfl
@[simp] theorem State.landLate_ports (s : State) (set : BitVec 2) (r : Result) : (s.landLate set r).ports = s.ports := rfl
@[simp] theorem State.landLate_records (s : State) (set : BitVec 2) (r : Result) : (s.landLate set r).records = s.records := rfl
@[simp] theorem State.landLate_farEnds (s : State) (set : BitVec 2) (r : Result) : (s.landLate set r).farEnds = s.farEnds := rfl
@[simp] theorem State.landLate_syncs (s : State) (set : BitVec 2) (r : Result) : (s.landLate set r).syncs = s.syncs := rfl
@[simp] theorem State.landLate_results (s : State) (set : BitVec 2) (r : Result) : (s.landLate set r).results = s.results := rfl
@[simp] theorem State.landLate_replies (s : State) (set : BitVec 2) (r : Result) : (s.landLate set r).replies = s.replies := rfl
@[simp] theorem State.landLate_jobs (s : State) (set : BitVec 2) (r : Result) : (s.landLate set r).jobs = s.jobs := rfl
@[simp] theorem State.landLate_gangs (s : State) (set : BitVec 2) (r : Result) : (s.landLate set r).gangs = s.gangs := rfl
@[simp] theorem State.landLate_graphs (s : State) (set : BitVec 2) (r : Result) : (s.landLate set r).graphs = s.graphs := rfl
@[simp] theorem State.landLate_ready (s : State) (set : BitVec 2) (r : Result) : (s.landLate set r).ready = s.ready := rfl
@[simp] theorem State.landLate_retries (s : State) (set : BitVec 2) (r : Result) : (s.landLate set r).retries = s.retries := rfl
@[simp] theorem State.landLate_keptExits (s : State) (set : BitVec 2) (r : Result) : (s.landLate set r).keptExits = s.keptExits := rfl
@[simp] theorem State.landLate_stages (s : State) (set : BitVec 2) (r : Result) : (s.landLate set r).stages = s.stages := rfl
@[simp] theorem State.landLate_monitors (s : State) (set : BitVec 2) (r : Result) : (s.landLate set r).monitors = s.monitors := rfl
@[simp] theorem State.landLate_saved (s : State) (set : BitVec 2) (r : Result) : (s.landLate set r).saved = s.saved := rfl
@[simp] theorem State.landLate_hits (s : State) (set : BitVec 2) (r : Result) : (s.landLate set r).hits = s.hits := rfl
@[simp] theorem State.landLate_hostLines (s : State) (set : BitVec 2) (r : Result) : (s.landLate set r).hostLines = s.hostLines := rfl
@[simp] theorem State.landLate_hostTags (s : State) (set : BitVec 2) (r : Result) : (s.landLate set r).hostTags = s.hostTags := rfl
@[simp] theorem State.landLate_snoops (s : State) (set : BitVec 2) (r : Result) : (s.landLate set r).snoops = s.snoops := rfl
@[simp] theorem State.landLate_exposed (s : State) (set : BitVec 2) (r : Result) : (s.landLate set r).exposed = s.exposed := rfl
@[simp] theorem State.landLate_hostHeld (s : State) (set : BitVec 2) (r : Result) : (s.landLate set r).hostHeld = s.hostHeld := rfl
@[simp] theorem State.landLate_backInv (s : State) (set : BitVec 2) (r : Result) : (s.landLate set r).backInv = s.backInv := rfl
@[simp] theorem State.landLate_peerWaiting (s : State) (set : BitVec 2) (r : Result) : (s.landLate set r).peerWaiting = s.peerWaiting := rfl
@[simp] theorem State.landLate_links (s : State) (set : BitVec 2) (r : Result) : (s.landLate set r).links = s.links := rfl
@[simp] theorem State.landLate_txs (s : State) (set : BitVec 2) (r : Result) : (s.landLate set r).txs = s.txs := rfl
@[simp] theorem State.landLate_integrity (s : State) (set : BitVec 2) (r : Result) : (s.landLate set r).integrity = s.integrity := rfl

/-! ## Core -/

@[simp] theorem Core.setCtx_owner (c : Core) (k : Nat) (x : Ctx) : (c.setCtx k x).owner = c.owner := rfl
@[simp] theorem Core.setCtx_ls (c : Core) (k : Nat) (x : Ctx) : (c.setCtx k x).ls = c.ls := rfl
@[simp] theorem Core.setCtx_inbox (c : Core) (k : Nat) (x : Ctx) : (c.setCtx k x).inbox = c.inbox := rfl
@[simp] theorem Core.setCtx_sendq (c : Core) (k : Nat) (x : Ctx) : (c.setCtx k x).sendq = c.sendq := rfl
@[simp] theorem Core.setCtx_storeq (c : Core) (k : Nat) (x : Ctx) : (c.setCtx k x).storeq = c.storeq := rfl
@[simp] theorem Core.setCtx_flight (c : Core) (k : Nat) (x : Ctx) : (c.setCtx k x).flight = c.flight := rfl
@[simp] theorem Core.setCtx_w (c : Core) (k : Nat) (x : Ctx) : (c.setCtx k x).w = c.w := rfl
@[simp] theorem Core.setCtx_wq (c : Core) (k : Nat) (x : Ctx) : (c.setCtx k x).wq = c.wq := rfl
@[simp] theorem Core.setCtx_land (c : Core) (k : Nat) (x : Ctx) : (c.setCtx k x).land = c.land := rfl
@[simp] theorem Core.setCtx_tiles (c : Core) (k : Nat) (x : Ctx) : (c.setCtx k x).tiles = c.tiles := rfl
@[simp] theorem Core.setCtx_icache (c : Core) (k : Nat) (x : Ctx) : (c.setCtx k x).icache = c.icache := rfl
@[simp] theorem Core.setCtx_ifills (c : Core) (k : Nat) (x : Ctx) : (c.setCtx k x).ifills = c.ifills := rfl
@[simp] theorem Core.setCtx_cur (c : Core) (k : Nat) (x : Ctx) : (c.setCtx k x).cur = c.cur := rfl
@[simp] theorem Core.setCtx_ring (c : Core) (k : Nat) (x : Ctx) : (c.setCtx k x).ring = c.ring := rfl
@[simp] theorem Core.setCtx_wdog (c : Core) (k : Nat) (x : Ctx) : (c.setCtx k x).wdog = c.wdog := rfl
@[simp] theorem Core.setCtx_evs (c : Core) (k : Nat) (x : Ctx) : (c.setCtx k x).evs = c.evs := rfl
@[simp] theorem Core.setCtx_focusLast (c : Core) (k : Nat) (x : Ctx) : (c.setCtx k x).focusLast = c.focusLast := rfl
@[simp] theorem Core.setCtx_hc (c : Core) (k : Nat) (x : Ctx) : (c.setCtx k x).hc = c.hc := rfl
@[simp] theorem Core.setCtx_wa (c : Core) (k : Nat) (x : Ctx) : (c.setCtx k x).wa = c.wa := rfl
@[simp] theorem Core.setCtx_wm (c : Core) (k : Nat) (x : Ctx) : (c.setCtx k x).wm = c.wm := rfl
@[simp] theorem Core.setCtx_mloads (c : Core) (k : Nat) (x : Ctx) : (c.setCtx k x).mloads = c.mloads := rfl
@[simp] theorem Core.setCtx_mstores (c : Core) (k : Nat) (x : Ctx) : (c.setCtx k x).mstores = c.mstores := rfl
@[simp] theorem Core.setCtx_xsend (c : Core) (k : Nat) (x : Ctx) : (c.setCtx k x).xsend = c.xsend := rfl
@[simp] theorem Core.setCtx_xpend (c : Core) (k : Nat) (x : Ctx) : (c.setCtx k x).xpend = c.xpend := rfl
@[simp] theorem Core.setCtx_bound (c : Core) (k : Nat) (x : Ctx) : (c.setCtx k x).bound = c.bound := rfl
@[simp] theorem Core.setCtx_proc (c : Core) (k : Nat) (x : Ctx) : (c.setCtx k x).proc = c.proc := rfl
@[simp] theorem Core.setCtx_upcall (c : Core) (k : Nat) (x : Ctx) : (c.setCtx k x).upcall = c.upcall := rfl

@[simp] theorem Core.updCtx_owner (c : Core) (k : Nat) (f : Ctx → Ctx) : (c.updCtx k f).owner = c.owner := rfl
@[simp] theorem Core.updCtx_ls (c : Core) (k : Nat) (f : Ctx → Ctx) : (c.updCtx k f).ls = c.ls := rfl
@[simp] theorem Core.updCtx_inbox (c : Core) (k : Nat) (f : Ctx → Ctx) : (c.updCtx k f).inbox = c.inbox := rfl
@[simp] theorem Core.updCtx_sendq (c : Core) (k : Nat) (f : Ctx → Ctx) : (c.updCtx k f).sendq = c.sendq := rfl
@[simp] theorem Core.updCtx_storeq (c : Core) (k : Nat) (f : Ctx → Ctx) : (c.updCtx k f).storeq = c.storeq := rfl
@[simp] theorem Core.updCtx_flight (c : Core) (k : Nat) (f : Ctx → Ctx) : (c.updCtx k f).flight = c.flight := rfl
@[simp] theorem Core.updCtx_w (c : Core) (k : Nat) (f : Ctx → Ctx) : (c.updCtx k f).w = c.w := rfl
@[simp] theorem Core.updCtx_wq (c : Core) (k : Nat) (f : Ctx → Ctx) : (c.updCtx k f).wq = c.wq := rfl
@[simp] theorem Core.updCtx_land (c : Core) (k : Nat) (f : Ctx → Ctx) : (c.updCtx k f).land = c.land := rfl
@[simp] theorem Core.updCtx_tiles (c : Core) (k : Nat) (f : Ctx → Ctx) : (c.updCtx k f).tiles = c.tiles := rfl
@[simp] theorem Core.updCtx_icache (c : Core) (k : Nat) (f : Ctx → Ctx) : (c.updCtx k f).icache = c.icache := rfl
@[simp] theorem Core.updCtx_ifills (c : Core) (k : Nat) (f : Ctx → Ctx) : (c.updCtx k f).ifills = c.ifills := rfl
@[simp] theorem Core.updCtx_cur (c : Core) (k : Nat) (f : Ctx → Ctx) : (c.updCtx k f).cur = c.cur := rfl
@[simp] theorem Core.updCtx_ring (c : Core) (k : Nat) (f : Ctx → Ctx) : (c.updCtx k f).ring = c.ring := rfl
@[simp] theorem Core.updCtx_wdog (c : Core) (k : Nat) (f : Ctx → Ctx) : (c.updCtx k f).wdog = c.wdog := rfl
@[simp] theorem Core.updCtx_evs (c : Core) (k : Nat) (f : Ctx → Ctx) : (c.updCtx k f).evs = c.evs := rfl
@[simp] theorem Core.updCtx_focusLast (c : Core) (k : Nat) (f : Ctx → Ctx) : (c.updCtx k f).focusLast = c.focusLast := rfl
@[simp] theorem Core.updCtx_hc (c : Core) (k : Nat) (f : Ctx → Ctx) : (c.updCtx k f).hc = c.hc := rfl
@[simp] theorem Core.updCtx_wa (c : Core) (k : Nat) (f : Ctx → Ctx) : (c.updCtx k f).wa = c.wa := rfl
@[simp] theorem Core.updCtx_wm (c : Core) (k : Nat) (f : Ctx → Ctx) : (c.updCtx k f).wm = c.wm := rfl
@[simp] theorem Core.updCtx_mloads (c : Core) (k : Nat) (f : Ctx → Ctx) : (c.updCtx k f).mloads = c.mloads := rfl
@[simp] theorem Core.updCtx_mstores (c : Core) (k : Nat) (f : Ctx → Ctx) : (c.updCtx k f).mstores = c.mstores := rfl
@[simp] theorem Core.updCtx_xsend (c : Core) (k : Nat) (f : Ctx → Ctx) : (c.updCtx k f).xsend = c.xsend := rfl
@[simp] theorem Core.updCtx_xpend (c : Core) (k : Nat) (f : Ctx → Ctx) : (c.updCtx k f).xpend = c.xpend := rfl
@[simp] theorem Core.updCtx_bound (c : Core) (k : Nat) (f : Ctx → Ctx) : (c.updCtx k f).bound = c.bound := rfl
@[simp] theorem Core.updCtx_proc (c : Core) (k : Nat) (f : Ctx → Ctx) : (c.updCtx k f).proc = c.proc := rfl
@[simp] theorem Core.updCtx_upcall (c : Core) (k : Nat) (f : Ctx → Ctx) : (c.updCtx k f).upcall = c.upcall := rfl

/-! ## Ctx -/

@[simp] theorem Ctx.setG_pc (x : Ctx) (n : BitVec 6) (v : GReg) : (x.setG n v).pc = x.pc := rfl
@[simp] theorem Ctx.setG_run (x : Ctx) (n : BitVec 6) (v : GReg) : (x.setG n v).run = x.run := rfl
@[simp] theorem Ctx.setG_q (x : Ctx) (n : BitVec 6) (v : GReg) : (x.setG n v).q = x.q := rfl
@[simp] theorem Ctx.setG_m (x : Ctx) (n : BitVec 6) (v : GReg) : (x.setG n v).m = x.m := rfl
@[simp] theorem Ctx.setG_sb (x : Ctx) (n : BitVec 6) (v : GReg) : (x.setG n v).sb = x.sb := rfl
@[simp] theorem Ctx.setG_fflags (x : Ctx) (n : BitVec 6) (v : GReg) : (x.setG n v).fflags = x.fflags := rfl
@[simp] theorem Ctx.setG_rmode (x : Ctx) (n : BitVec 6) (v : GReg) : (x.setG n v).rmode = x.rmode := rfl
@[simp] theorem Ctx.setG_blocks (x : Ctx) (n : BitVec 6) (v : GReg) : (x.setG n v).blocks = x.blocks := rfl
@[simp] theorem Ctx.setG_cursor (x : Ctx) (n : BitVec 6) (v : GReg) : (x.setG n v).cursor = x.cursor := rfl
@[simp] theorem Ctx.setG_wd (x : Ctx) (n : BitVec 6) (v : GReg) : (x.setG n v).wd = x.wd := rfl
@[simp] theorem Ctx.setG_notBefore (x : Ctx) (n : BitVec 6) (v : GReg) : (x.setG n v).notBefore = x.notBefore := rfl
@[simp] theorem Ctx.setG_wideNotBefore (x : Ctx) (n : BitVec 6) (v : GReg) : (x.setG n v).wideNotBefore = x.wideNotBefore := rfl
@[simp] theorem Ctx.setG_trap (x : Ctx) (n : BitVec 6) (v : GReg) : (x.setG n v).trap = x.trap := rfl
@[simp] theorem Ctx.setG_latch (x : Ctx) (n : BitVec 6) (v : GReg) : (x.setG n v).latch = x.latch := rfl
@[simp] theorem Ctx.setG_gangEvents (x : Ctx) (n : BitVec 6) (v : GReg) : (x.setG n v).gangEvents = x.gangEvents := rfl
@[simp] theorem Ctx.setG_deferred (x : Ctx) (n : BitVec 6) (v : GReg) : (x.setG n v).deferred = x.deferred := rfl
@[simp] theorem Ctx.setG_branch (x : Ctx) (n : BitVec 6) (v : GReg) : (x.setG n v).branch = x.branch := rfl
@[simp] theorem Ctx.setG_fence (x : Ctx) (n : BitVec 6) (v : GReg) : (x.setG n v).fence = x.fence := rfl

@[simp] theorem Ctx.setQ_pc (x : Ctx) (n : BitVec 3) (b : Bool) : (x.setQ n b).pc = x.pc := by unfold Ctx.setQ; split <;> rfl
@[simp] theorem Ctx.setQ_run (x : Ctx) (n : BitVec 3) (b : Bool) : (x.setQ n b).run = x.run := by unfold Ctx.setQ; split <;> rfl
@[simp] theorem Ctx.setQ_g (x : Ctx) (n : BitVec 3) (b : Bool) : (x.setQ n b).g = x.g := by unfold Ctx.setQ; split <;> rfl
@[simp] theorem Ctx.setQ_m (x : Ctx) (n : BitVec 3) (b : Bool) : (x.setQ n b).m = x.m := by unfold Ctx.setQ; split <;> rfl
@[simp] theorem Ctx.setQ_sb (x : Ctx) (n : BitVec 3) (b : Bool) : (x.setQ n b).sb = x.sb := by unfold Ctx.setQ; split <;> rfl
@[simp] theorem Ctx.setQ_fflags (x : Ctx) (n : BitVec 3) (b : Bool) : (x.setQ n b).fflags = x.fflags := by unfold Ctx.setQ; split <;> rfl
@[simp] theorem Ctx.setQ_rmode (x : Ctx) (n : BitVec 3) (b : Bool) : (x.setQ n b).rmode = x.rmode := by unfold Ctx.setQ; split <;> rfl
@[simp] theorem Ctx.setQ_blocks (x : Ctx) (n : BitVec 3) (b : Bool) : (x.setQ n b).blocks = x.blocks := by unfold Ctx.setQ; split <;> rfl
@[simp] theorem Ctx.setQ_cursor (x : Ctx) (n : BitVec 3) (b : Bool) : (x.setQ n b).cursor = x.cursor := by unfold Ctx.setQ; split <;> rfl
@[simp] theorem Ctx.setQ_wd (x : Ctx) (n : BitVec 3) (b : Bool) : (x.setQ n b).wd = x.wd := by unfold Ctx.setQ; split <;> rfl
@[simp] theorem Ctx.setQ_notBefore (x : Ctx) (n : BitVec 3) (b : Bool) : (x.setQ n b).notBefore = x.notBefore := by unfold Ctx.setQ; split <;> rfl
@[simp] theorem Ctx.setQ_wideNotBefore (x : Ctx) (n : BitVec 3) (b : Bool) : (x.setQ n b).wideNotBefore = x.wideNotBefore := by unfold Ctx.setQ; split <;> rfl
@[simp] theorem Ctx.setQ_trap (x : Ctx) (n : BitVec 3) (b : Bool) : (x.setQ n b).trap = x.trap := by unfold Ctx.setQ; split <;> rfl
@[simp] theorem Ctx.setQ_latch (x : Ctx) (n : BitVec 3) (b : Bool) : (x.setQ n b).latch = x.latch := by unfold Ctx.setQ; split <;> rfl
@[simp] theorem Ctx.setQ_gangEvents (x : Ctx) (n : BitVec 3) (b : Bool) : (x.setQ n b).gangEvents = x.gangEvents := by unfold Ctx.setQ; split <;> rfl
@[simp] theorem Ctx.setQ_deferred (x : Ctx) (n : BitVec 3) (b : Bool) : (x.setQ n b).deferred = x.deferred := by unfold Ctx.setQ; split <;> rfl
@[simp] theorem Ctx.setQ_branch (x : Ctx) (n : BitVec 3) (b : Bool) : (x.setQ n b).branch = x.branch := by unfold Ctx.setQ; split <;> rfl
@[simp] theorem Ctx.setQ_fence (x : Ctx) (n : BitVec 3) (b : Bool) : (x.setQ n b).fence = x.fence := by unfold Ctx.setQ; split <;> rfl

@[simp] theorem Ctx.setM_pc (x : Ctx) (n : BitVec 3) (v : W32) : (x.setM n v).pc = x.pc := by unfold Ctx.setM; split <;> rfl
@[simp] theorem Ctx.setM_run (x : Ctx) (n : BitVec 3) (v : W32) : (x.setM n v).run = x.run := by unfold Ctx.setM; split <;> rfl
@[simp] theorem Ctx.setM_g (x : Ctx) (n : BitVec 3) (v : W32) : (x.setM n v).g = x.g := by unfold Ctx.setM; split <;> rfl
@[simp] theorem Ctx.setM_q (x : Ctx) (n : BitVec 3) (v : W32) : (x.setM n v).q = x.q := by unfold Ctx.setM; split <;> rfl
@[simp] theorem Ctx.setM_sb (x : Ctx) (n : BitVec 3) (v : W32) : (x.setM n v).sb = x.sb := by unfold Ctx.setM; split <;> rfl
@[simp] theorem Ctx.setM_fflags (x : Ctx) (n : BitVec 3) (v : W32) : (x.setM n v).fflags = x.fflags := by unfold Ctx.setM; split <;> rfl
@[simp] theorem Ctx.setM_rmode (x : Ctx) (n : BitVec 3) (v : W32) : (x.setM n v).rmode = x.rmode := by unfold Ctx.setM; split <;> rfl
@[simp] theorem Ctx.setM_blocks (x : Ctx) (n : BitVec 3) (v : W32) : (x.setM n v).blocks = x.blocks := by unfold Ctx.setM; split <;> rfl
@[simp] theorem Ctx.setM_cursor (x : Ctx) (n : BitVec 3) (v : W32) : (x.setM n v).cursor = x.cursor := by unfold Ctx.setM; split <;> rfl
@[simp] theorem Ctx.setM_wd (x : Ctx) (n : BitVec 3) (v : W32) : (x.setM n v).wd = x.wd := by unfold Ctx.setM; split <;> rfl
@[simp] theorem Ctx.setM_notBefore (x : Ctx) (n : BitVec 3) (v : W32) : (x.setM n v).notBefore = x.notBefore := by unfold Ctx.setM; split <;> rfl
@[simp] theorem Ctx.setM_wideNotBefore (x : Ctx) (n : BitVec 3) (v : W32) : (x.setM n v).wideNotBefore = x.wideNotBefore := by unfold Ctx.setM; split <;> rfl
@[simp] theorem Ctx.setM_trap (x : Ctx) (n : BitVec 3) (v : W32) : (x.setM n v).trap = x.trap := by unfold Ctx.setM; split <;> rfl
@[simp] theorem Ctx.setM_latch (x : Ctx) (n : BitVec 3) (v : W32) : (x.setM n v).latch = x.latch := by unfold Ctx.setM; split <;> rfl
@[simp] theorem Ctx.setM_gangEvents (x : Ctx) (n : BitVec 3) (v : W32) : (x.setM n v).gangEvents = x.gangEvents := by unfold Ctx.setM; split <;> rfl
@[simp] theorem Ctx.setM_deferred (x : Ctx) (n : BitVec 3) (v : W32) : (x.setM n v).deferred = x.deferred := by unfold Ctx.setM; split <;> rfl
@[simp] theorem Ctx.setM_branch (x : Ctx) (n : BitVec 3) (v : W32) : (x.setM n v).branch = x.branch := by unfold Ctx.setM; split <;> rfl
@[simp] theorem Ctx.setM_fence (x : Ctx) (n : BitVec 3) (v : W32) : (x.setM n v).fence = x.fence := by unfold Ctx.setM; split <;> rfl

@[simp] theorem Ctx.sbUp_pc (x : Ctx) (j : BitVec 2) : (x.sbUp j).pc = x.pc := rfl
@[simp] theorem Ctx.sbUp_run (x : Ctx) (j : BitVec 2) : (x.sbUp j).run = x.run := rfl
@[simp] theorem Ctx.sbUp_g (x : Ctx) (j : BitVec 2) : (x.sbUp j).g = x.g := rfl
@[simp] theorem Ctx.sbUp_q (x : Ctx) (j : BitVec 2) : (x.sbUp j).q = x.q := rfl
@[simp] theorem Ctx.sbUp_m (x : Ctx) (j : BitVec 2) : (x.sbUp j).m = x.m := rfl
@[simp] theorem Ctx.sbUp_fflags (x : Ctx) (j : BitVec 2) : (x.sbUp j).fflags = x.fflags := rfl
@[simp] theorem Ctx.sbUp_rmode (x : Ctx) (j : BitVec 2) : (x.sbUp j).rmode = x.rmode := rfl
@[simp] theorem Ctx.sbUp_blocks (x : Ctx) (j : BitVec 2) : (x.sbUp j).blocks = x.blocks := rfl
@[simp] theorem Ctx.sbUp_cursor (x : Ctx) (j : BitVec 2) : (x.sbUp j).cursor = x.cursor := rfl
@[simp] theorem Ctx.sbUp_wd (x : Ctx) (j : BitVec 2) : (x.sbUp j).wd = x.wd := rfl
@[simp] theorem Ctx.sbUp_notBefore (x : Ctx) (j : BitVec 2) : (x.sbUp j).notBefore = x.notBefore := rfl
@[simp] theorem Ctx.sbUp_wideNotBefore (x : Ctx) (j : BitVec 2) : (x.sbUp j).wideNotBefore = x.wideNotBefore := rfl
@[simp] theorem Ctx.sbUp_trap (x : Ctx) (j : BitVec 2) : (x.sbUp j).trap = x.trap := rfl
@[simp] theorem Ctx.sbUp_latch (x : Ctx) (j : BitVec 2) : (x.sbUp j).latch = x.latch := rfl
@[simp] theorem Ctx.sbUp_gangEvents (x : Ctx) (j : BitVec 2) : (x.sbUp j).gangEvents = x.gangEvents := rfl
@[simp] theorem Ctx.sbUp_deferred (x : Ctx) (j : BitVec 2) : (x.sbUp j).deferred = x.deferred := rfl
@[simp] theorem Ctx.sbUp_branch (x : Ctx) (j : BitVec 2) : (x.sbUp j).branch = x.branch := rfl
@[simp] theorem Ctx.sbUp_fence (x : Ctx) (j : BitVec 2) : (x.sbUp j).fence = x.fence := rfl

@[simp] theorem Ctx.sbDown_pc (x : Ctx) (j : BitVec 2) : (x.sbDown j).pc = x.pc := rfl
@[simp] theorem Ctx.sbDown_run (x : Ctx) (j : BitVec 2) : (x.sbDown j).run = x.run := rfl
@[simp] theorem Ctx.sbDown_g (x : Ctx) (j : BitVec 2) : (x.sbDown j).g = x.g := rfl
@[simp] theorem Ctx.sbDown_q (x : Ctx) (j : BitVec 2) : (x.sbDown j).q = x.q := rfl
@[simp] theorem Ctx.sbDown_m (x : Ctx) (j : BitVec 2) : (x.sbDown j).m = x.m := rfl
@[simp] theorem Ctx.sbDown_fflags (x : Ctx) (j : BitVec 2) : (x.sbDown j).fflags = x.fflags := rfl
@[simp] theorem Ctx.sbDown_rmode (x : Ctx) (j : BitVec 2) : (x.sbDown j).rmode = x.rmode := rfl
@[simp] theorem Ctx.sbDown_blocks (x : Ctx) (j : BitVec 2) : (x.sbDown j).blocks = x.blocks := rfl
@[simp] theorem Ctx.sbDown_cursor (x : Ctx) (j : BitVec 2) : (x.sbDown j).cursor = x.cursor := rfl
@[simp] theorem Ctx.sbDown_wd (x : Ctx) (j : BitVec 2) : (x.sbDown j).wd = x.wd := rfl
@[simp] theorem Ctx.sbDown_notBefore (x : Ctx) (j : BitVec 2) : (x.sbDown j).notBefore = x.notBefore := rfl
@[simp] theorem Ctx.sbDown_wideNotBefore (x : Ctx) (j : BitVec 2) : (x.sbDown j).wideNotBefore = x.wideNotBefore := rfl
@[simp] theorem Ctx.sbDown_trap (x : Ctx) (j : BitVec 2) : (x.sbDown j).trap = x.trap := rfl
@[simp] theorem Ctx.sbDown_latch (x : Ctx) (j : BitVec 2) : (x.sbDown j).latch = x.latch := rfl
@[simp] theorem Ctx.sbDown_gangEvents (x : Ctx) (j : BitVec 2) : (x.sbDown j).gangEvents = x.gangEvents := rfl
@[simp] theorem Ctx.sbDown_deferred (x : Ctx) (j : BitVec 2) : (x.sbDown j).deferred = x.deferred := rfl
@[simp] theorem Ctx.sbDown_branch (x : Ctx) (j : BitVec 2) : (x.sbDown j).branch = x.branch := rfl
@[simp] theorem Ctx.sbDown_fence (x : Ctx) (j : BitVec 2) : (x.sbDown j).fence = x.fence := rfl

end Sys2Proof.Machine
end

