-- ==== Sys2Proof/Laws/Tab.lean ====
section
/-! SUPPORT. Tables: reading after writing, and the canonical form kept by every operation. -/

namespace Sys2Proof.Machine

variable {α : Type}

theorem Tab.find_put_same (t : Tab α) (k : Nat) (v : α) : Tab.find (Tab.put t k v) k = some v := by
  induction t with
  | nil => simp [Tab.put, Tab.find]
  | cons p r ih =>
    obtain ⟨a, b⟩ := p
    simp only [Tab.put]
    split
    · simp [Tab.find]
    · split
      · simp [Tab.find]
      · simp [Tab.find, ih, *]

theorem Tab.find_put_ne (t : Tab α) {k j : Nat} (v : α) (h : j ≠ k) : Tab.find (Tab.put t k v) j = Tab.find t j := by
  induction t with
  | nil => simp [Tab.put, Tab.find, Ne.symm h]
  | cons p r ih =>
    obtain ⟨a, b⟩ := p
    simp only [Tab.put]
    split
    · simp [Tab.find, Ne.symm h]
    · split
      · next he => subst he; simp [Tab.find, Ne.symm h]
      · simp [Tab.find, ih]

theorem Tab.find_erase_same (t : Tab α) (k : Nat) : Tab.find (Tab.erase t k) k = none := by
  induction t with
  | nil => rfl
  | cons p r ih =>
    obtain ⟨a, b⟩ := p
    simp only [Tab.erase]
    split <;> simp [Tab.find, ih, *]

theorem Tab.find_erase_ne (t : Tab α) {k j : Nat} (h : j ≠ k) : Tab.find (Tab.erase t k) j = Tab.find t j := by
  induction t with
  | nil => rfl
  | cons p r ih =>
    obtain ⟨a, b⟩ := p
    simp only [Tab.erase]
    split
    · next he => subst he; simp [Tab.find, ih, Ne.symm h]
    · simp [Tab.find, ih]

@[simp] theorem Tab.get_put_same (d : α) (t : Tab α) (k : Nat) (v : α) : Tab.get d (Tab.put t k v) k = v := by
  simp [Tab.get, Tab.find_put_same]

theorem Tab.get_put_ne (d : α) (t : Tab α) {k j : Nat} (v : α) (h : j ≠ k) : Tab.get d (Tab.put t k v) j = Tab.get d t j := by
  simp [Tab.get, Tab.find_put_ne _ _ h]

@[simp] theorem Tab.get_set_same [DecidableEq α] (d : α) (t : Tab α) (k : Nat) (v : α) : Tab.get d (Tab.set d t k v) k = v := by
  unfold Tab.set
  split
  · next h => simp [Tab.get, Tab.find_erase_same, h]
  · simp

theorem Tab.get_set_ne [DecidableEq α] (d : α) (t : Tab α) {k j : Nat} (v : α) (h : j ≠ k) :
    Tab.get d (Tab.set d t k v) j = Tab.get d t j := by
  unfold Tab.set
  split
  · simp [Tab.get, Tab.find_erase_ne _ h]
  · exact Tab.get_put_ne d t v h

/-! ## The canonical form -/

theorem Tab.sortedFrom_mono [DecidableEq α] (d : α) (t : Tab α) {lo hi : Nat} (h : Tab.sortedFrom d hi t = true) (hl : lo ≤ hi) :
    Tab.sortedFrom d lo t = true := by
  cases t with
  | nil => rfl
  | cons p r =>
    obtain ⟨a, b⟩ := p
    simp only [Tab.sortedFrom, Bool.and_eq_true, decide_eq_true_eq] at h ⊢
    exact ⟨⟨by omega, h.1.2⟩, h.2⟩

theorem Tab.sortedFrom_put [DecidableEq α] (d : α) (t : Tab α) {lo k : Nat} {v : α} (h : Tab.sortedFrom d lo t = true)
    (hk : lo ≤ k) (hv : v ≠ d) : Tab.sortedFrom d lo (Tab.put t k v) = true := by
  induction t generalizing lo with
  | nil => simp [Tab.put, Tab.sortedFrom, hk, hv]
  | cons p r ih =>
    obtain ⟨a, b⟩ := p
    simp only [Tab.sortedFrom, Bool.and_eq_true, decide_eq_true_eq] at h
    simp only [Tab.put]
    split
    · simp only [Tab.sortedFrom, Bool.and_eq_true, decide_eq_true_eq]
      exact ⟨⟨hk, hv⟩, ⟨by omega, h.1.2⟩, h.2⟩
    · split
      · next he => subst he; simp [Tab.sortedFrom, hk, hv, h.2]
      · simp only [Tab.sortedFrom, Bool.and_eq_true, decide_eq_true_eq]
        exact ⟨⟨h.1.1, h.1.2⟩, ih h.2 (by omega)⟩

theorem Tab.sortedFrom_erase [DecidableEq α] (d : α) (t : Tab α) {lo : Nat} (k : Nat) (h : Tab.sortedFrom d lo t = true) :
    Tab.sortedFrom d lo (Tab.erase t k) = true := by
  induction t generalizing lo with
  | nil => rfl
  | cons p r ih =>
    obtain ⟨a, b⟩ := p
    simp only [Tab.sortedFrom, Bool.and_eq_true, decide_eq_true_eq] at h
    simp only [Tab.erase]
    split
    · exact Tab.sortedFrom_mono d _ (ih h.2) (by omega)
    · simp only [Tab.sortedFrom, Bool.and_eq_true, decide_eq_true_eq]
      exact ⟨h.1, ih h.2⟩

theorem Tab.sortedFrom_filter [DecidableEq α] (d : α) (t : Tab α) {lo : Nat} (p : Nat × α → Bool)
    (h : Tab.sortedFrom d lo t = true) : Tab.sortedFrom d lo (t.filter p) = true := by
  induction t generalizing lo with
  | nil => rfl
  | cons q r ih =>
    obtain ⟨a, b⟩ := q
    simp only [Tab.sortedFrom, Bool.and_eq_true, decide_eq_true_eq] at h
    simp only [List.filter]
    split
    · simp only [Tab.sortedFrom, Bool.and_eq_true, decide_eq_true_eq]
      exact ⟨h.1, ih h.2⟩
    · exact Tab.sortedFrom_mono d _ (ih h.2) (by omega)

theorem Tab.wf_set [DecidableEq α] (d : α) (t : Tab α) (k : Nat) (v : α) (h : Tab.wf d t = true) : Tab.wf d (Tab.set d t k v) = true := by
  unfold Tab.set
  split
  · exact Tab.sortedFrom_erase d t k h
  · next hv => exact Tab.sortedFrom_put d t h (Nat.zero_le _) hv

theorem Tab.wf_filter [DecidableEq α] (d : α) (t : Tab α) (p : Nat × α → Bool) (h : Tab.wf d t = true) :
    Tab.wf d (t.filter p) = true :=
  Tab.sortedFrom_filter d t p h

/-! ## Byte tables -/

theorem Tab.readLE_lt (t : Tab Byte) (a n : Nat) : Tab.readLE t a n < 256 ^ n := by
  induction n generalizing a with
  | zero => simp [Tab.readLE]
  | succ n ih =>
    have h1 := (Tab.get 0 t a).isLt
    have h2 := ih (a + 1)
    simp only [Tab.readLE, Nat.pow_succ]
    omega

theorem Tab.get_writeLE_ne (t : Tab Byte) {a n j : Nat} (v : Nat) (h : j < a ∨ a + n ≤ j) :
    Tab.get 0 (Tab.writeLE t a n v) j = Tab.get 0 t j := by
  induction n generalizing t a v with
  | zero => rfl
  | succ n ih =>
    simp only [Tab.writeLE]
    rw [ih _ _ (by omega), Tab.get_set_ne 0 t _ (by omega)]

theorem Tab.get_writeBytes_ne (t : Tab Byte) {a j : Nat} (l : List Byte) (h : j < a ∨ a + l.length ≤ j) :
    Tab.get 0 (Tab.writeBytes t a l) j = Tab.get 0 t j := by
  induction l generalizing t a with
  | nil => rfl
  | cons b r ih =>
    simp only [List.length_cons] at h
    simp only [Tab.writeBytes]
    rw [ih _ (by omega), Tab.get_set_ne 0 t _ (by omega)]

end Sys2Proof.Machine
end

