-- ==== Sys2Proof/Laws/Memory.lean ====
section
/-! SUPPORT. Memory: a byte reads as it was last written under its key, other bytes stay, and every operation on memory keeps
its canonical form; the operations over the state that write no memory. -/

namespace Sys2Proof.Machine

/-! ## Folds -/

/-- A fold of operations that keep a projection keeps it. -/
theorem foldl_keeps {α β γ : Type} (p : α → γ) (f : α → β → α) (hf : ∀ a b, p (f a b) = p a) (l : List β) (a : α) :
    p (l.foldl f a) = p a := by
  induction l generalizing a with
  | nil => rfl
  | cons b r ih => rw [List.foldl_cons, ih, hf]

/-- A fold of operations that keep a property keeps it. -/
theorem foldl_holds {α β : Type} (p : α → Prop) (f : α → β → α) (hf : ∀ a b, p a → p (f a b)) (l : List β) (a : α) (h : p a) :
    p (l.foldl f a) := by
  induction l generalizing a with
  | nil => exact h
  | cons b r ih => exact ih _ (hf a b h)

/-! ## One byte, several bytes -/

theorem Tab.mem_of_get {t : Tab Nat} {k v : Nat} (h : Tab.get 0 t k = v) (hv : v ≠ 0) : (k, v) ∈ t := by
  induction t with
  | nil => exact absurd h.symm hv
  | cons p r ih =>
    obtain ⟨a, b⟩ := p
    simp only [Tab.get, Tab.find] at h ih
    split at h
    · next e => subst e; simp_all
    · exact List.mem_cons_of_mem _ (ih h)

/-- Marking the keys of a list leaves every other key, and marks these. -/
theorem Tab.get_marked {β : Type} (l : List (Nat × β)) (t : Tab Bool) (j : Nat) :
    Tab.get false (l.foldl (fun t p => Tab.set false t p.1 true) t) j = (l.any (fun p => p.1 == j) || Tab.get false t j) := by
  induction l generalizing t with
  | nil => rfl
  | cons p r ih =>
    rw [List.foldl_cons, ih]
    by_cases h : j = p.1
    · subst h; simp
    · rw [Tab.get_set_ne false t true h]
      simp [show (p.1 == j) = false from beq_false_of_ne (Ne.symm h)]

theorem State.keyOf_ne_zero (s : State) (d : BitVec 11) : s.keyOf d ≠ 0 := by simp [State.keyOf]

@[simp] theorem Memory.rekey_bytes (m : Memory) (key l : Nat) : (m.rekey key l).bytes = m.bytes := by unfold Memory.rekey; split <;> rfl
@[simp] theorem Memory.rekey_tags (m : Memory) (key l : Nat) : (m.rekey key l).tags = m.tags := by unfold Memory.rekey; split <;> rfl
@[simp] theorem Memory.rekey_seals (m : Memory) (key l : Nat) : (m.rekey key l).seals = m.seals := by unfold Memory.rekey; split <;> rfl
theorem Memory.rekey_line (m : Memory) (key l : Nat) : Tab.get 0 (m.rekey key l).lines l = key := by
  unfold Memory.rekey
  split
  · assumption
  · simp
theorem Memory.rekey_line_ne (m : Memory) (key : Nat) {l j : Nat} (h : j ≠ l) :
    Tab.get 0 (m.rekey key l).lines j = Tab.get 0 m.lines j := by
  unfold Memory.rekey
  split
  · rfl
  · exact Tab.get_set_ne 0 _ _ h
theorem Memory.rekey_lost_ne (m : Memory) (key l : Nat) {j : Nat} (h : j / 64 ≠ l) :
    Tab.get false (m.rekey key l).lost j = Tab.get false m.lost j := by
  unfold Memory.rekey
  split
  · rfl
  · simp only [Tab.get_marked, Bool.or_eq_right_iff_imp, List.any_eq_true, List.mem_filter, Bool.and_eq_true, beq_iff_eq]
    rintro ⟨p, ⟨-, hl, -⟩, rfl⟩
    exact absurd hl h

/-- A key that seals a line makes none of the line's bytes plaintext or not, under that key. -/
theorem Memory.rekey_plain (m : Memory) {key : Nat} (hk : key ≠ 0) (l j : Nat) : (m.rekey key l).plain key j = m.plain key j := by
  by_cases h : j / 64 = l
  · subst h
    unfold Memory.rekey
    split
    · rfl
    · next hn =>
      simp only [Memory.plain, Tab.get_marked, Tab.get_set_same, beq_self_eq_true, Bool.and_true]
      rw [show (Tab.get 0 m.lines (j / 64) == key) = false from beq_false_of_ne hn]
      by_cases hs : Tab.get 0 m.seals j = key
      · have : (m.seals.filter fun p => p.1 / 64 == j / 64 && p.2 == key).any (fun p => p.1 == j) = true := by
          simp only [List.any_eq_true, List.mem_filter, Bool.and_eq_true, beq_iff_eq]
          exact ⟨(j, key), ⟨Tab.mem_of_get hs hk, rfl, rfl⟩, rfl⟩
        simp [this]
      · simp [hs]
  · simp only [Memory.plain, Memory.rekey_seals, Memory.rekey_line_ne m key h, Memory.rekey_lost_ne m key l h]

theorem Memory.empty_wf : Memory.empty.wf = true := rfl

theorem Memory.byteAs_putByte_same (m : Memory) (key a : Nat) (v : Byte) : (m.putByte key a v).byteAs key a = v := by
  simp [Memory.putByte, Memory.byteAs, Memory.plain, Memory.rekey_line]

/-- A write leaves every other byte as it was for readers under its own key, and every byte of another line for all (R365). -/
theorem Memory.byteAs_putByte_ne (m : Memory) {key k' a j : Nat} (v : Byte) (h : j ≠ a) (hk : k' = key ∧ key ≠ 0 ∨ j / 64 ≠ a / 64) :
    (m.putByte key a v).byteAs k' j = m.byteAs k' j := by
  have hp : (m.putByte key a v).plain k' j = (m.rekey key (a / 64)).plain k' j := by
    simp only [Memory.putByte, Memory.plain, Tab.get_set_ne _ _ _ h, Memory.rekey_seals]
  have hr : (m.rekey key (a / 64)).plain k' j = m.plain k' j := by
    rcases hk with ⟨rfl, h0⟩ | hl
    · exact Memory.rekey_plain m h0 _ _
    · simp only [Memory.plain, Memory.rekey_seals, Memory.rekey_line_ne m key hl, Memory.rekey_lost_ne m key _ hl]
  unfold Memory.byteAs
  rw [hp, hr]
  simp only [Memory.putByte, Memory.rekey_bytes, Memory.rekey_seals, Tab.get_set_ne _ _ _ h]

theorem Memory.byteAs_writeAs_ne (m : Memory) {key k' a n j : Nat} (v : Nat) (h : j < a ∨ a + n ≤ j)
    (hk : k' = key ∧ key ≠ 0 ∨ j / 64 < a / 64 ∨ (a + n - 1) / 64 < j / 64) :
    (m.writeAs key a n v).byteAs k' j = m.byteAs k' j := by
  induction n generalizing m a v with
  | zero => rfl
  | succ n ih =>
    have h1 : a / 64 ≤ (a + n) / 64 := Nat.div_le_div_right (by omega)
    have h2 : a / 64 ≤ (a + 1) / 64 := Nat.div_le_div_right (by omega)
    simp only [Memory.writeAs]
    by_cases hn : n = 0
    · subst hn
      exact Memory.byteAs_putByte_ne m _ (by omega) (by rcases hk with x | x <;> [exact .inl x; exact .inr (by simp at x; omega)])
    · rw [ih _ _ (by omega) ?_, Memory.byteAs_putByte_ne m _ (by omega)]
      · rcases hk with x | x
        · exact .inl x
        · refine .inr ?_
          have h3 : a / 64 ≤ (a + (n + 1) - 1) / 64 := Nat.div_le_div_right (by omega)
          omega
      · rcases hk with x | x
        · exact .inl x
        · refine .inr ?_
          rw [show a + 1 + n - 1 = a + (n + 1) - 1 by omega]
          omega

theorem Memory.byteAs_setTag (m : Memory) (k a j : Nat) : (m.setTag a).byteAs k j = m.byteAs k j := rfl

/-- The parts of a memory's canonical form. -/
theorem Memory.wf_iff (m : Memory) : m.wf = true ↔ Tab.wf 0 m.bytes = true ∧ Tab.wf false m.tags = true ∧ Tab.wf 0 m.seals = true ∧
    Tab.wf 0 m.lines = true ∧ Tab.wf false m.lost = true := by
  simp only [Memory.wf, Bool.and_eq_true]
  tauto

theorem Memory.rekey_wf (m : Memory) (key l : Nat) (h : m.wf = true) : (m.rekey key l).wf = true := by
  unfold Memory.rekey
  split
  · exact h
  · rw [Memory.wf_iff] at h ⊢
    obtain ⟨h1, h2, h3, h4, h5⟩ := h
    exact ⟨h1, h2, h3, Tab.wf_set 0 _ _ _ h4,
      foldl_holds (fun t => Tab.wf false t = true) (fun t (p : Nat × Nat) => Tab.set false t p.1 true) (fun t p ht => Tab.wf_set false t _ _ ht) _ _ h5⟩

theorem Memory.putByte_wf (m : Memory) (key a : Nat) (v : Byte) (h : m.wf = true) : (m.putByte key a v).wf = true := by
  obtain ⟨h1, h2, h3, h4, h5⟩ := (Memory.wf_iff _).1 (m.rekey_wf key (a / 64) h)
  exact (Memory.wf_iff _).2 ⟨Tab.wf_set 0 _ a v h1, Tab.wf_set false _ (a / 16) false h2, Tab.wf_set 0 _ a key h3, h4, Tab.wf_set false _ a false h5⟩

theorem Memory.writeAs_wf (m : Memory) (key a n v : Nat) (h : m.wf = true) : (m.writeAs key a n v).wf = true := by
  induction n generalizing m a v with
  | zero => exact h
  | succ n ih => exact ih _ _ _ (m.putByte_wf key a _ h)

theorem Memory.setTag_wf (m : Memory) (a : Nat) (h : m.wf = true) : (m.setTag a).wf = true := by
  rw [Memory.wf_iff] at h ⊢
  exact ⟨h.1, Tab.wf_set false _ (a / 16) true h.2.1, h.2.2⟩

theorem State.clearStack_wf (s : State) (j : Nat) (h : s.mem.wf = true) : (s.clearStack j).mem.wf = true := by
  rw [Memory.wf_iff] at h ⊢
  obtain ⟨h1, h2, h3, h4, h5⟩ := h
  exact ⟨Tab.wf_filter _ _ _ h1, Tab.wf_filter _ _ _ h2, Tab.wf_filter _ _ _ h3, Tab.wf_filter _ _ _ h4, Tab.wf_filter _ _ _ h5⟩

/-! ## Operations that write no memory -/

@[simp] theorem State.flow_mem (s : State) (a b : Who) : (s.flow a b).mem = s.mem := by
  unfold State.flow
  split <;> rfl
@[simp] theorem State.setPast_mem (s : State) (w : Who) (l : List Nat) : (s.setPast w l).mem = s.mem := by
  unfold State.setPast
  split <;> rfl
@[simp] theorem State.joinPo_mem (s : State) (n k j : Nat) : (s.joinPo n k j).mem = s.mem := by simp [State.joinPo]
@[simp] theorem State.readPast_mem (s : State) (p : Place) (n : Nat) (w : Who) : (s.readPast p n w).mem = s.mem := by
  unfold State.readPast
  split
  · rfl
  · exact foldl_keeps State.mem (fun (s : State) i => s.flow (.byte (p.move i)) w) (fun _ _ => State.flow_mem _ _ _) _ _
@[simp] theorem State.writePast_mem (s : State) (p : Place) (n : Nat) (l : List Nat) : (s.writePast p n l).mem = s.mem := by
  unfold State.writePast
  split
  · rfl
  · dsimp only
    exact foldl_keeps State.mem (fun (t : State) i => t.setPast (.byte (p.move i)) _) (fun _ _ => State.setPast_mem _ _ _) _ _
@[simp] theorem State.emit_mem (s : State) (p : Nat) (o : Out) : (s.emit p o).mem = s.mem := by
  unfold State.emit
  split <;> rfl
@[simp] theorem State.departAs_mem (s : State) (a p : Nat) (d : Option (BitVec 11)) (o : Out) : (s.departAs a p d o).mem = s.mem :=
  State.emit_mem _ _ _
@[simp] theorem State.depart_mem (s : State) (p : Nat) (d : Option (BitVec 11)) (o : Out) : (s.depart p d o).mem = s.mem :=
  State.departAs_mem _ _ _ _ _
@[simp] theorem State.emitTo_mem (s : State) (h : BitVec 16) (o : Out) : (s.emitTo h o).mem = s.mem := State.emit_mem _ _ _
@[simp] theorem State.askPeer_mem (s : State) (key : Nat) (d : BitVec 12) (o : Out) : (s.askPeer key d o).mem = s.mem :=
  State.depart_mem _ _ _ _
@[simp] theorem State.peerBytes_mem (s : State) (pa n : Nat) : (s.peerBytes pa n).2.mem = s.mem := rfl
@[simp] theorem State.lineOut_mem (s : State) (l : HostLine) (o : Out) : (s.lineOut l o).mem = s.mem := by
  unfold State.lineOut
  split <;> simp
@[simp] theorem State.backInvalidate_mem (s : State) (l : Nat) : (s.backInvalidate l).mem = s.mem := by
  unfold State.backInvalidate
  split <;> simp
@[simp] theorem State.lateWrite_mem (s : State) (c : Nat) (po : List Nat) (pa n : Nat) : (s.lateWrite c po pa n).mem = s.mem := rfl
@[simp] theorem State.engineLine_mem (s : State) (l : Nat) : (s.engineLine l).mem = s.mem := rfl
@[simp] theorem State.engineCtx_mem (s : State) (c k : Nat) : (s.engineCtx c k).mem = s.mem := rfl
@[simp] theorem State.takeLine_mem (s : State) (p : Place) : (s.takeLine p).mem = s.mem := by cases p <;> rfl
@[simp] theorem State.dropLine_mem (s : State) (h : BitVec 12) (l : Nat) : (s.dropLine h l).mem = s.mem := rfl
@[simp] theorem State.putLine_mem (s : State) (l : HostLine) : (s.putLine l).mem = s.mem := rfl
@[simp] theorem State.noteCode_mem (s : State) (p : Place) : (s.noteCode p).mem = s.mem := by
  unfold State.noteCode
  dsimp only
  split <;> rfl
@[simp] theorem State.landNow_mem (s : State) (n k : Nat) (r : List Result) (fl : Flags) (set : Option (BitVec 2)) :
    (s.landNow n k r fl set).mem = s.mem := rfl
@[simp] theorem State.reply_mem (s : State) (n k : Nat) (r : List Result) (set : BitVec 2) (h : List Nat) (va : Nat) (ip : W64) :
    (s.reply n k r set h va ip).mem = s.mem := rfl
@[simp] theorem State.aoEvent_mem (s : State) (p : Place) (n : Nat) (l : List Nat) : (s.aoEvent p n l).mem = s.mem := by
  unfold State.aoEvent
  split
  · rfl
  · dsimp only
    refine foldl_keeps State.mem _ (fun _ _ => ?_) _ _
    rfl
@[simp] theorem State.aoRead_mem (s : State) (p : Place) (n : Nat) (w : Who) : (s.aoRead p n w).mem = s.mem := by
  have ht : (if (s.readPast p n w).past.isEmpty then s.readPast p n w
      else (List.range n).foldl (fun (t : State) i => t.flow (.atom (p.move i)) w) (s.readPast p n w)).mem = s.mem := by
    split
    · simp
    · rw [foldl_keeps State.mem (fun (t : State) i => t.flow (.atom (p.move i)) w) (fun _ _ => State.flow_mem _ _ _), State.readPast_mem]
  simpa [State.aoRead] using ht
@[simp] theorem State.endWait_mem (s : State) (w : SyncWait) (v : W64) : (s.endWait w v).mem = s.mem := by simp [State.endWait]
@[simp] theorem State.goNext_mem (s : State) (n k : Nat) : (s.goNext n k).mem = s.mem := rfl
@[simp] theorem State.keepHits_mem (s : State) (n k : Nat) (h : List Nat) (va : Nat) (ip : W64) :
    (s.keepHits n k h va ip).mem = s.mem := by
  unfold State.keepHits
  split <;> rfl
@[simp] theorem State.stopRequest_mem (s : State) (g : Nat) : (s.stopRequest g).mem = s.mem := by simp [State.stopRequest]
@[simp] theorem State.askBack_mem (s : State) (p : Place) : (s.askBack p).mem = s.mem := by
  unfold State.askBack
  dsimp only
  split
  · rfl
  · simp
@[simp] theorem State.askFor_mem (s : State) (p : Place) : (s.askFor p).mem = s.mem := by
  unfold State.askFor
  split <;> simp

@[simp] theorem State.makeRoom_mem (s : State) (a : Nat) : (s.makeRoom a).mem = s.mem := by
  unfold State.makeRoom
  dsimp only
  split
  · rfl
  · split <;> simp
@[simp] theorem State.applySnoop_mem (s : State) (n : Snoop) : (s.applySnoop n).mem = s.mem := by
  unfold State.applySnoop
  split
  · simp
  · simp [apply_ite State.mem]
@[simp] theorem State.drain_mem (s : State) (a : Nat) : (s.drain a).mem = s.mem :=
  foldl_keeps State.mem _ (fun _ _ => State.applySnoop_mem _ _) _ _
@[simp] theorem State.getLine_mem (s : State) (key : Nat) (h : BitVec 12) (l : Nat) (own : Bool) : (s.getLine key h l own).2.mem = s.mem := by
  unfold State.getLine
  split
  · rfl
  · exact State.makeRoom_mem s _
@[simp] theorem State.readPlace_mem (s : State) (key : Nat) (p : Place) (n : Nat) : (s.readPlace key p n).2.mem = s.mem := by
  cases p with
  | hbm pa => rfl
  | peer d pa => simp [State.readPlace]
  | host h pa => exact State.getLine_mem _ _ _ _ _
@[simp] theorem State.readPlaceFor_mem (s : State) (key : Nat) (p : Place) (n : Nat) : (s.readPlaceFor key p n).2.mem = s.mem := by
  cases p with
  | hbm pa => rfl
  | peer d pa => simp [State.readPlaceFor]
  | host h pa => exact State.getLine_mem _ _ _ _ _
@[simp] theorem State.engineRead_mem (s : State) (key pa n : Nat) : (s.engineRead key pa n).2.mem = s.mem := by
  unfold State.engineRead
  dsimp only
  split
  · rfl
  · split <;> rfl
@[simp] theorem State.wake_mem (s : State) (pa n : Nat) : (s.wake pa n).mem = s.mem := by
  unfold State.wake
  refine foldl_keeps State.mem _ (fun t w => ?_) _ _
  dsimp only
  repeat' split
  all_goals simp

@[simp] theorem State.count_mem (s : State) (n c : Nat) : (s.count n c).mem = s.mem := by
  unfold State.count
  dsimp only
  split
  · split
    · rfl
    · exact foldl_keeps State.mem (fun (s : State) j => s.now (.hardwareCounterWrap n (BitVec.ofNat 3 j))) (fun _ _ => rfl) _ _
  · rfl
@[simp] theorem State.missCount_mem (s : State) (n : Nat) : (s.missCount n).mem = s.mem := rfl
@[simp] theorem State.switch_mem (s : State) (n : Nat) : (s.switch n).mem = s.mem := by
  unfold State.switch
  dsimp only
  split
  · rfl
  · rw [State.count_mem, State.updCore_mem]
@[simp] theorem State.wakeOne_mem (s : State) (n k : Nat) : (s.wakeOne n k).mem = s.mem := by
  unfold State.wakeOne
  generalize (s.ctxAt n k).run = r
  cases r with
  | waiting w =>
    cases w with
    | event mask d set =>
      dsimp only
      rw [apply_ite State.mem]
      simp [State.landEvent]
    | start => simp [apply_ite State.mem]
    | _ => rfl
  | _ => rfl
@[simp] theorem State.wakeEvents_mem (s : State) (n : Nat) : (s.wakeEvents n).mem = s.mem :=
  foldl_keeps State.mem (fun (s : State) k => s.wakeOne n k) (fun _ _ => State.wakeOne_mem _ _ _) _ _
@[simp] theorem State.raise_mem (s : State) (n : Nat) (e : W32) : (s.raise n e).mem = s.mem := by simp [State.raise]
@[simp] theorem State.faultExit_mem (s : State) (n : Nat) (c : BitVec 8) : (s.faultExit n c).mem = s.mem := by
  simp [State.faultExit]
@[simp] theorem State.park_mem (s : State) (n k : Nat) (t : Trap) (ip : W64) : (s.park n k t ip).mem = s.mem := by
  simp only [State.park, apply_ite State.mem, State.switch_mem, State.raise_mem, State.updCtx_mem, State.joinPo_mem, ite_self]
@[simp] theorem State.takeTrap_mem (s : State) (n k : Nat) (t : Trap) (ip : W64) : (s.takeTrap n k t ip).mem = s.mem := by
  simp only [State.takeTrap, apply_ite State.mem, State.faultExit_mem, State.now_mem, State.updCtx_mem, State.park_mem, ite_self]
@[simp] theorem State.retire_mem (s : State) (c : Ctl) (pc : W64) (b : Option W64) : (s.retire c pc b).mem = s.mem := by
  unfold State.retire
  dsimp only
  split
  · split <;> simp
  · simp

/-! ## Operations that write memory keep its canonical form -/

theorem State.writePlace_wf (s : State) (key : Nat) (p : Place) (n v : Nat) (tag : Bool) (home : Option (Nat × List Nat))
    (h : s.mem.wf = true) : (s.writePlace key p n v tag home).mem.wf = true := by
  cases p with
  | peer d pa => simpa [State.writePlace] using h
  | host hs pa => simpa [State.writePlace] using h
  | hbm pa =>
    have hm : (if tag = true then (s.mem.writeAs key pa n v).setTag pa else s.mem.writeAs key pa n v).wf = true := by
      split
      · exact Memory.setTag_wf _ _ (Memory.writeAs_wf _ _ _ _ _ h)
      · exact Memory.writeAs_wf _ _ _ _ _ h
    cases home with
    | none => simpa [State.writePlace] using hm
    | some ck => cases hw : s.watched (pa / 64) <;> simpa [State.writePlace, hw] using hm

theorem State.recall_wf (s : State) (line : Nat) (h : s.mem.wf = true) : (s.recall line).mem.wf = true := by
  unfold State.recall
  split
  · exact h
  · dsimp only
    split
    · refine foldl_holds (fun t : State => t.mem.wf = true) _ (fun t i ht => State.writePlace_wf _ _ _ _ _ _ _ ht) _ _ ?_
      simpa [apply_ite State.mem] using h
    · simpa [apply_ite State.mem] using h
theorem State.touch_wf (s : State) (key : Nat) (p : Place) (h : s.mem.wf = true) : (s.touch key p).mem.wf = true := by
  cases p with
  | hbm pa => exact State.recall_wf _ _ h
  | host hs pa => simpa [State.touch] using h
  | peer d pa => exact h
theorem State.look_wf (s : State) (key : Nat) (p : Place) (n : Nat) (h : s.mem.wf = true) : (s.look key p n).mem.wf = true := by
  cases p with
  | peer d pa => simpa [State.look] using h
  | hbm pa => exact State.touch_wf _ _ _ h
  | host hs pa => exact State.touch_wf _ _ _ h
theorem State.walkTouch_wf (n : Nat) (s : State) (view : State → State) (key va : Nat) (top : W64) (table : Nat) (h : s.mem.wf = true) :
    (s.walkTouch view key va top table n).mem.wf = true := by
  induction n generalizing s top table with
  | zero =>
    unfold State.walkTouch
    split
    · exact h
    · exact State.look_wf _ _ _ _ h
  | succ n ih =>
    unfold State.walkTouch
    split
    · exact h
    · next p _ =>
      have ht := State.look_wf s key p 8 h
      revert ht
      generalize s.look key p 8 = t
      intro ht
      dsimp only
      cases (view t).entry key .read va 1 top table (n + 1) with
      | next e frame => exact ih t e frame ht
      | bad _ | page _ => exact ht
theorem State.walkReadyBy_wf (s : State) (view : State → State) (d : BitVec 11) (va : Nat) (h : s.mem.wf = true) :
    (s.walkReadyBy view d va).mem.wf = true := by
  unfold State.walkReadyBy
  split
  · exact h
  · exact State.walkTouch_wf _ _ _ _ _ _ _ h
theorem State.walkReady_wf (s : State) (d : BitVec 11) (va : Nat) (h : s.mem.wf = true) : (s.walkReady d va).mem.wf = true :=
  State.walkReadyBy_wf _ _ _ _ h
theorem State.walksReady_wf (s : State) (d : BitVec 11) (va n : Nat) (h : s.mem.wf = true) : (s.walksReady d va n).mem.wf = true := by
  unfold State.walksReady
  split
  · exact h
  · exact foldl_holds (fun t : State => t.mem.wf = true) _ (fun t i ht => State.walkReady_wf _ _ _ ht) _ _ h
theorem State.walkFor_wf (s : State) (r : GReg) (off : Int) (h : s.mem.wf = true) : (s.walkFor r off).mem.wf = true := by
  unfold State.walkFor
  split
  · exact State.walkReadyBy_wf _ _ _ _ h
  · exact h
theorem State.vready_wf (s : State) (d : BitVec 11) (va n : Nat) (h : s.mem.wf = true) : (s.vready d va n).mem.wf = true := by
  unfold State.vready
  refine foldl_holds (fun t : State => t.mem.wf = true) _ (fun t i ht => ?_) _ _ h
  dsimp only
  split
  · exact State.look_wf _ _ _ _ (State.walkReady_wf _ _ _ ht)
  · exact State.walkReady_wf _ _ _ ht

theorem State.vwriteUnits_wf (l : List (Nat × List Byte)) (s : State) (d : BitVec 11) (e : Nat) (h : s.mem.wf = true) :
    (s.vwriteUnits d e l).1.mem.wf = true := by
  induction l generalizing s with
  | nil => exact h
  | cons u r ih =>
    simp only [State.vwriteUnits]
    split
    · exact State.walkReady_wf _ _ _ h
    · exact ih _ (State.writePlace_wf _ _ _ _ _ _ _ (State.touch_wf _ _ _ (State.walkReady_wf _ _ _ h)))
theorem State.vwrite_wf (l : List Byte) (s : State) (d : BitVec 11) (va : Nat) (h : s.mem.wf = true) :
    (s.vwrite d va l).1.mem.wf = true := State.vwriteUnits_wf _ _ _ _ h

theorem State.vput_wf (s : State) (d : BitVec 11) (va n v : Nat) (h : s.mem.wf = true) : (s.vput d va n v).mem.wf = true := by
  have hw := State.walkReady_wf s d va h
  unfold State.vput
  dsimp only
  split
  · exact State.writePlace_wf _ _ _ _ _ _ _ (State.recall_wf _ _ hw)
  all_goals exact hw

theorem State.vread_wf (n : Nat) (s : State) (d : BitVec 11) (va : Nat) (h : s.mem.wf = true) : (s.vread d va n).2.2.mem.wf = true := by
  induction n generalizing s va with
  | zero => exact h
  | succ n ih =>
    have hw := State.walkReady_wf s d va h
    simp only [State.vread]
    split
    · exact hw
    · refine ih _ _ ?_
      rw [State.readPlace_mem]
      exact State.touch_wf _ _ _ hw

theorem State.traceHead_wf (s : State) (d : BitVec 11) (h : s.mem.wf = true) : (s.traceHead d).mem.wf = true := by
  unfold State.traceHead
  dsimp only
  split
  · exact State.vwrite_wf _ _ _ _ h
  · exact (congrArg Memory.wf (State.updDomain_mem _ _ _)).trans (State.vwrite_wf _ _ _ _ h)
theorem State.traceDrop_wf (s : State) (d : BitVec 11) (h : s.mem.wf = true) : (s.traceDrop d).mem.wf = true :=
  State.traceHead_wf _ _ ((congrArg Memory.wf (State.updDomain_mem _ _ _)).trans h)
theorem State.trace_wf (s : State) (d : BitVec 11) (r : List Byte) (h : s.mem.wf = true) : (s.trace d r).mem.wf = true := by
  have hw : ∀ va l, (s.vwrite d va l).1.mem.wf = true := fun va l => State.vwrite_wf l s d va h
  unfold State.trace
  dsimp only
  split
  · exact h
  · split
    · exact State.traceDrop_wf _ _ h
    · split
      · split
        · exact State.traceDrop_wf _ _ h
        · split
          · exact State.traceDrop_wf _ _ (hw _ _)
          · exact State.traceHead_wf _ _ (hw _ _)
      · split
        · exact State.traceDrop_wf _ _ h
        · split
          · exact State.traceDrop_wf _ _ (hw _ _)
          · exact State.traceHead_wf _ _ (hw _ _)

theorem State.reportHits_wf (s : State) (n : Nat) (recs : List (List Byte)) (h : s.mem.wf = true) : (s.reportHits n recs).mem.wf = true := by
  unfold State.reportHits
  dsimp only
  split
  · exact h
  · rw [State.stopRequest_mem]
    exact foldl_holds (fun t : State => t.mem.wf = true) _ (fun t r ht => State.trace_wf t _ r ht) _ _ h
theorem State.recordHits_wf (s : State) (n k : Nat) (hits : List Nat) (va : Nat) (ip : W64) (h : s.mem.wf = true) :
    (s.recordHits n k hits va ip).mem.wf = true := by
  unfold State.recordHits
  refine State.reportHits_wf _ _ _ ?_
  split <;> exact h

theorem State.performPosted_wf (s : State) (core : Nat) (o : MemOp) (h : s.mem.wf = true) : (s.performPosted core o).mem.wf = true := by
  unfold State.performPosted
  dsimp only
  rw [State.missCount_mem, State.updCore_mem]
  refine State.writePlace_wf _ _ _ _ _ _ _ ?_
  rw [State.writePast_mem]
  split
  · simpa using h
  · exact h

theorem post_wf (s : State) (o : MemOp) (ev : Instr) (h : s.mem.wf = true) : (post s o ev).mem.wf = true := by
  simp only [post, State.later_mem]
  exact State.recordHits_wf _ _ _ _ _ _ h

end Sys2Proof.Machine
end

