-- ==== Sys2Proof/Laws/Ops.lean ====
section
/-! SUPPORT. The shared operations: what an update leaves to be read, what an issuing word comes to, what each of a word's
answers makes of the state, and what memory and its canonical form see of an issue. -/

namespace Sys2Proof.Machine

/-! ## Reading what was written -/

@[simp] theorem State.coreAt_setCore_same (s : State) (n : Nat) (c : Core) : (s.setCore n c).coreAt n = c := by
  simp [State.coreAt, State.setCore]
theorem State.coreAt_setCore_ne (s : State) {n m : Nat} (c : Core) (h : m ≠ n) : (s.setCore n c).coreAt m = s.coreAt m := by
  simp [State.coreAt, State.setCore, Tab.get_put_ne _ _ _ h]
@[simp] theorem State.coreAt_updCore_same (s : State) (n : Nat) (f : Core → Core) : (s.updCore n f).coreAt n = f (s.coreAt n) := by
  simp [State.updCore]
theorem State.coreAt_updCore_ne (s : State) {n m : Nat} (f : Core → Core) (h : m ≠ n) : (s.updCore n f).coreAt m = s.coreAt m :=
  State.coreAt_setCore_ne s _ h
@[simp] theorem Core.ctx_setCtx_same (c : Core) (k : Nat) (x : Ctx) : (c.setCtx k x).ctx k = x := by
  simp [Core.ctx, Core.setCtx]
theorem Core.ctx_setCtx_ne (c : Core) {k j : Nat} (x : Ctx) (h : j ≠ k) : (c.setCtx k x).ctx j = c.ctx j := by
  simp [Core.ctx, Core.setCtx, Tab.get_put_ne _ _ _ h]
@[simp] theorem Core.ctx_updCtx_same (c : Core) (k : Nat) (f : Ctx → Ctx) : (c.updCtx k f).ctx k = f (c.ctx k) := by
  simp [Core.updCtx]
theorem Core.ctx_updCtx_ne (c : Core) {k j : Nat} (f : Ctx → Ctx) (h : j ≠ k) : (c.updCtx k f).ctx j = c.ctx j :=
  Core.ctx_setCtx_ne c _ h
@[simp] theorem State.ctxAt_updCtx_same (s : State) (n k : Nat) (f : Ctx → Ctx) : (s.updCtx n k f).ctxAt n k = f (s.ctxAt n k) := by
  simp [State.ctxAt, State.updCtx]
theorem State.ctxAt_updCtx_ne (s : State) {n k m j : Nat} (f : Ctx → Ctx) (h : m ≠ n ∨ j ≠ k) :
    (s.updCtx n k f).ctxAt m j = s.ctxAt m j := by
  unfold State.ctxAt State.updCtx
  by_cases hm : m = n
  · subst hm
    rw [State.coreAt_updCore_same, Core.ctx_updCtx_ne _ _ (by tauto)]
  · rw [State.coreAt_updCore_ne _ _ hm]

/-! ## Registers -/

theorem Ctx.pred_zero (x : Ctx) : x.pred 0 = true := rfl
theorem Ctx.mask_zero (x : Ctx) : x.mask 0 = BitVec.allOnes 32 := rfl
theorem Ctx.setQ_zero (x : Ctx) (b : Bool) : x.setQ 0 b = x := rfl
theorem Ctx.setM_zero (x : Ctx) (v : W32) : x.setM 0 v = x := rfl
@[simp] theorem Ctx.gReg_setG_same (x : Ctx) (n : BitVec 6) (v : GReg) : (x.setG n v).gReg n = v := by
  simp [Ctx.gReg, Ctx.setG]
theorem Ctx.gReg_setG_ne (x : Ctx) {n m : BitVec 6} (v : GReg) (h : m ≠ n) : (x.setG n v).gReg m = x.gReg m := by
  have h' : m.toNat ≠ n.toNat := fun e => h (BitVec.eq_of_toNat_eq e)
  simp [Ctx.gReg, Ctx.setG, Tab.get_put_ne _ _ _ h']
theorem GReg.readG_data (x : Ctx) (n : BitVec 6) (v : W64) : (x.setG n (GReg.data v)).readG n = v := by
  simp [Ctx.readG, GReg.data]

/-! ## The issue of a word -/

theorem issue_of_issues {c : Ctl} {f : Form} {s : State} (body : State → Eff) (h : Issues c f s = true) :
    issue c f s body = .next (s.finish c f (body s)) := by
  unfold Issues at h
  simp only [Bool.and_eq_true, Bool.not_eq_true'] at h
  obtain ⟨⟨⟨h1, h2⟩, h3⟩, h4⟩ := h
  unfold issue
  rw [h1, h2, h3]
  cases hd : f.d with
  | none => simp
  | some d =>
    rw [hd] at h4
    simp only [Bool.not_eq_true'] at h4
    simp [h4]

theorem issueWide_of_issues {c : Ctl} {hasG : Bool} {s : State} (regs : State → List WRes) (body : State → Eff)
    (h : IssuesWide c s (regs s) = true) : issueWide c fPlain hasG s regs body = .next (s.finish c fPlain (body s)) := by
  unfold IssuesWide at h
  simp only [Bool.and_eq_true, decide_eq_true_eq] at h
  obtain ⟨⟨h1, h2⟩, h3⟩ := h
  have hg : s.guard c = true := by
    unfold Issues at h2
    simp only [Bool.and_eq_true] at h2
    exact h2.1.1.2
  unfold issueWide
  rw [if_neg (by omega), hg]
  simp only [Bool.not_true, Bool.and_false, Bool.false_eq_true, if_false]
  rw [issue_of_issues _ h2]
  cases hb : firstBad (regs s) with
  | none => rfl
  | some e => rw [hb] at h3; simp at h3

/-- A word that issues at all answers a next state: a phase trap, the word after it, the same state, or what its body gives. -/
theorem issue_cases (c : Ctl) (f : Form) (s : State) (body : State → Eff) :
    issue c f s body = .next (s.takeTrap s.core s.k { cause := cPHASE, val := if s.me.proc.exchange then 1 else 0 } s.cx.pc) ∨
      issue c f s body = .next (s.retire c (s.nextPc s.core s.cx.pc)) ∨ issue c f s body = .next s ∨
      issue c f s body = .next (s.finish c f (body s)) := by
  unfold issue
  split
  · exact .inl rfl
  · split
    · exact .inr (.inl rfl)
    · split
      · exact .inr (.inr (.inl rfl))
      · cases f.d with
        | none => exact .inr (.inr (.inr rfl))
        | some d =>
          dsimp only
          split
          · exact .inr (.inr (.inl rfl))
          · exact .inr (.inr (.inr rfl))

theorem issue_goesOn (c : Ctl) (f : Form) (s : State) (body : State → Eff) : goesOn (issue c f s body) := by
  rcases issue_cases c f s body with h | h | h | h <;> exact ⟨_, h⟩

theorem issueWide_goesOn (c : Ctl) (f : Form) (g : Bool) (s : State) (regs : State → List WRes) (body : State → Eff) :
    goesOn (issueWide c f g s regs body) := by
  unfold issueWide
  split
  · exact ⟨_, rfl⟩
  · split
    · exact ⟨_, rfl⟩
    · exact issue_goesOn _ _ _ _

theorem onCore_goesOn {n : Nat} (s : State) (f : State → State) (h : n < Config.coreCount) : onCore n s f = .next (f s) := by
  simp [onCore, h]

/-! ## What a word's answer makes of the state: the forms that neither count nor yield -/

@[simp] theorem stopHere_plain (s : State) : s.stopHere fPlain = false := rfl
@[simp] theorem stopHere_to (s : State) (d : BitVec 6) : s.stopHere (fTo d) = false := rfl
@[simp] theorem stopHere_late (s : State) : s.stopHere fLate = false := rfl
@[simp] theorem stopHere_far (s : State) : s.stopHere fFar = false := rfl
@[simp] theorem stopHere_farLate (s : State) : s.stopHere fFarLate = false := rfl

@[simp] theorem finish_plain_done (s t : State) (c : Ctl) :
    s.finish c fPlain (.done t) = t.retire c (s.nextPc s.core s.cx.pc) := rfl
@[simp] theorem finish_to_done (s t : State) (c : Ctl) (d : BitVec 6) :
    s.finish c (fTo d) (.done t) = t.retire c (s.nextPc s.core s.cx.pc) := rfl
@[simp] theorem finish_plain_jump (s t : State) (c : Ctl) (pc : W64) :
    s.finish c fPlain (.jump t pc) = t.retire c pc (some s.cx.pc) := rfl
@[simp] theorem finish_to_jump (s t : State) (c : Ctl) (d : BitVec 6) (pc : W64) :
    s.finish c (fTo d) (.jump t pc) = t.retire c pc (some s.cx.pc) := rfl
@[simp] theorem finish_trap (s : State) (c : Ctl) (f : Form) (cause : BitVec 8) (val : W64) :
    s.finish c f (.trap cause val) = s.traps cause val := rfl
@[simp] theorem finish_hold (s : State) (c : Ctl) (f : Form) : s.finish c f .hold = s := rfl

@[simp] theorem State.traps_mem (s : State) (cause : BitVec 8) (val : W64) : (s.traps cause val).mem = s.mem := by
  simp [State.traps]

/-- The canonical form of memory survives an issue when it survives the word's own effect. -/
def Eff.memKept (s : State) : Eff → Prop
  | .done t | .jump t _ | .trapIn t _ _ | .wait _ t | .gone t => t.mem.wf = true
  | .trap _ _ | .hold => s.mem.wf = true

theorem finish_memOk (s : State) (c : Ctl) (f : Form) (e : Eff) (hs : memOk s) (h : Eff.memKept s e) : memOk (s.finish c f e) := by
  unfold memOk at hs ⊢
  cases e with
  | trap a b => simpa using hs
  | hold => exact hs
  | trapIn t a b => simpa [State.finish, Eff.memKept] using h
  | gone t => simpa [State.finish, Eff.memKept] using h
  | wait w t =>
    have h' : t.mem.wf = true := h
    simp only [State.finish]
    split
    · split
      · simpa using h'
      · simpa using hs
    · simp only [State.switch_mem, State.count_mem, apply_ite State.mem, State.updCtx_mem, ite_self]
      exact h'
  | done t =>
    have h' : t.mem.wf = true := h
    simp only [State.finish, apply_ite State.mem, State.switch_mem, State.retire_mem, State.updCtx_mem, ite_self]
    exact h'
  | jump t pc =>
    have h' : t.mem.wf = true := h
    simp only [State.finish, apply_ite State.mem, State.switch_mem, State.retire_mem, State.updCtx_mem, ite_self]
    exact h'

theorem issue_memOk (c : Ctl) (f : Form) (s t : State) (body : State → Eff) (hs : memOk s) (hb : Eff.memKept s (body s))
    (h : issue c f s body = .next t) : memOk t := by
  rcases issue_cases c f s body with e | e | e | e <;> rw [e] at h <;> injection h with h <;> subst h
  · simpa [memOk] using hs
  · simpa [memOk] using hs
  · exact hs
  · exact finish_memOk s c f _ hs hb

end Sys2Proof.Machine
end

