-- ==== Sys2Proof/Laws/PerInstr.lean ====
section
/-! SUPPORT. For every instruction: a word that encodes it passes the checks of R67 that look at class, minor, I bit and phase
(steps 1 to 4), in an immediate form its minor has (R62, R66). The steps of agents have no word. -/

namespace Sys2Proof.Laws.WellFormedWord

/-- The minor is assigned, and has the form with this I bit (R62, R66). -/
def hasForm (cls minor : Nat) (imm : Bool) : Bool :=
  match minorForm cls minor with
  | some (some .never) => !imm
  | some (some .only) => imm
  | some (some .both) => true
  | some none | none => false

/-- Steps 1 to 4 of R67, and the form the minor has. -/
def passes (f : Fields) : Bool := hasForm f.cls.toNat f.minor.toNat f.imm && decide (f.hint.extractLsb' 8 2 ≠ 3#2)

def Statement (i : Instr) : Prop := ∀ f, encodeFields i = some f → passes f = true

theorem phase_ok (c : Ctl) : (Ctl.hint c).extractLsb' 8 2 ≠ 3#2 := by
  have h : (Ctl.hint c).extractLsb' 8 2 = c.phase.code := by
    unfold Ctl.hint
    ext i hi
    simp only [BitVec.getElem_extractLsb', BitVec.getLsbD_append]
    have : i = 0 ∨ i = 1 := by omega
    rcases this with rfl | rfl <;> simp
  rw [h]
  cases c.phase <;> decide

theorem passes_mkF (c : Ctl) (cls : BitVec 6) (imm : Bool) (minor : BitVec 7) (x y zhi zlo : BitVec 16)
    (h : hasForm cls.toNat minor.toNat imm = true) : passes (mkF c cls imm minor x y zhi zlo) = true := by
  unfold passes
  rw [Bool.and_eq_true, decide_eq_true_eq]
  exact ⟨h, phase_ok c⟩

theorem passes_mkZ (c : Ctl) (cls : BitVec 6) (minor : BitVec 7) (x y : BitVec 16) (z : SrcZ)
    (h : hasForm cls.toNat minor.toNat true = true) (h' : hasForm cls.toNat minor.toNat false = true) :
    passes (mkZ c cls minor x y z) = true := by
  cases z with
  | imm z => exact passes_mkF _ _ _ _ _ _ _ _ h
  | g n => exact passes_mkF _ _ _ _ _ _ _ _ h'
  | small v => exact passes_mkF _ _ _ _ _ _ _ _ h'

theorem word {i : Instr} {f : Fields} (h : encodeFields i = some f) (p : passes f = true) : Statement i := by
  intro g hg
  rw [h] at hg
  cases hg
  exact p

theorem unencoded {i : Instr} (h : encodeFields i = none) : Statement i := by
  intro g hg
  rw [h] at hg
  cases hg

theorem nop (c : Ctl) : Statement (.nop c) := word rfl (passes_mkF _ _ _ _ _ _ _ _ rfl)
theorem trap (c : Ctl) (code : BitVec 6) (v : GI) : Statement (.trap c code v) := word rfl (passes_mkF _ _ _ _ _ _ _ _ rfl)
theorem eretRetry (c : Ctl) (qd : BitVec 3) (ctx : BitVec 4) : Statement (.eretRetry c qd ctx) := word rfl (passes_mkF _ _ _ _ _ _ _ _ rfl)
theorem eretSkip (c : Ctl) (qd : BitVec 3) (ctx : BitVec 4) : Statement (.eretSkip c qd ctx) := word rfl (passes_mkF _ _ _ _ _ _ _ _ rfl)
theorem eretExit (c : Ctl) (qd : BitVec 3) (ctx : BitVec 4) : Statement (.eretExit c qd ctx) := word rfl (passes_mkF _ _ _ _ _ _ _ _ rfl)
theorem rds (c : Ctl) (d : BitVec 6) (src : BitVec 9) : Statement (.rds c d src) := word rfl (passes_mkF _ _ _ _ _ _ _ _ rfl)
theorem rdsContext (c : Ctl) (d : BitVec 6) (src : CtxReg) (ctx : BitVec 4) : Statement (.rdsContext c d src ctx) :=
  word rfl (passes_mkF _ _ _ _ _ _ _ _ rfl)
theorem wrs (c : Ctl) (dst : BitVec 9) (v : GI) : Statement (.wrs c dst v) := word rfl (passes_mkF _ _ _ _ _ _ _ _ rfl)
theorem wrsContext (c : Ctl) (dst : CtxReg) (v : GI) (ctx : BitVec 4) : Statement (.wrsContext c dst v ctx) :=
  word rfl (passes_mkF _ _ _ _ _ _ _ _ rfl)
theorem retarm (c : Ctl) (d : BitVec 6) (ctx : BitVec 4) : Statement (.retarm c d ctx) := word rfl (passes_mkF _ _ _ _ _ _ _ _ rfl)
theorem scall (c : Ctl) (d e b : BitVec 6) (service : GI) : Statement (.scall c d e b service) := word rfl (passes_mkF _ _ _ _ _ _ _ _ rfl)
theorem bra (c : Ctl) (off : BitVec 32) : Statement (.bra c off) := word rfl (passes_mkF _ _ _ _ _ _ _ _ rfl)
theorem brx (c : Ctl) (t : BitVec 6) : Statement (.brx c t) := word rfl (passes_mkF _ _ _ _ _ _ _ _ rfl)
theorem callRelative (c : Ctl) (l : BitVec 6) (off : BitVec 32) : Statement (.callRelative c l off) :=
  word rfl (passes_mkF _ _ _ _ _ _ _ _ rfl)
theorem callRegister (c : Ctl) (l t : BitVec 6) : Statement (.callRegister c l t) := word rfl (passes_mkF _ _ _ _ _ _ _ _ rfl)
theorem ret (c : Ctl) (l : BitVec 6) : Statement (.ret c l) := word rfl (passes_mkF _ _ _ _ _ _ _ _ rfl)
theorem loop (c : Ctl) (n : BitVec 6) (off : BitVec 32) : Statement (.loop c n off) := word rfl (passes_mkF _ _ _ _ _ _ _ _ rfl)
theorem add (c : Ctl) (d a : BitVec 6) (b : SrcZ) : Statement (.add c d a b) := word rfl (passes_mkZ _ _ _ _ _ _ rfl rfl)
theorem sub (c : Ctl) (d a : BitVec 6) (b : SrcZ) : Statement (.sub c d a b) := word rfl (passes_mkZ _ _ _ _ _ _ rfl rfl)
theorem and (c : Ctl) (d a : BitVec 6) (b : SrcZ) : Statement (.and c d a b) := word rfl (passes_mkZ _ _ _ _ _ _ rfl rfl)
theorem or (c : Ctl) (d a : BitVec 6) (b : SrcZ) : Statement (.or c d a b) := word rfl (passes_mkZ _ _ _ _ _ _ rfl rfl)
theorem xor (c : Ctl) (d a : BitVec 6) (b : SrcZ) : Statement (.xor c d a b) := word rfl (passes_mkZ _ _ _ _ _ _ rfl rfl)
theorem andn (c : Ctl) (d a : BitVec 6) (b : SrcZ) : Statement (.andn c d a b) := word rfl (passes_mkZ _ _ _ _ _ _ rfl rfl)
theorem shl (c : Ctl) (d a : BitVec 6) (b : SrcZ) : Statement (.shl c d a b) := word rfl (passes_mkZ _ _ _ _ _ _ rfl rfl)
theorem shr (c : Ctl) (d a : BitVec 6) (b : SrcZ) : Statement (.shr c d a b) := word rfl (passes_mkZ _ _ _ _ _ _ rfl rfl)
theorem sar (c : Ctl) (d a : BitVec 6) (b : SrcZ) : Statement (.sar c d a b) := word rfl (passes_mkZ _ _ _ _ _ _ rfl rfl)
theorem rot (c : Ctl) (d a : BitVec 6) (b : SrcZ) : Statement (.rot c d a b) := word rfl (passes_mkZ _ _ _ _ _ _ rfl rfl)
theorem min (c : Ctl) (d a : BitVec 6) (b : SrcZ) : Statement (.min c d a b) := word rfl (passes_mkZ _ _ _ _ _ _ rfl rfl)
theorem max (c : Ctl) (d a : BitVec 6) (b : SrcZ) : Statement (.max c d a b) := word rfl (passes_mkZ _ _ _ _ _ _ rfl rfl)
theorem minn (c : Ctl) (d a : BitVec 6) (b : SrcZ) : Statement (.minn c d a b) := word rfl (passes_mkZ _ _ _ _ _ _ rfl rfl)
theorem maxn (c : Ctl) (d a : BitVec 6) (b : SrcZ) : Statement (.maxn c d a b) := word rfl (passes_mkZ _ _ _ _ _ _ rfl rfl)
theorem mul (c : Ctl) (d a : BitVec 6) (b : SrcZ) : Statement (.mul c d a b) := word rfl (passes_mkZ _ _ _ _ _ _ rfl rfl)
theorem mulh (c : Ctl) (d a : BitVec 6) (b : SrcZ) : Statement (.mulh c d a b) := word rfl (passes_mkZ _ _ _ _ _ _ rfl rfl)
theorem mulhn (c : Ctl) (d a : BitVec 6) (b : SrcZ) : Statement (.mulhn c d a b) := word rfl (passes_mkZ _ _ _ _ _ _ rfl rfl)
theorem div (c : Ctl) (d a : BitVec 6) (b : SrcZ) : Statement (.div c d a b) := word rfl (passes_mkZ _ _ _ _ _ _ rfl rfl)
theorem divn (c : Ctl) (d a : BitVec 6) (b : SrcZ) : Statement (.divn c d a b) := word rfl (passes_mkZ _ _ _ _ _ _ rfl rfl)
theorem rem (c : Ctl) (d a : BitVec 6) (b : SrcZ) : Statement (.rem c d a b) := word rfl (passes_mkZ _ _ _ _ _ _ rfl rfl)
theorem remn (c : Ctl) (d a : BitVec 6) (b : SrcZ) : Statement (.remn c d a b) := word rfl (passes_mkZ _ _ _ _ _ _ rfl rfl)
theorem clz (c : Ctl) (d a : BitVec 6) : Statement (.clz c d a) := word rfl (passes_mkF _ _ _ _ _ _ _ _ rfl)
theorem ctz (c : Ctl) (d a : BitVec 6) : Statement (.ctz c d a) := word rfl (passes_mkF _ _ _ _ _ _ _ _ rfl)
theorem popc (c : Ctl) (d a : BitVec 6) : Statement (.popc c d a) := word rfl (passes_mkF _ _ _ _ _ _ _ _ rfl)
theorem bfx (c : Ctl) (d a : BitVec 6) (p n : GI) : Statement (.bfx c d a p n) := word rfl (passes_mkF _ _ _ _ _ _ _ _ rfl)
theorem bfxs (c : Ctl) (d a : BitVec 6) (p n : GI) : Statement (.bfxs c d a p n) := word rfl (passes_mkF _ _ _ _ _ _ _ _ rfl)
theorem bfi (c : Ctl) (d a : BitVec 6) (p n : GI) : Statement (.bfi c d a p n) := word rfl (passes_mkF _ _ _ _ _ _ _ _ rfl)
theorem brev (c : Ctl) (d a : BitVec 6) : Statement (.brev c d a) := word rfl (passes_mkF _ _ _ _ _ _ _ _ rfl)
theorem ext (c : Ctl) (d : BitVec 6) (f : IFmt) (a : BitVec 6) : Statement (.ext c d f a) := word rfl (passes_mkF _ _ _ _ _ _ _ _ rfl)
theorem movi (c : Ctl) (d : BitVec 6) (z : BitVec 32) : Statement (.movi c d z) := word rfl (passes_mkF _ _ _ _ _ _ _ _ rfl)
theorem movh (c : Ctl) (d : BitVec 6) (z : BitVec 32) : Statement (.movh c d z) := word rfl (passes_mkF _ _ _ _ _ _ _ _ rfl)
theorem cmp (c : Ctl) (qd : BitVec 3) (r : Rel) (a : BitVec 6) (b : SrcZ) : Statement (.cmp c qd r a b) :=
  word rfl (passes_mkZ _ _ _ _ _ _ rfl rfl)
theorem sel (c : Ctl) (d : BitVec 6) (qs : BitVec 3) (a b : BitVec 6) : Statement (.sel c d qs a b) :=
  word rfl (passes_mkF _ _ _ _ _ _ _ _ rfl)
theorem pand (c : Ctl) (qd qa qb : BitVec 3) : Statement (.pand c qd qa qb) := word rfl (passes_mkF _ _ _ _ _ _ _ _ rfl)
theorem por (c : Ctl) (qd qa qb : BitVec 3) : Statement (.por c qd qa qb) := word rfl (passes_mkF _ _ _ _ _ _ _ _ rfl)
theorem pnot (c : Ctl) (qd qa : BitVec 3) : Statement (.pnot c qd qa) := word rfl (passes_mkF _ _ _ _ _ _ _ _ rfl)
theorem fadd (c : Ctl) (f : FFmt) (rm : Rm) (d a b : BitVec 6) : Statement (.fadd c f rm d a b) := word rfl (passes_mkF _ _ _ _ _ _ _ _ rfl)
theorem fsub (c : Ctl) (f : FFmt) (rm : Rm) (d a b : BitVec 6) : Statement (.fsub c f rm d a b) := word rfl (passes_mkF _ _ _ _ _ _ _ _ rfl)
theorem fmul (c : Ctl) (f : FFmt) (rm : Rm) (d a b : BitVec 6) : Statement (.fmul c f rm d a b) := word rfl (passes_mkF _ _ _ _ _ _ _ _ rfl)
theorem ffma (c : Ctl) (f : FFmt) (rm : Rm) (d a b e : BitVec 6) : Statement (.ffma c f rm d a b e) :=
  word rfl (passes_mkF _ _ _ _ _ _ _ _ rfl)
theorem fdiv (c : Ctl) (f : FFmt) (rm : Rm) (d a b : BitVec 6) : Statement (.fdiv c f rm d a b) := word rfl (passes_mkF _ _ _ _ _ _ _ _ rfl)
theorem fsqrt (c : Ctl) (f : FFmt) (rm : Rm) (d a : BitVec 6) : Statement (.fsqrt c f rm d a) := word rfl (passes_mkF _ _ _ _ _ _ _ _ rfl)
theorem fmin (c : Ctl) (f : FFmt) (d a b : BitVec 6) : Statement (.fmin c f d a b) := word rfl (passes_mkF _ _ _ _ _ _ _ _ rfl)
theorem fmax (c : Ctl) (f : FFmt) (d a b : BitVec 6) : Statement (.fmax c f d a b) := word rfl (passes_mkF _ _ _ _ _ _ _ _ rfl)
theorem fcmp (c : Ctl) (f : FFmt) (r : FRel) (qd : BitVec 3) (a b : BitVec 6) : Statement (.fcmp c f r qd a b) :=
  word rfl (passes_mkF _ _ _ _ _ _ _ _ rfl)
theorem fclass (c : Ctl) (f : FFmt) (d a : BitVec 6) : Statement (.fclass c f d a) := word rfl (passes_mkF _ _ _ _ _ _ _ _ rfl)
theorem fcvt (c : Ctl) (dst : NFmt) (rm : RmSat) (src : NFmt) (d a : BitVec 6) : Statement (.fcvt c dst rm src d a) :=
  word rfl (passes_mkF _ _ _ _ _ _ _ _ rfl)
theorem fsgn (c : Ctl) (f : FFmt) (op : SgnOp) (d a b : BitVec 6) : Statement (.fsgn c f op d a b) :=
  word rfl (passes_mkF _ _ _ _ _ _ _ _ rfl)
theorem ldl (c : Ctl) (f : IFmt) (d w : BitVec 6) (off : SrcZ) : Statement (.ldl c f d w off) := word rfl (passes_mkZ _ _ _ _ _ _ rfl rfl)
theorem stl (c : Ctl) (f : IFmt) (s w : BitVec 6) (off : SrcZ) : Statement (.stl c f s w off) := word rfl (passes_mkZ _ _ _ _ _ _ rfl rfl)
theorem cbound (c : Ctl) (d s : BitVec 6) (b : SrcZ) : Statement (.cbound c d s b) := word rfl (passes_mkZ _ _ _ _ _ _ rfl rfl)
theorem cperm (c : Ctl) (d s : BitVec 6) (b : SrcZ) : Statement (.cperm c d s b) := word rfl (passes_mkZ _ _ _ _ _ _ rfl rfl)
theorem cget (c : Ctl) (d s : BitVec 6) (sel : BitVec 3) : Statement (.cget c d s sel) := word rfl (passes_mkF _ _ _ _ _ _ _ _ rfl)
theorem cderive (c : Ctl) (d s : BitVec 6) (b : SrcZ) : Statement (.cderive c d s b) := word rfl (passes_mkZ _ _ _ _ _ _ rfl rfl)
theorem ctest (c : Ctl) (qd : BitVec 3) (s : BitVec 6) (k : BitVec 3) : Statement (.ctest c qd s k) :=
  word rfl (passes_mkF _ _ _ _ _ _ _ _ rfl)
theorem cnull (c : Ctl) (d : BitVec 6) : Statement (.cnull c d) := word rfl (passes_mkF _ _ _ _ _ _ _ _ rfl)
theorem cmove (c : Ctl) (d s : BitVec 6) : Statement (.cmove c d s) := word rfl (passes_mkF _ _ _ _ _ _ _ _ rfl)
theorem vadd (c : Ctl) (f : FFmt) (rm : Rm) (d a : WOp) (b : WG) (m : BitVec 3) : Statement (.vadd c f rm d a b m) :=
  word rfl (passes_mkF _ _ _ _ _ _ _ _ rfl)
theorem vsub (c : Ctl) (f : FFmt) (rm : Rm) (d a : WOp) (b : WG) (m : BitVec 3) : Statement (.vsub c f rm d a b m) :=
  word rfl (passes_mkF _ _ _ _ _ _ _ _ rfl)
theorem vmul (c : Ctl) (f : FFmt) (rm : Rm) (d a : WOp) (b : WG) (m : BitVec 3) : Statement (.vmul c f rm d a b m) :=
  word rfl (passes_mkF _ _ _ _ _ _ _ _ rfl)
theorem vfma (c : Ctl) (f : FFmt) (rm : Rm) (d : WOp) (a b : WG) (e : WOp) (m : BitVec 3) : Statement (.vfma c f rm d a b e m) :=
  word rfl (passes_mkF _ _ _ _ _ _ _ _ rfl)
theorem vmin (c : Ctl) (f : FFmt) (d a : WOp) (b : WG) (m : BitVec 3) : Statement (.vmin c f d a b m) :=
  word rfl (passes_mkF _ _ _ _ _ _ _ _ rfl)
theorem vmax (c : Ctl) (f : FFmt) (d a : WOp) (b : WG) (m : BitVec 3) : Statement (.vmax c f d a b m) :=
  word rfl (passes_mkF _ _ _ _ _ _ _ _ rfl)
theorem vabs (c : Ctl) (f : FFmt) (d a : WOp) (m : BitVec 3) : Statement (.vabs c f d a m) := word rfl (passes_mkF _ _ _ _ _ _ _ _ rfl)
theorem vneg (c : Ctl) (f : FFmt) (d a : WOp) (m : BitVec 3) : Statement (.vneg c f d a m) := word rfl (passes_mkF _ _ _ _ _ _ _ _ rfl)
theorem vrcp (c : Ctl) (f : FFmt) (rm : Rm) (d a : WOp) (m : BitVec 3) : Statement (.vrcp c f rm d a m) :=
  word rfl (passes_mkF _ _ _ _ _ _ _ _ rfl)
theorem vrsq (c : Ctl) (f : FFmt) (rm : Rm) (d a : WOp) (m : BitVec 3) : Statement (.vrsq c f rm d a m) :=
  word rfl (passes_mkF _ _ _ _ _ _ _ _ rfl)
theorem vexp2 (c : Ctl) (f : FFmt) (rm : Rm) (d a : WOp) (m : BitVec 3) : Statement (.vexp2 c f rm d a m) :=
  word rfl (passes_mkF _ _ _ _ _ _ _ _ rfl)
theorem vlog2 (c : Ctl) (f : FFmt) (rm : Rm) (d a : WOp) (m : BitVec 3) : Statement (.vlog2 c f rm d a m) :=
  word rfl (passes_mkF _ _ _ _ _ _ _ _ rfl)
theorem vdiv (c : Ctl) (f : FFmt) (rm : Rm) (d a : WOp) (b : WG) (m : BitVec 3) : Statement (.vdiv c f rm d a b m) :=
  word rfl (passes_mkF _ _ _ _ _ _ _ _ rfl)
theorem viadd (c : Ctl) (f : IFmt) (d a : WOp) (b : WGI) (m : BitVec 3) : Statement (.viadd c f d a b m) :=
  word rfl (passes_mkF _ _ _ _ _ _ _ _ rfl)
theorem visub (c : Ctl) (f : IFmt) (d a : WOp) (b : WGI) (m : BitVec 3) : Statement (.visub c f d a b m) :=
  word rfl (passes_mkF _ _ _ _ _ _ _ _ rfl)
theorem vimul (c : Ctl) (f : IFmt) (d a : WOp) (b : WGI) (m : BitVec 3) : Statement (.vimul c f d a b m) :=
  word rfl (passes_mkF _ _ _ _ _ _ _ _ rfl)
theorem vand (c : Ctl) (f : IFmt) (d a : WOp) (b : WGI) (m : BitVec 3) : Statement (.vand c f d a b m) :=
  word rfl (passes_mkF _ _ _ _ _ _ _ _ rfl)
theorem vor (c : Ctl) (f : IFmt) (d a : WOp) (b : WGI) (m : BitVec 3) : Statement (.vor c f d a b m) :=
  word rfl (passes_mkF _ _ _ _ _ _ _ _ rfl)
theorem vxor (c : Ctl) (f : IFmt) (d a : WOp) (b : WGI) (m : BitVec 3) : Statement (.vxor c f d a b m) :=
  word rfl (passes_mkF _ _ _ _ _ _ _ _ rfl)
theorem vshl (c : Ctl) (f : IFmt) (d a : WOp) (b : WGI) (m : BitVec 3) : Statement (.vshl c f d a b m) :=
  word rfl (passes_mkF _ _ _ _ _ _ _ _ rfl)
theorem vshr (c : Ctl) (f : IFmt) (d a : WOp) (b : WGI) (m : BitVec 3) : Statement (.vshr c f d a b m) :=
  word rfl (passes_mkF _ _ _ _ _ _ _ _ rfl)
theorem vsar (c : Ctl) (f : IFmt) (d a : WOp) (b : WGI) (m : BitVec 3) : Statement (.vsar c f d a b m) :=
  word rfl (passes_mkF _ _ _ _ _ _ _ _ rfl)
theorem vcmp (c : Ctl) (r : VRel) (md : BitVec 3) (a : WOp) (b : WGI) (m : BitVec 3) : Statement (.vcmp c r md a b m) :=
  word rfl (passes_mkF _ _ _ _ _ _ _ _ rfl)
theorem vsel (c : Ctl) (d a b : WOp) (m : BitVec 3) : Statement (.vsel c d a b m) := word rfl (passes_mkF _ _ _ _ _ _ _ _ rfl)
theorem mand (c : Ctl) (md ma mb : BitVec 3) : Statement (.mand c md ma mb) := word rfl (passes_mkF _ _ _ _ _ _ _ _ rfl)
theorem mor (c : Ctl) (md ma mb : BitVec 3) : Statement (.mor c md ma mb) := word rfl (passes_mkF _ _ _ _ _ _ _ _ rfl)
theorem mnot (c : Ctl) (md ma : BitVec 3) : Statement (.mnot c md ma) := word rfl (passes_mkF _ _ _ _ _ _ _ _ rfl)
theorem vperm (c : Ctl) (d a i : WOp) (m : BitVec 3) : Statement (.vperm c d a i m) := word rfl (passes_mkF _ _ _ _ _ _ _ _ rfl)
theorem vshuf (c : Ctl) (d a b i : WOp) (m : BitVec 3) : Statement (.vshuf c d a b i m) := word rfl (passes_mkF _ _ _ _ _ _ _ _ rfl)
theorem vbcast (c : Ctl) (f : NFmt) (d : WOp) (s : GI) (m : BitVec 3) : Statement (.vbcast c f d s m) :=
  word rfl (passes_mkF _ _ _ _ _ _ _ _ rfl)
theorem vextr (c : Ctl) (d : BitVec 6) (a : WOp) (lane : BitVec 5) : Statement (.vextr c d a lane) :=
  word rfl (passes_mkF _ _ _ _ _ _ _ _ rfl)
theorem vins (c : Ctl) (d : WOp) (s : GI) (lane : BitVec 5) : Statement (.vins c d s lane) := word rfl (passes_mkF _ _ _ _ _ _ _ _ rfl)
theorem vrsum (c : Ctl) (f : SumFmt) (d a : WOp) (m : BitVec 3) : Statement (.vrsum c f d a m) := word rfl (passes_mkF _ _ _ _ _ _ _ _ rfl)
theorem vrmax (c : Ctl) (f : MaxFmt) (d a : WOp) (m : BitVec 3) : Statement (.vrmax c f d a m) := word rfl (passes_mkF _ _ _ _ _ _ _ _ rfl)
theorem vrmin (c : Ctl) (f : MaxFmt) (d a : WOp) (m : BitVec 3) : Statement (.vrmin c f d a m) := word rfl (passes_mkF _ _ _ _ _ _ _ _ rfl)
theorem vcvt (c : Ctl) (dst : NFmt) (rm : RmSat) (src : NFmt) (d a : WOp) (m : BitVec 3) : Statement (.vcvt c dst rm src d a m) :=
  word rfl (passes_mkF _ _ _ _ _ _ _ _ rfl)
theorem vpxenc (c : Ctl) (px : PxFmt) (rm : Rm) (src : FFmt) (d a : WOp) : Statement (.vpxenc c px rm src d a) :=
  word rfl (passes_mkF _ _ _ _ _ _ _ _ rfl)
theorem vpxdec (c : Ctl) (dst : FFmt) (rm : Rm) (px : PxFmt) (d a : WOp) : Statement (.vpxdec c dst rm px d a) :=
  word rfl (passes_mkF _ _ _ _ _ _ _ _ rfl)
theorem vldlImmediate (c : Ctl) (d : WOp) (w : BitVec 6) (off : BitVec 32) : Statement (.vldlImmediate c d w off) :=
  word rfl (passes_mkF _ _ _ _ _ _ _ _ rfl)
theorem vldlRegister (c : Ctl) (d : WOp) (w : BitVec 6) (off : BitVec 12) (m : BitVec 3) : Statement (.vldlRegister c d w off m) :=
  word rfl (passes_mkF _ _ _ _ _ _ _ _ rfl)
theorem vstlImmediate (c : Ctl) (s : WOp) (w : BitVec 6) (off : BitVec 32) : Statement (.vstlImmediate c s w off) :=
  word rfl (passes_mkF _ _ _ _ _ _ _ _ rfl)
theorem vstlRegister (c : Ctl) (s : WOp) (w : BitVec 6) (off : BitVec 12) (m : BitVec 3) : Statement (.vstlRegister c s w off m) :=
  word rfl (passes_mkF _ _ _ _ _ _ _ _ rfl)
theorem vldx (c : Ctl) (d : WOp) (w : BitVec 6) (i : WOp) (m : BitVec 3) : Statement (.vldx c d w i m) :=
  word rfl (passes_mkF _ _ _ _ _ _ _ _ rfl)
theorem vstx (c : Ctl) (s : WOp) (w : BitVec 6) (i : WOp) (m : BitVec 3) : Statement (.vstx c s w i m) :=
  word rfl (passes_mkF _ _ _ _ _ _ _ _ rfl)
theorem allot (c : Ctl) (qd : BitVec 3) : Statement (.allot c qd) := word rfl (passes_mkF _ _ _ _ _ _ _ _ rfl)
theorem shrink (c : Ctl) (qd : BitVec 3) : Statement (.shrink c qd) := word rfl (passes_mkF _ _ _ _ _ _ _ _ rfl)
theorem vmov (c : Ctl) (d a : WOp) (m : BitVec 3) : Statement (.vmov c d a m) := word rfl (passes_mkF _ _ _ _ _ _ _ _ rfl)
theorem mclaim (c : Ctl) (qd : BitVec 3) (k : BitVec 5) : Statement (.mclaim c qd k) := word rfl (passes_mkF _ _ _ _ _ _ _ _ rfl)
theorem mrel (c : Ctl) (k : BitVec 5) : Statement (.mrel c k) := word rfl (passes_mkF _ _ _ _ _ _ _ _ rfl)
theorem mloadImmediate (c : Ctl) (k : BitVec 5) (w : BitVec 6) (desc : BitVec 32) : Statement (.mloadImmediate c k w desc) :=
  word rfl (passes_mkF _ _ _ _ _ _ _ _ rfl)
theorem mloadRegister (c : Ctl) (k : BitVec 5) (w : BitVec 6) (desc : BitVec 6) : Statement (.mloadRegister c k w desc) :=
  word rfl (passes_mkF _ _ _ _ _ _ _ _ rfl)
theorem mloadCompletion (core id : Nat) : Statement (.mloadCompletion core id) := unencoded rfl
theorem mcfg (c : Ctl) (a : BitVec 2) (shape : BitVec 3) : Statement (.mcfg c a shape) := word rfl (passes_mkF _ _ _ _ _ _ _ _ rfl)
theorem mzero (c : Ctl) (a : BitVec 2) : Statement (.mzero c a) := word rfl (passes_mkF _ _ _ _ _ _ _ _ rfl)
theorem mgang (c : Ctl) (f : MFmt) (a : BitVec 2) (ka kb : BitVec 5) (tag : BitVec 4) : Statement (.mgang c f a ka kb tag) :=
  word rfl (passes_mkF _ _ _ _ _ _ _ _ rfl)
theorem matrixOperationStart (arbor : Nat) : Statement (.matrixOperationStart arbor) := unencoded rfl
theorem matrixOperationCompletion (arbor : Nat) : Statement (.matrixOperationCompletion arbor) := unencoded rfl
theorem mwait (c : Ctl) (a : BitVec 2) : Statement (.mwait c a) := word rfl (passes_mkF _ _ _ _ _ _ _ _ rfl)
theorem mrdacc (c : Ctl) (d : WOp) (a : BitVec 2) (j : BitVec 5) : Statement (.mrdacc c d a j) := word rfl (passes_mkF _ _ _ _ _ _ _ _ rfl)
theorem mwracc (c : Ctl) (a : BitVec 2) (s : WOp) (j : BitVec 5) : Statement (.mwracc c a s j) := word rfl (passes_mkF _ _ _ _ _ _ _ _ rfl)
theorem mstacc (c : Ctl) (a : BitVec 2) (w : BitVec 6) (off : SrcZ) : Statement (.mstacc c a w off) :=
  word rfl (passes_mkZ _ _ _ _ _ _ rfl rfl)
theorem wideIssue (core : Nat) : Statement (.wideIssue core) := unencoded rfl
theorem ld (c : Ctl) (f : MemFmt) (p : Policy) (d w : BitVec 6) (off : SrcZ) : Statement (.ld c f p d w off) :=
  word rfl (passes_mkZ _ _ _ _ _ _ rfl rfl)
theorem st (c : Ctl) (f : MemFmt) (p : Policy) (s w : BitVec 6) (off : SrcZ) : Statement (.st c f p s w off) :=
  word rfl (passes_mkZ _ _ _ _ _ _ rfl rfl)
theorem pref (c : Ctl) (p : Policy) (w : BitVec 6) (off : SrcZ) : Statement (.pref c p w off) := word rfl (passes_mkZ _ _ _ _ _ _ rfl rfl)
theorem ldacq (c : Ctl) (sc : Scope) (f : MemFmt) (p : Policy) (d w : BitVec 6) (off : SrcZ) : Statement (.ldacq c sc f p d w off) :=
  word rfl (passes_mkZ _ _ _ _ _ _ (by cases sc <;> rfl) (by cases sc <;> rfl))
theorem strel (c : Ctl) (sc : Scope) (f : MemFmt) (p : Policy) (s w : BitVec 6) (off : SrcZ) : Statement (.strel c sc f p s w off) :=
  word rfl (passes_mkZ _ _ _ _ _ _ (by cases sc <;> rfl) (by cases sc <;> rfl))
theorem loadResponse (core ctx : Nat) : Statement (.loadResponse core ctx) := unencoded rfl
theorem postedWritePerform (core id : Nat) : Statement (.postedWritePerform core id) := unencoded rfl
theorem fence (c : Ctl) (sc : Scope) : Statement (.fence c sc) := word rfl (passes_mkF _ _ _ _ _ _ _ _ (by cases sc <;> rfl))
theorem fenceRed (c : Ctl) (sc : Scope) : Statement (.fenceRed c sc) := word rfl (passes_mkF _ _ _ _ _ _ _ _ (by cases sc <;> rfl))
theorem fenceEng (c : Ctl) : Statement (.fenceEng c) := word rfl (passes_mkF _ _ _ _ _ _ _ _ rfl)
theorem amo (c : Ctl) (sc : Scope) (f : AFmt) (op : AmoOp) (d w v : BitVec 6) (off : GI) : Statement (.amo c sc f op d w v off) :=
  word rfl (passes_mkF _ _ _ _ _ _ _ _ (by cases sc <;> rfl))
theorem cas (c : Ctl) (sc : Scope) (f : AFmt) (d w e : BitVec 6) (off : GI) : Statement (.cas c sc f d w e off) :=
  word rfl (passes_mkF _ _ _ _ _ _ _ _ (by cases sc <;> rfl))
theorem red (c : Ctl) (sc : Scope) (f : AFmt) (op : AmoOp) (w v : BitVec 6) (off : GI) : Statement (.red c sc f op w v off) :=
  word rfl (passes_mkF _ _ _ _ _ _ _ _ (by cases sc <;> rfl))
theorem kioskAtomicPerform (core ctx id : Nat) : Statement (.kioskAtomicPerform core ctx id) := unencoded rfl
theorem atomicResponse (core ctx id : Nat) : Statement (.atomicResponse core ctx id) := unencoded rfl
theorem kioskRefusal (core ctx id : Nat) (why : RefuseWhy) : Statement (.kioskRefusal core ctx id why) := unencoded rfl
theorem remoteTimeout (core ctx id : Nat) : Statement (.remoteTimeout core ctx id) := unencoded rfl
theorem swait (c : Ctl) (f : WFmt) (r : Rel) (d w v : BitVec 6) (off : GI) : Statement (.swait c f r d w v off) :=
  word rfl (passes_mkF _ _ _ _ _ _ _ _ rfl)
theorem fwait (c : Ctl) (d w : BitVec 6) (off : SrcZ) : Statement (.fwait c d w off) := word rfl (passes_mkZ _ _ _ _ _ _ rfl rfl)
theorem fset (c : Ctl) (v w : BitVec 6) (off : SrcZ) : Statement (.fset c v w off) := word rfl (passes_mkZ _ _ _ _ _ _ rfl rfl)
theorem fclr (c : Ctl) (w : BitVec 6) (off : SrcZ) : Statement (.fclr c w off) := word rfl (passes_mkZ _ _ _ _ _ _ rfl rfl)
theorem waitPoll (core ctx : Nat) : Statement (.waitPoll core ctx) := unencoded rfl
theorem job (c : Ctl) (d w s t : BitVec 6) : Statement (.job c d w s t) := word rfl (passes_mkF _ _ _ _ _ _ _ _ rfl)
theorem jwait (c : Ctl) (n : BitVec 2) (v : GI) : Statement (.jwait c n v) := word rfl (passes_mkF _ _ _ _ _ _ _ _ rfl)
theorem cwwait (c : Ctl) (n : BitVec 2) (v : GI) : Statement (.cwwait c n v) := word rfl (passes_mkF _ _ _ _ _ _ _ _ rfl)
theorem jstat (c : Ctl) (d : BitVec 6) (n : BitVec 2) : Statement (.jstat c d n) := word rfl (passes_mkF _ _ _ _ _ _ _ _ rfl)
theorem jobBegin (id : Nat) : Statement (.jobBegin id) := unencoded rfl
theorem jobCompletion (id : Nat) : Statement (.jobCompletion id) := unencoded rfl
theorem chan (c : Ctl) (s r : BitVec 6) (cfg : BitVec 32) : Statement (.chan c s r cfg) := word rfl (passes_mkF _ _ _ _ _ _ _ _ rfl)
theorem send (c : Ctl) (qd : BitVec 3) (e : BitVec 6) (v : Payload) (carried : Option (BitVec 6)) : Statement (.send c qd e v carried) :=
  word rfl (passes_mkF _ _ _ _ _ _ _ _ rfl)
theorem recv (c : Ctl) (d : RDst) (e : BitVec 6) (carried : Option (BitVec 6)) (qd : BitVec 3) : Statement (.recv c d e carried qd) :=
  word rfl (passes_mkF _ _ _ _ _ _ _ _ rfl)
theorem tryrecv (c : Ctl) (d : RDst) (e : BitVec 6) (carried : Option (BitVec 6)) (qd : BitVec 3) : Statement (.tryrecv c d e carried qd) :=
  word rfl (passes_mkF _ _ _ _ _ _ _ _ rfl)
theorem select (c : Ctl) (d b : BitVec 6) (mask : BitVec 32) : Statement (.select c d b mask) := word rfl (passes_mkF _ _ _ _ _ _ _ _ rfl)
theorem close (c : Ctl) (d e : BitVec 6) : Statement (.close c d e) := word rfl (passes_mkF _ _ _ _ _ _ _ _ rfl)
theorem endinfo (c : Ctl) (d e : BitVec 6) : Statement (.endinfo c d e) := word rfl (passes_mkF _ _ _ _ _ _ _ _ rfl)
theorem recordMessageArrival (m : Msg) : Statement (.recordMessageArrival m) := unencoded rfl
theorem inboxMessageArrival (core : Nat) (m : Msg) : Statement (.inboxMessageArrival core m) := unencoded rfl
theorem ringSlotOffer (record : Nat) : Statement (.ringSlotOffer record) := unencoded rfl
theorem leaveNotice (record : Nat) (recvEnd : Bool) (gen : BitVec 16) (counter : BitVec 32) (core : Nat) (m : Option Msg) : Statement (.leaveNotice record recvEnd gen counter core m) :=
  unencoded rfl
theorem arrivalNotice (record : Nat) (recvEnd : Bool) (at_ : CtxAt) (reg : BitVec 6) : Statement (.arrivalNotice record recvEnd at_ reg) :=
  unencoded rfl
theorem closureMarkerArrival (record : Nat) (what : Closing) : Statement (.closureMarkerArrival record what) := unencoded rfl
theorem spillRetry (record : Nat) : Statement (.spillRetry record) := unencoded rfl
theorem startRelative (c : Ctl) (qd : BitVec 3) (h : BitVec 6) (off : BitVec 32) : Statement (.startRelative c qd h off) :=
  word rfl (passes_mkF _ _ _ _ _ _ _ _ rfl)
theorem startRegister (c : Ctl) (qd : BitVec 3) (h t : BitVec 6) : Statement (.startRegister c qd h t) :=
  word rfl (passes_mkF _ _ _ _ _ _ _ _ rfl)
theorem hjoin (c : Ctl) (qd : BitVec 3) (h : GI) : Statement (.hjoin c qd h) := word rfl (passes_mkF _ _ _ _ _ _ _ _ rfl)
theorem hexit (c : Ctl) : Statement (.hexit c) := word rfl (passes_mkF _ _ _ _ _ _ _ _ rfl)
theorem processExit (core : Nat) : Statement (.processExit core) := unencoded rfl
theorem yield (c : Ctl) : Statement (.yield c) := word rfl (passes_mkF _ _ _ _ _ _ _ _ rfl)
theorem waitev (c : Ctl) (d : BitVec 6) (mask : GI) : Statement (.waitev c d mask) := word rfl (passes_mkF _ _ _ _ _ _ _ _ rfl)
theorem watchdogExpiry (core : Nat) : Statement (.watchdogExpiry core) := unencoded rfl
theorem bar (c : Ctl) : Statement (.bar c) := word rfl (passes_mkF _ _ _ _ _ _ _ _ rfl)
theorem xend (c : Ctl) : Statement (.xend c) := word rfl (passes_mkF _ _ _ _ _ _ _ _ rfl)
theorem barrierRelease (gang : Nat) : Statement (.barrierRelease gang) := unencoded rfl
theorem xcast (c : Ctl) (role : BitVec 12) (w d : BitVec 6) : Statement (.xcast c role w d) := word rfl (passes_mkF _ _ _ _ _ _ _ _ rfl)
theorem xcastTransferComplete (id : Nat) : Statement (.xcastTransferComplete id) := unencoded rfl
theorem widf (c : Ctl) (d : BitVec 6) (i : BitVec 3) : Statement (.widf c d i) := word rfl (passes_mkF _ _ _ _ _ _ _ _ rfl)
theorem roleq (c : Ctl) (d : BitVec 6) (r : RoleOp) : Statement (.roleq c d r) := by
  cases r <;> exact word rfl (passes_mkF _ _ _ _ _ _ _ _ rfl)
theorem gpost (c : Ctl) (d g : BitVec 6) (node count : GI) : Statement (.gpost c d g node count) :=
  word rfl (passes_mkF _ _ _ _ _ _ _ _ rfl)
theorem trigStart (c : Ctl) : Statement (.trigStart c) := word rfl (passes_mkF _ _ _ _ _ _ _ _ rfl)
theorem trigDone (c : Ctl) (v : GI) : Statement (.trigDone c v) := word rfl (passes_mkF _ _ _ _ _ _ _ _ rfl)
theorem waitp (c : Ctl) (qd : BitVec 3) : Statement (.waitp c qd) := word rfl (passes_mkF _ _ _ _ _ _ _ _ rfl)
theorem glaunch (c : Ctl) (d m s : BitVec 6) (n : GI) : Statement (.glaunch c d m s n) := word rfl (passes_mkF _ _ _ _ _ _ _ _ rfl)
theorem gcancel (c : Ctl) (qd : BitVec 3) (g : BitVec 6) (node : GI) : Statement (.gcancel c qd g node) :=
  word rfl (passes_mkF _ _ _ _ _ _ _ _ rfl)
theorem gstat (c : Ctl) (d g : BitVec 6) (sel : BitVec 4) (node : GI) : Statement (.gstat c d g sel node) :=
  word rfl (passes_mkF _ _ _ _ _ _ _ _ rfl)
theorem nodeDispatch (die : Nat) : Statement (.nodeDispatch die) := unencoded rfl
theorem nodeRetry (domain : BitVec 11) (node : BitVec 64) : Statement (.nodeRetry domain node) := unencoded rfl
theorem preemptRequest (gang : Nat) (cancel : Bool) : Statement (.preemptRequest gang cancel) := unencoded rfl
theorem dlimExpiry (gang : Nat) : Statement (.dlimExpiry gang) := unencoded rfl
theorem save (gang : Nat) (forced : Bool) : Statement (.save gang forced) := unencoded rfl
theorem restore (domain : BitVec 11) (area node : BitVec 64) : Statement (.restore domain area node) := unencoded rfl
theorem sret (c : Ctl) (v : GI) : Statement (.sret c v) := word rfl (passes_mkF _ _ _ _ _ _ _ _ rfl)
theorem keyr (c : Ctl) (d : BitVec 6) (sel : BitVec 1) : Statement (.keyr c d sel) := word rfl (passes_mkF _ _ _ _ _ _ _ _ rfl)
theorem shintArm (c : Ctl) (qd : BitVec 3) : Statement (.shintArm c qd) := word rfl (passes_mkF _ _ _ _ _ _ _ _ rfl)
theorem shintClone (c : Ctl) (qd : BitVec 3) : Statement (.shintClone c qd) := word rfl (passes_mkF _ _ _ _ _ _ _ _ rfl)
theorem shintMerge (c : Ctl) (qd : BitVec 3) : Statement (.shintMerge c qd) := word rfl (passes_mkF _ _ _ _ _ _ _ _ rfl)
theorem shintDisarm (c : Ctl) (qd : BitVec 3) : Statement (.shintDisarm c qd) := word rfl (passes_mkF _ _ _ _ _ _ _ _ rfl)
theorem stagePause (stage : Nat) : Statement (.stagePause stage) := unencoded rfl
theorem stagePauseTimeout (stage : Nat) (op : Nat) : Statement (.stagePauseTimeout stage op) := unencoded rfl
theorem stagef (core : Nat) (code : BitVec 16) (addr : BitVec 64) : Statement (.stagef core code addr) := unencoded rfl
theorem stageSplitCompletion (stage : Nat) : Statement (.stageSplitCompletion stage) := unencoded rfl
theorem stageMergeQuiescence (stage : Nat) : Statement (.stageMergeQuiescence stage) := unencoded rfl
theorem bkpt (c : Ctl) (code : BitVec 8) : Statement (.bkpt c code) := word rfl (passes_mkF _ _ _ _ _ _ _ _ rfl)
theorem mark (c : Ctl) (v : GI) : Statement (.mark c v) := word rfl (passes_mkF _ _ _ _ _ _ _ _ rfl)
theorem rdcnt (c : Ctl) (d : BitVec 6) (n : BitVec 4) : Statement (.rdcnt c d n) := word rfl (passes_mkF _ _ _ _ _ _ _ _ rfl)
theorem monq (c : Ctl) (d : BitVec 6) (n : GI) : Statement (.monq c d n) := word rfl (passes_mkF _ _ _ _ _ _ _ _ rfl)
theorem monitorSample (monitor : Nat) : Statement (.monitorSample monitor) := unencoded rfl
theorem icacheFill (core line : Nat) : Statement (.icacheFill core line) := unencoded rfl
theorem snoopDequeue (agent : BitVec 1) : Statement (.snoopDequeue agent) := unencoded rfl
theorem hardwareCounterWrap (core : Nat) (n : BitVec 3) : Statement (.hardwareCounterWrap core n) := unencoded rfl
theorem coreAssign (source : BitVec 16) (core : BitVec 12) (domain : Option (BitVec 11)) : Statement (.coreAssign source core domain) :=
  unencoded rfl
theorem domainDestroy (source : BitVec 16) (domain : BitVec 11) : Statement (.domainDestroy source domain) := unencoded rfl
theorem pageEvict (source : BitVec 16) (domain : BitVec 11) (va : BitVec 48) (host : BitVec 12) : Statement (.pageEvict source domain va host) :=
  unencoded rfl
theorem bootStepTimeout : Statement (.bootStepTimeout) := unencoded rfl
theorem mcStepDone (mc : BitVec 4) (fail : Bool) (lanes : BitVec 8) (spares : BitVec 8) : Statement (.mcStepDone mc fail lanes spares) :=
  unencoded rfl
theorem portStepDone (port : BitVec 5) (fail : Bool) (lanes : BitVec 8) : Statement (.portStepDone port fail lanes) := unencoded rfl
theorem portTrainingTimeout (port : BitVec 5) : Statement (.portTrainingTimeout port) := unencoded rfl
theorem residencyFillComplete (core : Nat) : Statement (.residencyFillComplete core) := unencoded rfl
theorem writePointerAdvance (id : Nat) : Statement (.writePointerAdvance id) := unencoded rfl
theorem offCoreReferenceResult (core ctx : Nat) : Statement (.offCoreReferenceResult core ctx) := unencoded rfl
theorem arm (source : BitVec 16) (domain : BitVec 11) : Statement (.arm source domain) := unencoded rfl
theorem disarm (source : BitVec 16) (domain : BitVec 11) : Statement (.disarm source domain) := unencoded rfl
theorem stop (source : BitVec 16) (domain : BitVec 11) (node : BitVec 64) : Statement (.stop source domain node) := unencoded rfl
theorem resume (source : BitVec 16) (domain : BitVec 11) (node : BitVec 64) : Statement (.resume source domain node) := unencoded rfl
theorem read (source : BitVec 16) (domain : BitVec 11) (node : BitVec 64) (role ctx : BitVec 12) (t : DbgTarget) : Statement (.read source domain node role ctx t) :=
  unencoded rfl
theorem write (source : BitVec 16) (domain : BitVec 11) (node : BitVec 64) (role ctx : BitVec 12) (t : DbgTarget) (tag : Bool) (v : Nat) : Statement (.write source domain node role ctx t tag v) :=
  unencoded rfl
theorem hold (source : BitVec 16) (domain : BitVec 11) (node : BitVec 64) (role : BitVec 12) : Statement (.hold source domain node role) :=
  unencoded rfl
theorem unhold (source : BitVec 16) (domain : BitVec 11) (node : BitVec 64) (role : BitVec 12) : Statement (.unhold source domain node role) :=
  unencoded rfl
theorem trace (source : BitVec 16) (domain : BitVec 11) (buf len : BitVec 64) (mode : BitVec 1) : Statement (.trace source domain buf len mode) :=
  unencoded rfl
theorem dump (source : BitVec 16) (domain : BitVec 11) (node : Option (BitVec 64)) (buf len : BitVec 64) : Statement (.dump source domain node buf len) :=
  unencoded rfl
theorem monset (source : BitVec 16) (domain : BitVec 11) (monitor : BitVec 10) (desc : BitVec 128) : Statement (.monset source domain monitor desc) :=
  unencoded rfl
theorem hostMemoryRequest (r : HostReq) : Statement (.hostMemoryRequest r) := unencoded rfl
theorem peerMemoryRequest (r : PeerReq) : Statement (.peerMemoryRequest r) := unencoded rfl
theorem linkPacketReceive (p : Packet) : Statement (.linkPacketReceive p) := unencoded rfl
theorem linkKeyRollover (source : BitVec 16) (domain : Option (BitVec 11)) : Statement (.linkKeyRollover source domain) := unencoded rfl
theorem deviceReportRequest (host : BitVec 16) (nonce : BitVec 384) : Statement (.deviceReportRequest host nonce) := unencoded rfl
theorem ownershipChallenge (host : BitVec 16) : Statement (.ownershipChallenge host) := unencoded rfl
theorem ownershipClaim (host : BitVec 16) (nonce : BitVec 384) (s : Signed) : Statement (.ownershipClaim host nonce s) := unencoded rfl
theorem handover (host : BitVec 16) (nonce : BitVec 384) (newHost : BitVec 16) (newCred : BitVec 384) (s : Signed) : Statement (.handover host nonce newHost newCred s) :=
  unencoded rfl
theorem ownershipRelease (host : BitVec 16) (nonce : BitVec 384) (s : Signed) : Statement (.ownershipRelease host nonce s) := unencoded rfl
theorem deviceIdAssign (source : BitVec 16) (id : BitVec 12) : Statement (.deviceIdAssign source id) := unencoded rfl
theorem domainCreate (source : BitVec 16) (r : DomainReq) : Statement (.domainCreate source r) := unencoded rfl
theorem pageReturn (source : BitVec 16) (domain : BitVec 11) (page : BitVec 32) (offset : BitVec 16) (version : BitVec 64) (data : List Byte) (mac : BitVec 384) :
    Statement (.pageReturn source domain page offset version data mac) :=
  unencoded rfl
theorem formatWindowChange (source : BitVec 16) (mc window : BitVec 4) (desc : BitVec 256) : Statement (.formatWindowChange source mc window desc) :=
  unencoded rfl
theorem powerUp (f : Flash) : Statement (.powerUp f) := unencoded rfl
theorem packageReset : Statement (.packageReset) := unencoded rfl
theorem mcPhyResetRelease (mc : BitVec 4) : Statement (.mcPhyResetRelease mc) := unencoded rfl
theorem mcImpedanceCalibration (mc : BitVec 4) : Statement (.mcImpedanceCalibration mc) := unencoded rfl
theorem mcCommandAddressTraining (mc : BitVec 4) : Statement (.mcCommandAddressTraining mc) := unencoded rfl
theorem mcReadTraining (mc : BitVec 4) : Statement (.mcReadTraining mc) := unencoded rfl
theorem mcWriteTraining (mc : BitVec 4) : Statement (.mcWriteTraining mc) := unencoded rfl
theorem mcLaneRepair (mc : BitVec 4) : Statement (.mcLaneRepair mc) := unencoded rfl
theorem mcInitialise (mc : BitVec 4) : Statement (.mcInitialise mc) := unencoded rfl
theorem mcEnable (mc : BitVec 4) : Statement (.mcEnable mc) := unencoded rfl
theorem portSerdesResetRelease (port : BitVec 5) (cxl : Bool) : Statement (.portSerdesResetRelease port cxl) := unencoded rfl
theorem portReceiverDetect (port : BitVec 5) : Statement (.portReceiverDetect port) := unencoded rfl
theorem portEqualise (port : BitVec 5) : Statement (.portEqualise port) := unencoded rfl
theorem portDeskewFlitLock (port : BitVec 5) : Statement (.portDeskewFlitLock port) := unencoded rfl
theorem portKeyExchange (port : BitVec 5) : Statement (.portKeyExchange port) := unencoded rfl
theorem portUp (port : BitVec 5) : Statement (.portUp port) := unencoded rfl
theorem portDown (port : BitVec 5) : Statement (.portDown port) := unencoded rfl
theorem controlRegisterWrite (addr : BitVec 52) (v : BitVec 64) : Statement (.controlRegisterWrite addr v) := unencoded rfl
theorem hostCxlIoRequest (host : BitVec 16) (supported : Bool) (q : CxlIo) : Statement (.hostCxlIoRequest host supported q) := unencoded rfl
theorem hostSnoop (agent : BitVec 1) (host : BitVec 12) (line : BitVec 46) (invalidate : Bool) : Statement (.hostSnoop agent host line invalidate) :=
  unencoded rfl
theorem backInvalidateAnswer (line : BitVec 46) (data : Option (BitVec 512)) : Statement (.backInvalidateAnswer line data) := unencoded rfl
theorem linkLoss (port : BitVec 5) : Statement (.linkLoss port) := unencoded rfl
theorem tokenPost (t : TokenMsg) : Statement (.tokenPost t) := unencoded rfl
theorem hostLineEviction (agent : BitVec 1) (host : BitVec 12) (line : BitVec 46) : Statement (.hostLineEviction agent host line) :=
  unencoded rfl
theorem l1Eviction (core : Nat) (line : BitVec 46) : Statement (.l1Eviction core line) := unencoded rfl

end Sys2Proof.Laws.WellFormedWord
end

