-- ==== Sys2Proof/Tests/Slice0.lean ====
section
/-! SUPPORT. Tests. Words are written out field by field from the encodings of the spec; results come from the spec's tables and
worked examples, or by hand; `witness_` theorems show states and operands that meet the hypotheses of the statements in
Certificates/Slice0/Obligations.lean. -/

namespace Sys2Proof.Tests
set_option Elab.async false

open Sys2Proof Sys2Proof.Machine

/-! ## Decoding: a word of every constructor -/

/-- No guard, no hint. -/
def c0 : Ctl := plainCtl
/-- Each word decodes to its instruction. -/
def decodesAll (l : List (BitVec 96 × Instr)) : Bool := l.all fun p => decide (decodeWord p.1 = .ok p.2)
/-- Each word is refused with its check. -/
def refusesAll (l : List (BitVec 96 × Reject)) : Bool := l.all fun p => decide (decodeWord p.1 = .illegal p.2)

/-- SYS (R404 to R408). -/
theorem test_decode_sys : decodesAll [
    (0x0000_0000_0000_0000_0000_0000, .nop c0),
    (0x0004_0000_F005_0070_0000_0000, .trap c0 5 (.g 7)),
    (0x0008_0000_F001_F001_F000_0000, .eretRetry c0 1 1),
    (0x0008_0000_F001_F001_F001_0000, .eretSkip c0 1 1),
    (0x0008_0000_F001_F00B_F002_0000, .eretExit c0 1 11),
    (0x000C_0000_0020_20D0_0000_0000, .rds c0 2 0x00D),
    (0x000C_0000_0060_0040_F001_0000, .rdsContext c0 6 (.g 4) 1),
    (0x000C_0000_0060_6030_F002_0000, .rdsContext c0 6 (.m 3) 2),
    (0x0010_0000_20F0_FFFF_0000_0000, .wrs c0 0x00F (.small 0xFFF)),
    (0x0010_0000_20F0_0030_F002_0000, .wrsContext c0 (.s 0x00F) (.g 3) 2),
    (0x0010_0000_F006_0030_F002_0000, .wrsContext c0 (.q 6) (.g 3) 2),
    (0x0014_0000_0050_F001_0000_0000, .retarm c0 5 1),
    (0x0018_0000_0050_0060_0070_F003, .scall c0 5 6 7 (.small 3))] = true := by decide +kernel

/-- BR (R126). -/
theorem test_decode_br : decodesAll [
    (0x0600_0000_0000_0000_FFFF_FFDC, .bra c0 0xFFFFFFDC),
    (0x0404_0000_0050_0000_0000_0000, .brx c0 5),
    (0x0608_0000_0140_0000_0000_006C, .callRelative c0 20 0x6C),
    (0x0408_0000_0140_0000_0090_0000, .callRegister c0 20 9),
    (0x040C_0000_01E0_0000_0000_0000, .ret c0 30),
    (0x0610_0000_0050_0000_FFFF_FFDC, .loop c0 5 0xFFFFFFDC)] = true := by decide +kernel

/-- IALU (R131, R122). -/
theorem test_decode_ialu : decodesAll [
    (0x0800_0000_0010_0020_0030_0000, .add c0 1 2 (.g 3)),
    (0x0804_0000_0010_0020_FFFE_0000, .sub c0 1 2 (.small 0xFFE)),
    (0x0A08_0000_0010_0020_8000_0001, .and c0 1 2 (.imm 0x80000001)),
    (0x080C_0000_0010_0020_0030_0000, .or c0 1 2 (.g 3)),
    (0x0810_0000_0010_0020_FFFE_0000, .xor c0 1 2 (.small 0xFFE)),
    (0x0A14_0000_0010_0020_8000_0001, .andn c0 1 2 (.imm 0x80000001)),
    (0x0818_0000_0010_0020_0030_0000, .shl c0 1 2 (.g 3)),
    (0x081C_0000_0010_0020_FFFE_0000, .shr c0 1 2 (.small 0xFFE)),
    (0x0A20_0000_0010_0020_8000_0001, .sar c0 1 2 (.imm 0x80000001)),
    (0x0824_0000_0010_0020_0030_0000, .rot c0 1 2 (.g 3)),
    (0x0828_0000_0010_0020_FFFE_0000, .min c0 1 2 (.small 0xFFE)),
    (0x0A2C_0000_0010_0020_8000_0001, .max c0 1 2 (.imm 0x80000001)),
    (0x0830_0000_0010_0020_0030_0000, .minn c0 1 2 (.g 3)),
    (0x0834_0000_0010_0020_FFFE_0000, .maxn c0 1 2 (.small 0xFFE))] = true := by decide +kernel

/-- IMUL (R132). -/
theorem test_decode_imul : decodesAll [
    (0x0C00_0000_03F0_03E0_03D0_0000, .mul c0 63 62 (.g 61)),
    (0x0C04_0000_03F0_03E0_03D0_0000, .mulh c0 63 62 (.g 61)),
    (0x0C08_0000_03F0_03E0_03D0_0000, .mulhn c0 63 62 (.g 61)),
    (0x0C0C_0000_03F0_03E0_03D0_0000, .div c0 63 62 (.g 61)),
    (0x0C10_0000_03F0_03E0_03D0_0000, .divn c0 63 62 (.g 61)),
    (0x0C14_0000_03F0_03E0_03D0_0000, .rem c0 63 62 (.g 61)),
    (0x0C18_0000_03F0_03E0_03D0_0000, .remn c0 63 62 (.g 61))] = true := by decide +kernel

/-- IBIT (R133). -/
theorem test_decode_ibit : decodesAll [
    (0x1000_0000_0010_0020_0000_0000, .clz c0 1 2),
    (0x1004_0000_0010_0020_0000_0000, .ctz c0 1 2),
    (0x1008_0000_0010_0020_0000_0000, .popc c0 1 2),
    (0x100C_0000_0010_0020_0030_0040, .bfx c0 1 2 (.g 3) (.g 4)),
    (0x1010_0000_0010_0020_F008_0040, .bfxs c0 1 2 (.small 8) (.g 4)),
    (0x1014_0000_0010_0020_0030_F008, .bfi c0 1 2 (.g 3) (.small 8)),
    (0x1018_0000_0010_0020_0000_0000, .brev c0 1 2),
    (0x101C_0000_0016_0020_0000_0000, .ext c0 1 .n16 2)] = true := by decide +kernel

/-- IMM (R135). -/
theorem test_decode_imm : decodesAll [
    (0x1600_0000_0010_0000_8000_0000, .movi c0 1 0x80000000),
    (0x1604_0000_0010_0000_0000_0007, .movh c0 1 7)] = true := by decide +kernel

/-- CMP (R136). -/
theorem test_decode_cmp : decodesAll [
    (0x1A00_0000_F002_0056_0000_0064, .cmp c0 2 .ltn 5 (.imm 100)),
    (0x1800_0000_F007_005A_0060_0000, .cmp c0 7 .tst 5 (.g 6)),
    (0x1804_0000_0010_F003_0040_0050, .sel c0 1 3 4 5),
    (0x1808_0000_F001_F002_F003_0000, .pand c0 1 2 3),
    (0x180C_0000_F001_F002_F003_0000, .por c0 1 2 3),
    (0x1810_0000_F001_F002_0000_0000, .pnot c0 1 2)] = true := by decide +kernel

/-- FPU (R138 to R140). -/
theorem test_decode_fpu : decodesAll [
    (0x1C00_0000_0059_0030_0090_0000, .fadd c0 .f32 .rn 5 3 9),
    (0x1C04_0000_005A_0031_0090_0000, .fsub c0 .f16 .rz 5 3 9),
    (0x1C08_0000_006B_0065_0040_0000, .fmul c0 .bf16 .sr 6 6 4),
    (0x1C0C_0000_0059_0036_0090_0080, .ffma c0 .f32 .dyn 5 3 9 8),
    (0x1C10_0000_0059_0034_0090_0000, .fdiv c0 .f32 .ra 5 3 9),
    (0x1C14_0000_0059_0032_0000_0000, .fsqrt c0 .f32 .ru 5 3),
    (0x1C18_0000_0059_0030_0090_0000, .fmin c0 .f32 5 3 9),
    (0x1C1C_0000_0059_0030_0090_0000, .fmax c0 .f32 5 3 9),
    (0x1C20_0000_F004_0039_009B_0000, .fcmp c0 .f32 .un 4 3 9),
    (0x1C24_0000_005B_0030_0000_0000, .fclass c0 .bf16 5 3),
    (0x1C28_0000_0013_0028_0009_0000, .fcvt c0 (.int .i32) { rm := .rn, sat := true } (.flt .f32) 1 2),
    (0x1C28_0000_001B_0023_0008_0000, .fcvt c0 (.flt .bf16) { rm := .rd, sat := false } (.int .n64) 1 2),
    (0x1C2C_0000_0019_0020_0032_0000, .fsgn c0 .f32 .xor 1 2 3)] = true := by decide +kernel

/-- LMEM (R142). -/
theorem test_decode_lmem : decodesAll [
    (0x2000_0000_00B8_0010_00A0_0000, .ldl c0 .n64 11 1 (.g 10)),
    (0x2200_0000_0072_00C0_FFFF_FFFA, .ldl c0 .i16 7 12 (.imm 0xFFFFFFFA)),
    (0x2004_0000_0075_00C0_F004_0000, .stl c0 .n8 7 12 (.small 4))] = true := by decide +kernel

/-- CAP (R354). -/
theorem test_decode_cap : decodesAll [
    (0x2600_0000_0080_0070_0000_1000, .cbound c0 8 7 (.imm 0x1000)),
    (0x2404_0000_0080_0070_0060_0000, .cperm c0 8 7 (.g 6)),
    (0x2408_0000_0080_0070_F005_0000, .cget c0 8 7 5),
    (0x240C_0000_0080_0070_FFFF_0000, .cderive c0 8 7 (.small 0xFFF)),
    (0x2410_0000_F007_0010_F005_0000, .ctest c0 7 1 5),
    (0x2414_0000_0080_0000_0000_0000, .cnull c0 8),
    (0x2418_0000_0080_0070_0000_0000, .cmove c0 8 7)] = true := by decide +kernel

/-- VARITH (R155). -/
theorem test_decode_varith : decodesAll [
    (0x4000_0000_9009_4080_0060_0000, .vadd c0 .f32 .rn (.rel 4 0) (.w 8) (.g 6) 0),
    (0x4004_0000_401A_4021_4030_0005, .vsub c0 .f16 .rz (.w 1) (.w 2) (.w (.w 3)) 5),
    (0x4008_0000_401B_4025_4030_0000, .vmul c0 .bf16 .sr (.w 1) (.w 2) (.w (.w 3)) 0),
    (0x400C_0000_B9F9_9401_4020_4030, .vfma c0 .f32 .rz (.rel 14 31) (.w (.rel 5 0)) (.w (.w 2)) (.w 3) 0),
    (0x400C_0000_4019_0020_4030_4047, .vfma c0 .f32 .rn (.w 1) (.g 2) (.w (.w 3)) (.w 4) 7),
    (0x4010_0000_4019_4020_0030_0001, .vmin c0 .f32 (.w 1) (.w 2) (.g 3) 1),
    (0x4014_0000_4019_4020_0030_0001, .vmax c0 .f32 (.w 1) (.w 2) (.g 3) 1),
    (0x4018_0000_4019_4020_0000_0002, .vabs c0 .f32 (.w 1) (.w 2) 2),
    (0x401C_0000_4019_4020_0000_0002, .vneg c0 .f32 (.w 1) (.w 2) 2),
    (0x4020_0000_4019_4026_0000_0002, .vrcp c0 .f32 .dyn (.w 1) (.w 2) 2),
    (0x4024_0000_4019_4020_0000_0002, .vrsq c0 .f32 .rn (.w 1) (.w 2) 2),
    (0x4028_0000_4019_4020_0000_0002, .vexp2 c0 .f32 .rn (.w 1) (.w 2) 2),
    (0x402C_0000_4019_4020_0000_0002, .vlog2 c0 .f32 .rn (.w 1) (.w 2) 2),
    (0x4030_0000_4019_4023_43F0_0000, .vdiv c0 .f32 .rd (.w 1) (.w 2) (.w (.w 63)) 0)] = true := by decide +kernel

/-- VINT (R156). -/
theorem test_decode_vint : decodesAll [
    (0x4400_0000_4011_4020_4030_0003, .viadd c0 .i8 (.w 1) (.w 2) (.w (.w 3)) 3),
    (0x4404_0000_4012_4020_0030_0003, .visub c0 .i16 (.w 1) (.w 2) (.g 3) 3),
    (0x4408_0000_4013_4020_F007_0003, .vimul c0 .i32 (.w 1) (.w 2) (.small 7) 3),
    (0x440C_0000_4015_4020_4030_0003, .vand c0 .n8 (.w 1) (.w 2) (.w (.w 3)) 3),
    (0x4410_0000_4016_4020_4030_0003, .vor c0 .n16 (.w 1) (.w 2) (.w (.w 3)) 3),
    (0x4414_0000_4017_4020_8050_0003, .vxor c0 .n32 (.w 1) (.w 2) (.w (.rel 0 5)) 3),
    (0x4418_0000_4013_4020_F01F_0003, .vshl c0 .i32 (.w 1) (.w 2) (.small 31) 3),
    (0x441C_0000_4017_4020_0090_0003, .vshr c0 .n32 (.w 1) (.w 2) (.g 9) 3),
    (0x4420_0000_4013_4020_4030_0003, .vsar c0 .i32 (.w 1) (.w 2) (.w (.w 3)) 3)] = true := by decide +kernel

/-- VMASK (R157, R158). -/
theorem test_decode_vmask : decodesAll [
    (0x4800_0000_6039_402C_4040_0001, .vcmp c0 (.f32 .ord) 3 (.w 2) (.w (.w 4)) 1),
    (0x4800_0000_6037_4022_F009_0000, .vcmp c0 (.n32 .lt) 3 (.w 2) (.small 9) 0),
    (0x4804_0000_4010_4020_4030_0004, .vsel c0 (.w 1) (.w 2) (.w 3) 4),
    (0x4808_0000_6010_6020_6030_0000, .mand c0 1 2 3),
    (0x480C_0000_6010_6020_6030_0000, .mor c0 1 2 3),
    (0x4810_0000_6010_6070_0000_0000, .mnot c0 1 7)] = true := by decide +kernel

/-- VPERM (R159). -/
theorem test_decode_vperm : decodesAll [
    (0x4C00_0000_4010_4020_4030_0006, .vperm c0 (.w 1) (.w 2) (.w 3) 6),
    (0x4C04_0000_4010_4020_4030_4046, .vshuf c0 (.w 1) (.w 2) (.w 3) (.w 4) 6),
    (0x4C08_0000_4009_0090_0000_0000, .vbcast c0 (.flt .f32) (.w 0) (.g 9) 0),
    (0x4C08_0000_4001_FFFF_0000_0000, .vbcast c0 (.int .i8) (.w 0) (.small 0xFFF) 0),
    (0x4C0C_0000_0050_4020_F01F_0000, .vextr c0 5 (.w 2) 31),
    (0x4C10_0000_4020_0050_F01F_0000, .vins c0 (.w 2) (.g 5) 31)] = true := by decide +kernel

/-- VRED (R160). -/
theorem test_decode_vred : decodesAll [
    (0x5000_0000_4019_4025_0000_0003, .vrsum c0 (.f32 .sr) (.w 1) (.w 2) 3),
    (0x5000_0000_4017_4020_0000_0003, .vrsum c0 .n32 (.w 1) (.w 2) 3),
    (0x5004_0000_4019_4020_0000_0000, .vrmax c0 .f32 (.w 1) (.w 2) 0),
    (0x5008_0000_4013_4020_0000_0000, .vrmin c0 .i32 (.w 1) (.w 2) 0)] = true := by decide +kernel

/-- VCVT (R161, R162). -/
theorem test_decode_vcvt : decodesAll [
    (0x5400_0000_404B_4020_0009_0000, .vcvt c0 (.flt .bf16) { rm := .rn, sat := false } (.flt .f32) (.w 4) (.w 2) 0),
    (0x5404_0000_404D_4025_0009_0000, .vpxenc c0 .px4 .sr .f32 (.w 4) (.w 2)),
    (0x5408_0000_4049_4020_000E_0000, .vpxdec c0 .f32 .rn .px7 (.w 4) (.w 2))] = true := by decide +kernel

/-- VLMEM (R163). -/
theorem test_decode_vlmem : decodesAll [
    (0x5A00_0000_4030_0010_0000_0100, .vldlImmediate c0 (.w 3) 1 256),
    (0x5800_0000_4030_0010_F080_0002, .vldlRegister c0 (.w 3) 1 128 2),
    (0x5A04_0000_4030_0010_0000_0100, .vstlImmediate c0 (.w 3) 1 256),
    (0x5804_0000_4030_0010_F080_0002, .vstlRegister c0 (.w 3) 1 128 2),
    (0x5808_0000_4030_0010_4090_0000, .vldx c0 (.w 3) 1 (.w 9) 0),
    (0x580C_0000_4030_0010_4090_0000, .vstx c0 (.w 3) 1 (.w 9) 0)] = true := by decide +kernel

/-- VREG (R152, R165). -/
theorem test_decode_vreg : decodesAll [
    (0x5C00_0000_F004_0000_0000_0000, .allot c0 4),
    (0x5C04_0000_F004_0000_0000_0000, .shrink c0 4),
    (0x5C08_0000_4010_4020_0000_0001, .vmov c0 (.w 1) (.w 2) 1)] = true := by decide +kernel

/-- MAT (R167 to R179). -/
theorem test_decode_mat : decodesAll [
    (0x6000_0000_F001_D1F0_0000_0000, .mclaim c0 1 31),
    (0x6004_0000_D1F0_0000_0000_0000, .mrel c0 31),
    (0x6208_0000_D010_00A0_0000_0400, .mloadImmediate c0 1 10 0x400),
    (0x6008_0000_D010_00A0_0040_0000, .mloadRegister c0 1 10 4),
    (0x620C_0000_E020_0000_0000_0005, .mcfg c0 2 5),
    (0x6010_0000_E030_0000_0000_0000, .mzero c0 3),
    (0x6014_0000_E00D_D010_D000_F005, .mgang c0 (.px .px4) 0 1 0 5),
    (0x6018_0000_E030_0000_0000_0000, .mwait c0 3),
    (0x601C_0000_4010_E030_F01F_0000, .mrdacc c0 (.w 1) 3 31),
    (0x6020_0000_E030_4010_F01F_0000, .mwracc c0 3 (.w 1) 31),
    (0x6224_0000_E030_0010_0000_0040, .mstacc c0 3 1 (.imm 64))] = true := by decide +kernel

/-- MEM (R209). -/
theorem test_decode_mem : decodesAll [
    (0x8200_0000_0054_0061_0000_0008, .ld c0 (.int .i64) .skip 5 6 (.imm 8)),
    (0x8004_0000_0050_0062_0070_0000, .st c0 .cap .stream 5 6 (.g 7)),
    (0x8008_0000_0000_0060_F001_0000, .pref c0 .home 6 (.small 1)),
    (0x8034_0000_0058_0060_F000_0000, .ldacq c0 .sys (.int .n64) .home 5 6 (.small 0)),
    (0x8240_0000_0051_0060_0000_0000, .strel c0 .core (.int .i8) .home 5 6 (.imm 0))] = true := by decide +kernel

/-- FENCE (R213). -/
theorem test_decode_fence : decodesAll [
    (0x8410_0000_0000_0000_0000_0000, .fence c0 .dev),
    (0x8434_0000_0000_0000_0000_0000, .fenceRed c0 .sys),
    (0x8440_0000_0000_0000_0000_0000, .fenceEng c0)] = true := by decide +kernel

/-- AMO (R214, R215). -/
theorem test_decode_amo : decodesAll [
    (0x8810_0000_0068_0020_0071_F008, .amo c0 .dev .n64 .add 6 2 7 (.small 8)),
    (0x882C_0000_0064_0020_0070_0030, .cas c0 .die .i64 6 2 7 (.g 3)),
    (0x8848_0000_000B_0020_0078_F000, .red c0 .parterre .bf16 .fadd 2 7 (.small 0))] = true := by decide +kernel

/-- SYNC (R220). -/
theorem test_decode_sync : decodesAll [
    (0x8C00_0000_0067_0020_0078_F004, .swait c0 .n32 .gtn 6 2 7 (.small 4)),
    (0x8E04_0000_0030_00C0_0000_0000, .fwait c0 3 12 (.imm 0)),
    (0x8C08_0000_0030_00C0_0050_0000, .fset c0 3 12 (.g 5)),
    (0x8C0C_0000_0000_00C0_F008_0000, .fclr c0 12 (.small 8))] = true := by decide +kernel

/-- ENG (R227, R232). -/
theorem test_decode_eng : decodesAll [
    (0x9000_0000_0090_0140_0150_0010, .job c0 9 20 21 1),
    (0x9004_0000_21A0_0050_0000_0000, .jwait c0 2 (.g 5)),
    (0x9008_0000_2170_F009_0000_0000, .cwwait c0 3 (.small 9)),
    (0x900C_0000_0050_2180_0000_0000, .jstat c0 5 0)] = true := by decide +kernel

/-- CHAN (R256). -/
theorem test_decode_chan : decodesAll [
    (0xA200_0000_0140_0160_0000_0014, .chan c0 20 22 0x14),
    (0xA004_0000_F003_0140_4023_0150, .send c0 3 20 (.w (.w 2) 3) (some 21)),
    (0xA004_0000_F000_0140_F00B_F000, .send c0 0 20 (.small 11) none),
    (0xA008_0000_0050_0160_F000_F002, .recv c0 (.g 5) 22 none 2),
    (0xA00C_0000_4050_0160_0170_F002, .tryrecv c0 (.w (.w 5)) 22 (some 23) 2),
    (0xA210_0000_0050_0380_0000_00FF, .select c0 5 56 0xFF),
    (0xA014_0000_0090_0140_0000_0000, .close c0 9 20),
    (0xA018_0000_0090_0140_0000_0000, .endinfo c0 9 20)] = true := by decide +kernel

/-- CTX (R284 to R289). -/
theorem test_decode_ctx : decodesAll [
    (0xC200_0000_F001_0020_FFFF_FFE8, .startRelative c0 1 2 0xFFFFFFE8),
    (0xC000_0000_F001_0020_0030_0000, .startRegister c0 1 2 3),
    (0xC004_0000_F001_F00A_0000_0000, .hjoin c0 1 (.small 10)),
    (0xC008_0000_0000_0000_0000_0000, .hexit c0),
    (0xC00C_0000_0000_0000_0000_0000, .yield c0),
    (0xC010_0000_0030_F002_0000_0000, .waitev c0 3 (.small 2))] = true := by decide +kernel

/-- GANG (R293 to R298). -/
theorem test_decode_gang : decodesAll [
    (0xC400_0000_0000_0000_0000_0000, .bar c0),
    (0xC404_0000_0000_0000_0000_0000, .xend c0),
    (0xC408_0000_CFFF_00A0_00B0_0000, .xcast c0 0xFFF 10 11),
    (0xC40C_0000_0050_F007_0000_0000, .widf c0 5 7),
    (0xC410_0000_0050_C009_0000_0000, .roleq c0 5 (.role 9)),
    (0xC410_0000_0050_0090_0000_0000, .roleq c0 5 (.g 9))] = true := by decide +kernel

/-- GRAPH (R314). -/
theorem test_decode_graph : decodesAll [
    (0xC800_0000_0050_01E0_F003_F001, .gpost c0 5 30 (.small 3) (.small 1)),
    (0xC804_0000_0000_0000_0000_0000, .trigStart c0),
    (0xC808_0000_F001_0000_0000_0000, .trigDone c0 (.small 1)),
    (0xC80C_0000_F002_0000_0000_0000, .waitp c0 2),
    (0xC810_0000_0050_0060_0070_F009, .glaunch c0 5 6 7 (.small 9)),
    (0xC814_0000_F001_0060_0070_0000, .gcancel c0 1 6 (.g 7)),
    (0xC818_0000_0050_0060_F00A_0070, .gstat c0 5 6 10 (.g 7))] = true := by decide +kernel

/-- STAGE (R335). -/
theorem test_decode_stage : decodesAll [
    (0xCC00_0000_F000_0000_0000_0000, .sret c0 (.small 0)),
    (0xCC04_0000_0050_F000_0000_0000, .keyr c0 5 0),
    (0xCC08_0000_F004_F000_0000_0000, .shintArm c0 4),
    (0xCC08_0000_F001_F001_0000_0000, .shintClone c0 1),
    (0xCC08_0000_F001_F002_0000_0000, .shintMerge c0 1),
    (0xCC08_0000_F001_F003_0000_0000, .shintDisarm c0 1)] = true := by decide +kernel

/-- DBG (R424). -/
theorem test_decode_dbg : decodesAll [
    (0xE000_0000_F007_0000_0000_0000, .bkpt c0 7),
    (0xE004_0000_0050_0000_0000_0000, .mark c0 (.g 5)),
    (0xE008_0000_0060_F008_0000_0000, .rdcnt c0 6 8),
    (0xE00C_0000_0070_F003_0000_0000, .monq c0 7 (.small 3))] = true := by decide +kernel

/-- Guards and hints: `(q2) FADD.f32.rn g5, g3, g9 %d=3 %w=0b0001` (R72), `(!q2) RET g30 %w=0b0001`, `VLDX w3, g1, w9 %d=7`, and the
plan of an XCAST in the exchange phase (R295). -/
theorem test_decode_hints : decodesAll [
    (0x1C00_8C10_0059_0030_0090_0000, .fadd { c0 with q := 2, delay := 3, wait := 1 } .f32 .rn 5 3 9),
    (0x040E_8010_01E0_0000_0000_0000, .ret { c0 with neg := true, q := 2, wait := 1 } 30),
    (0x5808_1C00_4030_0010_4090_0000, .vldx { c0 with delay := 7 } (.w 3) 1 (.w 9) 0),
    (0xC408_0203_C000_00A0_00B0_0000, .xcast { c0 with phase := .exchange, sw := true, lu := true } 0 10 11),
    (0xA008_0010_0060_0190_F000_F003, .recv { c0 with wait := 1 } (.g 6) 25 none 3)] = true := by decide +kernel

/-- The checks of R67 in order: reserved class, unassigned minor, no immediate form, phase 0b11, operands. -/
theorem test_refused_words : refusesAll [
    (0x2800_0000_0000_0000_0000_0000, .reservedClass), (0xFC00_0000_0000_0000_0000_0000, .reservedClass),
    (0x001C_0000_0000_0000_0000_0000, .unassignedMinor), (0x0838_0000_0010_0020_0030_0000, .unassignedMinor),
    (0x0200_0000_0000_0000_0000_0000, .noImmediateForm), (0x1200_0000_0010_0020_0000_0000, .noImmediateForm),
    (0x0000_0300_0000_0000_0000_0000, .illegalPhase), (0x0800_0000_0010_0020_0030_0001, .operand),
    (0x0400_0000_0000_0000_0000_0000, .operand), (0x0004_0000_F040_0070_0000_0000, .operand),
    (0x000C_0000_0020_2130_0000_0000, .operand), (0x1A00_0000_F002_005B_0000_0064, .operand)] = true := by decide +kernel

/-! ## Ill-formed terms: one for each check of WellFormed -/

theorem test_ill_formed_system : [Instr.eretRetry c0 1 0, .eretSkip c0 1 12, .eretExit c0 1 0, .rds c0 1 0x013, .rdsContext c0 1 (.s 0x008) 1,
    .rdsContext c0 1 (.g 1) 0, .wrs c0 0x1FF (.g 1), .wrsContext c0 (.s 0x012) (.g 1) 1, .wrsContext c0 (.g 1) (.g 1) 15, .retarm c0 1 0,
    .ctest c0 1 1 6].all (fun i => !i.wellFormed) = true := by decide +kernel
theorem test_ill_formed_wide : [Instr.vfma c0 .f32 .rn (.w 1) (.g 2) (.g 3) (.w 4) 0, .viadd c0 .i64 (.w 1) (.w 1) (.g 1) 0,
    .visub c0 .n64 (.w 1) (.w 1) (.g 1) 0, .vimul c0 .i64 (.w 1) (.w 1) (.g 1) 0, .vand c0 .i64 (.w 1) (.w 1) (.g 1) 0,
    .vor c0 .i64 (.w 1) (.w 1) (.g 1) 0, .vxor c0 .i64 (.w 1) (.w 1) (.g 1) 0, .vshl c0 .i64 (.w 1) (.w 1) (.g 1) 0,
    .vshr c0 .i64 (.w 1) (.w 1) (.g 1) 0, .vsar c0 .i64 (.w 1) (.w 1) (.g 1) 0, .vcmp c0 (.f32 .eq) 1 (.w 1) (.small 3) 0,
    .vbcast c0 (.flt .f16) (.w 1) (.small 3) 0, .vbcast c0 (.int .i64) (.w 1) (.g 3) 0,
    .vcvt c0 (.int .i64) { rm := .rn, sat := false } (.flt .f32) (.w 1) (.w 2) 0,
    .vcvt c0 (.flt .f32) { rm := .rn, sat := false } (.int .n64) (.w 1) (.w 2) 0].all (fun i => !i.wellFormed) = true := by decide +kernel
theorem test_ill_formed_words : [Instr.amo c0 .dev .f32 .add 1 2 3 (.g 4), .amo c0 .dev .i64 .fadd 1 2 3 (.g 4), .cas c0 .dev .f16 1 2 3 (.g 4),
    .red c0 .dev .i64 .swap 1 2 (.g 4), .red c0 .dev .n32 .fmax 1 2 (.g 4), .jwait c0 3 (.g 1), .jstat c0 1 3, .chan c0 1 2 13,
    .chan c0 1 2 0x20, .chan c0 1 1 4, .send c0 0 20 (.g 1) (some 20), .select c0 1 57 0x80, .select c0 1 2 0, .select c0 1 2 0x100,
    .hjoin c0 1 (.small 0), .hjoin c0 1 (.small 11), .gstat c0 1 2 12 (.small 0), .gstat c0 1 2 0 (.g 3), .rdcnt c0 1 9,
    .monq c0 1 (.small 16)].all (fun i => !i.wellFormed) = true := by decide +kernel
/-- Steps that name a unit the part does not have (R12, R23, R363, R382); a peer device stands for a core from 4,096 on. -/
theorem test_ill_formed_units : [Instr.mloadCompletion 4096 0, .matrixOperationStart 1024, .matrixOperationCompletion 1024, .wideIssue 4096,
    .loadResponse 8192 1, .loadResponse 0 12, .postedWritePerform 4096 0, .kioskAtomicPerform 4096 1 0, .atomicResponse 0 12 0,
    .kioskRefusal 0 12 0 .noAnswer, .remoteTimeout 4096 1 0, .waitPoll 0 12,
    .inboxMessageArrival 8192 { device := 0, record := 0, len := 8, closure := false, forwarded := false, holder := 0, seq := 0, key := 0,
                                payload := 0, carried := none, ack := none },
    .leaveNotice 0 true 0 0 8192 none, .arrivalNotice 0 true { core := 0, ctx := 12 } 1, .processExit 4096, .watchdogExpiry 4096,
    .nodeDispatch 4, .stagef 4096 0 0, .monitorSample 1024, .icacheFill 4096 0, .hardwareCounterWrap 4096 0,
    .residencyFillComplete 4096, .l1Eviction 4096 0, .offCoreReferenceResult 4096 1].all (fun i => !i.wellFormed) = true := by decide +kernel
theorem test_ill_formed_controllers : [Instr.formatWindowChange 1 12 0 0, .mcPhyResetRelease 12, .mcImpedanceCalibration 13,
    .mcCommandAddressTraining 12, .mcReadTraining 12, .mcWriteTraining 12, .mcLaneRepair 12, .mcInitialise 12, .mcEnable 15,
    .mcStepDone 12 false 0 0, .portSerdesResetRelease 18 true, .portReceiverDetect 18, .portEqualise 31, .portDeskewFlitLock 18,
    .portKeyExchange 18, .portUp 18, .portDown 18, .portStepDone 18 false 0, .portTrainingTimeout 18, .linkLoss 18].all
    (fun i => !i.wellFormed) = true := by decide +kernel

/-! ## Effects of words -/

/-- Core 0 runs C of the one process of a gang of domain 0, which is about to issue the word at 0x10000; the page there is mapped. -/
def st : State := State.reset.withFetchWord 96 0
def setG (l : List (BitVec 6 × GReg)) (s : State) : State := s.updCx fun x => l.foldl (fun x p => x.setG p.1 p.2) x
def num (v : Nat) : GReg := GReg.data (BitVec.ofNat 64 v)
/-- g2 and g3. -/
def on (a b : Nat) : State := setG [(2, num a), (3, num b)] st
/-- The results an instruction leaves on their way to the registers of its core. -/
def landed (i : Instr) (s : State) : List (Nat × Result × Flags) :=
  match exec i s with
  | .next t => (t.coreAt s.core).land.map fun l => (l.due, l.res, l.flags)
  | .fault _ | .refused _ => []
/-- Cause and value of the trap an instruction takes. -/
def trapped (i : Instr) (s : State) : Option (BitVec 8 × W64) :=
  match exec i s with
  | .next t => if (t.ctxAt s.core s.k).run = .parked then some ((t.ctxAt s.core s.k).trap.cause, (t.ctxAt s.core s.k).trap.val) else none
  | .fault _ | .refused _ => none
/-- A part of the next state. -/
def after {α : Type} (i : Instr) (s : State) (f : State → α) : Option α :=
  match exec i s with
  | .next t => some (f t)
  | .fault _ | .refused _ => none
/-- Each instruction, on g2 and g3, writes g1 after a latency with flags. -/
def valuesAll (l : List (Instr × Nat × Nat × Nat × Nat × Nat)) : Bool :=
  l.all fun (i, a, b, lat, v, fl) => decide (landed i (on a b) = [(lat, .g 1 (num v), BitVec.ofNat 5 fl)])

/-- By hand from R131 and R132: wraps, shift counts taken modulo 64, signed and unsigned order, high halves. -/
theorem test_integer_words : valuesAll [
    (.add c0 1 2 (.g 3), 0xFFFFFFFFFFFFFFFF, 2, 1, 1, 0), (.sub c0 1 2 (.g 3), 0, 1, 1, 0xFFFFFFFFFFFFFFFF, 0),
    (.and c0 1 2 (.g 3), 12, 10, 1, 8, 0), (.or c0 1 2 (.g 3), 12, 10, 1, 14, 0), (.xor c0 1 2 (.g 3), 12, 10, 1, 6, 0),
    (.andn c0 1 2 (.g 3), 12, 10, 1, 4, 0), (.shl c0 1 2 (.small 65), 3, 0, 1, 6, 0), (.shr c0 1 2 (.g 3), 0x8000000000000000, 63, 1, 1, 0),
    (.sar c0 1 2 (.g 3), 0x8000000000000000, 63, 1, 0xFFFFFFFFFFFFFFFF, 0), (.rot c0 1 2 (.g 3), 0x8000000000000001, 1, 1, 3, 0),
    (.min c0 1 2 (.g 3), 0xFFFFFFFFFFFFFFFF, 1, 1, 0xFFFFFFFFFFFFFFFF, 0), (.max c0 1 2 (.g 3), 0xFFFFFFFFFFFFFFFF, 1, 1, 1, 0),
    (.minn c0 1 2 (.g 3), 0xFFFFFFFFFFFFFFFF, 1, 1, 1, 0), (.maxn c0 1 2 (.imm 0x80000000), 1, 0, 1, 0xFFFFFFFF80000000, 0),
    (.mul c0 1 2 (.g 3), 0xFFFFFFFFFFFFFFFF, 3, 3, 0xFFFFFFFFFFFFFFFD, 0), (.mulh c0 1 2 (.g 3), 0xFFFFFFFFFFFFFFFF, 3, 3, 0xFFFFFFFFFFFFFFFF, 0),
    (.mulhn c0 1 2 (.g 3), 0xFFFFFFFFFFFFFFFF, 3, 3, 2, 0)] = true := by decide +kernel
/-- R103: truncation towards zero, division by zero, the most negative quotient. -/
theorem test_division_words : valuesAll [
    (.div c0 1 2 (.small 0xFFE), 7, 0, 16, 0xFFFFFFFFFFFFFFFD, 0), (.div c0 1 2 (.g 3), 7, 0, 16, 0xFFFFFFFFFFFFFFFF, 0),
    (.div c0 1 2 (.small 0xFFF), 0x8000000000000000, 0, 16, 0x8000000000000000, 0), (.divn c0 1 2 (.g 3), 0xFFFFFFFFFFFFFFFF, 2, 16, 0x7FFFFFFFFFFFFFFF, 0),
    (.divn c0 1 2 (.g 3), 5, 0, 16, 0xFFFFFFFFFFFFFFFF, 0), (.rem c0 1 2 (.small 2), 0xFFFFFFFFFFFFFFF9, 0, 16, 0xFFFFFFFFFFFFFFFF, 0),
    (.rem c0 1 2 (.small 0xFFF), 0x8000000000000000, 0, 16, 0, 0), (.remn c0 1 2 (.g 3), 7, 0, 16, 7, 0)] = true := by decide +kernel
/-- By hand from R133 to R135. -/
theorem test_field_words : valuesAll [
    (.clz c0 1 2, 1, 0, 1, 63, 0), (.clz c0 1 2, 0, 0, 1, 64, 0), (.ctz c0 1 2, 0x8000000000000000, 0, 1, 63, 0), (.ctz c0 1 2, 0, 0, 1, 64, 0),
    (.popc c0 1 2, 0xF0F, 0, 1, 8, 0), (.brev c0 1 2, 1, 0, 1, 0x8000000000000000, 0), (.ext c0 1 .i8 2, 0x180, 0, 1, 0xFFFFFFFFFFFFFF80, 0),
    (.ext c0 1 .n8 2, 0x180, 0, 1, 0x80, 0), (.bfx c0 1 2 (.small 4) (.small 8), 0xABC, 0, 1, 0xAB, 0),
    (.bfxs c0 1 2 (.small 4) (.small 8), 0xABC, 0, 1, 0xFFFFFFFFFFFFFFAB, 0), (.bfi c0 1 2 (.small 60) (.small 8), 0xAB, 0, 1, 0xB000000000000000, 0),
    (.movi c0 1 0x80000000, 0, 0, 1, 0xFFFFFFFF80000000, 0), (.movh c0 1 7, 0, 0, 1, 0x700000000, 0)] = true := by decide +kernel
/-- R136 and R124: signed against unsigned order, `.tst`, and the predicate words; q0 is true, the others reset to false. -/
theorem test_compare_words : ([(.cmp c0 2 .lt 2 (.small 0), true), (.cmp c0 2 .ltn 2 (.small 0), false), (.cmp c0 2 .tst 2 (.small 1), true),
    (.pand c0 2 0 1, false), (.por c0 2 0 1, true), (.pnot c0 2 1, true)] : List (Instr × Bool)).all
      (fun p => decide (landed p.1 (on 0xFFFFFFFFFFFFFFFF 0) = [(1, .q 2 p.2, 0)])) = true ∧
    landed (.sel c0 1 0 2 3) (on 5 6) = [(1, .g 1 (num 5), 0)] ∧ landed (.sel c0 1 1 2 3) (on 5 6) = [(1, .g 1 (num 6), 0)] := by decide +kernel
/-- 1 + 2, 3 - 1, 1.5 × 2, 1 × 2 + 1, 1 / 0 (DZ), √4, √−1 (NV), overflow (OF, NX) and a tie to even (R98 to R105, R138). -/
theorem test_float_words : valuesAll [
    (.fadd c0 .f32 .rn 1 2 3, 0x3F800000, 0x40000000, 4, 0x40400000, 0), (.fsub c0 .f32 .rn 1 2 3, 0x40400000, 0x3F800000, 4, 0x40000000, 0),
    (.fmul c0 .f32 .rn 1 2 3, 0x3FC00000, 0x40000000, 4, 0x40400000, 0), (.ffma c0 .f32 .rn 1 2 3 2, 0x3F800000, 0x40000000, 4, 0x40400000, 0),
    (.fdiv c0 .f32 .rn 1 2 3, 0x3F800000, 0, 16, 0x7F800000, 8), (.fsqrt c0 .f32 .rn 1 2, 0x40800000, 0, 16, 0x40000000, 0),
    (.fsqrt c0 .f32 .rn 1 2, 0xBF800000, 0, 16, 0x7FC00000, 16), (.fadd c0 .f32 .rn 1 2 3, 0x7F7FFFFF, 0x7F7FFFFF, 4, 0x7F800000, 5),
    (.fadd c0 .f32 .rz 1 2 3, 0x7F7FFFFF, 0x7F7FFFFF, 4, 0x7F7FFFFF, 5), (.fadd c0 .f16 .rn 1 2 3, 0x6800, 0x3C00, 4, 0x6800, 1)] = true := by
  decide +kernel
/-- The examples of R140, and R139 on NaNs, signed zeros and classes. -/
theorem test_exact_float_words : valuesAll [
    (.fcvt c0 (.int .i32) { rm := .rz, sat := false } (.flt .f32) 1 2, 0xC0B00000, 0, 4, 0xFFFFFFFFFFFFFFFB, 1),
    (.fcvt c0 (.int .i32) { rm := .rn, sat := false } (.flt .f32) 1 2, 0x4F000000, 0, 4, 0xFFFFFFFF80000000, 16),
    (.fcvt c0 (.int .i32) { rm := .rn, sat := true } (.flt .f32) 1 2, 0x4F000000, 0, 4, 0x7FFFFFFF, 16),
    (.fcvt c0 (.int .n8) { rm := .rn, sat := true } (.flt .f32) 1 2, 0x7FC00000, 0, 4, 0, 16),
    (.fcvt c0 (.flt .f16) { rm := .rn, sat := false } (.flt .f32) 1 2, 0x47800000, 0, 4, 0x7C00, 5),
    (.fcvt c0 (.flt .f16) { rm := .rn, sat := true } (.flt .f32) 1 2, 0x47800000, 0, 4, 0x7BFF, 5),
    (.fcvt c0 (.flt .bf16) { rm := .rn, sat := false } (.flt .f16) 1 2, 1, 0, 4, 0x3380, 0),
    (.fcvt c0 (.int .i8) { rm := .rn, sat := false } (.int .i32) 1 2, 0x181, 0, 4, 0xFFFFFFFFFFFFFF81, 0),
    (.fcvt c0 (.int .i8) { rm := .rn, sat := true } (.int .i32) 1 2, 0x181, 0, 4, 0x7F, 0),
    (.fmin c0 .f32 1 2 3, 0, 0x80000000, 2, 0x80000000, 0), (.fmax c0 .f32 1 2 3, 0x7FC00000, 0x3F800000, 2, 0x3F800000, 0),
    (.fmax c0 .f32 1 2 3, 0x7F800001, 0x3F800000, 2, 0x7FC00000, 16), (.fclass c0 .f32 1 2, 0x80000000, 0, 2, 8, 0),
    (.fclass c0 .bf16 1 2, 0x7F81, 0, 2, 0x100, 0), (.fsgn c0 .f32 .xor 1 2 3, 0xBF800000, 0xBF800000, 2, 0x3F800000, 0)] = true ∧
    landed (.fcmp c0 .f32 .lt 2 2 3) (on 0x7FC00000 0) = [(2, .q 2 false, 16)] ∧
    landed (.fcmp c0 .f32 .eq 2 2 3) (on 0x80000000 0) = [(2, .q 2 true, 0)] := by decide +kernel

/-- A capability (R350): kind, permissions R W X LC SC, and, in 16-byte units, base and length. -/
def cap (kind perms base len : Nat) : GReg :=
  { bits := BitVec.ofNat 128 ((kind * 32 + perms) * 2 ^ 120 + len * 16 * 2 ^ 86 + base * 2 ^ 40), tag := true, endst := 0 }
/-- The whole local store, readable and writable, in g10. -/
def win : GReg := cap 2 0b11000 0 16384
def lw (l : List (BitVec 6 × GReg)) : State := setG ((10, win) :: l) st

/-- R142: bytes are little-endian, a load extends by its format, and the last byte of the window is inside it. -/
theorem test_local_words :
    (after (.stl c0 .n32 1 10 (.imm 0x3FFFC)) (lw [(1, num 0x1FF8081)]) fun t =>
      (landed (.ldl c0 .i8 2 10 (.imm 0x3FFFC)) t, landed (.ldl c0 .n16 2 10 (.imm 0x3FFFC)) t)) =
      some ([(4, .g 2 (num 0xFFFFFFFFFFFFFF81), 0)], [(4, .g 2 (num 0x8081), 0)]) ∧
    trapped (.ldl c0 .n32 2 10 (.imm 0x3FFFE)) (lw []) = some (cCAPBND, 0x3FFFE) ∧
    trapped (.ldl c0 .n32 2 10 (.imm 2)) (lw []) = some (cALIGN, 2) ∧ trapped (.stl c0 .i8 1 11 (.imm 0)) (lw []) = some (cCAPTAG, 0) ∧
    trapped (.stl c0 .i8 1 11 (.imm 0)) (lw [(11, cap 1 31 0 4)]) = some (cCAPTAG, 1) ∧
    trapped (.stl c0 .i8 1 11 (.imm 0)) (lw [(11, cap 2 16 0 4)]) = some (cCAPPERM, 0) := by decide +kernel
/-- The worked example after R358: g7 is a kind-1 capability with R and W, base 0x1000_0001_0000, 65,536 bytes, cursor 0x2000. -/
def ex7 : GReg := { cap 1 0b11000 0x10000001000 4096 with bits := (cap 1 0b11000 0x10000001000 4096).bits ||| 0x2000 }
def ex8 : GReg := { bits := 0x38000004000100000012000000000000, tag := true, endst := 0 }
theorem test_capability_words :
    landed (.cbound c0 8 7 (.imm 0x1000)) (setG [(7, ex7)] st) = [(1, .g 8 ex8, 0)] ∧
    trapped (.cbound c0 10 8 (.imm 8192)) (setG [(8, { ex8 with bits := ex8.bits ||| 0xFF8 })] st) = some (cALIGN, 0x100000012FF8) ∧
    trapped (.cbound c0 10 7 (.imm 0xF000)) (setG [(7, ex7)] st) = some (cCAPBND, 0x100000012000) ∧
    landed (.cperm c0 8 7 (.small 16)) (setG [(7, cap 1 31 0 256)] st) = [(1, .g 8 (cap 1 16 0 256), 0)] ∧
    landed (.ctest c0 1 7 1) (setG [(7, cap 1 31 0 256)] st) = [(1, .q 1 true, 0)] ∧
    landed (.cnull c0 8) (setG [(8, cap 1 31 0 256)] st) = [(1, .g 8 GReg.zero, 0)] ∧
    landed (.cmove c0 8 7) (setG [(7, cap 3 31 0 256)] st) = [(1, .g 7 GReg.zero, 0), (1, .g 8 (cap 3 31 0 256), 0)] ∧
    trapped (.add c0 7 1 (.g 1)) (setG [(7, cap 3 31 0 256)] st) = some (cENDLEAK, 7) := by decide +kernel
/-- R126 to R128: targets, links, and a loop's last turn. -/
theorem test_branch_words :
    after (.bra c0 0xFFFFFFF4) st (fun t => (t.ctxAt 0 1).pc) = some 0xFFF4 ∧
    after (.callRelative c0 20 0x6C) st (fun t => ((t.ctxAt 0 1).pc, (t.coreAt 0).land.map fun l => l.res)) = some (0x1006C, [.g 20 (num 0x1000C)]) ∧
    after (.ret c0 2) (on 0x20000 0) (fun t => (t.ctxAt 0 1).pc) = some 0x20000 ∧
    after (.loop c0 2 0xFFFFFFDC) (on 2 0) (fun t => (t.ctxAt 0 1).pc) = some 0xFFDC ∧
    after (.loop c0 2 0xFFFFFFDC) (on 1 0) (fun t => (t.ctxAt 0 1).pc) = some 0x1000C ∧
    trapped (.brx c0 2) (setG [(2, cap 2 31 0 4)] st) = some (cCAPTAG, 2) := by decide +kernel
/-- R404 to R407. -/
theorem test_system_words :
    trapped (.trap c0 5 (.small 0xFFF)) st = some (0x45, 0xFFFFFFFFFFFFFFFF) ∧ trapped (.retarm c0 5 1) st = some (cPROT, 0) ∧
    trapped (.wrs c0 0x00F (.g 1)) st = some (cPROT, 0x00F) ∧ landed (.wrs c0 0x006 (.small 5)) st = [(1, .s 0x006 5, 0)] ∧
    (after (.wrs c0 0x006 (.small 5)) st fun t => (t.advance.ctxAt 0 1).rmode) = some 5 ∧
    (after (.wrs c0 0x006 (.small 6)) st fun t => (t.advance.ctxAt 0 1).rmode) = some 0 ∧
    landed (.rds c0 1 0x00C) st = [(1, .g 1 (num 0x1000000), 0)] := by decide +kernel

/-- S of core 0 runs; C is parked with cause PROT, value 7, at 0x10000, with 9 in g4. -/
def sup : State := st.updCore 0 fun c => { c with
  cur := some 0, evs := 2
  ctxs := [(0, { Ctx.init with pc := 0x10000, run := .ready }),
           (1, { Ctx.init with pc := 0x10000, run := .parked, g := [(4, num 9)], trap := { cause := cPROT, val := 7, ip := 0x10000 } })] }
/-- R406, R407: ERET modes 0 and 1, and the context forms. -/
theorem test_supervisor_words :
    after (.eretRetry c0 1 1) sup (fun t => ((t.ctxAt 0 1).run, (t.ctxAt 0 1).pc, (t.coreAt 0).evs)) = some (.ready, 0x10000, 0) ∧
    after (.eretSkip c0 1 1) sup (fun t => ((t.ctxAt 0 1).run, (t.ctxAt 0 1).pc)) = some (.ready, 0x1000C) ∧
    after (.eretExit c0 1 1) sup (fun t => (t.coreAt 0).proc.faultExit) = some (some cPROT) ∧
    landed (.rdsContext c0 6 (.g 4) 1) sup = [(1, .g 6 (num 9), 0)] ∧ landed (.rds c0 6 0x00E) sup = [(1, .g 6 (num 7), 0)] ∧
    after (.wrsContext c0 (.g 4) (.small 3) 1) sup (fun t => (t.advance.ctxAt 0 1).gReg 4) = some (num 3) ∧
    (after (.trap c0 5 (.small 0)) sup fun t => (t.coreAt 0).proc.faultExit) = some (some 0x45) := by decide +kernel

/-! ## Effects of wide, matrix and memory words -/

/-- C holds block 0: w0 and w1 hold `a` and `b` in every lane, w2 to w7 zero; m1 selects lane 0. -/
def wst (a b : Nat) : State := (st.updCx fun x => { x with blocks := [0], m := [(1, 1)], g := [(9, num 0x40000000), (10, win)] }).updCore 0 fun c =>
  { c with w := [(0, replicate 32 (BitVec.ofNat 64 a)), (1, replicate 32 (BitVec.ofNat 64 b))] }
/-- The result a wide word leaves when its queue entry is performed: latency, lane 0, flags. -/
def widely (i : Instr) (s : State) : Option (Nat × Nat × Flags) :=
  match exec i s with
  | .next t => (t.coreAt 0).wq.head?.bind fun e => ((t.performWide 0 e).coreAt 0).land.head?.map fun l =>
      (l.due, (match l.res with
        | .w _ _ v => lane v 0
        | .m _ _ v => v.toNat
        | .g _ v => v.bits.toNat
        | .q .. | .s .. | .none => 0), l.flags)
  | .fault _ | .refused _ => none
def wideAll (l : List (Instr × Nat × Nat × Nat × Nat × Nat)) : Bool :=
  l.all fun (i, a, b, lat, v, fl) => decide (widely i (wst a b) = some (lat, v, BitVec.ofNat 5 fl))

/-- R155 on the values of the scalar tests, the tables of VRCP to VLOG2, and a g operand in every element (R148). -/
theorem test_wide_float_words : wideAll [
    (.vadd c0 .f32 .rn (.w 2) (.w 0) (.g 9) 1, 0x3F800000, 0, 4, 0x40400000, 0), (.vsub c0 .f32 .rn (.w 2) (.w 0) (.w (.w 1)) 1, 0x40400000, 0x3F800000, 4, 0x40000000, 0),
    (.vmul c0 .f16 .rn (.w 2) (.w 0) (.w (.w 1)) 1, 0x3E003E00, 0x40004000, 4, 0x42004200, 0),
    (.vfma c0 .f32 .rn (.w 2) (.w (.w 0)) (.g 9) (.w 1) 1, 0x3F800000, 0x3F800000, 4, 0x40400000, 0),
    (.vmin c0 .f32 (.w 2) (.w 0) (.w (.w 1)) 1, 0, 0x80000000, 4, 0x80000000, 0), (.vmax c0 .f32 (.w 2) (.w 0) (.w (.w 1)) 1, 0, 0x80000000, 4, 0, 0),
    (.vabs c0 .f32 (.w 2) (.w 0) 1, 0xFF800001, 0, 4, 0x7F800001, 0), (.vneg c0 .bf16 (.w 2) (.w 0) 1, 0x3F80BF80, 0, 4, 0xBF803F80, 0),
    (.vrcp c0 .f32 .rn (.w 2) (.w 0) 1, 0x80000000, 0, 8, 0xFF800000, 8), (.vrsq c0 .f32 .rn (.w 2) (.w 0) 1, 0x40800000, 0, 8, 0x3F000000, 0),
    (.vexp2 c0 .f32 .rn (.w 2) (.w 0) 1, 0x40400000, 0, 8, 0x41000000, 0), (.vlog2 c0 .f32 .rn (.w 2) (.w 0) 1, 0x41000000, 0, 8, 0x40400000, 0),
    (.vdiv c0 .f32 .rn (.w 2) (.w 0) (.w (.w 1)) 1, 0x3F800000, 0, 16, 0x7F800000, 8)] = true := by decide +kernel
/-- R156 to R162: element wraps, shift counts by width, a mask, a permutation, sums of 32 lanes, and a conversion. -/
theorem test_wide_integer_words : wideAll [
    (.viadd c0 .n8 (.w 2) (.w 0) (.w (.w 1)) 1, 0xFF01FF01, 0x01010101, 2, 0x00020002, 0), (.visub c0 .i16 (.w 2) (.w 0) (.small 1) 1, 0x00010000, 0, 2, 0x0000FFFF, 0),
    (.vimul c0 .n8 (.w 2) (.w 0) (.w (.w 1)) 1, 0x10101010, 0x10111213, 4, 0x00102030, 0), (.vand c0 .n32 (.w 2) (.w 0) (.w (.w 1)) 1, 12, 10, 2, 8, 0),
    (.vor c0 .n32 (.w 2) (.w 0) (.w (.w 1)) 1, 12, 10, 2, 14, 0), (.vxor c0 .n32 (.w 2) (.w 0) (.w (.w 1)) 1, 12, 10, 2, 6, 0),
    (.vshl c0 .n8 (.w 2) (.w 0) (.small 9) 1, 0x81818181, 0, 2, 0x02020202, 0), (.vshr c0 .n32 (.w 2) (.w 0) (.small 31) 1, 0x80000000, 0, 2, 1, 0),
    (.vsar c0 .i32 (.w 2) (.w 0) (.small 31) 1, 0x80000000, 0, 2, 0xFFFFFFFF, 0), (.vcmp c0 (.i32 .lt) 3 (.w 0) (.w (.w 1)) 1, 0xFFFFFFFF, 0, 2, 1, 0),
    (.vcmp c0 (.n32 .ltn) 1 (.w 0) (.w (.w 1)) 1, 0xFFFFFFFF, 0, 2, 0, 0), (.vsel c0 (.w 2) (.w 0) (.w 1) 2, 5, 6, 2, 6, 0),
    (.mnot c0 3 0, 0, 0, 2, 0, 0), (.mand c0 3 0 1, 0, 0, 2, 1, 0), (.mor c0 3 0 2, 0, 0, 2, 0xFFFFFFFF, 0),
    (.vperm c0 (.w 2) (.w 0) (.w 1) 1, 5, 31, 3, 5, 0), (.vshuf c0 (.w 2) (.w 0) (.w 1) (.w 1) 1, 5, 32, 3, 32, 0),
    (.vbcast c0 (.int .i8) (.w 2) (.small 0xFFE) 1, 0, 0, 3, 0xFEFEFEFE, 0),
    (.vins c0 (.w 2) (.g 9) 0, 0, 0, 3, 0x40000000, 0), (.vrsum c0 (.f32 .rn) (.w 2) (.w 0) 0, 0x3F800000, 0, 8, 0x42000000, 0),
    (.vrsum c0 .n32 (.w 2) (.w 0) 0, 3, 0, 8, 96, 0), (.vrmax c0 .i32 (.w 2) (.w 0) 1, 7, 0, 8, 7, 0), (.vrmin c0 .f32 (.w 2) (.w 0) 2, 7, 0, 8, 0, 0),
    (.vcvt c0 (.int .i32) { rm := .rz, sat := false } (.flt .f32) (.w 2) (.w 0) 1, 0xC0B00000, 0, 4, 0xFFFFFFFB, 1),
    (.vmov c0 (.w 2) (.w 0) 1, 9, 0, 2, 9, 0)] = true ∧
    (widely (.vextr c0 5 (.w 0) 31) (wst 0x80000001 0)).map (fun r => r.2) = some (0x80000001, 0) := by decide +kernel
/-- R163: wide stores and loads of the local store, and a lane left out of an indexed load. -/
theorem test_wide_local_words :
    (after (.vstlImmediate c0 (.w 0) 10 256) (wst 0x04030201 0) fun t => ((t.coreAt 0).wq.head?.map fun e =>
      ((t.performWide 0 e).lsRead 0 380 8).1)) = some (some [1, 2, 3, 4, 0, 0, 0, 0]) ∧
    widely (.vldlRegister c0 (.w 2) 10 128 0) (wst 0 0) = some (4, 0, 0) ∧ widely (.vldx c0 (.w 2) 10 (.w 0) 0) (wst 0x40000 7) = some (8, 0, 0) := by
  decide +kernel
/-- R152: the lowest free block, zeroed. -/
theorem test_allotment_words : (after (.allot c0 1) (wst 5 6) fun t => ((t.ctxAt 0 1).blocks, (t.ctxAt 0 1).allot)) = some ([0, 1], 16) ∧
    (after (.shrink c0 1) (wst 5 6) fun t => (t.ctxAt 0 1).blocks) = some [] ∧ trapped (.vmov c0 (.w 8) (.w 0) 0) (wst 5 6) = some (cALLOT, 8) ∧
    trapped (.vmov c0 (.w 1) (.rel 9 5) 0) (wst 5 6) = some (cALLOT, 0x40000005) := by decide +kernel
/-- The gang of `st` with a quad of four roles on cores 0 to 3. -/
def quad : State := { st with gangs := st.gangs.map fun p =>
  (p.1, { p.2 with h := { p.2.h with roles := 4, quads := 1 }, bound := [(0, 0), (1, 1), (2, 2), (3, 3)] }) }
/-- R167, R171, R172: a claimed slot is refused, a tile's shape, a quad without the core. -/
theorem test_matrix_words :
    (after (.mcfg c0 2 5) quad fun t => ((t.coreAt 0).tile 2).size) = some 2048 ∧
    (after (.mclaim c0 1 31) quad fun t => ((t.arborAt 0).slot 31).claimed) = some true ∧ trapped (.mgang c0 .i8 0 1 2 3) st = some (cGANGMIS, 1) := by
  decide +kernel

/-! ## Memory, engines, channels, gangs and agents -/

/-- g6: the mapped page, readable and writable; g7: data. -/
def gst (l : List (BitVec 6 × GReg)) : State := setG ((6, cap 1 0b11000 0x1000 4096) :: l) st
/-- R206, R210: a posted store and a load that translate to physical 0x10_0008, and the traps of MemAddr. -/
theorem test_global_words :
    (after (.st c0 (.int .n64) .skip 7 6 (.imm 8)) (gst [(7, num 0x1122334455667788)]) fun t =>
      ((t.coreAt 0).storeq.map fun o => (o.place, o.size, o.data.toNat))) = some [(.hbm 0x100008, 8, 0x1122334455667788)] ∧
    (after (.postedWritePerform 0 9) (gst [] |>.updCore 0 fun c => { c with storeq := [{ (st.memOp .store 0x10008 (.hbm 0x100008) 4 .dev) with
      id := 9, data := 0x11223344, policy := .skip }] }) fun t => t.mem.readAs (t.keyOf 0) 0x100008 2) = some 0x3344 ∧
    (after (.ld c0 (.int .i32) .home 1 6 (.imm 12)) (gst []) fun t => (t.coreAt 0).flight.map fun o => o.place) = some [.hbm 0x10000C] ∧
    trapped (.ld c0 (.int .i32) .home 1 6 (.imm 0x10000)) (gst []) = some (cCAPBND, 0x20000) ∧
    trapped (.ld c0 (.int .i32) .home 1 6 (.imm 2)) (gst []) = some (cALIGN, 0x10002) ∧
    trapped (.st c0 (.int .i32) .home 1 5 (.imm 0)) (gst [(5, cap 1 0b10000 0x1000 4096)]) = some (cCAPPERM, 0) := by decide +kernel
/-- g6 as above, 10 at physical 0x10_0100, and an AMO of −1 on its way there. -/
def amoSt (op : AmoOp) (f : AFmt) : State :=
  let s := gst []
  let t : State := { s with mem := s.mem.writeAs (s.keyOf 0) 0x100100 8 10 }
  t.updCore 0 fun c => { c with flight := [{ (s.memOp (.amo f op) 0x10100 (.hbm 0x100100) 8 .dev) with
    id := 9, data := 0xFFFFFFFFFFFFFFFF, seq := 1 }] }
/-- R215, R217: the operations on 10 and −1, signed and unsigned. -/
theorem test_atomic_operations : ([(.swap, .n64, 0xFFFFFFFFFFFFFFFF), (.add, .n64, 9), (.and, .n64, 10), (.or, .n64, 0xFFFFFFFFFFFFFFFF),
      (.xor, .n64, 0xFFFFFFFFFFFFFFF5), (.min, .n64, 10), (.min, .i64, 0xFFFFFFFFFFFFFFFF), (.max, .i64, 10)] : List (AmoOp × AFmt × Nat)).all
    (fun p => decide ((after (.kioskAtomicPerform 0 1 9) (amoSt p.1 p.2.1) fun t => t.mem.readAs (t.keyOf 0) 0x100100 8) = some p.2.2)) = true := by
  decide +kernel

/-! ## Witnesses: the hypotheses of the statements are met -/

def goes (o : Host.Outcome State Fault Refusal) : Bool :=
  match o with
  | .next _ => true
  | .fault _ | .refused _ => false
/-- Core 0's turn: the running context `k` can issue, and the word it fetches meets `p` together with the state the fetch leaves. -/
def turnMeets (s : State) (k : Nat) (p : BitVec 96 → State → Bool) : Bool :=
  decide (s.inputs = [] ∧ s.due = [] ∧ s.todo = [0] ∧ (s.coreAt 0).cur = some k ∧ (s.coreAt 0).isReady k = true ∧
    (k = 0 ∨ (s.ctxAt 0 k).wd < (s.coreAt 0).wdog.toNat) ∧ (s.ctxAt 0 k).deferred = none ∧ (s.ctxAt 0 k).fence = none ∧ (s.ctxAt 0 k).notBefore ≤ s.cyc) &&
  match (({ s with todo := [] } : State).ticked 0 k).fetchWord 0 (s.ctxAt 0 k) with
  | .word w _ t => waitsDone (fieldsOf w) (t.ctxAt 0 k) && p w t
  | _ => false

theorem witness_DecodeOfEncode : (Instr.cmp c0 2 .ltn 5 (.imm 100)).wellFormed = true ∧
    encode (.cmp c0 2 .ltn 5 (.imm 100)) = some 0x1A00_0000_F002_0056_0000_0064 ∧
    (Instr.vfma c0 .bf16 .dyn (.rel 15 63) (.g 63) (.w (.rel 0 0)) (.w 63) 7).wellFormed = true ∧
    (encode (.vfma c0 .bf16 .dyn (.rel 15 63) (.g 63) (.w (.rel 0 0)) (.w 63) 7)).isSome = true := by decide +kernel
/-- Reserved classes at both ends of each range, phase bits 0b11, scope codes 6 and 7, and a rejected word at core 0's turn. -/
theorem witness_StaticChecks : ([0x0A, 0x0F, 0x19, 0x1F, 0x25, 0x27, 0x29, 0x2F, 0x34, 0x37, 0x39, 0x3F] : List Nat).all (fun k =>
      let c := ((BitVec.ofNat 96 (k * 2 ^ 90)).extractLsb' 90 6).toNat
      decide (0x0A ≤ c ∧ c ≤ 0x0F ∨ 0x19 ≤ c ∧ c ≤ 0x1F ∨ 0x25 ≤ c ∧ c ≤ 0x27 ∨ 0x29 ≤ c ∧ c ≤ 0x2F ∨ 0x34 ≤ c ∧ c ≤ 0x37 ∨ 0x39 ≤ c)) = true ∧
    (0x0000_0300_0000_0000_0000_0000#96).extractLsb' 72 2 = 3#2 ∧
    ((0x8038_0000_0000_0000_0000_0000#96).extractLsb' 90 6 ∈ [0x20#6, 0x22#6] ∧
      (0x8038_0000_0000_0000_0000_0000#96).extractLsb' 82 7 ∈ [0x0E#7, 0x0F#7, 0x16#7, 0x17#7]) ∧
    turnMeets (State.reset.withFetchWord 96 0x2800_0000_0000_0000_0000_0000) 1 (fun w t =>
      (t.coreAt 0).upcall.isNone && decide (decodeWord w = .illegal .reservedClass)) = true := by decide +kernel
theorem witness_StepRunsTheDecodedWord : turnMeets (State.reset.withFetchWord 96 0x0A00_0000_0050_0060_0000_0007) 1 (fun w t =>
    (t.coreAt 0).upcall.isNone && decide (decodeWord w = .ok (.add c0 5 6 (.imm 7)))) = true ∧
    turnMeets sup 0 (fun w _ => decide (decodeWord w = .ok (.nop c0))) = true := by decide +kernel
/-- C behind a fence: over, and held by a store that has not performed. -/
def fenced (f : Fence) (l : List MemOp) : State := (st.updCtx 0 1 fun x => { x with fence := some f }).updCore 0 fun c => { c with storeq := l }
theorem witness_Fence : (st.inputs = [] ∧ st.due = [] ∧ st.todo = [0] ∧ (st.coreAt 0).cur = some 1 ∧ (st.coreAt 0).isReady 1 = true) ∧
    (let s := fenced .eng []
     let v := ({ s with todo := [] } : State).ticked 0 1
     (s.ctxAt 0 1).fence = some .eng ∧ v.fenceMet 0 1 .eng = true ∧ ((v.tryFence 0 1).ctxAt 0 1).fence = none) ∧
    (let s := fenced (.full true) [{ (st.memOp .store 0x10008 (.hbm 0x100008) 4 .dev) with po := [1] }]
     (s.coreAt 0).isReady 1 = true ∧ (s.ctxAt 0 1).fence = some (.full true) ∧
       (({ s with todo := [] } : State).ticked 0 1).fenceMet 0 1 (.full true) = false) := by decide +kernel
theorem witness_FetchReads : (let s := st
     let x := s.ctxAt 0 1
     let u := s.walkReady 0 (x.pc.toNat / 64 * 64)
     let l : ILine := { place := .hbm 0x100000, bytes := natLE 64 0, since := [] }
     s.isIxtin 0 x.pc.toNat = false ∧ x.pc.toNat % 4 = 0 ∧ x.pc.toNat % 64 ≤ 52 ∧ (s.coreAt 0).dom = 0 ∧
       u.codePlace 0 (x.pc.toNat / 64) = .ok (.hbm 0x100000) ∧ Tab.find (s.coreAt 0).icache (x.pc.toNat / 64) = some l ∧
       l.bytes = natLE 64 (u.mem.readAs (s.keyOf 0) 0x100000 64)) ∧
    st.isIxtin 0 0x10002 = false ∧ 0x10002 % 4 ≠ 0 := by decide +kernel
theorem witness_StepKeepsMemory : memOk st ∧ goes (step st) = true := ⟨by show _ = true; decide +kernel, by decide +kernel⟩
theorem witness_EveryInstruction : (Instr.nop c0).wellFormed = true ∧ (∀ a v, Instr.nop c0 ≠ .controlRegisterWrite a v) ∧
    goes (exec (.nop c0) st) = true := by
  refine ⟨by decide +kernel, ?_, by decide +kernel⟩
  intro a v h
  cases h
theorem witness_Frames : (Instr.add c0 1 2 (.g 3)).scalar = true ∧ goes (exec (.add c0 1 2 (.g 3)) (on 1 2)) = true ∧
    (Instr.fadd c0 .f32 .sr 1 2 3).drawing = true ∧ goes (exec (.fadd c0 .f32 .sr 1 2 3) (on 1 2)) = true := by decide +kernel

/-- C in the exchange phase, and a planned gang. -/
def xst : State := st.updProc 0 fun p => { p with exchange := true }
def planned : State := { st with gangs := st.gangs.map fun p => (p.1, { p.2 with h := { p.2.h with planned := true, xlen := 64 } }) }
def isPlanned (s : State) : Bool := s.myGang.any fun g => g.h.planned
theorem witness_WrongPhase :
    ((Instr.add { c0 with phase := .compute } 1 2 (.g 3)).scalarCtl = some { c0 with phase := .compute } ∧ xst.me.proc.exchange = true) ∧
    ((Instr.add { c0 with phase := .exchange } 1 2 (.g 3)).scalarCtl = some { c0 with phase := .exchange } ∧ st.me.proc.exchange = false) ∧
    (Instr.ld c0 .cap .home 1 6 (.g 2)).farCtl = some c0 ∧ planned.me.proc.exchange = false ∧ isPlanned planned = true := by decide +kernel
theorem witness_FalseGuard : (Instr.add { c0 with q := 1 } 1 2 (.g 3)).scalarCtl = some { c0 with q := 1 } ∧
    st.phaseBad { c0 with q := 1 } false = false ∧ st.guard { c0 with q := 1 } = false ∧
    (Instr.ld { c0 with neg := true } .cap .home 1 6 (.g 2)).farCtl = some { c0 with neg := true } ∧
    st.phaseBad { c0 with neg := true } true = false ∧ st.guard { c0 with neg := true } = false := by decide +kernel
theorem witness_Landed : (Result.g 1 (num 5)).isS = false ∧ (Result.q 7 true).isS = false ∧ (Result.m 1 3 3).isS = false ∧
    (Result.w 63 1 5).isS = false ∧ Result.none.isS = false ∧ st.me.land = [] ∧ (4 : Nat) < st.cyc + 5 ∧ st.cyc + 5 ≤ (5 : Nat) := by decide +kernel
theorem witness_TrapParks : (0 : Nat) < 1 ∧ (1 : Nat) < 12 ∧ (st.coreAt 0).upcall = none ∧ (0 : Nat) < 11 ∧ (11 : Nat) < 12 := by decide +kernel
/-- `sup` with C's latch. -/
def supLatch (l : Latch) : State := sup.updCtx 0 1 fun x => { x with latch := l }
theorem witness_Eret : Issues c0 fLate sup = true ∧ sup.k = 0 ∧ (sup.me.ctx 1).run = .parked ∧ (sup.me.ctx 1).latch.valid = false ∧
    (let s := supLatch { Latch.empty with valid := true, done := true }
     Issues c0 fLate s = true ∧ s.k = 0 ∧ (s.me.ctx 1).run = .parked ∧ (s.me.ctx 1).latch.valid = true ∧
       ((s.me.ctx 1).latch.posted || (s.me.ctx 1).latch.sent || (s.me.ctx 1).latch.done) = true) ∧
    (sup.me.ctx 2).run ≠ .parked ∧ (sup.ctxAt 0 1).gangEvents = [] := by decide +kernel
theorem witness_Supervisor : st.k ≠ 0 ∧ Issues c0 fLate st = true ∧ Issues c0 (fTo 6) st = true ∧ Issues c0 fPlain st = true ∧ sMarked 0x00F = true ∧
    sup.k ≠ 1 ∧ Issues c0 fLate sup = true ∧ sup.k = 0 ∧ Issues c0 fYield sup = true := by decide +kernel
theorem witness_Trap : Issues c0 fPlain st = true ∧ (0 < st.k ∧ st.k < 12 ∧ st.me.upcall = none) ∧ (sup.k = 0 ∧ sup.me.proc.faultExit = none) ∧
    (let w := 0x0004_0000_F040_0070_0000_0000#96
     w.extractLsb' 90 6 = 0 ∧ w.extractLsb' 82 7 = 1 ∧ w.extractLsb' 54 6 ≠ 0) := by decide +kernel
/-- RDS and WRS, plain and of a parked context, at both kinds of register. -/
theorem witness_System : Issues c0 fPlain st = true ∧ Issues c0 (fTo 2) st = true ∧
    ((sMarked 0x006 = true → st.k = 0) ∧ readOnly 0x006 = false) ∧ (Issues c0 fPlain sup = true ∧ (sMarked 0x00D = true → sup.k = 0) ∧ readOnly 0x00D = false) ∧
    readOnly 0x001 = true ∧ (sup.k = 0 ∧ Issues c0 (fTo 2) sup = true ∧ sup.leak 2 = false) ∧
    ((sup.me.ctx 1).run = .parked ∧ (sup.giReg (.small 3)).isEnd = false ∧ ((sup.me.ctx 1).gReg 4).isEnd = false) := by decide +kernel

/-! ### Scalar words -/

def anEnd : GReg := cap 3 0b11000 0 0
theorem witness_Integer : Issues c0 (fTo 1) (on 1 2) = true ∧ (on 1 2).leak 1 = false ∧ Issues c0 fPlain (on 1 2) = true ∧
    (let s := setG [(1, anEnd)] st
     Issues c0 (fTo 1) s = true ∧ s.leak 1 = true) := by decide +kernel
/-- Every kind of second source, and the nonzero Z.lo that R122 does not allow. -/
theorem witness_SecondSource : (fieldsOf 0x0A00_0000_0010_0020_8000_0000).imm = true ∧
    (let f := fieldsOf 0x0800_0000_0010_0020_03F0_0000
     f.imm = false ∧ f.zhi = encG 63 0 ∧ f.zlo = 0) ∧
    (let f := fieldsOf 0x0800_0000_0010_0020_0000_FFFF
     f.imm = false ∧ f.zhi = encG 0 0 ∧ f.zlo ≠ 0) ∧
    (let f := fieldsOf 0x0800_0000_0010_0020_F800_0000
     f.imm = false ∧ f.zhi = encSmall 0x800 ∧ f.zlo = 0) ∧
    (let f := fieldsOf 0x0800_0000_0010_0020_F7FF_0001
     f.imm = false ∧ f.zhi = encSmall 0x7FF ∧ f.zlo ≠ 0) := by decide +kernel
theorem witness_Branch : Issues c0 fPlain (on 0x20000 1) = true ∧ brTarget ((on 0x20000 1).gReg 2) = .to 0x20000 ∧
    (let s := setG [(2, cap 2 31 0 4), (3, cap 1 0b11011 0x1000 4), (4, cap 1 0b00100 0x1000 4)] st
     Issues c0 fPlain s = true ∧ brTarget (s.gReg 2) = .bad cCAPTAG 2 ∧ (s.gReg 2).tag = true ∧ capKind (s.gReg 2).bits ≠ 1 ∧
       capKind (s.gReg 3).bits = 1 ∧ capX (s.gReg 3).bits = false ∧ brTarget (s.gReg 4) = .to 0x10000) ∧
    (Issues c0 (fTo 20) (on 0x20000 1) = true ∧ (on 0x20000 1).leak 20 = false ∧ ((on 0x20000 1).gReg 2).tag = false) ∧
    (Issues c0 { fLate with d := some 3 } (on 0x20000 1) = true ∧ (on 0x20000 1).leak 3 = false ∧ (on 0x20000 1).readG 3 - 1 = 0 ∧ (on 0x20000 1).readG 2 - 1 ≠ 0) := by
  decide +kernel
theorem witness_Rounding : (let s := st.updCx fun x => { x with rmode := 5 }
    Issues c0 (fTo 1) s = true ∧ s.leak 1 = false ∧ rmOfCode s.cx.rmode = .sr) ∧ rmOfCode st.cx.rmode ≠ .sr := by decide +kernel
theorem witness_Local : Issues c0 (fTo 1) (lw []) = true ∧ Issues c0 fPlain (lw []) = true ∧ (lw []).leak 1 = false ∧
    lsAddr ((lw []).gReg 10) true false ((lw []).srcZ (.imm 0x3FFFC)).toInt 4 4 = .at_ 0x3FFFC ∧ (lw []).lsHeld 0 0x3FFFC 4 false = false ∧
    lsAddr ((lw []).gReg 10) false true ((lw []).srcZ (.imm 0)).toInt 8 8 = .at_ 0 ∧ (lw []).lsHeld 0 0 8 true = false ∧
    lsAddr ((lw []).gReg 10) true false ((lw []).srcZ (.imm 0x3FFFD)).toInt 4 4 = .bad cCAPBND 0x3FFFD := by decide +kernel
/-- Each check of a window, at its boundary: 64 bytes at 0x3FFC0 in kind 2. -/
theorem witness_WindowChecks : (0 : Nat) < 4 ∧ (num 0).tag = false ∧ ((cap 1 31 0 4).tag = true ∧ capKind (cap 1 31 0 4).bits ≠ 2) ∧
    (let r := cap 2 0b11000 0x3FFC 4
     r.tag = true ∧ capKind r.bits = 2 ∧ capR r.bits = true ∧ capW r.bits = true ∧ (capBase r.bits + capCursor r.bits : Nat) = 0x3FFC0 ∧
       capBase r.bits + capLength r.bits = 262144) ∧
    (capKind (cap 2 0b01000 0 4).bits = 2 ∧ capR (cap 2 0b01000 0 4).bits = false) ∧ (capKind (cap 2 0b10000 0 4).bits = 2 ∧ capW (cap 2 0b10000 0 4).bits = false) ∧
    (let a := fun off : Int => (0x3FFC0 : Int) + off
     a (-1) < 0x3FFC0 ∧ (262144 : Int) < a 61 + 4 ∧ (0x3FFC0 ≤ a 60 ∧ a 60 + 4 ≤ 262144 ∧ a 60 % 4 = 0) ∧ (0x3FFC0 ≤ a 59 ∧ a 59 + 4 ≤ 262144 ∧ a 59 % 4 ≠ 0)) ∧
    (capBase (cap 2 31 0x3FFF 16).bits + capLength (cap 2 31 0x3FFF 16).bits : Nat) > 262144 := by decide +kernel
theorem witness_StoreLocal : goes (exec (.stl c0 .n16 1 10 (.imm 6)) (lw [(1, num 7)])) = true ∧
    lsAddr ((lw [(1, num 7)]).gReg 10) false true ((lw [(1, num 7)]).offZ (.imm 6)) 2 2 = .at_ 6 ∧ (5 < 6 ∨ 6 + 2 ≤ 5) ∧ (8 < 6 ∨ 6 + 2 ≤ 8) := by
  decide +kernel
def kst : State := setG [(7, ex7), (8, anEnd), (6, cap 5 1 0 1)] st
theorem witness_Capability : Issues c0 (fTo 9) kst = true ∧ kst.leak 9 = false ∧ Issues c0 fPlain kst = true ∧
    (let r := kst.gReg 7
     r.tag = true ∧ (capKind r.bits = 1 ∨ capKind r.bits = 2) ∧ (capBase r.bits + capCursor r.bits) % 16 = 0 ∧
       capCursor r.bits + (kst.srcZ (.imm 0xE000)).toNat ≤ capLength r.bits ∧ pickScale (kst.srcZ (.imm 0xE000)).toNat = some (0, 0xE000) ∧
       (0 ≤ (capCursor r.bits : Int) + (kst.srcZ (.imm 0xFFFFE000)).toInt) ∧ (capCursor r.bits : Int) + (kst.srcZ (.imm 0xFFFFE000)).toInt < 2 ^ 40 ∧
       1 ≤ capKind r.bits ∧ capKind r.bits ≤ 5 ∧ r.isEnd = false) ∧ capKind (kst.gReg 6).bits = 5 ∧
    ((kst.gReg 8).isEnd = true ∧ (9 : BitVec 6) ≠ 8 ∧ kst.leak 9 = false ∧ Issues c0 (fTo 7) kst = true ∧ Issues c0 (fTo 8) kst = true ∧
      (kst.gReg 1).tag = false ∧ ¬ capKind (kst.gReg 8).bits < 3 ∧ (capCursor ex7.bits : Int) + (kst.srcZ (.imm 0xFFFFDFFF)).toInt < 0) := by decide +kernel
/-- Sources of CBOUND that trap: a base of no multiple of 16, a length past the source's, and a length with no exact scale; and of kind 6. -/
theorem witness_CapabilityTraps : (let b := ex7.bits ||| 8
     (capKind b = 1 ∧ (capBase b + capCursor b) % 16 ≠ 0)) ∧ ((capBase ex7.bits + capCursor ex7.bits) % 16 = 0 ∧ capLength ex7.bits < capCursor ex7.bits + 0xFFFF) ∧
    (let b := capMake (cap 1 31 0 1).bits (2 ^ 34 - 1) 1 0 0
     capKind b = 1 ∧ capCursor b + (2 ^ 34 + 1) ≤ capLength b ∧ pickScale (2 ^ 34 + 1) = none) ∧ 5 < capKind (cap 6 0 0 0).bits := by decide +kernel
theorem witness_Derived : (capKind ex7.bits = 1 ∨ capKind ex7.bits = 2) ∧ (capBase ex7.bits + capCursor ex7.bits) % 16 = 0 ∧
    capBase ex7.bits + capCursor ex7.bits < 2 ^ 48 ∧ capCursor ex7.bits + 4096 ≤ capLength ex7.bits ∧ pickScale 4096 = some (0, 4096) ∧
    (capKind win.bits = 1 ∨ capKind win.bits = 2) ∧ capKind (makeEnd 0 0 0 false) = 3 ∧ capKind (makeGraph 0 2 0x18000 0x19000) = 4 ∧ capKind (entryCap 0).bits = 5 := by
  decide +kernel

/-! ### Wide and matrix words -/

def wide0 : State := wst 5 6
theorem witness_Wide : IssuesWide c0 wide0 (wide0.resolveW (.w 7) :: wide0.resolveW (.w 0) :: wide0.wgRes (.g 9)) = true ∧
    IssuesWide c0 wide0 [wide0.resolveW (.w 7), wide0.resolveW (.w 0)] = true ∧
    IssuesWide c0 wide0 (wide0.resolveW (.w 7) :: (wide0.wgRes (.w (.w 0)) ++ wide0.wgRes (.g 9) ++ [wide0.resolveW (.w 1)])) = true ∧
    IssuesWide c0 wide0 (wide0.resolveW (.w 7) :: wide0.resolveW (.w 0) :: wide0.wgiRes (.small 3)) = true ∧
    IssuesWide c0 wide0 (wide0.resolveW (.w 0) :: wide0.wgiRes (.w (.w 7))) = true ∧
    IssuesWide c0 wide0 [wide0.resolveW (.w 7), wide0.resolveW (.w 0), wide0.resolveW (.w 1)] = true ∧
    IssuesWide c0 wide0 [wide0.resolveW (.w 7), wide0.resolveW (.w 0), wide0.resolveW (.w 1), wide0.resolveW (.w 2)] = true ∧
    IssuesWide c0 wide0 [] = true ∧ IssuesWide c0 wide0 [wide0.resolveW (.w 7)] = true ∧ Issues c0 fLate wide0 = true ∧ wide0.leak 5 = false ∧
    SumFmt.f32 .sr = .f32 .sr ∧ (SumFmt.i32 = .i32 ∨ SumFmt.i32 = .n32) := by decide +kernel
theorem witness_WideLocal : IssuesWide c0 wide0 [wide0.resolveW (.w 7)] = true ∧ lsAddr (wide0.gReg 10) true false (262016#32).toInt 128 4 = .at_ 262016 ∧
    lsAddr (wide0.gReg 10) true false (0#12).toInt 128 4 = .at_ 0 ∧ lsAddr (wide0.gReg 10) false true (4#32).toInt 128 4 = .at_ 4 ∧
    lsAddr (wide0.gReg 10) false true (2044#12).toInt 128 4 = .at_ 2044 ∧ IssuesWide c0 wide0 [wide0.resolveW (.w 7), wide0.resolveW (.w 0)] = true ∧
    windowCheck (wide0.gReg 10) true false = none ∧ windowCheck (wide0.gReg 10) false true = none := by decide +kernel
/-- A queued VADD, in the cycle of its core issue and in the next. -/
def queued : State := (wide0.enqueue (wide0.wentry c0 (.fbin .add .f32) false 2 0))
theorem witness_WideIssue : (0 : Nat) < 4096 ∧ (queued.coreAt 0).wq = [wide0.wentry c0 (.fbin .add .f32) false 2 0] ∧
    queued.headReady 0 (wide0.wentry c0 (.fbin .add .f32) false 2 0) = false ∧
    ({ queued with cyc := 1 } : State).headReady 0 (wide0.wentry c0 (.fbin .add .f32) false 2 0) = true ∧
    (wide0.wentry c0 (.fbin .add .f32) false 2 0).op = .fbin .add .f32 := by decide +kernel
theorem witness_Allotment : Issues c0 fPlain wide0 = true ∧ (wide0.me.freeBlocks = [1, 2, 3, 4, 5, 6, 7] ∧ wide0.cx.allot < 64) ∧
    (let s := wide0.updCx fun x => { x with blocks := [0, 1, 2, 3, 4, 5, 6, 7] }
     Issues c0 fPlain s = true ∧ s.me.freeBlocks = [] ∧ 64 ≤ s.cx.allot) ∧
    (wide0.widePending wide0.core wide0.k = false ∧ 0 < wide0.cx.allot) ∧ (st.widePending st.core st.k = false ∧ st.cx.allot = 0) ∧ wide0.me.wq.length < 8 ∧
    firstBad (wide0.resolveW (.w 7) :: wide0.resolveW (.w 8) :: wide0.wgRes (.w (.w 9))) = some 8 ∧
    firstBad [wide0.resolveW (.w 63), wide0.resolveW (.w 0)] = some 63 := by decide +kernel
/-- A core of a quad with a window in g10, slot 1 claimed, and an MLOAD descriptor of one unit at the last place of a slot in g4. -/
def qst : State := (quad.updCx fun x => { x with g := [(4, num 0x7FF), (10, win)] }).updArbor 0 fun a =>
  (a.setSlot 1 { claimed := true, data := [] }).setSlot 2 { claimed := true, data := [] }
theorem witness_SlotAndTile : qst.inQuad 0 = true ∧ Issues c0 fLate qst = true ∧ Issues c0 fPlain qst = true ∧
    (qst.myArbor.slot 1).claimed = true ∧ (qst.myArbor.slot 31).claimed = false ∧ (qst.myArbor.flying.any fun m => m.reads 1) = false ∧
    (let d := (qst.readG 4).setWidth 32
     windowCheck (qst.gReg 10) true false = none ∧ bits (d : W32) 31 21 = 0 ∧ bits (d : W32) 20 10 ≠ 0 ∧ bits (d : W32) 9 0 + bits (d : W32) 20 10 ≤ 1024 ∧
       capBase (qst.gReg 10).bits + capCursor (qst.gReg 10).bits + 16 * bits (d : W32) 20 10 ≤ capBase (qst.gReg 10).bits + capLength (qst.gReg 10).bits ∧
       ((qst.myArbor.waiting ++ qst.myArbor.flying).any fun m => m.pos == posOf 0 && m.reads 1) = false ∧ qst.lsHeld 0 0 16 false = false) ∧
    (qst.tileOwned 2 = false ∧ qst.tileQueued 2 = false) ∧ (¬ ((qst.me.tile 2).h8 = true ∧ (qst.me.tile 2).n32 = false)) ∧
    ((qst.me.tile 2).h8 = false ∧ (qst.me.tile 2).n32 = false ∧ (qst.me.tile 2).isInt = false) ∧
    (let s := qst.updCx fun x => { x with blocks := [0] }
     IssuesWide c0 s [s.resolveW (.w 7)] = true ∧ (31 : Nat) < (s.me.tile 3).chunks ∧ IssuesWide c0 s [] = true ∧
       lsAddr (s.gReg 10) false true (s.offZ (.imm 0x3F000)) (s.me.tile 3).size 16 = .at_ 0x3F000) := by decide +kernel
theorem witness_MloadCompletion : ((qst.updCore 0 fun c => { c with mloads := [{ id := 3, slot := 1, off := 0, addr := 0, len := 1, data := [7] }] }).coreAt 0).mloads.find?
    (fun m => m.id == 3) = some { id := 3, slot := 1, off := 0, addr := 0, len := 1, data := [7] } := by decide +kernel
/-- Three cores of the quad wait at the gang issue with the same format, slots and tag. -/
def three : State := (qst.updArbor 0 fun a => { a with waiting := [1, 2, 3].map fun p => { pos := p, ctx := 1, f := .f16, a := 0, ka := 1, kb := 2, tag := 5 } })
def mine : MGang := { pos := 0, ctx := 1, f := .f16, a := 0, ka := 1, kb := 2, tag := 5 }
theorem witness_Joint : Issues c0 fYield qst = true ∧ qst.inQuad 0 = true ∧ (qst.myArbor.waiting.any fun x => x.pos == posOf 0) = false ∧
    qst.myArbor.flying = [] ∧ qst.me.mloads = [] ∧ qst.tileQueued 0 = false ∧ qst.myArbor.waiting.length < 3 ∧
    (Issues c0 fYield three = true ∧ (three.myArbor.waiting.any fun x => x.pos == posOf 0) = false ∧ 3 ≤ three.myArbor.waiting.length ∧
      (three.updMe fun c => c.setTile 0 { c.tile 0 with owner := some three.k }).disagree 0 (three.myArbor.waiting ++ [mine]) = none) ∧
    (Issues c0 fYield st = true ∧ st.inQuad 0 = false) ∧
    (let s := qst.updArbor 0 fun a => { a with flying := [mine], started := false }
     4 * 0 < 4096 ∧ (s.arborAt 0).flying ≠ [] ∧ (s.arborAt 0).started = false) ∧
    ((qst.updArbor 0 fun a => { a with flying := [mine], started := true }).arborAt 0).started = true := by decide +kernel

/-! ### Global memory -/

/-- An operation of C of core 0 on the 8 bytes at 0x1_0100. -/
def op (kind : MemKind) (id : Nat) : MemOp := { (st.memOp kind 0x10100 (.hbm 0x100100) 8 .dev) with id := id, policy := .skip, seq := 1 }
def flying (l : List MemOp) : State := st.updCore 0 fun c => { c with flight := l }
def stores (l : List MemOp) : State := st.updCore 0 fun c => { c with storeq := l }
theorem witness_Global : (let s := gst [(7, num 5), (8, cap 1 31 0 1)]
     Issues c0 fFarLate s = true ∧ Issues c0 fFar s = true ∧ Issues c0 fPlain s = true ∧ s.leak 1 = false ∧
       s.walkFor (s.gReg 6) (s.offZ (.imm 0xFFF8)) = s ∧ s.walkFor (s.gReg 6) (s.offZ (.imm 0)) = s ∧ s.memAddr (s.gReg 6) (s.offZ (.imm 0xFFF8)) 8 8 needR = .ok 0x1FFF8 (.hbm 0x10FFF8) ∧
       s.memAddr (s.gReg 6) (s.offZ (.imm 0xFFF8)) 8 8 { needW with sc := false } = .ok 0x1FFF8 (.hbm 0x10FFF8) ∧
       (s.memAddr (s.gReg 6) (s.offZ (.imm 0)) 16 16 { needW with sc := true }) = .bad cCAPPERM 0 none ∧
       (capKind (s.gReg 7).bits == 3) = false ∧ s.me.storeq.length < 16 ∧
       s.memAddr (s.gReg 6) (s.offZ (.imm 0x10000)) 1 1 needR = .bad cCAPBND 0x20000 none ∧
       s.memAddr (s.gReg 6) (s.offZ (.imm 0xFFFF)) 1 1 needR = .ok 0x1FFFF (.hbm 0x10FFFF) ∧
       s.drained 0 1 = true ∧ s.me.storeq = []) ∧
    (let s := setG [(6, cap 1 0b11111 0x1000 4096), (8, cap 1 31 0 1)] st
     Issues c0 fFar s = true ∧ (s.gReg 8).tag = true ∧ s.memAddr (s.gReg 6) (s.offZ (.imm 16)) 16 16 { needW with sc := true } = .ok 0x10010 (.hbm 0x100010)) ∧
    (let s := flying [op (.load (.int .i64) false) 9]
     (0 : Nat) < 4096 ∧ s.hostHolds (.hbm 0x100100) = false ∧ (s.coreAt 0).flight.find? (fun x => x.ctx == 1 && match x.kind with
       | .load .. => true
       | .store | .amo .. | .cas _ | .red .. | .fset | .fclr => false) = some (op (.load (.int .i64) false) 9) ∧
       (s.coreAt 0).opBlocked (op (.load (.int .i64) false) 9) = false) ∧
    ([false, true].all fun asked =>
      let o := { op (.load (.int .i64) false) 9 with place := .peer 3 0x100, asked := asked }
      let s := flying [o]
      decide ((s.coreAt 0).flight.find? (fun x => x.isLoadOf 1) = some o ∧ o.scope ≠ Scope.sys) && !s.hostHolds o.place && !(s.coreAt 0).opBlocked o &&
        (!asked || decide ((s.coreAt 0).flight.find? (fun x => x.isLoadOf 1 && x.asked) = some o))) = true ∧
    (let o := op .store 9
     let s := stores [o]
     (s.coreAt 0).storeq.find? (fun x => x.id == 9) = some o ∧ o.kind = .store ∧ o.scope = .dev ∧ s.hostHolds o.place = false ∧
       (s.coreAt 0).opBlocked o = false ∧ (s.coreAt 0).postedOpen o.after = false ∧ s.redHolds o.past o.place o.size = false) ∧
    (let o := { op .store 9 with after := [8] }
     let p := { op (.load (.int .i64) false) 10 with after := [8] }
     let s := (stores [op .store 8, o]).updCore 0 fun c => { c with flight := [p] }
     (s.coreAt 0).opBlocked o = true ∧ (s.coreAt 0).opBlocked p = true ∧ s.hostHolds o.place = false) ∧
    (let s := (stores [op .store 9]).updCtx 0 1 fun x => { x with fence := some .eng }
     (s.ctxAt 0 1).fence = some .eng ∧ s.fenceMet 0 1 .eng = false ∧ st.fenceMet 0 1 (.full true) = true ∧ st.fenceMet 0 1 .red = true) := by
  decide +kernel
theorem witness_OperationFrame : goes (exec (.postedWritePerform 0 9) (stores [op .store 9])) = true ∧
    (((stores [op .store 9]).coreAt 0).storeq.find? (fun x => x.id == 9)).isSome = true ∧
    goes (exec (.kioskAtomicPerform 0 1 9) (amoSt .add .i64)) = true ∧ (((amoSt .add .i64).coreAt 0).findOp 9).isSome = true ∧
    (let o := { op .store 9 with place := .peer 3 0x100 }
     goes (exec (.postedWritePerform 0 9) (stores [o])) = true ∧ o.place.isHbm = false) := by decide +kernel
theorem witness_AtomicWords : let s := gst [(7, num 5)]
    Issues c0 fFarLate s = true ∧ Issues c0 fFar s = true ∧ s.cx.latch.valid = false ∧ s.leak 1 = false ∧
    s.walkFor (s.gReg 6) (s.offGI (.small 8)) = s ∧ s.walkFor (s.gReg 6) (s.offZ (.imm 0xFFF8)) = s ∧ s.me.storeq.length < 16 ∧
    s.memAddr (s.gReg 6) (s.offGI (.small 8)) 8 8 needRW = .ok 0x10008 (.hbm 0x100008) ∧
    s.memAddr (s.gReg 6) (s.offGI (.small 4)) 4 4 needRW = .ok 0x10004 (.hbm 0x100004) ∧
    s.memAddr (s.gReg 6) (s.offGI (.g 7)) 2 2 needW = .bad cALIGN 0x10005 none ∧
    s.memAddr (s.gReg 6) (s.offGI (.small 8)) 8 8 needW = .ok 0x10008 (.hbm 0x100008) ∧
    s.memAddr (s.gReg 6) (s.offZ (.imm 0xFFF8)) 8 8 needW = .ok 0x1FFF8 (.hbm 0x10FFF8) := by decide +kernel
/-- An atomic of core 0 at its home Kiosk, with and without a result kept there for its context. -/
def kept (seq : W16) : State := { amoSt .add .i64 with results := [
  { agent := 0, domain := 0, lcn := (st.coreAt 0).proc.lcn, ctx := 1, seq := seq, result := 3, flags := 0 }] }
/-- What O45 asks of an operation at its Kiosk. -/
def atKiosk (s : State) (o : MemOp) (f : AFmt) : Bool :=
  decide ((s.coreAt 0).findOp 9 = some o ∧ o.place = .hbm 0x100100 ∧ o.size = afmtBytes f) && !o.performed && !o.refused && !(s.coreAt 0).opBlocked o &&
    !s.redHolds o.past o.place o.size && !s.hostHolds o.place
def keptFor (s : State) (o : MemOp) : Option KioskResult :=
  s.results.find? fun e => e.isFor (homeDie 0x100100) (s.coreAt 0).dom (s.coreAt 0).proc.lcn o.poCtx
theorem witness_AtomicOnce :
    (let o := { op (.amo .i64 .add) 9 with data := 0xFFFFFFFFFFFFFFFF, policy := .home }
     atKiosk (kept 1) o .i64 = true ∧ o.sequenced = true ∧ (keptFor (kept 1) o).map (fun e => seqAbove o.seq e.seq) = some false ∧
       (keptFor (kept 0) o).map (fun e => seqAbove o.seq e.seq) = some true ∧ keptFor (amoSt .add .i64) o = none) ∧
    (let o := { op (.cas .i32) 9 with size := 4, compare := 10 }
     atKiosk (flying [o]) o .i32 = true ∧ keptFor (flying [o]) o = none) ∧
    (let o := { op (.red .f16 .fadd) 9 with size := 2, data := 0x3C00 }
     atKiosk (stores [o]) o .f16 = true ∧ o.sequenced = false) ∧
    (let o := { op (.red .i32 .add) 9 with size := 4, rearm := some 1 }
     atKiosk (stores [o]) o .i32 = true ∧ o.sequenced = true) ∧
    seqAbove 0x7FFF 0 = true ∧ seqAbove 0x8000 0 = false ∧ seqAbove 0 0xFFFF = true := by decide +kernel
/-- S, and C parked with the latch of an unsent FCLR. -/
def latched : State := sup.updCtx 0 1 fun x => { x with
  g := [(6, cap 1 0b11000 0x1000 4096)], latch := { Latch.empty with valid := true, posted := true, word := (encode (.fclr c0 6 (.imm 8))).getD 0 } }
def fclrAgain : Rearm := { kind := .fclr, scope := .dev, size := 8, cap := 6, off := 8, need := needW, operand := 0, compare := 0, dest := none }
theorem witness_AtomicAnswers :
    (let o := { op (.amo .i64 .add) 9 with performed := true, result := 10 }
     ((flying [o]).coreAt 0).findOp 9 = some o ∧ o.kind = .amo .i64 .add ∧ o.rearm = none ∧ o.performed = true) ∧
    (let o := { op (.amo .i64 .add) 9 with place := .peer 3 0x100 }
     ((flying [o]).coreAt 0).findOp 9 = some o ∧ o.rearm = none ∧ o.performed = false ∧ o.refused = false ∧ o.place.isHbm = false) ∧
    (let o := { op .fset 9 with performed := true }
     ((stores [o]).coreAt 0).findOp 9 = some o ∧ o.rearm = none) ∧
    (let s := sup.updCtx 0 1 fun x => { x with latch := { x.latch with valid := true } }
     (s.me.ctx 1).run = .parked ∧ (match decodeWord (s.me.ctx 1).latch.word with
      | .ok i => ((s.me.ctx 1).rearm i).isNone
      | _ => true) = true ∧ Issues c0 fLate s = true ∧ s.leak 1 = false) ∧
    (let s := latched.updCtx 0 1 fun x => { x with latch := { x.latch with sent := true, place := some (.peer 3 0x100) } }
     s.k = 0 ∧ (s.me.ctx 1).latch.sent = true ∧ decodeWord (s.me.ctx 1).latch.word = .ok (.fclr c0 6 (.imm 8)) ∧
       (s.me.ctx 1).rearm (.fclr c0 6 (.imm 8)) = some fclrAgain) ∧
    (let s := latched.updCtx 0 1 fun x => { x with g := [] }
     (match s.latchPlace 1 fclrAgain with
      | .bad .. => true
      | .ok .. => false) = true) ∧
    (Issues c0 fLate st = true ∧ st.k ≠ 0) ∧
    (Issues c0 fLate sup = true ∧ sup.k = 0 ∧ sup.leak 1 = false ∧ (sup.me.ctx 2).run ≠ .parked ∧ (sup.me.ctx 1).latch.valid = false) ∧
    (let s := latched
     Issues c0 fLate s = true ∧ decodeWord (s.me.ctx 1).latch.word = .ok (.fclr c0 6 (.imm 8)) ∧ (s.me.ctx 1).rearm (.fclr c0 6 (.imm 8)) = some fclrAgain ∧
       s.latchPlace 1 fclrAgain = .ok 0x10008 (.hbm 0x100008) ∧ s.k = 0 ∧ s.leak 1 = false ∧ (s.me.ctx 1).run = .parked ∧
       (s.me.ctx 1).latch.valid = true ∧ (s.me.ctx 1).latch.sent = false) := by decide +kernel
/-- A wait of C of core 0 for 0 at 0x1_0100, as SWAIT makes it. -/
def wait0 (r : Rel) : SyncWait := { id := 0, core := 0, ctx := 1, place := .hbm 0x100100, va := 0x10100, cond := some (.i64, r, 0), d := 1, set := 0,
                                    poll := some 0, hits := [], ip := 0x10000, after := [], ending := false }
def isSync (s : State) : Bool := match (s.ctxAt 0 1).run with
  | .waiting _ => true
  | _ => false
/-- The location holds 0 under the domain's own seal. -/
def zeroAt (s : State) : State := { s with mem := s.mem.writeAs (s.keyOf 0) 0x100100 8 0 }
theorem witness_Synchronization : (let s := zeroAt (gst [])
     Issues c0 fFarYieldLate s = true ∧ s.leak 1 = false ∧ s.waitBlocked 0 (wait0 .eq) = false ∧ s.hostHolds (.hbm 0x100100) = false ∧
       s.walkFor (s.gReg 6) (s.offGI (.small 0x100)) = s ∧ s.walkFor (s.gReg 6) (s.offZ (.imm 0x100)) = s ∧
       s.memAddr (s.gReg 6) (s.offGI (.small 0x100)) 8 8 needR = .ok 0x10100 (.hbm 0x100100) ∧
       s.memAddr (s.gReg 6) (s.offGI (.small 0x104)) 4 4 needR = .ok 0x10104 (.hbm 0x100104) ∧
       s.memAddr (s.gReg 6) (s.offZ (.imm 0x100)) 8 8 needR = .ok 0x10100 (.hbm 0x100100) ∧
       isSync (({ s with ids := s.ids + 1 } : State).tryWait { wait0 .eq with id := s.ids }) = true ∧
       isSync (({ s with ids := s.ids + 1 } : State).tryWait { wait0 .eq with id := s.ids, cond := none }) = true ∧
       (waitTest (wait0 .eq) (s.mem.readAs (s.keyOf (s.coreAt 0).dom) 0x100100 8)).1 = true ∧
       (waitTest (wait0 .ne) (s.mem.readAs (s.keyOf (s.coreAt 0).dom) 0x100100 8)).1 = false ∧
       ({ s with syncs := s.syncs.filter fun x => x.id != 0 } : State).enrolled (homeDie 0x100100) < 8192) ∧
    (let y := { wait0 .ne with poll := some 64 }
     let s := { zeroAt st with syncs := [y] }
     s.syncs.find? (fun x => x.core == y.core && x.ctx == y.ctx && x.poll.isSome) = some y ∧ y.core < 4096 ∧
       s.waitBlocked 0 y = false ∧ s.hostHolds y.place = false) ∧
    (let y := { wait0 .ne with poll := some 64, after := [9] }
     let s := { stores [op .store 9] with syncs := [y] }
     s.syncs.find? (fun x => x.core == y.core && x.ctx == y.ctx && x.poll.isSome) = some y ∧ s.waitBlocked 0 y = true) ∧
    (let y := { wait0 .ne with poll := some 64 }
     let s := { st with syncs := [y], hostHeld := [(0x100100 / 64, 0)] }
     s.waitBlocked 0 y = false ∧ s.hostHolds y.place = true) := by decide +kernel

/-! ### Jobs and channels -/

/-- A copy card of 64 bytes: source entry 0, destination entry 4. -/
def card64 : List Byte := natLE 192 (64 * 2 ^ 32 + 64 * 2 ^ 576 + 64 * 2 ^ 1088 + 2 ^ 1120)
/-- The card at the start of the local store, its window in g10, global memory in g6. -/
def cardSt : State := (lw [(6, cap 1 0b11000 0x1000 4096)]).updCore 0 fun c => { c with ls := Tab.writeBytes c.ls 0 card64 }
def job0 : Job :=
  { die := 0, engine := 0, domain := 0, owner := none, node := none, ticket := 1, card := card64, window := win, src := cap 1 0b11000 0x1000 4096,
    dst := cap 1 0b11000 0x1000 4096, block := 0, begun := false, pos := 0, status := 0, flags := 0, ended := false, cancelled := false, held := false, completed := false, after := [], chained := false }
def jobSt (j : Job) : State := { st with jobs := [(7, j)] }
def mineJob : JobOwner := { core := 0, ctx := 1, gang := 0 }
theorem witness_Jobs : (let s := cardSt
     let g := s.gReg 10
     let card := (s.lsRead s.core 0 192).1
     Issues c0 fFarLate s = true ∧ windowCheck g true false = none ∧ capBase g.bits + capCursor g.bits = 0 ∧ 192 ≤ capBase g.bits + capLength g.bits ∧
       s.lsHeld s.core 0 192 false = false ∧ jobCapCheck (s.gReg 6) = none ∧ footCheck card g (s.gReg 6) (s.gReg 6) = none ∧ s.leak 1 = false ∧
       s.queued (dieOf s.core) (cardEngine card) < 256) ∧
    (Issues c0 fYield st = true ∧ Issues c0 fPlain st = true ∧ Issues c0 fLate st = true ∧ st.leak 1 = false ∧
      (st.gi (.small 0)).toNat ≤ (Tab.get 0 st.me.proc.js 2).toNat ∧ (Tab.get 0 st.me.proc.js 2).toNat < (st.gi (.small 1)).toNat ∧
      ((st.gi (.small 0)).setWidth 32).toNat ≤ (Tab.get 0 st.me.proc.cw 3).toNat) ∧
    (let s := jobSt { job0 with owner := some mineJob, begun := true }
     Issues c0 fPlain s = true ∧ (Tab.get 0 s.me.proc.cw 0).toNat < ((s.gi (.small 1)).setWidth 32).toNat ∧
       (s.jobs.any fun q => q.2.onChannel 0 && match q.2.owner with
         | some o => o.core == s.core && o.gang == s.me.proc.gang
         | none => false) = false) ∧
    (let s := jobSt { job0 with owner := some mineJob, begun := true, dst := win }
     Issues c0 fPlain s = true ∧ (Tab.get 0 s.me.proc.cw 0).toNat < ((s.gi (.small 1)).setWidth 32).toNat ∧
       (s.jobs.any fun q => q.2.onChannel 0 && match q.2.owner with
         | some o => o.core == s.core && o.gang == s.me.proc.gang
         | none => false) = true) := by decide +kernel
theorem witness_JobEvents : (let j := { job0 with owner := some mineJob, status := stBADCARD, after := [9] }
     (j.owner.any fun o => ((jobSt j).coreAt o.core).postedAny j.after) = false ∧ Tab.find (jobSt j).jobs 7 = some j ∧
       (j.owner.any fun o => ((stores [op .store 9]).coreAt o.core).postedAny j.after) = true) ∧
    (let s := { st with jobs := [(3, { job0 with begun := true }), (7, job0)] }
     job0.status ≠ stBADCARD ∧ s.jobBlocked 7 job0 = true ∧ job0.owner = none ∧ job0.chained = false) ∧
    ((jobSt job0).jobBlocked 7 job0 = false ∧ job0.moves = false) ∧
    (let j := { job0 with begun := true, card := natLE 192 (2 ^ 32 + 64 * 2 ^ 576 + 64 * 2 ^ 1088 + 2 ^ 1120) }
     let s := jobSt j
     (s.jobPiece 7 j).1.held = none ∧ (s.jobPiece 7 j).1.status = 0 ∧ j.owner = none ∧ j.ended = false ∧ Tab.find s.jobs 7 = some j) ∧
    (let j := { job0 with begun := true, card := natLE 192 (64 * 2 ^ 32) }
     ((jobSt j).jobPiece 7 j).1.held = none ∧ ((jobSt j).jobPiece 7 j).1.status ≠ 0) ∧
    (let j := { job0 with begun := true, ended := true, owner := some mineJob }
     let j' := { j with completed := true }
     j.ended = true ∧ j.completed = false ∧ j.owner = some mineJob ∧ j.node = none ∧ Tab.find (jobSt j).jobs 7 = some j ∧ j.status = stOK ∧
       ((jobSt j).putJob 7 j').issuerLives mineJob = true ∧ ((jobSt j).putJob 7 j').jobsOf mineJob j.engine = [(7, j')]) := by decide +kernel
/-- A channel of C's process: record 0, ends in g11 and g12, ring at 0x1_8000 in the overflow area. -/
def rec0 : ChanRec :=
  { domain := 0, keyable := false, ringCode := 0, sTransit := false, rTransit := false, sClosed := false, rClosed := false, mergeHold := none,
    spill := [], ranges := 1, starts := [], nexts := [], sgen := 0, rgen := 0, keyMask := 0, sloc := 0, rlocs := [(0, 0)], sendCounter := 0,
    accept := 0, expected := 0, final := 0, marked := [], credits := none, discard := 0, twinsAway := [], backlog := 0, ring := [], ringHead := 0,
    ringTail := 0, ringFull := false, ringBase := 0x108000, ringVa := 0x18000, areaEntry := none, stuck := [] }
def sEnd : GReg := { bits := makeEnd 0 st.lodge.deviceId 0 false, tag := true, endst := 0 }
def rEnd : GReg := { bits := makeEnd 0 st.lodge.deviceId 0 true, tag := true, endst := 0 }
def overflow : State := st.updDomain 0 fun d =>
  { d with record := d.record ||| BitVec.ofNat 1024 ((cap 1 0b11000 0x1800 256).bits.toNat * (2 ^ 128 + 2 ^ 256)) }
def chanSt (r : ChanRec) (box : List Msg) : State :=
  (setG [(11, sEnd), (12, rEnd)] { overflow with records := [(0, r)] }).updCore 0 fun c => { c with inbox := box }
/-- The first message of the channel: 8 bytes. -/
def msg0 : Msg := { device := st.lodge.deviceId, record := 0, len := 8, closure := false, forwarded := false, holder := 0, seq := 0, key := 0,
                    payload := 0x1234, carried := none, ack := none }
def isOk : Got → Bool
  | .ok .. => true
  | .absent | .leak _ => false
def isAbsent : Got → Bool
  | .absent => true
  | .ok .. | .leak _ => false
theorem witness_Channel : (let s := overflow
     Issues c0 fFarLate s = true ∧ s.leak 1 = false ∧ s.leak 2 = false ∧ s.freeRecord (dieOf s.core) s.me.dom false = some (0, none) ∧
       s.freeRing s.me.dom 2048 = some 0x18000 ∧ s.freeRing s.me.dom (128 * 2 ^ 19) = none) ∧
    (let s := chanSt rec0 []
     Issues c0 fFarLate s = true ∧ Issues c0 fRecv s = true ∧ s.endCheck 11 (some false) 124 = none ∧ s.payloadPending (.g 3) = false ∧
       firstBad (s.payloadRes (.g 3)) = none ∧ s.me.sendq.length < Config.sendSlots ∧ endDevice (s.gReg 11).bits = s.lodge.deviceId ∧
       s.endCheck 12 (some true) 124 = none ∧ firstBad (recvRes s (.g 1)) = none ∧ s.recvLeak (.g 1) none = none ∧
       ((recvG (.g 1)).isNone && s.me.wPending s.k 0) = false ∧ isAbsent (s.recvNow 0 1 (some 1) 0 12 none 3) = true ∧ s.leak 1 = false ∧
       s.selectNow 0 1 12 1 = none ∧ s.selectNow 0 1 5 0x80 = none ∧ s.endRecord (s.gReg 12).bits = some rec0 ∧ s.endCheck 12 none 122 = none ∧
       s.endCheck 12 none 124 = none ∧ (endRecv (s.gReg 12).bits && rec0.keyed) = false ∧ s.carriedCheck 12 = none) ∧
    (let s := chanSt rec0 [msg0]
     Issues c0 fRecv s = true ∧ isOk (s.recvNow 0 1 (some 1) 0 12 none 3) = true ∧ s.selectNow 0 1 12 1 = some 0 ∧ s.selectNow 0 1 5 0x80 = some 7) ∧
    (let s := wst 1 2 |> fun t => setG [(12, rEnd)] { t with records := [(0, rec0)] }
     Issues c0 fRecv s = true ∧ firstBad (recvRes s (.w (.w 7))) = none ∧ s.recvLeak (.w (.w 7)) (some 1) = none ∧
       ((recvG (.w (.w 7))).isNone && s.me.wPending s.k (s.recvW (.w (.w 7)))) = false ∧ firstBad (s.payloadRes (.w (.w 7) 15)) = none ∧
       s.payloadPending (.w (.w 7) 15) = false) := by decide +kernel
def s0 (m : Msg) : List Msg := ((chanSt rec0 [m]).coreAt 0).inbox
theorem witness_Received :
    (let s := chanSt rec0 [msg0]
     (s.coreAt 0).inbox.find? (fun x => msgFor rEnd.bits x && x.seq == ((s.ctxAt 0 1).gReg 12).endst) = some msg0 ∧ msg0.closure = false ∧ msg0.carried = none) ∧
    (let m := { msg0 with closure := true }
     (s0 m).find? (fun x => msgFor rEnd.bits x && x.seq == 0) = some m) ∧
    (let m := { msg0 with carried := some sEnd.bits }
     (s0 m).find? (fun x => msgFor rEnd.bits x && x.seq == 0) = some m ∧ m.carried.isSome = true ∧ m.closure = false) := by decide +kernel
/-- The record with one stamped entry in its ring, with a full ring, and with a message whose write waits. -/
def ringed : ChanRec := { rec0 with ring := [{ slot := 0, stamped := true, msg := msg0 }], ringTail := 1, spill := [0] }
def brimming : ChanRec := { rec0 with ring := (List.range 16).map fun i => { slot := i, stamped := true, msg := msg0 }, ringFull := true }
def stalled : ChanRec := { rec0 with stuck := [(false, { msg0 with ack := some { gang := 0, core := 0, ctx := 1, q := 1, sb := 0, issued := 0, after := [] } })] }
theorem witness_RecordArrival :
    (let s := chanSt rec0 []
     s.recAt 0 = some rec0 ∧ rec0.rClosed = false ∧ rec0.stuck = [] ∧ msg0.forwarded = false ∧ s.sendWaits msg0 = false ∧
       msg0.seq = rec0.accept ∧ 1 ≤ rec0.freeRoom ∧ ({ msg0 with seq := 1 } : Msg).seq ≠ rec0.accept ∧ 2 ≤ rec0.freeRoom ∧
       msg0.device = s.lodge.deviceId ∧ ({ msg0 with device := 9 } : Msg).device ≠ s.lodge.deviceId) ∧
    (let m := { msg0 with ack := some { gang := 0, core := 0, ctx := 1, q := 1, sb := 0, issued := 0, after := [9] } }
     ((chanSt rec0 []).updCore 0 fun c => { c with storeq := [op .store 9] }).sendWaits m = true) ∧
    (brimming.freeRoom = 0 ∧ (chanSt brimming []).recAt 0 = some brimming ∧ ({ rec0 with rClosed := true } : ChanRec).rClosed = true) := by
  decide +kernel
theorem witness_ChannelEvents :
    (let s := chanSt rec0 []
     (s.coreAt 0).recvEnd msg0.device msg0.record = some (1, rEnd) ∧ msg0.seq = rEnd.endst ∧ (s.coreAt 0).inbox.length < Config.inboxSlots ∧
       (s.coreAt 1).recvEnd msg0.device msg0.record = none ∧ s.nextEntry 0 rec0 = none) ∧
    (let s := chanSt rec0 (List.replicate 256 { msg0 with record := 9 })
     (s.coreAt 0).recvEnd msg0.device msg0.record = some (1, rEnd) ∧ Config.inboxSlots ≤ (s.coreAt 0).inbox.length) ∧
    ((chanSt ringed []).recAt 0 = some ringed ∧ Tab.find ringed.rlocs msg0.holder.toNat = some 0 ∧
      (chanSt ringed []).nextEntry 0 ringed = some { slot := 0, stamped := true, msg := msg0 }) ∧
    (let s := chanSt rec0 []
     ({ msg0 with carried := some sEnd.bits } : Msg).carried = some sEnd.bits ∧ s.endRecord sEnd.bits = some rec0 ∧ endRecv sEnd.bits = false ∧
       s.endRecord rEnd.bits = some rec0 ∧ endRecv rEnd.bits = true) ∧
    (let p : Reply := { id := 5, arrive := some (0, false), call := none, after := [], core := 0, ctx := 1, res := [.g 4 sEnd], set := 0, hits := [], va := 0, ip := 0 }
     let s := { chanSt rec0 [] with replies := [p] }
     s.replies.find? (fun r => r.core == 0 && r.ctx == 1 && r.arrive == some (0, false)) = some p ∧ p.res = [.g 4 sEnd] ∧ sEnd.isEnd = true ∧
       endDevice sEnd.bits = s.lodge.deviceId) ∧
    (rec0.accept ≠ 3 ∧ rec0.accept = 0 ∧ 8 ≤ rec0.freeRoom ∧ rec0.mergeHold = none) ∧
    ((chanSt stalled []).recAt 0 = some stalled ∧ stalled.stuck ≠ [] ∧ stalled.stuckGang = some 0) := by decide +kernel


/-! ### Contexts, gangs and graphs -/

/-- C and a helper of core 0; the helper runs, or C. -/
def helped (k : Nat) : State := st.updCore 0 fun c => { c with
  cur := some k, ctxs := c.ctxs ++ [(2, { Ctx.init with pc := 0x10000, run := .ready })] }
def allHelpers : State := st.updCore 0 fun c => { c with
  ctxs := c.ctxs ++ (List.range 10).map fun j => (2 + j, { Ctx.init with pc := 0x10000, run := .ready }) }
/-- The process of core 0 at its exit, and before its first instruction. -/
def leavingSt : State := (st.updProc 0 fun p => { p with leaving := some 0 }).updCtx 0 1 fun x => { x with run := .waiting .helpers }
def filling : State := (st.updProc 0 fun p => { p with started := false, fills := [] }).updCtx 0 1 fun x => { x with run := .stopped }
theorem witness_Contexts : (Issues c0 fLate st = true ∧ st.k = 1 ∧ st.leak 3 = false ∧ st.me.freeHelper = some 1 ∧ brTarget ((on 0x20000 1).gReg 2) = .to 0x20000) ∧
    (Issues c0 fLate allHelpers = true ∧ allHelpers.me.freeHelper = none ∧ allHelpers.k = 1) ∧
    (Issues c0 fYieldLate st = true ∧ (st.gi (.small 10)).toNat = 10 ∧ (st.me.ctx 11).run = .dead ∧ (st.me.ctx 2).run = .dead) ∧
    (Issues c0 fYieldLate (helped 1) = true ∧ ((helped 1).gi (.small 1)).toNat = 1 ∧ ((helped 1).me.ctx 2).run ≠ .dead) ∧
    (Issues c0 fYield st = true ∧ ((st.arborAt (arborOf st.core)).flying.any fun m => m.pos == posOf st.core && m.ctx == st.k) = false) ∧
    (let s := helped 2
     Issues c0 fYield s = true ∧ ((s.arborAt (arborOf s.core)).flying.any fun m => m.pos == posOf s.core && m.ctx == s.k) = false ∧ 1 < s.k ∧
       s.me.holdsBlocks (leftOver s.k) = false) ∧
    (let s := setG [(3, num 0xFFFFFFFFFFFFFFFF)] (st.updCore 0 fun c => { c with inbox := [], evs := 2 })
     s.leak 1 = false ∧ s.me.eventWord s.k &&& s.gi (.small 0) = 0) ∧
    (let s := (st.updCore 0 fun c => { c with wdog := 5 }).updCtx 0 1 fun x => { x with wd := 5 }
     (s.coreAt 0).cur = some 1 ∧ (s.coreAt 0).wdog.toNat ≤ (s.ctxAt 0 1).wd ∧ (s.coreAt 0).isReady 1 = true) ∧
    (let s := leavingSt
     (s.coreAt 0).bound = true ∧ (s.coreAt 0).proc.faultExit = none ∧ (s.coreAt 0).proc.forced = false ∧ (s.ctxAt 0 1).run = .waiting .helpers ∧
       (s.coreAt 0).helperLive = false ∧ (s.coreAt 0).proc.stage = none ∧ s.exitDrained 0 = true) ∧
    (let s := filling
     (s.coreAt 0).bound = true ∧ (s.coreAt 0).proc.started = false ∧ (s.coreAt 0).proc.faultExit = none ∧ (s.coreAt 0).proc.fills = [] ∧
       (s.ctxAt 0 1).run = .stopped ∧ (s.coreAt 0).proc.forced = false ∧ (s.coreAt 0).proc.stage = none ∧ (s.doFills 0 (s.coreAt 0).dom []).2 = none) ∧
    (let s := st.updProc 0 fun p => { p with started := false, fills := [{ addr := 2 ^ 48, off := 0, len := 64 }] }
     (s.coreAt 0).bound = true ∧ (s.coreAt 0).proc.started = false ∧ (s.doFills 0 (s.coreAt 0).dom (s.coreAt 0).proc.fills).2.isSome = true) ∧
    (let s := st.updProc 0 fun p => { p with forced := true, ending := true }
     (s.coreAt 0).bound = true ∧ (s.coreAt 0).proc.stage = none ∧ (s.coreAt 0).proc.forced = true ∧ (s.coreAt 0).proc.ending = true) := by decide +kernel
theorem witness_Waitev : let s := st.updProc 0 fun p => { p with prq := BitVec.ofNat 64 (2 ^ 62) }
    Issues c0 fYieldLate s = true ∧ s.leak 1 = false ∧ s.me.eventWord s.k &&& s.gi (.g 3) = 0 ∧
    (setG [(3, num 0xFFFFFFFFFFFFFFFF)] s |> fun t => decide (t.me.eventWord t.k &&& t.gi (.g 3) ≠ 0)) = true := by decide +kernel
/-- Core 1 runs another role of the gang and has arrived at XEND. -/
def uneven : State := { ((st.updCore 1 fun c => { c with owner := (st.coreAt 0).owner, bound := true, proc := { (st.coreAt 0).proc with
  role := 1, arrived := some (0, true) } }) : State) with gangs := st.gangs.map fun p =>
    (p.1, { p.2 with h := { p.2.h with roles := 2 }, bound := [(0, 0), (1, 1)] }) }
def isArrived (xend : Bool) : State := (st.updProc 0 fun p => { p with arrived := some (0, xend), exchange := xend }).updCtx 0 1 fun x =>
  { x with run := .waiting (.barrier xend) }
/-- One unit from 0x100 to 0x3_FFF0 of role 0. -/
def xcastSt : State := lw [(2, num (2 ^ 32 + 0x3FFF0))]
theorem witness_Gangs : (Issues c0 fYield st = true ∧ st.me.proc.stage = none ∧ st.k = 1 ∧ st.arrivalReady st.core = true ∧
      ((st.engineCtx 0 1).updProc 0 fun q => { q with arrived := some (0, false), contrib := st.me.contribution }).barrierKind 0 = some true ∧
      ((st.engineCtx 0 1).updProc 0 fun q => { q with arrived := some (0, true), contrib := st.me.contribution }).barrierKind 0 = some true) ∧
    (let s := uneven
     Issues c0 fYield s = true ∧ s.me.proc.stage = none ∧ s.k = 1 ∧ s.arrivalReady s.core = true ∧
      ((s.engineCtx 0 1).updProc 0 fun q => { q with arrived := some (0, false), contrib := s.me.contribution }).barrierKind 0 = some false) ∧
    (let s := (isArrived false).updDomain 0 fun d => { d with holds := [(0, 0)] }
     s.barrierKind 0 = some true ∧ (s.domainAt 0).holds ≠ [] ∧ (s.barrierCores 0).Nodup) ∧
    (st.myGang.any fun g => Tab.find g.bound 0 == some 0 && !g.exited.contains 0) = true ∧
    (let s := planned.updProc 0 fun p => { p with exchange := true }
     Issues c0 fYield s = true ∧ (s.myGang.any fun g => g.h.planned) = true ∧ s.me.proc.exchange = true) ∧
    ([true, false].all fun x => let s := isArrived x
      (s.gangAt 0).isSome && decide (s.barrierKind 0 = some true) && s.exchangeQuiet 0 && decide ((s.domainAt 0).holds = [])) = true ∧
    (let s := xcastSt
     xcastArgs (s.gReg 10) (s.readG 2) = .ok 0 16 0x3FFF0 ∧ (s.myGang.any fun g => decide (0 < g.h.roles) && !g.h.planned) = true ∧
       Issues (planCtl c0) fFar s = true ∧ (s.me.xsend.any fun y => decide (s.cyc < y.readUntil)) = false ∧ s.lsHeld s.core 0 16 false = false) ∧
    (let s := { xst with gangs := planned.gangs }
     (s.myGang.any fun g => decide (4 * c0.plan.toNat < g.h.xlen) && g.h.planned) = true ∧ s.cyc - s.me.proc.xstart = 4 * c0.plan.toNat ∧
       Issues (planCtl c0) fFar s = true) ∧
    (let s := st.updCore 0 fun c => { c with xpend := [{ id := 4, dest := 0x100, bytes := [some 7] }] }
     (s.cores.find? fun q => q.2.xpend.any fun x => x.id == 4).map (fun q => q.1) = some 0) ∧
    (Issues c0 fLate st = true ∧ st.leak 1 = false ∧ (st.myGang.any fun g => decide (0 < g.h.roles)) = true ∧ (0 : BitVec 12).toNat = 0 ∧
      (st.readG 5).toNat = 0) := by decide +kernel

/-- Memory of domain 0 with these (address, bytes, value). -/
def held (l : List (Nat × Nat × Nat)) : Memory :=
  l.foldl (fun m (e : Nat × Nat × Nat) => m.writeAs (st.keyOf 0) e.1 e.2.1 e.2.2) Memory.empty
/-- C belongs to the node whose record begins with these 56 bytes, stands at 0x1_8000; the page there is mapped. -/
def noded (r : Nat) : State :=
  { st.updDomain 0 fun d => { d with record := BitVec.ofNat 1024 (0x40000 * 2 ^ 64) } with
    gangs := st.gangs.map fun p => (p.1, { p.2 with node := some 0x18000 })
    mem := held [(0x40000, 8, 0x50001), (0x50000, 8, 0x60001), (0x60008, 8, 0x10001F), (0x108000, 56, r)] }
def graphCap : GReg := { bits := makeGraph 0 2 0x18000 0x19000, tag := true, endst := 0 }
def graphSt : State := setG [(8, graphCap), (6, cap 1 0b11000 0x1000 4096)] st
def entryReg : GReg := entryCap 0
theorem witness_Graphs : (let s := graphSt
     Issues c0 fFarLate s = true ∧ s.graphCheck 8 permPOST = none ∧ s.graphCheck 8 permCANCEL = none ∧ s.graphCheck 8 permSTATUS = none ∧
       s.nodeOperand 8 (.small 1) = some 0x18080 ∧ s.nodeOperand 8 (.small 2) = none ∧ 1 ≤ (s.gi (.small 1)).toNat ∧ (s.gi (.small 1)).toNat ≤ 65535 ∧
       s.leak 1 = false ∧ s.walkFor (s.gReg 6) 0 = s ∧ s.memAddr (s.gReg 6) 0 128 128 needRW = .ok 0x10000 (.hbm 0x100000) ∧
       s.memAddr (s.gReg 6) 0 64 64 needW = .ok 0x10000 (.hbm 0x100000)) ∧
    (let s := setG [(9, entryReg), (6, cap 1 0b11000 0x1000 4096)] st
     Issues c0 fFarLate s = true ∧ s.entryCheck 9 = none ∧ (s.gi (.small 2)).toNat ≤ 31 ∧ s.walkFor (s.gReg 6) 0 = s ∧ (s.gReg 9).bits.getLsbD (64 + (s.gi (.small 2)).toNat) = true ∧
       s.memAddr (s.gReg 6) 0 16 16 needW = .ok 0x10000 (.hbm 0x100000)) ∧
    (let p : Reply := { id := 5, arrive := none, call := none, after := [], core := 0, ctx := 1, res := [.g 4 (num 1)], set := 0, hits := [], va := 0, ip := 0 }
     let s := { st with replies := [p] }
     s.replies.find? (fun r => r.core == 0 && r.ctx == 1 && r.arrive.isNone) = some p ∧ p.call = none) ∧
    (let p : Reply := { id := 5, arrive := none, call := some (.gpost 4 0x18000 1), after := [9], core := 0, ctx := 1, res := [], set := 0, hits := [], va := 0, ip := 0 }
     let s := { stores [op .store 9] with replies := [p] }
     s.replies.find? (fun r => r.core == 0 && r.ctx == 1 && r.arrive.isNone) = some p ∧ (s.coreAt 0).postedAny p.after = true ∧
       (st.coreAt 0).postedAny p.after = false ∧ (st.coreAt 0).postedBefore p.after = false) ∧
    (st.recordAt 0 (2 ^ 48) = false ∧ st.recordAt 0 0x18000 = true ∧ (st.graphReady 0 0x18000).graphOf 0 0x18000 = none) ∧
    (let g : Graph := { domain := 0, records := 0x18000, count := 1, status := 0, firstFault := none }
     let s := { noded (2 * 2 ^ 32) with graphs := [g] }
     let u := s.graphReady 0 0x18000
     (s.walkReady 0 0x18000).recordAt 0 0x18000 = true ∧ (u.graphOf 0 0x18000).isSome = true ∧ u.nState 0 0x18000 = nWAITING ∧
       u.nGet 0 0x18000 6 2 + u.nGet 0 0x18000 8 2 + 2 ≤ u.nGet 0 0x18000 4 2 ∧ u.nGet 0 0x18000 4 2 < u.nGet 0 0x18000 6 2 + u.nGet 0 0x18000 8 2 + 3) ∧
    (Issues c0 fPlain st = true ∧ st.myNode = none) ∧
    (let s := noded (2 ^ 368)
     let t := s.updProc 0 fun p => { p with trigStarted := true }
     Issues c0 fPlain s = true ∧ s.myNode = some (0, 0x18000) ∧ s.me.proc.trigStarted = false ∧ (t.graphReady 0 0x18000).nMarks 0 0x18000 % 2 = 1 ∧ s.drained s.core s.k = true ∧
       Issues c0 fYieldLate s = true ∧ (s.graphReady 0 0x18000).nMarks 0 0x18000 / 4 % 2 = 0) ∧
    ((((noded 0).updProc 0 fun p => { p with trigStarted := true }).graphReady 0 0x18000).nMarks 0 0x18000 % 2 = 0 ∧ (noded 0).me.proc.trigStarted = false) ∧
    (let s := noded (4 * 2 ^ 368 + 2 * 2 ^ 32 + 1 * 2 ^ 80)
     Issues c0 fYieldLate s = true ∧ s.myNode = some (0, 0x18000) ∧ (s.graphReady 0 0x18000).nMarks 0 0x18000 / 4 % 2 = 1 ∧
       (s.graphReady 0 0x18000).nGet 0 0x18000 10 2 ≠ (s.graphReady 0 0x18000).nGet 0 0x18000 4 2 ∧ s.me.proc.prq = 0 ∧
       (let t := s.updProc 0 fun p => { p with prq := 1 }
        (t.graphReady 0 0x18000).nGet 0 0x18000 10 2 ≠ (t.graphReady 0 0x18000).nGet 0 0x18000 4 2 ∧ t.me.proc.prq ≠ 0)) := by
  decide +kernel

/-! ### Effects of channel, engine, context and gang words -/

/-- R242, R258, R259: a SEND carries its end's number and raises it; a RECV takes the message its end expects. -/
theorem test_channel_words :
    (after (.send c0 1 11 (.small 7) none) (chanSt rec0 []) fun t => ((t.gReg 11).endst, (t.coreAt 0).sendq.map fun m => (m.seq, m.len, m.payload.toNat))) =
      some (1, [(0, 8, 7)]) ∧
    (after (.recv c0 (.g 1) 12 none 3) (chanSt rec0 [msg0]) fun t => ((t.gReg 12).endst, (t.coreAt 0).inbox, (t.coreAt 0).land.map fun l => l.res)) =
      some (1, [], [.g 1 (num 0x1234), .q 3 true, .none]) ∧
    trapped (.send c0 1 12 (.small 7) none) (chanSt rec0 []) = some (cCAPPERM, 12) ∧
    trapped (.recv c0 (.g 1) 11 none 3) (chanSt rec0 []) = some (cCAPPERM, 11) := by decide +kernel
/-- R262: endst 2, receive, one message queued. R227, R230: the first ticket is 1. R232: JSTAT clears what it reads. -/
theorem test_endinfo_and_engine_words :
    endInfo { rec0 with accept := 3 } 0 { rEnd with endst := 2 } = 0x200010001 ∧
    (after (.job c0 1 10 6 6) cardSt fun t => (t.jobs.map fun j => (j.2.ticket, j.2.engine), (t.coreAt 0).land.map fun l => l.res)) =
      some ([(1, 0)], [.g 1 (num 1)]) ∧
    (after (.jstat c0 1 2) (st.updProc 0 fun p => { p with errs := [(2, 5)] }) fun t =>
      (Tab.get 0 (t.coreAt 0).proc.errs 2, (t.coreAt 0).land.map fun l => l.res)) = some (0, [.g 1 (num 5)]) := by decide +kernel
/-- R285, R286: the lowest free helper starts at the target; only C starts one. R295, R297: an XCAST's address check; PHASE. -/
theorem test_context_and_gang_words :
    (after (.startRelative c0 1 2 0x40) st fun t => ((t.ctxAt 0 2).pc, (t.coreAt 0).land.map fun l => l.res)) =
      some (0x10040, [.q 1 true, .g 2 (num 1), .none]) ∧
    trapped (.startRelative c0 1 2 0x40) (helped 2) = some (cPROT, 0) ∧
    trapped (.hjoin c0 1 (.g 3)) (on 0 11) = some (cCAPBND, 11) ∧
    trapped (.xcast c0 0 10 2) (lw [(2, num (2 ^ 32 + 0x3FFF8))]) = some (cCAPBND, 0x10003FFF8) ∧
    (after (.widf c0 1 7) xst fun t => (t.coreAt 0).land.map fun l => l.res) = some [.g 1 (num 1)] := by decide +kernel
def owned (s : State) : State := { s with lodge := { s.lodge with owner := some (5, 0) } }
def running (s : State) (g : Gang → Gang) : State := { s with gangs := s.gangs.map fun p => (p.1, g p.2) }
def ready0 : Ready := { die := 0, prio := 0, domain := 0, node := 0x18000 }
def retry0 : Retry := { domain := 0, node := 0x18000, waitFor := [] }
/-- C's node, and as a save left it. -/
def areaSt : State := { noded nRUNNING with
  saved := [{ gangs := (noded 3).gangs, arrivals := [], acks := [], places := [], queued := [], events := [], started := [0], deferred := [], ends := [], stage := none }] }
def topPage : Nat := 2 ^ 48 - 2 ^ 16
def lastLine : Nat := 2 ^ 48 - 64
/-- C's node has its record in the last page of virtual memory, at 0x16_0000, and memory holds nothing but that page. -/
def inTop (l : List (Nat × Nat × Nat)) : State :=
  { st.updDomain 0 fun d => { d with record := BitVec.ofNat 1024 (0x40000 * 2 ^ 64) } with
    gangs := st.gangs.map fun p => (p.1, { p.2 with node := some (BitVec.ofNat 64 topPage) })
    mem := held ([(0x401F8, 8, 0x50001), (0x5FFF8, 8, 0x60001), (0x6FFF8, 8, 0x16001F)] ++ l) }
/-- A save of a node of no roles; the header of its area is in the last line. -/
def restoring (magic : Nat) : State :=
  let s := inTop [(0x160000, 56, nRUNNING), (0x16FFC0, 64, magic + 2 ^ 32 + 2 ^ 48 + topPage * 2 ^ 128)]
  { s with saved := [{ gangs := s.gangs.map fun g => (g.1, { g.2 with h := { g.2.h with roles := 0 } })
                       arrivals := [], acks := [], places := [], queued := [], events := [], started := [], deferred := [], ends := [], stage := none }] }
/-- A node that retries; its successor is EARLY. -/
def coneSt : State :=
  { inTop [(0x160000, 56, nRETRYING + 2 ^ 96 + (topPage + 0x100) * 2 ^ 128), (0x160080, 56, nEARLY), (0x160100, 8, topPage + 0x80)] with
    graphs := [{ domain := 0, records := BitVec.ofNat 64 topPage, count := 2, status := 0, firstFault := none }] }
def token0 : TokenMsg := { type := 1, reserved := false, domain := 0, count := 1, source := 5, node := 0x18000, tag := 9 }
theorem witness_GraphEvents :
    (let s := owned { noded (0x100 + 2 ^ 242) with ready := [ready0] }
     (([3, 2, 1, 0].flatMap fun p => (s.ready.filter fun r => r.die == 0).filter fun r => r.prio == p).findSome? s.dispatchOne |>.map fun u =>
       u.ready.any fun r => r.die == 0) = some false) ∧
    (let s := { noded nRETRYING with gangs := [], retries := [retry0] }
     let w := s.graphReady 0 0x18000
     s.retries.find? (fun r => r.domain == 0 && r.node == 0x18000) = some retry0 ∧ w.nState 0 0x18000 = nRETRYING ∧ (w.stopEarly 0 0x18000).1 = [] ∧
       (retry0.waitFor.any fun m => !(w.nodeGangs 0 m.toNat).isEmpty) = false) ∧
    (let w := coneSt.graphReady 0 topPage
     w.nState 0 topPage = nRETRYING ∧ (w.stopEarly 0 topPage).1 = [topPage + 0x80]) ∧
    ((st.gangAt 0).isSome = true ∧ (st.domainAt 0).holds = [] ∧ st.stageOf 0 = none ∧ st.gangAt 9 = none ∧
      (st.gangCores 0).filter (fun n => (st.coreAt n).proc.faultExit.isNone) = [0] ∧ (st.coreAt 0).proc.prq = 0) ∧
    (let s := st.updDomain 0 fun d => { d with holds := [(0, 0)] }
     (s.gangAt 0).isSome = true ∧ (s.domainAt 0).holds ≠ []) ∧
    ([1, 2].all fun k => let s := { st.updProc 0 fun p => { p with prq := BitVec.ofNat 64 (k * 2 ^ 62) } with cyc := 2 ^ 40 }
      (s.gangAt 0).any (fun x => decide (x.raised + s.gangDlim 0 ≤ s.cyc) && x.saving == 0) &&
        decide ((s.gangCores 0).filter (fun n => (s.coreAt n).proc.faultExit.isNone) = [0] ∧ bits (s.coreAt 0).proc.prq 63 62 = k)) = true ∧
    ([0, 1].all fun k => let s := running st fun g => { g with preempt := true, saving := k }
      let cores := (s.saveRoles (s.family 0)).filterMap fun r => r.core
      (s.gangAt 0).any (fun x => x.preempt && !x.saveFailed && x.saving == k) && (s.stageOf 0).isNone && decide (cores = [0]) &&
        cores.all s.saveDrained && (cores.all fun n => (s.coreAt n).proc.started) && !cores.all s.allStopped) = true ∧
    (let s := st.updCtx 0 1 fun x => { x with run := .stopped }
     s.allStopped 0 = true) ∧
    (let w := (restoring 0x56535844).restoreReady 0 lastLine topPage
     (w.saved.find? fun x => x.ofNode 0 topPage).any (fun y => y.gangs.length == 1 && y.roles.length == 0) = true ∧
       ((w.areaRead 0 lastLine 64).any fun h => h.take 4 == [0x44, 0x58, 0x53, 0x56] && cardField h 4 2 == 1 && cardField h 6 1 == 1 && saveHeadOk h &&
         cardField h 16 8 == topPage && cardField h 24 2 == 0) = true ∧ w.nState 0 topPage = nRUNNING ∧ (w.domainAt 0).integrityStop = false) ∧
    (((restoring 0x56535845).restoreReady 0 lastLine topPage).areaRead 0 lastLine 64).any (fun h => h.take 4 != [0x44, 0x58, 0x53, 0x56]) = true ∧
    (st.bandOwner (st.nodeDie 0 0x18000) ≠ some token0.source ∧ (owned st).bandOwner ((owned st).nodeDie 0 0x18000) = some token0.source ∧
      token0.reserved = false ∧ token0.type = 1 ∧ token0.domain.toNat < 2048 ∧ token0.count ≠ 0 ∧
      token0.node.toNat % 128 = 0 ∧ ((owned st).domainAt (token0.domain.setWidth 11)).live = true) := by decide +kernel

/-! ### Stages and debugging -/

/-- Stage 3, whose holder 0 is C's gang; its descriptor names the end in g12. -/
def stage0 : Stage :=
  { gang := 0, domain := 0, descriptor := natLE 128 (12 * 2 ^ 192), record := 0, armed := false, holders := [{ index := 0, gang := 0, start := 0 }],
    op := 0, phase := 0, who := 0, other := 0, splitKey := 0, code := 0, since := 7, target := none, snapshot := [] }
def staged (x : Stage) (r : ChanRec) : State := { (chanSt r []).updProc 0 fun p => { p with stage := some (3, 0) } with stages := [(3, x)] }
def keyable : ChanRec := { rec0 with keyable := true }
/-- C is in an upcall. -/
def upcalled (x : Stage) : State := (staged x keyable).updCore 0 fun c => { c with upcall := some (c.ctx 1) }
theorem witness_Stages : (let s := staged stage0 keyable
     s.stageAt 3 = some stage0 ∧ Issues c0 fLate s = true ∧ s.leak 1 = false ∧ s.me.proc.stage = some (3, 0) ∧ s.endCheck stage0.input (some true) 124 = none ∧
       s.endRecord (s.gReg stage0.input).bits = some keyable ∧ keyable.keyed = false ∧ s.freeMonitors (parterreOf s.core) = (List.range 16) ∧ stage0.twins = []) ∧
    (let x := { stage0 with armed := true, holders := stage0.holders ++ [{ index := 1, gang := 1, start := 9 }] }
     (staged x keyable).stageAt 3 = some x ∧ Issues c0 fLate (staged x keyable) = true ∧ x.twins ≠ []) ∧
    (let s := { st with stages := [(3, stage0)] }
     s.stageAt 3 = some stage0 ∧ s.me.proc.stage = none ∧ Issues c0 fLate s = true) ∧
    (let x := { stage0 with op := 1 }
     let s := upcalled x
     s.stageAt 3 = some x ∧ Issues c0 fPlain s = true ∧ s.me.upcall.isSome = true ∧ s.k = 1 ∧ s.gi (.small 0) = 0 ∧ s.gi (.small 4) ≠ 0) ∧
    (let x := { stage0 with op := 1, phase := 1, armed := true }
     let s := (staged x keyable).updCtx 0 1 fun x => { x with run := .stopped }
     s.stageAt 3 = some x ∧ s.holderCore x x.who = some 0 ∧ s.stagePrq x = false ∧ s.paused 0 = true) ∧
    (let x := { stage0 with op := 1, phase := 1 }
     (staged x keyable).holderCore x x.who = some 0 ∧ (staged x keyable).stagePrq x = false ∧ x.since = 7 ∧ (staged x keyable).paused 0 = false) ∧
    (let s := upcalled stage0
     ((s.coreAt 0).upcall.isSome && decide ((s.coreAt 0).proc.stage = some (3, 0))) = true) ∧
    (let x := { stage0 with op := 1, phase := 3, target := some 0 }
     let s := staged x keyable
     s.stageAt 3 = some x ∧ s.holderCore x x.who = some 0 ∧ s.stageRec x = some keyable ∧ s.stagePrq x = false ∧ (s.coreAt 0).proc.started = true ∧
       keyable.stuck = []) := by decide +kernel
theorem witness_StageRefusals : (let x := { stage0 with op := 1, phase := 3, target := some 0 }
     let s := (staged x keyable).updProc 0 fun p => { p with started := false }
     s.stageAt 3 = some x ∧ s.holderCore x x.who = some 0 ∧ s.stagePrq x = false ∧ (s.coreAt 0).proc.started = false) ∧
    (let x := { stage0 with op := 1, phase := 3, target := some 0 }
     let s := (staged x keyable).updProc 0 fun p => { p with prq := 1 }
     s.holderCore x x.who = some 0 ∧ s.stageRec x = some keyable ∧ s.stagePrq x = true) ∧
    (let s := staged stage0 rec0
     s.endRecord (s.gReg stage0.input).bits = some rec0 ∧ s.endCheck stage0.input (some true) bitUSE = none ∧ rec0.keyable = false) ∧
    (let s := setG [(12, num 0)] (staged stage0 keyable)
     Issues c0 fLate s = true ∧ s.me.proc.stage = some (3, 0) ∧ s.endCheck stage0.input (some true) bitUSE ≠ none) ∧
    (let s := { staged stage0 keyable with monitors := (List.range 16).map fun i => (i, { Monitor.init with stage := some (9, 0) }) }
     s.endRecord (s.gReg stage0.input).bits = some keyable ∧ s.freeMonitors (parterreOf s.core) = []) ∧
    ((staged stage0 keyable).stageRefusal stage0 true 0 ≠ 0 ∧ (Issues c0 fPlain st = true ∧ st.me.upcall = none)) ∧
    (let x := { stage0 with op := 2, phase := 2, other := 0 }
     let s := staged x keyable
     s.holderCore x x.other = some 0 ∧ s.stagePrq x = false ∧ x.armed = false) ∧
    (let x := { stage0 with op := 1, phase := 1, armed := true }
     (staged x keyable).holderCore x x.who = some 0 ∧ (staged x keyable).paused 0 = false) ∧
    (let x := { stage0 with op := 2, phase := 1 }
     let s := (staged x keyable).updCtx 0 1 fun x => { x with run := .stopped }
     s.holderCore x x.who = some 0 ∧ s.stageRec x = some keyable ∧ s.stagePrq x = false ∧ s.paused 0 = true ∧ s.exitDrained 0 = true) ∧
    (let x := { stage0 with op := 2, phase := 4 }
     (staged x keyable).holderCore x x.who = some 0 ∧ (staged x keyable).stageRec x = some keyable ∧ (staged x keyable).stagePrq x = false) ∧
    (let x := { stage0 with op := 2, phase := 0 }
     let s := staged x keyable
     s.stageAt 3 = some x ∧ s.holderCore x x.who = some 0 ∧ s.stageRec x = some keyable ∧ s.stagePrq x = false ∧ s.depth x.record x.who = 0 ∧
       ({ stage0 with op := 2, phase := 2 } : Stage).phase = 2) := by decide +kernel

/-- The owner's debugger and a stopped gang. -/
def halted : State := owned (running (noded 0) fun g => { g with stopped := true })
def tracing : State := st.updDomain 0 fun d => { d with traceState := 1, armed := true }
def mon0 : Monitor := { Monitor.init with desc := 2 ^ 32 + 2 ^ 33 }
theorem witness_Debug : (Issues c0 fPlain st = true ∧ (st.domainAt st.me.dom).armed = false ∧ (st.domainAt st.me.dom).traceState ≠ 1) ∧
    (Issues c0 fPlain tracing = true ∧ tracing.k ≠ 0 ∧ (tracing.domainAt tracing.me.dom).armed = true ∧ (tracing.domainAt tracing.me.dom).traceState = 1) ∧
    (Issues c0 fPlain sup = true ∧ Issues c0 fLate sup = true ∧ sup.k = 0) ∧
    (Issues c0 fLate st = true ∧ st.k ≠ 0 ∧ st.leak 1 = false ∧ (st.gi (.small 15)).toNat ≤ 15) ∧
    (let m := { mon0 with desc := 2 ^ 32 + 2 * 2 ^ 33, fired := true }
     let s := { st with monitors := [(0, m)] }
     Tab.find s.monitors 0 = some m ∧ monEnabled m = true ∧ m.source ≠ 0 ∧ (s.monSample 0 m).isSome = true ∧ m.canFire = false) ∧
    (let m := { mon0 with desc := 2 ^ 32 + 2 * 2 ^ 33 + 4 * 2 ^ 37 + 2 ^ 44 }
     let s := { st with monitors := [(0, m)] }
     monEnabled m = true ∧ m.source ≠ 0 ∧ s.monSample 0 m = some 256 ∧ m.canFire = true ∧ m.window = 1 ∧ m.sat 256 = true) ∧
    (let m := { mon0 with desc := 2 ^ 32 + 5 * 2 ^ 33 }
     ({ st with monitors := [(0, m)] } : State).monSample 0 m = none) := by decide +kernel
theorem witness_DebugCommands : (let s := owned (noded 0)
     s.dbgMay 5 0 = true ∧ s.dbgMay 6 0 = false ∧ s.nodeGangs 0 0x18000 = [0] ∧ s.nodeGangs 0 0x18080 = [] ∧ s.dbgCore 5 0 0x18000 0 = none ∧
       s.holdRole [0] 9 = none ∧ (s.gangAt 0).any (fun x => x.stopped) = false) ∧
    (halted.stopDrained 0 = true ∧ halted.dbgRead 0 11 (.g 63) ≠ none ∧ halted.dbgRead 0 1 (.s 0x1FF) = none ∧
      halted.dbgWrite 0 1 (.s 0x1FF) false 0 = none) ∧
    (let s := halted.updProc 0 fun p => { p with prq := BitVec.ofNat 64 (2 ^ 62) }
     bits (s.coreAt 0).proc.prq 63 62 = 1 ∧ s.holdRole [0] 0 ≠ none ∧ halted.pausing 0 = false) ∧
    ((st.isOwner 5 = false ∧ (owned st).isOwner 5 = true ∧ ((owned st).domainAt 0).live = true ∧ ((owned st).domainAt 9).live = false) ∧
      (0x10000#64).toNat % 64 = 0 ∧ (0x100#64).toNat % 64 = 0 ∧ (0x100#64) ≠ 0) ∧
    (let s := halted
     s.isOwner 5 = true ∧ s.nodeGangs 0 0x18000 = [0] ∧
       (s.gangAt 0).any (fun x => x.stopped && x.eventStop != 1 && x.eventStop != 3 && x.saving == 0) = true ∧ s.dbgCore 5 0 0x18000 0 = some 0 ∧
       (s.holdRole [0] 0).map (fun r => r.2) = some 0 ∧ s.holding 0 = false ∧ (s.dbgRead 0 11 (.g 63)).isSome = true ∧
       (s.dbgWrite 0 1 (.g 63) false 7).isSome = true) ∧
    (let s := halted.updDomain 0 fun d => { d with holds := [(0, 0)] }
     s.isOwner 5 = true ∧ (s.holdRole [0] 0).map (fun r => r.2) = some 0 ∧ s.holding 0 = true ∧ s.nodeGangs 0 0x18000 = [0]) ∧
    ((Tab.get Monitor.init st.monitors 5).domain = 0 ∧ (Tab.get Monitor.init st.monitors 5).stage = none ∧ (0#128).extractLsb' 16 11 = (0 : BitVec 11)) := by
  decide +kernel

/-! ### The outside -/

def hreq : HostReq := { source := 5, cxl := false, write := false, atomic := false, hold := false, addr := 0x100000, domain := 0, data := [], len := 64, telemetry := false, counters := false }
def pkt : Packet := { port := 17, source := 0x130, domain := some 0, parity := false, number := 1, data := [], tag := 0 }
def hline : HostLine := { agent := 0, host := 2, line := 77, domain := 0, st := .m, data := 5, tags := 0 }
theorem witness_Fabric : (let s := st.updCore 0 fun c => { c with ifills := [0x401] }
     (s.coreAt 0).ifills.contains 0x401 = true ∧ (s.walkReady (s.coreAt 0).dom (0x401 * 64)).codePlace (s.coreAt 0).dom 0x401 = .ok (.hbm 0x100040) ∧
       s.hostHolds (.hbm 0x100040) = false ∧ ({ s with hostHeld := [(0x4001, 0)] } : State).hostHolds (.hbm 0x100040) = true) ∧
    (let s := st.updCore 0 fun c => { c with ifills := [2 ^ 48 / 64] }
     (s.coreAt 0).ifills.contains (2 ^ 48 / 64) = true ∧ (match s.codePlace (s.coreAt 0).dom (2 ^ 48 / 64) with
       | .bad _ => true
       | .ok _ => false) = true) ∧
    (let x : Snoop := { agent := 0, host := 2, line := 77, invalidate := true }
     let s := { st with snoops := [x], hostLines := [hline] }
     s.snoops.find? (fun x => x.agent == (0 : BitVec 1).toNat) = some x ∧ s.hostLine 2 77 = some hline) ∧
    (let s := owned st
     s.booted = true ∧ s.isOwner hreq.source = true ∧ s.isOwner 6 = false ∧ (s.domainAt hreq.domain).live = true ∧ s.hbmOk hreq.addr.toNat 64 = true ∧
       s.hbmOk 0x100000 ({ hreq with write := true, data := [1, 2, 3] } : HostReq).data.length = true ∧
       s.reqDomain hreq 64 = some 0 ∧ s.reqDomain { hreq with cxl := true } 64 = none ∧
       (let x : HdmRange := { base := 0x100000, len := 0x1000, domain := 0 }
        (s.domainAt x.domain).live = true ∧ ({ s with exposed := [x] } : State).reqDomain { hreq with cxl := true, hold := true } 64 = some 0)) ∧
    (let q : PeerReq := { device := 3, domain := 0, write := false, atomic := none, addr := 0x100000, data := [], len := 64 }
     ((peerLines q).filter fun l => st.hostHeld.any fun h => h.1 == l) = [] ∧ (st.domainAt q.domain).live = true ∧ st.hbmOk 0x100000 64 = true ∧
       ((peerLines q).filter fun l => ({ st with hostHeld := [(0x4000, 0)] } : State).hostHeld.any fun h => h.1 == l) ≠ []) ∧
    ([0x100000, 0x100004].all fun a =>
      let q : PeerReq := { device := 3, domain := 0, write := false, addr := a, data := [], len := 0,
                           atomic := some { op := .amo .i64 .add, operand := 1, compare := 0, lcn := 0, ctx := 1, seq := 1 } }
      ((peerLines q).filter fun l => st.hostHeld.any fun h => h.1 == l).isEmpty && st.hbmOk q.addr.toNat (peerSize q) && peerSize q == 8) = true ∧
    (st.hostHeld = [] ∧ (let s := { st with backInv := [77] }
      s.backInv.contains 77 = true ∧ s.peerWaiting = []) ∧
      (let s := { st with backInv := [77], hostHeld := [(77, 0)] }
       s.hostHeld.find? (fun h => h.1 == 77) = some (77, 0) ∧ s.hbmOk (64 * 77) 64 = true)) ∧
    ((st.linkSecret pkt).isSome = true ∧ st.linkSecret { pkt with domain := some 9 } = none ∧
      ((st.updPort 17 fun p => { p with secret := some 5 }).linkSecret { pkt with domain := none }).isSome = true ∧
      pkt.source.extractLsb' 4 12 ≠ st.lodge.deviceId ∧ (3#16).extractLsb' 4 12 = st.lodge.deviceId) ∧
    (let s := st.updPort 17 fun p => { p with up := true }
     (17 : BitVec 5).toNat < 18 ∧ s.booted = true ∧ (s.portAt 17).up = true) ∧
    (domainField (st.domainAt (st.coreAt 0).dom).record 72 2 ≠ 0xFFFF ∧ (let s := st.updDomain 0 fun d => { d with record := d.record ||| BitVec.ofNat 1024 (0xFFFF * 2 ^ 576) }
      domainField (s.domainAt (s.coreAt 0).dom).record 72 2 = 0xFFFF)) := by decide +kernel

/-- A packet under the device secret that verifies is accepted, so either clause of O58 about it has states that meet it. -/
theorem witness_Packet (secret : BitVec 384) (h : Config.packetOk secret pkt.source 0 pkt.number pkt.data pkt.tag = true) :
    ((st.link pkt.source pkt.domain).accept secret pkt).1 = true := by
  have l : st.link pkt.source pkt.domain = { source := pkt.source, domain := pkt.domain, gen := 0, last := none, lastPrev := none, newCount := 0 } := by
    decide +kernel
  rw [l]
  have h' : Config.packetOk secret 304#16 0 1 [] 0#128 = true := h
  simp [Link.accept, above, pkt, h']
def req0 : DomainReq := { tags := 7, record := BitVec.ofNat 1024 (5 + 0x120000 * 2 ^ 64 + (cap 1 24 0x1000 256).bits.toNat * (2 ^ 128 + 2 ^ 256 + 2 ^ 384) + 0xFFFF * 2 ^ 576) }
/-- The table entry of the page at 0x1_0000, its place and the state after the walk, as the Lodge finds them for host 5. -/
def page1 (s : State) : State × Place × W64 := (s.ownerPage 5 0 0x10000).getD (s, .hbm 0, 0)
/-- That page away on a host: its entry says so. -/
def away : State := (owned st).putEntry 0 (page1 (owned st)).2.1 (pte (page1 (owned st)).2.2 false 2 16)
def awayEntry : W64 := (page1 away).2.2
def goingOut (s : State) : State := (page1 s).1.putEntry 0 (page1 s).2.1 (pte (page1 s).2.2 false 1 (bits (page1 s).2.2 51 16))
theorem witness_LodgeRequests :
    (st.booted = true ∧ st.lodge.owner = none ∧ (owned st).lodge.owner = some (5, 0) ∧ (owned st).booted = true) ∧
    (st.isOwner 5 = false ∧ (11 : BitVec 4).toNat < 12 ∧ (0x10000 : BitVec 48) = (1 : BitVec 32) ++ (0 : BitVec 16)) ∧
    (let s := owned st
     s.isOwner 5 = true ∧ (s.domains.any fun p => p.2.live && p.2.record.getLsbD 16) = false ∧ requestOk req0 = true ∧
       (s.domainAt (BitVec.ofNat 11 (domainField req0.record 0 2))).live = false ∧ (s.domainAt 0).live = true ∧ (s.coreAt 4095).bound = false ∧
       s.windowMay 11 15 (winMask (5 * 2 ^ 240)) = true) ∧
    (let s := owned st
     let e := (page1 s).2.2
     (s.ownerPage 5 0 0x10000).isSome = true ∧ (st.ownerPage 5 0 0x10000).isNone = true ∧ e.getLsbD 0 = true ∧ bits e 8 7 = 0 ∧ leafHere e = true ∧
       s.lodge.evicting.contains (pageKey 0 0x10000) = false ∧
       s.hbmOk (65536 * bits e 51 16) 65536 = true ∧ (goingOut s).pageBusy (65536 * bits e 51 16) = false) ∧
    (let s := owned (stores [op .store 9])
     (goingOut s).pageBusy (65536 * bits (page1 s).2.2 51 16) = true) ∧
    ((away.ownerPage 5 0 0x10000).isSome = true ∧ awayEntry.getLsbD 0 = false ∧ bits awayEntry 8 7 ≠ 0 ∧ leafHere awayEntry = true ∧
      away.hbmOk (65536 * bits awayEntry 51 16) 65536 = true ∧ (0 : W64) = Tab.get 0 away.lodge.pages (pageKey 0 0x10000)) := by
  decide +kernel
/-- A claim whose signatures verify meets what O59 asks of it. -/
theorem witness_Claim (g : Signed) (nonce : BitVec 384)
    (hr : Config.rsaOk g.rsaKey (natLE 2 st.lodge.deviceId.toNat ++ bytes48 nonce ++ natLE 2 5) g.rsaSig = true)
    (hs : Config.slhOk g.slhKey (natLE 2 st.lodge.deviceId.toNat ++ bytes48 nonce ++ natLE 2 5) g.slhSig = true) :
    let s := st.updLodge fun l => { l with nonces := [nonce], blob := some { deviceId := 0, credentials := [credential g], portMask := 0, portCxl := 0, refresh := 0 } }
    s.booted = true ∧ s.lodge.owner = none ∧ s.listed (credential g) = true ∧ s.signedOk nonce 5 g = true := by
  refine ⟨rfl, rfl, ?_, ?_⟩
  · simp [State.listed, State.updLodge]
  · simp only [State.signedOk, State.updLodge]
    simpa using ⟨hr, hs⟩
/-- The bytes a page comes back with, under its own code and under another. -/
theorem witness_PageCode : (List.replicate 65536 (0 : Byte)).length = 65536 ∧
    ∀ m : BitVec 384, (∃ mac, mac = m) ∧ ∃ mac, mac ≠ m :=
  ⟨List.length_replicate, fun m => ⟨⟨m, rfl⟩, ~~~m, fun h => by
    have := congrArg (fun x => x.getLsbD 0) h
    simp at this⟩⟩

/-- The machine at a step of boot. -/
def booting (n : Nat) : State := { State.reset with lodge := { State.reset.lodge with boot := .step n } }
theorem witness_Boot : (booting 1).lodge.boot = .step 1 ∧ (booting 3).lodge.boot = .step 3 ∧ (booting 5).lodge.boot = .step 5 ∧ (booting 6).lodge.boot = .step 6 ∧
    (booting 7).lodge.boot = .step 7 ∧ (11 : BitVec 4).toNat < 12 ∧ (17 : BitVec 5).toNat < 18 ∧
    ((booting 7).controls = true ∧ ((booting 7).mcAt 11).busy = false ∧ (1 : Nat) ≤ 8) ∧
    (let s := st.updMc 11 fun m => { m with busy := true, step := 8 }
     (s.mcAt 11).busy = true ∧ (s.mcAt 11).step = 8 ∧ s.lodge.boot ≠ .step 7) ∧
    (st.controls = true ∧ (let s := st.updPort 17 fun p => { p with busy := true, cmd := 6 }
      (s.portAt 17).busy = true ∧ (s.portAt 17).cmd.toNat = 6 ∧ s.training 17 = false)) ∧
    ((((booting 8).updPort 17 fun p => { p with busy := true }).portAt 17).busy = true) ∧
    ((BitVec.ofNat 52 (Config.controlBase + 65536 * 11)).toNat = Config.controlBase + 65536 * 11 ∧ 1 ≤ (0x18#64).toNat % 16 ∧ (0x18#64).toNat % 16 ≤ 8 ∧
      (BitVec.ofNat 52 (Config.controlBase - 1)).toNat < Config.controlBase) := by decide +kernel

/-! ## The assembler, the linker and the object format (R68 to R95) -/

namespace Jas
open Sys2Proof.Jas

def txt (s : String) : List Byte := s.toList.map fun c => BitVec.ofNat 8 c.toNat
/-- A statement alone in a section, at its start. -/
def wordOf (s : String) : Option (Except JCode (Fields × Option Want)) :=
  match parseLine (txt s) with
  | .ok { label := _, stmt := .word g h a hs } =>
    some (({ syms := [], here := some { sec := { kind := 1, name := [] }, off := 0 } } : Env).assemble g h a hs)
  | _ => none
def isWord (s : String) (w : Nat) : Bool :=
  match wordOf s with
  | some (.ok r) => r.1.word == BitVec.ofNat 96 w
  | _ => false
def isError (s : String) (c : JCode) : Bool :=
  match wordOf s with
  | some (.error d) => d == c
  | _ => false
def diagsOf (s : String) : List (Nat × JCode) :=
  match assemble (txt s) with
  | .ok _ => []
  | .error l => l.map fun d => (d.line, d.code)
end Jas

-- R68, R136, R258, R407: the words the spec works out for these statements
theorem test_jas_vfma : Jas.isWord "(!q3) VFMA.f32.sr w[g4-1], w1, w2, w3 %d=2 %lu   ; R68" 0x400EC80193F9401540204030 = true := by
  decide +kernel
theorem test_jas_cmp : Jas.isWord "CMP.ltn q2, g5, 100" 0x1A000000F002005600000064 = true := by decide +kernel
theorem test_jas_send : Jas.isWord "SEND.b16 q3, g20, w2, g21" 0xA0040000F003014040230150 = true := by decide +kernel
theorem test_jas_wrs : Jas.isWord "wrs tip, g3, 2" 0x0010000020F00030F0020000 = true := by decide +kernel
-- R77, R79: no format is supplied; a hint out of its range
theorem test_jas_format : Jas.isError "FADD g1, g2, g3" .j02 = true := by decide +kernel
theorem test_jas_hint : Jas.isError "ADD g1, g2, 3 %d=16" .j04 = true := by decide +kernel
-- R72, R80: the Ixtin word of the worked example
theorem test_jas_ixtin :
    (match Sys2Proof.Jas.parseLine (Jas.txt "(q2) FADD.f32.rn g5, g3, g9 %w=0b0001") with
     | .ok { label := _, stmt := .word g h a hs } =>
       match ({ syms := [], here := none } : Sys2Proof.Jas.Env).assembleIxtin g h a hs with
       | .ok r => r.1 == 0x1C02050309001000#64
       | .error _ => false
     | _ => false) = true := by decide +kernel
-- R75: precedence, and the truncating division
theorem test_jas_expr :
    (match ({ syms := [], here := none } : Sys2Proof.Jas.Env).absolute "-7 / 2 + 0x10 * (1 << 2) | 0b1".toList with
     | .ok v => v == 61#64
     | .error _ => false) = true := by decide +kernel
-- R74, R81, R85: a reserved name and data in code, in source order; a byte out of range; a routine left open
theorem test_jas_names : Jas.diagsOf ".text\ng5: NOP\n.byte 1" = [(2, .j05), (3, .j06)] := by decide +kernel
theorem test_jas_range : Jas.diagsOf ".section .d, data\n.byte 256" = [(2, .j04)] := by decide +kernel
-- R91: the header of the example, in the object and with its relocation
theorem test_jas_header :
    (match Sys2Proof.Jas.assemble (Jas.txt (".text\n.routine kmain\nNOP\n.end\n.group quad4\n" ++
        ".launch entry=kmain, roles=4, lcnbase=0x100, widbase=0x410, seed=0x5EED, dlim=20000, allot=16\n.widths 2, 4, 6")) with
     | .ok o => (o.secs.find? fun s => s.key.kind == 7).map (fun s => s.body) ==
         some (natLE 8 0 ++ natLE 8 0x410 ++ natLE 8 0x5EED ++ natLE 20 0 ++ natLE 4 0x100 ++ natLE 4 20000 ++ natLE 2 4 ++ natLE 2 0 ++
           [2, 4, 6, 0, 0, 0] ++ natLE 12 0 ++ [0xFF, 0xFF] ++ natLE 2 0 ++ [0x10] ++ natLE 49 0) &&
         o.rels.map (fun r => (r.at_.off, r.kind, String.ofList r.sym.name, r.add)) == [(0, 1, "kmain", 0)]
     | .error _ => false) = true := by decide +kernel
-- R89: PCREL32 from one section into another, and a value that is no multiple of 4
theorem test_jld_pcrel : Sys2Proof.Jas.applyReloc 4 0x1000#64 8#64 0x2000#64 false 12 (natLE 24 0) =
    .ok (natLE 12 0 ++ [0x08, 0xF0, 0xFF, 0xFF] ++ natLE 8 0) := by decide +kernel
theorem test_jld_check : Sys2Proof.Jas.applyReloc 4 0x1002#64 0#64 0x2000#64 false 0 (natLE 12 0) = .error .j10 := by decide +kernel
-- R92: a call into a section that stands 64 KiB below
theorem test_jld_link :
    (match Sys2Proof.Jas.assemble (Jas.txt ".text\nCALL g3, side\n.section .side, text\nside: RET g3") with
     | .ok o =>
       match Sys2Proof.Jas.link Sys2Proof.Jas.defaultBase [o] with
       | .ok e => (e.secs.map fun s => (String.ofList s.key.name, s.addr, s.body.take 4)) ==
           [(".side", 0x100000000000, [0, 0, 0, 0]), (".text", 0x100000010000, [0x00, 0x00, 0xFF, 0xFF])]
       | .error _ => false
     | .error _ => false) = true := by decide +kernel
-- R86: a header that is none
theorem test_jof_magic : Sys2Proof.Jas.readHead (natLE 64 0x01464F4A) = none := by decide +kernel

end Sys2Proof.Tests
end

/-! ## Every instruction goes on

The words issue, and an issue answers a next state (`issue_goesOn`, `issueWide_goesOn`); the steps of agents answer a next
state in every branch, but where the core, controller or port they name is not there, which a well-formed step rules out. -/

namespace Sys2Proof.Machine

theorem goesOn_next (s : State) : goesOn (.next s) := ⟨s, rfl⟩

theorem goesOn_ite {p : Prop} [Decidable p] {a b : Host.Outcome State Fault Refusal} (ha : goesOn a) (hb : goesOn b) :
    goesOn (if p then a else b) := by
  split <;> assumption

theorem illegal_goesOn (s : State) : goesOn (illegal s) := goesOn_next _

/-! ### The shared operations of words and steps -/

theorem maskOp_goesOn (c : Ctl) (op : WideOp) (md : BitVec 3) (s : State) : goesOn (maskOp c op md s) :=
  issueWide_goesOn _ _ _ _ _ _

theorem tileAccess_goesOn (c : Ctl) (s : State) (regs : State → List WRes) (body : State → Eff) :
    goesOn (tileAccess c s regs body) :=
  issueWide_goesOn _ _ _ _ _ _

theorem onCore_goesOn_of_lt {n : Nat} (s : State) (f : State → State) (h : n < Config.coreCount) : goesOn (onCore n s f) :=
  ⟨_, onCore_goesOn s f h⟩

theorem onMc_goesOn {j : BitVec 4} (s : State) (code : Nat) (h : j.toNat < 12) : goesOn (onMc j s code) := by
  rw [onMc, if_neg (Nat.not_le.mpr h)]
  exact goesOn_next _

theorem onPort_goesOn {p : BitVec 5} (s : State) (f : State → State) (h : p.toNat < 18) : goesOn (onPort p s f) := by
  rw [onPort, if_neg (Nat.not_le.mpr h)]
  exact goesOn_next _

theorem dbgGang_goesOn (s : State) (source : BitVec 16) (d : BitVec 11) (node : W64) (f : List Nat → Option State) :
    goesOn (s.dbgGang source d node f) := by
  unfold State.dbgGang
  dsimp only
  split <;> exact goesOn_next _

theorem coreOrPeer_lt {core : Nat} (h : coreOrPeer core = true) : core < 2 * Config.coreCount := of_decide_eq_true h

/-- The core that an answer is for is there, whether a core asked or a peer device. -/
theorem answerCore_lt {core : Nat} (h : coreOrPeer core = true) : (answerCore core).1 < Config.coreCount := by
  have h2 := coreOrPeer_lt h
  unfold answerCore
  split <;> dsimp only <;> omega

/-! ### Words with a check before they issue -/

theorem execXcast_goesOn (c : Ctl) (role : BitVec 12) (w d : BitVec 6) (s : State) : goesOn (execXcast c role w d s) := by
  unfold execXcast
  exact goesOn_ite (illegal_goesOn _) (goesOn_ite (goesOn_next _) (issue_goesOn _ _ _ _))

theorem execRoleq_goesOn (c : Ctl) (d : BitVec 6) (r : RoleOp) (s : State) : goesOn (execRoleq c d r s) := by
  unfold execRoleq
  split
  · exact illegal_goesOn _
  · exact goesOn_ite (illegal_goesOn _) (issue_goesOn _ _ _ _)

/-! ### Steps that name a unit, or go on as another step -/

theorem execInboxMessageArrival_goesOn {core : Nat} (m : Msg) (s : State) (h : coreOrPeer core = true) :
    goesOn (execInboxMessageArrival core m s) := by
  have h2 := coreOrPeer_lt h
  unfold execInboxMessageArrival
  split
  · exact goesOn_next _
  case isFalse hn =>
    have hc : core < Config.coreCount := by
      by_contra hc
      exact hn ⟨by simp [farLoc, hc], h2⟩
    exact onCore_goesOn_of_lt _ _ hc

theorem execLeaveNotice_goesOn (record : Nat) (recvEnd : Bool) (gen : BitVec 16) (counter : BitVec 32) {core : Nat}
    (m : Option Msg) (s : State) (h : coreOrPeer core = true) :
    goesOn (execLeaveNotice record recvEnd gen counter core m s) := by
  unfold execLeaveNotice
  rw [if_neg (Nat.not_le.mpr (coreOrPeer_lt h))]
  exact goesOn_ite (goesOn_next _) (goesOn_next _)

theorem execArrivalNotice_goesOn (record : Nat) (recvEnd : Bool) {a : CtxAt} (reg : BitVec 6) (s : State)
    (h : coreOrPeer a.core = true) : goesOn (execArrivalNotice record recvEnd a reg s) := by
  rw [execArrivalNotice, if_neg (Nat.not_le.mpr (coreOrPeer_lt h))]
  split
  · exact goesOn_next _
  · split <;> exact goesOn_next _

theorem execFormatWindowChange_goesOn (source : BitVec 16) {mc : BitVec 4} (window : BitVec 4) (desc : BitVec 256)
    (s : State) (h : mc.toNat < 12) : goesOn (execFormatWindowChange source mc window desc s) := by
  simp only [execFormatWindowChange, if_neg (Nat.not_le.mpr h)]
  exact goesOn_ite (goesOn_next _) (goesOn_next _)

theorem execMcStepDone_goesOn {mc : BitVec 4} (fail : Bool) (lanes spares : BitVec 8) (s : State) (h : mc.toNat < 12) :
    goesOn (execMcStepDone mc fail lanes spares s) := by
  simp only [execMcStepDone, if_neg (Nat.not_le.mpr h)]
  exact goesOn_ite (goesOn_next _) (goesOn_next _)

theorem execStagePause_goesOn (stage : Nat) (s : State) : goesOn (execStagePause stage s) := by
  unfold execStagePause
  dsimp only
  repeat' split
  all_goals exact goesOn_next _

theorem execStagePauseTimeout_goesOn (stage op : Nat) (s : State) : goesOn (execStagePauseTimeout stage op s) := by
  simp only [execStagePauseTimeout]
  split
  · exact goesOn_next _
  · split
    · exact goesOn_next _
    · exact goesOn_ite (execStagePause_goesOn _ _) (goesOn_next _)

theorem execDump_goesOn (source : BitVec 16) (domain : BitVec 11) (node : Option (BitVec 64)) (buf len : BitVec 64)
    (s : State) : goesOn (execDump source domain node buf len s) := by
  unfold execDump
  split
  · exact goesOn_ite (goesOn_next _) (goesOn_next _)
  · exact dbgGang_goesOn _ _ _ _ _

/-! ### All instructions -/

/-- An instruction's arm is an issue, a step of a unit that is there, or a tree of branches that all end in a next state. -/
theorem exec_goesOn (i : Instr) (s : State) (hw : i.wellFormed = true) (hc : ∀ a v, i ≠ .controlRegisterWrite a v) :
    goesOn (exec i s) := by
  cases i with
  | controlRegisterWrite a v => exact absurd rfl (hc a v)
  -- words that issue by the shared rule: scalar words, and words of memory, channels, gangs, graphs and stages
  | nop | trap | eretRetry | eretSkip | eretExit | rds | rdsContext | wrs | wrsContext | retarm | scall | bra | brx
  | callRelative | callRegister | ret | loop | bfx | bfxs | bfi | movi | movh | cmp | sel | pand | por | pnot | fcmp
  | fcvt | ldl | stl | cbound | cperm | cget | cderive | ctest | cnull | cmove | allot | shrink | mclaim | mrel
  | mloadImmediate | mloadRegister | mcfg | mzero | mgang | mwait | ld | st | pref | ldacq | strel | fence | fenceRed
  | fenceEng | amo | cas | red | swait | fwait | fset | fclr | job | jwait | cwwait | jstat | chan | send | recv
  | tryrecv | select | close | endinfo | startRelative | startRegister | hjoin | hexit | yield | waitev | bar | xend
  | widf | gpost | trigStart | trigDone | waitp | glaunch | gcancel | gstat | sret | keyr | shintArm | shintClone
  | shintMerge | shintDisarm | bkpt | mark | rdcnt | monq | add | sub | and | or | xor | andn | shl | shr | sar | rot
  | min | max | minn | maxn | mul | mulh | mulhn | div | divn | rem | remn | clz | ctz | popc | brev | ext | fadd
  | fsub | fmul | ffma | fdiv | fsqrt | fmin | fmax | fclass | fsgn =>
    apply issue_goesOn
  -- words of the wide unit
  | vadd | vsub | vmul | vmin | vmax | vdiv | vfma | vsel | vperm | vshuf | vbcast | vins | vrmax | vrmin | vcvt
  | vpxenc | vpxdec | vmov | vabs | vneg | vrcp | vrsq | vexp2 | vlog2 | viadd | visub | vimul | vand | vor | vxor
  | vshl | vshr | vsar | vcmp | vextr | vldlImmediate | vldlRegister | vstlImmediate | vstlRegister | vldx | vstx
  | vrsum =>
    apply issueWide_goesOn
  | mand | mor | mnot =>
    simp only [exec]
    apply maskOp_goesOn
  | mrdacc | mwracc | mstacc =>
    simp only [exec]
    apply tileAccess_goesOn
  | xcast c role w d => exact execXcast_goesOn c role w d s
  | roleq c d r => exact execRoleq_goesOn c d r s
  -- steps at a core
  | wideIssue | mloadCompletion | postedWritePerform | icacheFill | l1Eviction | residencyFillComplete | stagef
  | processExit | watchdogExpiry | hardwareCounterWrap =>
    simp only [exec]
    exact onCore_goesOn_of_lt _ _ (of_decide_eq_true hw)
  | kioskAtomicPerform | remoteTimeout | waitPoll | offCoreReferenceResult =>
    simp only [exec]
    exact onCore_goesOn_of_lt _ _ (of_decide_eq_true (Bool.and_elim_left hw))
  | loadResponse | atomicResponse | kioskRefusal =>
    simp only [exec, execLoadResponse, execAtomicResponse, execKioskRefusal]
    exact onCore_goesOn_of_lt _ _ (answerCore_lt (Bool.and_elim_left hw))
  | matrixOperationStart arbor | matrixOperationCompletion arbor =>
    have ha : arbor < 1024 := of_decide_eq_true hw
    simp only [exec]
    exact onCore_goesOn_of_lt _ _ (show 4 * arbor < 4096 by omega)
  | inboxMessageArrival core m => exact execInboxMessageArrival_goesOn m s hw
  | leaveNotice record recvEnd gen counter core m => exact execLeaveNotice_goesOn record recvEnd gen counter m s hw
  | arrivalNotice record recvEnd a reg => exact execArrivalNotice_goesOn record recvEnd reg s (Bool.and_elim_left hw)
  -- steps at a memory controller or a port
  | mcPhyResetRelease | mcImpedanceCalibration | mcCommandAddressTraining | mcReadTraining | mcWriteTraining
  | mcLaneRepair | mcInitialise | mcEnable =>
    simp only [exec]
    exact onMc_goesOn _ _ (of_decide_eq_true hw)
  | mcStepDone mc fail lanes spares => exact execMcStepDone_goesOn fail lanes spares s (of_decide_eq_true hw)
  | formatWindowChange source mc window desc =>
    exact execFormatWindowChange_goesOn source window desc s (of_decide_eq_true hw)
  | portStepDone | portTrainingTimeout | portSerdesResetRelease | portReceiverDetect | portEqualise
  | portDeskewFlitLock | portKeyExchange | portUp | portDown | linkLoss =>
    simp only [exec]
    exact onPort_goesOn _ _ (of_decide_eq_true hw)
  -- commands on a gang, and a stage's pause
  | stop | resume | hold | unhold =>
    simp only [exec]
    apply dbgGang_goesOn
  | dump source domain node buf len => exact execDump_goesOn source domain node buf len s
  | stagePause stage => exact execStagePause_goesOn stage s
  | stagePauseTimeout stage op => exact execStagePauseTimeout_goesOn stage op s
  -- steps of the engines and of the Bandstands, which answer a next state in every branch
  | jobBegin | writePointerAdvance | jobCompletion | recordMessageArrival | ringSlotOffer | closureMarkerArrival
  | spillRetry =>
    simp only [exec, execJobBegin, execWritePointerAdvance, execJobCompletion, execRecordMessageArrival,
      execRingSlotOffer, execClosureMarkerArrival, execSpillRetry]
    repeat' split
    all_goals exact goesOn_next _
  -- steps of gangs and of graph nodes, alike
  | barrierRelease | xcastTransferComplete | nodeDispatch | nodeRetry | preemptRequest | dlimExpiry | save | restore =>
    simp only [exec, execBarrierRelease, execXcastTransferComplete, execNodeDispatch, execNodeRetry,
      execPreemptRequest, execDlimExpiry, execSave, execRestore]
    repeat' split
    all_goals exact goesOn_next _
  -- steps of a stage, alike
  | stageSplitCompletion | stageMergeQuiescence =>
    simp only [exec, execStageSplitCompletion, execStageMergeQuiescence]
    repeat' split
    all_goals exact goesOn_next _
  -- requests to the Lodge, alike
  | deviceReportRequest | ownershipChallenge | ownershipClaim | handover | ownershipRelease | deviceIdAssign
  | domainCreate | coreAssign | domainDestroy | pageEvict | pageReturn =>
    simp only [exec, execDeviceReportRequest, execOwnershipChallenge, execOwnershipClaim, execHandover,
      execOwnershipRelease, execDeviceIdAssign, execDomainCreate, execCoreAssign, execDomainDestroy, execPageEvict,
      execPageReturn]
    repeat' split
    all_goals exact goesOn_next _
  -- commands of a debugger, alike
  | arm | disarm | read | write | trace | monset | monitorSample =>
    simp only [exec, execArm, execDisarm, execRead, execWrite, execTrace, execMonset, execMonitorSample]
    repeat' split
    all_goals exact goesOn_next _
  -- hosts, peers, links, and the boot, alike
  | hostMemoryRequest | peerMemoryRequest | hostLineEviction | hostCxlIoRequest | hostSnoop | snoopDequeue
  | backInvalidateAnswer | linkPacketReceive | linkKeyRollover | tokenPost | powerUp | packageReset | bootStepTimeout =>
    simp only [exec, execHostMemoryRequest, execPeerMemoryRequest, execHostLineEviction, execHostCxlIoRequest,
      execHostSnoop, execSnoopDequeue, execBackInvalidateAnswer, execLinkPacketReceive, execLinkKeyRollover,
      execTokenPost, execPowerUp, execPackageReset, execBootStepTimeout]
    repeat' split
    all_goals exact goesOn_next _

/-- Settles O9, by the case of each instruction: every arm but CONTROL_REGISTER_WRITE's goes on. -/
theorem everyInstructionGoesOn : Obligations.EveryInstructionGoesOn := by
  unfold Obligations.EveryInstructionGoesOn
  exact exec_goesOn

end Sys2Proof.Machine

/-! ## The fetch of a native word -/

namespace Sys2Proof.Machine

open Sys2Proof.Jas (leNat_natLE)

/-! ### The bytes of memory as a list -/

theorem Memory.readAs_lt (m : Memory) (key a n : Nat) : m.readAs key a n < 256 ^ n := by
  induction n generalizing a with
  | zero => simp [Memory.readAs]
  | succ n ih =>
    have hb := (m.byteAs key a).isLt
    have hr := ih (a + 1)
    rw [Memory.readAs, Nat.pow_succ]
    omega

theorem natLE_readAs_succ (m : Memory) (key a n : Nat) :
    natLE (n + 1) (m.readAs key a (n + 1)) = m.byteAs key a :: natLE n (m.readAs key (a + 1) n) := by
  have hb := (m.byteAs key a).isLt
  have hd : ((m.byteAs key a).toNat + 256 * m.readAs key (a + 1) n) / 256 = m.readAs key (a + 1) n := by omega
  rw [natLE, Memory.readAs, hd]
  congr 1
  apply BitVec.eq_of_toNat_eq
  rw [BitVec.toNat_ofNat]
  omega

theorem drop_natLE_readAs (m : Memory) (key a n k : Nat) :
    (natLE (k + n) (m.readAs key a (k + n))).drop k = natLE n (m.readAs key (a + k) n) := by
  induction k generalizing a with
  | zero => simp
  | succ k ih => rw [Nat.add_right_comm, natLE_readAs_succ, List.drop_succ_cons, ih, Nat.add_assoc, Nat.add_comm 1 k]

theorem take_natLE_readAs (m : Memory) (key a n k : Nat) :
    (natLE (k + n) (m.readAs key a (k + n))).take k = natLE k (m.readAs key a k) := by
  induction k generalizing a with
  | zero => simp [natLE]
  | succ k ih => rw [Nat.add_right_comm, natLE_readAs_succ, List.take_succ_cons, ih, natLE_readAs_succ]

/-- The bytes from `k` on of a range of memory are read as the number that stands there. -/
theorem leNat_slice_readAs (m : Memory) (key a k n r : Nat) :
    leNat (((natLE (k + (n + r)) (m.readAs key a (k + (n + r)))).drop k).take n) = m.readAs key (a + k) n := by
  rw [drop_natLE_readAs, take_natLE_readAs, leNat_natLE _ _ (m.readAs_lt key _ n)]

/-! ### A resident line -/

/-- A line of HBM is seen as it stood at its fill or after a write since (R48). -/
theorem State.iline_mem (s : State) (n : Nat) {l : ILine} {pa : Nat} (hp : l.place = .hbm pa) :
    (s.iline n l).1 ∈ l.bytes :: l.since := by
  have hlt : Config.freeDelay s.fresh % (l.since.length + 1) < (l.bytes :: l.since).length := Nat.mod_lt _ (Nat.succ_pos _)
  simp only [State.iline, hp]
  split
  · exact List.mem_cons_self
  · rw [List.getElem?_eq_getElem hlt]
    exact List.getElem_mem hlt

theorem State.iline_of_unwritten (s : State) (n : Nat) {l : ILine} {pa : Nat} (hp : l.place = .hbm pa) (hs : l.since = []) :
    s.iline n l = (l.bytes, s) := by
  simp [State.iline, hp, hs]

/-- A line that is resident at the place its page translates to is there at once (R364). -/
theorem State.wantLine_resident {s : State} {n line : Nat} (pc : W64) {l : ILine} {p : Place}
    (ht : (s.walkReady (s.coreAt n).dom (line * lineBytes)).codePlace (s.coreAt n).dom line = .ok p)
    (hl : Tab.find (s.coreAt n).icache line = some l) (hp : l.place = p) :
    s.wantLine n line pc = .inr ((s.walkReady (s.coreAt n).dom (line * lineBytes)).iline n l) := by
  simp only [State.wantLine, ht, hl, hp, if_true]

/-- A native word at an aligned pc that ends within a resident line is 12 bytes of what the fetch sees of the line (R47). -/
theorem State.fetchWord_resident {s : State} {n : Nat} {x : Ctx} {l : ILine} {p : Place} {q : List Byte × State}
    (hx : s.isIxtin n x.pc.toNat = false) (ha : x.pc.toNat % 4 = 0) (hin : x.pc.toNat % 64 ≤ 52)
    (ht : (s.walkReady (s.coreAt n).dom (x.pc.toNat / 64 * 64)).codePlace (s.coreAt n).dom (x.pc.toNat / 64) = .ok p)
    (hl : Tab.find (s.coreAt n).icache (x.pc.toNat / 64) = some l) (hp : l.place = p)
    (hq : (s.walkReady (s.coreAt n).dom (x.pc.toNat / 64 * 64)).iline n l = q) :
    s.fetchWord n x = .word (BitVec.ofNat 96 (leNat ((q.1.drop (x.pc.toNat % 64)).take 12))) false q.2 := by
  have hw : s.wantLine n (x.pc.toNat / lineBytes) x.pc = .inr q := hq ▸ State.wantLine_resident x.pc ht hl hp
  have hone : (x.pc.toNat + 12 - 1) / lineBytes = x.pc.toNat / lineBytes := by
    unfold lineBytes
    omega
  have hb : s.fetchBytes n x.pc 12 = .inr ((q.1.drop (x.pc.toNat % 64)).take 12, q.2) := by
    simp only [State.fetchBytes, hw, hone, if_true]
    rfl
  simp [State.fetchWord, hx, ha, hb]

theorem State.fetchWord_misaligned {s : State} {n : Nat} {x : Ctx} (hx : s.isIxtin n x.pc.toNat = false)
    (ha : x.pc.toNat % 4 ≠ 0) : s.fetchWord n x = .bad cALIGN x.pc (x.branch.getD x.pc) := by
  simp [State.fetchWord, hx, ha]

/-- Settles O5, from what a fetch sees of a resident line and the bytes of memory as a list. -/
theorem fetchReadsTheWordAtThePc : Obligations.FetchReadsTheWordAtThePc := by
  unfold Obligations.FetchReadsTheWordAtThePc
  intro s n pa x l dom line u hx
  refine ⟨fun ha hin ht hl hp => ⟨?_, fun hs hbytes => ?_⟩, State.fetchWord_misaligned hx⟩
  · exact ⟨(u.iline n l).1, u.iline_mem n hp, (u.iline n l).2, State.fetchWord_resident hx ha hin ht hl hp rfl⟩
  · have hlen : x.pc.toNat % 64 + (12 + (52 - x.pc.toNat % 64)) = 64 := by omega
    have hword := leNat_slice_readAs u.mem (s.keyOf dom) pa (x.pc.toNat % 64) 12 (52 - x.pc.toNat % 64)
    rw [hlen] at hword
    rw [State.fetchWord_resident hx ha hin ht hl hp (u.iline_of_unwritten n hp hs), hbytes, hword]

end Sys2Proof.Machine

namespace Sys2Proof.Machine

/-! ## The issue of a word, by its hint -/

/-- A scalar word issues under its own hint, from any state, and does not reach outside its core (R35). -/
theorem exec_of_scalarCtl {i : Instr} {c : Ctl} (h : i.scalarCtl = some c) :
    ∃ (f : Form) (body : State → Eff), f.far = false ∧ ∀ s, exec i s = issue c f s body := by
  cases i with
  | nop | rds | bra | brx | callRelative | callRegister | ret | loop | add | sub | and | or | xor | andn | shl | shr
  | sar | rot | min | max | minn | maxn | mul | mulh | mulhn | div | divn | rem | remn | clz | ctz | popc | brev | ext
  | bfx | bfxs | bfi | movi | movh | cmp | sel | pand | por | pnot | fmin | fmax | fcmp | fclass | fsgn | ldl | cbound
  | cperm | cget | cderive | ctest | cnull | cmove =>
    obtain rfl := Option.some.inj h
    exact ⟨_, _, rfl, fun _ => rfl⟩
  | _ => exact absurd h nofun

/-- A word that R35 keeps out of a planned compute phase issues under its own hint, as one that reaches outside its core. -/
theorem exec_of_farCtl {i : Instr} {c : Ctl} (h : i.farCtl = some c) :
    ∃ (f : Form) (body : State → Eff), f.far = true ∧ ∀ s, exec i s = issue c f s body := by
  cases i with
  | ld | st | pref | ldacq | strel | amo | cas | red | swait | fwait | fset | fclr | job | chan | send | recv | tryrecv
  | select | close | endinfo | gpost | glaunch | gcancel | gstat | scall =>
    obtain rfl := Option.some.inj h
    exact ⟨_, _, rfl, fun _ => rfl⟩
  | _ => exact absurd h nofun

theorem issue_of_phaseBad {c : Ctl} {f : Form} {s : State} (body : State → Eff) (h : s.phaseBad c f.far = true) :
    issue c f s body = .next (s.traps cPHASE (if s.me.proc.exchange then 1 else 0)) := by
  rw [issue, if_pos h]
  rfl

/-- A hint that names the other phase is wrong for every form (R52). -/
theorem phaseBad_of_hint {c : Ctl} {s : State} (far : Bool)
    (h : c.phase = .compute ∧ s.me.proc.exchange = true ∨ c.phase = .exchange ∧ s.me.proc.exchange = false) :
    s.phaseBad c far = true := by
  rcases h with ⟨hp, he⟩ | ⟨hp, he⟩ <;> simp [State.phaseBad, hp, he]

/-- A word that reaches outside its core is wrong in the compute phase of a planned gang (R35). -/
theorem phaseBad_of_planned (c : Ctl) {s : State} {g : Gang} (he : s.me.proc.exchange = false) (hg : s.myGang = some g)
    (hp : g.h.planned = true) : s.phaseBad c true = true := by
  simp [State.phaseBad, he, hg, hp]

/-- Settles O12: the phase check comes before the guard, and a scalar or far word issues by the shared rule. -/
theorem wrongPhaseTraps : Obligations.WrongPhaseTraps := by
  unfold Obligations.WrongPhaseTraps
  intro i c s
  refine ⟨fun hi hp => ?_, fun hi he hg => ?_⟩
  · obtain ⟨f, body, -, hx⟩ := exec_of_scalarCtl hi
    rw [hx, issue_of_phaseBad body (phaseBad_of_hint f.far hp)]
  · obtain ⟨f, body, hf, hx⟩ := exec_of_farCtl hi
    obtain ⟨g, hg, hpl⟩ := hg
    rw [hx, issue_of_phaseBad body (hf ▸ phaseBad_of_planned c he hg hpl), he]
    rfl

/-! ## One step of a core that can issue -/

theorem State.coreAct_of_ready {s : State} {n k : Nat} (hc : (s.coreAt n).cur = some k) (hr : (s.coreAt n).isReady k = true) :
    s.coreAct n = s.ctxAct n k := by
  have hs : s.seat n = s := by simp [State.seat, hc, hr]
  simp [State.coreAct, hs, hc]

section
variable {s : State} {n : Nat} {r : List Nat} (hi : s.inputs = []) (hd : s.due = []) (ht : s.todo = n :: r)
include hi hd ht

theorem step_eq_turn : step s = turn n { s with todo := r } := by
  simp only [step, hi, hd, ht]

theorem step_of_coreAct_next {t : State} (h : ({ s with todo := r } : State).coreAct n = .next t) : step s = .next t := by
  rw [step_eq_turn hi hd ht, turn, h]

theorem step_of_coreAct_run {i : Instr} {t : State} (h : ({ s with todo := r } : State).coreAct n = .run i t) :
    step s = exec i t := by
  rw [step_eq_turn hi hd ht, turn, h]
end

theorem State.ticked_fence (s : State) (n k : Nat) : ((s.ticked n k).ctxAt n k).fence = (s.ctxAt n k).fence := by
  unfold State.ticked
  split
  · rw [State.ctxAt_updCtx_same]
  · rfl

theorem State.tryFence_of_none {s : State} {n k : Nat} (h : (s.ctxAt n k).fence = none) : s.tryFence n k = s := by
  simp [State.tryFence, h]

theorem State.tryFence_of_unmet {s : State} {n k : Nat} {x : Fence} (h : (s.ctxAt n k).fence = some x)
    (hm : s.fenceMet n k x = false) : s.tryFence n k = s := by
  simp [State.tryFence, h, hm]

theorem State.tryFence_of_met {s : State} {n k : Nat} {x : Fence} (h : (s.ctxAt n k).fence = some x)
    (hm : s.fenceMet n k x = true) :
    s.tryFence n k = (s.endFence n k x).updCtx n k fun y => { y with fence := none } := by
  simp [State.tryFence, h, hm]

section
variable {s : State} {n k : Nat} (hw : k = 0 ∨ (s.ctxAt n k).wd < (s.coreAt n).wdog.toNat) (hd : (s.ctxAt n k).deferred = none)
include hw hd

/-- A context that its hint or its fence still holds does not issue (R51, R213). -/
theorem State.ctxAct_of_held (h : ((s.ticked n k).tryFence n k).cyc < (s.ctxAt n k).notBefore ∨
      (((s.ticked n k).tryFence n k).ctxAt n k).fence.isSome = true) :
    s.ctxAct n k = .next ((s.ticked n k).tryFence n k) := by
  have hn : ¬(k ≠ 0 ∧ (s.coreAt n).wdog.toNat ≤ (s.ctxAt n k).wd) := by omega
  simp only [State.ticked] at h
  simp only [State.ctxAct, if_neg hn, hd, if_pos h]
  rfl

/-- A context that nothing holds decodes the word that it fetches. -/
theorem State.ctxAct_of_word {w : BitVec 96} {ix : Bool} {t : State}
    (hb : (s.ctxAt n k).notBefore ≤ ((s.ticked n k).tryFence n k).cyc)
    (hf : (((s.ticked n k).tryFence n k).ctxAt n k).fence = none)
    (h : ((s.ticked n k).tryFence n k).fetchWord n (s.ctxAt n k) = .word w ix t) :
    s.ctxAct n k = t.decodeAct n k w ix := by
  have hn : ¬(k ≠ 0 ∧ (s.coreAt n).wdog.toNat ≤ (s.ctxAt n k).wd) := by omega
  have hh : ¬(((s.ticked n k).tryFence n k).cyc < (s.ctxAt n k).notBefore ∨
      (((s.ticked n k).tryFence n k).ctxAt n k).fence.isSome = true) := by simp [hf, hb]
  simp only [State.ticked] at h hh
  simp only [State.ctxAct, if_neg hn, hd, if_neg hh, h]
end

/-- A word whose waits are over and that an upcall permits runs as what it decodes to. -/
theorem State.decodeAct_of_ok {t : State} {n k : Nat} {w : BitVec 96} {ix : Bool} {i : Instr}
    (hw : waitsDone (fieldsOf w) (t.ctxAt n k) = true)
    (hu : k = 1 → (t.coreAt n).upcall.isSome = true → upcallAllows (fieldsOf w).cls.toNat (fieldsOf w).minor.toNat = true)
    (hd : decodeWord w = .ok i) :
    t.decodeAct n k w ix = .run i { t with core := n, ir := w, irIxtin := ix } := by
  have hn : ¬(k = 1 ∧ (t.coreAt n).upcall.isSome = true ∧
      (!upcallAllows (fieldsOf w).cls.toNat (fieldsOf w).minor.toNat) = true) := by
    rintro ⟨hk, hs, ha⟩
    rw [hu hk hs] at ha
    exact absurd ha (by decide)
  simp only [State.decodeAct, hw, Bool.not_true, Bool.false_eq_true, if_false, if_neg hn, hd]

/-- Settles O4: nothing of the order of R387 stands before the fetch, so the turn is what the fetched word decodes to. -/
theorem stepRunsTheDecodedWord : Obligations.StepRunsTheDecodedWord := by
  unfold Obligations.StepRunsTheDecodedWord
  intro s n k r v u hi hd ht hc hr hw hdef
  have hv : (v.ctxAt n k).fence = (s.ctxAt n k).fence := State.ticked_fence _ n k
  have hcore : ({ s with todo := r } : State).coreAct n = ({ s with todo := r } : State).ctxAct n k :=
    State.coreAct_of_ready hc hr
  refine ⟨fun t w ix i hf hb hword hwait hup hdec => ?_, fun hf => ?_, fun x hf hm => ?_, fun x hf hm => ?_⟩
  · refine step_of_coreAct_run hi hd ht (hcore.trans ?_)
    rw [State.ctxAct_of_word (s := { s with todo := r }) hw hdef hb hf hword, State.decodeAct_of_ok hwait hup hdec]
  · exact State.tryFence_of_none (hv.trans hf)
  · have hu : u = v := State.tryFence_of_unmet (hv.trans hf) hm
    refine step_of_coreAct_next hi hd ht (hcore.trans ?_)
    refine (State.ctxAct_of_held (s := { s with todo := r }) hw hdef (.inr ?_)).trans (congrArg Act.next hu)
    show (u.ctxAt n k).fence.isSome = true
    rw [hu, hv, hf]
    rfl
  · exact State.tryFence_of_met (hv.trans hf) hm

/-! ## Reset -/

/-- Nothing of a core's or a context's number shows in what a special register reads as after a reset. -/
theorem State.reset_special (n k i : Nat) : State.reset.special n k i = State.reset.special 0 0 i := rfl

theorem Ctx.init_pred : ∀ q : BitVec 3, Ctx.init.pred q = decide (q = 0) := by decide

/-- Settles O6: every core of the reset state is `Core.init`, and every context of it `Ctx.init`. That memory lists nothing is the
model's choice for the tags (log 3). -/
theorem resetLeavesNothingLive : Obligations.ResetLeavesNothingLive := by
  unfold Obligations.ResetLeavesNothingLive
  refine ⟨rfl, fun d => rfl, fun n => ⟨rfl, rfl, rfl, rfl⟩, fun n k => ⟨rfl, rfl, rfl, Ctx.init_pred⟩, fun n k => ⟨rfl, ?_⟩, rfl, rfl⟩
  simp only [State.reset_special n k]
  decide

end Sys2Proof.Machine

namespace Sys2Proof.Machine

/-! ## A result that lands

A landing writes its result into one register and then settles its context: its flags are ORed in and its scoreboard count falls. -/

/-! ### Registers after a write -/

theorem Ctx.gReg_setG (x : Ctx) (n m : BitVec 6) (v : GReg) : (x.setG n v).gReg m = if m = n then v else x.gReg m := by
  split
  case isTrue h => rw [h, Ctx.gReg_setG_same]
  case isFalse h => exact Ctx.gReg_setG_ne x v h

/-- Setting or clearing one bit leaves every other. -/
theorem getLsbD_writeBit (q : BitVec 8) {m : Nat} (n : Nat) (hm : m < 8) (b : Bool) :
    (if b then q ||| (1#8 <<< n) else q &&& ~~~(1#8 <<< n)).getLsbD m = if m = n then b else q.getLsbD m := by
  have hone : (1#8 <<< n).getLsbD m = decide (m = n) := by
    rw [← BitVec.twoPow_eq, BitVec.getLsbD_twoPow, ← Bool.decide_and, decide_eq_decide]
    omega
  have hlt : decide (m < 8) = true := decide_eq_true hm
  cases b
  · simp only [Bool.false_eq_true, if_false, BitVec.getLsbD_and, BitVec.getLsbD_not, hone, hlt]
    split <;> simp [*]
  · simp only [if_true, BitVec.getLsbD_or, hone]
    split <;> simp [*]

theorem Ctx.pred_setQ (x : Ctx) (n m : BitVec 3) (b : Bool) :
    (x.setQ n b).pred m = if m = n ∧ m ≠ 0 then b else x.pred m := by
  by_cases hm : m = 0
  · simp [Ctx.pred, hm]
  · by_cases hn : n = 0
    · simp [Ctx.setQ, hn]
    · have hbit := getLsbD_writeBit x.q n.toNat m.isLt b
      simp only [Ctx.pred, Ctx.setQ, hm, hn, if_false, hbit, BitVec.toNat_inj, ne_eq, not_false_eq_true, and_true]

theorem Ctx.mask_setM (x : Ctx) (n m : BitVec 3) (v : W32) :
    (x.setM n v).mask m = if m = n ∧ m ≠ 0 then v else x.mask m := by
  by_cases hm : m = 0
  · simp [Ctx.mask, hm]
  · by_cases hn : n = 0
    · simp [Ctx.setM, hn]
    · by_cases h : m = n
      · subst h
        rw [if_pos ⟨rfl, hn⟩, Ctx.mask, if_neg hn, Ctx.setM, if_neg hn, Tab.get_put_same]
      · have hne : m.toNat ≠ n.toNat := fun e => h (BitVec.eq_of_toNat_eq e)
        rw [if_neg fun e => h e.1, Ctx.mask, if_neg hm, Ctx.setM, if_neg hn, Tab.get_put_ne _ _ _ hne, Ctx.mask, if_neg hm]

@[simp] theorem Ctx.setQ_gReg (x : Ctx) (n : BitVec 3) (b : Bool) (m : BitVec 6) : (x.setQ n b).gReg m = x.gReg m := by
  simp [Ctx.gReg]
@[simp] theorem Ctx.setM_gReg (x : Ctx) (n : BitVec 3) (v : W32) (m : BitVec 6) : (x.setM n v).gReg m = x.gReg m := by
  simp [Ctx.gReg]
@[simp] theorem Ctx.setG_pred (x : Ctx) (n : BitVec 6) (v : GReg) (m : BitVec 3) : (x.setG n v).pred m = x.pred m := rfl
@[simp] theorem Ctx.setM_pred (x : Ctx) (n : BitVec 3) (v : W32) (m : BitVec 3) : (x.setM n v).pred m = x.pred m := by
  simp [Ctx.pred]
@[simp] theorem Ctx.setG_mask (x : Ctx) (n : BitVec 6) (v : GReg) (m : BitVec 3) : (x.setG n v).mask m = x.mask m := rfl
@[simp] theorem Ctx.setQ_mask (x : Ctx) (n : BitVec 3) (b : Bool) (m : BitVec 3) : (x.setQ n b).mask m = x.mask m := by
  simp [Ctx.mask]

/-! ### What a landing does to a context and to its core -/

/-- What a result that is no special register's writes into the context it lands in. -/
def Result.toCtx : Result → Ctx → Ctx
  | .g n v, x => x.setG n v
  | .q n b, x => x.setQ n b
  | .m n mask v, x => x.setM n ((x.mask n &&& ~~~mask) ||| (v &&& mask))
  | .w .., x | .s .., x | .none, x => x

/-- What every landing does to the context it lands in, besides its result (R54, R114). -/
def Landing.settle (l : Landing) (x : Ctx) : Ctx :=
  let y := { x with fflags := x.fflags ||| l.flags }
  match l.sb with
  | some j => y.sbDown j
  | none => y

@[simp] theorem Landing.settle_gReg (l : Landing) (x : Ctx) (n : BitVec 6) : (l.settle x).gReg n = x.gReg n := by
  unfold Landing.settle
  cases l.sb <;> rfl
@[simp] theorem Landing.settle_pred (l : Landing) (x : Ctx) (n : BitVec 3) : (l.settle x).pred n = x.pred n := by
  unfold Landing.settle
  cases l.sb <;> rfl
@[simp] theorem Landing.settle_mask (l : Landing) (x : Ctx) (n : BitVec 3) : (l.settle x).mask n = x.mask n := by
  unfold Landing.settle
  cases l.sb <;> rfl
@[simp] theorem Landing.settle_fflags (l : Landing) (x : Ctx) : (l.settle x).fflags = x.fflags ||| l.flags := by
  unfold Landing.settle
  cases l.sb <;> rfl

@[simp] theorem Result.toCtx_fflags (r : Result) (x : Ctx) : (r.toCtx x).fflags = x.fflags := by
  cases r <;> simp [Result.toCtx]

theorem Core.ctx_updCtx (c : Core) (j k : Nat) (f : Ctx → Ctx) :
    (c.updCtx j f).ctx k = if k = j then f (c.ctx k) else c.ctx k := by
  split
  case isTrue h => rw [h, Core.ctx_updCtx_same]
  case isFalse h => exact Core.ctx_updCtx_ne c f h

/-- A landing changes the context it lands in by its result and its settling, and no other. -/
theorem Core.ctx_landOne {c : Core} {l : Landing} (h : l.res.isS = false) (k : Nat) :
    (c.landOne l).ctx k = if k = l.ctx then l.settle (l.res.toCtx (c.ctx k)) else c.ctx k := by
  have hset : ∀ b : Core, (b.updCtx l.ctx l.settle).ctx k = if k = l.ctx then l.settle (b.ctx k) else b.ctx k :=
    fun b => Core.ctx_updCtx b l.ctx k l.settle
  cases hr : l.res with
  | g | q | m =>
    simp only [Core.landOne, hr]
    refine (hset _).trans ?_
    rw [Core.ctx_updCtx]
    by_cases hk : k = l.ctx <;> simp [hk, Result.toCtx]
  | w | none =>
    simp only [Core.landOne, hr]
    exact hset _
  | s n v => rw [hr] at h; exact absurd h (by simp [Result.isS])

/-- Of the core itself a landing changes the contexts, and the w registers where its result is one (R58). -/
theorem Core.landOne_eq {c : Core} {l : Landing} (h : l.res.isS = false) :
    ∃ ctxs, c.landOne l = { c with ctxs := ctxs, w := match l.res with
      | .w p mask v => Tab.put c.w p (laneMerge mask (c.wReg p) v)
      | .g .. | .q .. | .m .. | .s .. | .none => c.w } := by
  cases hr : l.res with
  | g | q | m | w | none =>
    simp only [Core.landOne, hr]
    exact ⟨_, rfl⟩
  | s n v => rw [hr] at h; exact absurd h (by simp [Result.isS])

theorem Core.wReg_landOne {c : Core} {l : Landing} (h : l.res.isS = false) (p : Nat) :
    (c.landOne l).wReg p = match l.res with
      | .w r mask v => if p = r then laneMerge mask (c.wReg p) v else c.wReg p
      | _ => c.wReg p := by
  obtain ⟨ctxs, hc⟩ := Core.landOne_eq (c := c) h
  rw [hc]
  cases hr : l.res with
  | w r mask v =>
    by_cases hp : p = r
    · simp [Core.wReg, hp]
    · simp [Core.wReg, hp, Tab.get_put_ne _ _ _ hp]
  | g | q | m | s | none => rfl

/-! ### When a result lands -/

theorem Core.landDue_early {c : Core} {l : Landing} {cyc : Nat} (hc : c.land = [l]) (h : cyc < l.due) : c.landDue cyc = c := by
  have hd : decide (l.due ≤ cyc) = false := decide_eq_false (Nat.not_le.mpr h)
  simp only [Core.landDue, hc, List.filter_cons, List.filter_nil, hd, Bool.not_false, if_true, Bool.false_eq_true, if_false,
    inOrder, List.foldl_nil]
  rw [← hc]

theorem Core.landDue_due {c : Core} {l : Landing} {cyc : Nat} (hc : c.land = [l]) (h : l.due ≤ cyc) :
    c.landDue cyc = ({ c with land := [] } : Core).landOne l := by
  have hd : decide (l.due ≤ cyc) = true := decide_eq_true h
  cases hs : l.res.isS <;>
    simp [Core.landDue, hc, hd, hs, inOrder, Landing.after]

theorem State.coreAt_landAfter (s : State) (lat : Nat) (r : Result) (fl : Flags) :
    (s.landAfter lat r fl).coreAt s.core = { s.me with land := s.me.land ++
      [{ due := s.cyc + lat, issued := s.cyc, ctx := s.k, res := r, flags := fl, sb := none, late := false }] } :=
  State.coreAt_updCore_same s s.core _

/-- Settles O15: a landing writes its result and settles its context, and it is done at the first cycle that is not before its own. -/
theorem landedResultIsRead : Obligations.LandedResultIsRead := by
  unfold Obligations.LandedResultIsRead
  refine ⟨fun c l hs => ?_, fun s lat cyc r fl hl => ⟨fun h => ?_, fun h => ?_⟩⟩
  · obtain ⟨ctxs, hc⟩ := Core.landOne_eq (c := c) hs
    have hx := Core.ctx_landOne (c := c) hs
    refine ⟨fun k n => ?_, fun k n => ?_, fun k n => ?_, Core.wReg_landOne hs, fun k => ?_, ?_⟩
    · rw [hx k]
      by_cases hk : k = l.ctx
      · cases l.res <;> simp [hk, Result.toCtx, Ctx.gReg_setG]
      · cases l.res <;> simp [hk]
    · rw [hx k]
      by_cases hk : k = l.ctx
      · cases l.res <;> simp [hk, Result.toCtx, Ctx.pred_setQ]
      · cases l.res <;> simp [hk]
    · rw [hx k]
      by_cases hk : k = l.ctx
      · cases l.res with
        | m r mask v => by_cases hn : n = r <;> simp [hk, hn, Result.toCtx, Ctx.mask_setM]
        | g | q | w | s | none => simp [hk, Result.toCtx]
      · cases l.res <;> simp [hk]
    · rw [hx k]
      by_cases hk : k = l.ctx <;> simp [hk]
    · rw [hc]
      exact ⟨rfl, rfl, rfl, rfl, rfl⟩
  · exact Core.landDue_early (by rw [State.coreAt_landAfter, hl]; rfl) h
  · have hc := State.coreAt_landAfter s lat r fl
    rw [hl] at hc
    refine (Core.landDue_due (by rw [hc]; rfl) h).trans ?_
    rw [hc]
    show ({ s.me with land := [] } : Core).landOne _ = _
    rw [← hl]

end Sys2Proof.Machine

namespace Sys2Proof.Machine

/-! ## Words that issue: from what their body answers to what they do -/

section
variable {i : Instr} {c : Ctl} {f : Form} {s t : State} {body : State → Eff}

theorem exec_of_issues {e : Eff} (hx : ∀ u, exec i u = issue c f u body) (hi : Issues c f s = true) (hb : body s = e) :
    exec i s = .next (s.finish c f e) := by
  rw [hx, issue_of_issues body hi, hb]

theorem exec_traps {cause : BitVec 8} {val : W64} (hx : ∀ u, exec i u = issue c f u body) (hi : Issues c f s = true)
    (hb : body s = .trap cause val) : exec i s = .next (s.traps cause val) :=
  exec_of_issues hx hi hb

theorem completesAs_of_issue {ok : Prop} (hx : ∀ u, exec i u = issue c f u body) (hb : ok → body s = .done t) :
    CompletesAs i c f ok t s :=
  fun hi hok => exec_of_issues hx hi (hb hok)

theorem waitsAs_of_issue {ok : Prop} {w : Wait} (hx : ∀ u, exec i u = issue c f u body) (hb : ok → body s = .wait w t) :
    WaitsAs i c f ok w t s :=
  fun hi hok => exec_of_issues hx hi (hb hok)

/-- A word whose body writes one g result after the ENDLEAK check of its destination (R120). -/
theorem completesG_of_issue {d : BitVec 6} {lat : Nat} {v : GReg} {fl : Flags} (hx : ∀ u, exec i u = issue c (fTo d) u body)
    (hb : body s = if s.leak d then leakTrap d else .done (s.landAfter lat (.g d v) fl)) : CompletesG i c lat d v fl s := by
  intro hi
  refine ⟨fun hl => (exec_of_issues (e := .done (s.landAfter lat (.g d v) fl)) hx hi ?_).trans rfl, fun hl => exec_traps hx hi ?_⟩
  · rw [hb, hl]
    rfl
  · rw [hb, hl]
    rfl
end

/-- An update of a context is told by what it makes of the context as it stands. -/
theorem State.updCtx_congr {s : State} {n k : Nat} {f g : Ctx → Ctx} (h : f (s.ctxAt n k) = g (s.ctxAt n k)) :
    s.updCtx n k f = s.updCtx n k g := by
  show s.setCore n ((s.coreAt n).setCtx k (f (s.ctxAt n k))) = s.setCore n ((s.coreAt n).setCtx k (g (s.ctxAt n k)))
  rw [h]

/-! ## The words of S -/

theorem eretGo_of_not_S {s : State} (hk : s.k ≠ 0) (c : Ctl) (qd : BitVec 3) (k mode : Nat) :
    eretGo s c qd k mode = .trap cPROT 0 := if_pos hk

/-- Settles O19: the check of the issuing context is the first of each word's own. -/
theorem supervisorWordsTrapElsewhere : Obligations.SupervisorWordsTrapElsewhere := by
  unfold Obligations.SupervisorWordsTrapElsewhere
  intro c qd d h ctx r v n off s
  refine ⟨fun hk hi => ⟨?_, ?_, ?_, ?_⟩, fun hk hi => ?_, fun hk hi => ?_, fun hk hi hs => ?_, fun hk hi => ⟨?_, ?_⟩, fun hk hi => ?_⟩
  · exact exec_traps (fun _ => rfl) hi (eretGo_of_not_S hk c qd ctx.toNat 0)
  · exact exec_traps (fun _ => rfl) hi (eretGo_of_not_S hk c qd ctx.toNat 1)
  · exact exec_traps (fun _ => rfl) hi (if_pos hk)
  · exact exec_traps (fun _ => rfl) hi (if_pos hk)
  · exact exec_traps (fun _ => rfl) hi (if_pos hk)
  · exact exec_traps (fun _ => rfl) hi (if_pos hk)
  · exact exec_traps (fun _ => rfl) hi (if_pos (by simp [hs, hk]))
  · exact exec_traps (fun _ => rfl) hi (if_pos hk)
  · exact exec_traps (fun _ => rfl) hi (if_pos hk)
  · exact exec_traps (fun _ => rfl) hi (if_pos hk)

/-! ## `rmode` -/

/-- The bits above a mode, in the width a special register reads with. -/
theorem extractLsb'_high_setWidth (x : BitVec 3) : (x.setWidth 128).extractLsb' 3 125 = 0 := by
  have hx := x.isLt
  apply BitVec.eq_of_toNat_eq
  simp only [BitVec.extractLsb'_toNat, BitVec.toNat_setWidth, BitVec.ofNat_eq_ofNat, BitVec.toNat_ofNat, Nat.shiftRight_eq_div_pow]
  omega

theorem extractLsb'_low_setWidth (x : BitVec 3) : (x.setWidth 128).extractLsb' 0 3 = x := by
  have hx := x.isLt
  apply BitVec.eq_of_toNat_eq
  simp only [BitVec.extractLsb'_toNat, BitVec.toNat_setWidth, Nat.shiftRight_eq_div_pow]
  omega

theorem Core.landS_rmode (c : Core) (k : Nat) (v : W64) :
    c.landS k 0x006 v = if bits v 2 0 ≤ 5 then c.updCtx k fun x => { x with rmode := v.setWidth 3 } else c := rfl

/-- The two codes that name no mode (R43). -/
theorem rmode_reserved_iff (v : W64) : ¬ bits v 2 0 ≤ 5 ↔ v.extractLsb' 0 3 = 6#3 ∨ v.extractLsb' 0 3 = 7#3 := by
  have hb : bits v 2 0 = (v.extractLsb' 0 3).toNat := by simp [bits]
  have hlt := (v.extractLsb' 0 3).isLt
  simp only [hb, BitVec.toNat_eq, BitVec.toNat_ofNat]
  omega

theorem State.special_rmode (s : State) (n k : Nat) : s.special n k 0x006 = (s.ctxAt n k).rmode.setWidth 128 := rfl

/-- A WRS of a register that anyone may write lands in the next cycle (R41, R57). -/
theorem wrs_completes {n : BitVec 9} {s : State} (c : Ctl) (v : GI) (hs : sMarked n.toNat = true → s.k = 0)
    (hr : readOnly n.toNat = false) (hi : Issues c fPlain s = true) :
    exec (.wrs c n v) s = .next (s.finish c fPlain (.done (s.landAfter 1 (.s n (s.gi v)) 0))) := by
  refine exec_of_issues (fun _ => rfl) hi ?_
  have hp : (sMarked n.toNat && s.k != 0) = false := by
    cases hm : sMarked n.toNat with
    | false => rfl
    | true => simp [hs hm]
  simp only [hp, hr, Bool.false_eq_true, if_false]

/-- Settles O21, from what a WRS of `rmode` does when it lands. -/
theorem rmodeKeepsReservedModesOut : Obligations.RmodeKeepsReservedModesOut := by
  unfold Obligations.RmodeKeepsReservedModesOut
  refine ⟨rfl, fun c k v => ?_, fun s n k => ⟨?_, ?_⟩, fun c v s hi => ?_, rfl, rfl, rfl, rfl, rfl, rfl⟩
  · rw [Core.landS_rmode]
    by_cases h : bits v 2 0 ≤ 5
    · rw [if_pos h, if_neg (fun hr => (rmode_reserved_iff v).2 hr h), Core.ctx_updCtx_same]
      exact BitVec.setWidth_eq_extractLsb' (show 3 ≤ 64 by decide)
    · rw [if_neg h, if_pos ((rmode_reserved_iff v).1 h)]
  · rw [State.special_rmode]
    exact extractLsb'_high_setWidth _
  · rw [State.special_rmode]
    exact extractLsb'_low_setWidth _
  · exact wrs_completes c v (fun hm => absurd hm (by decide)) (by decide) hi

/-! ## NOP, RDS and WRS -/

/-- What the context form of a WRS asks of its own: S writes, no live end, and into a parked context (R407). -/
def wrsMay (s : State) (v : GI) (ctx : BitVec 4) : Prop :=
  s.k = 0 ∧ (s.me.ctx ctx.toNat).run = .parked ∧ (s.giReg v).isEnd = false

/-- The context form of a WRS of `tcause`, `tval` or `tip` writes that part of the parked context's record at once (R389). -/
theorem wrsContext_record {s : State} {n : BitVec 9} {x : TrapRec} (c : Ctl) (v : GI) (ctx : BitVec 4)
    (hn : n.toNat = 0x00D ∨ n.toNat = 0x00E ∨ n.toNat = 0x00F)
    (hx : (s.me.ctx ctx.toNat).trap.write n.toNat ((s.giReg v).bits.setWidth 64) = x) :
    CompletesAs (.wrsContext c (.s n) v ctx) c fPlain (wrsMay s v ctx)
      (s.updCtx s.core ctx.toNat fun y => { y with trap := x }) s := by
  refine completesAs_of_issue (fun _ => rfl) ?_
  rintro ⟨hk, hp, he⟩
  have h1 : n.toNat ≠ 0x010 := by omega
  have h2 : ¬(n.toNat = 0x004 ∨ n.toNat = 0x006) := by omega
  simp only [hk, ne_eq, not_true_eq_false, if_false, he, Bool.false_eq_true, hp, h1, h2]
  exact congrArg Eff.done (State.updCtx_congr (congrArg (fun r => { s.ctxAt s.core ctx.toNat with trap := r }) hx))

/-- Settles O22: each word's body, under the conditions of its clause, is the effect that the clause names. -/
theorem systemWordsComplete : Obligations.SystemWordsComplete := by
  unfold Obligations.SystemWordsComplete
  intro c d n r v ctx s
  refine ⟨?_, ?_, ?_, ?_, fun hk => ?_, fun g => ?_, ?_⟩
  · exact completesAs_of_issue (fun _ => rfl) fun _ => rfl
  · exact completesG_of_issue (fun _ => rfl) rfl
  · exact fun hi hok => wrs_completes c v hok.1 hok.2 hi
  · refine completesAs_of_issue (fun _ => rfl) fun hr => ?_
    have hm : sMarked n.toNat = false := by
      cases hm : sMarked n.toNat with
      | false => rfl
      | true => simp [readOnly, hm] at hr
    simp [hm, hr]
  · exact completesG_of_issue (fun _ => rfl) (by simp [hk])
  · refine completesAs_of_issue (fun _ => rfl) ?_
    rintro ⟨hk, hp, he, hd⟩
    simp [hk, hp, he, hd]
  · refine ⟨fun q => completesAs_of_issue (fun _ => rfl) ?_, fun m => completesAs_of_issue (fun _ => rfl) ?_,
      completesAs_of_issue (fun _ => rfl) ?_, completesAs_of_issue (fun _ => rfl) ?_,
      wrsContext_record c v ctx (.inl rfl) rfl, wrsContext_record c v ctx (.inr (.inl rfl)) rfl,
      wrsContext_record c v ctx (.inr (.inr rfl)) rfl, completesAs_of_issue (fun _ => rfl) ?_,
      completesAs_of_issue (fun _ => rfl) ?_, fun hi hk he => exec_traps (fun _ => rfl) hi (by simp [hk, he])⟩
    all_goals
      rintro ⟨hk, h, h'⟩
      simp [hk, h, h']

end Sys2Proof.Machine

namespace Sys2Proof.Machine

/-! ## The CTX class and the events of a process -/

theorem guard_of_issues {c : Ctl} {f : Form} {s : State} (h : Issues c f s = true) : s.guard c = true := by
  unfold Issues at h
  simp only [Bool.and_eq_true] at h
  obtain ⟨⟨⟨-, hg⟩, -⟩, -⟩ := h
  exact hg

theorem start_none {s : State} {c : Ctl} {qd : BitVec 3} {h : BitVec 6} {pc : W64} (hl : s.leak h = false)
    (hf : s.me.freeHelper = none) :
    start s c qd h pc = .done (s.landAll s.core s.k c.set [.q qd false, .g h (GReg.data 0)]) := by
  simp [start, hl, hf]

theorem start_some {s : State} {c : Ctl} {qd : BitVec 3} {h : BitVec 6} {pc : W64} {j : Nat} (hl : s.leak h = false)
    (hf : s.me.freeHelper = some j) :
    start s c qd h pc = .done ((((s.forgetPo s.core (leftOver (1 + j))).updCtx s.core (1 + j) fun x =>
      startedHelper s.cx x j pc s.cyc).joinPo s.core 1 (1 + j)).landAll
        s.core s.k c.set [.q qd true, .g h (GReg.data (BitVec.ofNat 64 j))]) := by
  simp [start, hl, hf]

/-- Both forms of START answer what `start` answers for their target, in C (R286, R287). -/
theorem startRelative_completes {s t : State} {c : Ctl} {qd : BitVec 3} {h : BitVec 6} {off : BitVec 32}
    (ht : s.leak h = false → start s c qd h (s.cx.pc + off.signExtend 64) = .done t) :
    CompletesAs (.startRelative c qd h off) c fLate (s.k = 1 ∧ s.leak h = false) t s := by
  refine completesAs_of_issue (fun _ => rfl) ?_
  rintro ⟨hk, hl⟩
  simp [hk, ht hl]

theorem startRegister_completes {s t : State} {c : Ctl} {qd : BitVec 3} {h r : BitVec 6} {a : W64}
    (ht : s.leak h = false → start s c qd h a = .done t) :
    CompletesAs (.startRegister c qd h r) c fLate ((s.k = 1 ∧ s.leak h = false) ∧ brTarget (s.gReg r) = .to a) t s := by
  refine completesAs_of_issue (fun _ => rfl) ?_
  rintro ⟨⟨hk, hl⟩, hb⟩
  simp [hk, hb, ht hl]

/-- YIELD is a NOP with its switch bit set (R285). -/
theorem yield_completes {s : State} {c : Ctl} (hi : Issues c fYield s = true) :
    exec (.yield c) s = .next (s.finish { c with sw := true } fYield (.done s)) := by
  have hg := guard_of_issues hi
  show issue (if s.guard c then { c with sw := true } else c) fYield s (fun s => .done s) = _
  rw [if_pos hg]
  exact issue_of_issues (c := { c with sw := true }) _ hi

/-- A step at a core that is there. -/
theorem exec_of_onCore {i : Instr} {n : Nat} {f : State → State} {s t : State} (hx : ∀ u, exec i u = onCore n u f)
    (hn : n < Config.coreCount) (ht : f s = t) : exec i s = .next t := by
  rw [hx, onCore_goesOn s f hn, ht]

theorem watchdogExpiry_takes {s : State} {n k : Nat} (hn : n < 4096) (hc : (s.coreAt n).cur = some k) (hk : k ≠ 0)
    (hw : (s.coreAt n).wdog.toNat ≤ (s.ctxAt n k).wd) (hr : (s.coreAt n).isReady k = true) :
    exec (.watchdogExpiry n) s =
      .next (s.takeTrap n k { cause := cWDOG, val := (s.coreAt n).wdog.setWidth 64 } (s.ctxAt n k).pc) := by
  refine exec_of_onCore (fun _ => rfl) hn ?_
  have hno : ¬(k = 0 ∨ ((s.coreAt n).ctx k).wd < (s.coreAt n).wdog.toNat ∨ (s.coreAt n).isReady k = false) := by
    rw [hr]
    rintro (h | h | h)
    · exact hk h
    · exact absurd hw (Nat.not_le.mpr h)
    · exact absurd h (by decide)
  simp only [hc, if_neg hno]
  rfl

theorem processExit_of_bound {s : State} {n : Nat} (hn : n < 4096) (hb : (s.coreAt n).bound = true) :
    exec (.processExit n) s = .next
      (if (s.coreAt n).proc.faultExit.isSome || (s.coreAt n).proc.forced then s.endAbnormal n
       else if ((s.coreAt n).ctx 1).run == .waiting .helpers then s.endNormal n else s) := by
  refine exec_of_onCore (fun _ => rfl) hn ?_
  simp only [hb, Bool.not_true, Bool.false_eq_true, if_false]

/-- C has issued HEXIT and its helpers are gone: the process ends once its core is quiet (R289). -/
theorem State.endNormal_of_alone {s : State} {n : Nat} (hs : (s.coreAt n).proc.stage = none)
    (hl : (s.coreAt n).helperLive = false) :
    s.endNormal n = if s.exitDrained n then s.endProcess n true else s.later (.processExit n) := by
  simp [State.endNormal, hs, hl]

/-- A process that is being ended by force or by a fault ends once its core is quiet (R391). -/
theorem State.endAbnormal_of_ending {s : State} {n : Nat} (hs : (s.coreAt n).proc.stage = none)
    (he : (s.coreAt n).proc.ending = true) :
    s.endAbnormal n = if (s.dropRefused n).exitDrained n then (s.dropRefused n).endProcess n false
      else (s.dropRefused n).later (.processExit n) := by
  cases hd : (s.dropRefused n).exitDrained n <;> simp [State.endAbnormal, hs, he, hd]

section
variable {s u : State} {n : Nat} (hn : n < 4096) (hb : (s.coreAt n).bound = true) (hs : (s.coreAt n).proc.started = false)
  (hf : (s.coreAt n).proc.faultExit = none) (hfo : (s.coreAt n).proc.forced = false)
include hn hb hs hf hfo

/-- The copies of a launch are made, and its process starts (R304). -/
theorem residencyFillComplete_starts (hst : (s.coreAt n).proc.stage = none)
    (hu : s.doFills n (s.coreAt n).dom (s.coreAt n).proc.fills = (u, none)) :
    exec (.residencyFillComplete n) s = .next ((u.updProc n fun p => { p with started := true, fills := [] }).updCtx n 1 fun x =>
      if x.run == .stopped then { x with run := .ready } else x) := by
  refine exec_of_onCore (fun _ => rfl) hn ?_
  simp [hb, hs, hf, hfo, hst, hu]

/-- A copy of a launch fails, and its process exits by a fault (R304). -/
theorem residencyFillComplete_fails {cause : BitVec 8}
    (hu : s.doFills n (s.coreAt n).dom (s.coreAt n).proc.fills = (u, some cause)) :
    exec (.residencyFillComplete n) s = .next (u.faultExit n cause) := by
  refine exec_of_onCore (fun _ => rfl) hn ?_
  simp [hb, hs, hf, hfo, hu]
end

/-- Settles O52, clause by clause: each word's body and each event's step under the clause's conditions. -/
theorem contextWordsComplete : Obligations.ContextWordsComplete := by
  unfold Obligations.ContextWordsComplete
  intro c qd h t d off a v n k s
  refine ⟨fun j hj => ⟨?_, ?_⟩, fun hf => ⟨?_, ?_⟩, ?_, ?_, ⟨?_, fun hi hb hk ho => ?_⟩, yield_completes, ?_, ?_, ?_, ?_, ?_⟩
  · exact startRelative_completes fun hl => start_some hl hj
  · exact startRegister_completes fun hl => start_some hl hj
  · exact startRelative_completes fun hl => start_none hl hf
  · exact startRegister_completes fun hl => start_none hl hf
  · refine completesAs_of_issue (fun _ => rfl) ?_
    rintro ⟨h1, h10, hd⟩
    have hin : ¬((s.gi v).toNat = 0 ∨ 10 < (s.gi v).toNat) := by omega
    simp only [if_neg hin, hd, if_true]
  · refine waitsAs_of_issue (fun _ => rfl) ?_
    rintro ⟨h1, h10, hd⟩
    have hin : ¬((s.gi v).toNat = 0 ∨ 10 < (s.gi v).toNat) := by omega
    simp only [if_neg hin, if_neg hd]
  · refine waitsAs_of_issue (fun _ => rfl) ?_
    rintro ⟨hb, hk⟩
    rw [hk] at hb
    simp [hk, hb]
  · refine exec_of_issues (fun _ => rfl) hi ?_
    have h0 : s.k ≠ 0 := by omega
    have h1 : s.k ≠ 1 := by omega
    simp [h0, h1, hb, ho]
  · refine completesAs_of_issue (fun _ => rfl) ?_
    rintro ⟨hl, hw⟩
    simp only [hl, Bool.false_eq_true, if_false, if_neg hw]
  · refine waitsAs_of_issue (fun _ => rfl) ?_
    rintro ⟨hl, hw⟩
    simp only [hl, Bool.false_eq_true, if_false, if_pos hw]
  · exact watchdogExpiry_takes
  · intro hn hb hs
    refine ⟨fun hf hfo hw hl => ?_, fun hx he => ?_⟩
    · rw [processExit_of_bound hn hb, hf, hfo]
      have hrun : ((s.coreAt n).ctx 1).run = .waiting .helpers := hw
      simp [hrun, State.endNormal_of_alone hs hl]
    · rw [processExit_of_bound hn hb, if_pos (by simpa using hx), State.endAbnormal_of_ending hs he]
  · intro hn hb hs hf hfo hst u
    exact ⟨residencyFillComplete_starts hn hb hs hf hfo hst, fun cause => residencyFillComplete_fails hn hb hs hf hfo⟩

end Sys2Proof.Machine

namespace Sys2Proof.Machine

/-! ## The processes of the cores

Most operations of the machine leave the process bound to each core as it is: they change registers, queues, memory, records.
`State.procOf` is what they keep. -/

/-- The process bound to each core. -/
def State.procOf (s : State) (n : Nat) : Proc := (s.coreAt n).proc

theorem State.procOf_of_cores {s t : State} (h : t.cores = s.cores) : t.procOf = s.procOf := by
  funext n
  simp only [State.procOf, State.coreAt, h]

/-- What an update of one core keeps of it, every core keeps. -/
theorem State.coreAt_updCore_keeps {α : Type} (p : Core → α) {s : State} {n : Nat} {f : Core → Core}
    (h : p (f (s.coreAt n)) = p (s.coreAt n)) (m : Nat) : p ((s.updCore n f).coreAt m) = p (s.coreAt m) := by
  by_cases hm : m = n
  · rw [hm, State.coreAt_updCore_same, h]
  · rw [State.coreAt_updCore_ne s f hm]

theorem State.procOf_updCore {s : State} {n : Nat} {f : Core → Core} (h : (f (s.coreAt n)).proc = (s.coreAt n).proc) :
    (s.updCore n f).procOf = s.procOf :=
  funext (State.coreAt_updCore_keeps Core.proc h)

/-- A map that keeps every key keeps what it keeps of each value. -/
theorem Tab.find_map {α β : Type} {g : Nat × α → Nat × α} {f : α → β} (hg : ∀ p, (g p).1 = p.1) (hf : ∀ p, f (g p).2 = f p.2)
    (t : Tab α) (k : Nat) : (Tab.find (t.map g) k).map f = (Tab.find t k).map f := by
  induction t with
  | nil => rfl
  | cons p r ih =>
    obtain ⟨a, v⟩ := p
    have hk : (g (a, v)).1 = a := hg (a, v)
    rw [List.map_cons, Tab.find, hk, Tab.find]
    split
    · exact congrArg some (hf (a, v))
    · exact ih

theorem State.procOf_mapCores (s : State) {g : Nat × Core → Nat × Core} (hk : ∀ p, (g p).1 = p.1)
    (hp : ∀ p, (g p).2.proc = p.2.proc) : ({ s with cores := s.cores.map g } : State).procOf = s.procOf := by
  have hget : ∀ (t : Tab Core) (n : Nat), (Tab.get Core.init t n).proc = ((Tab.find t n).map Core.proc).getD Core.init.proc := by
    intro t n
    unfold Tab.get
    cases Tab.find t n <;> rfl
  funext n
  simp only [State.procOf, State.coreAt, hget, Tab.find_map hk hp]

/-! ### Contexts and scheduling -/

@[simp] theorem State.updCtx_procOf (s : State) (n k : Nat) (f : Ctx → Ctx) : (s.updCtx n k f).procOf = s.procOf :=
  State.procOf_updCore rfl
@[simp] theorem State.updGang_procOf (s : State) (g : Nat) (f : Gang → Gang) : (s.updGang g f).procOf = s.procOf :=
  State.procOf_of_cores (State.updGang_cores s g f)
@[simp] theorem State.updDomain_procOf (s : State) (d : BitVec 11) (f : Domain → Domain) : (s.updDomain d f).procOf = s.procOf := rfl
@[simp] theorem State.updArbor_procOf (s : State) (a : Nat) (f : Arbor → Arbor) : (s.updArbor a f).procOf = s.procOf := rfl
@[simp] theorem State.now_procOf (s : State) (i : Instr) : (s.now i).procOf = s.procOf := rfl
@[simp] theorem State.later_procOf (s : State) (i : Instr) : (s.later i).procOf = s.procOf := rfl
@[simp] theorem State.flow_procOf (s : State) (a b : Who) : (s.flow a b).procOf = s.procOf := by
  unfold State.flow
  split <;> rfl
@[simp] theorem State.joinPo_procOf (s : State) (n k j : Nat) : (s.joinPo n k j).procOf = s.procOf :=
  (State.flow_procOf _ _ _).trans
    (State.procOf_updCore (f := fun c => { c with storeq := c.storeq.map fun o => { o with po := joined k j o.po } }) rfl)

@[simp] theorem Core.runNext_proc (c : Core) : c.runNext.proc = c.proc := by
  unfold Core.runNext
  split <;> rfl
@[simp] theorem Core.countEvent_proc (d : Domain) (code by_ : Nat) (c : Core) : (c.countEvent d code by_).proc = c.proc := by
  unfold Core.countEvent
  split
  · rfl
  · refine foldl_keeps Core.proc _ (fun c j => ?_) _ _
    split <;> rfl
@[simp] theorem State.count_procOf (s : State) (n code : Nat) : (s.count n code).procOf = s.procOf := by
  unfold State.count
  dsimp only
  split
  · split
    · rfl
    · refine (foldl_keeps State.procOf (fun (s : State) j => s.now (.hardwareCounterWrap n (BitVec.ofNat 3 j)))
        (fun _ _ => rfl) _ _).trans ?_
      exact State.procOf_updCore (f := fun c => c.countEvent _ code 1) (Core.countEvent_proc _ _ _ _)
  · rfl
@[simp] theorem State.switch_procOf (s : State) (n : Nat) : (s.switch n).procOf = s.procOf := by
  have h : (s.updCore n Core.runNext).procOf = s.procOf := State.procOf_updCore (Core.runNext_proc _)
  unfold State.switch
  dsimp only
  split
  · exact h
  · rw [State.count_procOf, h]

theorem Core.landOne_proc {c : Core} {l : Landing} (h : l.res.isS = false) : (c.landOne l).proc = c.proc := by
  obtain ⟨ctxs, hc⟩ := Core.landOne_eq (c := c) h
  rw [hc]
@[simp] theorem State.landEvent_procOf (s : State) (n k t : Nat) (d : BitVec 6) (set : BitVec 2) (w : W64) :
    (s.landEvent n k t d set w).procOf = s.procOf := by
  unfold State.landEvent
  dsimp only
  generalize (if Config.freeBit s.fresh then t else t + 1) = due
  refine State.procOf_updCore (s := { s with fresh := s.fresh + 1 }) ?_
  split
  · refine Core.landOne_proc ?_
    rfl
  · rfl
@[simp] theorem State.goNext_procOf (s : State) (n k : Nat) : (s.goNext n k).procOf = s.procOf := by
  rw [State.goNext, State.updCtx_procOf]
@[simp] theorem State.wakeOne_procOf (s : State) (n k : Nat) : (s.wakeOne n k).procOf = s.procOf := by
  unfold State.wakeOne
  generalize (s.ctxAt n k).run = r
  cases r with
  | waiting w =>
    cases w with
    | event mask d set => simp [apply_ite State.procOf]
    | start =>
      have hf : ({ s with fresh := s.fresh + 1 } : State).procOf = s.procOf := rfl
      simp [apply_ite State.procOf, hf]
    | _ => rfl
  | _ => rfl
@[simp] theorem State.raise_procOf (s : State) (n : Nat) (e : W32) : (s.raise n e).procOf = s.procOf :=
  (foldl_keeps State.procOf (fun (s : State) k => s.wakeOne n k) (fun _ _ => State.wakeOne_procOf _ _ _) _ _).trans
    (State.procOf_updCore rfl)
@[simp] theorem State.park_procOf (s : State) (n k : Nat) (t : Trap) (ip : W64) : (s.park n k t ip).procOf = s.procOf := by
  simp only [State.park, apply_ite State.procOf, State.switch_procOf, State.raise_procOf, State.updCtx_procOf, State.joinPo_procOf,
    ite_self]
@[simp] theorem State.takeEvent_procOf (s : State) (n k : Nat) : (s.takeEvent n k).procOf = s.procOf := by
  unfold State.takeEvent
  split <;> simp
@[simp] theorem State.resume_procOf (s : State) (n k : Nat) : (s.resume n k).procOf = s.procOf := by simp [State.resume]

/-! ### Memory and the trace -/

@[simp] theorem State.emit_procOf (s : State) (p : Nat) (o : Out) : (s.emit p o).procOf = s.procOf := by
  unfold State.emit
  split <;> rfl
@[simp] theorem State.depart_procOf (s : State) (p : Nat) (d : Option (BitVec 11)) (o : Out) : (s.depart p d o).procOf = s.procOf :=
  State.emit_procOf _ _ _
@[simp] theorem State.askPeer_procOf (s : State) (key : Nat) (d : BitVec 12) (o : Out) : (s.askPeer key d o).procOf = s.procOf :=
  State.emit_procOf _ _ _
@[simp] theorem State.lineOut_procOf (s : State) (l : HostLine) (o : Out) : (s.lineOut l o).procOf = s.procOf := by
  unfold State.lineOut
  split
  · exact State.emit_procOf _ _ _
  · rfl
@[simp] theorem State.backInvalidate_procOf (s : State) (l : Nat) : (s.backInvalidate l).procOf = s.procOf := by
  unfold State.backInvalidate
  split
  · exact State.emit_procOf _ _ _
  · rfl
@[simp] theorem State.dropLine_procOf (s : State) (h : BitVec 12) (l : Nat) : (s.dropLine h l).procOf = s.procOf := rfl
@[simp] theorem State.putLine_procOf (s : State) (l : HostLine) : (s.putLine l).procOf = s.procOf := rfl
@[simp] theorem State.noteCode_procOf (s : State) (p : Place) : (s.noteCode p).procOf = s.procOf := by
  unfold State.noteCode
  dsimp only
  split
  · exact State.procOf_mapCores s (fun _ => rfl) fun _ => rfl
  · rfl
@[simp] theorem State.readPast_procOf (s : State) (p : Place) (n : Nat) (w : Who) : (s.readPast p n w).procOf = s.procOf := by
  unfold State.readPast
  split
  · rfl
  · exact foldl_keeps State.procOf (fun (s : State) i => s.flow (.byte (p.move i)) w) (fun _ _ => State.flow_procOf _ _ _) _ _
@[simp] theorem State.aoEvent_procOf (s : State) (p : Place) (n : Nat) (l : List Nat) : (s.aoEvent p n l).procOf = s.procOf := by
  unfold State.aoEvent
  split
  · rfl
  · dsimp only
    refine foldl_keeps State.procOf _ (fun _ _ => ?_) _ _
    rfl
@[simp] theorem State.aoRead_procOf (s : State) (p : Place) (n : Nat) (w : Who) : (s.aoRead p n w).procOf = s.procOf := by
  unfold State.aoRead
  dsimp only
  rw [State.aoEvent_procOf]
  split
  · simp
  · rw [foldl_keeps State.procOf (fun (t : State) i => t.flow (.atom (p.move i)) w) (fun _ _ => State.flow_procOf _ _ _),
      State.readPast_procOf]
@[simp] theorem State.endWait_procOf (s : State) (w : SyncWait) (v : W64) : (s.endWait w v).procOf = s.procOf :=
  (State.updCtx_procOf _ _ _ _).trans (State.aoRead_procOf _ _ _ _)
@[simp] theorem State.wake_procOf (s : State) (pa n : Nat) : (s.wake pa n).procOf = s.procOf := by
  unfold State.wake
  refine foldl_keeps State.procOf _ (fun t w => ?_) _ _
  dsimp only
  split
  · rfl
  · split
    · exact State.endWait_procOf _ _ _
    · split
      · split
        · exact State.endWait_procOf _ _ _
        · rfl
      · rfl
@[simp] theorem State.makeRoom_procOf (s : State) (a : Nat) : (s.makeRoom a).procOf = s.procOf := by
  unfold State.makeRoom
  dsimp only
  split
  · rfl
  · split
    · rfl
    · exact State.lineOut_procOf _ _ _
@[simp] theorem State.getLine_procOf (s : State) (key : Nat) (h : BitVec 12) (l : Nat) (own : Bool) :
    (s.getLine key h l own).2.procOf = s.procOf := by
  unfold State.getLine
  split
  · rfl
  · exact State.makeRoom_procOf s _
@[simp] theorem State.writePlace_procOf (s : State) (key : Nat) (p : Place) (n v : Nat) (tag : Bool)
    (home : Option (Nat × List Nat)) : (s.writePlace key p n v tag home).procOf = s.procOf := by
  cases p with
  | peer d pa => simp [State.writePlace]
  | host hs pa => simp [State.writePlace]
  | hbm pa =>
    simp only [State.writePlace, State.wake_procOf, State.noteCode_procOf]
    split <;> rfl
@[simp] theorem State.recall_procOf (s : State) (line : Nat) : (s.recall line).procOf = s.procOf := by
  unfold State.recall
  split
  · rfl
  · have hasked : ∀ t : State, t.procOf = s.procOf →
        (if s.backInv.contains line then t else t.backInvalidate line).procOf = s.procOf := by
      intro t ht
      split
      · exact ht
      · exact (State.backInvalidate_procOf t line).trans ht
    dsimp only
    split
    · exact (foldl_keeps State.procOf _ (fun t i => State.writePlace_procOf t _ _ _ _ _ _) _ _).trans (hasked _ rfl)
    · exact hasked _ rfl
@[simp] theorem State.touch_procOf (s : State) (key : Nat) (p : Place) : (s.touch key p).procOf = s.procOf := by
  cases p <;> simp [State.touch]
@[simp] theorem State.look_procOf (s : State) (key : Nat) (p : Place) (n : Nat) : (s.look key p n).procOf = s.procOf := by
  cases p <;> simp [State.look]
@[simp] theorem State.walkTouch_procOf (n : Nat) (s : State) (view : State → State) (key va : Nat) (top : W64) (table : Nat) :
    (s.walkTouch view key va top table n).procOf = s.procOf := by
  induction n generalizing s top table with
  | zero =>
    unfold State.walkTouch
    split <;> simp
  | succ n ih =>
    unfold State.walkTouch
    split
    · rfl
    · next p _ =>
      have ht := State.look_procOf s key p 8
      revert ht
      generalize s.look key p 8 = u
      intro ht
      dsimp only
      cases (view u).entry key .read va 1 top table (n + 1) with
      | next e frame => exact (ih u e frame).trans ht
      | bad _ | page _ => exact ht
@[simp] theorem State.walkReady_procOf (s : State) (d : BitVec 11) (va : Nat) : (s.walkReady d va).procOf = s.procOf := by
  unfold State.walkReady State.walkReadyBy
  split <;> simp
@[simp] theorem State.vwriteUnits_procOf (l : List (Nat × List Byte)) (s : State) (d : BitVec 11) (e : Nat) :
    (s.vwriteUnits d e l).1.procOf = s.procOf := by
  induction l generalizing s with
  | nil => rfl
  | cons u r ih =>
    simp only [State.vwriteUnits]
    split
    · exact State.walkReady_procOf _ _ _
    · rw [ih]
      simp
@[simp] theorem State.vwrite_procOf (s : State) (d : BitVec 11) (va : Nat) (l : List Byte) : (s.vwrite d va l).1.procOf = s.procOf :=
  State.vwriteUnits_procOf _ _ _ _
@[simp] theorem State.traceHead_procOf (s : State) (d : BitVec 11) : (s.traceHead d).procOf = s.procOf := by
  unfold State.traceHead
  dsimp only
  split <;> simp
@[simp] theorem State.traceDrop_procOf (s : State) (d : BitVec 11) : (s.traceDrop d).procOf = s.procOf := by
  simp [State.traceDrop]
@[simp] theorem State.trace_procOf (s : State) (d : BitVec 11) (r : List Byte) : (s.trace d r).procOf = s.procOf := by
  unfold State.trace
  dsimp only
  generalize (if (s.domainAt d).traceMode = 0 ∧ (s.domainAt d).traceLen.toNat < (s.domainAt d).traceAt.toNat + 64 then 64
    else (s.domainAt d).traceAt.toNat) = at_
  split
  · rfl
  · split
    · exact State.traceDrop_procOf _ _
    · split
      · simp
      · split <;> simp

/-! ### Stops -/

@[simp] theorem State.disown_procOf (s : State) (n a : Nat) : (s.disown n a).procOf = s.procOf := State.procOf_updCore rfl
@[simp] theorem State.withdraw_procOf (s : State) (n k : Nat) : (s.withdraw n k).procOf = s.procOf := by
  unfold State.withdraw
  dsimp only
  split <;> simp

/-- A context that stops waiting withdraws nothing of its process but an arrival at a barrier. -/
theorem State.unwait_procOf {s : State} {n k : Nat} (h : ∀ x, (s.ctxAt n k).run ≠ .waiting (.barrier x)) :
    (s.unwait n k).procOf = s.procOf := by
  unfold State.unwait
  dsimp only
  split
  case h_1 w hw =>
    cases w with
    | barrier x => exact absurd hw (h x)
    | result id =>
      dsimp only
      split
      · exact (State.updCtx_procOf _ _ _ _).trans ((State.procOf_updCore rfl).trans (State.updCtx_procOf _ _ _ _))
      · exact (State.updCtx_procOf _ _ _ _).trans (State.updCtx_procOf _ _ _ _)
      · exact State.updCtx_procOf _ _ _ _
    | start => rfl
    | sync id =>
      dsimp only
      split
      · exact (State.updCtx_procOf _ _ _ _).trans (State.updCtx_procOf _ _ _ _)
      · exact State.updCtx_procOf _ _ _ _
    | gangIssue =>
      dsimp only
      split <;> simp
    | recv | select | jobs | preds | helper | helpers | event => simp [Wait.counted]
  all_goals rfl

@[simp] theorem State.abandonRefs_procOf (s : State) (n : Nat) (who : Nat → Bool) : (s.abandonRefs n who).procOf = s.procOf := by
  refine foldl_keeps State.procOf _ (fun t k => ?_) _ _
  split
  case h_1 id hr =>
    split
    · rw [State.takeEvent_procOf, State.unwait_procOf]
      intro x hx
      rw [hr] at hx
      exact absurd hx (by simp)
    · rfl
  all_goals rfl

end Sys2Proof.Machine

namespace Sys2Proof.Machine

/-! ## Barriers -/

/-! ### What a release gives to a process -/

/-- What the barrier network keeps of a process: its pending arrival, the flags of the last barrier, its phase and superstep. -/
def Proc.phase (p : Proc) : Option (Nat × Bool) × Flags × Bool × W64 := (p.arrived, p.bflags, p.exchange, p.superstep)

def State.phases (s : State) (n : Nat) : Option (Nat × Bool) × Flags × Bool × W64 := (s.procOf n).phase

theorem State.phases_of_procOf {s t : State} (h : t.procOf = s.procOf) : t.phases = s.phases := by
  funext n
  simp only [State.phases, h]

theorem State.phases_updCore {s : State} {n : Nat} {f : Core → Core} (h : (f (s.coreAt n)).proc.phase = (s.coreAt n).proc.phase) :
    (s.updCore n f).phases = s.phases :=
  funext (State.coreAt_updCore_keeps (fun c => c.proc.phase) h)

theorem Proc.released_phase (p : Proc) (x : Bool) (fl : Flags) (imb : W128) (cyc : Nat) :
    (p.released x fl imb cyc).phase = (none, fl, !x, if x then p.superstep + 1 else p.superstep) := by
  cases x <;> rfl

/-- An update of the processes of distinct cores changes each once. -/
theorem State.procOf_foldl_updProc {l : List Nat} (f : Proc → Proc) (s : State) (hl : l.Nodup) (n : Nat) :
    (l.foldl (fun t m => t.updProc m f) s).procOf n = if n ∈ l then f (s.procOf n) else s.procOf n := by
  induction l generalizing s with
  | nil => rfl
  | cons m r ih =>
    obtain ⟨hm, hr⟩ := List.nodup_cons.1 hl
    rw [List.foldl_cons, ih _ hr]
    by_cases hn : n = m
    · subst hn
      have hp : (s.updProc n f).procOf n = f (s.procOf n) := congrArg Core.proc (State.coreAt_updCore_same s n _)
      rw [if_neg hm, if_pos List.mem_cons_self, hp]
    · have hp : (s.updProc m f).procOf n = s.procOf n := congrArg Core.proc (State.coreAt_updCore_ne s _ hn)
      simp only [hp, List.mem_cons, hn, false_or]

/-! ### A stop of the gang leaves the phases -/

theorem State.haltCore_phases (s : State) (n : Nat) : (s.haltCore n).phases = s.phases := by
  unfold State.haltCore
  dsimp only
  split
  · rfl
  · rw [State.phases_of_procOf (State.trace_procOf _ _ _), State.phases_of_procOf (State.abandonRefs_procOf _ _ _),
      State.phases_of_procOf (foldl_keeps State.procOf _ (fun t k => ?_) _ _)]
    · refine State.phases_updCore ?_
      split
      · rfl
      · rw [Core.runNext_proc]
        rfl
    · split
      · next h =>
        refine State.unwait_procOf fun x hx => ?_
        rw [hx] at h
        simp at h
      · rfl

theorem State.haltGang_phases (s : State) (g : Nat) : (s.haltGang g).phases = s.phases :=
  (State.phases_of_procOf (State.updGang_procOf _ _ _)).trans (foldl_keeps State.phases _ State.haltCore_phases _ _)

@[simp] theorem State.leaveBarrier_procOf (s : State) (n : Nat) : (s.leaveBarrier n).procOf = s.procOf := by
  unfold State.leaveBarrier
  split
  · dsimp only
    split <;> simp
  all_goals rfl

/-- A release gives every process of the barrier the OR of the flags and its next phase (R33, R115, R294). -/
theorem State.releaseBarrier_phases {s : State} {id : Nat} (g : Gang) (x : Bool) (hl : (s.barrierCores id).Nodup) {n : Nat}
    (hn : n ∈ s.barrierCores id) :
    (s.releaseBarrier id g x).phases n =
      (none, (s.barrierCores id).foldl (fun f n => f ||| (s.coreAt n).proc.contrib) 0, !x,
        if x then (s.coreAt n).proc.superstep + 1 else (s.coreAt n).proc.superstep) := by
  have hstop : ∀ t : State, (if x && g.stopReq then (t.updGang id fun y => { y with stopReq := false }).haltGang id else t).phases
      = t.phases := by
    intro t
    split
    · rw [State.haltGang_phases, State.phases_of_procOf (State.updGang_procOf _ _ _)]
    · rfl
  have htrace : ∀ (t : State) (l : List Byte), (if x then t else t.trace g.domain l).procOf = t.procOf := by
    intro t l
    split
    · rfl
    · exact State.trace_procOf _ _ _
  have hflow : ∀ (l : List Who), (l.foldl (fun t a => l.foldl (fun t b => t.flow a b) t) s).procOf = s.procOf := fun l =>
    foldl_keeps State.procOf _ (fun t a => foldl_keeps State.procOf _ (fun t b => State.flow_procOf t a b) l t) l s
  unfold State.releaseBarrier
  dsimp only
  rw [hstop, State.phases_of_procOf (foldl_keeps State.procOf _ State.leaveBarrier_procOf _ _), State.phases_of_procOf (htrace _ _),
    State.phases_of_procOf (State.updGang_procOf _ _ _), State.phases, State.procOf_foldl_updProc _ _ hl, if_pos hn, hflow,
    Proc.released_phase]
  rfl

end Sys2Proof.Machine

namespace Sys2Proof.Machine

/-! ### Arrivals -/

/-- C has arrived: its dirty lines reach their engine points, and its process shows the arrival and its flags (R115, R293). -/
def State.arrive (s : State) (xend : Bool) : State :=
  (s.engineCtx s.core 1).updProc s.core fun q => { q with arrived := some (s.cyc, xend), contrib := s.me.contribution }

/-- C may arrive at a barrier of this kind now (R33, R293). -/
def State.mayArrive (s : State) (xend : Bool) : Prop :=
  s.me.proc.stage = none ∧ s.k = 1 ∧ s.arrivalReady s.core = true ∧
    ∀ g, s.myGang = some g → g.h.planned = true → s.me.proc.exchange = xend

/-- What an arrival comes to, in the state with the arrival: GANGMIS where the arrivals are of two kinds, else a wait (R293). -/
def arrivalEff (xend : Bool) (g : Nat) (t : State) : Eff :=
  if t.barrierKind g = some false then .trapIn (t.barrierMiss (t.barrierCores g)) cGANGMIS 8
  else .wait (.barrier xend) (t.checkBarrier g)

theorem barrier_of_mayArrive {s : State} {xend : Bool} (h : s.mayArrive xend) :
    barrier s xend = arrivalEff xend s.me.proc.gang (s.arrive xend) := by
  obtain ⟨hst, hc, hr, hp⟩ := h
  unfold barrier
  dsimp only
  rw [hst, if_neg (by simp), if_neg (by simp [hc]), hr, if_neg, if_neg (by simp)]
  · unfold arrivalEff State.arrive
    split
    · next hk => exact (if_pos hk).symm
    · next hk => exact (if_neg (by simp [hk])).symm
    · next hk => exact (if_neg (by simp [hk])).symm
  · cases hg : s.myGang with
    | none => simp
    | some g =>
      cases hpl : g.h.planned with
      | false => simp [hpl]
      | true => simp [hpl, hp g hg hpl]

/-! ### The release -/

section
variable {s : State} {id : Nat} {g : Gang} (hg : s.gangAt id = some g) (hk : s.barrierKind id = some true)
include hg hk

theorem barrierRelease_waits
    (h : ((s.domainAt g.domain).holds.any fun h => h.1 == id) = true ∨
      ((s.barrierCores id).any fun n => (s.coreAt n).proc.arrived.any fun a => a.2) = true ∧ s.exchangeQuiet id = false) :
    exec (.barrierRelease id) s = .next (s.atCycle (s.cyc + 1) (.barrierRelease id)) := by
  show execBarrierRelease id s = _
  simp only [execBarrierRelease, hg, hk]
  refine if_pos ?_
  rcases h with h | ⟨hx, hq⟩
  · rw [h, Bool.true_or]
  · rw [hx, hq, Bool.not_false, Bool.and_self, Bool.or_true]

theorem barrierRelease_releases (hh : ((s.domainAt g.domain).holds.any fun h => h.1 == id) = false)
    (hq : ((s.barrierCores id).any fun n => (s.coreAt n).proc.arrived.any fun a => a.2) = true → s.exchangeQuiet id = true) :
    exec (.barrierRelease id) s = .next
      (s.releaseBarrier id g ((s.barrierCores id).any fun n => (s.coreAt n).proc.arrived.any fun a => a.2)) := by
  show execBarrierRelease id s = _
  simp only [execBarrierRelease, hg, hk]
  refine if_neg ?_
  rw [hh, Bool.false_or, Bool.and_eq_true, Bool.not_eq_true']
  rintro ⟨hx, hn⟩
  rw [hq hx] at hn
  exact absurd hn (by decide)
end

/-! ### XCAST -/

@[simp] theorem State.coreAt_atCycle (s : State) (t : Nat) (i : Instr) (n : Nat) : (s.atCycle t i).coreAt n = s.coreAt n := rfl

/-- Reading a local store takes draws and changes nothing else. -/
theorem State.lsRead_state (s : State) (core a n : Nat) : ∃ f, (s.lsRead core a n).2 = { s with fresh := f } := by
  induction n generalizing s a with
  | zero => exact ⟨s.fresh, rfl⟩
  | succ n ih =>
    unfold State.lsRead
    dsimp only
    split
    · exact ih s (a + 1)
    · exact ih { s with fresh := s.fresh + 1 } (a + 1)

/-- One byte of a transfer into a local store; none keeps a byte stored meanwhile (R144). -/
def landByte (dest : Nat) (ls : Tab Byte) (b : Option Byte × Nat) : Tab Byte :=
  match b.1 with
  | some v => Tab.set 0 ls (dest + b.2) v
  | none => ls

theorem landByte_get_ne {dest a : Nat} {o : Option Byte} {k : Nat} (ls : Tab Byte) (h : ∀ b, o = some b → a ≠ dest + k) :
    Tab.get 0 (landByte dest ls (o, k)) a = Tab.get 0 ls a := by
  cases o with
  | none => rfl
  | some b => exact Tab.get_set_ne 0 ls b (h b rfl)

/-- Where no byte of a transfer goes, the local store stays. -/
theorem get_landBytes_ne {dest a : Nat} (bs : List (Option Byte)) (k : Nat) (ls : Tab Byte)
    (h : ∀ i b, bs[i]? = some (some b) → a ≠ dest + (k + i)) :
    Tab.get 0 ((bs.zip (List.range' k bs.length)).foldl (landByte dest) ls) a = Tab.get 0 ls a := by
  induction bs generalizing k ls with
  | nil => rfl
  | cons o r ih =>
    rw [List.length_cons, List.range'_succ, List.zip_cons_cons, List.foldl_cons, ih (k + 1), landByte_get_ne]
    · rintro b rfl
      exact h 0 b rfl
    · intro i b hb
      have := h (i + 1) b hb
      omega

/-- Every byte of a transfer stands where it was sent. -/
theorem get_landBytes_same {dest i : Nat} {b : Byte} (bs : List (Option Byte)) (k : Nat) (ls : Tab Byte)
    (h : bs[i]? = some (some b)) :
    Tab.get 0 ((bs.zip (List.range' k bs.length)).foldl (landByte dest) ls) (dest + (k + i)) = b := by
  induction bs generalizing k ls i with
  | nil => exact absurd h (by simp)
  | cons o r ih =>
    rw [List.length_cons, List.range'_succ, List.zip_cons_cons, List.foldl_cons]
    cases i with
    | zero =>
      obtain rfl : o = some b := by simpa using h
      rw [get_landBytes_ne r (k + 1)]
      · exact Tab.get_set_same 0 ls (dest + k) b
      · intro i b' _
        omega
    | succ i =>
      have := ih (k + 1) (landByte dest ls (o, k)) (i := i) h
      rwa [show k + 1 + i = k + (i + 1) by omega] at this

/-- The end of a transfer (R295, R296): it is pending no more, and its bytes land. -/
theorem xcastTransferComplete_eq {s : State} {id m : Nat} {r : Core} {x : XPend}
    (hm : (s.cores.find? fun q => q.2.xpend.any fun x => x.id == id) = some (m, r))
    (hx : (r.xpend.find? fun x => x.id == id) = some x) :
    exec (.xcastTransferComplete id) s = .next (s.updCore m fun c =>
      { c with xpend := c.xpend.filter fun y => y.id != id
               ls := (x.bytes.zip (List.range' 0 x.bytes.length)).foldl (landByte x.dest) c.ls }) := by
  show execXcastTransferComplete id s = _
  unfold execXcastTransferComplete
  rw [hm]
  dsimp only
  rw [hx, ← List.range_eq_range']
  rfl

/-- The transfer that an XCAST sends, while its source is read (R295). -/
def State.xcastSend (s : State) (role a len dest : Nat) : XSend :=
  { id := s.ids, role := role, dest := dest, bytes := (s.lsRead s.core a len).1, addr := a, readUntil := s.cyc + len / 16 }

/-- The source of an XCAST is read, and its core sends. -/
def State.xcastRead (s : State) (role a len dest : Nat) : State :=
  ({ (s.lsRead s.core a len).2 with ids := s.ids + 1 } : State).updMe fun c => { c with xsend := some (s.xcastSend role a len dest) }

/-- The transfer as it is pending at the core of its role. -/
def State.xcastPend (s : State) (role a len dest : Nat) : XPend :=
  { id := s.ids, dest := dest, bytes := (s.xcastSend role a len dest).bytes.map some }

/-- When the last byte of a transfer of `len` bytes to core `m` lands, with transfers pending there already in state `t`. -/
def xcastDue (s t : State) (g : Gang) (m len : Nat) : Nat :=
  let others := ((t.coreAt m).xpend.map fun y => y.bytes.length / 16).foldl (fun a b => a + b) 0
  if g.h.planned then
    s.cyc + xcastTime s.core m + len / 16 + (if others = 0 then 0 else Config.freeDelay t.fresh % (others + 1))
  else s.cyc + 1 + Config.freeDelay t.fresh

theorem xcastDue_planned {s t : State} {g : Gang} {m : Nat} (len : Nat) (hp : g.h.planned = true) (hx : (t.coreAt m).xpend = []) :
    xcastDue s t g m len = s.cyc + xcastTime s.core m + len / 16 := by
  simp [xcastDue, hp, hx]

section
variable (s : State) (role a len dest : Nat)

theorem State.xcastRead_xsend :
    ((s.xcastRead role a len dest).coreAt s.core).xsend = some (s.xcastSend role a len dest) := by
  obtain ⟨f, hf⟩ := s.lsRead_state s.core a len
  rw [State.xcastRead, hf]
  exact congrArg Core.xsend (State.coreAt_updCore_same _ _ _)

theorem State.xcastRead_xpend (n : Nat) : ((s.xcastRead role a len dest).coreAt n).xpend = (s.coreAt n).xpend := by
  obtain ⟨f, hf⟩ := s.lsRead_state s.core a len
  rw [State.xcastRead, hf, State.updMe, State.coreAt_updCore_keeps Core.xpend]
  · rfl
  · rfl
end

section
variable {s : State} {g : Gang} {role m : Nat} (a len dest : Nat) (hm : Tab.find g.bound role = some m)
  (he : g.exited.contains role = false)
include hm he

/-- XCAST to a live role: its units are pending at the core of the role, and land together (R295, R296). -/
theorem sendUnits_live :
    s.sendUnits g role a len dest =
      (({ s.xcastRead role a len dest with fresh := (s.xcastRead role a len dest).fresh + 1 } : State).updCore m fun c =>
        { c with xpend := c.xpend ++ [s.xcastPend role a len dest] }).atCycle
          (xcastDue s (s.xcastRead role a len dest) g m len) (.xcastTransferComplete s.ids) := by
  obtain ⟨f, hf⟩ := s.lsRead_state s.core a len
  have hids : (s.lsRead s.core a len).2.ids = s.ids := by rw [hf]
  unfold State.sendUnits
  rw [hm]
  dsimp only
  rw [if_neg (by rw [he]; decide), hids]
  rfl

theorem sendUnits_xsend :
    (((s.sendUnits g role a len dest).coreAt s.core).xsend.map fun x => x.readUntil) = some (s.cyc + len / 16) := by
  rw [sendUnits_live a len dest hm he, State.coreAt_atCycle, State.coreAt_updCore_keeps Core.xsend rfl]
  exact congrArg (Option.map fun x => x.readUntil) (s.xcastRead_xsend role a len dest)

theorem sendUnits_xpend :
    ∃ y ∈ ((s.sendUnits g role a len dest).coreAt m).xpend, y.dest = dest ∧ y.bytes = (s.lsRead s.core a len).1.map some ∧
      (g.h.planned = true → (s.coreAt m).xpend = [] →
        (s.cyc + xcastTime s.core m + len / 16, .xcastTransferComplete y.id) ∈ (s.sendUnits g role a len dest).calendar) := by
  rw [sendUnits_live a len dest hm he, State.coreAt_atCycle, State.coreAt_updCore_same]
  refine ⟨s.xcastPend role a len dest, List.mem_append_right _ List.mem_cons_self, rfl, rfl, fun hp hx => ?_⟩
  have hd : xcastDue s (s.xcastRead role a len dest) g m len = s.cyc + xcastTime s.core m + len / 16 :=
    xcastDue_planned len hp ((s.xcastRead_xpend role a len dest m).trans hx)
  rw [hd]
  exact List.mem_cons_self
end

/-- XCAST at its planned cycle, or in a gang that plans nothing, sends its units (R53, R295). -/
theorem xcast_completes {s : State} {c : Ctl} {role : BitVec 12} {w d : BitVec 6} {g : Gang} {a len dest : Nat}
    (hg : s.myGang = some g) (ha : xcastArgs (s.gReg w) (s.readG d) = .ok a len dest) (hr : role.toNat < g.h.roles)
    (hp : g.h.planned = true → 4 * c.plan.toNat < g.h.xlen ∧ s.cyc - s.me.proc.xstart = 4 * c.plan.toNat) :
    CompletesAs (.xcast c role w d) (planCtl c) fFar
      ((s.me.xsend.any fun y => decide (s.cyc < y.readUntil)) = false ∧ s.lsHeld s.core a len false = false)
      (s.sendUnits g role.toNat a len dest) s := by
  rintro hi ⟨hb, hh⟩
  have hlate : (g.h.planned && decide (g.h.xlen ≤ 4 * c.plan.toNat)) = false := by
    cases hpl : g.h.planned with
    | false => rfl
    | true => simpa using (hp hpl).1
  have hx : exec (.xcast c role w d) s = issue (planCtl c) fFar s fun s => xcast s c role w d := by
    show execXcast c role w d s = _
    simp only [execXcast, hg, if_neg (Nat.not_le.mpr hr), hlate, Bool.false_eq_true, if_false]
  have hbody : xcast s c role w d = .done (s.sendUnits g role.toNat a len dest) := by
    unfold xcast
    rw [ha, hg]
    dsimp only
    cases hpl : g.h.planned with
    | false => simp [hb, hh]
    | true => simp [hb, hh, (hp hpl).2]
  rw [hx, issue_of_issues _ hi, hbody]

/-! ### WIDF and ROLEQ -/

theorem writeLate_done {s : State} {d : BitVec 6} (c : Ctl) (v : W64) (h : s.leak d = false) :
    writeLate s c d v = .done (s.landLate c.set (.g d (GReg.data v))) := by
  simp [writeLate, h]

theorem widf_completes {s : State} {d : BitVec 6} {g : Gang} (c : Ctl) (i : BitVec 3) (hl : s.leak d = false)
    (hg : s.myGang = some g) :
    CompletesAs (.widf c d i) c fLate True (s.landLate c.set (.g d (GReg.data (if i = 6 then s.me.proc.superstep
      else if i = 7 then (if s.me.proc.exchange then 1 else 0)
      else BitVec.ofNat 64 (widField s.me.proc.wid g.h.widths i.toNat))))) s :=
  completesAs_of_issue (fun _ => rfl) fun _ => by
    simp only [hg]
    exact writeLate_done c _ hl

theorem roleq_completes {s : State} {d : BitVec 6} {g : Gang} (c : Ctl) (r : RoleOp) (hl : s.leak d = false)
    (hg : s.myGang = some g) :
    CompletesAs (.roleq c d r) c fLate ((roleOf s r).toNat < g.h.roles)
      (s.landLate c.set (.g d (GReg.data (roleWord g s.core (roleOf s r).toNat)))) s := by
  intro hi hr
  have hx : exec (.roleq c d r) s = issue c fLate s fun s =>
      if g.h.roles ≤ (roleOf s r).toNat then .trap cCAPBND (roleOf s r)
      else writeLate s c d (roleWord g s.core (roleOf s r).toNat) := by
    show execRoleq c d r s = _
    unfold execRoleq
    rw [hg]
    dsimp only
    cases r with
    | role n =>
      have hn : (roleOf s (.role n)).toNat = n.toNat := by
        have := n.isLt
        simp only [roleOf, BitVec.toNat_setWidth]
        omega
      rw [hn] at hr
      exact if_neg (by simpa using hr)
    | g n => rfl
  rw [hx, issue_of_issues _ hi, if_neg (Nat.not_le.mpr hr), writeLate_done c _ hl]

theorem roleOf_role (s : State) (role : BitVec 12) : (roleOf s (.role role)).toNat = role.toNat := by
  have := role.isLt
  simp only [roleOf, BitVec.toNat_setWidth]
  omega

/-- Settles O53, clause by clause: an arrival, a release with the phases it leaves, a transfer with the bytes it lands, WIDF and
ROLEQ. That a held release is tried again in the next cycle is the model's reading (log 57). -/
theorem gangWordsComplete : Obligations.GangWordsComplete := by
  unfold Obligations.GangWordsComplete
  intro c role w d i n g id s p arrived may kind miss
  refine ⟨?_, ?_, fun hi => ⟨fun hm hk => ?_, fun hm hk => ?_⟩, fun hg hk => ?_, fun a len dest hg ha hr hp => ?_,
    fun a len dest m hm he => ?_, fun m r x hm hx => ?_, fun hl hg => ⟨?_, ?_, ?_⟩⟩
  · exact waitsAs_of_issue (fun _ => rfl) fun ⟨hm, hk⟩ => (barrier_of_mayArrive hm).trans (if_neg hk)
  · exact waitsAs_of_issue (fun _ => rfl) fun ⟨hm, hk⟩ => (barrier_of_mayArrive hm).trans (if_neg hk)
  · exact exec_of_issues (fun _ => rfl) hi ((barrier_of_mayArrive hm).trans (if_pos hk))
  · exact exec_of_issues (fun _ => rfl) hi ((barrier_of_mayArrive hm).trans (if_pos hk))
  · refine ⟨barrierRelease_waits hg hk, fun hh hq => ⟨_, barrierRelease_releases hg hk hh hq, fun hnd n hn => ?_⟩⟩
    have hph := State.releaseBarrier_phases g
      ((s.barrierCores id).any fun n => (s.coreAt n).proc.arrived.any fun a => a.2) hnd hn
    simp only [State.phases, State.procOf, Proc.phase, Prod.mk.injEq] at hph
    exact hph
  · exact xcast_completes hg ha hr hp
  · exact ⟨sendUnits_xsend a len dest hm he, sendUnits_xpend a len dest hm he⟩
  · refine ⟨_, xcastTransferComplete_eq hm hx, rfl, ?_, fun k hk => State.coreAt_updCore_ne s _ hk, fun i b hb => ?_,
      fun a ha => ?_⟩
    · rw [State.coreAt_updCore_same]
    · have hland := get_landBytes_same (dest := x.dest) x.bytes 0 (s.coreAt m).ls hb
      rw [Nat.zero_add] at hland
      rw [State.coreAt_updCore_same]
      exact hland
    · rw [State.coreAt_updCore_same]
      refine get_landBytes_ne x.bytes 0 (s.coreAt m).ls fun i b hb => ?_
      rw [Nat.zero_add]
      exact ha i b hb
  · exact widf_completes c i hl hg
  · have := roleq_completes c (.role role) hl hg
    rwa [roleOf_role] at this
  · exact roleq_completes c (.g n) hl hg

end Sys2Proof.Machine

/-! ## Decoding what the encoder writes

A word keeps its fields, a field its operand, a nibble its code; each form then reads back what its encoder wrote. -/

namespace Sys2Proof

section
open BitVec (extractLsb'_append_eq_of_le extractLsb'_append_eq_of_add_le getLsbD_append)

/-! ### The fields of a word -/

theorem fieldsOf_word (f : Fields) : fieldsOf f.word = f := by
  simp [fieldsOf, Fields.word, extractLsb'_append_eq_of_le, extractLsb'_append_eq_of_add_le,
    getLsbD_append, -BitVec.getLsbD_eq_getElem, -Nat.reduceAdd]

theorem ctlOf_guard_hint (c : Ctl) : ctlOf c.guard c.hint = c := by
  obtain ⟨neg, q, delay, phase, wait, set, sw, lu⟩ := c
  cases phase <;>
    simp [ctlOf, Ctl.guard, Ctl.hint, PhaseHint.code, extractLsb'_append_eq_of_le, extractLsb'_append_eq_of_add_le,
      getLsbD_append, -BitVec.getLsbD_eq_getElem, -Nat.reduceAdd]

/-! ### Operand fields: each kind has its own top nibble (R59) -/

variable (m : BitVec 4)

@[simp] theorem opG_encG (n : BitVec 6) : opG (encG n m) = some (n, m) := by
  simp [opG, encG, extractLsb'_append_eq_of_le, extractLsb'_append_eq_of_add_le, -Nat.reduceAdd]
@[simp] theorem opS_encS (n : BitVec 9) : opS (encS n m) = some (n, m) := by
  simp [opS, encS, extractLsb'_append_eq_of_le, extractLsb'_append_eq_of_add_le, -Nat.reduceAdd]
@[simp] theorem opM_encM (n : BitVec 3) : opM (encM n m) = some (n, m) := by
  simp [opM, encM, extractLsb'_append_eq_of_le, extractLsb'_append_eq_of_add_le, -Nat.reduceAdd]
@[simp] theorem opW_encW (o : WOp) : opW (encW o m) = some (o, m) := by
  cases o with
  | w n => simp [opW, encW, extractLsb'_append_eq_of_le, extractLsb'_append_eq_of_add_le, -Nat.reduceAdd]
  | rel i off =>
    have h : ∀ i : BitVec 4, 2#2 ++ i ≠ 16#6 := by decide
    simp [opW, encW, h, extractLsb'_append_eq_of_le, extractLsb'_append_eq_of_add_le, -Nat.reduceAdd]
@[simp] theorem opRole_encRole (r : BitVec 12) : opRole (encRole r) = some r := by
  simp [opRole, encRole, extractLsb'_append_eq_of_le, extractLsb'_append_eq_of_add_le, -Nat.reduceAdd]
@[simp] theorem opSlot_encSlot (n : BitVec 5) : opSlot (encSlot n m) = some (n, m) := by
  simp [opSlot, encSlot, extractLsb'_append_eq_of_le, extractLsb'_append_eq_of_add_le, -Nat.reduceAdd]
@[simp] theorem opTile_encTile (n : BitVec 2) : opTile (encTile n m) = some (n, m) := by
  simp [opTile, encTile, extractLsb'_append_eq_of_le, extractLsb'_append_eq_of_add_le, -Nat.reduceAdd]
@[simp] theorem opSmall_encSmall (v : BitVec 12) : opSmall (encSmall v) = some v := by
  simp [opSmall, encSmall, extractLsb'_append_eq_of_le, extractLsb'_append_eq_of_add_le, -Nat.reduceAdd]

/-- A slice differs from a code in which one bit differs. -/
theorem extractLsb'_ne_of_getLsbD {w len start : Nat} {x : BitVec w} {v : BitVec len} {j : Nat} (hj : j < len)
    (h : x.getLsbD (start + j) ≠ v.getLsbD j) : x.extractLsb' start len ≠ v := by
  rintro rfl
  simp [hj] at h

/-- A field whose bit differs from the code of a kind is no operand of that kind. -/
theorem opG_of_bit {o : BitVec 16} (j : Nat) (hj : j < 6) (h : o.getLsbD (10 + j) = true) : opG o = none :=
  if_neg (extractLsb'_ne_of_getLsbD hj (by simp [h]))

@[simp] theorem opG_encSmall (v : BitVec 12) : opG (encSmall v) = none :=
  opG_of_bit 5 (by decide) (by simp [encSmall, getLsbD_append, -BitVec.getLsbD_eq_getElem, -Nat.reduceAdd])
@[simp] theorem opG_encS (n : BitVec 9) : opG (encS n m) = none :=
  opG_of_bit 3 (by decide) (by simp [encS, getLsbD_append, -BitVec.getLsbD_eq_getElem, -Nat.reduceAdd])
@[simp] theorem opG_encM (n : BitVec 3) : opG (encM n m) = none :=
  opG_of_bit 4 (by decide) (by simp [encM, getLsbD_append, -BitVec.getLsbD_eq_getElem, -Nat.reduceAdd])
@[simp] theorem opG_encW (o : WOp) : opG (encW o m) = none := by
  cases o with
  | w n => exact opG_of_bit 4 (by decide) (by simp [encW, getLsbD_append, -BitVec.getLsbD_eq_getElem, -Nat.reduceAdd])
  | rel i off => exact opG_of_bit 5 (by decide) (by simp [encW, getLsbD_append, -BitVec.getLsbD_eq_getElem, -Nat.reduceAdd])
@[simp] theorem opM_encSmall (v : BitVec 12) : opM (encSmall v) = none :=
  if_neg (extractLsb'_ne_of_getLsbD (j := 8) (by decide)
    (by simp [encSmall, getLsbD_append, -BitVec.getLsbD_eq_getElem, -Nat.reduceAdd]))
@[simp] theorem opM_encS (n : BitVec 9) : opM (encS n m) = none :=
  if_neg (extractLsb'_ne_of_getLsbD (j := 7) (by decide)
    (by simp [encS, getLsbD_append, -BitVec.getLsbD_eq_getElem, -Nat.reduceAdd]))
@[simp] theorem opSmall_encS (n : BitVec 9) : opSmall (encS n m) = none :=
  if_neg (extractLsb'_ne_of_getLsbD (j := 3) (by decide)
    (by simp [encS, getLsbD_append, -BitVec.getLsbD_eq_getElem, -Nat.reduceAdd]))
@[simp] theorem opSmall_encW (o : WOp) : opSmall (encW o m) = none := by
  cases o with
  | w n =>
    exact if_neg (extractLsb'_ne_of_getLsbD (j := 3) (by decide)
      (by simp [encW, getLsbD_append, -BitVec.getLsbD_eq_getElem, -Nat.reduceAdd]))
  | rel i off =>
    exact if_neg (extractLsb'_ne_of_getLsbD (j := 2) (by decide)
      (by simp [encW, getLsbD_append, -BitVec.getLsbD_eq_getElem, -Nat.reduceAdd]))
@[simp] theorem opW_encSmall (v : BitVec 12) : opW (encSmall v) = none := by
  have h : (encSmall v).getLsbD 15 = true ∧ (encSmall v).getLsbD 14 = true := by
    simp [encSmall, getLsbD_append, -BitVec.getLsbD_eq_getElem, -Nat.reduceAdd]
  rw [opW, if_neg (extractLsb'_ne_of_getLsbD (j := 5) (by decide) (by simp [h])),
    if_neg (extractLsb'_ne_of_getLsbD (j := 0) (by decide) (by simp [h]))]
@[simp] theorem opRole_encG (n : BitVec 6) : opRole (encG n m) = none :=
  if_neg (extractLsb'_ne_of_getLsbD (j := 3) (by decide)
    (by simp [encG, getLsbD_append, -BitVec.getLsbD_eq_getElem, -Nat.reduceAdd]))

@[simp] theorem noMod_zero {α : Type} (a : α) : noMod (some (a, 0#4)) = some a := rfl
@[simp] theorem g0_encG (n : BitVec 6) : g0 (encG n 0#4) = some n := by simp [g0]
@[simp] theorem w0_encW (o : WOp) : w0 (encW o 0#4) = some o := by simp [w0]
@[simp] theorem g0_encW (o : WOp) : g0 (encW o m) = none := by simp [g0, noMod]
@[simp] theorem g0_encSmall (v : BitVec 12) : g0 (encSmall v) = none := by simp [g0, noMod]
@[simp] theorem w0_encSmall (v : BitVec 12) : w0 (encSmall v) = none := by simp [w0, noMod]
@[simp] theorem gi_encGI (v : GI) : gi (encGI v) = some v := by cases v <;> simp [gi, encGI]
@[simp] theorem wg_encWG (v : WG) : wg (encWG v) = some v := by cases v <;> simp [wg, encWG]
@[simp] theorem wgi_encWGI (v : WGI) : wgi (encWGI v) = some v := by cases v <;> simp [wgi, encWGI]
@[simp] theorem wgMod_encVMod (v : WG) : wgMod (encVMod v m) = some (v, m) := by cases v <;> simp [wgMod, encVMod]

/-- A value of at most 12 bits is read back from a small immediate. -/
theorem smallN_encSmallN {k : Nat} (v : BitVec k) (hk : k ≤ 12) : smallN k (encSmallN v) = some v := by
  have hv : v.toNat < 2 ^ k := v.isLt
  have hlt : v.toNat < 4096 := Nat.lt_of_lt_of_le hv (Nat.pow_le_pow_right (by decide) hk)
  simp [smallN, encSmallN, Nat.mod_eq_of_lt hlt, hv]
@[simp] theorem smallN_encSmall {k : Nat} {v : BitVec 12} (h : v.toNat < 2 ^ k) :
    smallN k (encSmall v) = some (BitVec.ofNat k v.toNat) := by
  simp [smallN, h]
@[simp] theorem q3_encQ (n : BitVec 3) : q3 (encQ n) = some n := smallN_encSmallN n (by decide)

theorem opG_encQ (n : BitVec 3) : opG (encQ n) = none := opG_encSmall _
theorem opM_encQ (n : BitVec 3) : opM (encQ n) = none := opM_encSmall _

@[simp] theorem unused_zero : unused 0#16 = some () := rfl
@[simp] theorem nibbleOnly_encNibble : nibbleOnly (encNibble m) = some m := by
  simp [nibbleOnly, encNibble, extractLsb'_append_eq_of_le, extractLsb'_append_eq_of_add_le, -Nat.reduceAdd]
@[simp] theorem maskOf_setWidth (k : BitVec 3) : maskOf (k.setWidth 4) = some k := by
  revert k
  decide
@[simp] theorem maskOnly_encMask (k : BitVec 3) : maskOnly (encMask k) = some k := by
  revert k
  decide
@[simp] theorem counterOp_encCounter (b : Nat) (k : BitVec 2) (hb : b ≤ 508) : counterOp b (encCounter b k) = some k := by
  have hk := k.isLt
  have hn : (BitVec.ofNat 9 (b + k.toNat)).toNat = b + k.toNat := by
    rw [BitVec.toNat_ofNat]
    omega
  simp [counterOp, encCounter, hn]
  omega
@[simp] theorem carriedOp_encCarried (k : Option (BitVec 6)) : carriedOp (encCarried k) = some k := by
  cases k with
  | none => rfl
  | some n =>
    have h : ∀ n : BitVec 6, encG n 0#4 ≠ 61440#16 := by decide
    simp [carriedOp, encCarried, h]
@[simp] theorem payloadOp_encPayload (v : Payload) : payloadOp (encPayload v) = some v := by
  cases v <;> simp [payloadOp, encPayload, gi]
@[simp] theorem rdstOp_encRDst (d : RDst) : rdstOp (encRDst d) = some d := by
  cases d <;> simp [rdstOp, encRDst]
@[simp] theorem ctxReg_encCtxReg (r : CtxReg) : parseSys.ctxReg (encCtxReg r) = some r := by
  cases r with
  | g n => simp [parseSys.ctxReg, encCtxReg]
  | m n => simp [parseSys.ctxReg, encCtxReg, g0, noMod]
  | q n => simp [parseSys.ctxReg, encCtxReg, g0, noMod, opG_encQ, opM_encQ]
  | s n => simp [parseSys.ctxReg, encCtxReg, g0, noMod, q3, smallN]

/-! ### Modifier codes (R63, R65, R124, R215) -/

@[simp] theorem ifmt_code (f : IFmt) : ifmt f.code = some f := by cases f <;> rfl
@[simp] theorem ffmt_code (f : FFmt) : ffmt f.code = some f := by cases f <;> rfl
@[simp] theorem nfmt_code (f : NFmt) : nfmt f.code = some f := by rcases f with f | f <;> cases f <;> rfl
@[simp] theorem pxfmt_code (f : PxFmt) : pxfmt f.code = some f := by cases f <;> rfl
@[simp] theorem mfmt_code (f : MFmt) : mfmt f.code = some f := by
  cases f with
  | px f => cases f <;> rfl
  | i8 | f16 | bf16 => rfl
@[simp] theorem rmOf_code (r : Rm) : rmOf r.code = some r := by cases r <;> rfl
@[simp] theorem rmSatOf_code (r : RmSat) : rmSatOf r.code = some r := by
  obtain ⟨rm, sat⟩ := r
  cases rm <;> cases sat <;> rfl
@[simp] theorem relOf_code (r : Rel) : relOf r.code = some r := by cases r <;> rfl
@[simp] theorem frelOf_code (r : FRel) : frelOf r.code = some r := by cases r <;> rfl
@[simp] theorem sgnOf_code (r : SgnOp) : sgnOf r.code = some r := by cases r <;> rfl
@[simp] theorem policyOf_code (p : Policy) : policyOf p.code = some p := by cases p <;> rfl
@[simp] theorem memFmt_code (f : MemFmt) : memFmt f.code = some f := by
  cases f with
  | cap => rfl
  | int f => cases f <;> rfl
@[simp] theorem afmt_code (f : AFmt) : afmt f.code = some f := by cases f <;> rfl
@[simp] theorem amoOpOf_code (o : AmoOp) : amoOpOf o.code = some o := by cases o <;> rfl
@[simp] theorem wfmt_code (f : WFmt) : wfmt f.code = some f := by cases f <;> rfl
@[simp] theorem vrelOf_code (r : VRel) : vrelOf r.fmtCode r.relCode = some r := by rcases r with r | r | r <;> cases r <;> rfl
@[simp] theorem sumFmt_code (f : SumFmt) : sumFmt f.fmtCode f.rmCode = some f := by
  cases f with
  | f32 r => cases r <;> rfl
  | i32 | n32 => rfl
@[simp] theorem maxFmt_code (f : MaxFmt) : maxFmt f.code = some f := by cases f <;> rfl

end

/-! ### Fields as the encoder fills them -/

section
variable (c : Ctl) (cls : BitVec 6) (imm : Bool) (minor : BitVec 7) (x y zhi zlo : BitVec 16)

@[simp] theorem mkF_cls : (mkF c cls imm minor x y zhi zlo).cls = cls := by simp only [mkF]
@[simp] theorem mkF_imm : (mkF c cls imm minor x y zhi zlo).imm = imm := rfl
@[simp] theorem mkF_minor : (mkF c cls imm minor x y zhi zlo).minor = minor := rfl
@[simp] theorem mkF_x : (mkF c cls imm minor x y zhi zlo).x = x := rfl
@[simp] theorem mkF_y : (mkF c cls imm minor x y zhi zlo).y = y := rfl
@[simp] theorem mkF_zhi : (mkF c cls imm minor x y zhi zlo).zhi = zhi := rfl
@[simp] theorem mkF_zlo : (mkF c cls imm minor x y zhi zlo).zlo = zlo := rfl
@[simp] theorem mkF_ctl : (mkF c cls imm minor x y zhi zlo).ctl = c := ctlOf_guard_hint c

variable (z : BitVec 32)

@[simp] theorem mkI_cls : (mkI c cls minor x y z).cls = cls := by simp only [mkI, mkF]
@[simp] theorem mkI_imm : (mkI c cls minor x y z).imm = true := rfl
@[simp] theorem mkI_minor : (mkI c cls minor x y z).minor = minor := rfl
@[simp] theorem mkI_x : (mkI c cls minor x y z).x = x := rfl
@[simp] theorem mkI_y : (mkI c cls minor x y z).y = y := rfl
@[simp] theorem mkI_ctl : (mkI c cls minor x y z).ctl = c := ctlOf_guard_hint c
/-- MCFG's immediate is its shape (R169). -/
@[simp] theorem extractLsb'_shape (k : BitVec 3) : (0#29 ++ k).extractLsb' 3 29 = 0#29 ∧ (0#29 ++ k).extractLsb' 0 3 = k :=
  ⟨BitVec.extractLsb'_append_eq_left, BitVec.extractLsb'_append_eq_right⟩

@[simp] theorem mkI_z : (mkI c cls minor x y z).z = z :=
  (BitVec.extractLsb'_append_extractLsb'_eq_extractLsb' (by decide)).trans BitVec.extractLsb'_eq_self

variable (b : SrcZ)

@[simp] theorem mkZ_cls : (mkZ c cls minor x y b).cls = cls := by cases b <;> rfl
@[simp] theorem mkZ_minor : (mkZ c cls minor x y b).minor = minor := by cases b <;> rfl
@[simp] theorem mkZ_x : (mkZ c cls minor x y b).x = x := by cases b <;> rfl
@[simp] theorem mkZ_y : (mkZ c cls minor x y b).y = y := by cases b <;> rfl
@[simp] theorem mkZ_ctl : (mkZ c cls minor x y b).ctl = c := by cases b <;> exact ctlOf_guard_hint c
/-- The second source is read back as it was written (R122). -/
@[simp] theorem srcZ_mkZ : srcZ (mkZ c cls minor x y b) = some b := by
  cases b with
  | imm z => simp [mkZ, srcZ]
  | g n => simp [mkZ, srcZ]
  | small v => simp [mkZ, srcZ]

end

/-! ### Forms that several minors share -/

section
variable (c : Ctl) (cls : BitVec 6) (minor : BitVec 7)

@[simp] theorem noXYZ_zero (i : Instr) : noXYZ (mkF c cls false minor 0#16 0#16 0#16 0#16) i = some i := by simp [noXYZ]
@[simp] theorem formDAZ_mkZ (d a : BitVec 6) (b : SrcZ) (mk : BitVec 6 → BitVec 6 → SrcZ → Instr) :
    formDAZ (mkZ c cls minor (encG d 0#4) (encG a 0#4) b) mk = some (mk d a b) := by simp [formDAZ]
@[simp] theorem formDA_mkF (d a : BitVec 6) (mk : BitVec 6 → BitVec 6 → Instr) :
    formDA (mkF c cls false minor (encG d 0#4) (encG a 0#4) 0#16 0#16) mk = some (mk d a) := by simp [formDA]
@[simp] theorem formField_mkF (d a : BitVec 6) (p n : GI) (mk : BitVec 6 → BitVec 6 → GI → GI → Instr) :
    formField (mkF c cls false minor (encG d 0#4) (encG a 0#4) (encGI p) (encGI n)) mk = some (mk d a p n) := by
  simp [formField]
@[simp] theorem formArith_mkF (f : FFmt) (rm : Rm) (d a b : BitVec 6) (mk : FFmt → Rm → BitVec 6 → BitVec 6 → BitVec 6 → Instr) :
    formArith (mkF c cls false minor (encG d f.code) (encG a rm.code) (encG b 0#4) 0#16) mk = some (mk f rm d a b) := by
  simp [formArith]
@[simp] theorem formMin_mkF (f : FFmt) (d a b : BitVec 6) (mk : FFmt → BitVec 6 → BitVec 6 → BitVec 6 → Instr) :
    formMin (mkF c cls false minor (encG d f.code) (encG a 0#4) (encG b 0#4) 0#16) mk = some (mk f d a b) := by
  simp [formMin]

variable (d a : WOp) (m : BitVec 3)

@[simp] theorem formVBin_mkF (f : FFmt) (rm : Rm) (b : WG) (mk : FFmt → Rm → WOp → WOp → WG → BitVec 3 → Instr) :
    formVBin (mkF c cls false minor (encW d f.code) (encW a rm.code) (encWG b) (encMask m)) mk = some (mk f rm d a b m) := by
  simp [formVBin]
@[simp] theorem formVMin_mkF (f : FFmt) (b : WG) (mk : FFmt → WOp → WOp → WG → BitVec 3 → Instr) :
    formVMin (mkF c cls false minor (encW d f.code) (encW a 0#4) (encWG b) (encMask m)) mk = some (mk f d a b m) := by
  simp [formVMin]
@[simp] theorem formVUn_mkF (f : FFmt) (rm : Rm) (mk : FFmt → Rm → WOp → WOp → BitVec 3 → Instr) :
    formVUn (mkF c cls false minor (encW d f.code) (encW a rm.code) 0#16 (encMask m)) mk = some (mk f rm d a m) := by
  simp [formVUn]
@[simp] theorem formVSign_mkF (f : FFmt) (mk : FFmt → WOp → WOp → BitVec 3 → Instr) :
    formVSign (mkF c cls false minor (encW d f.code) (encW a 0#4) 0#16 (encMask m)) mk = some (mk f d a m) := by
  simp [formVSign]
@[simp] theorem formVInt_mkF (f : IFmt) (b : WGI) (mk : IFmt → WOp → WOp → WGI → BitVec 3 → Instr) :
    formVInt (mkF c cls false minor (encW d f.code) (encW a 0#4) (encWGI b) (encMask m)) mk = some (mk f d a b m) := by
  simp [formVInt]
@[simp] theorem formMem_mkZ (f : MemFmt) (p : Policy) (d w : BitVec 6) (off : SrcZ)
    (mk : MemFmt → Policy → BitVec 6 → BitVec 6 → SrcZ → Instr) :
    formMem (mkZ c cls minor (encG d f.code) (encG w p.code) off) mk = some (mk f p d w off) := by
  simp [formMem]

end

/-! ### The scope in a minor (R65) -/

section
variable (c : Ctl) (sc : Scope)

theorem parseMem_ldacq (x y : BitVec 16) (z : SrcZ) : parseMem (mkZ c 32#6 (8#7 + sc.code) x y z) c =
    formMem (mkZ c 32#6 (8#7 + sc.code) x y z) (.ldacq c sc) := by
  cases sc <;> simp [parseMem, Scope.code, scopeOf]
theorem parseMem_strel (x y : BitVec 16) (z : SrcZ) : parseMem (mkZ c 32#6 (16#7 + sc.code) x y z) c =
    formMem (mkZ c 32#6 (16#7 + sc.code) x y z) (.strel c sc) := by
  cases sc <;> simp [parseMem, Scope.code, scopeOf]
theorem parseFence_fence : parseFence (mkF c 33#6 false sc.code 0#16 0#16 0#16 0#16) c = some (.fence c sc) := by
  cases sc <;> simp [parseFence, Scope.code, scopeOf]
theorem parseFence_fenceRed : parseFence (mkF c 33#6 false (8#7 + sc.code) 0#16 0#16 0#16 0#16) c = some (.fenceRed c sc) := by
  cases sc <;> simp [parseFence, Scope.code, scopeOf]

variable (fm : AFmt) (op : AmoOp) (d w v : BitVec 6) (off : GI)

theorem parseAmo_amo :
    parseAmo (mkF c 34#6 false sc.code (encG d fm.code) (encG w 0#4) (encG v op.code) (encGI off)) c =
      some (.amo c sc fm op d w v off) := by
  cases sc <;> simp [parseAmo, Scope.code, scopeOf]
theorem parseAmo_cas :
    parseAmo (mkF c 34#6 false (8#7 + sc.code) (encG d fm.code) (encG w 0#4) (encG v 0#4) (encGI off)) c =
      some (.cas c sc fm d w v off) := by
  have h : unused (encNibble 0#4) = some () := rfl
  cases sc <;> simp [parseAmo, Scope.code, scopeOf, h]
theorem parseAmo_red :
    parseAmo (mkF c 34#6 false (16#7 + sc.code) (encNibble fm.code) (encG w 0#4) (encG v op.code) (encGI off)) c =
      some (.red c sc fm op w v off) := by
  cases sc <;> simp [parseAmo, Scope.code, scopeOf]
end

/-- The context number of a context form is an operand of its own, never the empty field of the plain form (R407). -/
theorem encSmallN_ne_zero {k : Nat} (v : BitVec k) : encSmallN v ≠ 0#16 := by
  intro h
  have hs : opSmall (encSmallN v) = none := congrArg opSmall h
  simp [encSmallN] at hs

/-! ### The parser of each class (R66) -/

section
variable {f : Fields}

theorem parse_sys (h : f.cls = 0#6) : parse f = parseSys f f.ctl := by rw [parse, h]; rfl
theorem parse_br (h : f.cls = 1#6) : parse f = parseBr f f.ctl := by rw [parse, h]; rfl
theorem parse_ialu (h : f.cls = 2#6) : parse f = parseIalu f f.ctl := by rw [parse, h]; rfl
theorem parse_imul (h : f.cls = 3#6) : parse f = parseImul f f.ctl := by rw [parse, h]; rfl
theorem parse_ibit (h : f.cls = 4#6) : parse f = parseIbit f f.ctl := by rw [parse, h]; rfl
theorem parse_imm (h : f.cls = 5#6) : parse f = parseImm f f.ctl := by rw [parse, h]; rfl
theorem parse_cmp (h : f.cls = 6#6) : parse f = parseCmp f f.ctl := by rw [parse, h]; rfl
theorem parse_fpu (h : f.cls = 7#6) : parse f = parseFpu f f.ctl := by rw [parse, h]; rfl
theorem parse_lmem (h : f.cls = 8#6) : parse f = parseLmem f f.ctl := by rw [parse, h]; rfl
theorem parse_cap (h : f.cls = 9#6) : parse f = parseCap f f.ctl := by rw [parse, h]; rfl
theorem parse_varith (h : f.cls = 16#6) : parse f = parseVarith f f.ctl := by rw [parse, h]; rfl
theorem parse_vint (h : f.cls = 17#6) : parse f = parseVint f f.ctl := by rw [parse, h]; rfl
theorem parse_vmask (h : f.cls = 18#6) : parse f = parseVmask f f.ctl := by rw [parse, h]; rfl
theorem parse_vperm (h : f.cls = 19#6) : parse f = parseVperm f f.ctl := by rw [parse, h]; rfl
theorem parse_vred (h : f.cls = 20#6) : parse f = parseVred f f.ctl := by rw [parse, h]; rfl
theorem parse_vcvt (h : f.cls = 21#6) : parse f = parseVcvt f f.ctl := by rw [parse, h]; rfl
theorem parse_vlmem (h : f.cls = 22#6) : parse f = parseVlmem f f.ctl := by rw [parse, h]; rfl
theorem parse_vreg (h : f.cls = 23#6) : parse f = parseVreg f f.ctl := by rw [parse, h]; rfl
theorem parse_mat (h : f.cls = 24#6) : parse f = parseMat f f.ctl := by rw [parse, h]; rfl
theorem parse_mem (h : f.cls = 32#6) : parse f = parseMem f f.ctl := by rw [parse, h]; rfl
theorem parse_fence (h : f.cls = 33#6) : parse f = parseFence f f.ctl := by rw [parse, h]; rfl
theorem parse_amo (h : f.cls = 34#6) : parse f = parseAmo f f.ctl := by rw [parse, h]; rfl
theorem parse_sync (h : f.cls = 35#6) : parse f = parseSync f f.ctl := by rw [parse, h]; rfl
theorem parse_eng (h : f.cls = 36#6) : parse f = parseEng f f.ctl := by rw [parse, h]; rfl
theorem parse_chan (h : f.cls = 40#6) : parse f = parseChan f f.ctl := by rw [parse, h]; rfl
theorem parse_ctx (h : f.cls = 48#6) : parse f = parseCtx f f.ctl := by rw [parse, h]; rfl
theorem parse_gang (h : f.cls = 49#6) : parse f = parseGang f f.ctl := by rw [parse, h]; rfl
theorem parse_graph (h : f.cls = 50#6) : parse f = parseGraph f f.ctl := by rw [parse, h]; rfl
theorem parse_stage (h : f.cls = 51#6) : parse f = parseStage f f.ctl := by rw [parse, h]; rfl
theorem parse_dbg (h : f.cls = 56#6) : parse f = parseDbg f f.ctl := by rw [parse, h]; rfl

end

/-- Parsing the fields of an instruction gives the instruction. -/
theorem parse_encodeFields {i : Instr} {f : Fields} (h : encodeFields i = some f) : parse f = some i := by
  cases i with
  | nop | trap | eretRetry | eretSkip | eretExit | rds | rdsContext | wrs | wrsContext | retarm | scall =>
    obtain rfl := Option.some.inj h
    simp [parse_sys, parseSys, smallN_encSmallN, encSmallN_ne_zero]
  | bra | brx | callRelative | callRegister | ret | loop =>
    obtain rfl := Option.some.inj h
    simp [parse_br, parseBr]
  | add | sub | and | or | xor | andn | shl | shr | sar | rot | min | max | minn | maxn =>
    obtain rfl := Option.some.inj h
    simp [parse_ialu, parseIalu, encDAZ]
  | mul | mulh | mulhn | div | divn | rem | remn =>
    obtain rfl := Option.some.inj h
    simp [parse_imul, parseImul, encDAZ]
  | clz | ctz | popc | bfx | bfxs | bfi | brev | ext =>
    obtain rfl := Option.some.inj h
    simp [parse_ibit, parseIbit, encDA, encField]
  | movi | movh =>
    obtain rfl := Option.some.inj h
    simp [parse_imm, parseImm]
  | cmp | sel | pand | por | pnot =>
    obtain rfl := Option.some.inj h
    simp [parse_cmp, parseCmp]
  | fadd | fsub | fmul | ffma | fdiv | fsqrt | fmin | fmax | fcmp | fclass | fcvt | fsgn =>
    obtain rfl := Option.some.inj h
    simp [parse_fpu, parseFpu, encArith]
  | ldl | stl =>
    obtain rfl := Option.some.inj h
    simp [parse_lmem, parseLmem]
  | cbound | cperm | cget | cderive | ctest | cnull | cmove =>
    obtain rfl := Option.some.inj h
    simp [parse_cap, parseCap, encDA, encDAZ, smallN_encSmallN]
  | vadd | vsub | vmul | vfma | vmin | vmax | vabs | vneg | vrcp | vrsq | vexp2 | vlog2 | vdiv =>
    obtain rfl := Option.some.inj h
    simp [parse_varith, parseVarith, encVBin, encVUn]
  | viadd | visub | vimul | vand | vor | vxor | vshl | vshr | vsar =>
    obtain rfl := Option.some.inj h
    simp [parse_vint, parseVint, encVInt]
  | vcmp | vsel | mand | mor | mnot =>
    obtain rfl := Option.some.inj h
    simp [parse_vmask, parseVmask]
  | vperm | vshuf | vbcast | vextr | vins =>
    obtain rfl := Option.some.inj h
    simp [parse_vperm, parseVperm, smallN_encSmallN]
  | vrsum | vrmax | vrmin =>
    obtain rfl := Option.some.inj h
    simp [parse_vred, parseVred]
  | vcvt | vpxenc | vpxdec =>
    obtain rfl := Option.some.inj h
    simp [parse_vcvt, parseVcvt]
  | vldlImmediate | vldlRegister | vstlImmediate | vstlRegister | vldx | vstx =>
    obtain rfl := Option.some.inj h
    simp [parse_vlmem, parseVlmem]
  | allot | shrink | vmov =>
    obtain rfl := Option.some.inj h
    simp [parse_vreg, parseVreg]
  | mclaim | mrel | mloadImmediate | mloadRegister | mcfg | mzero | mgang | mwait | mrdacc | mwracc | mstacc =>
    obtain rfl := Option.some.inj h
    simp [parse_mat, parseMat, smallN_encSmallN]
  | ld | st | pref =>
    obtain rfl := Option.some.inj h
    simp [parse_mem, parseMem, encMem]
  | ldacq | strel =>
    obtain rfl := Option.some.inj h
    simp [parse_mem, encMem, parseMem_ldacq, parseMem_strel]
  | fence | fenceRed =>
    obtain rfl := Option.some.inj h
    simp [parse_fence, parseFence_fence, parseFence_fenceRed]
  | fenceEng =>
    obtain rfl := Option.some.inj h
    simp [parse_fence, parseFence]
  | amo | cas | red =>
    obtain rfl := Option.some.inj h
    simp [parse_amo, parseAmo_amo, parseAmo_cas, parseAmo_red]
  | swait | fwait | fset | fclr =>
    obtain rfl := Option.some.inj h
    simp [parse_sync, parseSync]
  | job | jwait | cwwait | jstat =>
    obtain rfl := Option.some.inj h
    simp [parse_eng, parseEng]
  | chan | send | recv | tryrecv | select | close | endinfo =>
    obtain rfl := Option.some.inj h
    simp [parse_chan, parseChan, encDA]
  | startRelative | startRegister | hjoin | hexit | yield | waitev =>
    obtain rfl := Option.some.inj h
    simp [parse_ctx, parseCtx]
  | bar | xend | xcast | widf =>
    obtain rfl := Option.some.inj h
    simp [parse_gang, parseGang, smallN_encSmallN]
  | roleq c d r =>
    cases r with
    | role | g =>
      obtain rfl := Option.some.inj h
      simp [parse_gang, parseGang]
  | gpost | trigStart | trigDone | waitp | glaunch | gcancel | gstat =>
    obtain rfl := Option.some.inj h
    simp [parse_graph, parseGraph, smallN_encSmallN]
  | sret | keyr | shintArm | shintClone | shintMerge | shintDisarm =>
    obtain rfl := Option.some.inj h
    simp [parse_stage, parseStage, smallN_encSmallN]
  | bkpt | mark | rdcnt | monq =>
    obtain rfl := Option.some.inj h
    simp [parse_dbg, parseDbg, smallN_encSmallN]
  | _ => exact absurd h nofun

/-! ### The checks of R67 -/

open Laws.WellFormedWord (passes hasForm passes_mkF passes_mkZ)

/-- The word of an instruction passes the checks on class, minor, I bit and phase (R67, steps 1 to 4). -/
theorem passes_encodeFields {i : Instr} {f : Fields} (h : encodeFields i = some f) : passes f = true := by
  cases i with
  -- words whose Z is a second source
  | add | sub | and | or | xor | andn | shl | shr | sar | rot | min | max | minn | maxn | mul | mulh | mulhn | div | divn
  | rem | remn | cmp | ldl | stl | cbound | cperm | cderive | mstacc | ld | st | pref | fwait | fset | fclr =>
    obtain rfl := Option.some.inj h
    exact passes_mkZ _ _ _ _ _ _ rfl rfl
  -- words that name a scope
  | ldacq c sc | strel c sc =>
    obtain rfl := Option.some.inj h
    cases sc <;> exact passes_mkZ _ _ _ _ _ _ rfl rfl
  | fence c sc | fenceRed c sc | amo c sc | cas c sc | red c sc =>
    obtain rfl := Option.some.inj h
    cases sc <;> exact passes_mkF _ _ _ _ _ _ _ _ rfl
  | roleq c d r =>
    cases r with
    | role | g =>
      obtain rfl := Option.some.inj h
      exact passes_mkF _ _ _ _ _ _ _ _ rfl
  -- the other words
  | nop | trap | eretRetry | eretSkip | eretExit | rds | rdsContext | wrs | wrsContext | retarm | scall | bra | brx
  | callRelative | callRegister | ret | loop | clz | ctz | popc | bfx | bfxs | bfi | brev | ext | movi | movh | sel | pand
  | por | pnot | fadd | fsub | fmul | ffma | fdiv | fsqrt | fmin | fmax | fcmp | fclass | fcvt | fsgn | cget | ctest
  | cnull | cmove | vadd | vsub | vmul | vfma | vmin | vmax | vabs | vneg | vrcp | vrsq | vexp2 | vlog2 | vdiv | viadd
  | visub | vimul | vand | vor | vxor | vshl | vshr | vsar | vcmp | vsel | mand | mor | mnot | vperm | vshuf | vbcast
  | vextr | vins | vrsum | vrmax | vrmin | vcvt | vpxenc | vpxdec | vldlImmediate | vldlRegister | vstlImmediate
  | vstlRegister | vldx | vstx | allot | shrink | vmov | mclaim | mrel | mloadImmediate | mloadRegister | mcfg | mzero
  | mgang | mwait | mrdacc | mwracc | fenceEng | swait | job | jwait | cwwait | jstat | chan | send | recv | tryrecv
  | select | close | endinfo | startRelative | startRegister | hjoin | hexit | yield | waitev | bar | xend | xcast | widf
  | gpost | trigStart | trigDone | waitp | glaunch | gcancel | gstat | sret | keyr | shintArm | shintClone | shintMerge
  | shintDisarm | bkpt | mark | rdcnt | monq =>
    obtain rfl := Option.some.inj h
    exact passes_mkF _ _ _ _ _ _ _ _ rfl
  -- steps of the agents have no word
  | _ => exact absurd h nofun

/-- Fields that pass the checks and parse to a well-formed instruction decode to it. -/
theorem decodeFields_of_passes {f : Fields} {i : Instr} (hp : passes f = true) (hi : parse f = some i)
    (hw : i.wellFormed = true) : decodeFields f = .ok i := by
  unfold passes hasForm at hp
  unfold decodeFields
  rw [Bool.and_eq_true, decide_eq_true_eq] at hp
  obtain ⟨hform, hphase⟩ := hp
  rw [hi]
  cases hm : minorForm f.cls.toNat f.minor.toNat with
  | none => simp [hm] at hform
  | some m =>
    cases m with
    | none => simp [hm] at hform
    | some form => cases form <;> simp_all

/-- Settles O2: the fields of the word are those that the encoder wrote, which pass the checks and parse to the instruction. -/
theorem decodeOfEncodeIsTheInstruction : Obligations.DecodeOfEncodeIsTheInstruction := by
  unfold Obligations.DecodeOfEncodeIsTheInstruction
  intro i w hw he
  obtain ⟨f, hf, rfl⟩ := Option.map_eq_some_iff.1 he
  rw [decodeWord, fieldsOf_word]
  exact decodeFields_of_passes (passes_encodeFields hf) (parse_encodeFields hf) hw

end Sys2Proof

namespace Sys2Proof

/-! ## What decodes, and what a word does that does not -/

/-- A word decodes only by passing the checks of R67: an assigned minor, a phase, accepted operands. -/
theorem decodeWord_ok {w : BitVec 96} {i : Instr} (h : decodeWord w = .ok i) :
    (∃ form, minorForm (fieldsOf w).cls.toNat (fieldsOf w).minor.toNat = some (some form)) ∧
      (fieldsOf w).hint.extractLsb' 8 2 ≠ 3#2 ∧ parse (fieldsOf w) = some i ∧ i.wellFormed = true := by
  unfold decodeWord decodeFields at h
  split at h
  · exact absurd h nofun
  · exact absurd h nofun
  · next form hm =>
    split at h
    · exact absurd h nofun
    · split at h
      · exact absurd h nofun
      · next hp =>
        split at h
        · exact absurd h nofun
        · next j hj =>
          split at h
          · next hw =>
            obtain rfl := Decoded.ok.inj h
            exact ⟨⟨form, hm⟩, hp, hj, hw⟩
          · exact absurd h nofun

theorem not_decodes_of_minorForm {w : BitVec 96} (h : ∀ form,
    minorForm (w.extractLsb' 90 6).toNat (w.extractLsb' 82 7).toNat ≠ some (some form)) (i : Instr) : decodeWord w ≠ .ok i := by
  intro hd
  obtain ⟨⟨form, hm⟩, -⟩ := decodeWord_ok hd
  exact h form hm

/-- The classes that R66 leaves without a row. -/
theorem minorForm_reserved {c : Nat} (m : Nat) (hlt : c < 64)
    (hc : 0x0A ≤ c ∧ c ≤ 0x0F ∨ 0x19 ≤ c ∧ c ≤ 0x1F ∨ 0x25 ≤ c ∧ c ≤ 0x27 ∨ 0x29 ≤ c ∧ c ≤ 0x2F ∨ 0x34 ≤ c ∧ c ≤ 0x37 ∨
      0x39 ≤ c) : minorForm c m = none := by
  rcases hc with ⟨h, h'⟩ | ⟨h, h'⟩ | ⟨h, h'⟩ | ⟨h, h'⟩ | ⟨h, h'⟩ | h <;> interval_cases c <;> rfl

theorem not_decodes_of_unassigned {w : BitVec 96} {cs : List (BitVec 6)} {ms : List (BitVec 7)}
    (h : ∀ c ∈ cs, ∀ m ∈ ms, minorForm c.toNat m.toNat = some none) (hc : w.extractLsb' 90 6 ∈ cs)
    (hm : w.extractLsb' 82 7 ∈ ms) (i : Instr) : decodeWord w ≠ .ok i := by
  refine not_decodes_of_minorForm (fun form => ?_) i
  rw [h _ hc _ hm]
  exact nofun

/-- Bits of a word's hint are bits of the word. -/
theorem fieldsOf_phase (w : BitVec 96) : (fieldsOf w).hint.extractLsb' 8 2 = w.extractLsb' 72 2 := by
  ext i hi
  have h : 8 + i < 14 := by omega
  simp [fieldsOf, h, ← Nat.add_assoc]

end Sys2Proof

namespace Sys2Proof.Machine

/-- A word that fails a check of R67 traps ILLEGAL at its own address, outside an upcall. -/
theorem State.decodeAct_of_illegal {t : State} {n k : Nat} {w : BitVec 96} {ix : Bool} {e : Reject}
    (hw : waitsDone (fieldsOf w) (t.ctxAt n k) = true) (hu : (t.coreAt n).upcall = none) (hd : decodeWord w = .illegal e) :
    t.decodeAct n k w ix =
      .next (t.takeTrap n k { cause := cILLEGAL, val := w.extractLsb' 32 64 } (t.ctxAt n k).pc) := by
  simp [State.decodeAct, hw, hu, hd]

@[simp] theorem State.ticked_cyc (s : State) (n k : Nat) : (s.ticked n k).cyc = s.cyc := by
  unfold State.ticked
  split <;> rfl

/-- Settles O3: no form has such a class, phase or minor; and a word that is rejected traps when its turn comes. -/
theorem staticChecksTrapIllegal : Obligations.StaticChecksTrapIllegal := by
  unfold Obligations.StaticChecksTrapIllegal
  refine ⟨fun w i => ⟨fun hc => ?_, fun hp hd => ?_, fun hc hm => ?_, fun hc hm => ?_⟩, ?_⟩
  · refine not_decodes_of_minorForm (fun form => ?_) i
    rw [minorForm_reserved _ (BitVec.isLt _) hc]
    exact nofun
  · obtain ⟨-, hne, -⟩ := decodeWord_ok hd
    exact hne ((fieldsOf_phase w).trans hp)
  · exact not_decodes_of_unassigned (by decide) hc hm i
  · exact not_decodes_of_unassigned (by decide) hc hm i
  · intro s t n k r w ix e hi hd ht hc hr hw hdef hf hb hword hwait hup hdec
    have hfence := State.tryFence_of_none ((State.ticked_fence { s with todo := r } n k).trans hf)
    have hcore : ({ s with todo := r } : State).coreAct n = ({ s with todo := r } : State).ctxAct n k :=
      State.coreAct_of_ready hc hr
    refine step_of_coreAct_next hi hd ht (hcore.trans ?_)
    rw [State.ctxAct_of_word (s := { s with todo := r }) hw hdef (by rw [hfence, State.ticked_cyc]; exact hb)
      (by rw [hfence, State.ticked_fence]; exact hf) (by rw [hfence]; exact hword), State.decodeAct_of_illegal hwait hup hdec]

end Sys2Proof.Machine

namespace Sys2Proof.Machine

/-! ## A word with a false guard, and what a retired word leaves -/

theorem issue_of_guard_false {c : Ctl} {f : Form} {s : State} (body : State → Eff) (hp : s.phaseBad c f.far = false)
    (hg : s.guard c = false) : issue c f s body = .next (s.retire c s.linkAddr) := by
  rw [issue, hp, hg]
  rfl

/-- A word that may issue although it reaches outside its core may issue if it does not. -/
theorem State.phaseBad_near {c : Ctl} {s : State} {far : Bool} (h : s.phaseBad c far = false) : s.phaseBad c false = false := by
  unfold State.phaseBad at h ⊢
  rw [Bool.or_eq_false_iff] at h ⊢
  exact ⟨h.1, rfl⟩

/-- Settles O13: a scalar or far word issues by the shared rule, which passes over a word with a false guard. -/
theorem falseGuardTakesNoEffect : Obligations.FalseGuardTakesNoEffect := by
  unfold Obligations.FalseGuardTakesNoEffect
  rintro i c s (hi | hi) hp hg
  · obtain ⟨f, body, hf, hx⟩ := exec_of_scalarCtl hi
    rw [hx, issue_of_guard_false body (hf ▸ State.phaseBad_near hp) hg]
  · obtain ⟨f, body, hf, hx⟩ := exec_of_farCtl hi
    rw [hi, Option.isSome_some, ← hf] at hp
    rw [hx, issue_of_guard_false body hp hg]

/-! ### Counting an event changes event counters alone -/

theorem Core.countEvent_eq (d : Domain) (code by_ : Nat) (c : Core) :
    c.countEvent d code by_ = { c with hc := (c.countEvent d code by_).hc } := by
  have h : ({ c.countEvent d code by_ with hc := [] } : Core) = { c with hc := [] } := by
    unfold Core.countEvent
    split
    · rfl
    · refine foldl_keeps (fun c : Core => ({ c with hc := [] } : Core)) _ (fun c j => ?_) _ _
      split <;> rfl
  revert h
  generalize c.countEvent d code by_ = x
  exact congrArg fun y : Core => ({ y with hc := x.hc } : Core)

@[simp] theorem State.coreAt_now (s : State) (i : Instr) (m : Nat) : (s.now i).coreAt m = s.coreAt m := rfl

theorem State.coreAt_count_same (s : State) (n code : Nat) : ∃ hc,
    (s.count n code).coreAt n = { s.coreAt n with hc := hc } := by
  unfold State.count
  dsimp only
  split
  · split
    · exact ⟨_, rfl⟩
    · rw [foldl_keeps (fun t : State => t.coreAt n) _ fun _ _ => State.coreAt_now _ _ n, State.coreAt_setCore_same,
        Core.countEvent_eq]
      exact ⟨_, rfl⟩
  · exact ⟨_, rfl⟩

theorem State.coreAt_count_ne (s : State) {n m : Nat} (code : Nat) (h : m ≠ n) : (s.count n code).coreAt m = s.coreAt m := by
  unfold State.count
  dsimp only
  split
  · split
    · rfl
    · rw [foldl_keeps (fun t : State => t.coreAt m) _ fun _ _ => State.coreAt_now _ _ m, State.coreAt_setCore_ne _ _ h]
  · rfl

@[simp] theorem State.count_core (s : State) (n code : Nat) : (s.count n code).core = s.core := by
  unfold State.count
  dsimp only
  split
  · split
    · rfl
    · exact foldl_keeps State.core (fun (t : State) j => t.now (.hardwareCounterWrap n (BitVec.ofNat 3 j))) (fun _ _ => rfl) _ _
  · rfl

/-! ### A switch changes who runs on its core, and is counted -/

theorem Core.runNext_eq (c : Core) : ∃ cur ring, c.runNext = { c with cur := cur, ring := ring } := by
  unfold Core.runNext
  split <;> exact ⟨_, _, rfl⟩

theorem State.coreAt_switch_same (s : State) (n : Nat) : ∃ cur ring hc,
    (s.switch n).coreAt n = { s.coreAt n with cur := cur, ring := ring, hc := hc } := by
  obtain ⟨cur, ring, hrun⟩ := Core.runNext_eq (s.coreAt n)
  have h : (s.updCore n Core.runNext).coreAt n = { s.coreAt n with cur := cur, ring := ring } :=
    (State.coreAt_updCore_same s n _).trans hrun
  unfold State.switch
  dsimp only
  split
  · exact ⟨cur, ring, _, h⟩
  · obtain ⟨hc, hcount⟩ := State.coreAt_count_same (s.updCore n Core.runNext) n 9
    rw [h] at hcount
    exact ⟨cur, ring, hc, hcount⟩

theorem State.coreAt_switch_ne (s : State) {n m : Nat} (h : m ≠ n) : (s.switch n).coreAt m = s.coreAt m := by
  unfold State.switch
  dsimp only
  split
  · exact State.coreAt_updCore_ne s _ h
  · rw [State.coreAt_count_ne _ _ h, State.coreAt_updCore_ne s _ h]

/-! ### Retiring a word -/

/-- The context of a retired word stands at the next one until its hint's delay is over (R51). -/
def Ctx.retired (x : Ctx) (c : Ctl) (cyc : Nat) (pc : W64) (b : Option W64) : Ctx :=
  { x with pc := pc, branch := b, notBefore := cyc + c.delay.toNat + 1 }

/-- On its core a retiring word changes its own context, what is counted, and under its switch bit who runs. -/
theorem State.coreAt_retire_same (s : State) (c : Ctl) (pc : W64) (b : Option W64) : ∃ cur ring hc,
    (s.retire c pc b).coreAt s.core =
      { s.me.updCtx s.k fun x => x.retired c s.cyc pc b with cur := cur, ring := ring, hc := hc } ∧
      (c.sw = false → cur = s.me.cur) := by
  obtain ⟨hc, hcount⟩ := State.coreAt_count_same (s.updCx fun x => x.retired c s.cyc pc b) s.core 2
  have h : (s.updCx fun x => x.retired c s.cyc pc b).coreAt s.core = s.me.updCtx s.k fun x => x.retired c s.cyc pc b :=
    State.coreAt_updCore_same s s.core _
  rw [h] at hcount
  unfold State.retire
  dsimp only
  split
  · next hsw =>
    split
    · exact ⟨_, _, hc, hcount, fun _ => rfl⟩
    · obtain ⟨cur, ring, hc', hs⟩ :=
        State.coreAt_switch_same ((s.updCx fun x => x.retired c s.cyc pc b).count s.core 2) s.core
      rw [hcount] at hs
      rw [State.count_core]
      exact ⟨cur, ring, hc', hs, fun h => absurd (hsw.symm.trans h) (by decide)⟩
  · exact ⟨_, _, hc, hcount, fun _ => rfl⟩

theorem State.coreAt_retire_ne (s : State) (c : Ctl) (pc : W64) (b : Option W64) {m : Nat} (h : m ≠ s.core) :
    (s.retire c pc b).coreAt m = s.coreAt m := by
  have hu : ((s.updCx fun x => x.retired c s.cyc pc b).count s.core 2).coreAt m = s.coreAt m :=
    (State.coreAt_count_ne _ _ h).trans (State.coreAt_updCore_ne s _ h)
  unfold State.retire
  dsimp only
  split
  · split
    · exact hu
    · rw [State.count_core]
      exact (State.coreAt_switch_ne _ h).trans hu
  · exact hu

/-- Settles O14: the retired context and no other is changed, and on its core who runs only under the switch bit. -/
theorem retireMovesToTheNextWord : Obligations.RetireMovesToTheNextWord := by
  unfold Obligations.RetireMovesToTheNextWord
  intro c s pc b t
  obtain ⟨cur, ring, hc, hcore, hcur⟩ := State.coreAt_retire_same s c pc b
  have hctx : ∀ k, t.ctxAt s.core k = (s.me.updCtx s.k fun x => x.retired c s.cyc pc b).ctx k := fun k =>
    (congrArg (fun y : Core => y.ctx k) hcore).trans rfl
  have hown : t.ctxAt s.core s.k = s.cx.retired c s.cyc pc b := (hctx s.k).trans (Core.ctx_updCtx_same s.me s.k _)
  rw [hown]
  refine ⟨rfl, rfl, ⟨rfl, rfl, rfl, rfl, rfl, rfl, rfl, rfl⟩, rfl, fun k hk => ?_, fun n hn => ?_, State.retire_mem s c pc b,
    fun hsw => ?_⟩
  · exact (hctx k).trans (Core.ctx_updCtx_ne s.me _ hk)
  · exact State.coreAt_retire_ne s c pc b hn
  · exact (congrArg Core.cur hcore).trans (hcur hsw)

end Sys2Proof.Machine

namespace Sys2Proof.Machine

/-! ## Integer words -/

/-! ### The values of the integer tables (R103, R131, R132) -/

theorem min_of_slt (x y : W64) : (if y.slt x then y else x) = BitVec.ofInt 64 (Min.min x.toInt y.toInt) := by
  have h : y.slt x = true ↔ y.toInt < x.toInt := BitVec.slt_iff_toInt_lt
  by_cases hlt : y.toInt < x.toInt
  · rw [if_pos (h.2 hlt), Int.min_eq_right (Int.le_of_lt hlt), BitVec.ofInt_toInt]
  · rw [if_neg (fun e => hlt (h.1 e)), Int.min_eq_left (Int.not_lt.1 hlt), BitVec.ofInt_toInt]
theorem max_of_slt (x y : W64) : (if x.slt y then y else x) = BitVec.ofInt 64 (Max.max x.toInt y.toInt) := by
  have h : x.slt y = true ↔ x.toInt < y.toInt := BitVec.slt_iff_toInt_lt
  by_cases hlt : x.toInt < y.toInt
  · rw [if_pos (h.2 hlt), Int.max_eq_right (Int.le_of_lt hlt), BitVec.ofInt_toInt]
  · rw [if_neg (fun e => hlt (h.1 e)), Int.max_eq_left (Int.not_lt.1 hlt), BitVec.ofInt_toInt]
theorem min_of_ult (x y : W64) : (if y.ult x then y else x) = BitVec.ofNat 64 (Min.min x.toNat y.toNat) := by
  have h : y.ult x = true ↔ y.toNat < x.toNat := BitVec.ult_iff_lt
  by_cases hlt : y.toNat < x.toNat
  · rw [if_pos (h.2 hlt), Nat.min_eq_right (Nat.le_of_lt hlt), BitVec.ofNat_toNat, BitVec.setWidth_eq]
  · rw [if_neg (fun e => hlt (h.1 e)), Nat.min_eq_left (Nat.not_lt.1 hlt), BitVec.ofNat_toNat, BitVec.setWidth_eq]
theorem max_of_ult (x y : W64) : (if x.ult y then y else x) = BitVec.ofNat 64 (Max.max x.toNat y.toNat) := by
  have h : x.ult y = true ↔ x.toNat < y.toNat := BitVec.ult_iff_lt
  by_cases hlt : x.toNat < y.toNat
  · rw [if_pos (h.2 hlt), Nat.max_eq_right (Nat.le_of_lt hlt), BitVec.ofNat_toNat, BitVec.setWidth_eq]
  · rw [if_neg (fun e => hlt (h.1 e)), Nat.max_eq_left (Nat.not_lt.1 hlt), BitVec.ofNat_toNat, BitVec.setWidth_eq]

/-- The upper half of the low 128 bits of an integer. -/
theorem extractLsb'_high_ofInt (z : Int) : (BitVec.ofInt 128 z).extractLsb' 64 64 = BitVec.ofInt 64 (z / 2 ^ 64) := by
  apply BitVec.eq_of_toNat_eq
  simp only [BitVec.extractLsb'_toNat, BitVec.toNat_ofInt, Nat.shiftRight_eq_div_pow]
  omega

theorem mulh_value (x y : W64) :
    BitVec.ofInt 64 (x.toInt * y.toInt / 2 ^ 64) = ((x.signExtend 128 * y.signExtend 128 : W128)).extractLsb' 64 64 := by
  rw [← extractLsb'_high_ofInt, BitVec.ofInt_mul]
  rfl
theorem mulhn_value (x y : W64) :
    BitVec.ofNat 64 (x.toNat * y.toNat / 2 ^ 64) = ((x.setWidth 128 * y.setWidth 128 : W128)).extractLsb' 64 64 := by
  have hlt : x.toNat * y.toNat < 2 ^ 128 := by
    rw [show 2 ^ 128 = 2 ^ 64 * 2 ^ 64 from rfl]
    exact Nat.mul_lt_mul'' x.isLt y.isLt
  apply BitVec.eq_of_toNat_eq
  simp only [BitVec.extractLsb'_toNat, BitVec.toNat_ofNat, BitVec.toNat_mul, BitVec.toNat_setWidth, Nat.shiftRight_eq_div_pow]
  rw [Nat.mod_eq_of_lt (a := x.toNat) (by omega), Nat.mod_eq_of_lt (a := y.toNat) (by omega), Nat.mod_eq_of_lt hlt]

theorem toInt_eq_zero_iff (y : W64) : y.toInt = 0 ↔ y = 0 := by
  rw [← BitVec.toInt_inj]
  rfl
theorem toNat_eq_zero_iff (y : W64) : y.toNat = 0 ↔ y = 0 := by
  rw [← BitVec.toNat_inj]
  rfl

theorem divS_value (x y : W64) :
    BitVec.ofInt 64 (divS 64 x.toInt y.toInt) = if y = 0 then BitVec.allOnes 64 else x.sdiv y := by
  have hy := toInt_eq_zero_iff y
  unfold divS
  by_cases h0 : y = 0
  · rw [if_pos (hy.2 h0), if_pos h0]
    rfl
  · rw [if_neg (fun e => h0 (hy.1 e)), if_neg h0]
    apply BitVec.eq_of_toInt_eq
    rw [BitVec.toInt_sdiv]
    split
    · next h =>
      rw [h.1, h.2]
      decide
    · exact BitVec.toInt_ofInt _
theorem remS_value (x y : W64) : BitVec.ofInt 64 (remS 64 x.toInt y.toInt) = if y = 0 then x else x.srem y := by
  have hy := toInt_eq_zero_iff y
  unfold remS
  by_cases h0 : y = 0
  · rw [if_pos (hy.2 h0), if_pos h0, BitVec.ofInt_toInt]
  · rw [if_neg (fun e => h0 (hy.1 e)), if_neg h0]
    have hrem : x.srem y = BitVec.ofInt 64 (x.toInt.tmod y.toInt) := by
      rw [← BitVec.toInt_srem, BitVec.ofInt_toInt]
    rw [hrem]
    split
    · next h =>
      rw [h.1, h.2]
      rfl
    · rfl
theorem divU_value (x y : W64) : BitVec.ofNat 64 (divU 64 x.toNat y.toNat) = if y = 0 then BitVec.allOnes 64 else x / y := by
  have hy := toNat_eq_zero_iff y
  by_cases h0 : y = 0
  · rw [divU, if_pos (hy.2 h0), if_pos h0]
    rfl
  · rw [divU, if_neg (fun e => h0 (hy.1 e)), if_neg h0, ← BitVec.toNat_udiv, BitVec.ofNat_toNat, BitVec.setWidth_eq]
theorem remU_value (x y : W64) : BitVec.ofNat 64 (remU x.toNat y.toNat) = if y = 0 then x else x % y := by
  have hy := toNat_eq_zero_iff y
  by_cases h0 : y = 0
  · rw [remU, if_pos (hy.2 h0), if_pos h0, BitVec.ofNat_toNat, BitVec.setWidth_eq]
  · rw [remU, if_neg (fun e => h0 (hy.1 e)), if_neg h0, ← BitVec.toNat_umod, BitVec.ofNat_toNat, BitVec.setWidth_eq]
theorem shiftCount_eq (y : W64) : shiftCount y = (y.extractLsb' 0 6).toNat := by
  simp [shiftCount, bits]

/-- A word of the common form completes with its function of the two sources. -/
theorem alu_completes {i : Instr} {c : Ctl} {lat : Nat} {d a : BitVec 6} {z : SrcZ} {s : State} {v : W64} (f : W64 → W64 → W64)
    (hx : ∀ u, exec i u = alu c lat d a z f u) (hv : f (s.readG a) (s.srcZ z) = v) : CompletesG i c lat d (GReg.data v) 0 s :=
  completesG_of_issue hx (hv ▸ rfl)

/-- Settles O23: each word has the common form, with the value of its table. -/
theorem integerWordsComplete : Obligations.IntegerWordsComplete := by
  unfold Obligations.IntegerWordsComplete
  intro c d a z s x y sh
  have hsh : shiftCount y = sh := shiftCount_eq y
  refine ⟨?add, ?sub, ?and, ?or, ?xor, ?andn, ?shl, ?shr, ?sar, ?rot, ?min, ?max, ?minn, ?maxn, ?mul, ?mulh, ?mulhn, ?div, ?divn,
    ?rem, ?remn⟩
  case add => exact alu_completes (fun x y => x + y) (fun _ => rfl) rfl
  case sub => exact alu_completes (fun x y => x - y) (fun _ => rfl) rfl
  case and => exact alu_completes (fun x y => x &&& y) (fun _ => rfl) rfl
  case or => exact alu_completes (fun x y => x ||| y) (fun _ => rfl) rfl
  case xor => exact alu_completes (fun x y => x ^^^ y) (fun _ => rfl) rfl
  case andn => exact alu_completes (fun x y => x &&& ~~~y) (fun _ => rfl) rfl
  case shl => exact alu_completes (fun x y => x <<< shiftCount y) (fun _ => rfl) (hsh ▸ rfl)
  case shr => exact alu_completes (fun x y => x >>> shiftCount y) (fun _ => rfl) (hsh ▸ rfl)
  case sar => exact alu_completes (fun x y => x.sshiftRight (shiftCount y)) (fun _ => rfl) (hsh ▸ rfl)
  case rot => exact alu_completes (fun x y => x.rotateLeft (shiftCount y)) (fun _ => rfl) (hsh ▸ rfl)
  case min => exact alu_completes (fun x y => if y.slt x then y else x) (fun _ => rfl) (min_of_slt x y)
  case max => exact alu_completes (fun x y => if x.slt y then y else x) (fun _ => rfl) (max_of_slt x y)
  case minn => exact alu_completes (fun x y => if y.ult x then y else x) (fun _ => rfl) (min_of_ult x y)
  case maxn => exact alu_completes (fun x y => if x.ult y then y else x) (fun _ => rfl) (max_of_ult x y)
  case mul => exact alu_completes (fun x y => x * y) (fun _ => rfl) rfl
  case mulh => exact alu_completes (fun x y => BitVec.ofInt 64 (x.toInt * y.toInt / 2 ^ 64)) (fun _ => rfl) (mulh_value x y)
  case mulhn => exact alu_completes (fun x y => BitVec.ofNat 64 (x.toNat * y.toNat / 2 ^ 64)) (fun _ => rfl) (mulhn_value x y)
  case div => exact alu_completes (fun x y => BitVec.ofInt 64 (divS 64 x.toInt y.toInt)) (fun _ => rfl) (divS_value x y)
  case divn => exact alu_completes (fun x y => BitVec.ofNat 64 (divU 64 x.toNat y.toNat)) (fun _ => rfl) (divU_value x y)
  case rem => exact alu_completes (fun x y => BitVec.ofInt 64 (remS 64 x.toInt y.toInt)) (fun _ => rfl) (remS_value x y)
  case remn => exact alu_completes (fun x y => BitVec.ofNat 64 (remU x.toNat y.toNat)) (fun _ => rfl) (remU_value x y)

end Sys2Proof.Machine

namespace Sys2Proof.Machine

/-! ## Comparison, selection and the exact floating-point words -/

/-- A word whose body writes one predicate result. -/
theorem completesQ_of_issue {i : Instr} {c : Ctl} {body : State → Eff} {lat : Nat} {qd : BitVec 3} {b : Bool} {fl : Flags} {s : State}
    (hx : ∀ u, exec i u = issue c fPlain u body) (hb : body s = writeQ s lat qd b fl) : CompletesQ i c lat qd b fl s := by
  intro hi
  exact exec_of_issues (e := .done (s.landAfter lat (.q qd b) fl)) hx hi hb

/-- The relations of R124 on words are the relations of the numbers they stand for. -/
theorem relHolds_eq (r : Rel) (x y : W64) : relHolds r x y = (match r with
    | .eq => decide (x = y) | .ne => decide (x ≠ y)
    | .lt => decide (x.toInt < y.toInt) | .le => decide (x.toInt ≤ y.toInt)
    | .gt => decide (y.toInt < x.toInt) | .ge => decide (y.toInt ≤ x.toInt)
    | .ltn => decide (x.toNat < y.toNat) | .len => decide (x.toNat ≤ y.toNat)
    | .gtn => decide (y.toNat < x.toNat) | .gen => decide (y.toNat ≤ x.toNat)
    | .tst => decide (x &&& y ≠ 0)) := by
  have hne : ∀ u v : W64, (u != v) = decide (u ≠ v) := fun u v => by
    rw [bne, decide_not]
    rfl
  cases r with
  | ne => exact hne x y
  | tst => exact hne (x &&& y) 0
  | eq | lt | le | gt | ge | ltn | len | gtn | gen => rfl

/-- Settles O26: each word writes one result, and `relHolds_eq` reads the relation. -/
theorem compareAndSelectWordsComplete : Obligations.CompareAndSelectWordsComplete := by
  unfold Obligations.CompareAndSelectWordsComplete
  intro c qd qa qb r d a b z s x y
  refine ⟨completesQ_of_issue (fun _ => rfl) ?_, completesG_of_issue (fun _ => rfl) ?_, completesQ_of_issue (fun _ => rfl) rfl,
    completesQ_of_issue (fun _ => rfl) rfl, completesQ_of_issue (fun _ => rfl) rfl⟩
  · exact congrArg (fun v => writeQ s 1 qd v 0) (relHolds_eq r x y)
  · rfl

/-- A word of the exact-result mould completes with the value and flags of its function. -/
theorem fpuExact_completes {i : Instr} {c : Ctl} {d : BitVec 6} {s : State} {v : W64} {fl : Flags} (f : State → Nat × Flags)
    (hx : ∀ u, exec i u = fpuExact c d f u) (hv : BitVec.ofNat 64 (f s).1 = v) (hfl : (f s).2 = fl) :
    CompletesG i c 2 d (GReg.data v) fl s :=
  completesG_of_issue hx (by rw [← hv, ← hfl]; rfl)

theorem sgnOp_eq (op : SgnOp) (p q : Bool) : sgnOp op p q = (match op with
    | .cp => q
    | .neg => !q
    | .xor => p != q) := by
  cases op with
  | xor => exact (congrFun₂ Bool.bne_eq_xor p q).symm
  | cp | neg => rfl

/-- Settles O29: the exact-result mould with the operands in the low bits of their format. -/
theorem exactFloatWordsComplete : Obligations.ExactFloatWordsComplete := by
  unfold Obligations.ExactFloatWordsComplete
  intro c f r op qd d a b s g x y neg
  have hneg : sgnOp op (signOf g x) (signOf g y) = neg := sgnOp_eq op _ _
  refine ⟨?fmin, ?fmax, ?fclass, ?fsgn, ?fcmp⟩
  case fmin => exact fpuExact_completes (fun s => fMinMax g false (fBits f (s.readG a)) (fBits f (s.readG b))) (fun _ => rfl) rfl rfl
  case fmax => exact fpuExact_completes (fun s => fMinMax g true (fBits f (s.readG a)) (fBits f (s.readG b))) (fun _ => rfl) rfl rfl
  case fclass => exact fpuExact_completes (fun s => (2 ^ fClassBit g (fBits f (s.readG a)), 0)) (fun _ => rfl) rfl rfl
  case fsgn =>
    refine fpuExact_completes (fun s => (flipSign g (fBits f (s.readG a))
      (sgnOp op (signOf g (fBits f (s.readG a))) (signOf g (fBits f (s.readG b)))), 0)) (fun _ => rfl) ?_ rfl
    exact congrArg (fun n => BitVec.ofNat 64 (flipSign g x n)) hneg
  case fcmp => exact completesQ_of_issue (fun _ => rfl) rfl

end Sys2Proof.Machine

namespace Sys2Proof.Machine

/-! ## Bit fields and immediates -/

/-! ### Counts (R133) -/

/-- A count of at most 64 is the number its result holds. -/
theorem toNat_ofNat_count {n : Nat} (h : n ≤ 64) : (BitVec.ofNat 64 n).toNat = n := by
  rw [BitVec.toNat_ofNat, Nat.mod_eq_of_lt (by omega)]

theorem toNat_ne_zero {x : W64} (h : x ≠ 0) : x.toNat ≠ 0 := mt (toNat_eq_zero_iff x).1 h
theorem log2_lt_64 {x : W64} (h : x ≠ 0) : x.toNat.log2 < 64 := (Nat.log2_lt (toNat_ne_zero h)).2 x.isLt

theorem clz64_le (x : W64) : clz64 x ≤ 64 := by
  unfold clz64
  split <;> omega
theorem getLsbD_above_clz (x : W64) {i : Nat} (hi : 64 ≤ i + clz64 x) : x.getLsbD i = false := by
  unfold clz64 at hi
  split at hi
  · next h => rw [h]; exact BitVec.getLsbD_zero
  · next h =>
    have hlog : x.toNat.log2 + 1 ≤ i := by
      have := log2_lt_64 h
      omega
    exact Nat.testBit_lt_two_pow (Nat.lt_of_lt_of_le Nat.lt_log2_self (Nat.pow_le_pow_right (by omega) hlog))
theorem getLsbD_at_clz (x : W64) (h : clz64 x < 64) : x.getLsbD (63 - clz64 x) = true := by
  unfold clz64 at h ⊢
  split at h
  · omega
  · next hx =>
    rw [if_neg hx, show 63 - (63 - x.toNat.log2) = x.toNat.log2 by have := log2_lt_64 hx; omega]
    exact Nat.testBit_log2 (toNat_ne_zero hx)

/-- CTZ counts the bits below the lowest one, all 64 of them where there is none. -/
theorem ctz64_spec (x : W64) :
    ctz64 x ≤ 64 ∧ (∀ i, i < ctz64 x → x.getLsbD i = false) ∧ (ctz64 x < 64 → x.getLsbD (ctz64 x) = true) := by
  unfold ctz64
  cases h : (List.range 64).find? fun i => x.getLsbD i with
  | none =>
    have hz := List.find?_range_eq_none.1 h
    exact ⟨Nat.le_refl 64, fun i hi => by simpa using hz i hi, fun h => absurd h (Nat.lt_irrefl 64)⟩
  | some n =>
    obtain ⟨hn, hmem, hbelow⟩ := List.find?_range_eq_some.1 h
    exact ⟨Nat.le_of_lt (List.mem_range.1 hmem), fun i hi => by simpa using hbelow i hi, fun _ => hn⟩

theorem popc64_le (x : W64) : popc64 x ≤ 64 := by
  have h := List.length_filter_le (fun i => x.getLsbD i) (List.range 64)
  rwa [List.length_range] at h

/-- The number whose bits are those of `x` below `n`, from the top down. -/
theorem testBit_brevFold (x : W64) (n j : Nat) :
    ((List.range n).foldl (fun acc i => 2 * acc + (if x.getLsbD i then 1 else 0)) 0).testBit j =
      (decide (j < n) && x.getLsbD (n - 1 - j)) := by
  induction n generalizing j with
  | zero => simp
  | succ n ih =>
    rw [List.range_succ, List.foldl_append]
    simp only [List.foldl_cons, List.foldl_nil]
    generalize hacc : (List.range n).foldl (fun acc i => 2 * acc + (if x.getLsbD i then 1 else 0)) 0 = acc at ih ⊢
    cases j with
    | zero =>
      rw [Nat.testBit_zero]
      cases hx : x.getLsbD n <;> simp [hx, Nat.add_mod, -BitVec.getLsbD_eq_getElem]
    | succ j =>
      rw [Nat.testBit_add_one, show (2 * acc + if x.getLsbD n then 1 else 0) / 2 = acc by split <;> omega, ih]
      simp [Nat.sub_sub, Nat.add_comm]
theorem brev64_hasBits (x : W64) : hasBits (brev64 x) fun i => x.getLsbD (63 - i) := by
  intro i hi
  rw [brev64, BitVec.getLsbD_ofNat, testBit_brevFold]
  simp [hi]

/-! ### Extension (R134) -/

/-- The integer that the low bits of a signed format stand for. -/
theorem ofInt_val_signed {f : IFmt} (x : W64) (hs : IFmt.signed f = true) :
    BitVec.ofInt 64 (IFmt.val f (x.toNat % 2 ^ IFmt.width f)) = (x.setWidth (IFmt.width f)).signExtend 64 := by
  rw [BitVec.signExtend, BitVec.toInt_eq_toNat_cond, BitVec.toNat_setWidth]
  congr 1
  unfold IFmt.val
  have hp : 2 ^ IFmt.width f = 2 * 2 ^ (IFmt.width f - 1) := by cases f <;> rfl
  simp only [Nat.mod_mod, hs, Bool.true_and, decide_eq_true_eq]
  rw [hp]
  split <;> split <;> omega
theorem ofInt_val_unsigned {f : IFmt} (x : W64) (hs : IFmt.signed f = false) :
    BitVec.ofInt 64 (IFmt.val f (x.toNat % 2 ^ IFmt.width f)) = (x.setWidth (IFmt.width f)).setWidth 64 := by
  simp only [IFmt.val, hs, Bool.false_and, Nat.mod_mod]
  rw [← BitVec.toNat_setWidth]
  exact (BitVec.ofInt_natCast 64 _).trans (BitVec.ofNat_toNat 64 _)
theorem extInt_value (f : IFmt) (x : W64) : extInt f (x.toNat % 2 ^ IFmt.width f) = (match f with
    | .i8 => (x.setWidth 8).signExtend 64 | .i16 => (x.setWidth 16).signExtend 64 | .i32 => (x.setWidth 32).signExtend 64
    | .n8 => (x.setWidth 8).setWidth 64 | .n16 => (x.setWidth 16).setWidth 64 | .n32 => (x.setWidth 32).setWidth 64
    | .i64 | .n64 => x) := by
  cases f with
  | i8 | i16 | i32 => exact ofInt_val_signed x rfl
  | n8 | n16 | n32 => exact ofInt_val_unsigned x rfl
  | i64 => exact (ofInt_val_signed x rfl).trans (by simp [IFmt.width])
  | n64 => exact (ofInt_val_unsigned x rfl).trans (by simp [IFmt.width])

/-! ### Fields (R133) -/

theorem fieldPos_eq (p : W64) : fieldPos p = p.toNat % 64 := by
  simp [fieldPos, bits]
theorem fieldLen_eq (n : W64) : fieldLen n = Min.min 64 (n.toNat % 128) := by
  simp [fieldLen, bits]

theorem bfx_hasBits (a p n : W64) :
    hasBits (bfx a p n) fun i => decide (i < fieldLen n) && decide (fieldPos p + i < 64) && a.getLsbD (fieldPos p + i) := by
  intro i hi
  rw [bfx, BitVec.getLsbD_ofNat, Nat.testBit_mod_two_pow, Nat.testBit_div_two_pow, Nat.add_comm i]
  change (decide (i < 64) && (decide (i < fieldLen n) && a.getLsbD (fieldPos p + i))) = _
  by_cases h : fieldPos p + i < 64
  · simp [hi, h]
  · simp [h, BitVec.getLsbD_of_ge a (fieldPos p + i) (by omega)]

/-- The field of BFXS is sign-extended twice: from bit 63 of the operand, then from its own top bit. -/
theorem bfxs_eq_signExtend (a p n : W64) (hlen : fieldLen n ≠ 0) :
    bfxs a p n = ((a.sshiftRight (fieldPos p)).signExtend (fieldLen n)).signExtend 64 := by
  rw [bfxs, if_neg hlen, BitVec.signExtend, BitVec.signExtend, BitVec.toInt_ofInt, BitVec.toInt_sshiftRight,
    Int.shiftRight_eq_div_pow, Int.bmod_def]
  have hp : 2 ^ fieldLen n = 2 * 2 ^ (fieldLen n - 1) := by
    rw [← Nat.pow_succ', Nat.succ_eq_add_one, Nat.sub_add_cancel (by omega)]
  have hhalf : (((2 ^ fieldLen n : Nat) : Int) + 1) / 2 = 2 ^ (fieldLen n - 1) := by
    rw [hp]
    push_cast
    omega
  rw [hhalf]
  push_cast
  rfl
theorem bfxs_hasBits (a p n : W64) : hasBits (bfxs a p n) fun i =>
    decide (0 < fieldLen n) && a.getLsbD (Min.min 63 (fieldPos p + Min.min i (fieldLen n - 1))) := by
  have hshift : ∀ j, j < 64 → (a.sshiftRight (fieldPos p)).getLsbD j = a.getLsbD (Min.min 63 (fieldPos p + j)) := by
    intro j hj
    rw [BitVec.getLsbD_sshiftRight, BitVec.msb_eq_getLsbD_last]
    split
    · next h => rw [Nat.min_eq_right (by omega)]; simp [hj]
    · next h => rw [Nat.min_eq_left (by omega)]; simp [hj]
  have hl : fieldLen n ≤ 64 := Nat.min_le_left ..
  intro i hi
  by_cases hlen : fieldLen n = 0
  · simp [bfxs, hlen]
  · rw [bfxs_eq_signExtend a p n hlen, BitVec.getLsbD_signExtend, BitVec.msb_eq_getLsbD_last]
    simp only [BitVec.getLsbD_signExtend]
    split
    · next h => simp [hi, h, hshift i hi, Nat.pos_of_ne_zero hlen, Nat.min_eq_left (show i ≤ fieldLen n - 1 by omega),
        -BitVec.getLsbD_eq_getElem]
    · next h =>
      simp [hi, hshift (fieldLen n - 1) (by omega), Nat.pos_of_ne_zero hlen, Nat.min_eq_right (show fieldLen n - 1 ≤ i by omega),
        show fieldLen n - 1 < 64 by omega, -BitVec.getLsbD_eq_getElem]

theorem bfi_hasBits (old a p n : W64) : hasBits (bfi old a p n) fun i =>
    if fieldPos p ≤ i ∧ i < fieldPos p + fieldLen n then a.getLsbD (i - fieldPos p) else old.getLsbD i := by
  intro i hi
  have hm : (BitVec.ofNat 64 ((2 ^ fieldLen n - 1) * 2 ^ fieldPos p)).getLsbD i =
      decide (fieldPos p ≤ i ∧ i < fieldPos p + fieldLen n) := by
    rw [BitVec.getLsbD_ofNat, Nat.testBit_mul_two_pow, Nat.testBit_two_pow_sub_one]
    simp only [hi, decide_true, Bool.true_and, ← Bool.decide_and]
    congr 1
    apply propext
    omega
  simp only [bfi, BitVec.getLsbD_or, BitVec.getLsbD_and, BitVec.getLsbD_not, hm, BitVec.getLsbD_shiftLeft]
  split
  · next h => simp [hi, h, Nat.not_lt.2 h.1]
  · next h => simp [hi, h]

/-! ### The words -/

/-- A word of the one-source form completes with its function of the source. -/
theorem bitOp_completes {i : Instr} {c : Ctl} {d a : BitVec 6} {s : State} (f : W64 → W64) (hx : ∀ u, exec i u = bitOp c d a f u) :
    CompletesG i c 1 d (GReg.data (f (s.readG a))) 0 s :=
  completesG_of_issue hx rfl

/-- Settles O25: each word has its one form, and the lemmas above read the bits of its value. -/
theorem fieldAndImmediateWordsComplete : Obligations.FieldAndImmediateWordsComplete := by
  unfold Obligations.FieldAndImmediateWordsComplete
  intro c d a p n f z s x pos len
  have hpos : fieldPos (s.gi p) = pos := fieldPos_eq _
  have hlen : fieldLen (s.gi n) = len := fieldLen_eq _
  have hclz := toNat_ofNat_count (clz64_le x)
  have hpopc := toNat_ofNat_count (popc64_le x)
  obtain ⟨hctzLe, hctzBelow, hctzAt⟩ := ctz64_spec x
  have hctz := toNat_ofNat_count hctzLe
  refine ⟨?clz, ?ctz, ?popc, ?brev, ?ext, ?bfx, ?bfxs, ?bfi, ?movi, ?movh⟩
  case clz =>
    refine ⟨_, bitOp_completes (fun x => BitVec.ofNat 64 (clz64 x)) (fun _ => rfl), ?_⟩
    rw [hclz]
    exact ⟨clz64_le x, fun i hi => getLsbD_above_clz x hi, getLsbD_at_clz x⟩
  case ctz =>
    refine ⟨_, bitOp_completes (fun x => BitVec.ofNat 64 (ctz64 x)) (fun _ => rfl), ?_⟩
    rw [hctz]
    exact ⟨hctzLe, hctzBelow, hctzAt⟩
  case popc => exact ⟨_, bitOp_completes (fun x => BitVec.ofNat 64 (popc64 x)) (fun _ => rfl), hpopc⟩
  case brev => exact ⟨_, bitOp_completes brev64 (fun _ => rfl), brev64_hasBits x⟩
  case ext =>
    have h := bitOp_completes (i := .ext c d f a) (c := c) (d := d) (a := a) (s := s)
      (fun x => extInt f (x.toNat % 2 ^ IFmt.width f)) (fun _ => rfl)
    rw [extInt_value] at h
    exact h
  case bfx =>
    rw [← hpos, ← hlen]
    exact ⟨bfx x (s.gi p) (s.gi n), completesG_of_issue (fun _ => rfl) rfl, bfx_hasBits x _ _⟩
  case bfxs =>
    rw [← hpos, ← hlen]
    exact ⟨bfxs x (s.gi p) (s.gi n), completesG_of_issue (fun _ => rfl) rfl, bfxs_hasBits x _ _⟩
  case bfi =>
    rw [← hpos, ← hlen]
    exact ⟨bfi (s.readG d) x (s.gi p) (s.gi n), completesG_of_issue (fun _ => rfl) rfl, bfi_hasBits _ x _ _⟩
  case movi => exact completesG_of_issue (fun _ => rfl) rfl
  case movh => exact completesG_of_issue (fun _ => rfl) rfl

end Sys2Proof.Machine

namespace Sys2Proof.Machine

/-! ## Words of the spec, and the words of the allotment -/

/-- Settles O1, by decoding each word. -/
theorem specWordsDecode : Obligations.SpecWordsDecode := by
  unfold Obligations.SpecWordsDecode
  refine ⟨?cmp, ?ldl, ?fmul, ?vbcast, ?vcvt, ?mload, ?recv, ?rds, ?eret, ?waitp, ?rdcnt⟩ <;> rfl

/-- A wide word that issues traps ALLOT with the first operand outside the allotment. -/
theorem issueWide_traps {c : Ctl} {hasG : Bool} {s : State} {regs : State → List WRes} {body : State → Eff} {e : W64}
    (hroom : s.me.wq.length < 8) (hi : Issues c fPlain s = true) (hb : firstBad (regs s) = some e) :
    issueWide c fPlain hasG s regs body = .next (s.traps cALLOT e) := by
  have hfull : ¬ Config.wideSlots ≤ s.me.wq.length := Nat.not_le.2 hroom
  unfold issueWide
  rw [if_neg hfull, guard_of_issues hi]
  simp only [Bool.not_true, Bool.and_false, Bool.false_eq_true, if_false]
  rw [issue_of_issues _ hi, hb]
  rfl

/-- A direct w operand names a register of the allotment or traps with its number. -/
theorem resolveW_direct (s : State) (n : BitVec 6) :
    s.resolveW (.w n) = if n.toNat < s.cx.allot then .ok (s.cx.phys n.toNat) else .bad (n.setWidth 64) := by
  have hbad : BitVec.ofInt 64 (n.toNat : Int) = n.setWidth 64 := (BitVec.ofInt_natCast 64 _).trans (BitVec.ofNat_toNat 64 n)
  simp only [State.resolveW, State.wNumber, Int.toNat_natCast, Int.natCast_nonneg, true_and, Int.ofNat_lt, hbad]

/-- Settles O39: ALLOT and SHRINK by the cases of their bodies, the trap by `issueWide_traps`. -/
theorem allotmentWordsComplete : Obligations.AllotmentWordsComplete := by
  unfold Obligations.AllotmentWordsComplete
  intro c qd s
  refine ⟨fun b l => ?taken, ?noBlock, ?shrunk, ?empty, fun f rm d a b m e hroom hi => ⟨?vadd, ?vmov, resolveW_direct s⟩⟩
  case taken =>
    refine completesAs_of_issue (fun _ => rfl) ?_
    rintro ⟨hfree, hallot⟩
    simp only [hfree, hallot, if_true]
    rfl
  case noBlock =>
    refine completesAs_of_issue (fun _ => rfl) ?_
    rintro (hfree | hallot)
    · simp only [hfree]
      rfl
    · cases hfree : s.me.freeBlocks with
      | nil => rfl
      | cons b l =>
        simp only [Nat.not_lt.2 hallot, if_false]
        rfl
  case shrunk =>
    refine completesAs_of_issue (fun _ => rfl) ?_
    rintro ⟨hpending, hallot⟩
    simp only [hpending, hallot, Bool.false_eq_true, if_false, if_true]
    rfl
  case empty =>
    refine completesAs_of_issue (fun _ => rfl) ?_
    rintro ⟨hpending, hallot⟩
    simp only [hpending, hallot, Bool.false_eq_true, if_false, Nat.lt_irrefl]
    rfl
  case vadd => exact fun hb => issueWide_traps (regs := fun s => s.resolveW d :: s.resolveW a :: s.wgRes b) hroom hi hb
  case vmov => exact fun hb => issueWide_traps (regs := fun s => [s.resolveW d, s.resolveW a]) hroom hi hb

end Sys2Proof.Machine

namespace Sys2Proof.Machine

/-! ## The wide unit starts the head of its queue -/

/-- The state in which a head that starts is performed (R145, R147). -/
def State.headTaken (s : State) (n : Nat) (e : WEntry) (r : List WEntry) : State :=
  (((s.updCore n fun c => { c with wq := r }).updCtx n e.ctx fun x => { x with wideNotBefore := s.cyc + e.delay + 1 }).updArbor
    (arborOf n) fun a => { a with wideLast := posOf n })

theorem State.coreAt_headTaken (s : State) (n : Nat) (e : WEntry) (r : List WEntry) :
    (s.headTaken n e r).coreAt n =
      ({ s.coreAt n with wq := r } : Core).updCtx e.ctx fun x => { x with wideNotBefore := s.cyc + e.delay + 1 } := by
  change ((s.updCore n fun c => { c with wq := r }).updCtx n e.ctx _).coreAt n = _
  rw [State.updCtx, State.coreAt_updCore_same, State.coreAt_updCore_same]

theorem exec_wideIssue {s t : State} {n : Nat} {e : WEntry} {r : List WEntry} (hn : n < 4096) (hq : (s.coreAt n).wq = e :: r)
    (ht : t = if s.headReady n e = true then ((s.headTaken n e r).performWide n e).count n 3 else s) :
    exec (.wideIssue n) s = .next t := by
  refine exec_of_onCore (fun _ => rfl) hn ?_
  rw [ht, hq]
  cases hr : s.headReady n e <;> simp only [hr] <;> rfl

/-- Settles O38: what the head's start changes, and what each operation lands. -/
theorem wideIssueStartsTheHead : Obligations.WideIssueStartsTheHead := by
  unfold Obligations.WideIssueStartsTheHead
  intro n e r s hn hq mask o
  refine ⟨fun hr => ?unready, fun hr => ?ready, fun hw => ⟨?value, ?landing⟩, fun l hl => ?extr⟩
  case unready => exact exec_wideIssue hn hq (by rw [hr]; rfl)
  case ready =>
    have hc := s.coreAt_headTaken n e r
    refine ⟨_, s.headTaken n e r, exec_wideIssue hn hq (if_pos hr).symm, rfl, ?_, ?_, rfl, rfl, ?_, ?_, ?_⟩
    · rw [hc]; rfl
    · rw [State.ctxAt, hc, Core.ctx_updCtx_same]
    · rw [hc]; rfl
    · rw [hc]; rfl
    · rw [hc]; rfl
  case value =>
    cases hop : e.op with
    | fbin | ffma | fun1 | ibin | sel | perm | shuf | bcast | ins | rsum | rmax | rmin | cvt | pxenc | pxdec | mov =>
      simp only [State.performWide, hop, o, mask]
      rfl
    | cmp | mand | mor | mnot | extr | ldl | stl | ldx | stx | mrdacc | mwracc | mstacc | skip => simp [hop] at hw
  case landing => rw [State.landWide, State.coreAt_updCore_same]
  case extr =>
    have hlat : e.op.latency = 3 := by rw [hl]; rfl
    refine ⟨s.cyc + 1 + Config.freeDelay s.fresh % 3, by omega, by omega, ?_⟩
    rw [State.performWide, hl]
    change ((s.landExtr n e _).coreAt n).land = _
    rw [State.landExtr, State.coreAt_updCore_same, hlat]
    rfl

end Sys2Proof.Machine

namespace Sys2Proof.Machine

/-! ## Events of the fabric, hosts and links -/

/-! ### A core's line and a counter's overflow (R48, R371) -/

theorem icacheFill_unasked {s : State} {n line : Nat} (hn : n < 4096) (h : (s.coreAt n).ifills.contains line = false) :
    exec (.icacheFill n line) s = .next s :=
  exec_of_onCore (fun _ => rfl) hn (by simp only [h]; rfl)

section
variable {s w : State} {n line : Nat} (hn : n < 4096) (h : (s.coreAt n).ifills.contains line = true)
  (hw : w = s.walkReady (s.coreAt n).dom (line * 64))
include hn h hw

theorem icacheFill_untranslated {why : BitVec 8} (hp : w.codePlace (s.coreAt n).dom line = .bad why) :
    exec (.icacheFill n line) s = .next (w.updCore n fun c => { c with ifills := c.ifills.filter fun l => l != line }) := by
  subst hw
  exact exec_of_onCore (fun _ => rfl) hn (by simp only [h, lineBytes, hp]; rfl)

theorem icacheFill_hostHeld {pl : Place} (hp : w.codePlace (s.coreAt n).dom line = .ok pl) (hh : w.hostHolds pl = true) :
    exec (.icacheFill n line) s = .next ((w.askBack pl).later (.icacheFill n line)) := by
  subst hw
  exact exec_of_onCore (fun _ => rfl) hn (by simp only [h, lineBytes, hp, hh]; rfl)

theorem icacheFill_arrives {pl : Place} (hp : w.codePlace (s.coreAt n).dom line = .ok pl) (hh : w.hostHolds pl = false) :
    exec (.icacheFill n line) s = .next ((w.readPlace (w.keyOf (s.coreAt n).dom) pl 64).2.putILine n line pl
      (natLE 64 (w.readPlace (w.keyOf (s.coreAt n).dom) pl 64).1)) := by
  subst hw
  exact exec_of_onCore (fun _ => rfl) hn (by simp only [h, lineBytes, hp, hh]; rfl)
end

/-! ### Accesses of hosts (R274, R277) -/

section
variable {r : HostReq} {s : State} {k : Nat} (hk : k = if r.write then r.data.length else r.len)
include hk

theorem hostMemoryRequest_unbooted (hb : s.booted = false) : exec (.hostMemoryRequest r) s =
    .next (s.toHost r.source none (.hostReply r.source true (if r.write then [] else List.replicate k 0))) := by
  subst hk
  change execHostMemoryRequest r s = _
  simp only [execHostMemoryRequest, hb]
  rfl

section
variable (hb : s.booted = true) (ht : r.telemetry = true)
include hb ht

theorem hostMemoryRequest_telemetryWrite (hw : r.write = true) : exec (.hostMemoryRequest r) s =
    .next (s.toHost r.source none (.hostReply r.source true (if r.write then [] else List.replicate k 0))) := by
  subst hk
  change execHostMemoryRequest r s = _
  simp only [execHostMemoryRequest, hb, ht, hw]
  rfl

theorem hostMemoryRequest_counters (hw : r.write = false) (hc : r.counters = true) : exec (.hostMemoryRequest r) s =
    .next (s.toHost r.source none
      (.hostReply r.source false (if s.isOwner r.source then natLE k s.integrity else List.replicate k 0))) := by
  subst hk
  change execHostMemoryRequest r s = _
  simp only [execHostMemoryRequest, hb, ht, hw, hc]
  rfl

theorem hostMemoryRequest_telemetryRead (hw : r.write = false) (hc : r.counters = false) : exec (.hostMemoryRequest r) s =
    .next ((s.freeBytes k).2.toHost r.source none (.hostReply r.source false (s.freeBytes k).1)) := by
  subst hk
  change execHostMemoryRequest r s = _
  simp only [execHostMemoryRequest, hb, ht, hw, hc]
  rfl
end

section
variable (hb : s.booted = true) (ht : r.telemetry = false)
include hb ht

theorem hostMemoryRequest_unexposed (hd : s.reqDomain r k = none) :
    exec (.hostMemoryRequest r) s = .next (s.emitTo r.source (.unsupported r.source)) := by
  subst hk
  change execHostMemoryRequest r s = _
  simp only [execHostMemoryRequest, hb, ht, hd]
  rfl

variable {d : BitVec 11} (hd : s.reqDomain r k = some d)
include hd

theorem hostMemoryRequest_refused
    (hmay : ¬ (s.isOwner r.source = true ∧ (s.domainAt d).live = true ∧ s.hbmOk r.addr.toNat k = true)) :
    exec (.hostMemoryRequest r) s =
      .next (s.toHost r.source none (.hostReply r.source true (if r.write then [] else List.replicate k 0))) := by
  subst hk
  have hno : (!s.isOwner r.source || !(s.domainAt d).live || !s.hbmOk r.addr.toNat (if r.write then r.data.length else r.len)) = true := by
    simp only [Bool.or_eq_true, Bool.not_eq_true']
    grind
  change execHostMemoryRequest r s = _
  simp only [execHostMemoryRequest, hb, ht, hd, hno]
  rfl

variable (hmay : s.isOwner r.source = true ∧ (s.domainAt d).live = true ∧ s.hbmOk r.addr.toNat k = true)
include hmay

theorem hostMemoryRequest_read (hw : r.write = false) : exec (.hostMemoryRequest r) s =
    .next ((if r.hold && r.cxl then s.track d (linesOf r.addr.toNat k) else s).toHost r.source (some d)
      (.hostReply r.source false (s.outRead d r.addr.toNat k))) := by
  subst hk
  obtain ⟨ho, hl, hm⟩ := hmay
  change execHostMemoryRequest r s = _
  simp only [execHostMemoryRequest, hb, ht, hd, ho, hl, hm]
  simp only [hw]
  rfl

theorem hostMemoryRequest_write (hw : r.write = true) : exec (.hostMemoryRequest r) s =
    .next ((if r.hold && r.cxl then (s.outWrite d r.addr.toNat r.data).track d (linesOf r.addr.toNat k)
      else s.outWrite d r.addr.toNat r.data).toHost r.source (some d)
      (.hostReply r.source false (if r.atomic then s.outRead d r.addr.toNat k else []))) := by
  subst hk
  obtain ⟨ho, hl, hm⟩ := hmay
  change execHostMemoryRequest r s = _
  simp only [execHostMemoryRequest, hb, ht, hd, ho, hl, hm]
  simp only [hw]
  cases r.atomic <;> rfl
end
end

/-! ### Accesses of peers (R269) -/

theorem peerMemoryRequest_held {q : PeerReq} {s : State} {held : List Nat}
    (hq : held = (peerLines q).filter fun l => s.hostHeld.any fun h => h.1 == l) (hne : held ≠ []) : exec (.peerMemoryRequest q) s =
      .next (held.foldl (fun t l => t.askBack (.hbm (64 * l))) { s with peerWaiting := s.peerWaiting ++ [q] }) := by
  change Host.Outcome.next (s.peer q) = _
  rw [State.peer, ← hq, if_neg (by simpa using hne)]

theorem peerMemoryRequest_free {q : PeerReq} {s : State}
    (hq : ((peerLines q).filter fun l => s.hostHeld.any fun h => h.1 == l) = []) :
    exec (.peerMemoryRequest q) s = .next (s.servePeer q) := by
  change Host.Outcome.next (s.peer q) = _
  rw [State.peer, hq]
  rfl

theorem servePeer_refused {q : PeerReq} {s : State}
    (hmay : ¬ (s.booted = true ∧ (s.domainAt q.domain).live = true ∧ s.hbmOk q.addr.toNat (peerSize q) = true)) :
    s.servePeer q = s.peerReply q true [] := by
  have hno : (!s.booted || !(s.domainAt q.domain).live || !s.hbmOk q.addr.toNat (peerSize q)) = true := by
    simp only [Bool.or_eq_true, Bool.not_eq_true']
    grind
  rw [State.servePeer, if_pos hno]

section
variable {q : PeerReq} {s : State}
  (hmay : s.booted = true ∧ (s.domainAt q.domain).live = true ∧ s.hbmOk q.addr.toNat (peerSize q) = true)
include hmay

theorem servePeer_access (hq : q.atomic = none) : s.servePeer q =
    if q.write then (s.outWrite q.domain q.addr.toNat q.data).peerReply q false []
    else s.peerReply q false (s.outRead q.domain q.addr.toNat (peerSize q)) := by
  obtain ⟨hb, hl, hm⟩ := hmay
  simp only [State.servePeer, hb, hl, hm, hq]
  cases q.write <;> rfl

theorem servePeer_unaligned {y : PeerAtomic} (hq : q.atomic = some y) (ha : q.addr.toNat % peerSize q ≠ 0) :
    s.servePeer q = s.peerReply q true [] := by
  obtain ⟨hb, hl, hm⟩ := hmay
  simp only [State.servePeer, hb, hl, hm, hq]
  exact if_pos ha

theorem servePeer_atomic {y : PeerAtomic} (hq : q.atomic = some y) (ha : q.addr.toNat % peerSize q = 0) : s.servePeer q =
    (s.performOnce (s.keyOf q.domain) q.domain y.lcn y.ctx 0 (peerOp q y)).1.peerReply q false
      (atomicReply (s.performOnce (s.keyOf q.domain) q.domain y.lcn y.ctx 0 (peerOp q y)).2) := by
  obtain ⟨hb, hl, hm⟩ := hmay
  simp only [State.servePeer, hb, hl, hm, hq, ha]
  rfl
end

/-! ### Lines that hosts hold, and CXL.io (R268, R272) -/

theorem backInvalidateAnswer_unasked {l : BitVec 46} {data : Option (BitVec 512)} {s : State}
    (h : s.backInv.contains l.toNat = false) : exec (.backInvalidateAnswer l data) s = .next s := by
  change execBackInvalidateAnswer l data s = _
  simp only [execBackInvalidateAnswer, h]
  rfl

/-- A range may be exposed (R268): to its owner, of a live domain, apart from the ranges of other domains. -/
def State.mayExpose (s : State) (host : BitVec 16) (x : HdmRange) : Prop :=
  s.isOwner host = true ∧ (s.domainAt x.domain).live = true ∧ (s.exposed.all fun y =>
    x.domain == y.domain || !overlaps x.base.toNat x.len.toNat y.base.toNat y.len.toNat) = true

theorem hostCxlIoRequest_expose {host : BitVec 16} {reg : BitVec 12} {x : HdmRange} {s : State} (hb : s.booted = true)
    (hmay : s.mayExpose host x) : exec (.hostCxlIoRequest host true { reg := reg, expose := some x }) s =
      .next (({ s with exposed := x :: s.exposed } : State).emitTo host (.cxlIo host true (Config.cxlConfig reg.toNat))) := by
  obtain ⟨ho, hl, ha⟩ := hmay
  change execHostCxlIoRequest host true { reg := reg, expose := some x } s = _
  simp only [execHostCxlIoRequest, hb, ho, hl, ha]
  rfl

theorem hostCxlIoRequest_noExpose {host : BitVec 16} {reg : BitVec 12} {x : HdmRange} {s : State} (hb : s.booted = true)
    (hmay : ¬ s.mayExpose host x) : exec (.hostCxlIoRequest host true { reg := reg, expose := some x }) s =
      .next (s.emitTo host (.cxlIo host true (Config.cxlConfig reg.toNat))) := by
  have hno : (s.isOwner host && (s.domainAt x.domain).live && s.exposed.all fun y =>
      x.domain == y.domain || !overlaps x.base.toNat x.len.toNat y.base.toNat y.len.toNat) = false := by
    rw [← Bool.not_eq_true, Bool.and_eq_true, Bool.and_eq_true]
    exact fun ⟨⟨ho, hl⟩, ha⟩ => hmay ⟨ho, hl, ha⟩
  change execHostCxlIoRequest host true { reg := reg, expose := some x } s = _
  simp only [execHostCxlIoRequest, hb, hno]
  rfl

/-! ### Links (R368 to R370) -/

theorem linkKeyRollover_own {src : BitVec 16} {dom : Option (BitVec 11)} {s : State}
    (hl : ∀ d, dom = some d → (s.domainAt d).live = true) (hs : src.extractLsb' 4 12 = s.lodge.deviceId) :
    exec (.linkKeyRollover src dom) s = .next (s.putTx { s.tx src dom with gen := (s.tx src dom).gen + 1, number := 0 }) := by
  change execLinkKeyRollover src dom s = _
  cases dom with
  | none => simp [execLinkKeyRollover, hs]
  | some d => simp [execLinkKeyRollover, hs, hl d rfl]

theorem linkKeyRollover_other {src : BitVec 16} {dom : Option (BitVec 11)} {s : State}
    (hl : ∀ d, dom = some d → (s.domainAt d).live = true) (hs : src.extractLsb' 4 12 ≠ s.lodge.deviceId) :
    exec (.linkKeyRollover src dom) s = .next (s.putLink { s.link src dom with
      gen := (s.link src dom).gen + 1, lastPrev := (s.link src dom).last, last := none, newCount := 0 }) := by
  change execLinkKeyRollover src dom s = _
  cases dom with
  | none => simp [execLinkKeyRollover, hs]
  | some d => simp [execLinkKeyRollover, hs, hl d rfl]

section
variable {p : Packet} {s : State} {secret : BitVec 384} (hs : s.linkSecret p = some secret)
include hs

theorem linkPacketReceive_dropped (hv : ((s.link p.source p.domain).accept secret p).1 = false) : exec (.linkPacketReceive p) s =
    .next { s.putLink ((s.link p.source p.domain).accept secret p).2 with
      integrity := (s.putLink ((s.link p.source p.domain).accept secret p).2).integrity + 1 } := by
  change execLinkPacketReceive p s = _
  simp only [execLinkPacketReceive, hs, hv]
  rfl

theorem linkPacketReceive_empty (hv : ((s.link p.source p.domain).accept secret p).1 = true) (hc : Config.carried p.data = none) :
    exec (.linkPacketReceive p) s = .next (s.putLink ((s.link p.source p.domain).accept secret p).2) := by
  change execLinkPacketReceive p s = _
  simp only [execLinkPacketReceive, hs, hv, hc]
  rfl

theorem linkPacketReceive_carried {i : Instr} (hv : ((s.link p.source p.domain).accept secret p).1 = true)
    (hc : Config.carried p.data = some i) : exec (.linkPacketReceive p) s =
      let t := s.putLink ((s.link p.source p.domain).accept secret p).2
      .next (if t.mayCarry p (s.portAt p.port.toNat).cxl i then t.now (fromPeer (p.source.extractLsb' 4 12) i) else t) := by
  change execLinkPacketReceive p s = _
  simp only [execLinkPacketReceive, hs, hv, hc]
  rfl
end

theorem exec_linkLoss {p : BitVec 5} (s : State) (hp : p.toNat < 18) : exec (.linkLoss p) s = .next
    (if s.booted = true ∧ (s.portAt p.toNat).up = true then
      (s.updPort p.toNat fun x => { x with up := false, width := 0 }).portStart p.toNat 1 (s.portAt p.toNat).cxl
    else s) := by
  change execLinkLoss p s = _
  rw [execLinkLoss, onPort, if_neg (Nat.not_le.2 hp)]
  cases s.booted <;> cases hu : (s.portAt p.toNat).up <;> simp [hu]

/-! ### The statement -/

/-- Settles O58: each event by the lemma of its case above. -/
theorem fabricEventsComplete : Obligations.FabricEventsComplete := by
  unfold Obligations.FabricEventsComplete
  intro n line host src h l agent inv supported dom reg x io r q p data s
  refine ⟨fun hn => ⟨icacheFill_unasked hn, fun hf => ⟨fun _ hp => icacheFill_untranslated hn hf rfl hp, fun _ hp =>
      ⟨icacheFill_hostHeld hn hf rfl hp, icacheFill_arrives hn hf rfl hp⟩⟩, fun j => ?overflow⟩,
    ?snoop, ?dequeue, ?eviction,
    ⟨hostMemoryRequest_unbooted rfl, fun hb ht => ⟨hostMemoryRequest_telemetryWrite rfl hb ht, hostMemoryRequest_counters rfl hb ht,
        hostMemoryRequest_telemetryRead rfl hb ht⟩,
      fun hb ht => ⟨hostMemoryRequest_unexposed rfl hb ht, fun d hd => ⟨hostMemoryRequest_refused rfl hb ht hd,
        hostMemoryRequest_read rfl hb ht hd, hostMemoryRequest_write rfl hb ht hd⟩⟩⟩,
    ⟨peerMemoryRequest_held rfl, fun hq => ⟨fun hmay => (peerMemoryRequest_free hq).trans (congrArg _ (servePeer_refused hmay)),
      fun hmay ha => (peerMemoryRequest_free hq).trans (congrArg _ (servePeer_access hmay ha)),
      fun y hmay ha => ⟨fun hk => (peerMemoryRequest_free hq).trans (congrArg _ (servePeer_unaligned hmay ha hk)),
        fun hk => (peerMemoryRequest_free hq).trans (congrArg _ (servePeer_atomic hmay ha hk))⟩⟩⟩,
    backInvalidateAnswer_unasked, fun hl => ⟨?noData, ?data⟩,
    ?cxlUnbooted, fun hb => ⟨?unsupported, ?config, hostCxlIoRequest_expose hb, hostCxlIoRequest_noExpose hb⟩,
    ?noSecret, fun secret hs => ⟨linkPacketReceive_dropped hs, fun hv => ⟨linkPacketReceive_empty hs hv,
      fun i hc => linkPacketReceive_carried hs hv hc⟩⟩,
    fun hl => ⟨linkKeyRollover_own hl, linkKeyRollover_other hl⟩,
    fun p hp => ⟨fun hup => ?lost, fun hup => ?alreadyDown⟩⟩
  case overflow =>
    exact ⟨fun hd => exec_of_onCore (fun _ => rfl) hn (if_pos hd), fun hd => exec_of_onCore (fun _ => rfl) hn (if_neg hd)⟩
  case snoop =>
    change execHostSnoop agent h l inv s = _
    rw [execHostSnoop]
    cases s.booted <;> rfl
  case dequeue =>
    change execSnoopDequeue agent s = _
    rw [execSnoopDequeue]
    cases s.snoops.find? fun n => n.agent == agent.toNat <;> rfl
  case eviction =>
    change execHostLineEviction agent h l s = _
    rw [execHostLineEviction]
    cases s.hostLine h l.toNat <;> rfl
  case noData =>
    intro hd
    change execBackInvalidateAnswer l data s = _
    simp only [execBackInvalidateAnswer, hl, hd]
    rfl
  case data =>
    intro v y hd hy
    change execBackInvalidateAnswer l data s = _
    simp only [execBackInvalidateAnswer, hl, hd, hy]
    rfl
  case cxlUnbooted =>
    intro hb
    change execHostCxlIoRequest host supported io s = _
    rw [execHostCxlIoRequest, hb]
    rfl
  case unsupported =>
    change execHostCxlIoRequest host false io s = _
    rw [execHostCxlIoRequest, hb]
    rfl
  case config =>
    change execHostCxlIoRequest host true { reg := reg, expose := none } s = _
    rw [execHostCxlIoRequest, hb]
    rfl
  case noSecret =>
    intro hs
    change execLinkPacketReceive p s = _
    rw [execLinkPacketReceive, hs]
  case lost => rw [exec_linkLoss s hp, if_pos hup]
  case alreadyDown => rw [exec_linkLoss s hp, if_neg hup]

end Sys2Proof.Machine

namespace Sys2Proof.Machine

/-! ## The rounding floating-point words -/

/-- A word of one g result whose body first refuses a live end in its destination (R120), and then leaves `t`. -/
theorem exec_of_leakChecked {i : Instr} {c : Ctl} {d : BitVec 6} {body : State → Eff} {s t : State}
    (hx : ∀ u, exec i u = issue c (fTo d) u body) (hb : body s = if s.leak d then leakTrap d else .done t)
    (hi : Issues c (fTo d) s = true) :
    (s.leak d = false → exec i s = .next (t.retire c s.linkAddr)) ∧
      (s.leak d = true → exec i s = .next (s.traps cENDLEAK (d.setWidth 64))) := by
  refine ⟨fun hl => exec_of_issues (e := .done t) hx hi ?_, fun hl => exec_traps hx hi ?_⟩
  · rw [hb, hl]
    rfl
  · rw [hb, hl]
    rfl

/-- A word of the arithmetic mould rounds once, in the mode at issue (R138). -/
theorem fpuArith_completes {i : Instr} {c : Ctl} {lat : Nat} {rm : Rm} {d : BitVec 6} {s : State} (f : Mode → State → Nat × Flags)
    (hx : ∀ u, exec i u = fpuArith c lat rm d f u) (hi : Issues c (fTo d) s = true) :
    (s.leak d = false → exec i s = .next (((s.scalarMode rm).2.landAfter lat
      (.g d (GReg.data (BitVec.ofNat 64 (f (s.scalarMode rm).1 s).1))) (f (s.scalarMode rm).1 s).2).retire c s.linkAddr)) ∧
      (s.leak d = true → exec i s = .next (s.traps cENDLEAK (d.setWidth 64))) :=
  exec_of_leakChecked hx rfl hi

/-- FCVT rounds once, and fills the register by its destination format (R140). -/
theorem fcvt_completes {c : Ctl} {dst src : NFmt} {rs : RmSat} {d a : BitVec 6} {s : State} (hi : Issues c (fTo d) s = true) :
    (s.leak d = false → exec (.fcvt c dst rs src d a) s = .next (((s.scalarMode rs.rm).2.landAfter 4
      (.g d (GReg.data (extend64 dst (convert dst (s.scalarMode rs.rm).1 rs.sat src (nBits src (s.readG a))).1)))
      (convert dst (s.scalarMode rs.rm).1 rs.sat src (nBits src (s.readG a))).2).retire c s.linkAddr)) ∧
      (s.leak d = true → exec (.fcvt c dst rs src d a) s = .next (s.traps cENDLEAK (d.setWidth 64))) :=
  exec_of_leakChecked (fun _ => rfl) rfl hi

/-! ### The mode at issue, and its draw (R104, R108, R109) -/

theorem State.mode_eq (s : State) (rm : Rm) : s.mode rm = if rm = .dyn then rmOfCode s.cx.rmode else rm := by
  cases rm <;> rfl

theorem State.scalarMode_rm (s : State) (rm : Rm) : (s.scalarMode rm).1.rm = s.mode rm := by
  unfold State.scalarMode
  dsimp only
  split <;> rfl

theorem State.takeDraws_one (s : State) : (s.takeDraws 1).1 = [drawAt s.me.proc.srseed s.me.proc.lcn s.me.proc.srctr] :=
  congrArg (fun n => [drawAt s.me.proc.srseed s.me.proc.lcn n]) (BitVec.add_zero _)

/-- Only SR draws. -/
theorem State.scalarMode_of_ne_sr {s : State} {rm : Rm} (h : s.mode rm ≠ .sr) : (s.scalarMode rm).2 = s := by
  simp only [State.scalarMode, if_neg h]

section
variable {s : State} {rm : Rm} (h : s.mode rm = .sr)
include h

/-- SR rounds with the low 16 bits of the generator's next draw. -/
theorem State.scalarMode_draw : (s.scalarMode rm).1.u =
    (drawAt s.me.proc.srseed s.me.proc.lcn s.me.proc.srctr).toNat % 2 ^ 16 := by
  simp only [State.scalarMode, if_pos h, State.takeDraws_one, List.getElem?_cons_zero, Option.getD_some]

theorem State.scalarMode_srctr : ((s.scalarMode rm).2.coreAt s.core).proc.srctr = s.me.proc.srctr + 1 := by
  simp only [State.scalarMode, if_pos h]
  exact congrArg (fun c : Core => c.proc.srctr) (State.coreAt_updCore_same s s.core _)
end

/-- Settles O28: six words of the arithmetic mould and FCVT, which differs in how its result fills the register. -/
theorem roundingFloatWordsComplete : Obligations.RoundingFloatWordsComplete := by
  unfold Obligations.RoundingFloatWordsComplete
  intro c f rm rs dst src d a b e s g md x y z done cv hi
  have hadd := fpuArith_completes (i := .fadd c f rm d a b) (fun md s => fAdd g md (fBits f (s.readG a)) (fBits f (s.readG b)))
    (fun _ => rfl) hi
  have hcvt := fcvt_completes (dst := dst) (src := src) (rs := rs) (a := a) hi
  refine ⟨fun hl => ⟨hadd.1 hl, ?fsub, ?fmul, ?ffma, ?fdiv, ?fsqrt, hcvt.1 hl⟩, fun hl => ⟨hadd.2 hl, hcvt.2 hl⟩, ?mode⟩
  case fsub =>
    exact (fpuArith_completes (fun md s => fSub g md (fBits f (s.readG a)) (fBits f (s.readG b))) (fun _ => rfl) hi).1 hl
  case fmul =>
    exact (fpuArith_completes (fun md s => fMul g md (fBits f (s.readG a)) (fBits f (s.readG b))) (fun _ => rfl) hi).1 hl
  case ffma =>
    exact (fpuArith_completes (fun md s => fFma g md (fBits f (s.readG a)) (fBits f (s.readG b)) (fBits f (s.readG e)))
      (fun _ => rfl) hi).1 hl
  case fdiv =>
    exact (fpuArith_completes (fun md s => fDiv g md (fBits f (s.readG a)) (fBits f (s.readG b))) (fun _ => rfl) hi).1 hl
  case fsqrt => exact (fpuArith_completes (fun md s => fSqrt g md (fBits f (s.readG a))) (fun _ => rfl) hi).1 hl
  case mode =>
    intro m p
    have hm : s.mode rm = m := s.mode_eq rm
    exact ⟨(s.scalarMode_rm rm).trans hm, fun h => State.scalarMode_of_ne_sr (hm ▸ h),
      fun h => ⟨State.scalarMode_draw (hm.trans h), State.scalarMode_srctr (hm.trans h)⟩⟩

end Sys2Proof.Machine

namespace Sys2Proof.Machine

/-! ## The wide floating-point words enter the queue -/

/-- What the core issue of a wide word with a w destination leaves: one entry at the end of the queue, with the mode and draws of
its rounding (R108, R146), and the next word. -/
def State.queuedWide (s : State) (c : Ctl) (op : WideOp) (rm : Rm) (hasG : Bool) (d : Nat) (x y z : WSrc) (m : BitVec 3) : State :=
  ((s.wideMode rm).2.2.enqueue { s.wentry c op hasG d m with
    a := x, b := y, c := z, rm := (s.wideMode rm).1, draws := (s.wideMode rm).2.1 }).retire c s.linkAddr

section
variable {i : Instr} {c : Ctl} {rm : Rm} {d : WOp} {m : BitVec 3} {s : State}

theorem wideOp_queues {op : WideOp} {hasG : Bool} {a b e : State → WSrc} {regs : State → List WRes}
    (hx : ∀ u, exec i u = wideOp c op rm hasG d a b e regs m u) (hi : IssuesWide c s (s.resolveW d :: regs s) = true) :
    exec i s = .next (s.queuedWide c op rm hasG (s.resolveW d).get (a s) (b s) (e s) m) := by
  rw [hx, wideOp, issueWide_of_issues (fun s => s.resolveW d :: regs s) _ hi]
  rfl

variable {f : FFmt} {a : WOp}

/-- A word of two sources, the second a w or a g register (R148). -/
theorem vbin_queues {op : FBin} {b : WG} (hx : ∀ u, exec i u = vbin c op f rm d a b m u)
    (hi : IssuesWide c s (s.resolveW d :: s.resolveW a :: s.wgRes b) = true) :
    exec i s = .next (s.queuedWide c (.fbin op f) rm (WG.isG b) (s.resolveW d).get (.reg (s.resolveW a).get)
      (s.wgSrc (fmtOf f).width b) (.val 0) m) :=
  wideOp_queues (a := wsrc a) (b := fun s => s.wgSrc (fmtOf f).width b) (e := noSrc) (regs := fun s => s.resolveW a :: s.wgRes b) hx hi

/-- A word of one source. -/
theorem vun_queues {op : FUn} (hx : ∀ u, exec i u = vun c op f rm d a m u)
    (hi : IssuesWide c s [s.resolveW d, s.resolveW a] = true) :
    exec i s = .next (s.queuedWide c (.fun1 op f) rm false (s.resolveW d).get (.reg (s.resolveW a).get) (.val 0) (.val 0) m) :=
  wideOp_queues (a := wsrc a) (b := noSrc) (e := noSrc) (regs := fun s => [s.resolveW a]) hx hi
end

theorem vfma_queues {c : Ctl} {f : FFmt} {rm : Rm} {d e : WOp} {a b : WG} {m : BitVec 3} {s : State}
    (hi : IssuesWide c s (s.resolveW d :: (s.wgRes a ++ s.wgRes b ++ [s.resolveW e])) = true) :
    exec (.vfma c f rm d a b e m) s = .next (s.queuedWide c (.ffma f) rm (WG.isG a || WG.isG b) (s.resolveW d).get
      (s.wgSrc (fmtOf f).width a) (s.wgSrc (fmtOf f).width b) (.reg (s.resolveW e).get) m) :=
  wideOp_queues (a := fun s => s.wgSrc (fmtOf f).width a) (b := fun s => s.wgSrc (fmtOf f).width b) (e := wsrc e)
    (regs := fun s => s.wgRes a ++ s.wgRes b ++ [s.resolveW e]) (fun _ => rfl) hi

/-- Settles O35: each word is of the form with two sources, of the form with one, or VFMA. -/
theorem wideFloatWordsQueue : Obligations.WideFloatWordsQueue := by
  unfold Obligations.WideFloatWordsQueue
  intro c f rm d a e b m s w src put
  refine ⟨fun hi => ⟨?vadd, ?vsub, ?vmul, ?vdiv, ?vmin, ?vmax⟩, fun hi => ⟨?vabs, ?vneg, ?vrcp, ?vrsq, ?vexp2, ?vlog2⟩,
    fun a' hi => vfma_queues hi⟩
  case vadd | vsub | vmul | vdiv | vmin | vmax => exact vbin_queues (fun _ => rfl) hi
  case vabs | vneg | vrcp | vrsq | vexp2 | vlog2 => exact vun_queues (fun _ => rfl) hi

end Sys2Proof.Machine

namespace Sys2Proof.Machine

/-! ## Requests to the Lodge -/

/-- A step that is one choice between two next states, told by a condition that is equivalent to the model's test. -/
theorem exec_of_ite {i : Instr} {p q : Prop} [Decidable p] {s a b : State} (hx : exec i s = if p then .next a else .next b)
    (h : p ↔ q) : (q → exec i s = .next a) ∧ (¬ q → exec i s = .next b) :=
  ⟨fun hq => hx.trans (if_pos (h.2 hq)), fun hq => hx.trans (if_neg (mt h.1 hq))⟩

theorem notBoth_iff (b c : Bool) : (!b || !c) = true ↔ ¬ (b = true ∧ c = true) := by
  rw [← Bool.not_and, Bool.not_eq_true', ← Bool.not_eq_true, Bool.and_eq_true]

/-- The same for a step that is refused unless both of two tests hold. -/
theorem exec_of_both {i : Instr} {b c : Bool} {s t u : State}
    (hx : exec i s = if (!b || !c) = true then .next t else .next u) :
    (b = true ∧ c = true → exec i s = .next u) ∧ (¬ (b = true ∧ c = true) → exec i s = .next t) :=
  ⟨fun hm => hx.trans (if_neg fun hn => (notBoth_iff b c).1 hn hm), fun hm => hx.trans (if_pos ((notBoth_iff b c).2 hm))⟩

/-! ### Reports, nonces and ownership (R348, R349, R378) -/

theorem deviceReportRequest_cases (host : BitVec 16) (nonce : BitVec 384) (s : State) :
    (s.booted = true →
      exec (.deviceReportRequest host nonce) s = .next (s.answer host true (s.report 0 0 (bytes48 nonce) []))) ∧
    (¬ s.booted = true → exec (.deviceReportRequest host nonce) s = .next (s.answer host false [])) :=
  exec_of_ite rfl Iff.rfl

/-- A fresh nonce is none that was issued before (R348). -/
theorem State.freshNonce_notMem {n : Nat} {s : State} {x : BitVec 384} (h : (State.freshNonce n s).1 = some x) :
    x ∉ s.lodge.issued := by
  induction n generalizing s with
  | zero => exact absurd h nofun
  | succ n ih =>
    unfold State.freshNonce at h
    dsimp only at h
    split at h
    · exact (ih h : x ∉ s.lodgeDraw.2.lodge.issued)
    · next hnew =>
      obtain rfl := Option.some.inj h
      exact fun hx => hnew (List.contains_iff_mem.2 hx)

theorem ownershipChallenge_unbooted {host : BitVec 16} {s : State} (hb : s.booted = false) :
    exec (.ownershipChallenge host) s = .next (s.answer host false []) := by
  change execOwnershipChallenge host s = _
  rw [execOwnershipChallenge, hb]
  rfl

section
variable {host : BitVec 16} {s : State} (hb : s.booted = true)
include hb

theorem ownershipChallenge_none (hz : (State.freshNonce (s.lodge.issued.length + 1) s).1 = none) :
    exec (.ownershipChallenge host) s =
      .next ((State.freshNonce (s.lodge.issued.length + 1) s).2.answer host false []) := by
  change execOwnershipChallenge host s = _
  simp only [execOwnershipChallenge, hb, hz]
  rfl

theorem ownershipChallenge_some {x : BitVec 384} (hz : (State.freshNonce (s.lodge.issued.length + 1) s).1 = some x) :
    exec (.ownershipChallenge host) s = .next (((State.freshNonce (s.lodge.issued.length + 1) s).2.updLodge fun l =>
      { l with nonces := x :: l.nonces, issued := x :: l.issued }).answer host true (bytes48 x)) := by
  change execOwnershipChallenge host s = _
  simp only [execOwnershipChallenge, hb, hz]
  rfl
end

section
variable (host newHost : BitVec 16) (nonce newCred : BitVec 384) (g : Signed) (s : State)

theorem ownershipClaim_cases :
    (s.booted = true ∧ s.lodge.owner = none ∧ s.listed (credential g) = true ∧ s.signedOk nonce host g = true →
      exec (.ownershipClaim host nonce g) s = .next
        (((s.dropNonce nonce).updLodge fun l => { l with owner := some (host, credential g) }).kick.answer host true [])) ∧
    (¬ (s.booted = true ∧ s.lodge.owner = none ∧ s.listed (credential g) = true ∧ s.signedOk nonce host g = true) →
      exec (.ownershipClaim host nonce g) s = .next (s.answer host false [])) :=
  exec_of_ite rfl (by simp only [Bool.and_eq_true, Option.isNone_iff_eq_none, and_assoc])

theorem handover_cases :
    (s.ownerSigned host nonce newHost g = true ∧ s.listed newCred = true →
      exec (.handover host nonce newHost newCred g) s = .next
        ((((s.askAcks host).dropNonce nonce).updLodge fun l => { l with owner := some (newHost, newCred) }).answer host true [])) ∧
    (¬ (s.ownerSigned host nonce newHost g = true ∧ s.listed newCred = true) →
      exec (.handover host nonce newHost newCred g) s = .next (s.answer host false [])) :=
  exec_of_ite rfl Bool.and_eq_true_iff

theorem ownershipRelease_cases :
    (s.ownerSigned host nonce host g = true → exec (.ownershipRelease host nonce g) s = .next
      (((s.dropNonce nonce).updLodge fun l => { l with owner := none, acks := [] }).answer host true [])) ∧
    (¬ s.ownerSigned host nonce host g = true → exec (.ownershipRelease host nonce g) s = .next (s.answer host false [])) :=
  exec_of_ite rfl Iff.rfl
end

/-! ### Device id, domains, cores and windows (R119, R269, R345 to R347) -/

/-- A live domain spans devices (R269). -/
def State.spans (s : State) : Bool := s.domains.any fun p => p.2.live && p.2.record.getLsbD 16

section
variable (src : BitVec 16) (s : State)

theorem deviceIdAssign_cases (id : BitVec 12) :
    (s.isOwner src = true ∧ s.spans = false → exec (.deviceIdAssign src id) s = .next
      ((s.updLodge fun l => { l with deviceId := id }).answer src true [])) ∧
    (¬ (s.isOwner src = true ∧ s.spans = false) → exec (.deviceIdAssign src id) s = .next (s.answer src false [])) :=
  exec_of_ite rfl (by rw [Bool.and_eq_true, Bool.not_eq_true']; rfl)

/-- The domain that a request names. -/
def requestDomain (r : DomainReq) : BitVec 11 := BitVec.ofNat 11 (domainField r.record 0 2)

/-- The domain of a request is made anew, under a fresh secret (R345). -/
def State.withDomain (s : State) (r : DomainReq) : State :=
  (s.updLodge fun l => { l with drbg := l.drbg + 2 }).updDomain (requestDomain r) fun _ => { Domain.init with
    live := true, gen := (s.domainAt (requestDomain r)).gen + 1, record := r.record, secret := Config.drbg (s.lodge.drbg + 1) }

theorem domainCreate_cases (r : DomainReq) :
    (s.isOwner src = true ∧ requestOk r = true ∧ (s.domainAt (requestDomain r)).live = false →
      exec (.domainCreate src r) s = .next ((s.withDomain r).answer src true [])) ∧
    (¬ (s.isOwner src = true ∧ requestOk r = true ∧ (s.domainAt (requestDomain r)).live = false) →
      exec (.domainCreate src r) s = .next (s.answer src false [])) :=
  exec_of_ite rfl (by rw [Bool.and_eq_true, Bool.and_eq_true, Bool.not_eq_true', and_assoc]; rfl)

/-- A domain without its gangs and what they held, its cores given to none (R347). -/
def State.withoutDomain (s : State) (d : BitVec 11) : State :=
  let t := (s.gangs.filter fun p => p.2.domain == d).foldl (fun t p => t.haltGang p.1) s
  ((t.domainCores d).foldl (fun t n => t.assignCore n none true) (t.dropDomain d)).updDomain d fun x =>
    { Domain.init with gen := x.gen }

theorem domainDestroy_cases (dom : BitVec 11) :
    (s.isOwner src = true ∧ (s.domainAt dom).live = true →
      exec (.domainDestroy src dom) s = .next ((s.withoutDomain dom).answer src true [])) ∧
    (¬ (s.isOwner src = true ∧ (s.domainAt dom).live = true) →
      exec (.domainDestroy src dom) s = .next (s.answer src false [])) :=
  exec_of_both rfl

theorem formatWindowChange_cases {mc : BitVec 4} (win : BitVec 4) (desc : BitVec 256) (hmc : mc.toNat < 12) :
    (s.isOwner src = true ∧ s.windowMay mc.toNat win.toNat (winMask desc) = true → exec (.formatWindowChange src mc win desc) s =
      .next ((s.setWindow mc.toNat win.toNat (winMask desc)).answer src true [])) ∧
    (¬ (s.isOwner src = true ∧ s.windowMay mc.toNat win.toNat (winMask desc) = true) →
      exec (.formatWindowChange src mc win desc) s = .next (s.answer src false [])) :=
  exec_of_both (if_neg (Nat.not_le.2 hmc))

/-! A core passes to a domain that lives, or to none (R346). -/

variable {src s} {core : BitVec 12} {dest : Option (BitVec 11)}

theorem coreAssign_refused (h : ¬ (s.isOwner src = true ∧ ∀ d, dest = some d → (s.domainAt d).live = true)) :
    exec (.coreAssign src core dest) s = .next (s.answer src false []) := by
  cases dest with
  | none => exact if_pos ((notBoth_iff _ true).2 fun hm => h ⟨hm.1, nofun⟩)
  | some d => exact if_pos ((notBoth_iff _ _).2 fun hm => h ⟨hm.1, fun _ hd => Option.some.inj hd ▸ hm.2⟩)

section
variable (ho : s.isOwner src = true) (hk : ∀ d, dest = some d → (s.domainAt d).live = true)
include ho hk

theorem coreAssign_known : exec (.coreAssign src core dest) s = if (s.coreAt core.toNat).bound = true then
      .next (s.later (.coreAssign src core dest))
    else .next ((s.assignCore core.toNat dest false).answer src true []) := by
  cases dest with
  | none => exact if_neg fun hn => (notBoth_iff _ true).1 hn ⟨ho, rfl⟩
  | some d => exact if_neg fun hn => (notBoth_iff _ _).1 hn ⟨ho, hk d rfl⟩
end
end

/-! ### The page of a request (R366, R367) -/

section
variable {s : State} {src : BitVec 16} {dom : BitVec 11} {va : Nat}

theorem State.ownerPage_of_not_owner (h : ¬ s.isOwner src = true) : s.ownerPage src dom va = none := by
  rw [State.ownerPage, Bool.eq_false_of_not_eq_true h]
  rfl

theorem State.ownerPage_of_not_live (h : (s.domainAt dom).live = false) : s.ownerPage src dom va = none := by
  rw [State.ownerPage, h, Bool.and_false]
  rfl
end

section
variable {s : State} {src : BitVec 16} {dom : BitVec 11} {va : BitVec 48} {h : BitVec 12}

theorem pageEvict_none (hp : s.ownerPage src dom va.toNat = none) :
    exec (.pageEvict src dom va h) s = .next (s.answer src false []) := by
  change execPageEvict src dom va h s = _
  rw [execPageEvict, hp]

/-- The page may go out: its frame is this device's, and it is going out already or its entry is a leaf that is here. -/
def State.mayEvict (s : State) (k pa : Nat) (e : W64) : Prop :=
  s.hbmOk pa 65536 = true ∧ (s.lodge.evicting.contains k = true ∨ (e.getLsbD 0 = true ∧ bits e 8 7 = 0 ∧ leafHere e = true))

theorem State.mayEvict_iff (s : State) (k pa : Nat) (e : W64) : s.mayEvict k pa e ↔
    ¬ (!s.hbmOk pa 65536 || (!s.lodge.evicting.contains k && !(e.getLsbD 0 && bits e 8 7 == 0 && leafHere e))) = true := by
  simp only [State.mayEvict, Bool.or_eq_true, Bool.and_eq_true, Bool.not_eq_true']
  grind

/-- The page is marked as going out, where it was not so already. -/
def State.pageLeaving (s : State) (dom : BitVec 11) (k : Nat) (x : State) (a : Place) (e : W64) : State :=
  if s.lodge.evicting.contains k then s
  else (x.putEntry dom a (pte e false 1 (bits e 51 16))).updLodge fun l => { l with evicting := k :: l.evicting }

/-- The page is sealed and sent to its host, under its next version (R366). -/
def State.pageSent (t : State) (dom : BitVec 11) (va : BitVec 48) (h : BitVec 12) (pa : Nat) : State :=
  let k := pageKey dom va.toNat
  let u := t.recallRange pa 65536
  let plain := (List.range 65536).map fun i => u.mem.byteAs (u.keyOf dom) (pa + i)
  let sent := Config.sealPage (u.keyOf dom) pa plain
  let v := Tab.get 0 u.lodge.pages k + 1
  (u.updLodge fun l => { l with
    pages := Tab.put l.pages k v, evicting := l.evicting.filter fun x => x != k,
    away := { page := k, plain := plain, data := sent } :: l.away.filter fun x => x.page != k }).toHost (h.setWidth 16) none
      (.page h dom va.toNat v sent (Config.pageMac (u.domainAt dom).secret dom (va.setWidth 64) v sent))

variable {x : State} {a : Place} {e : W64} (hp : s.ownerPage src dom va.toNat = some (x, a, e))
include hp

theorem pageEvict_refused (hm : ¬ s.mayEvict (pageKey dom va.toNat) (65536 * bits e 51 16) e) :
    exec (.pageEvict src dom va h) s = .next (s.answer src false []) := by
  change execPageEvict src dom va h s = _
  rw [execPageEvict, hp]
  exact if_pos (not_not.1 (mt (State.mayEvict_iff ..).2 hm))

theorem pageEvict_leaves (hm : s.mayEvict (pageKey dom va.toNat) (65536 * bits e 51 16) e) {t : State}
    (ht : t = s.pageLeaving dom (pageKey dom va.toNat) x a e) : exec (.pageEvict src dom va h) s =
      if t.pageBusy (65536 * bits e 51 16) = true then .next (t.later (.pageEvict src dom va h))
      else .next ((t.pageSent dom va h (65536 * bits e 51 16)).answer src true []) := by
  subst ht
  change execPageEvict src dom va h s = _
  rw [execPageEvict, hp]
  exact if_neg ((State.mayEvict_iff ..).1 hm)
end

section
variable {s : State} {src : BitVec 16} {dom : BitVec 11} {page : BitVec 32} {off : BitVec 16} {ver : W64} {data : List Byte}
  {mac : BitVec 384}

theorem pageReturn_none (hp : s.ownerPage src dom (page ++ off).toNat = none) :
    exec (.pageReturn src dom page off ver data mac) s = .next (s.answer src false []) := by
  change execPageReturn src dom page off ver data mac s = _
  rw [execPageReturn]
  dsimp only
  rw [hp]

/-- The page may come back: its entry says that it is away, and its frame is this device's. -/
def State.mayReturn (s : State) (pa : Nat) (e : W64) : Prop :=
  e.getLsbD 0 = false ∧ bits e 8 7 ≠ 0 ∧ leafHere e = true ∧ s.hbmOk pa 65536 = true

theorem State.mayReturn_iff (s : State) (pa : Nat) (e : W64) : s.mayReturn pa e ↔
    ¬ (e.getLsbD 0 || bits e 8 7 == 0 || !leafHere e || !s.hbmOk pa 65536) = true := by
  simp only [Bool.or_eq_true, not_or, Bool.not_eq_true', Bool.not_eq_false, Bool.not_eq_true, beq_iff_eq, and_assoc]
  rfl

/-- What has come back is the page as it was sent last (R367). -/
def State.pageFits (t : State) (dom : BitVec 11) (va : BitVec 48) (ver : W64) (data : List Byte) (mac : BitVec 384) : Bool :=
  mac == Config.pageMac (t.domainAt dom).secret dom (va.setWidth 64) ver data &&
    ver == Tab.get 0 t.lodge.pages (pageKey dom va.toNat) && decide (data.length = 65536)

theorem State.pageFits_iff (t : State) (dom : BitVec 11) (va : BitVec 48) (ver : W64) (data : List Byte) (mac : BitVec 384) :
    t.pageFits dom va ver data mac = true ↔
      mac = Config.pageMac (t.domainAt dom).secret dom (va.setWidth 64) ver data ∧
        ver = Tab.get 0 t.lodge.pages (pageKey dom va.toNat) ∧ data.length = 65536 := by
  simp only [State.pageFits, Bool.and_eq_true, beq_iff_eq, decide_eq_true_eq, and_assoc]

/-- The page is back in its frame, and its domain goes on. -/
def State.pageBack (t : State) (dom : BitVec 11) (k : Nat) (a : Place) (e : W64) (data : List Byte) : State :=
  let pa := 65536 * bits e 51 16
  let u := t.recallRange pa 65536
  (((((u.pagePlain k (u.keyOf dom) pa data).zip (List.range 65536)).foldl (fun u' b =>
    u'.writePlace (u.keyOf dom) (.hbm (pa + b.2)) 1 b.1.toNat false none) u).updLodge fun l =>
      { l with away := l.away.filter fun x => x.page != k }).putEntry dom a (pte e true 0 (bits e 51 16))).resumeIntegrity dom k

/-- The page has failed: its domain stops, and its owner is told. -/
def State.pageFailed (t : State) (src : BitVec 16) (dom : BitVec 11) (va : Nat) (a : Place) (e : W64) : State :=
  ((t.putEntry dom a (pte e false 3 (bits e 51 16))).stopIntegrity dom (pageKey dom va)).toHost src none (.integrity src dom va)

variable {x : State} {a : Place} {e : W64} (hp : s.ownerPage src dom (page ++ off).toNat = some (x, a, e))
include hp

theorem pageReturn_refused (hm : ¬ s.mayReturn (65536 * bits e 51 16) e) :
    exec (.pageReturn src dom page off ver data mac) s = .next (s.answer src false []) := by
  change execPageReturn src dom page off ver data mac s = _
  rw [execPageReturn]
  dsimp only
  rw [hp]
  exact if_pos (not_not.1 (mt (State.mayReturn_iff ..).2 hm))

theorem pageReturn_arrives (hm : s.mayReturn (65536 * bits e 51 16) e) {t : State}
    (ht : t = x.putEntry dom a (pte e false 2 (bits e 51 16))) : exec (.pageReturn src dom page off ver data mac) s =
      if t.pageFits dom (page ++ off) ver data mac = true then
        .next ((t.pageBack dom (pageKey dom (page ++ off).toNat) a e data).answer src true [])
      else .next ((t.pageFailed src dom (page ++ off).toNat a e).answer src false []) := by
  subst ht
  change execPageReturn src dom page off ver data mac s = _
  rw [execPageReturn]
  dsimp only
  rw [hp]
  exact if_neg ((State.mayReturn_iff ..).1 hm)
end

/-- Settles O59: each request by the lemma of its cases above. -/
theorem lodgeRequestsComplete : Obligations.LodgeRequestsComplete := by
  unfold Obligations.LodgeRequestsComplete
  intro src host newHost nonce newCred g id core r dom dest page off ver data mac h mc win desc s va hva
  subst hva
  intro run no yes owner
  refine ⟨(deviceReportRequest_cases host nonce s).1, fun hb => ⟨?report, ownershipChallenge_unbooted hb⟩,
    fun hb => ⟨ownershipChallenge_none hb, fun x hz => ⟨State.freshNonce_notMem hz, ownershipChallenge_some hb hz⟩⟩,
    ownershipClaim_cases host nonce g s, handover_cases host newHost nonce newCred g s, (ownershipRelease_cases host nonce g s).1,
    fun hs => ?release,
    fun ho => ⟨?id, ?create, ?assign, ?destroy, pageEvict_none (State.ownerPage_of_not_owner ho),
      pageReturn_none (State.ownerPage_of_not_owner ho), fun hmc => ?window⟩,
    fun ho => ⟨fun hd => ?idGiven, fun hd => ?idRefused, ?created, ⟨?unknown, ?bound, ?assigned⟩, ?destroyed,
      fun hp => ⟨pageEvict_none hp, pageReturn_none hp⟩, fun hmc => ⟨fun hw => ?windowSet, fun hw => ?windowRefused⟩⟩,
    fun x a e hp => ⟨pageEvict_refused hp, fun hm t ht => ⟨fun hb => ?waits, fun hb => ?sent⟩, pageReturn_refused hp,
      fun hm t ht => exec_of_ite (pageReturn_arrives hp hm ht) (t.pageFits_iff ..)⟩⟩
  case report => exact (deviceReportRequest_cases host nonce s).2 (Bool.eq_false_iff.1 hb)
  case release => exact (ownershipRelease_cases host nonce g s).2 (Bool.eq_false_iff.1 hs)
  case id => exact (deviceIdAssign_cases src s id).2 fun hm => ho hm.1
  case create => exact (domainCreate_cases src s r).2 fun hm => ho hm.1
  case assign => exact coreAssign_refused fun hm => ho hm.1
  case destroy => exact (domainDestroy_cases src s dom).2 fun hm => ho hm.1
  case window => exact (formatWindowChange_cases src s win desc hmc).2 fun hm => ho hm.1
  case idGiven => exact (deviceIdAssign_cases src s id).1 ⟨ho, hd⟩
  case idRefused => exact (deviceIdAssign_cases src s id).2 fun hm => Bool.eq_false_iff.1 hm.2 hd
  case created =>
    exact ⟨fun hm => (domainCreate_cases src s r).1 ⟨ho, hm⟩, fun hm => (domainCreate_cases src s r).2 fun h => hm h.2⟩
  case unknown => exact fun hk => coreAssign_refused fun hm => hk hm.2
  case bound => exact fun hk hb => (coreAssign_known ho hk).trans (if_pos hb)
  case assigned => exact fun hk hb => (coreAssign_known ho hk).trans (if_neg (Bool.eq_false_iff.1 hb))
  case destroyed =>
    exact ⟨fun hl => (domainDestroy_cases src s dom).1 ⟨ho, hl⟩,
      fun hl => ⟨(domainDestroy_cases src s dom).2 fun hm => Bool.eq_false_iff.1 hl hm.2,
        pageEvict_none (State.ownerPage_of_not_live hl), pageReturn_none (State.ownerPage_of_not_live hl)⟩⟩
  case windowSet => exact (formatWindowChange_cases src s win desc hmc).1 ⟨ho, hw⟩
  case windowRefused => exact (formatWindowChange_cases src s win desc hmc).2 fun hm => Bool.eq_false_iff.1 hw hm.2
  case waits => exact (pageEvict_leaves hp hm ht).trans (if_pos hb)
  case sent => exact (pageEvict_leaves hp hm ht).trans (if_neg (Bool.eq_false_iff.1 hb))

end Sys2Proof.Machine

namespace Sys2Proof

/-! ## The second source of the scalar forms -/

section
variable {f : Fields}

theorem srcZ_of_imm (hi : f.imm = true) : srcZ f = some (.imm f.z) := if_pos hi

section
variable (hi : f.imm = false)
include hi

theorem srcZ_of_zlo_ne_zero (hl : f.zlo ≠ 0) : srcZ f = none := by
  have hu : unused f.zlo = none := if_neg hl
  simp [srcZ, hi, hu]

variable (hl : f.zlo = 0)
include hl

theorem srcZ_of_encG {n : BitVec 6} (hz : f.zhi = encG n 0) : srcZ f = some (.g n) := by
  simp [srcZ, hi, unused, hl, hz]

theorem srcZ_of_encSmall {v : BitVec 12} (hz : f.zhi = encSmall v) : srcZ f = some (.small v) := by
  simp [srcZ, hi, unused, hl, hz]
end
end

end Sys2Proof

namespace Sys2Proof.Machine

/-- Settles O24: the decoder takes the source by the I bit and the kind of Z.hi, and the state gives that source its value. -/
theorem secondSourceIsAsEncoded : Obligations.SecondSourceIsAsEncoded := by
  unfold Obligations.SecondSourceIsAsEncoded
  intro f s
  exact ⟨fun hi => ⟨srcZ_of_imm hi, rfl⟩,
    fun n hi hz => ⟨fun hl => srcZ_of_encG hi hl hz, srcZ_of_zlo_ne_zero hi, rfl⟩,
    fun v hi hz => ⟨fun hl => srcZ_of_encSmall hi hl hz, srcZ_of_zlo_ne_zero hi, rfl⟩⟩

end Sys2Proof.Machine

namespace Sys2Proof.Machine

/-! ## Branches -/

/-! ### What a target in a register is (R127) -/

theorem brTarget_untagged {r : GReg} (ht : r.tag = false) : brTarget r = .to (r.bits.setWidth 64) := by
  simp [brTarget, ht]

theorem brTarget_otherKind {r : GReg} (ht : r.tag = true) (hk : capKind r.bits ≠ 1) :
    brTarget r = .bad cCAPTAG (BitVec.ofNat 64 (capKind r.bits)) := by
  simp [brTarget, ht, hk]

theorem brTarget_notExecutable {r : GReg} (ht : r.tag = true) (hk : capKind r.bits = 1) (hx : capX r.bits = false) :
    brTarget r = .bad cCAPPERM 0 := by
  simp [brTarget, ht, hk, hx]

/-! ### What a branch through a register, a call and a LOOP come to (R126 to R128) -/

section
variable {i : Instr} {c : Ctl} {s : State} {a : W64}

theorem branchReg_jumps {t : BitVec 6} (hx : ∀ u, exec i u = issue c fPlain u fun s => branchReg s t)
    (hi : Issues c fPlain s = true) (ht : brTarget (s.gReg t) = .to a) : exec i s = .next (s.retire c a (some s.cx.pc)) :=
  exec_of_issues (e := .jump s a) hx hi (by rw [branchReg, ht])

theorem branchReg_traps {t : BitVec 6} {cause : BitVec 8} {val : W64} (hx : ∀ u, exec i u = issue c fPlain u fun s => branchReg s t)
    (hi : Issues c fPlain s = true) (ht : brTarget (s.gReg t) = .bad cause val) : exec i s = .next (s.traps cause val) :=
  exec_traps hx hi (by rw [branchReg, ht])

theorem callTo_links {l : BitVec 6} {body : State → Eff} (hx : ∀ u, exec i u = issue c (fTo l) u body)
    (hi : Issues c (fTo l) s = true) (hl : s.leak l = false) (hb : body s = callTo s l a) :
    exec i s = .next ((s.landAfter 1 (.g l (GReg.data s.linkAddr)) 0).retire c a (some s.cx.pc)) :=
  exec_of_issues (e := .jump (s.landAfter 1 (.g l (GReg.data s.linkAddr)) 0) a) hx hi (by simp [hb, callTo, hl])

/-- LOOP sends the decremented counter on its way, and jumps unless it is zero. -/
theorem loop_finishes {n : BitVec 6} {off : BitVec 32} (hi : Issues c { fLate with d := some n } s = true)
    (hl : s.leak n = false) :
    exec (.loop c n off) s = .next (s.finish c { fLate with d := some n }
      (if s.readG n - 1 = 0 then .done (s.landNext c.set (.g n (GReg.data (s.readG n - 1))))
        else .jump (s.landNext c.set (.g n (GReg.data (s.readG n - 1)))) (s.pcRel off))) :=
  exec_of_issues (fun _ => rfl) hi (by simp [hl])
end

/-- Settles O27: the words by what their bodies answer, and each kind of target by its case of `brTarget`. -/
theorem branchWordsComplete : Obligations.BranchWordsComplete := by
  unfold Obligations.BranchWordsComplete
  intro c l t n off a cause val s here rel
  refine ⟨fun hi => ?bra, fun hi ht => ⟨?brxTo, ?retTo⟩, fun hi ht => ⟨?brxBad, ?retBad⟩,
    fun hi hl => ⟨?callRelative, fun ht => ?callRegister⟩, fun hi hl => ⟨fun hv => ?loopEnds, fun hv => ?loopGoesOn⟩,
    brTarget_untagged, brTarget_otherKind, brTarget_notExecutable⟩
  case bra => exact exec_of_issues (e := .jump s rel) (fun _ => rfl) hi rfl
  case brxTo | retTo => exact branchReg_jumps (fun _ => rfl) hi ht
  case brxBad | retBad => exact branchReg_traps (fun _ => rfl) hi ht
  case callRelative => exact callTo_links (fun _ => rfl) hi hl rfl
  case callRegister =>
    refine callTo_links (fun _ => rfl) hi hl ?_
    rw [ht]
  case loopEnds => exact (loop_finishes hi hl).trans (by rw [if_pos hv]; rfl)
  case loopGoesOn => exact (loop_finishes hi hl).trans (by rw [if_neg hv]; rfl)

end Sys2Proof.Machine

namespace Sys2Proof.Machine

/-! ## Local-store windows -/

/-! ### Tag, kind and permission (R142, R350) -/

section
variable {r : GReg} {rd wr : Bool}

theorem windowCheck_untagged (ht : r.tag = false) : windowCheck r rd wr = some (cCAPTAG, 0) := by
  simp [windowCheck, ht]

theorem windowCheck_otherKind (ht : r.tag = true) (hk : capKind r.bits ≠ 2) :
    windowCheck r rd wr = some (cCAPTAG, BitVec.ofNat 64 (capKind r.bits)) := by
  simp [windowCheck, ht, hk]

theorem windowCheck_notPermitted (ht : r.tag = true) (hk : capKind r.bits = 2)
    (hp : rd = true ∧ capR r.bits = false ∨ wr = true ∧ capW r.bits = false) : windowCheck r rd wr = some (cCAPPERM, 0) := by
  simp [windowCheck, ht, hk, hp]

theorem windowCheck_passes (ht : r.tag = true) (hk : capKind r.bits = 2) (hr : rd = true → capR r.bits = true)
    (hw : wr = true → capW r.bits = true) : windowCheck r rd wr = none := by
  have hp : ¬ (rd = true ∧ capR r.bits = false ∨ wr = true ∧ capW r.bits = false) := by
    rintro (⟨h, hn⟩ | ⟨h, hn⟩)
    · exact absurd (hr h) (by simp [hn])
    · exact absurd (hw h) (by simp [hn])
  simp [windowCheck, ht, hk, hp]

/-! ### Bounds and alignment -/

variable {off : Int} {size align : Nat}

theorem lsAddr_of_check {cause : BitVec 8} {val : W64} (h : windowCheck r rd wr = some (cause, val)) :
    lsAddr r rd wr off size align = .bad cause val := by
  rw [lsAddr, h]

/-- The address a window's cursor and an offset give, before any check. -/
def windowAddr (r : GReg) (off : Int) : Int := (capBase r.bits + capCursor r.bits : Nat) + off

/-- The bytes at `a` leave the window or the local store. -/
def outOfWindow (r : GReg) (a : Int) (size : Nat) : Prop :=
  a < capBase r.bits ∨ (capBase r.bits + capLength r.bits : Nat) < a + size ∨ (Config.lsSize : Int) < a + size

section
variable (h : windowCheck r rd wr = none)
include h

theorem lsAddr_outOfBounds (ho : outOfWindow r (windowAddr r off) size) :
    lsAddr r rd wr off size align = .bad cCAPBND (BitVec.ofInt 64 (windowAddr r off)) := by
  rw [lsAddr, h]
  exact if_pos ho

theorem lsAddr_misaligned (ho : ¬ outOfWindow r (windowAddr r off) size) (ha : windowAddr r off % align ≠ 0) :
    lsAddr r rd wr off size align = .bad cALIGN (BitVec.ofInt 64 (windowAddr r off)) := by
  rw [lsAddr, h]
  exact (if_neg ho).trans (if_pos ha)

theorem lsAddr_at (ho : ¬ outOfWindow r (windowAddr r off) size) (ha : windowAddr r off % align = 0) :
    lsAddr r rd wr off size align = .at_ (windowAddr r off).toNat := by
  rw [lsAddr, h]
  exact (if_neg ho).trans (if_neg (not_not_intro ha))
end
end

/-- Settles O31: the checks one after the other, each with the earlier ones passed. -/
theorem windowChecksInOrder : Obligations.WindowChecksInOrder := by
  unfold Obligations.WindowChecksInOrder
  intro r rd wr off size align _ a
  refine ⟨fun ht => lsAddr_of_check (windowCheck_untagged ht), fun ht hk => lsAddr_of_check (windowCheck_otherKind ht hk),
    fun ht hk => ⟨fun hp => lsAddr_of_check (windowCheck_notPermitted ht hk hp), fun hr hw => ?_⟩⟩
  have hc := windowCheck_passes ht hk hr hw
  refine ⟨fun ho => lsAddr_outOfBounds hc ho, fun hlo hhi hls => ?_⟩
  have hin : ¬ outOfWindow r a size := by
    rintro (h | h | h)
    · exact Int.not_lt.2 hlo h
    · exact Int.not_lt.2 hhi h
    · exact Int.not_lt.2 hls h
  have h0 : 0 ≤ a := Int.le_trans (Int.natCast_nonneg _) hlo
  exact ⟨fun ha => lsAddr_misaligned hc hin ha, fun ha => ⟨a.toNat, lsAddr_at hc hin ha, Int.toNat_of_nonneg h0⟩⟩

/-! ### LDL and STL (R142) -/

section
variable {c : Ctl} {f : IFmt} {w : BitVec 6} {z : SrcZ} {a : Nat} {s : State}

theorem ldl_completes {d : BitVec 6} (hi : Issues c (fTo d) s = true)
    (ha : lsAddr (s.gReg w) true false (s.offZ z) (IFmt.width f / 8) (IFmt.width f / 8) = .at_ a)
    (hh : s.lsHeld s.core a (IFmt.width f / 8) false = false) (hl : s.leak d = false) :
    exec (.ldl c f d w z) s = .next (((s.lsRead s.core a (IFmt.width f / 8)).2.landAfter 4
      (.g d (GReg.data (extInt f (leNat (s.lsRead s.core a (IFmt.width f / 8)).1)))) 0).retire c s.linkAddr) :=
  exec_of_issues (e := .done ((s.lsRead s.core a (IFmt.width f / 8)).2.landAfter 4
    (.g d (GReg.data (extInt f (leNat (s.lsRead s.core a (IFmt.width f / 8)).1)))) 0)) (fun _ => rfl) hi (by simp [ha, hh, hl])

theorem stl_completes {r : BitVec 6} (hi : Issues c fPlain s = true)
    (ha : lsAddr (s.gReg w) false true (s.offZ z) (IFmt.width f / 8) (IFmt.width f / 8) = .at_ a)
    (hh : s.lsHeld s.core a (IFmt.width f / 8) true = false) :
    exec (.stl c f r w z) s =
      .next ((s.lsWrite s.core a (natLE (IFmt.width f / 8) (s.readG r).toNat)).retire c s.linkAddr) :=
  exec_of_issues (e := .done (s.lsWrite s.core a (natLE (IFmt.width f / 8) (s.readG r).toNat))) (fun _ => rfl) hi
    (by simp [ha, hh])

variable {cause : BitVec 8} {val : W64}

theorem ldl_traps {d : BitVec 6} (hi : Issues c (fTo d) s = true)
    (hb : lsAddr (s.gReg w) true false (s.offZ z) (IFmt.width f / 8) (IFmt.width f / 8) = .bad cause val) :
    exec (.ldl c f d w z) s = .next (s.traps cause val) :=
  exec_traps (fun _ => rfl) hi (by simp [hb])

theorem stl_traps {r : BitVec 6} (hi : Issues c fPlain s = true)
    (hb : lsAddr (s.gReg w) false true (s.offZ z) (IFmt.width f / 8) (IFmt.width f / 8) = .bad cause val) :
    exec (.stl c f r w z) s = .next (s.traps cause val) :=
  exec_traps (fun _ => rfl) hi (by simp [hb])
end

/-- Settles O30: each word at the address or the trap that its window gives. -/
theorem localWordsComplete : Obligations.LocalWordsComplete := by
  unfold Obligations.LocalWordsComplete
  intro c f d w r z a s n
  exact ⟨fun hi ha hh hl => ldl_completes hi ha hh hl, fun hi ha hh => stl_completes hi ha hh,
    fun cause val => ⟨fun hi hb => ldl_traps hi hb, fun hi hb => stl_traps hi hb⟩⟩

/-! ### Wide words of the local store (R163, R164) -/

section
variable {i : Instr} {c : Ctl} {load : Bool} {r : WOp} {w : BitVec 6} {m : BitVec 3} {s : State}

/-- What the core issue of a VLDL or VSTL at address `a` leaves: its entry in the queue, and the next word. -/
def State.queuedLocal (s : State) (c : Ctl) (op : WideOp) (r : WOp) (a : Nat) (m : BitVec 3) : State :=
  (s.enqueue { s.wentry c op false (s.resolveW r).get m with
    a := .reg (s.resolveW r).get, addr := a, len := 128 }).retire c s.linkAddr

theorem wideMem_queues {off : Int} {a : Nat} (hx : ∀ u, exec i u = wideMem c load r w off m u)
    (hi : IssuesWide c s [s.resolveW r] = true) (ha : lsAddr (s.gReg w) load (!load) off 128 4 = .at_ a) :
    exec i s = .next (s.queuedLocal c (if load then .ldl else .stl) r a m) := by
  rw [hx, wideMem, issueWide_of_issues (fun s => [s.resolveW r]) _ hi, ha]
  rfl

/-- What the core issue of a VLDX or VSTX leaves: an entry with the bounds of its window. -/
def State.queuedIndexed (s : State) (c : Ctl) (op : WideOp) (r i : WOp) (g : GReg) (m : BitVec 3) : State :=
  (s.enqueue { s.wentry c op false (s.resolveW r).get m with
    a := .reg (s.resolveW r).get, b := .reg (s.resolveW i).get, addr := capBase g.bits + capCursor g.bits,
    lo := capBase g.bits, hi := capBase g.bits + capLength g.bits }).retire c s.linkAddr

theorem wideIndexed_queues {ix : WOp} (hx : ∀ u, exec i u = wideIndexed c load r w ix m u)
    (hi : IssuesWide c s [s.resolveW r, s.resolveW ix] = true) (hw : windowCheck (s.gReg w) load (!load) = none) :
    exec i s = .next (s.queuedIndexed c (if load then .ldx else .stx) r ix (s.gReg w) m) := by
  rw [hx, wideIndexed, issueWide_of_issues (fun s => [s.resolveW r, s.resolveW ix]) _ hi]
  dsimp only
  rw [hw]
  rfl
end

/-- A lane is left out where its four bytes leave the window or the local store, or are not aligned (R163). -/
theorem WEntry.laneAddr_none_iff (e : WEntry) (off : Nat) : e.laneAddr off = none ↔
    ¬ (e.lo ≤ e.addr + off ∧ e.addr + off + 4 ≤ e.hi ∧ e.addr + off + 4 ≤ Config.lsSize ∧ off % 4 = 0) := by
  simp only [WEntry.laneAddr, ite_eq_right_iff, reduceCtorEq, imp_false]

/-- Settles O37: VLDL and VSTL are of the form with an address, VLDX and VSTX of the form with bounds. -/
theorem wideLocalWordsQueue : Obligations.WideLocalWordsQueue := by
  unfold Obligations.WideLocalWordsQueue
  intro c r i w off o m a s src put g ind
  refine ⟨fun hi => ⟨fun ha => ?vldlImmediate, fun ha => ?vldlRegister, fun ha => ?vstlImmediate, fun ha => ?vstlRegister⟩,
    fun hi => ⟨fun hw => ?vldx, fun hw => ?vstx⟩, WEntry.laneAddr_none_iff⟩
  case vldlImmediate | vldlRegister => exact wideMem_queues (load := true) (fun _ => rfl) hi ha
  case vstlImmediate | vstlRegister => exact wideMem_queues (load := false) (fun _ => rfl) hi ha
  case vldx => exact wideIndexed_queues (load := true) (fun _ => rfl) hi hw
  case vstx => exact wideIndexed_queues (load := false) (fun _ => rfl) hi hw

end Sys2Proof.Machine

namespace Sys2Proof.Machine

/-! ## The wide integer, mask, permutation, reduction, conversion and move words enter the queue -/

/-- A wide word of a form that may count or wait for its destination issues where its queue has room, its w operands lie in the
allotment, and its form lets it (R54, R146, R153). -/
theorem issueWide_of_form {c : Ctl} {f : Form} {hasG : Bool} {s : State} (regs : State → List WRes) (body : State → Eff)
    (hw : IssuesWide c s (regs s) = true) (hi : Issues c f s = true) :
    issueWide c f hasG s regs body = .next (s.finish c f (body s)) := by
  simp only [IssuesWide, Bool.and_eq_true, decide_eq_true_eq, Option.isNone_iff_eq_none] at hw
  obtain ⟨⟨hroom, -⟩, hregs⟩ := hw
  rw [issueWide, if_neg (Nat.not_le.2 hroom), guard_of_issues hi]
  simp only [Bool.not_true, Bool.and_false, Bool.false_eq_true, if_false]
  rw [issue_of_issues _ hi, hregs]

/-- What the core issue of a wide word that does not round leaves: an entry of mode RN with no draws, and the next word. -/
def State.queuedExact (s : State) (c : Ctl) (op : WideOp) (hasG : Bool) (d : Nat) (x y z : WSrc) (m : BitVec 3) : State :=
  (s.enqueue { s.wentry c op hasG d m with a := x, b := y, c := z, rm := .rn, draws := [] }).retire c s.linkAddr

/-- A word issued with the mode RN takes no draw (R108). -/
theorem State.queuedWide_rn (s : State) (c : Ctl) (op : WideOp) (hasG : Bool) (d : Nat) (x y z : WSrc) (m : BitVec 3) :
    s.queuedWide c op .rn hasG d x y z m = s.queuedExact c op hasG d x y z m := rfl

section
variable {i : Instr} {c : Ctl} {d a b : WOp} {m md : BitVec 3} {op : WideOp} {s : State}

/-! ### The forms -/

/-- A word of a w destination that does not round. -/
theorem exactOp_queues {hasG : Bool} {x y z : State → WSrc} {regs : State → List WRes}
    (hx : ∀ u, exec i u = wideOp c op .rn hasG d x y z regs m u) (hi : IssuesWide c s (s.resolveW d :: regs s) = true) :
    exec i s = .next (s.queuedExact c op hasG (s.resolveW d).get (x s) (y s) (z s) m) :=
  (wideOp_queues hx hi).trans (congrArg _ (s.queuedWide_rn c op hasG _ _ _ _ m))

/-- An integer word: the second source is a w or a g register or a small immediate (R156). -/
theorem vint_queues {ib : IBin} {f : IFmt} {v : WGI} (hx : ∀ u, exec i u = vint c ib f d a v m u)
    (hi : IssuesWide c s (s.resolveW d :: s.resolveW a :: s.wgiRes v) = true) :
    exec i s = .next (s.queuedExact c (.ibin ib f) (WGI.isG v) (s.resolveW d).get (.reg (s.resolveW a).get)
      (s.wgiSrc (IFmt.width f) v) (.val 0) m) :=
  exactOp_queues (x := wsrc a) (y := fun s => s.wgiSrc (IFmt.width f) v) (z := noSrc)
    (regs := fun s => s.resolveW a :: s.wgiRes v) hx hi

/-- A word of two w sources. -/
theorem exactOp2_queues
    (hx : ∀ u, exec i u = wideOp c op .rn false d (wsrc a) (wsrc b) noSrc (fun s => [s.resolveW a, s.resolveW b]) m u)
    (hi : IssuesWide c s [s.resolveW d, s.resolveW a, s.resolveW b] = true) :
    exec i s = .next (s.queuedExact c op false (s.resolveW d).get (.reg (s.resolveW a).get) (.reg (s.resolveW b).get) (.val 0) m) :=
  exactOp_queues (x := wsrc a) (y := wsrc b) (z := noSrc) (regs := fun s => [s.resolveW a, s.resolveW b]) hx hi

/-- A word whose one source is a scalar value in every element of width `w` (R148). -/
theorem broadcastOp_queues {w : Nat} {v : GI}
    (hx : ∀ u, exec i u = wideOp c op .rn (GI.isG v) d (fun s => .val (replicate w (s.gi v))) noSrc noSrc (fun _ => []) m u)
    (hi : IssuesWide c s [s.resolveW d] = true) :
    exec i s = .next (s.queuedExact c op (GI.isG v) (s.resolveW d).get (.val (replicate w (s.gi v))) (.val 0) (.val 0) m) :=
  exactOp_queues (x := fun s => .val (replicate w (s.gi v))) (y := noSrc) (z := noSrc) (regs := fun _ => []) hx hi

/-- A word of one w source, in the mode of its rounding. -/
theorem wideOp1_queues {rm : Rm} (hx : ∀ u, exec i u = wideOp c op rm false d (wsrc a) noSrc noSrc (fun s => [s.resolveW a]) m u)
    (hi : IssuesWide c s [s.resolveW d, s.resolveW a] = true) :
    exec i s = .next (s.queuedWide c op rm false (s.resolveW d).get (.reg (s.resolveW a).get) (.val 0) (.val 0) m) :=
  wideOp_queues (a := wsrc a) (b := noSrc) (e := noSrc) (regs := fun s => [s.resolveW a]) hx hi

/-- A word of mask registers alone has no operand to check (R158). -/
theorem maskOp_queues (hx : ∀ u, exec i u = maskOp c op md u) (hi : IssuesWide c s [] = true) :
    exec i s = .next (s.queuedExact c op false md.toNat (.val 0) (.val 0) (.val 0) 0) :=
  (hx s).trans (issueWide_of_issues (fun _ => []) _ hi)

/-! ### VCMP, VEXTR and VRSUM -/

theorem vcmp_queues {r : VRel} {v : WGI} (hi : IssuesWide c s (s.resolveW a :: s.wgiRes v) = true) :
    exec (.vcmp c r md a v m) s = .next (s.queuedExact c (.cmp r) (WGI.isG v) md.toNat (.reg (s.resolveW a).get)
      (s.wgiSrc 32 v) (.val 0) m) :=
  Eq.trans (issueWide_of_issues (fun s => s.resolveW a :: s.wgiRes v) _ hi) rfl

/-- VEXTR joins the queue where its g destination holds no live end, and counts as a late word (R54, R120, R159). -/
theorem vextr_queues {x : BitVec 6} {ln : BitVec 5} (hw : IssuesWide c s [s.resolveW a] = true) (hi : Issues c fLate s = true)
    (hl : s.leak x = false) : exec (.vextr c x a ln) s =
      .next (s.finish c fLate (.done (s.enqueue { s.wentry c (.extr ln) false x.toNat 0 with a := .reg (s.resolveW a).get }))) := by
  refine Eq.trans (issueWide_of_form (fun s => [s.resolveW a]) _ hw hi) ?_
  rw [hl]
  rfl

variable (hi : IssuesWide c s [s.resolveW d, s.resolveW a] = true)
include hi

/-- VRSUM of floating-point lanes rounds: its operation holds the mode at issue (R104, R160). -/
theorem vrsum_f32_queues (rm : Rm) : exec (.vrsum c (.f32 rm) d a m) s =
    .next (s.queuedWide c (.rsum (.f32 (s.wideMode rm).1)) rm false (s.resolveW d).get (.reg (s.resolveW a).get)
      (.val 0) (.val 0) m) :=
  Eq.trans (issueWide_of_issues (fun s => [s.resolveW d, s.resolveW a]) _ hi) rfl

theorem vrsum_int_queues {sf : SumFmt} (hsf : sf = .i32 ∨ sf = .n32) : exec (.vrsum c sf d a m) s =
    .next (s.queuedWide c (.rsum sf) .rn false (s.resolveW d).get (.reg (s.resolveW a).get) (.val 0) (.val 0) m) := by
  rcases hsf with rfl | rfl
  all_goals exact Eq.trans (issueWide_of_issues (fun s => [s.resolveW d, s.resolveW a]) _ hi) rfl
end

/-- Settles O36: each word is of one of the forms above, or VCMP, VEXTR or VRSUM. -/
theorem wideIntegerWordsQueue : Obligations.WideIntegerWordsQueue := by
  unfold Obligations.WideIntegerWordsQueue
  intro c f nf nf' d a a' j b m md ma mb r v x ln sf xf rs rm px ff s w src put conv D int
  refine ⟨fun hi => ⟨?viadd, ?visub, ?vimul, ?vand, ?vor, ?vxor, ?vshl, ?vshr, ?vsar⟩, fun hi => vcmp_queues hi,
    fun hi => ⟨?vsel, ?vperm⟩, fun hi => ?vshuf, fun hi => ⟨?mand, ?mor, ?mnot⟩, fun hi => ⟨?vbcast, ?vins⟩,
    fun hw hi hl => vextr_queues hw hi hl, fun hi => ⟨?vrsumFloat, vrsum_int_queues hi,
      ?vrmax, ?vrmin, ?vcvt, ?vpxenc, ?vpxdec, ?vmov⟩⟩
  case viadd | visub | vimul | vand | vor | vxor | vshl | vshr | vsar => exact vint_queues (fun _ => rfl) hi
  case vsel | vperm => exact exactOp2_queues (fun _ => rfl) hi
  case vshuf =>
    exact exactOp_queues (x := wsrc a) (y := wsrc a') (z := wsrc j)
      (regs := fun s => [s.resolveW a, s.resolveW a', s.resolveW j]) (fun _ => rfl) hi
  case mand | mor | mnot => exact maskOp_queues (fun _ => rfl) hi
  case vbcast | vins => exact broadcastOp_queues (fun _ => rfl) hi
  case vrsumFloat =>
    rintro rm rfl
    exact vrsum_f32_queues hi rm
  case vrmax | vrmin | vcvt | vpxenc | vpxdec | vmov => exact wideOp1_queues (fun _ => rfl) hi

end Sys2Proof.Machine

namespace Sys2Proof.Machine

/-! ## The matrix unit: slots and tiles -/

section
variable {c : Ctl} {k : BitVec 5} {a : BitVec 2} {s t : State}

/-- A MAT word on a core of a quad completes with what its body does (R166). -/
theorem matrix_completes {i : Instr} {f : Form} {ok : Prop} {body : State → Eff}
    (hx : ∀ u, exec i u = issue c f u fun s => matrix s (body s)) (hq : s.inQuad s.core = true) (hb : ok → body s = .done t) :
    CompletesAs i c f ok t s :=
  completesAs_of_issue hx fun hok => (if_pos hq).trans (hb hok)

/-- A MAT word on a core of a quad waits with what its body does. -/
theorem matrix_waits {i : Instr} {f : Form} {ok : Prop} {w : Wait} {body : State → Eff}
    (hx : ∀ u, exec i u = issue c f u fun s => matrix s (body s)) (hq : ok → s.inQuad s.core = true)
    (hb : ok → body s = .wait w t) : WaitsAs i c f ok w t s :=
  waitsAs_of_issue hx fun hok => (if_pos (hq hok)).trans (hb hok)

/-- A MAT word elsewhere traps (R166). -/
theorem matrix_traps {i : Instr} {f : Form} {body : State → Eff} (hx : ∀ u, exec i u = issue c f u fun s => matrix s (body s))
    (hi : Issues c f s = true) (hq : s.inQuad s.core = false) : exec i s = .next (s.traps cGANGMIS 1) :=
  exec_traps hx hi (if_neg (by simp [hq]))

/-- A tile access on a core of a quad issues as a wide word does (R178). -/
theorem tileAccess_completes {i : Instr} {regs : State → List WRes} {body : State → Eff}
    (hx : ∀ u, exec i u = tileAccess c u regs body) (hq : s.inQuad s.core = true) (hi : IssuesWide c s (regs s) = true)
    (hb : body s = .done t) : exec i s = .next (t.retire c s.linkAddr) := by
  rw [hx, tileAccess, issueWide_of_issues regs _ hi, matrix, if_pos hq, hb]
  rfl

/-! ### MLOAD (R169) -/

/-- The first byte a window's cursor points at. -/
def windowStart (g : GReg) : Nat := capBase g.bits + capCursor g.bits

/-- What an MLOAD of descriptor `d` asks of its window, its slot and the bytes it reads. -/
def State.mloadFits (s : State) (k : BitVec 5) (w : BitVec 6) (d : W32) : Prop :=
  windowCheck (s.gReg w) true false = none ∧ bits d 31 21 = 0 ∧ bits d 20 10 ≠ 0 ∧ bits d 9 0 + bits d 20 10 ≤ 1024 ∧
    (s.myArbor.slot k).claimed = true ∧
    windowStart (s.gReg w) + 16 * bits d 20 10 ≤ capBase (s.gReg w).bits + capLength (s.gReg w).bits ∧
    windowStart (s.gReg w) + 16 * bits d 20 10 ≤ 262144 ∧ windowStart (s.gReg w) % 16 = 0 ∧
    ((s.myArbor.waiting ++ s.myArbor.flying).any fun m => m.pos == posOf s.core && m.reads k) = false ∧
    s.lsHeld s.core (windowStart (s.gReg w)) (16 * bits d 20 10) false = false

/-- The bytes are read at the issue, and reach the slot by an event of their own. -/
def State.mloadStarted (s : State) (k : BitVec 5) (w : BitVec 6) (d : W32) : State :=
  let len := 16 * bits d 20 10
  let r := s.lsRead s.core (windowStart (s.gReg w)) len
  let m : MLoad := { id := s.ids, slot := k.toNat, off := 16 * bits d 9 0, addr := windowStart (s.gReg w), len := len, data := r.1 }
  (({ r.2 with ids := s.ids + 1 } : State).updMe fun c => { c with mloads := c.mloads ++ [m] }).within
    (4 + (len + 255) / 256) (.mloadCompletion s.core s.ids)

theorem mload_starts {w : BitVec 6} {d : W32} (h : s.mloadFits k w d) : mload s k w d = .done (s.mloadStarted k w d) := by
  obtain ⟨hwin, hres, hunits, hslot, hclaimed, hwindow, hstore, halign, hgang, hheld⟩ := h
  have hdesc : ¬ (bits d 31 21 ≠ 0 ∨ bits d 20 10 = 0 ∨ 1024 < bits d 9 0 + bits d 20 10) := by omega
  have hin : ¬ (capBase (s.gReg w).bits + capLength (s.gReg w).bits < windowStart (s.gReg w) + 16 * bits d 20 10 ∨
      Config.lsSize < windowStart (s.gReg w) + 16 * bits d 20 10) := by
    rintro (h | h)
    · exact Nat.not_lt.2 hwindow h
    · exact Nat.not_lt.2 hstore h
  rw [windowStart] at hin halign hheld
  simp only [mload, hwin, if_neg hdesc, hclaimed, if_neg hin, halign, hgang, hheld]
  rfl

theorem mloadCompletion_fills {n id : Nat} {m : MLoad} (hn : n < 4096)
    (hm : (s.coreAt n).mloads.find? (fun m => m.id == id) = some m) : exec (.mloadCompletion n id) s =
      .next ((s.updCore n fun c => { c with mloads := c.mloads.filter fun x => x.id != id }).updArbor (arborOf n) fun x =>
        x.setSlot (BitVec.ofNat 5 m.slot) { x.slot (BitVec.ofNat 5 m.slot) with
          data := Tab.writeBytes (x.slot (BitVec.ofNat 5 m.slot)).data m.off m.data }) := by
  refine exec_of_onCore (fun _ => rfl) hn ?_
  rw [hm]
end

/-- Settles O40: each word by its body, under the conditions of its clause. -/
theorem slotAndTileWordsComplete : Obligations.SlotAndTileWordsComplete := by
  unfold Obligations.SlotAndTileWordsComplete
  intro c qd k w g desc a sh o j z p s hq slot put free src copied fits
  refine ⟨matrix_completes (fun _ => rfl) hq fun hc => ?claimed, matrix_completes (fun _ => rfl) hq fun hc => ?claims,
    matrix_completes (fun _ => rfl) hq fun hf => ?released, matrix_completes (fun _ => rfl) hq mload_starts,
    matrix_completes (fun _ => rfl) hq mload_starts, fun n id m hn hm => mloadCompletion_fills hn hm,
    matrix_completes (fun _ => rfl) hq ?reshaped, matrix_completes (fun _ => rfl) hq ?sameShape,
    matrix_completes (fun _ => rfl) hq ?zeroed, matrix_completes (fun _ => rfl) hq fun ho => ?waited,
    fun hi hj => ⟨tileAccess_completes (fun _ => rfl) hq hi (if_neg (Nat.not_le.2 hj)),
      tileAccess_completes (fun _ => rfl) hq hi (if_neg (Nat.not_le.2 hj))⟩,
    fun hi ha => tileAccess_completes (regs := fun _ => []) (fun _ => rfl) hq hi ?stored⟩
  case claimed => exact if_pos hc
  case claims => exact if_neg (by simpa using hc)
  case released => exact if_neg (by simpa using hf)
  case reshaped =>
    rintro ⟨⟨howned, hqueued⟩, hshape⟩
    simp only [howned, hqueued, if_neg hshape]
    rfl
  case sameShape =>
    rintro ⟨⟨howned, hqueued⟩, hshape⟩
    simp only [howned, hqueued, if_pos hshape]
    rfl
  case zeroed =>
    rintro ⟨howned, hqueued⟩
    simp only [howned, hqueued]
    rfl
  case waited => exact if_neg (by simpa using ho)
  case stored => simp only [ha]

end Sys2Proof.Machine

namespace Sys2Proof.Machine

/-! ## What an event of a core leaves outside the cores

Waking, parking, switching and counting change cores, and add events that are due and what posted operations carry along. -/

/-- The state outside its cores, but for what is due, free values, late operations and what comes before posted operations. -/
def State.outside (s : State) : State := { s with cores := [], due := [], fresh := 0, late := [], past := [] }

theorem State.arbors_of_outside {s t : State} (h : t.outside = s.outside) : t.arbors = s.arbors :=
  (congrArg State.arbors h : t.outside.arbors = s.outside.arbors)
theorem State.mem_of_outside {s t : State} (h : t.outside = s.outside) : t.mem = s.mem :=
  (congrArg State.mem h : t.outside.mem = s.outside.mem)
theorem State.gangs_of_outside {s t : State} (h : t.outside = s.outside) : t.gangs = s.gangs :=
  (congrArg State.gangs h : t.outside.gangs = s.outside.gangs)

@[simp] theorem State.updCore_outside (s : State) (n : Nat) (f : Core → Core) : (s.updCore n f).outside = s.outside := rfl
@[simp] theorem State.updCtx_outside (s : State) (n k : Nat) (f : Ctx → Ctx) : (s.updCtx n k f).outside = s.outside := rfl
@[simp] theorem State.goNext_outside (s : State) (n k : Nat) : (s.goNext n k).outside = s.outside := rfl
@[simp] theorem State.flow_outside (s : State) (a b : Who) : (s.flow a b).outside = s.outside := by
  unfold State.flow
  split <;> rfl
@[simp] theorem State.joinPo_outside (s : State) (n k j : Nat) : (s.joinPo n k j).outside = s.outside :=
  (State.flow_outside _ _ _).trans rfl
@[simp] theorem State.landEvent_outside (s : State) (n k t : Nat) (d : BitVec 6) (set : BitVec 2) (w : W64) :
    (s.landEvent n k t d set w).outside = s.outside := rfl
@[simp] theorem State.count_outside (s : State) (n code : Nat) : (s.count n code).outside = s.outside := by
  unfold State.count
  dsimp only
  split
  · split
    · rfl
    · exact foldl_keeps State.outside (fun (t : State) j => t.now (.hardwareCounterWrap n (BitVec.ofNat 3 j))) (fun _ _ => rfl) _ _
  · rfl
@[simp] theorem State.switch_outside (s : State) (n : Nat) : (s.switch n).outside = s.outside := by
  unfold State.switch
  dsimp only
  split
  · rfl
  · rw [State.count_outside, State.updCore_outside]
@[simp] theorem State.wakeOne_outside (s : State) (n k : Nat) : (s.wakeOne n k).outside = s.outside := by
  unfold State.wakeOne
  generalize (s.ctxAt n k).run = r
  cases r with
  | waiting w =>
    cases w with
    | event mask d set => simp [apply_ite State.outside]
    | start =>
      have hf : ({ s with fresh := s.fresh + 1 } : State).outside = s.outside := rfl
      simp [apply_ite State.outside, hf]
    | _ => rfl
  | _ => rfl
@[simp] theorem State.raise_outside (s : State) (n : Nat) (e : W32) : (s.raise n e).outside = s.outside :=
  (foldl_keeps State.outside (fun (s : State) k => s.wakeOne n k) (fun _ _ => State.wakeOne_outside _ _ _) _ _).trans rfl
@[simp] theorem State.park_outside (s : State) (n k : Nat) (t : Trap) (ip : W64) : (s.park n k t ip).outside = s.outside := by
  simp only [State.park, apply_ite State.outside, State.switch_outside, State.raise_outside, State.updCtx_outside,
    State.joinPo_outside, ite_self]
@[simp] theorem State.takeEvent_outside (s : State) (n k : Nat) : (s.takeEvent n k).outside = s.outside := by
  unfold State.takeEvent
  split <;> simp
@[simp] theorem State.resume_outside (s : State) (n k : Nat) : (s.resume n k).outside = s.outside := by simp [State.resume]

/-! ## Contexts that an event of a core leaves as they are -/

/-- No event of its core wakes the context: it waits in no WAITEV and for no start (R284, R390). -/
def Ctx.deaf (x : Ctx) : Prop := x.run ≠ .waiting .start ∧ ∀ mask d set, x.run ≠ .waiting (.event mask d set)

theorem State.ctxAt_of_coreAt {s t : State} {n : Nat} (h : (t.coreAt n).ctxs = (s.coreAt n).ctxs) (k : Nat) :
    t.ctxAt n k = s.ctxAt n k := congrArg (fun l : Tab Ctx => Tab.get Ctx.init l k) h

@[simp] theorem State.flow_coreAt (s : State) (a b : Who) (n : Nat) : (s.flow a b).coreAt n = s.coreAt n := by
  unfold State.flow
  split <;> rfl

@[simp] theorem State.ctxAt_count (s : State) (m code n k : Nat) : (s.count m code).ctxAt n k = s.ctxAt n k := by
  by_cases h : n = m
  · subst h
    obtain ⟨hc, hcore⟩ := State.coreAt_count_same s n code
    exact State.ctxAt_of_coreAt (by rw [hcore]) k
  · exact State.ctxAt_of_coreAt (by rw [State.coreAt_count_ne _ _ h]) k

@[simp] theorem State.ctxAt_switch (s : State) (m n k : Nat) : (s.switch m).ctxAt n k = s.ctxAt n k := by
  by_cases h : n = m
  · subst h
    obtain ⟨cur, ring, hc, hcore⟩ := State.coreAt_switch_same s n
    exact State.ctxAt_of_coreAt (by rw [hcore]) k
  · exact State.ctxAt_of_coreAt (by rw [State.coreAt_switch_ne _ h]) k

@[simp] theorem State.ctxAt_joinPo (s : State) (m i j n k : Nat) : (s.joinPo m i j).ctxAt n k = s.ctxAt n k :=
  State.ctxAt_of_coreAt (by
    rw [State.joinPo, State.flow_coreAt]
    exact State.coreAt_updCore_keeps (f := fun c => { c with storeq := c.storeq.map fun o => { o with po := joined i j o.po } })
      Core.ctxs rfl n) k

section
variable {s : State} {n k m j : Nat}

theorem State.ctxAt_landEvent_ne (h : n ≠ m ∨ k ≠ j) (t : Nat) (d : BitVec 6) (set : BitVec 2) (w : W64) :
    (s.landEvent m j t d set w).ctxAt n k = s.ctxAt n k := by
  unfold State.landEvent
  dsimp only
  generalize (if Config.freeBit s.fresh then t else t + 1) = due
  rcases h with h | h
  · exact State.ctxAt_of_coreAt (congrArg Core.ctxs (State.coreAt_updCore_ne _ _ h)) k
  · refine State.coreAt_updCore_keeps (fun c => c.ctx k) ?_ n
    split
    · rw [Core.ctx_landOne rfl, if_neg h]
    · rfl

theorem State.ctxAt_goNext_ne (h : n ≠ m ∨ k ≠ j) : (s.goNext m j).ctxAt n k = s.ctxAt n k := by
  rw [State.goNext, State.ctxAt_updCtx_ne s _ h]

theorem State.ctxAt_goNext_same {w : Wait} (hr : (s.ctxAt n k).run = .waiting w) :
    (s.goNext n k).ctxAt n k = { s.ctxAt n k with run := .ready, pc := s.nextPc n (s.ctxAt n k).pc } := by
  rw [State.goNext, State.ctxAt_updCtx_same, hr]

/-- A wait that ends with no event of the gang pending takes none (R397). -/
theorem State.resume_of_no_event {w : Wait} (hr : (s.ctxAt n k).run = .waiting w) (he : (s.ctxAt n k).gangEvents = []) :
    s.resume n k = s.goNext n k := by
  simp only [State.resume, State.takeEvent, State.ctxAt_goNext_same hr, he]

/-- A context that no event wakes stays as it is. -/
theorem State.wakeOne_of_deaf (hx : (s.ctxAt n k).deaf) : s.wakeOne n k = s := by
  obtain ⟨hstart, hevent⟩ := hx
  unfold State.wakeOne
  generalize (s.ctxAt n k).run = r at *
  cases r with
  | waiting w =>
    cases w with
    | event mask d set => exact absurd rfl (hevent mask d set)
    | start => exact absurd rfl hstart
    | _ => rfl
  | _ => rfl

/-- A wake changes the woken context alone, and that only where it waits for an event or its start. -/
theorem State.ctxAt_wakeOne (hx : (s.ctxAt n k).deaf) : (s.wakeOne m j).ctxAt n k = s.ctxAt n k := by
  by_cases h : n ≠ m ∨ k ≠ j
  · unfold State.wakeOne
    generalize (s.ctxAt m j).run = r
    cases r with
    | waiting w =>
      cases w with
      | event mask d set =>
        dsimp only
        split
        · rfl
        · rw [State.ctxAt_goNext_ne h, State.ctxAt_landEvent_ne h]
      | start =>
        dsimp only
        split
        · rfl
        · split
          · split
            · exact State.ctxAt_updCtx_ne _ _ h
            · rfl
          · exact State.ctxAt_updCtx_ne _ _ h
      | _ => rfl
    | _ => rfl
  · obtain ⟨rfl, rfl⟩ := and_iff_not_or_not.2 h
    rw [State.wakeOne_of_deaf hx]

theorem State.ctxAt_raise (hx : (s.ctxAt n k).deaf) (e : W32) : (s.raise m e).ctxAt n k = s.ctxAt n k := by
  have h0 : (s.updCore m fun c => { c with evs := c.evs ||| e }).ctxAt n k = s.ctxAt n k :=
    State.ctxAt_of_coreAt (State.coreAt_updCore_keeps (f := fun c => { c with evs := c.evs ||| e }) Core.ctxs rfl n) k
  rw [State.raise, State.wakeEvents]
  exact foldl_holds (fun t => t.ctxAt n k = s.ctxAt n k) (fun (t : State) j => t.wakeOne m j)
    (fun t j ht => (State.ctxAt_wakeOne (ht ▸ hx)).trans ht) _ _ h0

/-- A context that parks changes no other that its core's events do not wake. -/
theorem State.ctxAt_park_ne (hx : (s.ctxAt n k).deaf) (h : n ≠ m ∨ k ≠ j) (t : Trap) (ip : W64) :
    (s.park m j t ip).ctxAt n k = s.ctxAt n k := by
  have h1 : ((s.joinPo m j 0).updCtx m j fun x =>
      { x with run := .parked, trap := { cause := t.cause, val := t.val, ip := ip }, pc := ip, branch := none }).ctxAt n k =
        s.ctxAt n k := (State.ctxAt_updCtx_ne _ _ h).trans (State.ctxAt_joinPo s m j 0 n k)
  have hraise := fun e => (State.ctxAt_raise (m := m) (e := e) (h1 ▸ hx)).trans h1
  simp only [State.park, apply_ite (fun u : State => u.ctxAt n k), State.ctxAt_switch, hraise, ite_self]

theorem State.ctxAt_takeEvent_ne (hx : (s.ctxAt n k).deaf) (h : n ≠ m ∨ k ≠ j) : (s.takeEvent m j).ctxAt n k = s.ctxAt n k := by
  unfold State.takeEvent
  split
  · next e r _ _ =>
    have h1 := State.ctxAt_updCtx_ne s (fun x => { x with gangEvents := r }) h
    rw [State.ctxAt_park_ne (h1 ▸ hx) h, h1]
  · rfl

theorem State.ctxAt_resume_ne (hx : (s.ctxAt n k).deaf) (h : n ≠ m ∨ k ≠ j) : (s.resume m j).ctxAt n k = s.ctxAt n k := by
  have h1 := State.ctxAt_goNext_ne (s := s) h
  rw [State.resume, State.ctxAt_takeEvent_ne (h1 ▸ hx) h, h1]
end

/-! ## The joint operation of an arbor -/

/-! ### The four contexts leave the gang issue (R175, R180) -/

@[simp] theorem State.leaveIssue_outside (s : State) (n k : Nat) : (s.leaveIssue n k).outside = s.outside := by
  simp only [State.leaveIssue, apply_ite State.outside, State.updCtx_outside, State.resume_outside, ite_self]

@[simp] theorem State.leaveIssue_procOf (s : State) (n k : Nat) : (s.leaveIssue n k).procOf = s.procOf := by
  simp only [State.leaveIssue, apply_ite State.procOf, State.updCtx_procOf, State.resume_procOf, ite_self]

/-- The address of the next word depends on the gangs and the process of the core alone. -/
theorem State.nextPc_congr {s t : State} (hg : t.gangs = s.gangs) (hp : t.procOf = s.procOf) (n : Nat) (pc : W64) :
    t.nextPc n pc = s.nextPc n pc := by
  have hproc : (t.coreAt n).proc = (s.coreAt n).proc := congrFun hp n
  have hix : t.isIxtin n pc.toNat = s.isIxtin n pc.toNat := by
    rw [State.isIxtin, State.isIxtin, State.gangAt, State.gangAt, hg, hproc]
  rw [State.nextPc, State.nextPc, State.wordBytes, State.wordBytes, hix]

/-- The context that leaves the gang issue stands at its next word, or stops there (R180). -/
def State.leftIssue (s : State) (n k : Nat) : Ctx :=
  { s.ctxAt n k with
    pc := s.nextPc n (s.ctxAt n k).pc
    run := if (s.coreAt n).proc.yieldStop = true ∧ k ≠ 0 then .stopped else .ready }

theorem State.leftIssue_congr {s t : State} {n k : Nat} (hc : t.ctxAt n k = s.ctxAt n k) (ho : t.outside = s.outside)
    (hp : t.procOf = s.procOf) : t.leftIssue n k = s.leftIssue n k := by
  have hproc : (t.coreAt n).proc = (s.coreAt n).proc := congrFun hp n
  simp only [State.leftIssue, hc, State.nextPc_congr (State.gangs_of_outside ho) hp, hproc]

theorem State.leftIssue_run (s : State) (n k : Nat) : (s.leftIssue n k).run = .stopped ∨ (s.leftIssue n k).run = .ready := by
  unfold State.leftIssue
  dsimp only
  split
  · exact .inl rfl
  · exact .inr rfl

theorem State.leftIssue_deaf (s : State) (n k : Nat) : (s.leftIssue n k).deaf ∧ (s.leftIssue n k).run ≠ .waiting .gangIssue := by
  rcases s.leftIssue_run n k with h | h <;> simp [Ctx.deaf, h]

section
variable {s : State} {n k : Nat}

theorem State.leaveIssue_ctxAt_same (hr : (s.ctxAt n k).run = .waiting .gangIssue) (he : (s.ctxAt n k).gangEvents = []) :
    (s.leaveIssue n k).ctxAt n k = s.leftIssue n k := by
  have hgo := State.ctxAt_goNext_same hr
  rw [State.leaveIssue, if_pos hr, State.resume_of_no_event hr he]
  by_cases hs : (s.coreAt n).proc.yieldStop = true ∧ k ≠ 0
  · simp only [State.leftIssue, hs.1, hs.2, hgo, bne_iff_ne, ne_eq, not_false_eq_true, Bool.true_and, and_self, if_true,
      State.ctxAt_updCtx_same]
  · simp only [State.leftIssue, if_neg hs, hgo, Bool.and_eq_true, bne_iff_ne]

theorem State.leaveIssue_ctxAt_ne {m j : Nat} (hx : (s.ctxAt n k).deaf) (h : n ≠ m ∨ k ≠ j) :
    (s.leaveIssue m j).ctxAt n k = s.ctxAt n k := by
  unfold State.leaveIssue
  split
  · dsimp only
    split
    · rw [State.ctxAt_updCtx_ne _ _ h, State.ctxAt_resume_ne hx h]
    · exact State.ctxAt_resume_ne hx h
  · rfl

/-- A context that does not wait at the gang issue stays as it is, whoever leaves. -/
theorem State.leaveIssue_ctxAt_of_left {m j : Nat} (hx : (s.ctxAt n k).deaf) (hr : (s.ctxAt n k).run ≠ .waiting .gangIssue) :
    (s.leaveIssue m j).ctxAt n k = s.ctxAt n k := by
  by_cases h : n ≠ m ∨ k ≠ j
  · exact State.leaveIssue_ctxAt_ne hx h
  · obtain ⟨rfl, rfl⟩ := and_iff_not_or_not.2 h
    rw [State.leaveIssue, if_neg hr]
end

/-- The contexts of a list of MGANGs leave the gang issue, one after the other. -/
def State.leaveAll (s : State) (b : Nat) (l : List MGang) : State :=
  l.foldl (fun t m => t.leaveIssue (arborCore b m.pos) m.ctx) s

theorem State.leaveAll_outside (s : State) (b : Nat) (l : List MGang) : (s.leaveAll b l).outside = s.outside :=
  foldl_keeps State.outside (fun (t : State) (m : MGang) => t.leaveIssue (arborCore b m.pos) m.ctx)
    (fun _ _ => State.leaveIssue_outside _ _ _) l s

/-- Each context of the list that waits there leaves once, and no other's leaving changes it. -/
theorem State.leaveAll_ctxAt {b : Nat} {m : MGang} {l : List MGang} {s : State} (hm : m ∈ l)
    (hr : (s.ctxAt (arborCore b m.pos) m.ctx).run = .waiting .gangIssue)
    (he : (s.ctxAt (arborCore b m.pos) m.ctx).gangEvents = []) :
    (s.leaveAll b l).ctxAt (arborCore b m.pos) m.ctx = s.leftIssue (arborCore b m.pos) m.ctx := by
  induction l generalizing s with
  | nil => cases hm
  | cons x r ih =>
    by_cases hx : arborCore b m.pos = arborCore b x.pos ∧ m.ctx = x.ctx
    · have h1 : (s.leaveIssue (arborCore b x.pos) x.ctx).ctxAt (arborCore b m.pos) m.ctx =
          s.leftIssue (arborCore b m.pos) m.ctx := by
        rw [← hx.1, ← hx.2]
        exact State.leaveIssue_ctxAt_same hr he
      obtain ⟨hdeaf, hleft⟩ := s.leftIssue_deaf (arborCore b m.pos) m.ctx
      exact foldl_holds (fun t : State => t.ctxAt (arborCore b m.pos) m.ctx = s.leftIssue (arborCore b m.pos) m.ctx)
        (fun (t : State) (y : MGang) => t.leaveIssue (arborCore b y.pos) y.ctx)
        (fun t y ht => (State.leaveIssue_ctxAt_of_left (ht ▸ hdeaf) (ht ▸ hleft)).trans ht) r _ h1
    · have hne : arborCore b m.pos ≠ arborCore b x.pos ∨ m.ctx ≠ x.ctx := not_and_or.1 hx
      have hdeaf : (s.ctxAt (arborCore b m.pos) m.ctx).deaf := by simp [Ctx.deaf, hr]
      have hmr : m ∈ r := (List.mem_cons.1 hm).resolve_left fun h => hx (h ▸ ⟨rfl, rfl⟩)
      have h1 := State.leaveIssue_ctxAt_ne hdeaf hne
      exact (ih hmr (h1 ▸ hr) (h1 ▸ he)).trans (State.leftIssue_congr h1 (by simp) (by simp))

section
variable {b : Nat} {s : State}

/-- What MATRIX_OPERATION_START reads for each core: the new contents of its tile, and their flags (R175). -/
def State.jointResults (s : State) (b : Nat) : List (Nat × Tab W32 × Flags) :=
  (s.arborAt b).flying.map fun m =>
    (m.pos, mTile m.f ((s.arborAt b).slot (BitVec.ofNat 5 m.ka)).data ((s.arborAt b).slot (BitVec.ofNat 5 m.kb)).data m.pos
      (s.gangTile b m))

/-- The operation has started, with its results to be written (R175, R177). -/
def State.jointStarted (s : State) (b : Nat) : State :=
  s.updArbor b fun x => { x with started := true, results := s.jointResults b }

theorem matrixOperationStart_starts (hb : 4 * b < 4096) (hf : (s.arborAt b).flying ≠ []) (hs : (s.arborAt b).started = false) :
    exec (.matrixOperationStart b) s = .next (((s.jointStarted b).leaveAll b (s.arborAt b).flying).atCycle
      (s.cyc + Config.matrixCycles) (.matrixOperationCompletion b)) := by
  refine exec_of_onCore (fun _ => rfl) hb ?_
  have hgo : ((s.arborAt b).flying.isEmpty || (s.arborAt b).started) = false := by simpa [hs] using hf
  simp only [hgo, List.map_map]
  rfl

/-- The start leaves the arbor as `jointStarted` has it. -/
theorem State.arborAt_leaveAll (l : List MGang) (t : Nat) (i : Instr) :
    (((s.jointStarted b).leaveAll b l).atCycle t i).arborAt b =
      { s.arborAt b with started := true, results := s.jointResults b } := by
  have ha : ((s.jointStarted b).leaveAll b l).arbors = (s.jointStarted b).arbors :=
    State.arbors_of_outside (State.leaveAll_outside _ b l)
  rw [State.arborAt, State.atCycle_arbors, ha]
  exact Tab.get_put_same _ _ _ _

/-! ### The tiles are written back (R175) -/

/-- The result of the core at position `m.pos` reaches its tile and the flags of its context. -/
def State.writeBack (s : State) (b : Nat) (results : List (Nat × Tab W32 × Flags)) (m : MGang) : State :=
  match results.find? fun r => r.1 == m.pos with
  | none => s
  | some r =>
    let t := s.updCore (arborCore b m.pos) fun c =>
      c.setTile (BitVec.ofNat 2 m.a) { c.tile (BitVec.ofNat 2 m.a) with data := r.2.1, owner := none }
    (t.updCtx (arborCore b m.pos) m.ctx fun x => { x with fflags := x.fflags ||| r.2.2 }).count (arborCore b m.pos) 4

theorem matrixOperationCompletion_completes (hb : 4 * b < 4096) (hs : (s.arborAt b).started = true) :
    exec (.matrixOperationCompletion b) s = .next
      (((s.arborAt b).flying.foldl (fun t m => t.writeBack b (s.arborAt b).results m) s).updArbor b fun x =>
        { x with flying := [], started := false, results := [] }) := by
  refine exec_of_onCore (fun _ => rfl) hb ?_
  simp only [hs]
  rfl

variable {results : List (Nat × Tab W32 × Flags)} {m : MGang}

@[simp] theorem State.writeBack_outside : (s.writeBack b results m).outside = s.outside := by
  unfold State.writeBack
  split <;> simp

theorem State.writeBack_coreAt_ne {n : Nat} (h : n ≠ arborCore b m.pos) :
    (s.writeBack b results m).coreAt n = s.coreAt n := by
  unfold State.writeBack
  split
  · rfl
  · dsimp only
    rw [State.coreAt_count_ne _ _ h, State.updCtx, State.coreAt_updCore_ne _ _ h, State.coreAt_updCore_ne _ _ h]

/-- The core with the result `r` of MGANG `m` in its tile and its flags. -/
def Core.takeResult (c : Core) (m : MGang) (r : Nat × Tab W32 × Flags) : Core :=
  (c.setTile (BitVec.ofNat 2 m.a) { c.tile (BitVec.ofNat 2 m.a) with data := r.2.1, owner := none }).updCtx m.ctx fun x =>
    { x with fflags := x.fflags ||| r.2.2 }

theorem Core.takeResult_tile (c : Core) (m : MGang) (r : Nat × Tab W32 × Flags) :
    (c.takeResult m r).tile (BitVec.ofNat 2 m.a) = { c.tile (BitVec.ofNat 2 m.a) with data := r.2.1, owner := none } :=
  Tab.get_put_same _ _ _ _

theorem Core.takeResult_ctx (c : Core) (m : MGang) (r : Nat × Tab W32 × Flags) :
    (c.takeResult m r).ctx m.ctx = { c.ctx m.ctx with fflags := (c.ctx m.ctx).fflags ||| r.2.2 } :=
  Core.ctx_updCtx_same _ _ _

theorem State.writeBack_coreAt_same {r : Nat × Tab W32 × Flags} (hr : results.find? (fun r => r.1 == m.pos) = some r) : ∃ hc,
    (s.writeBack b results m).coreAt (arborCore b m.pos) = { (s.coreAt (arborCore b m.pos)).takeResult m r with hc := hc } := by
  have hcore : ((s.updCore (arborCore b m.pos) fun c =>
        c.setTile (BitVec.ofNat 2 m.a) { c.tile (BitVec.ofNat 2 m.a) with data := r.2.1, owner := none }).updCtx
      (arborCore b m.pos) m.ctx fun x => { x with fflags := x.fflags ||| r.2.2 }).coreAt (arborCore b m.pos) =
        (s.coreAt (arborCore b m.pos)).takeResult m r := by
    rw [State.updCtx, State.coreAt_updCore_same, State.coreAt_updCore_same]
    rfl
  rw [State.writeBack, hr, ← hcore]
  exact State.coreAt_count_same _ _ 4

/-- Steps that change one core each leave every core that is none of theirs. -/
theorem State.coreAt_foldl_ne {α : Type} {f : State → α → State} {key : α → Nat}
    (hf : ∀ (t : State) (x : α) (n : Nat), n ≠ key x → (f t x).coreAt n = t.coreAt n) {l : List α} {n : Nat}
    (h : n ∉ l.map key) (s : State) : (l.foldl f s).coreAt n = s.coreAt n := by
  induction l generalizing s with
  | nil => rfl
  | cons x r ih =>
    rw [List.map_cons, List.mem_cons, not_or] at h
    rw [List.foldl_cons, ih h.2, hf s x n h.1]

/-- Steps that change one core each, no two the same: each core is changed by its own step. -/
theorem State.coreAt_foldl_of_nodup {α : Type} {f : State → α → State} {key : α → Nat}
    (hf : ∀ (t : State) (x : α) (n : Nat), n ≠ key x → (f t x).coreAt n = t.coreAt n) {x : α} {p : Core → Core → Prop}
    (hp : ∀ t : State, p (t.coreAt (key x)) ((f t x).coreAt (key x))) {l : List α} (hl : (l.map key).Nodup) (hx : x ∈ l)
    (s : State) : p (s.coreAt (key x)) ((l.foldl f s).coreAt (key x)) := by
  induction l generalizing s with
  | nil => cases hx
  | cons y r ih =>
    rw [List.map_cons, List.nodup_cons] at hl
    rcases List.mem_cons.1 hx with rfl | hr
    · rw [List.foldl_cons, State.coreAt_foldl_ne hf hl.1]
      exact hp s
    · have hne : key x ≠ key y := fun h => hl.1 (h ▸ List.mem_map_of_mem hr)
      have h := ih hl.2 hr (f s y)
      rwa [hf s y _ hne] at h

/-- The cores of an arbor are told apart by their positions. -/
theorem arborCore_nodup {l : List MGang} (h : (l.map fun m => m.pos).Nodup) : (l.map fun m => arborCore b m.pos).Nodup := by
  have hmap : (l.map fun m => arborCore b m.pos) = (l.map fun m => m.pos).map (arborCore b) := by
    rw [List.map_map]
    rfl
  rw [hmap]
  exact h.map fun _ _ e => Nat.add_left_cancel e
end

/-! ### MGANG (R173) -/

section
variable {c : Ctl} {f : MFmt} {a : BitVec 2} {ka kb : BitVec 5} {tag : BitVec 4} {s : State}

/-- What an MGANG asks for. -/
def State.gangOf (s : State) (f : MFmt) (a : BitVec 2) (ka kb : BitVec 5) (tag : BitVec 4) : MGang :=
  { pos := posOf s.core, ctx := s.k, f := f, a := a.toNat, ka := ka.toNat, kb := kb.toNat, tag := tag }

/-- Its tile is owned from the issue on. -/
def State.owns (s : State) (a : BitVec 2) : State := s.updMe fun c => c.setTile a { c.tile a with owner := some s.k }

/-- An MGANG of tile `a` passes the membership check, and nothing holds it before the barrier. -/
def State.mayGang (s : State) (a : BitVec 2) : Prop :=
  s.inQuad s.core = true ∧ (s.myArbor.waiting.any fun x => x.pos == posOf s.core) = false ∧ s.myArbor.flying = [] ∧
    s.me.mloads = [] ∧ s.tileQueued a = false

theorem mgang_waits : WaitsAs (.mgang c f a ka kb tag) c fYield (s.mayGang a ∧ s.myArbor.waiting.length < 3) .gangIssue
    ((s.owns a).updArbor (arborOf s.core) fun x => { x with waiting := s.myArbor.waiting ++ [s.gangOf f a ka kb tag] }) s := by
  refine matrix_waits (fun _ => rfl) (fun hok => hok.1.1) ?_
  rintro ⟨⟨-, hpos, hfly, hloads, hqueued⟩, hw⟩
  have hlen : (s.myArbor.waiting ++ [s.gangOf f a ka kb tag]).length < 4 := by
    rw [List.length_append, List.length_singleton]
    omega
  simp only [hpos, hfly, hloads, hqueued]
  exact if_pos hlen

theorem mgang_begins : WaitsAs (.mgang c f a ka kb tag) c fYield
    (s.mayGang a ∧ 3 ≤ s.myArbor.waiting.length ∧
      (s.owns a).disagree (arborOf s.core) (s.myArbor.waiting ++ [s.gangOf f a ka kb tag]) = none) .gangIssue
    (((s.owns a).updArbor (arborOf s.core) fun x =>
      { x with waiting := [], flying := s.myArbor.waiting ++ [s.gangOf f a ka kb tag], started := false }).within 6
        (.matrixOperationStart (arborOf s.core))) s := by
  refine matrix_waits (fun _ => rfl) (fun hok => hok.1.1) ?_
  rintro ⟨⟨-, hpos, hfly, hloads, hqueued⟩, hw, hagree⟩
  have hlen : ¬ (s.myArbor.waiting ++ [s.gangOf f a ka kb tag]).length < 4 := by
    rw [List.length_append, List.length_singleton]
    omega
  simp only [hpos, hfly, hloads, hqueued]
  refine (if_neg hlen).trans ?_
  rw [State.owns, State.gangOf] at hagree
  rw [hagree]
  rfl
end

/-- Settles O41: MGANG by its body; the start by what leaves the contexts as they are; the completion core by core. -/
theorem jointOperationCompletes : Obligations.JointOperationCompletes := by
  unfold Obligations.JointOperationCompletes
  intro c f a ka kb tag s ar m t ok
  refine ⟨mgang_waits, mgang_begins, fun hi hq => matrix_traps (fun _ => rfl) hi hq, fun b hb hf hs => ?start,
    fun b hb hs => ?completion⟩
  case start =>
    have harbor := s.arborAt_leaveAll (b := b) (s.arborAt b).flying (s.cyc + Config.matrixCycles) (.matrixOperationCompletion b)
    have hmem : ((s.jointStarted b).leaveAll b (s.arborAt b).flying).mem = s.mem :=
      State.mem_of_outside (s := s.jointStarted b) (State.leaveAll_outside _ b _)
    refine ⟨_, matrixOperationStart_starts hb hf hs, ?_, ?_, ?_, hmem, List.mem_cons_self, ?_, fun m hm hr he => ?_⟩
    · rw [harbor]
    · rw [harbor]
    · rw [harbor]
    · rw [harbor]
      rfl
    · have hx := State.leaveAll_ctxAt (s := s.jointStarted b) hm hr he
      exact ⟨congrArg Ctx.pc hx, congrArg Ctx.run hx⟩
  case completion =>
    have hout := foldl_keeps State.outside (fun (t : State) m => t.writeBack b (s.arborAt b).results m)
      (fun _ _ => State.writeBack_outside) (s.arborAt b).flying s
    have hmem := State.mem_of_outside hout
    refine ⟨_, matrixOperationCompletion_completes hb hs, ?_, ?_, ?_, hmem, fun hn m hm r hr => ?_⟩
    · exact congrArg Arbor.flying (Tab.get_put_same _ _ _ _)
    · exact congrArg Arbor.started (Tab.get_put_same _ _ _ _)
    · refine (congrArg Arbor.slots (Tab.get_put_same _ _ _ _)).trans ?_
      exact congrArg (fun t => (Tab.get Arbor.init t b).slots) (State.arbors_of_outside hout)
    · obtain ⟨hc, hcore⟩ := State.coreAt_foldl_of_nodup (p := fun c d => ∃ hc, d = { c.takeResult m r with hc := hc })
        (key := fun m : MGang => arborCore b m.pos) (fun _ _ _ => State.writeBack_coreAt_ne)
        (fun _ => State.writeBack_coreAt_same hr) (arborCore_nodup hn) hm s
      have htile := (congrArg (fun d : Core => d.tile (BitVec.ofNat 2 m.a)) hcore).trans (Core.takeResult_tile _ m r)
      have hctx := (congrArg (fun d : Core => d.ctx m.ctx) hcore).trans (Core.takeResult_ctx _ m r)
      exact ⟨congrArg Tile.data htile, congrArg Tile.owner htile, congrArg Ctx.fflags hctx⟩

end Sys2Proof.Machine

namespace Sys2Proof.Machine

/-! ## The frame of an operation at memory (R182, R210, R217, R365)

A posted write and an atomic write nothing but their own place, once at most; what a write of some bytes leaves of memory is the
frame. -/

/-! ### Bytes that a write leaves -/

/-- The bytes of lines that a write does not meet read the same under every key. -/
theorem Memory.byteAs_writeAs_off_lines (m : Memory) {pa n a : Nat} (key k' v : Nat) (h : a < pa ∨ pa + n ≤ a)
    (hl : ∀ i, i < n → (pa + i) / 64 ≠ a / 64) : (m.writeAs key pa n v).byteAs k' a = m.byteAs k' a := by
  cases n with
  | zero => rfl
  | succ n =>
    refine m.byteAs_writeAs_ne v h (.inr ?_)
    have hfirst : pa / 64 ≠ a / 64 := hl 0 n.succ_pos
    have hlast : (pa + n) / 64 ≠ a / 64 := hl n n.lt_succ_self
    omega

/-- Memory after at most one write of `n` bytes at a place, under a key: the bytes of a place in HBM, and their granule's tag or not. -/
inductive Memory.WrittenAt (m : Memory) (key n : Nat) : Place → Memory → Prop
  | kept (p : Place) : m.WrittenAt key n p m
  | bytes (pa v : Nat) : m.WrittenAt key n (.hbm pa) (m.writeAs key pa n v)
  | tagged (pa v : Nat) : m.WrittenAt key n (.hbm pa) ((m.writeAs key pa n v).setTag pa)

section
variable {m m' : Memory} {key n pa a : Nat} {p : Place}

theorem Memory.WrittenAt.of_eq (h : m' = m) : m.WrittenAt key n p m' := h ▸ .kept p

theorem Memory.WrittenAt.byteAs_own (h : m.WrittenAt key n (.hbm pa) m') (hkey : key ≠ 0) (ha : a < pa ∨ pa + n ≤ a) :
    m'.byteAs key a = m.byteAs key a := by
  cases h with
  | kept => rfl
  | bytes _ v => exact m.byteAs_writeAs_ne v ha (.inl ⟨rfl, hkey⟩)
  | tagged _ v => exact (Memory.byteAs_setTag _ _ _ _).trans (m.byteAs_writeAs_ne v ha (.inl ⟨rfl, hkey⟩))

theorem Memory.WrittenAt.byteAs_off_lines (h : m.WrittenAt key n (.hbm pa) m') (ha : a < pa ∨ pa + n ≤ a)
    (hl : ∀ i, i < n → (pa + i) / 64 ≠ a / 64) (k' : Nat) : m'.byteAs k' a = m.byteAs k' a := by
  cases h with
  | kept => rfl
  | bytes _ v => exact m.byteAs_writeAs_off_lines key k' v ha hl
  | tagged _ v => exact (Memory.byteAs_setTag _ _ _ _).trans (m.byteAs_writeAs_off_lines key k' v ha hl)

theorem Memory.WrittenAt.eq_of_not_isHbm (h : m.WrittenAt key n p m') (hp : p.isHbm = false) : m' = m := by
  cases h with
  | kept => rfl
  | bytes => cases hp
  | tagged => cases hp
end

/-! ### What performing an operation writes -/

theorem State.writePlace_writtenAt {s u : State} (hu : u.mem = s.mem) (key : Nat) (p : Place) (n v : Nat) (tag : Bool)
    (home : Option (Nat × List Nat)) : s.mem.WrittenAt key n p (u.writePlace key p n v tag home).mem := by
  cases p with
  | hbm pa =>
    have hmem : (u.writePlace key (.hbm pa) n v tag home).mem =
        if tag then (s.mem.writeAs key pa n v).setTag pa else s.mem.writeAs key pa n v := by
      unfold State.writePlace
      dsimp only
      rw [State.wake_mem, State.noteCode_mem, ← hu]
      split <;> rfl
    rw [hmem]
    cases tag with
    | false => exact .bytes pa v
    | true => exact .tagged pa v
  | peer d pa => exact .of_eq ((u.askPeer_mem _ _ _).trans hu)
  | host h pa =>
    refine .of_eq (Eq.trans ?_ hu)
    rw [State.writePlace, State.noteCode_mem, State.putLine_mem, State.getLine_mem]

/-- A release writes earlier lines back before it performs, which changes neither the bytes of memory nor the domain's key. -/
theorem State.performPosted_writtenAt (s : State) (n : Nat) (o : MemOp) :
    s.mem.WrittenAt (s.keyOf (s.coreAt n).dom) o.size o.place (s.performPosted n o).mem := by
  unfold State.performPosted
  dsimp only
  rw [State.missCount_mem, State.updCore_mem]
  split
  · exact State.writePlace_writtenAt ((s.engineCtx n o.ctx).writePast_mem _ _ _) _ _ _ _ _ _
  · exact State.writePlace_writtenAt (s.writePast_mem _ _ _) _ _ _ _ _ _

@[simp] theorem State.atomicEvent_mem (s : State) (o : MemOp) (seen : List Nat) (writes : Bool) :
    (s.atomicEvent o seen writes).mem = s.mem := by
  cases writes <;> simp [State.atomicEvent]

@[simp] theorem State.afterAtomic_mem (s : State) (n : Nat) (o : MemOp) (seen : List Nat) :
    (s.afterAtomic n o seen).mem = s.mem := by
  unfold State.afterAtomic
  split
  case h_1 | h_2 => exact foldl_keeps State.mem _ (fun _ _ => by split <;> rfl) _ _
  all_goals rfl

theorem State.performAtomic_writtenAt (s : State) (key n : Nat) (o : MemOp) :
    s.mem.WrittenAt key o.size o.place (s.performAtomic key n o).1.mem := by
  rw [State.performAtomic, State.afterAtomic_mem]
  split
  · exact State.writePlace_writtenAt (by simp) _ _ _ _ _ _
  · exact .of_eq (by simp)

/-- An operation whose result its agent has kept writes nothing, and any other is performed. -/
theorem State.performOnce_writtenAt (s : State) (key : Nat) (d : BitVec 11) (lcn : W32) (k n : Nat) (o : MemOp) :
    s.mem.WrittenAt key o.size o.place (s.performOnce key d lcn k n o).1.mem := by
  have hperform := s.performAtomic_writtenAt key n o
  unfold State.performOnce
  dsimp only
  split
  · split
    · exact hperform
    · exact .kept _
  · exact hperform
  · exact hperform

/-- A peer's Kiosk is asked, and the agents of this device perform the operation. -/
theorem State.sendOp_writtenAt (s : State) (n k : Nat) (o : MemOp) :
    s.mem.WrittenAt (s.keyOf (s.coreAt n).dom) o.size o.place (s.sendOp n k o).mem := by
  have hperform := s.performOnce_writtenAt (s.keyOf (s.coreAt n).dom) (s.coreAt n).dom (s.coreAt n).proc.lcn o.poCtx n o
  unfold State.sendOp
  dsimp only
  split
  · split
    · exact .kept _
    · exact .of_eq (s.askPeer_mem _ _ _)
  · exact hperform
  · exact hperform

/-! ### The two events -/

section
variable {n k id : Nat} {o : MemOp} {s t : State}

theorem eq_of_onCore {f : State → State} (h : onCore n s f = .next t) : t = f s := by
  unfold onCore at h
  split at h
  · exact (Host.Outcome.next.inj h).symm
  · cases h

theorem postedWritePerform_writtenAt (h : exec (.postedWritePerform n id) s = .next t)
    (ho : (s.coreAt n).storeq.find? (fun x => x.id == id) = some o) :
    s.mem.WrittenAt (s.keyOf (s.coreAt n).dom) o.size o.place t.mem := by
  change execPostedWritePerform n id s = .next t at h
  rw [execPostedWritePerform] at h
  rw [eq_of_onCore h]
  simp only [ho]
  split
  · exact .kept _
  · split
    · exact .of_eq (s.askBack_mem o.place)
    · exact s.performPosted_writtenAt n o

theorem kioskAtomicPerform_writtenAt (h : exec (.kioskAtomicPerform n k id) s = .next t) (ho : (s.coreAt n).findOp id = some o) :
    s.mem.WrittenAt (s.keyOf (s.coreAt n).dom) o.size o.place t.mem := by
  change execKioskAtomicPerform n k id s = .next t at h
  rw [execKioskAtomicPerform] at h
  rw [eq_of_onCore h]
  simp only [ho]
  split
  · exact .kept _
  · split
    · exact .kept _
    · split
      · exact .of_eq (s.askBack_mem o.place)
      · exact s.sendOp_writtenAt n k o
end

/-- Settles O43: either event writes at most the operation's own place, under the key of the core's domain. -/
theorem performedOperationFrame : Obligations.PerformedOperationFrame := by
  unfold Obligations.PerformedOperationFrame
  intro n k id o s t hstep
  have hwritten : s.mem.WrittenAt (s.keyOf (s.coreAt n).dom) o.size o.place t.mem := by
    rcases hstep with ⟨h, ho⟩ | ⟨h, ho⟩
    · exact postedWritePerform_writtenAt h ho
    · exact kioskAtomicPerform_writtenAt h ho
  refine ⟨fun pa hp a ha => ?_, hwritten.eq_of_not_isHbm⟩
  rw [hp] at hwritten
  exact ⟨hwritten.byteAs_own (s.keyOf_ne_zero _) ha, hwritten.byteAs_off_lines ha⟩

end Sys2Proof.Machine

namespace Sys2Proof.Machine

/-! ## Loads, stores, prefetches and fences -/

/-! ### What the words' operands are read from

An access to memory may bring a line from a host, end a wait and change what a fetch sees. It leaves who runs, the owners, the domains
and the g registers. -/

/-- The owner of a core, its running context, and the g registers of its contexts. -/
def Core.operandView (c : Core) : W64 × Option Nat × (Nat → Tab GReg) := (c.owner, c.cur, fun k => (c.ctx k).g)
/-- The acting core, the domains, and the same of every core. -/
abbrev OperandView := Nat × Tab Domain × (Nat → W64 × Option Nat × (Nat → Tab GReg))
def State.operandView (s : State) : OperandView := (s.core, s.domains, fun n => (s.coreAt n).operandView)

theorem State.operandView_updCore {s : State} {n : Nat} {f : Core → Core}
    (h : (f (s.coreAt n)).operandView = (s.coreAt n).operandView) : (s.updCore n f).operandView = s.operandView :=
  congrArg (fun v => (s.core, s.domains, v)) (funext (State.coreAt_updCore_keeps Core.operandView h))

theorem State.operandView_updCtx {s : State} {n k : Nat} {f : Ctx → Ctx} (h : (f (s.ctxAt n k)).g = (s.ctxAt n k).g) :
    (s.updCtx n k f).operandView = s.operandView := by
  refine State.operandView_updCore ?_
  refine congrArg (fun v => ((s.coreAt n).owner, (s.coreAt n).cur, v)) (funext fun j => ?_)
  by_cases hj : j = k
  · rw [hj, Core.ctx_updCtx_same]
    exact h
  · rw [Core.ctx_updCtx_ne _ _ hj]

theorem State.operandView_mapCores (s : State) {g : Nat × Core → Nat × Core} (hk : ∀ p, (g p).1 = p.1)
    (hp : ∀ p, (g p).2.operandView = p.2.operandView) : ({ s with cores := s.cores.map g } : State).operandView = s.operandView := by
  have hget : ∀ (t : Tab Core) (n : Nat),
      (Tab.get Core.init t n).operandView = ((Tab.find t n).map Core.operandView).getD Core.init.operandView := by
    intro t n
    unfold Tab.get
    cases Tab.find t n <;> rfl
  refine congrArg (fun v => (s.core, s.domains, v)) (funext fun n => ?_)
  simp only [State.coreAt, hget, Tab.find_map hk hp]

@[simp] theorem State.flow_operandView (s : State) (a b : Who) : (s.flow a b).operandView = s.operandView := by
  unfold State.flow
  split <;> rfl
@[simp] theorem State.emit_operandView (s : State) (port : Nat) (o : Out) : (s.emit port o).operandView = s.operandView := by
  unfold State.emit
  split <;> rfl
@[simp] theorem State.askPeer_operandView (s : State) (key : Nat) (d : BitVec 12) (o : Out) :
    (s.askPeer key d o).operandView = s.operandView := State.emit_operandView _ _ _
@[simp] theorem State.backInvalidate_operandView (s : State) (line : Nat) :
    (s.backInvalidate line).operandView = s.operandView := by
  unfold State.backInvalidate
  split
  · exact State.emit_operandView _ _ _
  · rfl

@[simp] theorem State.lineOut_operandView (s : State) (l : HostLine) (o : Out) :
    (s.lineOut l o).operandView = s.operandView := by
  unfold State.lineOut
  split
  · exact State.emit_operandView _ _ _
  · rfl
@[simp] theorem State.dropLine_operandView (s : State) (h : BitVec 12) (line : Nat) :
    (s.dropLine h line).operandView = s.operandView := rfl
@[simp] theorem State.putLine_operandView (s : State) (l : HostLine) : (s.putLine l).operandView = s.operandView := rfl
@[simp] theorem State.applySnoop_operandView (s : State) (n : Snoop) : (s.applySnoop n).operandView = s.operandView := by
  unfold State.applySnoop
  split <;> simp [apply_ite State.operandView]
@[simp] theorem State.drain_operandView (s : State) (agent : Nat) : (s.drain agent).operandView = s.operandView :=
  foldl_keeps State.operandView _ (fun _ _ => State.applySnoop_operandView _ _) _ _
@[simp] theorem State.getLine_operandView (s : State) (key : Nat) (h : BitVec 12) (line : Nat) (own : Bool) :
    (s.getLine key h line own).2.operandView = s.operandView := by
  have hroom : ∀ a, (s.makeRoom a).operandView = s.operandView := by
    intro a
    unfold State.makeRoom
    dsimp only
    split
    · rfl
    · split
      · rfl
      · exact State.lineOut_operandView _ _ _
  unfold State.getLine
  split
  · rfl
  · exact hroom _

@[simp] theorem State.noteCode_operandView (s : State) (p : Place) : (s.noteCode p).operandView = s.operandView := by
  unfold State.noteCode
  dsimp only
  split
  · exact State.operandView_mapCores s (fun _ => rfl) fun _ => rfl
  · rfl
@[simp] theorem State.aoRead_operandView (s : State) (p : Place) (n : Nat) (w : Who) :
    (s.aoRead p n w).operandView = s.operandView := by
  have hread : (s.readPast p n w).operandView = s.operandView := by
    unfold State.readPast
    split
    · rfl
    · exact foldl_keeps State.operandView (fun (s : State) i => s.flow (.byte (p.move i)) w)
        (fun _ _ => State.flow_operandView _ _ _) _ _
  have hevent : ∀ (t : State) (l : List Nat), (t.aoEvent p n l).operandView = t.operandView := by
    intro t l
    unfold State.aoEvent
    split
    · rfl
    · dsimp only
      refine foldl_keeps State.operandView _ (fun _ _ => ?_) _ _
      rfl
  unfold State.aoRead
  dsimp only
  rw [hevent]
  split
  · exact hread
  · exact (foldl_keeps State.operandView (fun (t : State) i => t.flow (.atom (p.move i)) w)
      (fun _ _ => State.flow_operandView _ _ _) _ _).trans hread
@[simp] theorem State.endWait_operandView (s : State) (w : SyncWait) (v : W64) :
    (s.endWait w v).operandView = s.operandView :=
  (State.operandView_updCtx (s := { s.aoRead w.place (waitSize w) (.ctx w.core w.ctx) with syncs := _, ids := _, replies := _ })
    rfl).trans (State.aoRead_operandView _ _ _ _)
@[simp] theorem State.wake_operandView (s : State) (pa n : Nat) : (s.wake pa n).operandView = s.operandView := by
  unfold State.wake
  refine foldl_keeps State.operandView _ (fun t w => ?_) _ _
  dsimp only
  split
  · rfl
  · split
    · exact State.endWait_operandView _ _ _
    · split
      · split
        · exact State.endWait_operandView _ _ _
        · rfl
      · rfl
@[simp] theorem State.writePlace_operandView (s : State) (key : Nat) (p : Place) (n v : Nat) (tag : Bool)
    (home : Option (Nat × List Nat)) : (s.writePlace key p n v tag home).operandView = s.operandView := by
  cases p with
  | peer d pa => simp [State.writePlace]
  | host h pa => simp [State.writePlace]
  | hbm pa =>
    simp only [State.writePlace, State.wake_operandView, State.noteCode_operandView]
    split <;> rfl
@[simp] theorem State.recall_operandView (s : State) (line : Nat) : (s.recall line).operandView = s.operandView := by
  unfold State.recall
  split
  · rfl
  · have hasked : ∀ t : State, t.operandView = s.operandView →
        (if s.backInv.contains line then t else t.backInvalidate line).operandView = s.operandView := by
      intro t ht
      split
      · exact ht
      · exact (State.backInvalidate_operandView t line).trans ht
    dsimp only
    split
    · exact (foldl_keeps State.operandView _ (fun t i => State.writePlace_operandView t _ _ _ _ _ _) _ _).trans (hasked _ rfl)
    · exact hasked _ rfl
@[simp] theorem State.look_operandView (s : State) (key : Nat) (p : Place) (n : Nat) :
    (s.look key p n).operandView = s.operandView := by
  cases p <;> simp [State.look, State.touch]
@[simp] theorem State.walkTouch_operandView (n : Nat) (s : State) (view : State → State) (key va : Nat) (top : W64) (table : Nat) :
    (s.walkTouch view key va top table n).operandView = s.operandView := by
  induction n generalizing s top table with
  | zero =>
    unfold State.walkTouch
    split <;> simp
  | succ n ih =>
    unfold State.walkTouch
    split
    · rfl
    · next p _ =>
      dsimp only
      cases (view (s.look key p 8)).entry key .read va 1 top table (n + 1) with
      | next e frame => exact (ih _ e frame).trans (State.look_operandView s key p 8)
      | bad _ | page _ => exact State.look_operandView s key p 8
@[simp] theorem State.walkFor_operandView (s : State) (r : GReg) (off : Int) : (s.walkFor r off).operandView = s.operandView := by
  unfold State.walkFor
  split
  · unfold State.walkReadyBy
    split <;> simp
  · rfl

theorem State.dom_of_operandView {s t : State} (h : t.operandView = s.operandView) (n : Nat) :
    (t.coreAt n).dom = (s.coreAt n).dom :=
  congrArg (fun v => (v.2.2 n).1.extractLsb' 0 11) h

/-- A g register of the running context. -/
def OperandView.gReg (v : OperandView) (r : BitVec 6) : GReg :=
  Tab.get GReg.zero ((v.2.2 v.1).2.2 ((v.2.2 v.1).2.1.getD 0)) r.toNat

/-- The running words read the same operands. -/
theorem State.readG_of_operandView {s t : State} (h : t.operandView = s.operandView) (r : BitVec 6) : t.readG r = s.readG r :=
  congrArg (fun v : OperandView => (v.gReg r).bits.setWidth 64) h
theorem State.offZ_of_operandView {s t : State} (h : t.operandView = s.operandView) (z : SrcZ) : t.offZ z = s.offZ z := by
  cases z with
  | imm _ => rfl
  | _ => simp only [State.offZ, State.srcZ, State.readG_of_operandView h]

/-! ### The words that make an access (R210 to R212) -/

/-- A load is on its way to a place, for the running context (R210). -/
def State.startLoad (u : State) (c : Ctl) (f : MemFmt) (pol : Policy) (sc : Scope) (d w : BitVec 6) (va : Nat) (p : Place) : State :=
  (({ u with ids := u.ids + 1 } : State).updMe fun x => { x with flight := x.flight ++
    [{ u.memOp (.load f (capLC (u.gReg w).bits)) va p (memSize f) sc with policy := pol, d := d, set := c.set }] }).later
    (.loadResponse u.core u.k)

/-- The tag of the granule that a store of register `r` writes (R208). -/
def State.storesTag (u : State) (f : MemFmt) (r : BitVec 6) : Bool := decide (f = .cap) && (u.gReg r).tag

/-- A store of register `r` is in the store queue (R211). -/
def State.startStore (u : State) (f : MemFmt) (pol : Policy) (sc : Scope) (r : BitVec 6) (va : Nat) (p : Place) : State :=
  post u { u.memOp .store va p (memSize f) sc with policy := pol, data := (u.gReg r).bits, tag := u.storesTag f r }
    (.postedWritePerform u.core u.ids)

/-- A prefetch brings a host's line to its agent and does nothing else that is seen; where its address is bad it does nothing
(R212). -/
def State.prefetched (u : State) : MAddr → State
  | .ok _ (.host h pa) => (u.getLine (u.keyOf u.me.dom) h (pa / 64) false).2
  | .ok _ (.hbm _) | .ok _ (.peer ..) | .bad .. => u

section
variable {i : Instr} {c : Ctl} {f : MemFmt} {pol : Policy} {sc : Scope} {d w r : BitVec 6} {z : SrcZ} {va : Nat} {p : Place}
  {s u : State}

theorem load_waits (hx : ∀ t, exec i t = issue c fFarLate t fun t => load t c f pol sc d w (t.offZ z))
    (hu : u = s.walkFor (s.gReg w) (s.offZ z)) :
    WaitsAs i c fFarLate
      (u.memAddr (u.gReg w) (s.offZ z) (memSize f) (memSize f) needR = .ok va p ∧ u.leak d = false)
      (.result u.ids) (u.startLoad c f pol sc d w va p) s := by
  refine waitsAs_of_issue hx ?_
  rintro ⟨hplace, hleak⟩
  subst hu
  simp only [load, hplace, hleak]
  rfl

theorem store_completes (hx : ∀ t, exec i t = issue c fFar t fun t => store t f pol sc r w (t.offZ z))
    (hu : u = s.walkFor (s.gReg w) (s.offZ z)) :
    CompletesAs i c fFar
      (u.memAddr (u.gReg w) (s.offZ z) (memSize f) (memSize f) { needW with sc := u.storesTag f r } = .ok va p ∧
        (u.storesTag f r && capKind (u.gReg r).bits == 3) = false ∧ u.me.storeq.length < 16)
      (u.startStore f pol sc r va p) s := by
  refine completesAs_of_issue hx ?_
  rintro ⟨hplace, hend, hroom⟩
  subst hu
  have hslots : ¬ Config.storeSlots ≤ (s.walkFor (s.gReg w) (s.offZ z)).me.storeq.length := Nat.not_le.2 hroom
  rw [State.storesTag] at hplace hend
  simp only [store, hplace, hend, if_neg hslots]
  rfl

theorem pref_completes {m : MAddr} (hu : u = s.walkFor (s.gReg w) (s.offZ z)) :
    CompletesAs (.pref c pol w z) c fFar (u.memAddr (u.gReg w) (s.offZ z) 1 1 needR = m) (u.prefetched m) s := by
  refine completesAs_of_issue (fun _ => rfl) fun hm => ?_
  subst hu
  have hoff : (s.walkFor (s.gReg w) (s.offZ z)).offZ z = s.offZ z :=
    State.offZ_of_operandView (State.walkFor_operandView _ _ _) z
  simp only [hoff, hm, State.prefetched]
  cases m with
  | bad cause val formed => rfl
  | ok va p => cases p <;> rfl
end

/-! ### Fences (R213, R218) -/

section
variable {s : State} {n k : Nat}

theorem tryFence_of_fence {x : Fence} (h : (s.ctxAt n k).fence = some x) :
    s.tryFence n k = if s.fenceMet n k x then (s.endFence n k x).updCtx n k fun y => { y with fence := none } else s := by
  rw [State.tryFence, h]

/-- Nothing that comes before the context's next event is still to perform. -/
theorem Core.poIds_isEmpty_iff (c : Core) (k : Nat) :
    (c.poIds k).isEmpty = true ↔ ∀ o ∈ c.storeq, k ∈ o.po → o.performed = true := by
  simp [Core.poIds, List.filter_eq_nil_iff]

theorem State.redsDone_iff : s.redsDone n k = true ↔ ∀ o ∈ (s.coreAt n).storeq, k ∈ o.po → ∀ f op, o.kind ≠ .red f op := by
  unfold State.redsDone
  simp only [Bool.not_eq_true', List.any_eq_false, Bool.and_eq_true, not_and, Bool.not_eq_true, List.contains_iff_mem]
  refine forall₂_congr fun o _ => imp_congr_right fun _ => ?_
  cases o.kind <;> simp

theorem State.drained_iff : s.drained n k = true ↔
    ∀ o ∈ (s.coreAt n).storeq, k ∈ o.po → o.performed = true ∧ ∀ f op, o.kind ≠ .red f op := by
  rw [State.drained, Bool.and_eq_true, Core.poIds_isEmpty_iff, State.redsDone_iff]
  exact ⟨fun h o ho hk => ⟨h.1 o ho hk, h.2 o ho hk⟩, fun h => ⟨fun o ho hk => (h o ho hk).1, fun o ho hk => (h o ho hk).2⟩⟩

theorem fenceMet_dev_iff : s.fenceMet n k (.full false) = true ↔
    ∀ o ∈ (s.coreAt n).storeq, k ∈ o.po → o.performed = true ∧ ∀ f op, o.kind ≠ .red f op := by
  simp only [State.fenceMet, Bool.false_and, Bool.not_false, Bool.and_true, State.drained_iff]

/-- At `.sys` the posted operations are also acknowledged (R273): none is left in the queue. -/
theorem fenceMet_sys_iff : s.fenceMet n k (.full true) = true ↔ ∀ o ∈ (s.coreAt n).storeq, k ∉ o.po := by
  simp only [State.fenceMet, Bool.true_and, Bool.and_eq_true, Bool.not_eq_true', List.any_eq_false, List.contains_iff_mem,
    State.drained_iff]
  exact ⟨And.right, fun h => ⟨fun o ho hk => absurd hk (h o ho), h⟩⟩

theorem MemOp.performed_of_ordered {o : MemOp} (h : o.ordered = true) : o.performed = false := by
  unfold MemOp.ordered at h
  split at h
  case h_1 | h_2 | h_3 => exact (Bool.not_eq_true' _).mp h
  all_goals cases h

/-- A posted write that has not performed is among the operations that `poIds` lists. -/
theorem ordered_eq_false_of_fenceMet_eng (h : s.fenceMet n k .eng = true) {o : MemOp} (ho : o ∈ (s.coreAt n).storeq)
    (hk : k ∈ o.po) : o.ordered = false := by
  cases hord : o.ordered with
  | false => rfl
  | true =>
    have hid : o.id ∈ (s.coreAt n).poIds k := by
      refine List.mem_map.2 ⟨o, List.mem_filter.2 ⟨ho, ?_⟩, rfl⟩
      rw [MemOp.performed_of_ordered hord, List.contains_iff_mem.2 hk]
      rfl
    have hnone : (s.coreAt n).postedBefore ((s.coreAt n).poIds k) = false := (Bool.not_eq_true' _).mp h
    refine absurd ?_ (List.any_eq_false.1 hnone o ho)
    rw [hord, List.contains_iff_mem.2 hid]
    rfl
end

/-! ### LOAD_RESPONSE (R210, R269) -/

section
variable {n k : Nat} {o : MemOp} {s : State} (hn : n < 4096)
include hn

/-- The response of this device looks at the context's oldest load. -/
theorem loadResponse_own (ho : (s.coreAt n).flight.find? (fun x => x.isLoadOf k) = some o) (hh : s.hostHolds o.place = false) :
    exec (.loadResponse n k) s =
      .next (if (s.coreAt n).opBlocked o then s.later (.loadResponse n k) else s.performLoad n k o) := by
  have hcore : answerCore n = (n, false) := if_pos hn
  show execLoadResponse n k s = _
  rw [execLoadResponse, hcore]
  refine (onCore_goesOn s _ hn).trans ?_
  simp only [ho, hh, Bool.false_eq_true, if_false]

/-- A peer device's comes as that of core 4,096 + n (notes/assumptions/40.md). -/
theorem loadResponse_peer {d : BitVec 12} {pa : Nat}
    (ho : (s.coreAt n).flight.find? (fun x => x.isLoadOf k && x.asked) = some o) (hp : o.place = .peer d pa) :
    exec (.loadResponse (4096 + n) k) s =
      .next ((s.peerBytes pa o.size).2.loadReturn n k o (s.peerBytes pa o.size).1 (Config.freeBit (s.fresh + 1))) := by
  have hcore : answerCore (4096 + n) = (n, true) :=
    (if_neg (Nat.not_lt.2 (Nat.le_add_right _ n))).trans (congrArg (·, true) (Nat.add_sub_cancel_left 4096 n))
  show execLoadResponse (4096 + n) k s = _
  rw [execLoadResponse, hcore]
  refine (onCore_goesOn s _ hn).trans ?_
  simp only [if_true, State.peerLoaded, ho, hp]
  rfl
end

section
variable {n k pa : Nat} {o : MemOp} {s : State}

/-- A peer device is asked once for the bytes of a load (R269). -/
theorem performLoad_peer {d : BitVec 12} (hp : o.place = .peer d pa) (ha : o.asked = false) (hs : o.scope ≠ Scope.sys) :
    s.performLoad n k o = (s.askPeer (s.keyOf (s.coreAt n).dom) d (.peerLoad d pa o.size)).updCore n fun c =>
      { c with flight := c.flight.map fun x => if x.id = o.id then { x with asked := true } else x } := by
  simp only [State.performLoad, hp, ha, if_neg hs, Bool.false_eq_true, if_false]

/-- What is done before a load reads HBM: at `.sys` the snoops (R202), and with a policy other than `.home` the engine points of the
earlier writes of the line (R196, notes/assumptions/50.md). -/
def State.beforeLoad (s : State) (o : MemOp) (pa : Nat) : State :=
  let t := if o.scope = Scope.sys then (s.drain 0).drain 1 else s
  if o.policy = Policy.home then t else t.engineLine (pa / 64)

theorem performLoad_hbm {f : MemFmt} {lc : Bool} (hk : o.kind = .load f lc) (hp : o.place = .hbm pa) :
    let t := s.beforeLoad o pa
    let key := t.keyOf (s.coreAt n).dom
    s.performLoad n k o =
      ((((((t.readPast o.place o.size (.ctx n k)).updCore n fun x =>
        { x with flight := x.flight.filter fun y => y.id != o.id }).landNow n k
          [.g o.d (loadValue f lc (t.mem.tagAs key pa) (t.mem.readAs key pa o.size))] 0 (some o.set)).recordHits
        n k o.hits o.va o.ip).missCount n).resume n k) := by
  have hdom : ((if o.scope = Scope.sys then (s.drain 0).drain 1 else s).coreAt n).dom = (s.coreAt n).dom :=
    State.dom_of_operandView (by simp [apply_ite State.operandView]) n
  have hkey : ∀ (t : State) (d : BitVec 11), (if o.policy = Policy.home then t else t.engineLine (pa / 64)).keyOf d = t.keyOf d := by
    intro t d
    split <;> rfl
  dsimp only
  rw [State.beforeLoad, hkey]
  simp only [State.performLoad, hp, hdom, State.readPlace, State.tagOf, State.loadReturn, hk]
end

/-! ### POSTED_WRITE_PERFORM and L1_EVICTION (R196, R211) -/

theorem performPosted_store {n : Nat} {o : MemOp} {s : State} (hk : o.kind = .store) :
    let t := if o.scope = Scope.sys then s.engineCtx n o.ctx else s
    s.performPosted n o = (((t.writePast o.place o.size o.past).writePlace (t.keyOf (t.coreAt n).dom) o.place
      o.size (o.data.toNat % 2 ^ (8 * o.size)) o.tag (if o.policy = Policy.home then some (n, o.po) else none)).updCore n fun x =>
        { x with storeq := x.storeq.filter fun y => y.id != o.id }).missCount n := by
  simp only [State.performPosted, postedValue, hk]
  cases o.policy <;> rfl

section
variable {n id : Nat} {o : MemOp} {s : State} (hn : n < 4096)
include hn

theorem postedWritePerform_of_find (ho : (s.coreAt n).storeq.find? (fun x => x.id == id) = some o)
    (hh : s.hostHolds o.place = false) :
    exec (.postedWritePerform n id) s = .next
      (if (s.coreAt n).opBlocked o || (o.scope == Scope.sys && (s.coreAt n).postedOpen o.after) || s.redHolds o.past o.place o.size
        then s.later (.postedWritePerform n id) else s.performPosted n o) := by
  refine exec_of_onCore (fun _ => rfl) hn ?_
  simp only [ho, hh, Bool.false_eq_true, if_false]

theorem l1Eviction_spec (l : BitVec 46) : ∃ u : State, exec (.l1Eviction n l) s = .next u ∧ u.mem = s.mem ∧
    ∀ x, x ∈ u.late ↔ x ∈ s.late ∧ ¬ (x.core = n ∧ x.pa / 64 = l.toNat) := by
  refine ⟨_, exec_of_onCore (fun _ => rfl) hn rfl, rfl, fun x => ?_⟩
  simp only [List.mem_filter, Bool.not_eq_true', ← Bool.not_eq_true, Bool.and_eq_true, beq_iff_eq]
end

/-- Settles O42: each word by its body, the fences by what `drained` and `redsDone` say of the store queue, and each event by the
lemma of its case above. -/
theorem globalAccessesComplete : Obligations.GlobalAccessesComplete := by
  unfold Obligations.GlobalAccessesComplete
  intro c sc f pol d r w z va p s u size held tagged stored canLoad canStore fenced
  refine ⟨load_waits (fun _ => rfl) rfl, load_waits (fun _ => rfl) rfl, store_completes (fun _ => rfl) rfl,
    store_completes (fun _ => rfl) rfl, fun _ _ _ => pref_completes rfl, fun _ => pref_completes rfl,
    fun _ _ => ⟨pref_completes rfl, pref_completes rfl⟩, completesAs_of_issue (fun _ => rfl) fun _ => rfl,
    completesAs_of_issue (fun _ => rfl) fun _ => rfl, completesAs_of_issue (fun _ => rfl) fun _ => rfl,
    fun t n k => ⟨fun x hx => tryFence_of_fence hx, fenceMet_dev_iff, fenceMet_sys_iff, State.redsDone_iff,
      fun h o ho hk => ordered_eq_false_of_fenceMet_eng h ho hk⟩, fun n k id o l hn hh => ?_⟩
  refine ⟨fun e pa ho hp ha hs hb => ?asks, fun e pa ho hp => loadResponse_peer hn ho hp,
    fun g lc pa ho hk hp => ⟨fun hb => ?heldBack, fun hb => ?reads⟩, ?_, l1Eviction_spec hn l⟩
  case asks => rw [loadResponse_own hn ho hh, hb, if_neg Bool.false_ne_true, performLoad_peer hp ha hs]
  case heldBack => rw [loadResponse_own hn ho hh, hb, if_pos rfl]
  case reads =>
    rw [loadResponse_own hn ho hh, hb, if_neg Bool.false_ne_true, performLoad_hbm hk hp]
    rfl
  intro blocked ho hk
  refine ⟨fun hb => ?_, fun hb => ?_⟩
  · rw [postedWritePerform_of_find hn ho hh]
    exact congrArg Host.Outcome.next (if_pos hb)
  · rw [postedWritePerform_of_find hn ho hh]
    refine (congrArg Host.Outcome.next (if_neg (ne_true_of_eq_false hb))).trans ?_
    rw [performPosted_store hk]

end Sys2Proof.Machine

namespace Sys2Proof.Machine

/-! ## Engine jobs -/

/-- An edge of happens-before is all that `flow` adds. -/
theorem State.flow_eq (s : State) (a b : Who) : ∃ l, s.flow a b = { s with past := l } := by
  unfold State.flow
  split
  · exact ⟨s.past, rfl⟩
  · exact ⟨_, rfl⟩

theorem State.afterEnded_eq (s : State) (id : Nat) (j : Job) : ∃ l, s.afterEnded id j = { s with past := l } := by
  refine foldl_holds (fun t : State => ∃ l, t = { s with past := l }) _ ?_ _ _ ⟨s.past, rfl⟩
  rintro t q ⟨l, rfl⟩
  split
  · split
    · exact State.flow_eq { s with past := l } _ _
    · exact ⟨l, rfl⟩
  all_goals exact ⟨l, rfl⟩

/-! ### JOB (R227) -/

/-- The job that JOB issues for a card (R227). -/
def State.jobOf (s : State) (w gs gt : BitVec 6) (card : List Byte) : Job :=
  let e := cardEngine card
  let localDst := capKind (s.gReg gt).bits == 2
  { die := dieOf s.core, engine := e, domain := s.me.dom, owner := some { core := s.core, ctx := s.k, gang := s.me.proc.gang },
    node := none, ticket := Tab.get 0 s.me.proc.issued e + 1, card := card, window := s.gReg w, src := s.gReg gs, dst := s.gReg gt,
    block := 0, begun := false, pos := 0, status := if cardValid card localDst (!localDst) then stOK else stBADCARD, flags := 0,
    ended := false, completed := false, cancelled := false, held := !(s.domainAt s.me.dom).holds.isEmpty, after := s.me.poIds s.k,
    chained := decide (Config.cardQueue ≤ s.queued (dieOf s.core) e) }

/-- A job that has entered its chain stands in the table under the next identity, and begins later. -/
theorem State.addJob_eq (s : State) (j : Job) : ∃ u : State, s.addJob j = u.later (.jobBegin s.ids) ∧
    Tab.find u.jobs s.ids = some j ∧ u.cores = s.cores := by
  obtain ⟨l, hl⟩ := s.afterEnded_eq s.ids j
  refine ⟨_, rfl, Tab.find_put_same _ _ _, ?_⟩
  rw [hl]

section
variable {c : Ctl} {d w gs gt : BitVec 6} {s : State} {p : Nat} {card : List Byte}

/-- A JOB whose checks pass, and whose queue or chain area has room, is issued (R227). -/
theorem job_issues (hp : p = capBase (s.gReg w).bits + capCursor (s.gReg w).bits) (hc : card = (s.lsRead s.core p 192).1)
    (hi : Issues c fFarLate s = true) (hw : windowCheck (s.gReg w) true false = none)
    (hlen : p + 192 ≤ capBase (s.gReg w).bits + capLength (s.gReg w).bits) (hls : p + 192 ≤ 262144) (halign : p % 64 = 0)
    (hheld : s.lsHeld s.core p 192 false = false) (hsrc : jobCapCheck (s.gReg gs) = none) (hdst : jobCapCheck (s.gReg gt) = none)
    (hfoot : footCheck card (s.gReg w) (s.gReg gs) (s.gReg gt) = none) (hleak : s.leak d = false)
    (hroom : s.queued (dieOf s.core) (cardEngine card) < 256 ∨ s.chainedIn s.me.dom < s.chainRoom s.me.dom) :
    exec (.job c d w gs gt) s = .next (s.finish c fFarLate (.done (((((s.lsRead s.core p 192).2.flow (.ctx s.core s.k)
      (.job s.ids)).updProc s.core fun q =>
        { q with issued := Tab.put q.issued (cardEngine card) (Tab.get 0 s.me.proc.issued (cardEngine card) + 1) }).addJob
      (s.jobOf w gs gt card)).landLate c.set (.g d (GReg.data (Tab.get 0 s.me.proc.issued (cardEngine card) + 1)))))) := by
  subst hp hc
  refine exec_of_issues (fun _ => rfl) hi ?_
  have hbounds : ¬ (capBase (s.gReg w).bits + capLength (s.gReg w).bits <
      capBase (s.gReg w).bits + capCursor (s.gReg w).bits + 192 ∨
      Config.lsSize < capBase (s.gReg w).bits + capCursor (s.gReg w).bits + 192) :=
    not_or.2 ⟨Nat.not_lt.2 hlen, Nat.not_lt.2 hls⟩
  have hhold : (decide (Config.cardQueue ≤ s.queued (dieOf s.core) (cardEngine
      (s.lsRead s.core (capBase (s.gReg w).bits + capCursor (s.gReg w).bits) 192).1)) &&
      decide (s.chainRoom s.me.dom ≤ s.chainedIn s.me.dom)) = false := by
    rw [Bool.and_eq_false_iff, decide_eq_false_iff_not, decide_eq_false_iff_not]
    exact hroom.imp Nat.not_le.2 Nat.not_le.2
  simp only [hw, if_neg hbounds, halign, hheld, hsrc, hdst, Option.orElse, hfoot, hleak, hhold, ne_eq, not_true_eq_false,
    Bool.false_eq_true, if_false]
  rfl

/-- What the issue of a JOB adds: the job, its ticket, and its beginning later. -/
theorem jobIssued_eq (core a n : Nat) (x y : Who) (e : Nat) (t : W64) (j : Job) :
    ∃ u : State, ((((s.lsRead core a n).2.flow x y).updProc s.core fun q => { q with issued := Tab.put q.issued e t }).addJob j) =
        u.later (.jobBegin s.ids) ∧ Tab.find u.jobs s.ids = some j ∧ Tab.get 0 (u.coreAt s.core).proc.issued e = t := by
  obtain ⟨fr, hfr⟩ := s.lsRead_state core a n
  obtain ⟨l, hl⟩ := State.flow_eq { s with fresh := fr } x y
  rw [hfr, hl]
  obtain ⟨u, hu, hj, hcores⟩ := State.addJob_eq (({ s with fresh := fr, past := l } : State).updProc s.core fun q =>
    { q with issued := Tab.put q.issued e t }) j
  refine ⟨u, hu, hj, ?_⟩
  have hcore : u.coreAt s.core = (({ s with fresh := fr, past := l } : State).updProc s.core fun q =>
      { q with issued := Tab.put q.issued e t }).coreAt s.core := congrArg (fun t => Tab.get Core.init t s.core) hcores
  rw [hcore, State.updProc, State.coreAt_updCore_same]
  exact Tab.get_put_same _ _ _ _
end

/-! ### JWAIT, CWWAIT and JSTAT (R232) -/

/-- A copy job into the local store on a channel, of the running process, is outstanding (R231). -/
def State.copyOut (s : State) (ch : Nat) : Bool :=
  s.jobs.any fun q => q.2.onChannel ch && match q.2.owner with
    | some o => o.core == s.core && o.gang == s.me.proc.gang
    | none => false

section
variable {c : Ctl} {d : BitVec 6} {n : BitVec 2} {v : GI} {s : State}

theorem jwait_completes : CompletesAs (.jwait c n v) c fYield ((s.gi v).toNat ≤ (Tab.get 0 s.me.proc.js n.toNat).toNat) s s :=
  completesAs_of_issue (fun _ => rfl) fun h => if_pos h

theorem jwait_waits : WaitsAs (.jwait c n v) c fYield ((Tab.get 0 s.me.proc.js n.toNat).toNat < (s.gi v).toNat)
    (.jobs n.toNat (s.gi v)) s s :=
  waitsAs_of_issue (fun _ => rfl) fun h => if_neg (Nat.not_le.2 h)

theorem cwwait_completes : CompletesAs (.cwwait c n v) c fPlain
    (((s.gi v).setWidth 32).toNat ≤ (Tab.get 0 s.me.proc.cw n.toNat).toNat ∨ s.copyOut n.toNat = false) s s := by
  refine completesAs_of_issue (fun _ => rfl) fun h => if_pos ?_
  rw [Bool.or_eq_true, decide_eq_true_eq, Bool.not_eq_true']
  exact h

/-- A CWWAIT that has something to wait for issues again in the next cycle. -/
theorem cwwait_holds (hi : Issues c fPlain s = true)
    (hcw : (Tab.get 0 s.me.proc.cw n.toNat).toNat < ((s.gi v).setWidth 32).toNat) (hout : s.copyOut n.toNat = true) :
    exec (.cwwait c n v) s = .next s := by
  refine (exec_of_issues (e := .hold) (fun _ => rfl) hi (if_neg ?_)).trans rfl
  rw [Bool.or_eq_true, decide_eq_true_eq, Bool.not_eq_true', not_or, Bool.not_eq_false]
  exact ⟨Nat.not_le.2 hcw, hout⟩

theorem jstat_completes : CompletesAs (.jstat c d n) c fLate (s.leak d = false)
    ((s.updProc s.core fun p => { p with errs := Tab.put p.errs n.toNat 0 }).landLate c.set
      (.g d (GReg.data (Tab.get 0 s.me.proc.errs n.toNat)))) s :=
  completesAs_of_issue (fun _ => rfl) fun h => if_neg (ne_true_of_eq_false h)
end

/-! ### JOB_BEGIN (R197, R231) -/

section
variable {s : State} {id : Nat} {j : Job} (hj : Tab.find s.jobs id = some j)

/-- A copy into the local store sets its write pointer to a local-store offset (R198, R231). -/
def State.setPointer (s : State) (j : Job) (a : Nat) : State :=
  match j.owner with
  | some o => if j.moves then s.updProc o.core fun p => { p with cw := Tab.put p.cw j.channel (BitVec.ofNat 32 a) } else s
  | none => s

theorem State.setPointer_of_moves {o : JobOwner} (ho : j.owner = some o) (hm : j.moves = true) (a : Nat) :
    s.setPointer j a = s.updProc o.core fun p => { p with cw := Tab.put p.cw j.channel (BitVec.ofNat 32 a) } := by
  simp only [State.setPointer, ho, hm, if_true]

theorem State.setPointer_of_not_moves (hm : j.moves = false) (a : Nat) : s.setPointer j a = s := by
  unfold State.setPointer
  split
  · exact if_neg (ne_true_of_eq_false hm)
  · rfl

include hj

/-- A job of the on-die queue waits for the posted operations before it, ends at once with a bad card, waits for an earlier job that it
must not overtake, or begins. -/
theorem jobBegin_of_queued (hb : j.begun = false) (he : j.ended = false) (hh : j.held = false) (hc : j.chained = false) :
    exec (.jobBegin id) s =
      if j.owner.any fun o => (s.coreAt o.core).postedAny j.after then .next (s.later (.jobBegin id))
      else if j.status = stBADCARD then .next (s.endJob id j stBADCARD)
      else if s.jobBlocked id j then .next (s.later (.jobBegin id))
      else .next (((s.putJob id { j with begun := true }).setPointer j j.dstLo).later (.writePointerAdvance id)) := by
  show execJobBegin id s = _
  rw [execJobBegin, hj]
  simp only [hb, he, hh, hc, Bool.or_false, Bool.false_eq_true, if_false]
  rfl

/-! ### WRITE_POINTER_ADVANCE (R229) -/

section
variable (hgo : ¬ (!j.begun || j.ended) = true)
include hgo

theorem writePointerAdvance_held {p : Place} (hp : (s.jobPiece id j).1.held = some p) :
    exec (.writePointerAdvance id) s = .next ((s.askFor p).later (.writePointerAdvance id)) := by
  show execWritePointerAdvance id s = _
  rw [execWritePointerAdvance, hj]
  dsimp only
  rw [if_neg hgo, hp]

theorem writePointerAdvance_fails (hp : (s.jobPiece id j).1.held = none) (hs : (s.jobPiece id j).1.status ≠ 0) :
    exec (.writePointerAdvance id) s = .next
      ((s.jobPiece id j).1.s.endJob id { j with flags := j.flags ||| (s.jobPiece id j).2.1 } (s.jobPiece id j).1.status) := by
  show execWritePointerAdvance id s = _
  rw [execWritePointerAdvance, hj]
  dsimp only
  rw [if_neg hgo, hp]
  exact if_pos hs

/-- A job after its next piece. -/
def Job.advanced (j : Job) (r : JobAcc × Flags × Nat) : Job := { j with pos := j.pos + r.2.2, flags := j.flags ||| r.2.1 }

theorem writePointerAdvance_moves (hp : (s.jobPiece id j).1.held = none) (hs : (s.jobPiece id j).1.status = 0) :
    exec (.writePointerAdvance id) s = .next
      (let j' := j.advanced (s.jobPiece id j)
       let t := (s.jobPiece id j).1.s.setPointer j j'.pointer
       if j'.total ≤ j'.pos then t.endJob id j' stOK else (t.putJob id j').later (.writePointerAdvance id)) := by
  show execWritePointerAdvance id s = _
  rw [execWritePointerAdvance, hj]
  dsimp only
  rw [if_neg hgo, hp]
  refine (if_neg (not_not.2 hs)).trans ?_
  rw [apply_ite Host.Outcome.next]
  rfl
end

/-! ### JOB_COMPLETION (R230) -/

theorem jobCompletion_of_owned {o : JobOwner} (ho : j.owner = some o) (he : j.ended = true) (hc : j.completed = false) :
    exec (.jobCompletion id) s = .next (s.completeJob id j o) := by
  show execJobCompletion id s = _
  rw [execJobCompletion, hj]
  simp only [he, hc, ho]
  rfl
end

section
variable {s : State} {id : Nat} {j : Job} {o : JobOwner}

/-- A counted job adds one to the ticket that its engine has reached, and its flags to its context's. -/
theorem countJob_counts :
    Tab.get 0 ((s.countJob id j o).coreAt o.core).proc.js j.engine = Tab.get 0 (s.coreAt o.core).proc.js j.engine + 1 ∧
      ((s.countJob id j o).ctxAt o.core o.ctx).fflags = (s.ctxAt o.core o.ctx).fflags ||| j.flags ∧
      (s.countJob id j o).mem = s.mem := by
  obtain ⟨l, hl⟩ : ∃ l, (List.range 12).foldl (fun (s : State) k => s.flow (.job id) (.ctx o.core k))
      { s with jobs := Tab.erase s.jobs id } = { s with jobs := Tab.erase s.jobs id, past := l } := by
    refine foldl_holds (fun t : State => ∃ l, t = { s with jobs := Tab.erase s.jobs id, past := l }) _ ?_ _ _ ⟨s.past, rfl⟩
    rintro t k ⟨l, rfl⟩
    exact State.flow_eq { s with jobs := Tab.erase s.jobs id, past := l } _ _
  rw [State.countJob, hl]
  refine ⟨?_, ?_, rfl⟩
  · rw [State.updCtx, State.coreAt_updCore_same, State.updProc, State.coreAt_updCore_same]
    exact Tab.get_put_same _ _ _ _
  · rw [State.ctxAt_updCtx_same, State.ctxAt, State.updProc, State.coreAt_updCore_same]
    rfl

/-- The only outstanding job of its process on an engine, without error, is counted as it completes. -/
theorem completeJob_of_alone (ho : j.owner = some o) (hs : j.status = stOK)
    (hl : (s.putJob id { j with completed := true }).issuerLives o = true)
    (hm : (s.putJob id { j with completed := true }).jobsOf o j.engine = [(id, { j with completed := true })]) :
    s.completeJob id j o =
      ((s.putJob id { j with completed := true }).countJob id { j with completed := true } o).wakeJobs o.core := by
  have herr : ¬ (j.status ≠ 0 ∧ (s.putJob id { j with completed := true }).issuerLives o = true) := fun h => h.1 hs
  rw [State.completeJob, if_neg herr, State.countJobs, hm, if_pos hl]
  show (State.countJob _ id _ (j.owner.getD o)).wakeJobs o.core = _
  rw [ho, Option.getD_some]
end

/-- Settles O48: JOB by what its issue adds, the waits by their bodies, and each step of a job by the lemma of its case above. -/
theorem engineWordsAndJobsComplete : Obligations.EngineWordsAndJobsComplete := by
  unfold Obligations.EngineWordsAndJobsComplete
  intro c d w gs gt n v s g p card e js cw out
  refine ⟨?issue, jwait_completes, jwait_waits, cwwait_completes, cwwait_holds, jstat_completes, fun id j hj => ⟨?begins, ?advances,
    fun o ho => ⟨jobCompletion_of_owned hj ho, countJob_counts, fun hl hs hm => completeJob_of_alone ho hs hl hm⟩⟩⟩
  case issue =>
    intro hi hw hlen hls halign hheld hsrc hdst hfoot hleak hroom
    obtain ⟨u, hu, hj, hissued⟩ := jobIssued_eq (s := s) s.core p 192 (.ctx s.core s.k) (.job s.ids) e
      (Tab.get 0 s.me.proc.issued e + 1) (s.jobOf w gs gt card)
    exact ⟨_, u, job_issues rfl rfl hi hw hlen hls halign hheld hsrc hdst hfoot hleak hroom, hu, _, hj, rfl, rfl, rfl, rfl, rfl, rfl,
      rfl, rfl, rfl, rfl, rfl, rfl, rfl, hissued⟩
  case begins =>
    intro hb he hh hc waits
    rw [jobBegin_of_queued hj hb he hh hc]
    refine ⟨fun hw => if_pos hw, fun hw => ?_⟩
    rw [if_neg (ne_true_of_eq_false hw)]
    refine ⟨fun hs => if_pos hs, fun hs hk => ?_, fun hs hk => ?_⟩
    · rw [if_neg hs, if_pos hk]
    · rw [if_neg hs, if_neg (ne_true_of_eq_false hk)]
      refine ⟨fun hm => ?_, fun o ho hm => ?_⟩
      · rw [State.setPointer_of_not_moves hm]
      · rw [State.setPointer_of_moves ho hm]
  case advances =>
    intro hb he r j' t
    have hgo : ¬ (!j.begun || j.ended) = true := by rw [hb, he]; decide
    exact ⟨fun p hp => writePointerAdvance_held hj hgo hp, fun hp hs => writePointerAdvance_fails hj hgo hp hs,
      fun hp hs => writePointerAdvance_moves hj hgo hp hs⟩

end Sys2Proof.Machine

namespace Sys2Proof.Machine

/-! ## The GRAPH class -/

/-! ### The words that call an agent (R313 to R318, R359) -/

section
variable {c : Ctl} {d g m gs : BitVec 6} {qd : BitVec 3} {v z : GI} {sl : BitVec 4} {va a b : Nat} {p q : Place} {s u : State}

/-- The number of an operand lies between 1 and 65,535 (R315, R316). -/
theorem not_count_bad {n : Nat} (h : 1 ≤ n ∧ n ≤ 65535) : ¬ (n = 0 ∨ 65535 < n) := by omega

theorem gpost_calls (hi : Issues c fFarLate s = true) (hg : s.graphCheck g permPOST = none) (hn : s.nodeOperand g v = some va)
    (hz : 1 ≤ (s.gi z).toNat ∧ (s.gi z).toNat ≤ 65535) (hl : s.leak d = false) :
    exec (.gpost c d g v z) s = .next (s.finish c fFarLate (s.call c.set (.gpost d va (s.gi z).toNat))) := by
  refine exec_of_issues (fun _ => rfl) hi ?_
  simp only [hg, hn, if_neg (not_count_bad hz), hl, Bool.false_eq_true, if_false]

theorem glaunch_calls (hu : u = (s.walkFor (s.gReg m) 0).walkFor (s.gReg gs) 0) (hi : Issues c fFarLate s = true)
    (hz : 1 ≤ (s.gi z).toNat ∧ (s.gi z).toNat ≤ 65535)
    (ha : u.memAddr (u.gReg m) 0 (128 * (s.gi z).toNat) 128 needRW = .ok a p)
    (hb : u.memAddr (u.gReg gs) 0 64 64 needW = .ok b q) (hl : u.leak d = false) :
    exec (.glaunch c d m gs z) s = .next (s.finish c fFarLate (u.call c.set (.glaunch d a (s.gi z).toNat b))) := by
  refine exec_of_issues (fun _ => rfl) hi ?_
  subst hu
  simp only [if_neg (not_count_bad hz), ha, hb, hl, Bool.false_eq_true, if_false]

theorem gcancel_calls (hi : Issues c fFarLate s = true) (hg : s.graphCheck g permCANCEL = none)
    (hn : s.nodeOperand g v = some va) :
    exec (.gcancel c qd g v) s = .next (s.finish c fFarLate (s.call c.set (.gcancel qd va))) := by
  refine exec_of_issues (fun _ => rfl) hi ?_
  simp only [hg, hn]

theorem gstat_calls (hi : Issues c fFarLate s = true) (hg : s.graphCheck g permSTATUS = none)
    (hn : s.nodeOperand g v = some va) (hl : s.leak d = false) :
    exec (.gstat c d g sl v) s = .next (s.finish c fFarLate (s.call c.set (.gstat d sl.toNat va))) := by
  refine exec_of_issues (fun _ => rfl) hi ?_
  simp only [hg, hn, hl, Bool.false_eq_true, if_false]

theorem scall_calls (hu : u = s.walkFor (s.gReg m) 0) (hi : Issues c fFarLate s = true) (he : s.entryCheck g = none)
    (hz : (s.gi z).toNat ≤ 31) (hmay : (s.gReg g).bits.getLsbD (64 + (s.gi z).toNat) = true)
    (ha : u.memAddr (u.gReg m) 0 16 16 needW = .ok a p) (hl : u.leak d = false) :
    exec (.scall c d g m z) s = .next (s.finish c fFarLate (u.call c.set
      (.scall d (s.gi z).toNat a (capBase (u.gReg m).bits + capLength (u.gReg m).bits - a)))) := by
  refine exec_of_issues (fun _ => rfl) hi ?_
  subst hu
  simp only [he, if_neg (Nat.not_lt.2 hz), hmay, ha, hl, Bool.not_true, Bool.false_eq_true, if_false]
end

/-! ### OFF_CORE_REFERENCE_RESULT (R25, R192) -/

/-- A call waits for the posted operations before it in program order: GPOST for the REDs as well (R192, R306). -/
def State.callWaits (s : State) (k : Nat) (after : List Nat) : Call → Bool
  | .gpost .. => (s.coreAt k).postedAny after
  | .glaunch .. | .gcancel .. | .gstat .. | .scall .. => (s.coreAt k).postedBefore after

/-- What the agent of a call answers, after what a GPOST carries to its node (R203). -/
def State.callAnswer (s : State) (k a : Nat) (x : Call) : List Result × State :=
  (match x with
    | .gpost _ node _ => s.flow (.ctx k a) (.node (s.coreAt k).dom node)
    | .glaunch .. | .gcancel .. | .gstat .. | .scall .. => s).perform k x

section
variable {k a : Nat} {r : Reply} {s : State} (hk : k < 4096)
  (hr : s.replies.find? (fun r => r.core == k && r.ctx == a && r.arrive.isNone) = some r)
include hk hr

/-- An answer that has come lands. -/
theorem offCoreReferenceResult_lands (hc : r.call = none) :
    exec (.offCoreReferenceResult k a) s = .next (s.landReply k a r) := by
  refine exec_of_onCore (fun _ => rfl) hk ?_
  simp only [State.replyStep, hr, hc]

/-- A call is performed at its agent, and its answer lands later. -/
theorem offCoreReferenceResult_calls {x : Call} (hc : r.call = some x) :
    exec (.offCoreReferenceResult k a) s = .next
      (if s.callWaits k r.after x then s.later (.offCoreReferenceResult k a)
       else ({ (s.callAnswer k a x).2 with replies := (s.callAnswer k a x).2.replies.map fun y =>
         if y.id = r.id then { y with res := (s.callAnswer k a x).1, call := none } else y } : State).later
           (.offCoreReferenceResult k a)) := by
  refine exec_of_onCore (fun _ => rfl) hk ?_
  simp only [State.replyStep, hr, hc]
  rfl
end

/-! ### A post of tokens (R276, R302) -/

section
variable {dom : BitVec 11} {va n : Nat} {s : State}

/-- A record takes tokens: it is of an armed graph, and its node waits or runs early. -/
def State.takesTokens (s : State) (dom : BitVec 11) (va : Nat) : Prop :=
  (s.graphOf dom va).isSome = true ∧ (s.nState dom va = nWAITING ∨ s.nState dom va = nEARLY)

theorem State.takesTokens_iff : s.takesTokens dom va ↔
    ¬ ((s.graphOf dom va).isNone = true ∨ (s.nState dom va ≠ nWAITING ∧ s.nState dom va ≠ nEARLY)) := by
  rw [State.takesTokens, not_or, not_and_or, not_not, not_not, Bool.not_eq_true, Option.isNone_eq_false_iff]

theorem postTokens_misplaced (hok : (s.walkReady dom va).recordAt dom va = false) : s.postTokens dom va n = (3, s) := by
  rw [State.postTokens, hok]
  rfl

theorem postTokens_placed (hok : (s.walkReady dom va).recordAt dom va = true) :
    let u := s.graphReady dom va
    s.postTokens dom va n =
      if (u.graphOf dom va).isNone = true ∨ (u.nState dom va ≠ nWAITING ∧ u.nState dom va ≠ nEARLY) then (4, u)
      else if u.nGet dom va 4 2 < u.nGet dom va 6 2 + u.nGet dom va 8 2 + n then (5, u)
      else (0, (((u.nPut dom va 6 2 (u.nGet dom va 6 2 + n)).nPut dom va 10 2 (u.nGet dom va 10 2 + n)).wakePreds dom va).nodes dom
        [.eval va]) := by
  rw [State.postTokens, hok]
  rfl
end

/-! ### TRIG and WAITP (R306, R307) -/

section
variable {c : Ctl} {v : GI} {qd : BitVec 3} {dom : BitVec 11} {va : Nat} {s t u : State}

/-- TRIG.start of a process that has no node, or has triggered already, does nothing. -/
theorem trigStart_idle : CompletesAs (.trigStart c) c fPlain (s.myNode = none ∨ s.me.proc.trigStarted = true) s s := by
  refine completesAs_of_issue (fun _ => rfl) fun h => ?_
  cases hn : s.myNode with
  | none => rfl
  | some x => exact if_pos (h.resolve_left fun h => by rw [hn] at h; cases h)

/-- The first TRIG.start of a process posts the start credits of its node, unless its marks say that they have been posted. -/
theorem trigStart_first (ht : t = (s.updProc s.core fun p => { p with trigStarted := true }).graphReady dom va)
    (hu : u = if t.nMarks dom va % 2 = 1 then t
      else (t.nPut dom va 46 1 (t.nMarks dom va + 1)).nodes dom ((t.succs dom va).map .start)) :
    CompletesAs (.trigStart c) c fPlain (s.myNode = some (dom, va) ∧ s.me.proc.trigStarted = false) u s := by
  refine completesAs_of_issue (fun _ => rfl) ?_
  rintro ⟨hn, hf⟩
  subst hu ht
  simp only [hn, hf, Bool.false_eq_true, if_false, apply_ite Eff.done]

theorem trigDone_idle : CompletesAs (.trigDone c v) c fPlain (s.myNode = none) s s := by
  refine completesAs_of_issue (fun _ => rfl) fun hn => ?_
  simp only [hn]

theorem trigDone_completes : CompletesAs (.trigDone c v) c fPlain (s.myNode = some (dom, va) ∧ s.drained s.core s.k = true)
    (((((((s.engineCtx s.core s.k).flow (.ctx s.core s.k) (.node dom va)).nPut dom va 48 8 (s.gi v).toNat).updProc s.core
      fun p => { p with trigDone := true }).updGang s.me.proc.gang
        fun g => { g with doneBy := addTo g.doneBy s.me.proc.role }).doneTrigger dom va)) s := by
  refine completesAs_of_issue (fun _ => rfl) ?_
  rintro ⟨hn, hd⟩
  simp only [hn, hd, Bool.not_true, Bool.false_eq_true, if_false]

theorem waitp_idle : CompletesAs (.waitp c qd) c fYieldLate (s.myNode = none) (s.landAll s.core s.k c.set [.q qd true]) s := by
  refine completesAs_of_issue (fun _ => rfl) fun hn => ?_
  simp only [hn]

/-- No predecessor of a node is missing: its marks do not say that it began early, or its done credits are as many as its tokens
(R307). -/
def State.predsDone (u : State) (dom : BitVec 11) (va : Nat) : Prop :=
  u.nMarks dom va / 4 % 2 = 0 ∨ u.nGet dom va 4 2 ≤ u.nGet dom va 10 2

theorem waitp_met (hu : u = s.graphReady dom va) :
    CompletesAs (.waitp c qd) c fYieldLate (s.myNode = some (dom, va) ∧ u.predsDone dom va)
      ((u.flow (.node dom va) (.ctx u.core u.k)).landAll (u.flow (.node dom va) (.ctx u.core u.k)).core
        (u.flow (.node dom va) (.ctx u.core u.k)).k c.set [.q qd true]) s := by
  refine completesAs_of_issue (fun _ => rfl) ?_
  rintro ⟨hn, hm⟩
  subst hu
  simp only [hn]
  exact if_pos hm

theorem waitp_requested (hu : u = s.graphReady dom va) :
    CompletesAs (.waitp c qd) c fYieldLate (s.myNode = some (dom, va) ∧ ¬ u.predsDone dom va ∧ u.me.proc.prq ≠ 0)
      (u.landAll u.core u.k c.set [.q qd false]) s := by
  refine completesAs_of_issue (fun _ => rfl) ?_
  rintro ⟨hn, hm, hp⟩
  subst hu
  simp only [hn]
  exact (if_neg hm).trans (if_pos hp)

theorem waitp_waits (hu : u = s.graphReady dom va) :
    WaitsAs (.waitp c qd) c fYieldLate (s.myNode = some (dom, va) ∧ ¬ u.predsDone dom va ∧ u.me.proc.prq = 0) (.preds qd c.set) u s := by
  refine waitsAs_of_issue (fun _ => rfl) ?_
  rintro ⟨hn, hm, hp⟩
  subst hu
  simp only [hn]
  exact (if_neg hm).trans (if_neg (not_not.2 hp))
end

/-- Settles O54: each word by its body, an answer by the step of its reply, and a post of tokens by the record's case. -/
theorem graphWordsComplete : Obligations.GraphWordsComplete := by
  unfold Obligations.GraphWordsComplete
  intro c d g m gs qd v z sl va a b dom s calls n count w wm mine
  refine ⟨?_, ?_, ?_, ?_, ?_, ?answers, ?tokens, trigStart_idle, ?starts, trigDone_idle, trigDone_completes, waitp_idle, ?waits⟩
  · rintro hi ⟨hg, hn, hz, hl⟩
    exact gpost_calls hi hg hn hz hl
  · rintro p q hi ⟨hz, ha, hb, hl⟩
    exact glaunch_calls rfl hi hz ha hb hl
  · rintro hi ⟨hg, hn⟩
    exact gcancel_calls hi hg hn
  · rintro hi ⟨hg, hn, hl⟩
    exact gstat_calls hi hg hn hl
  · rintro p hi ⟨he, hz, hmay, ha, hl⟩
    exact scall_calls rfl hi he hz hmay ha hl
  case answers =>
    intro k r hk hr
    refine ⟨offCoreReferenceResult_lands hk hr, fun x hx => ?_⟩
    intro waits q
    have hwaits : waits = s.callWaits k r.after x := by cases x <;> rfl
    have hq : q = s.callAnswer k a x := by cases x <;> rfl
    rw [offCoreReferenceResult_calls hk hr hx, hwaits, hq]
    exact ⟨fun hw => congrArg Host.Outcome.next (if_pos hw), fun hw => congrArg Host.Outcome.next (if_neg (ne_true_of_eq_false hw))⟩
  case tokens =>
    intro ok u open_ sum t
    refine ⟨postTokens_misplaced, fun hok ho => ?_, fun hok ho hs => ?_, fun hok ho hs => ?_⟩
    · rw [postTokens_placed hok]
      exact if_pos (not_not.1 fun h => ho (State.takesTokens_iff.2 h))
    · rw [postTokens_placed hok]
      exact (if_neg (State.takesTokens_iff.1 ho)).trans (if_pos hs)
    · rw [postTokens_placed hok]
      exact (if_neg (State.takesTokens_iff.1 ho)).trans (if_neg (Nat.not_lt.2 hs))
  case starts =>
    intro t first
    refine ⟨fun hi hok => ?_, fun hi hok => ?_⟩
    · exact trigStart_first rfl (if_pos hok.2).symm hi hok.1
    · exact trigStart_first rfl (if_neg (by rw [hok.2]; decide)).symm hi hok.1
  case waits =>
    intro u f met
    exact ⟨waitp_met rfl, waitp_requested rfl, waitp_waits rfl⟩

end Sys2Proof.Machine

namespace Sys2Proof.Machine

/-! ## Memory stays in canonical form (O8) -/

/-! ### What leaves memory alone -/

/-! `memOk` of the state after an operation follows in one of two ways: the operation leaves memory alone (a `_mem` lemma,
used by `memOk.same` and `memOk.of_eq`), or it writes memory by an operation that keeps the canonical form. There is one
lemma per operation of the model, in the order of the model's files, under the operation's own name. -/

@[simp] theorem State.ite_mem {p : Prop} [Decidable p] (s t : State) :
    (if p then s else t).mem = if p then s.mem else t.mem :=
  apply_ite State.mem p s t

@[simp] theorem State.foldl_mem {α : Type} {f : State → α → State} (hf : ∀ t a, (f t a).mem = t.mem) (l : List α) (s : State) :
    (l.foldl f s).mem = s.mem := foldl_keeps State.mem f hf l s

section
variable (s : State)
@[simp] theorem State.landEvent_mem (n k t : Nat) (d : BitVec 6) (set : BitVec 2) (w : W64) :
    (s.landEvent n k t d set w).mem = s.mem := rfl
@[simp] theorem State.takeEvent_mem (n k) : (s.takeEvent n k).mem = s.mem := State.mem_of_outside (s.takeEvent_outside n k)
@[simp] theorem State.resume_mem (n k) : (s.resume n k).mem = s.mem := State.mem_of_outside (s.resume_outside n k)
@[simp] theorem State.leaveIssue_mem (n k) :
    (s.leaveIssue n k).mem = s.mem := State.mem_of_outside (s.leaveIssue_outside n k)

/-! ### Ops -/
@[simp] theorem State.forgetRed_mem (id) : (s.forgetRed id).mem = s.mem := rfl
@[simp] theorem State.putTx_mem (x) : (s.putTx x).mem = s.mem := rfl
@[simp] theorem State.toHost_mem (host) (d) (o) : (s.toHost host d o).mem = s.mem := by simp [State.toHost]

/-! ### Operands -/
@[simp] theorem State.takeDraws_mem (n) : (s.takeDraws n).2.mem = s.mem := rfl
@[simp] theorem State.scalarMode_mem (rm) : (s.scalarMode rm).2.mem = s.mem := by simp [State.scalarMode, apply_ite Prod.snd]
@[simp] theorem State.wideMode_mem (rm) : (s.wideMode rm).2.2.mem = s.mem := by
  unfold State.wideMode
  dsimp only
  split <;> simp

/-! ### Mem -/
@[simp] theorem State.dropPend_mem (n k) (ip) : (s.dropPend n k ip).mem = s.mem := rfl

/-! ### Access -/
@[simp] theorem State.endFence_mem (n k f) : (s.endFence n k f).mem = s.mem := by
  cases f <;> simp [State.endFence]

@[simp] theorem State.tryFence_mem (n k) : (s.tryFence n k).mem = s.mem := by
  unfold State.tryFence
  split <;> simp

/-! ### Atomic -/
@[simp] theorem State.sendAtomic_mem (core ctx id) (p) : (s.sendAtomic core ctx id p).mem = s.mem := by
  simp [State.sendAtomic]

@[simp] theorem State.performedOp_mem (core ctx id) (r) : (s.performedOp core ctx id r).mem = s.mem := rfl
@[simp] theorem State.endRetarm_mem (core k) (d) (set) (status) : (s.endRetarm core k d set status).mem = s.mem := by
  simp [State.endRetarm]

@[simp] theorem State.peerPerformed_mem (core id) : (s.peerPerformed core id).mem = s.mem := by
  unfold State.peerPerformed
  split <;> simp

@[simp] theorem State.backOut_mem (n k id) : (s.backOut n k id).mem = s.mem := by
  unfold State.backOut
  dsimp only
  repeat' split
  all_goals simp

@[simp] theorem State.dropRefused_mem (n) : (s.dropRefused n).mem = s.mem := rfl
@[simp] theorem State.refuse_mem (core id) (cause) : (s.refuse core id cause).mem = s.mem := by
  unfold State.refuse
  dsimp only
  repeat' split
  all_goals simp

@[simp] theorem State.waitRead_mem (w) : (s.waitRead w).2.mem = s.mem := by
  unfold State.waitRead
  split <;> simp

@[simp] theorem State.tryWait_mem (w) : (s.tryWait w).mem = s.mem := by simp [State.tryWait]

/-! ### Claim -/
@[simp] theorem State.lsRead_mem (core a n) : (s.lsRead core a n).2.mem = s.mem := by
  induction n generalizing s a with
  | zero => rfl
  | succ n ih =>
    simp only [State.lsRead]
    split <;> exact ih _ _

@[simp] theorem State.lsKeep_mem (core a) : (s.lsKeep core a).mem = s.mem := by
  unfold State.lsKeep
  split <;> simp

@[simp] theorem State.lsWrite_mem (core a l) : (s.lsWrite core a l).mem = s.mem := by
  induction l generalizing s a with
  | nil => rfl
  | cons b r ih => simp [State.lsWrite, ih]

/-! ### Engine -/
@[simp] theorem State.afterEnded_mem (id j) : (s.afterEnded id j).mem = s.mem := by
  unfold State.afterEnded
  refine State.foldl_mem (fun t p => ?_) _ _
  split <;> simp

@[simp] theorem State.addJob_mem (j) : (s.addJob j).mem = s.mem := by simp [State.addJob]
@[simp] theorem State.putJob_mem (id) (j) : (s.putJob id j).mem = s.mem := rfl
@[simp] theorem State.foPast_mem (id) (j) : (s.foPast id j).mem = s.mem := by
  unfold State.foPast
  split <;> simp

@[simp] theorem State.endJob_mem (id) (j) (status) : (s.endJob id j status).mem = s.mem := by simp [State.endJob]
@[simp] theorem State.unchain_mem (id) (j) : (s.unchain id j).mem = s.mem := by simp [State.unchain]
@[simp] theorem State.wakeJobs_mem (n) : (s.wakeJobs n).mem = s.mem := by
  refine State.foldl_mem (fun t k => ?_) _ _
  split
  · split <;> simp
  · rfl

@[simp] theorem State.countJob_mem (id) (j) (o) : (s.countJob id j o).mem = s.mem := by simp [State.countJob]
@[simp] theorem State.countJobs_mem (o) (engine) : (s.countJobs o engine).mem = s.mem := by simp [State.countJobs]
@[simp] theorem State.completeJob_mem (id) (j) (o) : (s.completeJob id j o).mem = s.mem := by simp [State.completeJob]
@[simp] theorem State.cancelJobs_mem (n) : (s.cancelJobs n).mem = s.mem := by simp [State.cancelJobs]

/-! ### Wide -/
@[simp] theorem State.landExtr_mem (n) (e) (v) : (s.landExtr n e v).mem = s.mem := rfl
@[simp] theorem State.landWide_mem (n) (e) (r) (fl) : (s.landWide n e r fl).mem = s.mem := rfl
@[simp] theorem State.storeLanes_mem (n a mask v) : (s.storeLanes n a mask v).mem = s.mem :=
  State.foldl_mem (fun t i => by simp) _ _

@[simp] theorem State.performWide_mem (n e) : (s.performWide n e).mem = s.mem := by
  unfold State.performWide
  cases e.op with
  | ldx =>
    dsimp only
    rw [State.landWide_mem]
    exact foldl_keeps (fun r : List Nat × State => r.2.mem) _ (fun r i => by split <;> simp) _ _
  | stx =>
    refine State.foldl_mem (fun t i => ?_) _ _
    split <;> simp
  | mrdacc t j =>
    dsimp only
    split <;> simp
  | _ => simp

@[simp] theorem State.enqueue_mem (e) : (s.enqueue e).mem = s.mem := rfl

/-! ### Matrix -/
@[simp] theorem State.disown_mem (n) (a) : (s.disown n a).mem = s.mem := rfl
@[simp] theorem State.gangMiss_mem (arbor) (m) (reason) : (s.gangMiss arbor m reason).mem = s.mem := by simp [State.gangMiss]
@[simp] theorem State.withdraw_mem (n k) : (s.withdraw n k).mem = s.mem := by
  unfold State.withdraw
  dsimp only
  split <;> simp

@[simp] theorem State.partnerGone_mem (n) : (s.partnerGone n).mem = s.mem := by
  unfold State.partnerGone
  dsimp only
  split
  · rfl
  · exact (State.foldl_mem (fun _ _ => State.gangMiss_mem _ _ _ _) _ _).trans (State.foldl_mem (fun _ _ => State.disown_mem _ _ _) _ _)

/-! ### Wait -/
@[simp] theorem State.unwait_mem (n k) : (s.unwait n k).mem = s.mem := by
  unfold State.unwait
  dsimp only
  repeat' split
  all_goals simp

@[simp] theorem State.stopWaiting_mem (n k) : (s.stopWaiting n k).mem = s.mem := by
  unfold State.stopWaiting
  split <;> simp

@[simp] theorem State.stopAtYields_mem (n) : (s.stopAtYields n).mem = s.mem := by simp [State.stopAtYields]
@[simp] theorem State.goOn_mem (n) : (s.goOn n).mem = s.mem :=
  (State.foldl_mem (fun _ _ => State.updCtx_mem _ _ _ _) _ _).trans (State.updProc_mem _ _ _)

@[simp] theorem State.abandonRefs_mem (n who) : (s.abandonRefs n who).mem = s.mem := by
  refine State.foldl_mem (fun t k => ?_) _ _
  split
  · split <;> simp
  all_goals rfl

@[simp] theorem State.releaseGang_mem (g) : (s.releaseGang g).mem = s.mem := by
  unfold State.releaseGang
  split
  · simp
  · exact (State.updGang_mem _ _ _).trans (State.foldl_mem (fun _ _ => by simp) _ _)

@[simp] theorem State.gangEvent_mem (n) (cause) (val) : (s.gangEvent n cause val).mem = s.mem := by simp [State.gangEvent]

/-! ### Channel -/
@[simp] theorem State.putRec_mem (k) (r) : (s.putRec k r).mem = s.mem := rfl
@[simp] theorem State.updRec_mem (k) (f) : (s.updRec k f).mem = s.mem := by
  unfold State.updRec
  split <;> rfl

@[simp] theorem State.tell_mem (die) (dom) (d) (n) : (s.tell die dom d n).mem = s.mem := by simp [State.tell]
@[simp] theorem State.offerSlots_mem (n) : (s.offerSlots n).mem = s.mem := by simp [State.offerSlots]
@[simp] theorem State.answerSend_mem (a) (b) : (s.answerSend a b).mem = s.mem := rfl
@[simp] theorem State.settle_mem (m) (b) : (s.settle m b).mem = s.mem := by
  unfold State.settle
  dsimp only
  repeat' split
  all_goals simp

@[simp] theorem State.discardMsg_mem (k) (m) : (s.discardMsg k m).mem = s.mem := by simp [State.discardMsg]
@[simp] theorem State.retireRec_mem (k) : (s.retireRec k).mem = s.mem := by
  unfold State.retireRec
  split <;> simp

@[simp] theorem State.closeFar_mem (n) (b) (counter) (discarded) : (s.closeFar n b counter discarded).2.mem = s.mem := by
  unfold State.closeFar
  split <;> simp

@[simp] theorem State.closeEnd_mem (fuel n b counter) : (State.closeEnd fuel s n b counter).2.mem = s.mem := by
  induction fuel generalizing s n b counter with
  | zero => rfl
  | succ fuel ih =>
    simp only [State.closeEnd]
    split
    case h_1 =>
      refine (State.foldl_mem (fun t m => ?_) _ _).trans (by simp)
      split <;> simp [ih]
    case h_2 =>
      split
      · simp
      · refine (State.retireRec_mem _ _).trans ((State.foldl_mem (fun t m => ?_) _ _).trans (by simp))
        split <;> simp [ih]

@[simp] theorem State.close_mem (n r) : (s.close n r).2.mem = s.mem := by rw [State.close, State.closeEnd_mem]
@[simp] theorem State.closeInTransit_mem (n b) : (s.closeInTransit n b).mem = s.mem := by
  rw [State.closeInTransit, State.closeEnd_mem]

@[simp] theorem State.closeAway_mem (k device discarded) : (s.closeAway k device discarded).mem = s.mem := by
  unfold State.closeAway
  dsimp only
  split
  · rfl
  · rw [State.tell_mem, State.closeEnd_mem, State.putRec_mem]

@[simp] theorem State.discard_mem (k) (m) : (s.discard k m).mem = s.mem := by
  unfold State.discard
  dsimp only
  split <;> simp

@[simp] theorem State.markOut_mem (m) : (s.markOut m).mem = s.mem := by
  unfold State.markOut
  split <;> rfl

@[simp] theorem State.sendFar_mem (m) : (s.sendFar m).mem = s.mem := by
  unfold State.sendFar
  dsimp only
  repeat' split
  all_goals simp

@[simp] theorem State.landAll_mem (n k) (set) (res) : (s.landAll n k set res).mem = s.mem := rfl
@[simp] theorem State.landArrival_mem (n k) (set) (res) (a) (reg) : (s.landArrival n k set res a reg).mem = s.mem := by
  unfold State.landArrival
  split <;> simp

@[simp] theorem State.landGot_mem (n k) (set) (res) (a) (reg) : (s.landGot n k set res a reg).mem = s.mem := by
  unfold State.landGot
  split <;> simp

/-- A delivery changes its core. -/
theorem State.recvNow_mem {s t : State} {n k d w e carried qd res a} (h : s.recvNow n k d w e carried qd = .ok t res a) :
    t.mem = s.mem := by
  unfold State.recvNow at h
  dsimp only at h
  split at h
  · cases h
  · split at h
    · cases h
      rfl
    · split at h
      · cases h
      · split at h <;> cases h <;> simp

@[simp] theorem State.wakeRecv_mem (n) : (s.wakeRecv n).mem = s.mem := by
  refine State.foldl_mem (fun t k => ?_) _ _
  split
  · split
    · rfl
    · simp
    · next h => simp [State.recvNow_mem h]
  · split <;> simp
  · rfl

@[simp] theorem State.returnMsg_mem (n) (m) : (s.returnMsg n m).mem = s.mem := by simp [State.returnMsg]
@[simp] theorem State.returnInbox_mem (n) (b) : (s.returnInbox n b).mem = s.mem := by simp [State.returnInbox]
@[simp] theorem State.noteLeave_mem (n) (b) (gen) (counter) : (s.noteLeave n b gen counter).mem = s.mem := by
  unfold State.noteLeave
  split <;> simp

@[simp] theorem State.leave_mem (n) (b) (gen) (counter) : (s.leave n b gen counter).mem = s.mem := by simp [State.leave]
@[simp] theorem State.inject_mem (m) : (s.inject m).mem = s.mem := rfl
@[simp] theorem State.arriveAt_mem (n) (k) (recv) : (s.arriveAt n k recv).2.mem = s.mem := by
  unfold State.arriveAt
  dsimp only
  repeat' split
  all_goals simp

@[simp] theorem State.farCounter_mem (b) : (s.farCounter b).2.mem = s.mem := by
  unfold State.farCounter
  split <;> rfl

@[simp] theorem State.spillDone_mem (g) : (s.spillDone g).mem = s.mem := by
  unfold State.spillDone
  split <;> simp

@[simp] theorem State.disarmStage_mem (id) : (s.disarmStage id).mem = s.mem := rfl
@[simp] theorem State.disarmEnd_mem (b) : (s.disarmEnd b).mem = s.mem := by
  unfold State.disarmEnd
  split
  · exact State.foldl_mem (fun _ _ => State.disarmStage_mem _ _) _ _
  · rfl

/-! ### Node -/
@[simp] theorem State.dropSaved_mem (d) (va) : (s.dropSaved d va).mem = s.mem := by simp [State.dropSaved]
@[simp] theorem State.unqueue_mem (d) (va) : (s.unqueue d va).mem = s.mem := rfl
@[simp] theorem State.dropExit_mem (d) (va) : (s.dropExit d va).mem = s.mem := rfl
@[simp] theorem State.kick_mem : (s.kick).mem = s.mem := by simp [State.kick]
@[simp] theorem State.wakePreds_mem (d va) : (s.wakePreds d va).mem = s.mem := by
  unfold State.wakePreds
  split
  · rfl
  · refine State.foldl_mem (fun t n => State.foldl_mem (fun t k => ?_) _ _) _ _
    split <;> simp

@[simp] theorem State.passOn_mem (d) (va) : (s.passOn d va).mem = s.mem := by simp [State.passOn]
@[simp] theorem State.askCancel_mem (d va) : (s.askCancel d va).mem = s.mem :=
  State.foldl_mem (fun _ _ => State.now_mem _ _) _ _

@[simp] theorem State.markCancel_mem (d) (va) : (s.markCancel d va).mem = s.mem := by simp [State.markCancel]
@[simp] theorem State.checkRetries_mem : (s.checkRetries).mem = s.mem := by simp [State.checkRetries]

/-! ### Launch -/
@[simp] theorem State.fillCore_mem (n g role) (d) (l) (lcn) (fills) (stage) :
    (s.fillCore n g role d l lcn fills stage).mem = s.mem :=
  rfl

@[simp] theorem State.noteLaunch_mem (d) (image header) : (s.noteLaunch d image header).mem = s.mem := rfl
@[simp] theorem State.launch_mem (d) (va) (kind) (l) (cores) : (s.launch d va kind l cores).mem = s.mem := by
  simp [State.launch]

/-! ### Exit -/
@[simp] theorem State.closeEnds_mem (n who) : (s.closeEnds n who).mem = s.mem := by
  unfold State.closeEnds
  dsimp only
  refine (State.foldl_mem (fun t r => State.foldl_mem (fun t e => ?_) _ _) _ _).trans ?_
  · split <;> simp
  · rw [State.foldl_mem fun t e => t.close_mem n e, State.updCore_mem]

@[simp] theorem State.sendBack_mem (n) : (s.sendBack n).mem = s.mem := by simp [State.sendBack]
@[simp] theorem State.vacate_mem (n) : (s.vacate n).mem = s.mem := by simp [State.vacate]
@[simp] theorem State.freeCore_mem (n) : (s.freeCore n).mem = s.mem := by simp [State.freeCore]
@[simp] theorem State.dropStage_mem (id) : (s.dropStage id).mem = s.mem := rfl
@[simp] theorem State.orphanRings_mem (g) : (s.orphanRings g).mem = s.mem :=
  State.foldl_mem (fun _ _ => State.atCycle_mem _ _ _) _ _

@[simp] theorem State.exitPast_mem (n) : (s.exitPast n).mem = s.mem := by
  unfold State.exitPast
  split
  · rfl
  · split
    · rfl
    · exact State.foldl_mem (fun _ _ => State.flow_mem _ _ _) _ _

/-! ### Gang -/
@[simp] theorem State.barrierMiss_mem (cores) : (s.barrierMiss cores).mem = s.mem := by
  refine State.foldl_mem (fun t n => ?_) _ _
  dsimp only
  split <;> simp

@[simp] theorem State.checkBarrier_mem (g) : (s.checkBarrier g).mem = s.mem := by
  unfold State.checkBarrier
  split <;> simp

@[simp] theorem State.leaveBarrier_mem (n) : (s.leaveBarrier n).mem = s.mem := by
  unfold State.leaveBarrier
  split <;> simp

@[simp] theorem State.sendUnits_mem (g role a len dest) : (s.sendUnits g role a len dest).mem = s.mem := by
  unfold State.sendUnits
  dsimp only
  split
  · simp
  · split <;> simp

/-! ### Stage -/
@[simp] theorem State.updStage_mem (id) (f) : (s.updStage id f).mem = s.mem := by
  unfold State.updStage
  split <;> rfl

@[simp] theorem State.bindMonitor_mem (par id h) (desc) : (s.bindMonitor par id h desc).mem = s.mem := by
  unfold State.bindMonitor
  split <;> rfl

@[simp] theorem State.freeHolderMonitors_mem (id h) : (s.freeHolderMonitors id h).mem = s.mem := rfl
@[simp] theorem State.rearmMonitors_mem (id) : (s.rearmMonitors id).mem = s.mem := rfl
@[simp] theorem State.takeHeld_mem (k h) : (s.takeHeld k h).mem = s.mem := by
  unfold State.takeHeld
  dsimp only
  repeat' split
  all_goals simp

@[simp] theorem State.unpause_mem (n) : (s.unpause n).mem = s.mem := by simp [State.unpause]
@[simp] theorem State.startUpcall_mem (id n) (st) (routine g1) (g4) : (s.startUpcall id n st routine g1 g4).mem = s.mem := by
  simp [State.startUpcall]

@[simp] theorem State.leaveUpcall_mem (n) : (s.leaveUpcall n).mem = s.mem := by
  unfold State.leaveUpcall
  split <;> rfl

@[simp] theorem State.undoUpcall_mem (n) (st) : (s.undoUpcall n st).mem = s.mem := rfl
@[simp] theorem State.forceStop_mem (n) : (s.forceStop n).mem = s.mem := rfl
@[simp] theorem State.beginPause_mem (id n) : (s.beginPause id n).mem = s.mem := by simp [State.beginPause]
@[simp] theorem State.dropInput_mem (n record) : (s.dropInput n record).mem = s.mem := rfl
@[simp] theorem State.armStage_mem (id) (st) : (s.armStage id st).2.mem = s.mem := by
  unfold State.armStage
  dsimp only
  repeat' split
  all_goals simp

@[simp] theorem State.disarm_mem (id) (st) : (s.disarm id st).2.mem = s.mem := by simp [State.disarm, apply_ite Prod.snd]

/-! ### Context -/
@[simp] theorem State.forgetPo_mem (n k) : (s.forgetPo n k).mem = s.mem := by simp [State.forgetPo]
@[simp] theorem State.wakeJoin_mem (n v) : (s.wakeJoin n v).mem = s.mem := by
  refine State.foldl_mem (fun t k => ?_) _ _
  split
  · split <;> simp
  · rfl

@[simp] theorem State.leaveOver_mem (n k) : (s.leaveOver n k).mem = s.mem := by simp [State.leaveOver]
@[simp] theorem State.helperExit_mem (n k) : (s.helperExit n k).mem = s.mem := by simp [State.helperExit]
@[simp] theorem State.leaveGang_mem (n) : (s.leaveGang n).mem = s.mem := by
  unfold State.leaveGang
  dsimp only
  split <;> simp

@[simp] theorem State.leaveStage_mem (n) : (s.leaveStage n).mem = s.mem := by
  unfold State.leaveStage
  split <;> simp

/-! ### Sys -/
@[simp] theorem State.landIn_mem (k) (r) : (s.landIn k r).mem = s.mem := rfl
@[simp] theorem State.retryRings_mem (g) : (s.retryRings g).mem = s.mem := by
  unfold State.retryRings
  dsimp only
  split
  · simp
  · exact State.foldl_mem (fun _ _ => State.now_mem _ _) _ _

@[simp] theorem State.eretEnd_mem (n) (cause) : (s.eretEnd n cause).mem = s.mem := by simp [State.eretEnd]
@[simp] theorem State.unpark_mem (n k) (addr) : (s.unpark n k addr).mem = s.mem := by simp [State.unpark]

/-! ### Lodge -/
@[simp] theorem State.answer_mem (host) (ok) (data) : (s.answer host ok data).mem = s.mem := by simp [State.answer]
@[simp] theorem State.updLodge_mem (f) : (s.updLodge f).mem = s.mem := rfl
@[simp] theorem State.lodgeDraw_mem : (s.lodgeDraw).2.mem = s.mem := rfl
@[simp] theorem State.freshNonce_mem (fuel) : (State.freshNonce fuel s).2.mem = s.mem := by
  induction fuel generalizing s with
  | zero => rfl
  | succ fuel ih =>
    simp only [State.freshNonce]
    split <;> simp [ih]

@[simp] theorem State.dropNonce_mem (nonce) : (s.dropNonce nonce).mem = s.mem := rfl
@[simp] theorem State.askAcks_mem (old) : (s.askAcks old).mem = s.mem := rfl
@[simp] theorem State.foldCounters_mem (n) : (s.foldCounters n).mem = s.mem := by simp [State.foldCounters]
@[simp] theorem State.dropDomain_mem (d) : (s.dropDomain d).mem = s.mem := rfl
@[simp] theorem State.resumeIntegrity_mem (d) (page) : (s.resumeIntegrity d page).mem = s.mem := by
  simp [State.resumeIntegrity]

/-! ### Save -/
@[simp] theorem State.abandon_mem (n) : (s.abandon n).mem = s.mem := by simp [State.abandon]
@[simp] theorem State.saveEnd_mem (n) (e) : (s.saveEnd n e).mem = s.mem := by simp [State.saveEnd]
@[simp] theorem State.takeBack_mem (n) (m) : (s.takeBack n m).mem = s.mem := by simp [State.takeBack]
@[simp] theorem State.engineCore_mem (n) : (s.engineCore n).mem = s.mem :=
  State.foldl_mem (fun _ _ => State.engineCtx_mem _ _ _) _ _

@[simp] theorem State.saveLeave_mem (n) : (s.saveLeave n).mem = s.mem := by simp [State.saveLeave]
@[simp] theorem State.saveDone_mem (fam) (roles) : (s.saveDone fam roles).mem = s.mem := by simp [State.saveDone]
@[simp] theorem State.restoreCore_mem (x) (g) (y) (i role n) (stage) (began) (r) :
    (s.restoreCore x g y i role n stage began r).mem = s.mem := by
  simp [State.restoreCore]

@[simp] theorem State.restoreSlots_mem (d) (y) (role n a) (r) : (s.restoreSlots d y role n a r).mem = s.mem := by
  unfold State.restoreSlots
  split <;> rfl

@[simp] theorem State.restoreEnd_mem (n k reg) (e) (holder) : (s.restoreEnd n k reg e holder).mem = s.mem := by
  unfold State.restoreEnd
  split <;> simp

@[simp] theorem State.restoreEnds_mem (n holder) : (s.restoreEnds n holder).mem = s.mem := by simp [State.restoreEnds]
@[simp] theorem State.restoreQueue_mem (x) (i n) (r) : (s.restoreQueue x i n r).mem = s.mem := by simp [State.restoreQueue]
@[simp] theorem State.restoreMonitors_mem (id st) : (s.restoreMonitors id st).mem = s.mem := by
  unfold State.restoreMonitors
  split
  · rfl
  · refine State.foldl_mem (fun t h => ?_) _ _
    split <;> simp

/-! ### Debug -/
@[simp] theorem State.dbg_mem (source) (status) (data) : (s.dbg source status data).mem = s.mem := by simp [State.dbg]
@[simp] theorem State.dbgSet_mem (n k num) (v) : (s.dbgSet n k num v).mem = s.mem := by simp [State.dbgSet]
@[simp] theorem State.settleHolds_mem : s.settleHolds.mem = s.mem := by
  refine State.foldl_mem (fun t d => State.foldl_mem (fun t h => ?_) _ _) _ _
  split <;> simp

/-! ### Fabric -/
@[simp] theorem State.freeBytes_mem (n) : (s.freeBytes n).2.mem = s.mem := by
  induction n generalizing s with
  | zero => rfl
  | succ n ih => exact ih _

@[simp] theorem State.track_mem (d) (lines) : (s.track d lines).mem = s.mem := rfl
@[simp] theorem State.peerReply_mem (r) (error) (data) : (s.peerReply r error data).mem = s.mem := by simp [State.peerReply]
@[simp] theorem State.putLink_mem (l) : (s.putLink l).mem = s.mem := rfl

/-! ### Boot -/
@[simp] theorem State.halt_mem (code) : (s.halt code).mem = s.mem := rfl
@[simp] theorem State.bootAt_mem (n) : (s.bootAt n).mem = s.mem := rfl
@[simp] theorem State.updMc_mem (j) (f) : (s.updMc j f).mem = s.mem := rfl
@[simp] theorem State.mcStart_mem (j code) : (s.mcStart j code).mem = s.mem := by simp [State.mcStart]
@[simp] theorem State.updPort_mem (p) (f) : (s.updPort p f).mem = s.mem := rfl
@[simp] theorem State.portStart_mem (p code) (cxl) : (s.portStart p code cxl).mem = s.mem := by simp [State.portStart]
@[simp] theorem State.portDrop_mem (p) (fail) : (s.portDrop p fail).mem = s.mem := rfl
@[simp] theorem State.checkPorts_mem : (s.checkPorts).mem = s.mem := by simp [State.checkPorts]
@[simp] theorem State.trainPorts_mem : (s.trainPorts).mem = s.mem := by simp [State.trainPorts]
@[simp] theorem State.flush_mem (p) : (s.flush p).mem = s.mem := rfl
@[simp] theorem State.mcNext_mem (j) (fail) : (s.mcNext j fail).mem = s.mem := by
  unfold State.mcNext
  dsimp only
  split <;> simp

@[simp] theorem State.measure_mem (digest) (version) : (s.measure digest version).mem = s.mem := rfl
@[simp] theorem State.measureImage_mem (i) : (s.measureImage i).mem = s.mem := rfl
/-- A step's bound is missed, or the boot goes on. -/
theorem State.orMiss_mem {f : State → State} (hf : ∀ t, (f t).mem = t.mem) : (s.orMiss f).mem = s.mem := by
  unfold State.orMiss
  dsimp only
  split
  · simp
  · exact hf _

@[simp] theorem State.trainStacks_mem : (s.trainStacks).mem = s.mem := by simp [State.trainStacks]
@[simp] theorem State.boot6_mem (f) : (s.boot6 f).mem = s.mem := by
  refine (State.orMiss_mem _ fun t => ?_).trans (State.bootAt_mem _ _)
  simp

@[simp] theorem State.boot5_mem (f) : (s.boot5 f).mem = s.mem := by simp [State.boot5]
@[simp] theorem State.boot4_mem (f) : (s.boot4 f).mem = s.mem := by
  refine (State.orMiss_mem _ fun t => ?_).trans (State.bootAt_mem _ _)
  dsimp only
  split
  · simp
  · refine (State.orMiss_mem _ fun t => ?_).trans (by simp)
    simp

@[simp] theorem State.boot3_mem (f) : (s.boot3 f).mem = s.mem := by
  refine (State.orMiss_mem _ fun t => ?_).trans (State.bootAt_mem _ _)
  simp

/-! ### Fetch -/
@[simp] theorem State.putILine_mem (n line) (p) (b) : (s.putILine n line p b).mem = s.mem := rfl
@[simp] theorem State.seat_mem (n) : (s.seat n).mem = s.mem := by
  unfold State.seat
  split <;> simp

@[simp] theorem State.advance_mem : (s.advance).mem = s.mem := by simp [State.advance]

/-! ### Scalar -/
@[simp] theorem State.landNext_mem (set) (r) : (s.landNext set r).mem = s.mem := rfl
end

/-! ### The operations on the state keep memory canonical -/

theorem Memory.undo_wf (l : Late) {m : Memory} (hm : m.wf = true) : (Memory.undo l m).wf = true := by
  obtain ⟨h1, h2, h3, h4, h5⟩ := (Memory.wf_iff m).1 hm
  exact (Memory.wf_iff _).2 ⟨Tab.wf_set _ _ _ _ h1, Tab.wf_set _ _ _ _ h2, Tab.wf_set _ _ _ _ h3, Tab.wf_set _ _ _ _ h4,
    foldl_holds (fun t => Tab.wf false t = true) _ (fun _ _ ht => Tab.wf_set _ _ _ _ ht) _ _ h5⟩

theorem Memory.undoAll_wf (l : List Late) {m : Memory} (hm : m.wf = true) : (l.foldr Memory.undo m).wf = true := by
  induction l with
  | nil => exact hm
  | cons x r ih => exact Memory.undo_wf x ih

theorem Memory.putBytes_wf {m : Memory} (hm : m.wf = true) (key a : Nat) (l : List Byte) : (m.putBytes key a l).wf = true :=
  foldl_holds (fun m : Memory => m.wf = true) _ (fun m _ ht => m.putByte_wf _ _ _ ht) _ _ hm

theorem Memory.forget_wf {m : Memory} (hm : m.wf = true) (a n : Nat) : (m.forget a n).wf = true := by
  obtain ⟨h1, h2, h3, h4, h5⟩ := (Memory.wf_iff m).1 hm
  exact (Memory.wf_iff _).2 ⟨Tab.wf_filter _ _ _ h1, Tab.wf_filter _ _ _ h2, Tab.wf_filter _ _ _ h3, h4, Tab.wf_filter _ _ _ h5⟩

theorem Memory.toRest_wf {m : Memory} (hm : m.wf = true) (key : Nat) (w : BitVec 256) : (m.toRest key w).wf = true := by
  refine Memory.putBytes_wf ?_ _ _ _
  split
  · exact Memory.putBytes_wf hm _ _ _
  · exact Memory.forget_wf (Memory.putBytes_wf hm _ _ _) _ _

theorem Memory.fromRest_wf {m : Memory} (hm : m.wf = true) (key : Nat) (w : BitVec 256) : (m.fromRest key w).wf = true :=
  Memory.putBytes_wf hm _ _ _

theorem memOk.same {s t : State} (h : memOk s) (e : t.mem = s.mem) : memOk t := (congrArg Memory.wf e).trans h
theorem memOk.of_eq {s t : State} (e : t.mem = s.mem) (h : memOk s) : memOk t := h.same e
theorem memOk.ite {p : Prop} [Decidable p] {s t : State} (hs : memOk s) (ht : memOk t) : memOk (if p then s else t) := by
  split <;> assumption

theorem memOk.foldl {α : Type} {f : State → α → State} {l : List α} {s : State} (h : memOk s)
    (hf : ∀ t a, memOk t → memOk (f t a)) : memOk (l.foldl f s) := foldl_holds memOk f hf l s h

/-- The state an outcome goes on with, where there is one, has canonical memory. -/
def nextOk (o : Host.Outcome State Fault Refusal) : Prop := ∀ t, o = .next t → memOk t
theorem nextOk.next {t : State} (h : memOk t) : nextOk (.next t) := fun _ ht => Host.Outcome.next.inj ht ▸ h

section
variable {s : State} (h : memOk s)
include h
theorem memOk.writePlace {key p n v tag home} :
    memOk (s.writePlace key p n v tag home) := State.writePlace_wf s _ _ _ _ _ _ h
theorem memOk.recall {line} : memOk (s.recall line) := State.recall_wf s _ h
theorem memOk.touch {key p} : memOk (s.touch key p) := State.touch_wf s _ _ h
theorem memOk.walkReady {d va} : memOk (s.walkReady d va) := State.walkReady_wf s _ _ h
theorem memOk.walksReady {d va n} : memOk (s.walksReady d va n) := State.walksReady_wf s _ _ _ h
theorem memOk.walkFor {r off} : memOk (s.walkFor r off) := State.walkFor_wf s _ _ h
theorem memOk.vready {d va n} : memOk (s.vready d va n) := State.vready_wf s _ _ _ h
theorem memOk.vwrite {d va l} : memOk (s.vwrite d va l).1 := State.vwrite_wf l s _ _ h
theorem memOk.vput {d va n v} : memOk (s.vput d va n v) := State.vput_wf s _ _ _ _ h
theorem memOk.vread {d va n} : memOk (s.vread d va n).2.2 := State.vread_wf n s _ _ h
theorem memOk.trace {d r} : memOk (s.trace d r) := State.trace_wf s _ _ h
theorem memOk.reportHits {n recs} : memOk (s.reportHits n recs) := State.reportHits_wf s _ _ h
theorem memOk.recordHits {n k hits va ip} : memOk (s.recordHits n k hits va ip) := State.recordHits_wf s _ _ _ _ _ h
theorem memOk.performPosted {n o} : memOk (s.performPosted n o) := State.performPosted_wf s _ _ h
theorem memOk.post {o ev} : memOk (post s o ev) := post_wf s _ _ h
theorem memOk.clearStack {j} : memOk (s.clearStack j) := State.clearStack_wf s _ h
end

section
variable {s : State} (h : memOk s)
include h

theorem memOk.loadReturn {core ctx o v tag} : memOk (s.loadReturn core ctx o v tag) := by
  unfold State.loadReturn
  dsimp only
  exact .of_eq (by simp; rfl) (h.same (by simp)).recordHits

theorem memOk.performLoad {core ctx o} : memOk (s.performLoad core ctx o) := by
  unfold State.performLoad
  dsimp only
  split
  · exact h.same (by simp)
  · exact (h.same (by simp)).loadReturn
  · exact (h.same (by simp)).loadReturn

theorem memOk.peerLoaded {core ctx} : memOk (s.peerLoaded core ctx) := by
  unfold State.peerLoaded
  dsimp only
  split
  · exact h
  · exact (h.same (by simp)).loadReturn

theorem memOk.postRed {o} : memOk (Machine.postRed s o) := by
  show memOk { Machine.post s o _ with past := _ }
  exact .of_eq (by simp; rfl) h.post

theorem memOk.performAtomic {key core o} : memOk (s.performAtomic key core o).1 := by
  unfold State.performAtomic
  dsimp only
  split
  · exact .of_eq (by simp; rfl) (h.same (by simp)).writePlace
  · exact h.same (by simp)

theorem memOk.performOnce {key d lcn ctx core o} : memOk (s.performOnce key d lcn ctx core o).1 := by
  unfold State.performOnce
  dsimp only
  split
  · split
    · exact .of_eq (by simp; rfl) h.performAtomic
    · exact h
  · exact .of_eq (by simp; rfl) h.performAtomic
  · exact .of_eq (by simp; rfl) h.performAtomic

theorem memOk.sendOp {core ctx o} : memOk (s.sendOp core ctx o) := by
  unfold State.sendOp
  dsimp only
  split
  · exact h.same (by simp)
  · exact .of_eq (by simp; rfl) h.performOnce
  · exact .of_eq (by simp; rfl) h.performOnce

theorem memOk.atomicReturn {core id} : memOk (s.atomicReturn core id) := by
  unfold State.atomicReturn
  dsimp only
  split
  · exact h
  · split
    · exact h
    · split
      · exact h.same (by simp)
      · split
        · exact .of_eq (by simp; rfl) (h.same (by simp)).recordHits
        · exact .of_eq (by simp; rfl) (h.same (by simp)).recordHits
        · exact h.same (by simp)
        · exact h.same (by simp)
        · exact h.same (by simp)
        · exact h.same (by simp)
        · exact h.same (by simp)

theorem memOk.endWaits {core} : memOk (s.endWaits core) := by
  unfold State.endWaits
  dsimp only
  exact .foldl h fun _ _ ht => .ite (ht.same (by simp)) (.of_eq (by simp; rfl) ht.touch)

theorem memOk.kioskRead {id j off n} : memOk (s.kioskRead id j off n).2 := by
  induction n generalizing s off with
  | zero => exact h
  | succ n ih =>
    simp only [State.kioskRead]
    apply ih
    split <;> exact .of_eq (by simp; rfl) h.walkReady

/-! ### The accesses of a job's piece -/

theorem memOk.jobGet {id j sl off n} : memOk (s.jobGet id j sl off n).s := by
  unfold State.jobGet
  dsimp only
  split
  · exact h
  · split
    · split
      · split <;> exact h
      · exact h
    · split
      · exact .of_eq (by simp; rfl) h.walkReady
      · split
        · exact .of_eq (by simp; rfl) h.walkReady
        · split <;> exact .of_eq (by simp; rfl) h.walkReady

theorem memOk.jobReadN {id j sl off n fuel} : memOk (s.jobReadN id j sl off n fuel).s := by
  induction fuel generalizing s off n with
  | zero => exact h
  | succ fuel ih =>
    simp only [State.jobReadN]
    split
    · exact h
    · split
      · exact h.jobGet
      · exact ih h.jobGet

theorem memOk.jobRead {id j sl off n} : memOk (s.jobRead id j sl off n).s := h.jobReadN
theorem memOk.jobPut {id j sl off bs} : memOk (s.jobPut id j sl off bs).s := by
  unfold State.jobPut
  dsimp only
  split
  · exact h
  · split
    · split
      · split
        · exact h
        · exact h.same (by simp)
      · exact h
    · split
      · exact .of_eq (by simp; rfl) h.walkReady
      · split
        · exact .of_eq (by simp; rfl) h.walkReady
        · exact .of_eq (by simp; rfl) <| .writePlace <| .of_eq (by simp; rfl) h.walkReady

theorem memOk.jobWriteN {id j sl off bs fuel} : memOk (s.jobWriteN id j sl off bs fuel).s := by
  induction fuel generalizing s off bs with
  | zero => exact h
  | succ fuel ih =>
    simp only [State.jobWriteN]
    split
    · exact h
    · split
      · exact h.jobPut
      · exact ih h.jobPut

theorem memOk.jobWrite {id j sl off bs} : memOk (s.jobWrite id j sl off bs).s := h.jobWriteN
theorem memOk.jobMove {id j src dst n} : memOk (s.jobMove id j src dst n).s := by
  unfold State.jobMove
  dsimp only
  split
  · exact h.jobRead
  · split
    · exact h.jobRead.jobWrite
    · exact .of_eq (by simp; rfl) h.jobRead.jobWrite

theorem memOk.jobReduce {id j i} : memOk (s.jobReduce id j i).1.s := by
  unfold State.jobReduce
  dsimp only
  split
  · exact .of_eq (by simp; rfl) h.jobRead
  · split
    · exact .of_eq (by simp; rfl) h.jobRead
    · exact .of_eq (by simp; rfl) h.jobRead.kioskRead.jobWrite

theorem memOk.jobIndexed {id j i} : memOk (s.jobIndexed id j i).s := by
  unfold State.jobIndexed
  dsimp only
  split
  · exact h.jobRead
  · split <;> exact h.jobRead.jobMove

theorem memOk.jobPiece {id j} : memOk (s.jobPiece id j).1.s := by
  unfold State.jobPiece
  dsimp only
  split
  · exact .of_eq (by simp; rfl) h.jobMove
  · exact .of_eq (by simp; rfl) h.jobIndexed
  · exact .of_eq (by simp; rfl) h.jobReduce

theorem memOk.haltCore {n} : memOk (s.haltCore n) := by
  unfold State.haltCore
  dsimp only
  exact .ite h (h.same (by simp)).trace

theorem memOk.haltGang {g} : memOk (s.haltGang g) := by
  unfold State.haltGang
  exact .of_eq (by simp; rfl) <| .foldl h fun _ _ ht => ht.haltCore

theorem memOk.spillFault {k va sender} : memOk (s.spillFault k va sender) := by
  unfold State.spillFault
  dsimp only
  split
  · exact h.same (by simp)
  · split <;> exact .of_eq (by simp; rfl) h.haltGang

theorem memOk.ringPut {k stamped m} : memOk (s.ringPut k stamped m) := by
  unfold State.ringPut
  dsimp only
  split
  · exact h
  · split
    · exact h.same (by simp)
    · split
      · exact .of_eq (by simp; rfl) h.walkReady.vwrite
      · exact .spillFault <| .of_eq (by simp; rfl) h.walkReady

theorem memOk.route {k r ring m} : memOk (s.route k r ring m) := by
  unfold State.route
  dsimp only
  split
  · split <;> exact h.same (by simp)
  · exact h.ringPut

theorem memOk.forward {k m} : memOk (s.forward k m) := by
  unfold State.forward
  split
  · exact h
  · exact h.route

theorem memOk.accept {k r m} : memOk (s.accept k r m) := by
  unfold State.accept
  dsimp only
  exact (h.same (by simp)).forward

theorem memOk.acceptRing {fuel k} : memOk (State.acceptRing fuel s k) := by
  induction fuel generalizing s with
  | zero => exact h
  | succ fuel ih =>
    simp only [State.acceptRing]
    split
    · exact h
    · split
      · exact ih h.accept
      · exact h

theorem memOk.reachRec {k r m} : memOk (s.reachRec k r m) := by
  unfold State.reachRec
  split
  · split
    · exact h.same (by simp)
    · exact .ite (h.same (by simp)) (.of_eq (by simp; rfl) h.forward)
  · split
    · exact h.same (by simp)
    · split
      · exact h.same (by simp)
      · split
        · exact h.same (by simp)
        · exact .ite h.ringPut h.accept.acceptRing

theorem memOk.refuseMsg {core m} : memOk (s.refuseMsg core m) := by
  unfold State.refuseMsg
  dsimp only
  split
  · exact h
  · exact .ite (h.same (by simp)) (.ite (h.same (by simp)) (h.same (by simp)).ringPut)

theorem memOk.forwardMarker {k r} : memOk (s.forwardMarker k r) := by
  unfold State.forwardMarker
  dsimp only
  exact .of_eq (by simp; rfl) <| .foldl (h.same (by simp)) fun _ _ ht => ht.route

theorem memOk.ringPuts {k l} : memOk (s.ringPuts k l) := by
  induction l generalizing s with
  | nil => exact h
  | cons e l ih => exact ih h.ringPut

theorem memOk.nPut {d va off n v} : memOk (s.nPut d va off n v) := by
  unfold State.nPut
  exact h.vput

theorem memOk.recordReady {d va} : memOk (s.recordReady d va) := by
  unfold State.recordReady
  dsimp only
  exact h.vready.vready

theorem memOk.graphReady {d va} : memOk (s.graphReady d va) := by
  unfold State.graphReady
  split
  · exact h.vready
  · exact .foldl h fun _ _ ht => ht.recordReady

theorem memOk.writeStatus {d va} : memOk (s.writeStatus d va) := by
  unfold State.writeStatus
  split
  · exact h.vwrite
  · exact h

theorem memOk.setNode {d va st} : memOk (s.setNode d va st) := by
  unfold State.setNode
  dsimp only
  exact (h.same (by simp)).nPut.writeStatus

theorem memOk.evalNode {d va} : memOk (s.evalNode d va).1 := by
  unfold State.evalNode
  dsimp only
  split
  · split
    · split <;> exact .of_eq (by simp; rfl) h.setNode
    · exact h
  · split
    · split <;> exact .of_eq (by simp; rfl) h.setNode
    · exact h

theorem memOk.nodeStep {d t} : memOk (s.nodeStep d t).1 := by
  unfold State.nodeStep
  dsimp only
  split
  · exact h
  · split
    · exact h.evalNode
    · split
      · exact h.evalNode
      · split
        · exact h
        · exact .of_eq (by simp; rfl) (h.same (by simp)).setNode
    · exact h.nPut
    · exact .of_eq (by simp; rfl) h.nPut
    · split
      · exact .of_eq (by simp; rfl) <| .nPut <| .ite h.nPut.nPut h.nPut
      · split
        · exact .of_eq (by simp; rfl) h.nPut.nPut
        · exact .of_eq (by simp; rfl) h.nPut
    · exact .of_eq (by simp; rfl) (h.same (by simp)).setNode

theorem memOk.nodeRun {fuel d l} : memOk (State.nodeRun fuel s d l) := by
  induction fuel generalizing s l with
  | zero => exact h
  | succ fuel ih =>
    cases l with
    | nil => exact h
    | cons t r => exact ih h.nodeStep

theorem memOk.nodes {d l} : memOk (s.nodes d l) := by
  refine memOk.nodeRun ?_
  split
  · exact h
  · exact h.graphReady

theorem memOk.cancelNode {d m} : memOk (s.cancelNode d m) := by
  unfold State.cancelNode
  dsimp only
  split
  · exact .of_eq (by simp; rfl) (h.same (by simp)).setNode
  · split
    · exact h
    · split
      · split
        · exact h.setNode
        · exact h.same (by simp)
      · exact .ite (h.same (by simp)).setNode (h.same (by simp))

theorem memOk.cancelCone {d va} : memOk (s.cancelCone d va) := by
  unfold State.cancelCone
  dsimp only
  exact .foldl h.graphReady fun _ _ ht => ht.cancelNode

theorem memOk.recordFault {d va code} : memOk (s.recordFault d va code) := by
  unfold State.recordFault
  dsimp only
  exact .writeStatus <| .of_eq (by simp; rfl) h.nPut

theorem memOk.stopEarly {d va} : memOk (s.stopEarly d va).2 := by
  unfold State.stopEarly
  dsimp only
  exact .foldl h fun _ _ ht => .ite ht (.of_eq (by simp; rfl) (ht.same (by simp)).setNode)

theorem memOk.failNode {d va code retry} : memOk (s.failNode d va code retry) := by
  unfold State.failNode
  dsimp only
  split
  · exact .of_eq (by simp; rfl) h.graphReady.recordFault.setNode.stopEarly
  · split
    · exact .nodes <| .of_eq (by simp; rfl) h.graphReady.recordFault.nPut.setNode
    · exact h.graphReady.recordFault.nPut.setNode.cancelCone

theorem memOk.nodeFault {g code} : memOk (s.nodeFault g code) := by
  unfold State.nodeFault
  dsimp only
  split
  · exact h
  · split
    · exact h.same (by simp)
    · exact .ite h (.of_eq (by simp; rfl) (h.same (by simp)).recordFault)

theorem memOk.attemptOver {d va cancel fault} : memOk (s.attemptOver d va cancel fault) := by
  unfold State.attemptOver
  dsimp only
  split
  · exact .of_eq (by simp; rfl) h.graphReady
  · split
    · exact .of_eq (by simp; rfl) h.graphReady.setNode
    · split
      · exact h.graphReady.failNode
      · exact .ite (.of_eq (by simp; rfl) h.graphReady) h.graphReady.nodes

theorem memOk.postTokens {d va count} : memOk (s.postTokens d va count).2 := by
  unfold State.postTokens
  dsimp only
  split
  · exact h
  · split
    · exact .of_eq (by simp; rfl) h.graphReady
    · split
      · exact .of_eq (by simp; rfl) h.graphReady
      · exact .of_eq (by simp; rfl) <| .nodes <| .of_eq (by simp; rfl) h.graphReady.nPut.nPut

theorem memOk.doneTrigger {d va} : memOk (s.doneTrigger d va) := by
  unfold State.doneTrigger
  dsimp only
  exact .ite h.graphReady (.nodes <| .nPut <| .of_eq (by simp; rfl) h.graphReady)

theorem memOk.exitTrigger {d va} : memOk (s.exitTrigger d va) := by
  unfold State.exitTrigger
  exact .ite h.doneTrigger h

theorem memOk.arm {d a n b} : memOk (s.arm d a n b).2 := by
  unfold State.arm
  dsimp only
  split
  · exact .of_eq (by simp; rfl) <| .foldl h fun _ _ ht => ht.recordReady
  · exact .of_eq (by simp; rfl) <| .nodes <| .writeStatus <|
      .foldl (.of_eq (by simp; rfl) <| .foldl h fun _ _ ht => ht.recordReady) fun _ _ ht =>
        ht.nPut.nPut.nPut.nPut.nPut.nPut.nPut

theorem memOk.graphCancel {d va} : memOk (s.graphCancel d va).2 := by
  unfold State.graphCancel
  dsimp only
  split
  · exact .of_eq (by simp; rfl) h.graphReady
  · exact .of_eq (by simp; rfl) h.graphReady.cancelNode.cancelCone

theorem memOk.readCaps {d a n} : memOk (s.readCaps d a n).2 := by
  induction n generalizing s a with
  | zero => exact h
  | succ n ih => exact ih h.vread

theorem memOk.readLaunch {d image va kind} : memOk (s.readLaunch d image va kind).2 := by
  unfold State.readLaunch
  dsimp only
  split
  · exact .of_eq (by simp; rfl) h.vread
  · split
    · exact .of_eq (by simp; rfl) h.vread.readCaps.vread
    · exact .of_eq (by simp; rfl) h.vread.readCaps

theorem memOk.residencyReady {d va} : memOk (s.residencyReady d va) := by
  unfold State.residencyReady
  exact h.vready

theorem memOk.fillReady {d va h'} : memOk (s.fillReady d va h') := by
  unfold State.fillReady
  dsimp only
  exact .of_eq (by simp; rfl) <| .foldl (.ite h h.walksReady) fun _ _ ht => ht.walksReady

theorem memOk.markDispatched {d va} : memOk (s.markDispatched d va) := by
  unfold State.markDispatched
  dsimp only
  exact .ite (h.same (by simp)).setNode (h.same (by simp)).nPut.setNode

theorem memOk.dispatchJob {die d va} : memOk (s.dispatchJob die d va) := by
  unfold State.dispatchJob
  dsimp only
  exact .of_eq (by simp; rfl) h.markDispatched.vread.vready

theorem memOk.dispatchOne {r} {t : State} (ht : s.dispatchOne r = some t) : memOk t := by
  unfold State.dispatchOne at ht
  dsimp only at ht
  split at ht
  · cases ht
  · split at ht
    · cases ht
      exact h.graphReady.residencyReady.dispatchJob
    · split at ht
      · cases ht
        exact h.graphReady.residencyReady.readLaunch.markDispatched.failNode
      · split at ht
        · cases ht
          exact h.graphReady.residencyReady.readLaunch.markDispatched.failNode
        · split at ht
          · cases ht
          · split at ht
            · cases ht
              exact h.graphReady.residencyReady.readLaunch.markDispatched.fillReady.failNode
            · cases ht
              exact .of_eq (by simp; rfl) h.graphReady.residencyReady.readLaunch.markDispatched.fillReady

theorem memOk.doFills {n d l} : memOk (s.doFills n d l).1 := by
  induction l generalizing s with
  | nil => exact h
  | cons f r ih =>
    simp only [State.doFills]
    split
    · exact h.vread
    · exact ih (.of_eq (by simp; rfl) h.vread)

theorem memOk.processGone {n normal} : memOk (s.processGone n normal) := by
  unfold State.processGone
  dsimp only
  split
  · exact h.same (by simp)
  · split
    · split
      · split
        · split
          · exact .of_eq (by simp; rfl) (h.same (by simp)).exitTrigger
          · exact h.same (by simp)
        · split
          · exact .ite (.attemptOver <| .of_eq (by simp; rfl) (h.same (by simp)).exitTrigger)
              (.doneTrigger <| .of_eq (by simp; rfl) (h.same (by simp)).exitTrigger)
          · exact .ite (h.same (by simp)).attemptOver (h.same (by simp)).doneTrigger
      · split
        · exact h.same (by simp)
        · exact (h.same (by simp)).doneTrigger
    · split
      · split
        · split
          · exact .of_eq (by simp; rfl) (h.same (by simp)).exitTrigger
          · exact h.same (by simp)
        · split
          · exact .ite (.attemptOver <| .of_eq (by simp; rfl) (h.same (by simp)).exitTrigger)
              (.of_eq (by simp; rfl) (h.same (by simp)).exitTrigger)
          · exact .ite (h.same (by simp)).attemptOver (h.same (by simp))
      · split <;> exact h.same (by simp)

theorem memOk.endProcess {n normal} : memOk (s.endProcess n normal) := by
  unfold State.endProcess
  exact (h.same (by simp)).processGone

theorem memOk.releaseBarrier {g x xend} : memOk (s.releaseBarrier g x xend) := by
  unfold State.releaseBarrier
  extract_lets cores l imb fl step who t u v w y
  have ht : memOk t := .foldl h fun _ _ ht => .foldl ht fun _ _ ht => ht.same (by simp)
  have hv : memOk v := (ht.foldl fun _ _ ht => ht.same (by simp)).same (State.updGang_mem _ _ _)
  have hw : memOk w := .ite hv hv.trace
  have hy : memOk y := hw.foldl fun _ _ ht => ht.same (by simp)
  split
  · exact .haltGang <| hy.same (State.updGang_mem _ _ _)
  · exact hy

theorem memOk.dumpWrite {d buf len at_ l} : memOk (s.dumpWrite d buf len at_ l).1 := by
  induction l generalizing s at_ with
  | nil => exact h
  | cons e r ih =>
    simp only [State.dumpWrite]
    split
    · exact h
    · split
      · exact h.vwrite
      · exact ih h.vwrite

theorem memOk.dumpClose {d buf state cause written need node roles} :
    memOk (s.dumpClose d buf state cause written need node roles) := by
  unfold State.dumpClose
  dsimp only
  split
  · exact .of_eq (by simp; rfl) h.vwrite
  · exact h.vwrite

theorem memOk.dump {d buf len cause node cores ended} : memOk (s.dump d buf len cause node cores ended).1 := by
  unfold State.dump
  dsimp only
  split
  · exact h
  · split
    · exact .of_eq (by simp; rfl) h.vwrite.dumpClose
    · exact .of_eq (by simp; rfl) h.vwrite.dumpWrite.dumpClose

theorem memOk.dumpFault {n cause} : memOk (s.dumpFault n cause) := by
  unfold State.dumpFault
  dsimp only
  split
  · exact h
  · exact h.dump

theorem memOk.deal {k i base l marker} : memOk (s.deal k i base l marker) := by
  refine memOk.foldl (h.same (by simp)) fun t m ht => ?_
  split
  · exact ht.route
  · exact ht

theorem memOk.abandonStage {id code} : memOk (s.abandonStage id code) := by
  unfold State.abandonStage
  dsimp only
  split
  · exact h
  · split
    · exact h
    · split
      · split
        · split
          · split <;> exact .of_eq (by simp; rfl) (h.same (by simp)).endProcess
          · split <;> exact h.same (by simp)
        · split
          · split <;> exact .of_eq (by simp; rfl) (h.same (by simp)).endProcess
          · split <;> exact h.same (by simp)
      · split
        · split <;> exact .of_eq (by simp; rfl) (h.same (by simp)).endProcess
        · split <;> exact h.same (by simp)

theorem memOk.writePrq {n cancel} : memOk (s.writePrq n cancel) := by
  unfold State.writePrq
  dsimp only
  refine .of_eq (by simp; rfl) <| .foldl (h.same (by simp)).endWaits fun t k ht => ?_
  split
  · exact ht.same (by simp)
  · exact ht

theorem memOk.goOnUpd {n f} : memOk ((s.goOn n).updProc n f) := h.same ((State.updProc_mem _ _ _).trans (s.goOn_mem n))
theorem memOk.requestGang {g cancel} : memOk (s.requestGang g cancel) := by
  unfold State.requestGang
  dsimp only
  split
  · exact h
  · exact .ite (.of_eq (by simp; rfl) <| .foldl (.foldl h fun _ _ ht => .ite ht.goOnUpd ht) fun _ _ ht => ht.writePrq)
      (.of_eq (by simp; rfl) <| .foldl (.foldl h fun _ _ ht => .ite ht.goOnUpd ht) fun _ _ ht => ht.writePrq)

theorem memOk.request {g cancel} : memOk (s.request g cancel) := by
  unfold State.request
  dsimp only
  split
  · exact h
  · split
    · exact h.same (by simp)
    · split
      · exact .of_eq (by simp; rfl) <| .foldl h.abandonStage fun _ _ ht => ht.requestGang
      · exact .foldl h fun _ _ ht => ht.requestGang

theorem memOk.reserveTwin {id st n j} : memOk (s.reserveTwin id st n j) := by
  unfold State.reserveTwin
  dsimp only
  split
  · exact h
  · split
    · exact .of_eq (by simp; rfl) h.graphReady.residencyReady.readLaunch
    · exact h.same (by simp)

theorem memOk.stageRequest {id clone h'} : memOk (s.stageRequest id clone h').2 := by
  unfold State.stageRequest
  dsimp only
  split
  · exact h
  · split
    · exact h.same (by simp)
    · split
      · exact h
      · split
        · split
          · exact h
          · exact .of_eq (by simp; rfl) (h.same (by simp)).reserveTwin
        · exact h.same (by simp)

theorem memOk.pauseSplit {id n st} : memOk (s.pauseSplit id n st) := by
  unfold State.pauseSplit
  dsimp only
  split
  · exact h.abandonStage
  · exact h.same (by simp)

theorem memOk.splitRange {stage n tn st r} : memOk (s.splitRange stage n tn st r) := by
  unfold State.splitRange
  dsimp only
  split <;> exact .of_eq (by simp; rfl) <| .deal <| .deal <| .ite (h.same (by simp)).haltCore (h.same (by simp))

theorem memOk.mergeJoin {id st} : memOk (s.mergeJoin id st) := by
  unfold State.mergeJoin
  dsimp only
  split
  · exact .of_eq (by simp; rfl) <| .endProcess <| .of_eq (by simp; rfl) (h.same (by simp)).deal
  · exact h.abandonStage

theorem memOk.mergeCopy {id n st r} : memOk (s.mergeCopy id n st r) := by
  unfold State.mergeCopy
  dsimp only
  split
  · exact h.abandonStage
  · exact h.same (by simp)

theorem memOk.endAbnormal {n} : memOk (s.endAbnormal n) := by
  unfold State.endAbnormal
  dsimp only
  split
  · split
    · exact h.same (by simp)
    · split
      · split
        · exact (h.same (by simp)).abandonStage
        · split
          · exact .endProcess <| .of_eq (by simp; rfl) (h.same (by simp)).abandonStage
          · exact (h.same (by simp)).endProcess
      · exact (h.same (by simp)).endProcess
  · split
    · exact .of_eq (by simp; rfl) (h.same (by simp)).dumpFault.nodeFault
    · exact h.same (by simp)

theorem memOk.endNormal {n} : memOk (s.endNormal n) := by
  unfold State.endNormal
  dsimp only
  split
  · exact .ite h (.ite h.endProcess (h.same (by simp)))
  · split
    · exact .ite h (.ite h.endProcess (h.same (by simp)))
    · split
      · exact h.same (by simp)
      · split
        · exact .of_eq (by simp; rfl) h.stageRequest
        · split
          · exact .ite h (.ite h.endProcess (h.same (by simp)))
          · exact .of_eq (by simp; rfl) h.stageRequest

theorem memOk.settleHit {n k ip} : memOk (s.settleHit n k ip) := by
  unfold State.settleHit
  split
  · exact h
  · exact (h.same (by simp)).reportHits

theorem memOk.dumpGang {g} : memOk (s.dumpGang g) := by
  unfold State.dumpGang
  dsimp only
  split
  · exact h
  · split
    · exact h
    · split
      · exact h.dump
      · exact .of_eq (by simp; rfl) h.dump

theorem memOk.eretCause {g cause mode} : memOk (s.eretCause g cause mode) := by
  unfold State.eretCause
  split
  · exact h.same (by simp)
  · split
    · split
      · exact h.same (by simp)
      · exact h
    · exact .ite h.dumpGang h

theorem memOk.service {n d service a} {r} (hr : s.service n d service a = some r) : memOk r.2 := by
  unfold State.service at hr
  split at hr <;> cases hr
  · exact h.vread
  · exact h.same (by simp)
  · exact h

theorem memOk.scall {n service a avail} : memOk (s.scall n service a avail).2 := by
  unfold State.scall
  dsimp only
  split
  · exact h
  · split
    · exact h
    · split
      · exact h
      · next hr => split <;> exact (h.service hr).vwrite

theorem memOk.assignCore {n d destroyed} : memOk (s.assignCore n d destroyed) := by
  unfold State.assignCore
  dsimp only
  rw [memOk, State.kick_mem, State.setCore_mem, State.updArbor_mem, State.foldCounters_mem]
  split
  · exact Memory.undoAll_wf _ h
  · exact h

theorem memOk.ownerPage {source d va} {r} (hr : s.ownerPage source d va = some r) : memOk r.1 := by
  unfold State.ownerPage at hr
  dsimp only at hr
  split at hr
  · obtain ⟨p, -, rfl⟩ := Option.map_eq_some_iff.1 hr
    exact h.walkReady
  · cases hr

theorem memOk.putEntry {d p e} : memOk (s.putEntry d p e) := by
  unfold State.putEntry
  exact h.writePlace

theorem memOk.recallRange {a n} : memOk (s.recallRange a n) := by
  unfold State.recallRange
  dsimp only
  exact .of_eq (by simp; rfl) <| .foldl h fun _ _ ht => ht.recall

theorem memOk.stopIntegrity {d page} : memOk (s.stopIntegrity d page) := by
  unfold State.stopIntegrity
  dsimp only
  exact .of_eq (by simp; rfl) <| .foldl h fun _ _ ht => .of_eq (by simp; rfl) ht.haltGang

theorem memOk.setWindow {mc j w} : memOk (s.setWindow mc j w) := by
  unfold State.setWindow
  dsimp only
  have ht : memOk (([Tab.get 0 (Tab.get Mc.init s.mcs mc).windows j, w].filter winOn).foldl
      (fun t x => (winRanges x).foldl (fun t r => t.recallRange r.1 r.2) t) s) :=
    h.foldl fun _ _ ht => ht.foldl fun _ _ ht => ht.recallRange
  generalize ([Tab.get 0 (Tab.get Mc.init s.mcs mc).windows j, w].filter winOn).foldl _ s = t at ht
  rw [memOk]
  dsimp only
  split
  · refine Memory.fromRest_wf ?_ _ _
    split
    · exact Memory.toRest_wf ht _ _
    · exact ht
  · split
    · exact Memory.toRest_wf ht _ _
    · exact ht

/-- Every part of a restore but the last, which halts gangs, leaves memory alone. -/
theorem memOk.perform {core c} : memOk (s.perform core c).2 := by
  unfold State.perform
  dsimp only
  split
  · exact .of_eq (by simp; rfl) h.postTokens
  · exact .of_eq (by simp; rfl) h.arm
  · exact .of_eq (by simp; rfl) h.graphCancel
  · exact .of_eq (by simp; rfl) h.graphReady
  · exact .of_eq (by simp; rfl) h.scall

theorem memOk.landReply {core ctx r} : memOk (s.landReply core ctx r) := by
  unfold State.landReply
  dsimp only
  exact .of_eq (by simp; rfl) (h.same (by simp)).recordHits

theorem memOk.replyStep {core ctx} : memOk (s.replyStep core ctx) := by
  unfold State.replyStep
  dsimp only
  split
  · exact h
  · split
    · split
      · exact .ite (h.same (by simp)) (.of_eq (by simp; rfl) (h.same (by simp)).perform)
      · exact .ite (h.same (by simp)) (.of_eq (by simp; rfl) h.perform)
      · exact .ite (h.same (by simp)) (.of_eq (by simp; rfl) h.perform)
      · exact .ite (h.same (by simp)) (.of_eq (by simp; rfl) h.perform)
      · exact .ite (h.same (by simp)) (.of_eq (by simp; rfl) h.perform)
    · exact h.landReply

theorem memOk.saveStop {forced n} : memOk (s.saveStop forced n) := by
  unfold State.saveStop
  exact .ite h.haltCore (h.same (by simp))

theorem memOk.saveWrite {d base len need l} : memOk (s.saveWrite d base len need l).1 := by
  induction l generalizing s with
  | nil => exact h
  | cons p r ih =>
    simp only [State.saveWrite]
    split
    · exact h.vwrite
    · split
      · exact h.vwrite
      · exact ih h.vwrite

theorem memOk.saveFault {g x fam area head reached} : memOk (s.saveFault g x fam area head reached) := by
  unfold State.saveFault
  dsimp only
  split
  · split
    · exact .of_eq (by simp; rfl) h.vwrite
    · exact h.same (by simp)
  · split
    · exact .of_eq (by simp; rfl) h.vwrite
    · exact h.same (by simp)

theorem memOk.saveWriteAll {g : Nat} {x : Gang} {fam : List Nat} {roles : List Role}  : memOk (s.saveWriteAll g x fam roles) := by
  rw [State.saveWriteAll]
  have ht : memOk ((roles.filterMap fun r => r.core).foldl State.abandon s) := h.foldl fun _ _ ht => ht.same (by simp)
  generalize (roles.filterMap fun r => r.core).foldl State.abandon s = t at ht
  extract_lets r w
  have hr : memOk r.1 := ht.saveWrite
  clear_value r
  have hw : memOk w.1 := hr.vwrite
  clear_value w
  split
  · exact ht.saveFault
  · split
    · exact hr.saveFault
    · split
      · exact hw.saveFault
      · exact hw.same (by simp)

theorem memOk.restoreAll {x area cores recs} : memOk (s.restoreAll x area cores recs) := by
  unfold State.restoreAll
  cases x.stage with
  | none => exact .foldl (h.same (by simp)) fun t g ht => .of_eq (by simp; rfl) <| .ite ht.haltGang ht
  | some st => exact .foldl (h.same (by simp)) fun t g ht => .of_eq (by simp; rfl) <| .ite ht.haltGang ht

theorem memOk.restoreReady {d area node} : memOk (s.restoreReady d area node) := by
  unfold State.restoreReady
  dsimp only
  split
  · exact h.graphReady
  · exact h.graphReady.vready

theorem memOk.monAct {id m v} : memOk (s.monAct id m v) := by
  unfold State.monAct
  dsimp only
  split
  · exact h.same (by simp)
  · exact h.same (by simp)
  · exact h.same (by simp)
  · split
    · exact .of_eq (by simp; rfl) h.stageRequest
    · split
      · exact h.stageRequest
      · exact h
  · split
    · exact .of_eq (by simp; rfl) h.stageRequest
    · split
      · exact h.stageRequest
      · exact h
  · split
    · exact h.same (by simp)
    · exact h
  · split
    · exact h.same (by simp)
    · exact h
  · exact h

theorem memOk.monRec {id m v} : memOk (s.monRec id m v) := by
  unfold State.monRec
  dsimp only
  exact h.trace

theorem memOk.endHolds {d} : memOk (s.endHolds d) := by
  unfold State.endHolds
  dsimp only
  exact .ite h (.foldl (h.same (by simp)) fun _ _ ht => (ht.same (by simp)).request)

theorem memOk.judgePost {t} : memOk (s.judgePost t).2 := by
  unfold State.judgePost
  dsimp only
  split
  · exact .of_eq (by simp; rfl) h.walkReady
  · split
    · exact .of_eq (by simp; rfl) h.walkReady
    · exact h.walkReady.postTokens

theorem memOk.outWrite {d a l} : memOk (s.outWrite d a l) := by
  unfold State.outWrite
  exact .foldl h fun _ _ ht => ht.writePlace

theorem memOk.servePeer {r} : memOk (s.servePeer r) := by
  unfold State.servePeer
  dsimp only
  split
  · exact h.same (by simp)
  · split
    · exact .ite (h.same (by simp)) (.of_eq (by simp; rfl) h.performOnce)
    · split
      · exact .of_eq (by simp; rfl) h.outWrite
      · exact h.same (by simp)

theorem memOk.peer {r} : memOk (s.peer r) := by
  unfold State.peer
  dsimp only
  exact .ite h.servePeer (h.same (by simp))

end

/-! ### The effects of instructions -/

/-- An effect whose state has canonical memory; a trap and a hold bring no state of their own. -/
def Eff.ok : Eff → Prop
  | .done t | .jump t _ | .trapIn t _ _ | .wait _ t | .gone t => memOk t
  | .trap .. | .hold => True

section
variable {t : State} (h : memOk t)
include h
theorem Eff.ok.done : Eff.ok (.done t) := h
theorem Eff.ok.jump {pc} : Eff.ok (.jump t pc) := h
theorem Eff.ok.trapIn {c v} : Eff.ok (.trapIn t c v) := h
theorem Eff.ok.wait {w} : Eff.ok (.wait w t) := h
theorem Eff.ok.gone : Eff.ok (.gone t) := h
end
theorem Eff.ok.trap {c v} : Eff.ok (.trap c v) := trivial
theorem Eff.ok.hold : Eff.ok .hold := trivial
theorem Eff.ok.leakTrap {d} : Eff.ok (leakTrap d) := trivial
theorem nextOk.fault {f} : nextOk (.fault f) := nofun
theorem nextOk.refused {r} : nextOk (.refused r) := nofun

/-- The state that an optional answer gives has canonical memory. -/
def optOk (o : Option State) : Prop := ∀ t, o = some t → memOk t
theorem optOk.some {t : State} (h : memOk t) : optOk (some t) := fun _ e => Option.some.inj e ▸ h
theorem optOk.none : optOk none := nofun

theorem Eff.ok.memKept {s : State} {e : Eff} (h : e.ok) (hs : memOk s) : e.memKept s := by
  cases e with
  | done | jump | trapIn | wait | gone => exact h
  | trap | hold => exact hs

section
variable {s : State} (h : memOk s)
include h
theorem memOk.issue {c f} {body : State → Eff} (hb : (body s).ok) : nextOk (Machine.issue c f s body) :=
  fun t ht => issue_memOk c f s t body h (hb.memKept h) ht

theorem memOk.issueWide {c f g} {regs} {body : State → Eff} (hb : (body s).ok) :
    nextOk (Machine.issueWide c f g s regs body) := by
  unfold Machine.issueWide
  split
  · exact .next h
  · split
    · exact .next (h.same (by simp))
    · refine h.issue ?_
      split
      · exact .trap
      · exact hb

end
theorem nextOk.onCore {s : State} {n} {f : State → State} (hf : memOk (f s)) : nextOk (Machine.onCore n s f) := by
  unfold Machine.onCore
  split
  · exact .next hf
  · exact .fault

section
variable {s : State} (h : memOk s)
include h
theorem memOk.writeG {lat d v fl} : Eff.ok (Machine.writeG s lat d v fl) := by
  unfold Machine.writeG
  split
  · exact .leakTrap
  · exact .done (h.same (by simp))

theorem memOk.writeLate {c d v} : Eff.ok (Machine.writeLate s c d v) := by
  unfold Machine.writeLate
  split
  · exact .leakTrap
  · exact .done (h.same (by simp))

theorem memOk.writeQ {lat qd b fl} : Eff.ok (Machine.writeQ s lat qd b fl) := by
  unfold Machine.writeQ
  exact .done (h.same (by simp))

theorem memOk.memTrap {size cause val formed} : Eff.ok (Machine.memTrap s size cause val formed) := by
  unfold Machine.memTrap
  split
  · exact .trap
  · exact .trapIn (h.same (by simp))

theorem memOk.formedTrap {size va cause val} : Eff.ok (Machine.formedTrap s size va cause val) := by
  unfold Machine.formedTrap
  exact h.memTrap

theorem memOk.load {c f pol sc d w off} : Eff.ok (Machine.load s c f pol sc d w off) := by
  unfold Machine.load
  dsimp only
  split
  · exact h.walkFor.memTrap
  · split
    · exact h.walkFor.formedTrap
    · exact .wait <| .of_eq (by simp; rfl) h.walkFor

theorem memOk.store {f pol sc src w off} : Eff.ok (Machine.store s f pol sc src w off) := by
  unfold Machine.store
  dsimp only
  split
  · exact h.walkFor.memTrap
  · split
    · exact h.walkFor.formedTrap
    · split
      · exact .hold
      · exact .done h.walkFor.post

theorem memOk.fence {f} : Eff.ok (Machine.fence s f) := by
  unfold Machine.fence
  exact .done (h.same (by simp))

theorem memOk.atomicTrap {size operand compare cause val formed} :
    Eff.ok (Machine.atomicTrap s size operand compare cause val formed) := by
  unfold Machine.atomicTrap
  dsimp only
  split <;> exact .trapIn (h.same (by simp))

theorem memOk.returning {c sc f kind d w off operand compare} :
    Eff.ok (Machine.returning s c sc f kind d w off operand compare) := by
  unfold Machine.returning
  dsimp only
  split
  · exact .hold
  · split
    · exact h.walkFor.atomicTrap
    · split
      · exact h.walkFor.atomicTrap
      · exact .wait <| .of_eq (by simp; rfl) h.walkFor

theorem memOk.postedAtomic {sc kind n w off operand} : Eff.ok (Machine.postedAtomic s sc kind n w off operand) := by
  unfold Machine.postedAtomic
  dsimp only
  split
  · split
    · exact .hold
    · exact h.walkFor.atomicTrap
  · split
    · exact .hold
    · split
      · split
        · exact .done h.walkFor.postRed
        all_goals exact .done h.walkFor.post
      · split
        · exact .done <| .of_eq (by simp; rfl) h.walkFor.postRed
        all_goals exact .done <| .of_eq (by simp; rfl) h.walkFor.post

theorem memOk.sendRearm {c d k va p q} : Eff.ok (Machine.State.sendRearm s c d k va p q) := by
  unfold Machine.State.sendRearm
  dsimp only
  exact .wait (h.same (by simp))

theorem memOk.syncWait {c n cond d w off} : Eff.ok (Machine.syncWait s c n cond d w off) := by
  unfold Machine.syncWait
  dsimp only
  split
  · exact h.walkFor.memTrap
  · split
    · exact h.walkFor.formedTrap
    · split
      · exact .wait <| .of_eq (by simp; rfl) h.walkFor
      · split <;> exact .wait <| .of_eq (by simp; rfl) h.walkFor

theorem memOk.mload {k w desc} : Eff.ok (Machine.mload s k w desc) := by
  unfold Machine.mload
  dsimp only
  split
  · exact .trap
  · split
    · exact .trap
    · split
      · exact .trap
      · split
        · exact .trap
        · split
          · exact .trap
          · split
            · exact .hold
            · exact .done (h.same (by simp))

theorem memOk.call {set c} : Eff.ok (Machine.State.call s set c) := by
  unfold Machine.State.call
  dsimp only
  exact .wait (h.same (by simp))

theorem memOk.barrier {xend} : Eff.ok (Machine.barrier s xend) := by
  unfold Machine.barrier
  dsimp only
  split
  · exact .trap
  · split
    · exact .trap
    · split
      · split
        · exact .trap
        · split
          · exact .hold
          · split
            · exact .trapIn (h.same (by simp))
            · exact .wait (h.same (by simp))
            · exact .wait (h.same (by simp))
      · split
        · exact .trap
        · split
          · exact .hold
          · split
            · exact .trapIn (h.same (by simp))
            · exact .wait (h.same (by simp))
            · exact .wait (h.same (by simp))

theorem memOk.xcast {c role w d} : Eff.ok (Machine.xcast s c role w d) := by
  unfold Machine.xcast
  dsimp only
  split
  · exact .trap
  · exact .hold
  · split
    · exact .hold
    · split
      · exact .trap
      · split
        · exact .hold
        · exact .done (h.same (by simp))

theorem memOk.start {c qd h' pc} : Eff.ok (Machine.start s c qd h' pc) := by
  unfold Machine.start
  dsimp only
  split
  · exact .leakTrap
  · split <;> exact .done (h.same (by simp))

theorem memOk.eretGo {c qd k mode} : Eff.ok (Machine.eretGo s c qd k mode) := by
  unfold Machine.eretGo
  dsimp only
  split
  · exact .trap
  · split
    · exact .done (h.same (by simp))
    · split
      · exact .done (h.same (by simp))
      · split
        · exact .done (h.same (by simp))
        · split
          · exact .done (h.same (by simp))
          · split
            · exact .done <| .of_eq (by simp; rfl) <| .eretCause <| .of_eq (by simp; rfl) h.settleHit
            · exact .done <| .of_eq (by simp; rfl) (h.same (by simp)).eretCause

theorem memOk.writeCap {d same v} : Eff.ok (Machine.writeCap s d same v) := by
  unfold Machine.writeCap
  split
  · exact .leakTrap
  · exact .done (h.same (by simp))

theorem memOk.moveCap {d g r} : Eff.ok (Machine.moveCap s d g r) := by
  unfold Machine.moveCap
  dsimp only
  split
  · exact .leakTrap
  · exact .done (h.same (by simp))

theorem memOk.branchReg {t} : Eff.ok (Machine.branchReg s t) := by
  unfold Machine.branchReg
  split
  · exact .jump h
  · exact .trap

theorem memOk.callTo {l a} : Eff.ok (Machine.callTo s l a) := by
  unfold Machine.callTo
  split
  · exact .leakTrap
  · exact .jump (h.same (by simp))

theorem memOk.recvIssue {c d e carried qd absent} (ha : Eff.ok absent) :
    Eff.ok (Machine.recvIssue s c d e carried qd absent) := by
  unfold Machine.recvIssue
  split
  · exact .trap
  · split
    · exact .trap
    · split
      · exact .leakTrap
      · split
        · exact .hold
        · split
          · exact ha
          · exact .trap
          · next hr => exact .done (h.same (by simp [State.recvNow_mem hr]))

theorem memOk.shint {c qd} {f : State → Nat → Nat → Stage → Bool × State} (hf : ∀ id i st, memOk (f s id i st).2) :
    Eff.ok (Machine.shint s c qd f) := by
  unfold Machine.shint
  dsimp only
  refine .done (.of_eq (by simp; rfl) ?_)
  split
  · exact h
  · split
    · exact h
    · exact hf _ _ _

end
theorem Eff.ok.matrix {s : State} {e : Eff} (he : e.ok) : Eff.ok (Machine.matrix s e) := by
  unfold Machine.matrix
  split
  · exact he
  · exact .trap

/-! ### The instructions and events keep memory canonical -/

theorem kindTrap_ok {r ok e} (he : kindTrap r ok = some e) : Eff.ok e := by
  unfold kindTrap at he
  split at he
  · exact Option.some.inj he ▸ .trap
  · split at he
    · cases he
    · exact Option.some.inj he ▸ .trap

theorem State.elim_inject_mem (s : State) (m : Option Msg) : (m.elim s s.inject).mem = s.mem := by
  cases m <;> rfl

theorem nextOk.onPort {s : State} {p} {f : State → State} (hf : memOk (f s)) : nextOk (Machine.onPort p s f) := by
  unfold Machine.onPort
  split
  · exact .fault
  · exact .next hf

section
variable {s : State} (h : memOk s)
include h

theorem memOk.entryCheck {e} {r} (hr : s.entryCheck e = some r) : memOk r.1 := by
  unfold State.entryCheck at hr
  dsimp only at hr
  split at hr
  · cases hr
    exact h
  · split at hr
    · cases hr
      exact h
    · split at hr
      · cases hr
        exact h
      · split at hr
        · cases hr
          exact h
        · cases hr

theorem memOk.dbgWrite {n k t tag v} : optOk (s.dbgWrite n k t tag v) := by
  unfold State.dbgWrite
  dsimp only
  split
  · split
    · exact .none
    · exact .some (h.same (by simp))
  · exact .some (h.same (by simp))
  · exact .some (h.same (by simp))
  · split
    · exact .some (h.same (by simp))
    · exact .none
  · split
    · exact .some (h.same (by simp))
    · exact .none
  · split
    · exact .some (h.same (by simp))
    · exact .none

theorem memOk.mcWrite {j off v} : optOk (s.mcWrite j off v) := by
  unfold State.mcWrite
  dsimp only
  split
  · exact .some (h.same (by simp))
  · split
    · exact .some h
    · split
      · exact .some h
      · exact .none

theorem memOk.portWrite {p off v} : optOk (s.portWrite p off v) := by
  unfold State.portWrite
  dsimp only
  split
  · split
    · exact .some (h.same (by simp))
    · split
      · exact .some (h.same (by simp))
      · exact .some h
  · split
    · exact .some h
    · exact .none

theorem memOk.dbgGang {source d node} {f : List Nat → Option State} (hf : ∀ l, optOk (f l)) :
    nextOk (s.dbgGang source d node f) := by
  unfold State.dbgGang
  dsimp only
  split
  · next t ht =>
    split at ht
    · exact .next ((hf _ _ ht).same (by simp))
    · cases ht
  · exact .next (h.same (by simp))

theorem memOk.traceHead {d} : memOk (s.traceHead d) := State.traceHead_wf s _ h
theorem memOk.fpuArith {c lat rm d f} : nextOk (Machine.fpuArith c lat rm d f s) := by
  refine h.issue ?_
  split
  · exact .leakTrap
  · exact .done (h.same (by simp))

theorem memOk.wideMem {c load r w off m} : nextOk (Machine.wideMem c load r w off m s) := by
  refine h.issueWide ?_
  split
  · exact .trap
  · exact .done (h.same (by simp))

theorem memOk.wideIndexed {c load r w i m} : nextOk (Machine.wideIndexed c load r w i m s) := by
  refine h.issueWide ?_
  dsimp only
  split
  · exact .trap
  · exact .done (h.same (by simp))

theorem memOk.onMc {j code} : nextOk (Machine.onMc j s code) := by
  unfold Machine.onMc
  split
  · exact .fault
  · exact .next (h.same (by simp))

theorem memOk.execLoadResponse {core ctx} : nextOk (Machine.execLoadResponse core ctx s) := by
  unfold Machine.execLoadResponse
  refine .onCore ?_
  split
  · exact h.peerLoaded
  · split
    · exact h
    · exact .ite (h.same (by simp)) (.ite (h.same (by simp)) h.performLoad)

theorem memOk.execPostedWritePerform {core id} : nextOk (Machine.execPostedWritePerform core id s) := by
  unfold Machine.execPostedWritePerform
  dsimp only
  refine .onCore ?_
  split
  · exact h
  · exact .ite (h.same (by simp)) (.ite (h.same (by simp)) h.performPosted)

theorem memOk.execPref {c w off} (p : Policy) : nextOk (Machine.execPref c p w off s) := by
  unfold Machine.execPref
  dsimp only
  refine h.issue ?_
  split
  · exact .done h.walkFor
  · split
    · exact .done <| .of_eq (by simp; rfl) h.walkFor
    · exact .done h.walkFor
    · exact .done h.walkFor

theorem memOk.execKioskAtomicPerform {core ctx id} : nextOk (Machine.execKioskAtomicPerform core ctx id s) := by
  unfold Machine.execKioskAtomicPerform
  dsimp only
  refine .onCore ?_
  split
  · exact h
  · exact .ite h (.ite (h.same (by simp)) (.ite (h.same (by simp)) h.sendOp))

theorem memOk.execRetarm {c d ctx} : nextOk (Machine.execRetarm c d ctx s) := by
  unfold Machine.execRetarm
  dsimp only
  refine h.issue ?_
  split
  · exact .trap
  · split
    · exact .leakTrap
    · split
      · exact .wait (h.same (by simp))
      · split
        · exact .wait (h.same (by simp))
        · split
          · exact .wait (h.same (by simp))
          · split
            · exact h.sendRearm
            · split
              · exact .wait (h.same (by simp))
              · split
                · split
                  · exact .wait (h.same (by simp))
                  · exact (h.same (by simp)).sendRearm
                · exact (h.same (by simp)).sendRearm

theorem memOk.execJob {c d w gs gt} : nextOk (Machine.execJob c d w gs gt s) := by
  unfold Machine.execJob
  dsimp only
  refine h.issue ?_
  split
  · exact .trap
  · split
    · exact .trap
    · split
      · exact .trap
      · split
        · exact .hold
        · split
          · exact .trap
          · split
            · exact .leakTrap
            · split
              · exact .hold
              · exact .done (h.same (by simp))

theorem memOk.execJobBegin {id} : nextOk (Machine.execJobBegin id s) := by
  unfold Machine.execJobBegin
  dsimp only
  split
  · exact .next h
  · split
    · exact .next h
    · split
      · exact .next (h.same (by simp))
      · split
        · exact .next (h.same (by simp))
        · split
          · exact .next (h.same (by simp))
          · split
            · exact .next (h.same (by simp))
            · split
              · exact .next (h.same (by simp))
              · split <;> exact .next (h.same (by simp))

theorem memOk.execWritePointerAdvance {id} : nextOk (Machine.execWritePointerAdvance id s) := by
  unfold Machine.execWritePointerAdvance
  dsimp only
  split
  · exact .next h
  · split
    · exact .next h
    · split
      · exact .next (h.same (by simp))
      · split
        · exact .next <| .of_eq (by simp; rfl) h.jobPiece
        · split <;> split <;> exact .next <| .of_eq (by simp; rfl) h.jobPiece

theorem memOk.execJwait {c n v} : nextOk (Machine.execJwait c n v s) := by
  unfold Machine.execJwait
  dsimp only
  refine h.issue ?_
  split
  · exact .done h
  · exact .wait h

theorem memOk.execCwwait {c n v} : nextOk (Machine.execCwwait c n v s) := by
  unfold Machine.execCwwait
  dsimp only
  refine h.issue ?_
  split
  · exact .done h
  · exact .hold

theorem memOk.execVextr {c d a lane} : nextOk (Machine.execVextr c d a lane s) := by
  unfold Machine.execVextr
  dsimp only
  refine h.issueWide ?_
  split
  · exact .leakTrap
  · exact .done (h.same (by simp))

theorem memOk.execAllot {c qd} : nextOk (Machine.execAllot c qd s) := by
  unfold Machine.execAllot
  refine h.issue ?_
  split
  · exact h.writeQ
  · split
    · exact (h.same (by simp)).writeQ
    · exact h.writeQ

theorem memOk.execShrink {c qd} : nextOk (Machine.execShrink c qd s) := by
  unfold Machine.execShrink
  refine h.issue ?_
  split
  · exact .hold
  · split
    · exact (h.same (by simp)).writeQ
    · exact h.writeQ

theorem memOk.execMclaim {c qd k} : nextOk (Machine.execMclaim c qd k s) := by
  unfold Machine.execMclaim
  refine h.issue ?_
  refine .matrix ?_
  split <;> exact .done (h.same (by simp))

theorem memOk.execMcfg {c a shape} : nextOk (Machine.execMcfg c a shape s) := by
  unfold Machine.execMcfg
  dsimp only
  refine h.issue ?_
  refine .matrix ?_
  split
  · exact .hold
  · split
    · exact .done h
    · exact .done (h.same (by simp))

theorem memOk.execMwait {c a} : nextOk (Machine.execMwait c a s) := by
  unfold Machine.execMwait
  refine h.issue ?_
  refine .matrix ?_
  split
  · exact .hold
  · exact .done h

theorem memOk.execMgang {c f a ka kb tag} : nextOk (Machine.execMgang c f a ka kb tag s) := by
  unfold Machine.execMgang
  dsimp only
  refine h.issue ?_
  refine .matrix ?_
  split
  · exact .hold
  · split
    · exact .wait (h.same (by simp))
    · split
      · exact .trapIn (h.same (by simp))
      · exact .wait (h.same (by simp))

theorem memOk.execMatrixOperationCompletion {a} : nextOk (Machine.execMatrixOperationCompletion a s) := by
  refine .onCore ?_
  dsimp only
  split
  · exact h
  · refine .of_eq (by simp; rfl) <| .foldl h fun t m ht => ?_
    split
    · exact ht
    · exact ht.same (by simp)

theorem memOk.execRecordMessageArrival {m} : nextOk (Machine.execRecordMessageArrival m s) := by
  unfold Machine.execRecordMessageArrival
  split
  · exact .next (h.same (by simp))
  · split
    · exact .next h
    · exact .next h.reachRec

theorem memOk.execInboxMessageArrival {core m} : nextOk (Machine.execInboxMessageArrival core m s) := by
  unfold Machine.execInboxMessageArrival
  dsimp only
  split
  · exact .next <| .ite h.refuseMsg h
  · refine .onCore ?_
    split
    · exact h.same (by simp)
    · exact .ite (h.same (by simp)) (.ite (.ite h.refuseMsg (h.same (by simp))) (h.same (by simp)))

theorem memOk.execRingSlotOffer {record} : nextOk (Machine.execRingSlotOffer record s) := by
  unfold Machine.execRingSlotOffer
  dsimp only
  split
  · exact .next (h.same (by simp))
  · split
    · exact .next (h.same (by simp))
    · split
      · split <;> exact .next (h.same (by simp))
      · exact .next (h.same (by simp))

theorem memOk.execLeaveNotice {record recvEnd gen counter core m} :
    nextOk (Machine.execLeaveNotice record recvEnd gen counter core m s) := by
  unfold Machine.execLeaveNotice
  split
  · exact .fault
  · extract_lets b t u
    split
    · exact .next (h.same (by simp))
    · refine .next (h.same ?_)
      rw [State.retireRec_mem, State.elim_inject_mem]
      have ht : t.mem = s.mem := by
        unfold t
        split
        · exact s.leave_mem _ _ _ _
        · rfl
      unfold u
      split
      · exact (t.tell_mem _ _ _ _).trans ht
      · exact ht

theorem memOk.execArrivalNotice {record recvEnd at_ reg} : nextOk (Machine.execArrivalNotice record recvEnd at_ reg s) := by
  unfold Machine.execArrivalNotice
  dsimp only
  split
  · exact .fault
  · split
    · exact .next (h.same (by simp))
    · split
      · exact .next (h.same (by simp))
      · split
        · split <;> exact .next (h.same (by simp))
        · exact .next (h.same (by simp))

theorem memOk.execClosureMarkerArrival {record what} : nextOk (Machine.execClosureMarkerArrival record what s) := by
  unfold Machine.execClosureMarkerArrival
  dsimp only
  split
  · exact .next h
  · exact .next (h.same (by simp))
  · split
    · exact .next (h.same (by simp))
    · split
      · exact .next (h.same (by simp))
      · exact .next (h.same (by simp)).forwardMarker

theorem memOk.execSpillRetry {record} : nextOk (Machine.execSpillRetry record s) := by
  unfold Machine.execSpillRetry
  dsimp only
  split
  · exact .next h
  · split
    · exact .next h
    · split
      · exact .next <| .of_eq (by simp; rfl) (h.same (by simp)).ringPuts.acceptRing
      · exact .next (h.same (by simp)).ringPuts.acceptRing

theorem memOk.execChan {c r e cfg} : nextOk (Machine.execChan c r e cfg s) := by
  unfold Machine.execChan
  dsimp only
  refine h.issue ?_
  split
  · exact .leakTrap
  · split
    · exact .leakTrap
    · split
      · exact .wait <| .of_eq (by simp; rfl) h.walkReady
      · exact .wait (h.same (by simp))

theorem memOk.execSend {c qd e v carried} : nextOk (Machine.execSend c qd e v carried s) := by
  unfold Machine.execSend
  dsimp only
  refine h.issue ?_
  split
  · exact .trap
  · split
    · exact .trap
    · split
      · exact .hold
      · split
        · exact .trap
        · split
          · exact .hold
          · split <;> exact .done (h.same (by simp))

theorem memOk.execSelect {c d b mask} : nextOk (Machine.execSelect c d b mask s) := by
  unfold Machine.execSelect
  dsimp only
  refine h.issue ?_
  split
  · exact .trap
  · split
    · exact .leakTrap
    · split
      · exact .wait h
      · exact .done (h.same (by simp))

theorem memOk.execClose {c d e} : nextOk (Machine.execClose c d e s) := by
  unfold Machine.execClose
  dsimp only
  refine h.issue ?_
  split
  · exact .trap
  · split
    · split
      · exact .trap
      · split
        · exact .leakTrap
        · exact .wait (h.same (by simp))
    · split
      · exact .trap
      · split
        · exact .leakTrap
        · exact .wait (h.same (by simp))

theorem memOk.execEndinfo {c d e} : nextOk (Machine.execEndinfo c d e s) := by
  unfold Machine.execEndinfo
  dsimp only
  refine h.issue ?_
  split
  · exact .trap
  · split
    · exact .leakTrap
    · split <;> exact .wait (h.same (by simp))

/-- A mark withdraws the credits it stands for from one node. -/
theorem memOk.withdraw {p q : Prop} [Decidable p] [Decidable q] {d a b n n' v v' w w'} :
    memOk (if q then (if p then s.nPut d a n v w else s).nPut d b n' v' w' else if p then s.nPut d a n v w else s) :=
  .ite (.nPut (.ite h.nPut h)) (.ite h.nPut h)

theorem memOk.execNodeRetry {domain node} : nextOk (Machine.execNodeRetry domain node s) := by
  unfold Machine.execNodeRetry
  extract_lets d va t q more src cone drop u posted credits marks waits run tried again die
  have ht : memOk t := h.graphReady
  have hc : memOk credits := .foldl (ht.same rfl) fun _ _ h => .ite h (.foldl h fun _ _ h => h.withdraw)
  have hw : memOk waits := .foldl (.foldl hc fun _ _ h => .ite h h.nPut) fun _ _ h => .ite h.setNode h
  have ha : memOk again := hw.nodes.nPut.nPut.setNode
  split
  · exact .next h
  · split
    · exact .next ht
    · split
      · exact .next <| .of_eq (by simp; rfl) (ht.stopEarly : memOk q.2)
      · exact .next (ha.same rfl)

theorem memOk.execJobCompletion {id} : nextOk (Machine.execJobCompletion id s) := by
  unfold Machine.execJobCompletion
  dsimp only
  split
  · exact .next h
  · split
    · exact .next h
    · split
      · exact .next (h.same (by simp))
      · exact .next (h.same (by simp))
      · split
        · exact .next (h.same (by simp)).graphReady
        · split
          · exact .next (h.same (by simp)).graphReady.nPut.setNode
          · split
            · exact .next (h.same (by simp)).graphReady.nPut.nodes
            · exact .next (h.same (by simp)).graphReady.nPut.failNode

theorem memOk.execTrigStart {c} : nextOk (Machine.execTrigStart c s) := by
  unfold Machine.execTrigStart
  dsimp only
  refine h.issue ?_
  split
  · exact .done h
  · split
    · exact .done h
    · split
      · exact .done (h.same (by simp)).graphReady
      · exact .done (h.same (by simp)).graphReady.nPut.nodes

theorem memOk.execTrigDone {c v} : nextOk (Machine.execTrigDone c v s) := by
  unfold Machine.execTrigDone
  dsimp only
  refine h.issue ?_
  split
  · exact .done h
  · split
    · exact .hold
    · exact .done <| .doneTrigger <| .of_eq (by simp; rfl) (h.same (by simp)).nPut

theorem memOk.execWaitp {c qd} : nextOk (Machine.execWaitp c qd s) := by
  unfold Machine.execWaitp
  dsimp only
  refine h.issue ?_
  split
  · exact .done (h.same (by simp))
  · split
    · exact .done <| .of_eq (by simp; rfl) h.graphReady
    · split
      · exact .done <| .of_eq (by simp; rfl) h.graphReady
      · exact .wait h.graphReady

theorem memOk.execGpost {c d g node count} : nextOk (Machine.execGpost c d g node count s) := by
  unfold Machine.execGpost
  dsimp only
  refine h.issue ?_
  split
  · exact .trap
  · split
    · exact .trap
    · split
      · exact .trap
      · split
        · exact .leakTrap
        · exact h.call

theorem memOk.execGlaunch {c d m gs n} : nextOk (Machine.execGlaunch c d m gs n s) := by
  unfold Machine.execGlaunch
  dsimp only
  refine h.issue ?_
  split
  · exact .trap
  · split
    · exact .trap
    · split
      · exact .trap
      · split
        · exact .leakTrap
        · exact h.walkFor.walkFor.call

theorem memOk.execGcancel {c qd g node} : nextOk (Machine.execGcancel c qd g node s) := by
  unfold Machine.execGcancel
  refine h.issue ?_
  split
  · exact .trap
  · split
    · exact .trap
    · exact h.call

theorem memOk.execGstat {c d g sl node} : nextOk (Machine.execGstat c d g sl node s) := by
  unfold Machine.execGstat
  refine h.issue ?_
  split
  · exact .trap
  · split
    · exact .trap
    · split
      · exact .leakTrap
      · exact h.call

theorem memOk.execNodeDispatch {die} : nextOk (Machine.execNodeDispatch die s) := by
  unfold Machine.execNodeDispatch
  dsimp only
  split
  · exact .next h
  · next t ht =>
    obtain ⟨r, -, hr⟩ := List.exists_of_findSome?_eq_some ht
    have ht := h.dispatchOne hr
    split
    · exact .next (ht.same (by simp))
    · exact .next ht

theorem memOk.execResidencyFillComplete {core} : nextOk (Machine.execResidencyFillComplete core s) := by
  unfold Machine.execResidencyFillComplete
  dsimp only
  refine .onCore ?_
  split
  · exact h
  · split <;> exact .of_eq (by simp; rfl) h.doFills

theorem memOk.execBarrierRelease {gang} : nextOk (Machine.execBarrierRelease gang s) := by
  unfold Machine.execBarrierRelease
  dsimp only
  split
  · exact .next h
  · split
    · exact .next (h.same (by simp))
    · exact .next (h.same (by simp))
    · split
      · exact .next (h.same (by simp))
      · exact .next h.releaseBarrier

theorem memOk.execXcast {c role w d} : nextOk (Machine.execXcast c role w d s) := by
  unfold Machine.execXcast
  dsimp only
  split
  · split
    · unfold Machine.illegal
      exact .next (h.same (by simp))
    · split
      · exact .next (h.same (by simp))
      · exact h.issue h.xcast
  · split
    · unfold Machine.illegal
      exact .next (h.same (by simp))
    · split
      · exact .next (h.same (by simp))
      · exact h.issue h.xcast

theorem memOk.execXcastTransferComplete {id} : nextOk (Machine.execXcastTransferComplete id s) := by
  unfold Machine.execXcastTransferComplete
  split
  · exact .next h
  · split
    · exact .next h
    · exact .next (h.same (by simp))

theorem memOk.execRoleq {c d r} : nextOk (Machine.execRoleq c d r s) := by
  unfold Machine.execRoleq
  split
  · unfold Machine.illegal
    exact .next (h.same (by simp))
  · split
    · split
      · unfold Machine.illegal
        exact .next (h.same (by simp))
      · refine h.issue ?_
        split
        · exact .trap
        · exact h.writeLate
    · split
      · unfold Machine.illegal
        exact .next (h.same (by simp))
      · refine h.issue ?_
        split
        · exact .trap
        · exact h.writeLate

theorem memOk.execDlimExpiry {gang} : nextOk (Machine.execDlimExpiry gang s) := by
  unfold Machine.execDlimExpiry
  dsimp only
  split
  · exact .next h
  · split
    · exact .next h
    · split
      · split
        · exact .next <| .foldl h fun _ _ ht => ht.same (by simp)
        · split
          · exact .next (h.same (by simp))
          · exact .next h
      · split
        · exact .next <| .foldl h fun _ _ ht => ht.same (by simp)
        · split
          · exact .next (h.same (by simp))
          · exact .next h

theorem memOk.execStagePause {stage} : nextOk (Machine.execStagePause stage s) := by
  unfold Machine.execStagePause
  dsimp only
  split
  · exact .next h
  · split
    · exact .next h
    · split
      · exact .next h.abandonStage
      · split
        · exact .next h.abandonStage
        · split
          · exact .next (h.same (by simp))
          · split
            · exact .next (h.same (by simp)).pauseSplit
            · exact .next (h.same (by simp))

theorem memOk.execStagePauseTimeout {stage op} : nextOk (Machine.execStagePauseTimeout stage op s) := by
  unfold Machine.execStagePauseTimeout
  dsimp only
  split
  · exact .next h
  · split
    · exact .next h
    · split
      · exact h.execStagePause
      · exact .next h.abandonStage

theorem memOk.execStagef {core code addr} : nextOk (Machine.execStagef core code addr s) := by
  unfold Machine.execStagef
  dsimp only
  refine .onCore ?_
  split
  · exact .of_eq (by simp; rfl) h.abandonStage
  · exact h

theorem memOk.execStageSplitCompletion {stage} : nextOk (Machine.execStageSplitCompletion stage s) := by
  unfold Machine.execStageSplitCompletion
  split
  · exact .next h
  · split
    · split
      · exact .next h
      · split
        · exact .next h.abandonStage
        · split
          · exact .next (h.same (by simp))
          · exact .next h.splitRange
    · split
      · exact .next h.abandonStage
      · exact .next h

theorem memOk.execStageMergeQuiescence {stage} : nextOk (Machine.execStageMergeQuiescence stage s) := by
  unfold Machine.execStageMergeQuiescence
  dsimp only
  split
  · exact .next h
  · split
    · split
      · exact .next h
      · split
        · exact .next h.abandonStage
        · split
          · split <;> exact .next (h.same (by simp))
          · split
            · split
              · exact .next h.mergeCopy
              · exact .next (h.same (by simp))
            · split
              · exact .next h.mergeJoin
              · exact .next (h.same (by simp))
    · split
      · exact .next h.abandonStage
      · exact .next h

theorem memOk.execSret {c v} : nextOk (Machine.execSret c v s) := by
  unfold Machine.execSret
  dsimp only
  refine h.issue ?_
  split
  · split
    · exact .trap
    · split
      · exact .trap
      · split
        · exact .gone <| .of_eq (by simp; rfl) (h.same (by simp)).abandonStage
        · exact .gone (h.same (by simp))
  · exact .trap

theorem memOk.execStartRelative {c qd h' off} : nextOk (Machine.execStartRelative c qd h' off s) := by
  unfold Machine.execStartRelative
  refine h.issue ?_
  split
  · exact .trap
  · exact h.start

theorem memOk.execStartRegister {c qd h' t} : nextOk (Machine.execStartRegister c qd h' t s) := by
  unfold Machine.execStartRegister
  refine h.issue ?_
  split
  · exact .trap
  · split
    · exact .trap
    · exact h.start

theorem memOk.execHjoin {c qd h'} : nextOk (Machine.execHjoin c qd h' s) := by
  unfold Machine.execHjoin
  dsimp only
  refine h.issue ?_
  split
  · exact .trap
  · split
    · exact .done (h.same (by simp))
    · exact .wait h

theorem memOk.execHexit {c} : nextOk (Machine.execHexit c s) := by
  unfold Machine.execHexit
  dsimp only
  refine h.issue ?_
  split
  · exact .trap
  · split
    · exact .hold
    · split
      · exact .wait (h.same (by simp))
      · split
        · exact .hold
        · exact .gone (h.same (by simp))

theorem memOk.execWaitev {c d mask} : nextOk (Machine.execWaitev c d mask s) := by
  unfold Machine.execWaitev
  dsimp only
  refine h.issue ?_
  split
  · exact .leakTrap
  · split
    · exact .wait h
    · exact .done (h.same (by simp))

theorem memOk.execWrs {c dst v} : nextOk (Machine.execWrs c dst v s) := by
  unfold Machine.execWrs
  refine h.issue ?_
  split
  · exact .trap
  · split
    · exact .done h
    · exact .done (h.same (by simp))

theorem memOk.execRdsContext {c d src ctx} : nextOk (Machine.execRdsContext c d src ctx s) := by
  unfold Machine.execRdsContext
  dsimp only
  refine h.issue ?_
  split
  · exact .trap
  · split
    · exact .leakTrap
    · exact .done (h.same (by simp))

theorem memOk.execWrsContext {c dst v ctx} : nextOk (Machine.execWrsContext c dst v ctx s) := by
  unfold Machine.execWrsContext
  dsimp only
  refine h.issue ?_
  split
  · exact .trap
  · split
    · exact .trap
    · split
      · exact .done h
      · split
        · split
          · exact .trap
          · exact .done (h.same (by simp))
        · exact .done (h.same (by simp))
        · exact .done (h.same (by simp))
        · split
          · exact .done h
          · split <;> exact .done (h.same (by simp))

theorem memOk.execEretExit {c qd ctx} : nextOk (Machine.execEretExit c qd ctx s) := by
  unfold Machine.execEretExit
  dsimp only
  refine h.issue ?_
  split
  · exact .trap
  · split
    · exact .done (h.same (by simp))
    · exact .gone (h.same (by simp))

theorem memOk.execScall {c d e b service} : nextOk (Machine.execScall c d e b service s) := by
  refine h.issue ?_
  dsimp only
  split
  · next hr => exact .trapIn (h.entryCheck hr)
  · split
    · exact .trap
    · split
      · exact .trap
      · split
        · exact .trap
        · split
          · exact .leakTrap
          · exact h.walkFor.call

theorem memOk.execCoreAssign {source core domain} : nextOk (Machine.execCoreAssign source core domain s) := by
  unfold Machine.execCoreAssign
  dsimp only
  split
  · split
    · exact .next (h.same (by simp))
    · split
      · exact .next (h.same (by simp))
      · exact .next <| .of_eq (by simp; rfl) h.assignCore
  · split
    · exact .next (h.same (by simp))
    · split
      · exact .next (h.same (by simp))
      · exact .next <| .of_eq (by simp; rfl) h.assignCore

theorem memOk.execDomainDestroy {source domain} : nextOk (Machine.execDomainDestroy source domain s) := by
  unfold Machine.execDomainDestroy
  dsimp only
  split
  · exact .next (h.same (by simp))
  · exact .next <| .of_eq (by simp; rfl) <|
      .foldl (.of_eq (by simp; rfl) <| .foldl h fun _ _ ht => ht.haltGang) fun _ _ ht => ht.assignCore

theorem memOk.execPageEvict {source domain va host} : nextOk (Machine.execPageEvict source domain va host s) := by
  unfold Machine.execPageEvict
  dsimp only
  split
  · exact .next (h.same (by simp))
  · next w p e hr =>
    have hw : memOk w := h.ownerPage hr
    clear hr
    split
    · exact .next (h.same (by simp))
    · split
      · split
        · exact .next (h.same (by simp))
        · exact .next <| .of_eq (by simp; rfl) h.recallRange
      · split
        · exact .next <| .of_eq (by simp; rfl) hw.putEntry
        · exact .next <| .of_eq (by simp; rfl) <| .recallRange <| .of_eq (by simp; rfl) hw.putEntry

theorem memOk.execPageReturn {source domain page offset version data mac} :
    nextOk (Machine.execPageReturn source domain page offset version data mac s) := by
  unfold Machine.execPageReturn
  dsimp only
  split
  · exact .next (h.same (by simp))
  · next w p e hr =>
    have hw : memOk w := h.ownerPage hr
    clear hr
    split
    · exact .next (h.same (by simp))
    · split
      · exact .next <| .of_eq (by simp; rfl) <| .putEntry <| .of_eq (by simp; rfl) <|
          .foldl hw.putEntry.recallRange fun _ _ ht => ht.writePlace
      · exact .next <| .of_eq (by simp; rfl) hw.putEntry.putEntry.stopIntegrity

theorem memOk.execFormatWindowChange {source mc window desc} :
    nextOk (Machine.execFormatWindowChange source mc window desc s) := by
  unfold Machine.execFormatWindowChange
  dsimp only
  split
  · exact .fault
  · split
    · exact .next (h.same (by simp))
    · exact .next <| .of_eq (by simp; rfl) h.setWindow

theorem memOk.execSave {gang forced} : nextOk (Machine.execSave gang forced s) := by
  unfold Machine.execSave
  dsimp only
  split
  · exact .next h
  · split
    · exact .next h
    · split
      · exact .next <| .of_eq (by simp; rfl) h.abandonStage
      · split
        · split
          · exact .next (h.same (by simp))
          · exact .next <| .of_eq (by simp; rfl) <| .foldl h fun _ _ ht => ht.saveStop
        · split
          · exact .next <| .saveWriteAll <| .foldl h fun _ _ ht => ht.same (by simp)
          · exact .next <| .of_eq (by simp; rfl) <| .foldl h fun _ _ ht => ht.same (by simp)

theorem memOk.execRestore {domain area node} : nextOk (Machine.execRestore domain area node s) := by
  unfold Machine.execRestore
  dsimp only
  split
  · split
    · exact .next h.restoreReady
    · split
      · exact .next h.restoreReady
      · split
        · exact .next <| .of_eq (by simp; rfl) h.restoreReady
        · exact .next h.restoreReady.restoreAll
  · exact .next h.restoreReady

theorem memOk.execBkpt {c code} : nextOk (Machine.execBkpt c code s) := by
  unfold Machine.execBkpt
  refine h.issue ?_
  split
  · exact .done h
  · exact .done <| .of_eq (by simp; rfl) h.trace

theorem memOk.execMark {c v} : nextOk (Machine.execMark c v s) := by
  unfold Machine.execMark
  refine h.issue ?_
  split
  · exact .done h
  · exact .done h.trace

theorem memOk.execRdcnt {c d n} : nextOk (Machine.execRdcnt c d n s) := by
  unfold Machine.execRdcnt
  dsimp only
  refine h.issue ?_
  split
  · exact .done (h.same (by simp))
  · split
    · exact .leakTrap
    · exact .done (h.same (by simp))

theorem memOk.execMonq {c d n} : nextOk (Machine.execMonq c d n s) := by
  unfold Machine.execMonq
  dsimp only
  refine h.issue ?_
  split
  · exact .done (h.same (by simp))
  · split
    · exact .trap
    · exact h.writeLate

theorem memOk.execMonitorSample {monitor} : nextOk (Machine.execMonitorSample monitor s) := by
  unfold Machine.execMonitorSample
  dsimp only
  split
  · exact .next h
  · split
    · exact .next h
    · split
      · split
        · exact .next <| .ite (h.same (by simp)).monRec.monAct (h.same (by simp)).monAct.monRec
        · exact .next (h.same (by simp))
      · split
        · exact .next <| .ite (h.same (by simp)).monRec.monAct (h.same (by simp)).monAct.monRec
        · exact .next (h.same (by simp))

theorem memOk.execStop {source domain node} : nextOk (Machine.execStop source domain node s) := by
  unfold Machine.execStop
  refine h.dbgGang fun l => ?_
  exact .some (h.same (by simp))

theorem memOk.execResume {source domain node} : nextOk (Machine.execResume source domain node s) := by
  unfold Machine.execResume
  refine h.dbgGang fun l => ?_
  dsimp only
  split
  · exact .none
  · exact .some (h.same (by simp))

theorem memOk.execWrite {source domain node role ctx t tag v} :
    nextOk (Machine.execWrite source domain node role ctx t tag v s) := by
  unfold Machine.execWrite
  split
  · exact .next (h.same (by simp))
  · split
    · next u hu =>
      split at hu
      · exact .next ((h.dbgWrite _ hu).same (by simp))
      · cases hu
    · exact .next (h.same (by simp))

theorem memOk.execHold {source domain node role} : nextOk (Machine.execHold source domain node role s) := by
  unfold Machine.execHold
  refine h.dbgGang fun l => ?_
  split
  · exact .none
  · split
    · exact .some h
    · exact .some (h.same (by simp))

theorem memOk.execUnhold {source domain node role} : nextOk (Machine.execUnhold source domain node role s) := by
  unfold Machine.execUnhold
  refine h.dbgGang fun l => ?_
  dsimp only
  split
  · exact .none
  · split
    · exact .none
    · exact .some (h.same (by simp)).endHolds

theorem memOk.execTrace {source domain buf len mode} : nextOk (Machine.execTrace source domain buf len mode s) := by
  unfold Machine.execTrace
  dsimp only
  split
  · exact .next <| .of_eq (by simp; rfl) (h.same (by simp)).traceHead
  · exact .next (h.same (by simp))

theorem memOk.execDump {source domain node buf len} : nextOk (Machine.execDump source domain node buf len s) := by
  unfold Machine.execDump
  split
  · split <;> exact .next (h.same (by simp))
  · refine h.dbgGang fun l => ?_
    split
    · intro t ht
      obtain ⟨g, -, rfl⟩ := Option.map_eq_some_iff.1 ht
      exact (h.same (by simp)).dumpGang
    · exact .none

theorem memOk.execHostMemoryRequest {r} : nextOk (Machine.execHostMemoryRequest r s) := by
  unfold Machine.execHostMemoryRequest
  dsimp only
  split
  · exact .next (h.same (by simp))
  · split
    · split
      · exact .next (h.same (by simp))
      · split <;> exact .next (h.same (by simp))
    · split
      · exact .next (h.same (by simp))
      · split
        · split
          · exact .next (h.same (by simp))
          · exact .next <| .of_eq (by simp; rfl) h.outWrite
        · split <;> exact .next (h.same (by simp))

theorem memOk.execBackInvalidateAnswer {line data} : nextOk (Machine.execBackInvalidateAnswer line data s) := by
  unfold Machine.execBackInvalidateAnswer
  dsimp only
  split
  · exact .next h
  · split
    · split
      · exact .next <| .foldl (.of_eq (by simp; rfl) (h.same (by simp)).outWrite) fun _ _ ht => ht.peer
      · exact .next <| .of_eq (by simp; rfl) <| .foldl (h.same (by simp)) fun _ _ ht => ht.peer
    · exact .next <| .of_eq (by simp; rfl) <| .foldl (h.same (by simp)) fun _ _ ht => ht.peer

theorem memOk.execLinkKeyRollover {source domain} : nextOk (Machine.execLinkKeyRollover source domain s) := by
  unfold Machine.execLinkKeyRollover
  dsimp only
  split
  · exact .next h
  · split <;> exact .next (h.same (by simp))

theorem memOk.execPortStepDone {port fail lanes} : nextOk (Machine.execPortStepDone port fail lanes s) := by
  unfold Machine.execPortStepDone
  dsimp only
  split
  · unfold Machine.onPort
    dsimp only
    split
    · exact .fault
    · exact .next (h.same (by simp))
  · unfold Machine.onPort
    dsimp only
    split
    · exact .fault
    · exact .next (h.same (by simp))

theorem memOk.execMcStepDone {mc fail lanes spares} : nextOk (Machine.execMcStepDone mc fail lanes spares s) := by
  unfold Machine.execMcStepDone
  dsimp only
  split
  · exact .fault
  · split
    · exact .next h
    · split
      · exact .next <| .of_eq (by simp; rfl) (h.same (by simp)).clearStack
      · exact .next (h.same (by simp))

theorem memOk.execPowerUp {f} : nextOk (Machine.execPowerUp f s) := by
  unfold Machine.execPowerUp
  split
  · exact .next (h.same (by simp))
  · exact .next h

theorem memOk.execBootStepTimeout : nextOk (Machine.execBootStepTimeout s) := by
  unfold Machine.execBootStepTimeout
  split
  · exact .next (h.same (by simp))
  · exact .next (h.same (by simp))
  · exact .next (h.same (by simp))
  · exact .next (h.same (by simp))
  · exact .next (h.same (by simp))
  all_goals exact .next h

theorem memOk.execControlRegisterWrite {addr v} : nextOk (Machine.execControlRegisterWrite addr v s) := by
  unfold Machine.execControlRegisterWrite
  dsimp only
  split
  · next t ht =>
    split at ht
    · cases ht
    · split at ht
      · exact .next (h.mcWrite _ ht)
      · split at ht
        · exact .next (h.portWrite _ ht)
        · cases ht
  · exact .refused

theorem memOk.execCbound {c d g b} : nextOk (Machine.execCbound c d g b s) := by
  refine h.issue ?_
  dsimp only
  split
  · next he => exact kindTrap_ok he
  · split
    · exact .trap
    · split
      · exact .trap
      · split
        · exact .trap
        · exact h.writeCap

theorem memOk.execCderive {c d g b} : nextOk (Machine.execCderive c d g b s) := by
  refine h.issue ?_
  dsimp only
  split
  · next he => exact kindTrap_ok he
  · split
    · exact .trap
    · exact h.writeCap

theorem memOk.execCperm {c d g b} : nextOk (Machine.execCperm c d g b s) := by
  refine h.issue ?_
  dsimp only
  split
  · next he => exact kindTrap_ok he
  · exact h.moveCap

theorem memOk.execCmove {c d g} : nextOk (Machine.execCmove c d g s) := by
  unfold Machine.execCmove
  refine h.issue ?_
  split
  · exact .done h
  · exact h.moveCap

theorem memOk.execIcacheFill {core line} : nextOk (Machine.execIcacheFill core line s) := by
  unfold Machine.execIcacheFill
  dsimp only
  refine .onCore ?_
  split
  · exact h
  · split <;> exact .of_eq (by simp; rfl) h.walkReady

theorem memOk.execLdl {c f d w off} : nextOk (Machine.execLdl c f d w off s) := by
  unfold Machine.execLdl
  dsimp only
  refine h.issue ?_
  split
  · exact .trap
  · split
    · exact .hold
    · split
      · exact .leakTrap
      · exact .done (h.same (by simp))

theorem memOk.execStl {c f r w off} : nextOk (Machine.execStl c f r w off s) := by
  unfold Machine.execStl
  dsimp only
  refine h.issue ?_
  split
  · exact .trap
  · split
    · exact .hold
    · exact .done (h.same (by simp))

theorem memOk.execCallRegister {c l t} : nextOk (Machine.execCallRegister c l t s) := by
  unfold Machine.execCallRegister
  refine h.issue ?_
  split
  · exact h.callTo
  · exact .trap

theorem memOk.execLoop {c n off} : nextOk (Machine.execLoop c n off s) := by
  unfold Machine.execLoop
  dsimp only
  refine h.issue ?_
  split
  · exact .leakTrap
  · split
    · exact .done (h.same (by simp))
    · exact .jump (h.same (by simp))

end

/-- Every instruction keeps the canonical form of memory. -/
theorem exec_nextOk (i : Instr) {s : State} (h : memOk s) : nextOk (exec i s) := by
  cases i with
  | vadd | vsub | vmul | vdiv | vmin | vmax | vfma | vabs | vneg | vrcp | vrsq | vexp2 | vlog2 | viadd | visub
  | vimul | vand | vor | vxor | vshl | vshr | vsar | vcmp | vsel | vperm | vshuf | vbcast | vins | vrsum | vrmax
  | vrmin | vcvt | vpxenc | vpxdec | vmov => exact h.issueWide (.done (h.same (by simp)))
  | mand | mor | mnot =>
    simp only [exec, execMand, execMor, execMnot, maskOp]
    exact h.issueWide (.done (h.same (by simp)))
  | cget | fmin | fmax | fclass | fsgn | add | sub | and | or | xor | andn | shl | shr | sar | rot | min | max
  | minn | maxn | mul | mulh | mulhn | div | divn | rem | remn | clz | ctz | popc | brev | ext | bfx | bfxs
  | bfi | movi | movh | sel =>
    simp only [exec, execCget, execFmin, execFmax, execFclass, execFsgn, execAdd, execSub, execAnd, execOr,
      execXor, execAndn, execShl, execShr, execSar, execRot, execMin, execMax, execMinn, execMaxn, execMul,
      execMulh, execMulhn, execDiv, execDivn, execRem, execRemn, execClz, execCtz, execPopc, execBrev, execExt,
      execBfx, execBfxs, execBfi, execMovi, execMovh, execSel, alu, bitOp, fpuExact]
    exact h.issue h.writeG
  | portSerdesResetRelease | portReceiverDetect | portEqualise | portDeskewFlitLock | portKeyExchange | portUp
  | portDown | portTrainingTimeout | linkLoss =>
    simp only [exec, execPortSerdesResetRelease, execPortReceiverDetect, execPortEqualise,
      execPortDeskewFlitLock, execPortKeyExchange, execPortUp, execPortDown, execPortTrainingTimeout,
      execLinkLoss]
    exact .onPort (h.same (by simp))
  | mcPhyResetRelease | mcImpedanceCalibration | mcCommandAddressTraining | mcReadTraining | mcWriteTraining
  | mcLaneRepair | mcInitialise | mcEnable => exact h.onMc
  | ctest | fcmp | cmp | pand | por | pnot =>
    simp only [exec, execCtest, execFcmp, execCmp, execPand, execPor, execPnot]
    exact h.issue h.writeQ
  | fadd | fsub | fmul | ffma | fdiv | fsqrt =>
    simp only [exec, execFadd, execFsub, execFmul, execFfma, execFdiv, execFsqrt]
    exact h.fpuArith
  | l1Eviction | kioskRefusal | remoteTimeout | matrixOperationStart | hardwareCounterWrap =>
    simp only [exec, execL1Eviction, execKioskRefusal, execRemoteTimeout, execMatrixOperationStart,
      execHardwareCounterWrap]
    exact .onCore (h.same (by simp))
  | vldlImmediate | vldlRegister | vstlImmediate | vstlRegister => exact h.wideMem
  | fence | fenceRed | fenceEng =>
    simp only [exec, execFence, execFenceRed, execFenceEng]
    exact h.issue h.fence
  | red | fset | fclr =>
    simp only [exec, execRed, execFset, execFclr]
    exact h.issue h.postedAtomic
  | ld | ldacq =>
    simp only [exec, execLd, execLdacq]
    exact h.issue h.load
  | st | strel =>
    simp only [exec, execSt, execStrel]
    exact h.issue h.store
  | amo | cas =>
    simp only [exec, execAmo, execCas]
    exact h.issue h.returning
  | swait | fwait =>
    simp only [exec, execSwait, execFwait]
    exact h.issue h.syncWait
  | vldx | vstx => exact h.wideIndexed
  | mloadImmediate | mloadRegister =>
    simp only [exec, execMloadImmediate, execMloadRegister]
    exact h.issue (.matrix h.mload)
  | bar | xend =>
    simp only [exec, execBar, execXend]
    exact h.issue h.barrier
  | widf | keyr =>
    simp only [exec, execWidf, execKeyr]
    exact h.issue h.writeLate
  | shintArm | shintDisarm =>
    simp only [exec, execShintArm, execShintDisarm]
    exact h.issue (h.shint fun _ _ _ => h.same (by simp))
  | shintClone | shintMerge =>
    simp only [exec, execShintClone, execShintMerge]
    exact h.issue (h.shint fun _ _ _ => h.stageRequest)
  | yield | nop =>
    simp only [exec, execYield, execNop]
    exact h.issue (.done h)
  | eretRetry | eretSkip =>
    simp only [exec, execEretRetry, execEretSkip]
    exact h.issue h.eretGo
  | brx | ret =>
    simp only [exec, execBrx, execRet]
    exact h.issue h.branchReg
  | loadResponse => exact h.execLoadResponse
  | postedWritePerform => exact h.execPostedWritePerform
  | pref _ p => exact h.execPref p
  | kioskAtomicPerform => exact h.execKioskAtomicPerform
  | atomicResponse =>
    simp only [exec, execAtomicResponse]
    exact .onCore (h.same (by simp)).atomicReturn
  | retarm => exact h.execRetarm
  | job => exact h.execJob
  | jobBegin => exact h.execJobBegin
  | writePointerAdvance => exact h.execWritePointerAdvance
  | jwait => exact h.execJwait
  | cwwait => exact h.execCwwait
  | vextr => exact h.execVextr
  | allot => exact h.execAllot
  | shrink => exact h.execShrink
  | mclaim => exact h.execMclaim
  | mcfg => exact h.execMcfg
  | mwait => exact h.execMwait
  | mgang => exact h.execMgang
  | matrixOperationCompletion => exact h.execMatrixOperationCompletion
  | recordMessageArrival => exact h.execRecordMessageArrival
  | inboxMessageArrival => exact h.execInboxMessageArrival
  | ringSlotOffer => exact h.execRingSlotOffer
  | leaveNotice => exact h.execLeaveNotice
  | arrivalNotice => exact h.execArrivalNotice
  | closureMarkerArrival => exact h.execClosureMarkerArrival
  | spillRetry => exact h.execSpillRetry
  | chan => exact h.execChan
  | send => exact h.execSend
  | recv =>
    simp only [exec, execRecv]
    exact h.issue (h.recvIssue (.wait h))
  | tryrecv =>
    simp only [exec, execTryrecv]
    exact h.issue (h.recvIssue (.done (h.same (by simp))))
  | select => exact h.execSelect
  | close => exact h.execClose
  | endinfo => exact h.execEndinfo
  | nodeRetry => exact h.execNodeRetry
  | jobCompletion => exact h.execJobCompletion
  | trigStart => exact h.execTrigStart
  | trigDone => exact h.execTrigDone
  | waitp => exact h.execWaitp
  | gpost => exact h.execGpost
  | glaunch => exact h.execGlaunch
  | gcancel => exact h.execGcancel
  | gstat => exact h.execGstat
  | nodeDispatch => exact h.execNodeDispatch
  | residencyFillComplete => exact h.execResidencyFillComplete
  | barrierRelease => exact h.execBarrierRelease
  | xcast => exact h.execXcast
  | xcastTransferComplete => exact h.execXcastTransferComplete
  | roleq => exact h.execRoleq
  | preemptRequest => exact .next h.request
  | dlimExpiry => exact h.execDlimExpiry
  | stagePause => exact h.execStagePause
  | stagePauseTimeout => exact h.execStagePauseTimeout
  | stagef => exact h.execStagef
  | stageSplitCompletion => exact h.execStageSplitCompletion
  | stageMergeQuiescence => exact h.execStageMergeQuiescence
  | sret => exact h.execSret
  | startRelative => exact h.execStartRelative
  | startRegister => exact h.execStartRegister
  | hjoin => exact h.execHjoin
  | hexit => exact h.execHexit
  | processExit =>
    simp only [exec, execProcessExit]
    exact .onCore (.ite h (.ite h.endAbnormal (.ite h.endNormal h)))
  | waitev => exact h.execWaitev
  | trap =>
    simp only [exec, execTrap]
    exact h.issue .trap
  | wrs => exact h.execWrs
  | rdsContext => exact h.execRdsContext
  | wrsContext => exact h.execWrsContext
  | eretExit => exact h.execEretExit
  | scall => exact h.execScall
  | coreAssign => exact h.execCoreAssign
  | domainDestroy => exact h.execDomainDestroy
  | pageEvict => exact h.execPageEvict
  | pageReturn => exact h.execPageReturn
  | formatWindowChange => exact h.execFormatWindowChange
  | offCoreReferenceResult =>
    simp only [exec, execOffCoreReferenceResult]
    exact .onCore h.replyStep
  | save => exact h.execSave
  | restore => exact h.execRestore
  | bkpt => exact h.execBkpt
  | mark => exact h.execMark
  | rdcnt => exact h.execRdcnt
  | monq => exact h.execMonq
  | monitorSample => exact h.execMonitorSample
  | stop => exact h.execStop
  | resume => exact h.execResume
  | write => exact h.execWrite
  | hold => exact h.execHold
  | unhold => exact h.execUnhold
  | trace => exact h.execTrace
  | dump => exact h.execDump
  | tokenPost => exact .next <| .of_eq (by simp; rfl) h.judgePost
  | hostMemoryRequest => exact h.execHostMemoryRequest
  | peerMemoryRequest => exact .next h.peer
  | backInvalidateAnswer => exact h.execBackInvalidateAnswer
  | linkKeyRollover => exact h.execLinkKeyRollover
  | portStepDone => exact h.execPortStepDone
  | mcStepDone => exact h.execMcStepDone
  | powerUp => exact h.execPowerUp
  | packageReset => exact .next Memory.empty_wf
  | bootStepTimeout => exact h.execBootStepTimeout
  | controlRegisterWrite => exact h.execControlRegisterWrite
  | cbound => exact h.execCbound
  | cderive => exact h.execCderive
  | cperm => exact h.execCperm
  | cnull =>
    simp only [exec, execCnull]
    exact h.issue h.writeCap
  | cmove => exact h.execCmove
  | icacheFill => exact h.execIcacheFill
  | ldl => exact h.execLdl
  | stl => exact h.execStl
  | bra =>
    simp only [exec, execBra]
    exact h.issue (.jump h)
  | callRelative =>
    simp only [exec, execCallRelative]
    exact h.issue h.callTo
  | callRegister => exact h.execCallRegister
  | loop => exact h.execLoop
  | waitPoll | wideIssue | mloadCompletion | watchdogExpiry =>
    simp only [exec, execWaitPoll, execWideIssue, execMloadCompletion, execWatchdogExpiry]
    refine .onCore ?_
    split
    · exact h
    · exact h.same (by simp)
  | jstat | rds | fcvt =>
    simp only [exec, execJstat, execRds, execFcvt]
    refine h.issue ?_
    split
    · exact .leakTrap
    · exact .done (h.same (by simp))
  | mrel | mzero =>
    simp only [exec, execMrel, execMzero]
    refine h.issue ?_
    refine .matrix ?_
    split
    · exact .hold
    · exact .done (h.same (by simp))
  | mrdacc | mwracc | mstacc =>
    simp only [exec, execMrdacc, execMwracc, execMstacc, tileAccess]
    refine h.issueWide ?_
    refine .matrix ?_
    split
    · exact .trap
    · exact .done (h.same (by simp))
  | deviceReportRequest | ownershipClaim | handover | ownershipRelease | deviceIdAssign | domainCreate | arm
  | disarm | monset | hostSnoop =>
    simp only [exec, execDeviceReportRequest, execOwnershipClaim, execHandover, execOwnershipRelease,
      execDeviceIdAssign, execDomainCreate, execArm, execDisarm, execMonset, execHostSnoop]
    split <;> exact .next (h.same (by simp))
  | ownershipChallenge | read =>
    simp only [exec, execOwnershipChallenge, execRead]
    split
    · exact .next (h.same (by simp))
    · split <;> exact .next (h.same (by simp))
  | snoopDequeue | hostLineEviction =>
    simp only [exec, execSnoopDequeue, execHostLineEviction]
    split
    · exact .next h
    · exact .next (h.same (by simp))
  | hostCxlIoRequest | linkPacketReceive =>
    simp only [exec, execHostCxlIoRequest, execLinkPacketReceive]
    split
    · exact .next (h.same (by simp))
    · split
      · exact .next (h.same (by simp))
      · split <;> exact .next (h.same (by simp))

/-! ### The fetch and the step -/

/-- A fetch that brings a state brings one with canonical memory. -/
def Fetch.ok : Fetch → Prop
  | .bad .. => True
  | .miss t | .word _ _ t => memOk t

/-- The lines of a word are there in a state with canonical memory, or the fetch ends in one. -/
def linesOk : Fetch ⊕ (List Byte × State) → Prop
  | .inl f => f.ok
  | .inr x => memOk x.2

/-- What a core's turn starts has canonical memory before it. -/
def Act.ok : Act → Prop
  | .next t | .run _ t => memOk t

section
variable {s : State} (h : memOk s)
include h

theorem memOk.iline {n l} : memOk (s.iline n l).2 := by
  unfold State.iline
  dsimp only
  split
  · split
    · exact h
    · exact h.same (by simp)
  all_goals
    split
    · exact h.same (by simp)
    · split <;> exact h.same (by simp)

theorem memOk.wantLine {n line pc} : linesOk (s.wantLine n line pc) := by
  unfold State.wantLine
  extract_lets c t v fill
  have hw : memOk t := h.walkReady
  have hf : linesOk fill := by
    unfold fill
    split
    · exact hw
    · exact hw.same (by simp)
  split
  · trivial
  · split
    · next l _ =>
      split
      · exact (hw.iline : memOk (t.iline n l).2)
      · exact hf
    · exact hf

theorem memOk.fetchBytes {n pc len} : linesOk (s.fetchBytes n pc len) := by
  unfold State.fetchBytes
  dsimp only
  have h1 : linesOk (s.wantLine n (pc.toNat / lineBytes) pc) := h.wantLine
  split
  · next hf => rwa [hf] at h1
  · next x t ht =>
    rw [ht] at h1
    have h1 : memOk t := h1
    split
    · exact h1
    · have h2 : linesOk (t.wantLine n ((pc.toNat + len - 1) / lineBytes) pc) := h1.wantLine
      split
      · next hf => rwa [hf] at h2
      · next hu => rwa [hu] at h2

theorem memOk.fetchWord {n x} : (s.fetchWord n x).ok := by
  unfold State.fetchWord
  extract_lets pc ixtin len
  generalize (if ixtin = true then 8 else 4) = unit
  split
  · trivial
  · have hb : linesOk (s.fetchBytes n pc len) := h.fetchBytes
    split
    · next hf => rwa [hf] at hb
    · next ht =>
      rw [ht] at hb
      split
      · dsimp only
        split
        · trivial
        · exact hb
      · exact hb

theorem memOk.decodeAct {n k w ixtin} : (s.decodeAct n k w ixtin).ok := by
  unfold State.decodeAct
  dsimp only
  split
  · exact h
  · split
    · exact h.same (by simp)
    · split
      · exact h.same (by simp)
      · exact h

theorem memOk.ctxAct {n k} : (s.ctxAct n k).ok := by
  unfold State.ctxAct
  extract_lets x counts t u
  have ht : memOk t := by
    unfold t
    split
    · exact h.same (by simp)
    · exact h
  split
  · exact h
  · split
    · exact ht.same (by simp)
    · have hu : memOk u := ((ht.same (by simp)) : memOk (t.tryFence n k))
      split
      · exact hu
      · have hw : (u.fetchWord n x).ok := hu.fetchWord
        split
        · exact hu.same (by simp)
        · next hf => rwa [hf] at hw
        · next hf =>
          rw [hf] at hw
          exact memOk.decodeAct hw

theorem memOk.coreAct {n} : (s.coreAct n).ok := by
  unfold State.coreAct
  have ht : memOk (s.seat n) := h.same (by simp)
  dsimp only
  split
  · exact ht.ctxAct
  · exact ht

theorem memOk.turn {n} : nextOk (Machine.turn n s) := by
  have hc : (s.coreAct n).ok := h.coreAct
  unfold Machine.turn
  split
  · next ht => exact .next (by rwa [ht] at hc)
  · next ht => exact exec_nextOk _ (by rwa [ht] at hc)

/-- One step of the package, from a state with canonical memory. -/
theorem step_nextOk : nextOk (step s) := by
  unfold step
  split
  · split
    · exact exec_nextOk _ h
    · exact .next h
  · split
    · exact exec_nextOk _ h
    · split
      · refine memOk.turn ?_
        exact h
      · exact .next (h.same (by simp))

end

/-- Settles O8: the invariant of a step is that of the instruction it carries out, of the fetch before it, and of the
cycle's advance. -/
theorem stepKeepsMemoryCanonical : Obligations.StepKeepsMemoryCanonical :=
  fun _ t h ht => step_nextOk h t ht

end Sys2Proof.Machine

namespace Sys2Proof.Machine

/-! ## The atomic words at the core (O44) -/

section
variable {c : Ctl} {sc : Scope} {f : AFmt} {kind : MemKind} {d w : BitVec 6} {off : GI} {z : Int} {n va : Nat} {p : Place}
  {x y : W64} {s u : State}

/-- The latch of the running context for an operation that is sent (R392). -/
def State.sentLatch (u : State) (va : Nat) (p : Place) (x y : W64) (posted : Bool) : Latch :=
  u.cx.latch.send u.ir va p x y posted

/-- An AMO or CAS has been sent and holds the latch (R214, R217, R392). -/
def State.startAtomic (u : State) (c : Ctl) (kind : MemKind) (n : Nat) (sc : Scope) (d : BitVec 6) (va : Nat) (p : Place)
    (x y : W64) : State :=
  ((({ u with ids := u.ids + 1 } : State).updMe fun b => { b with flight := b.flight ++
    [{ u.memOp kind va p n sc with
        d := d, set := c.set, data := x.setWidth 128, compare := y, seq := (u.sentLatch va p x y false).seq }] }).updCtx u.core u.k
    fun b => { b with latch := u.sentLatch va p x y false }).sendAtomic u.core u.k u.ids p

/-- The entry of a posted atomic in the store queue (R211). -/
def State.postedOp (u : State) (kind : MemKind) (n : Nat) (sc : Scope) (va : Nat) (p : Place) (x : W64) (seq : W16) :
    MemOp :=
  { u.memOp kind va p n sc with data := x.setWidth 128, policy := .skip, seq := seq }

/-- A posted atomic enters the store queue; a RED also happens before its context's later events (R203, R211). -/
def State.postAtomic (u : State) (o : MemOp) (perform : Instr) : State :=
  match o.kind with
  | .red .. => postRed u o
  | .store | .fset | .fclr | .load .. | .amo .. | .cas _ => post u o perform

theorem State.postAtomic_red {u : State} {o : MemOp} {g : AFmt} {op : AmoOp} {e : Instr} (h : o.kind = .red g op) :
    u.postAtomic o e = postRed u o := by
  simp only [State.postAtomic, h]

theorem State.postAtomic_flag {u : State} {o : MemOp} {e : Instr} (h : o.kind = .fset ∨ o.kind = .fclr) :
    u.postAtomic o e = post u o e := by
  rcases h with h | h <;> simp only [State.postAtomic, h]

/-- A posted atomic to a peer's or a host's line has been sent, holds the latch and has a time limit (R393, R395). -/
def State.startPosted (u : State) (o : MemOp) (l : Latch) : State :=
  ((u.postAtomic o (.kioskAtomicPerform u.core u.k u.ids)).updCtx u.core u.k fun b => { b with latch := l }).atCycle
    (u.cyc + 2 ^ 24) (.remoteTimeout u.core u.k u.ids)

theorem returning_of_ok (hu : u = s.walkFor (s.gReg w) (s.offGI off)) (hb : (u.cx.latch.valid && u.cx.latch.posted) = false)
    (hp : u.memAddr (u.gReg w) (u.offGI off) (afmtBytes f) (afmtBytes f) needRW = .ok va p) (hl : u.leak d = false) :
    returning s c sc f kind d w off x y = .wait (.result u.ids) (u.startAtomic c kind (afmtBytes f) sc d va p x y) := by
  subst hu
  simp only [returning, hb, hp, hl, Bool.false_eq_true, if_false]
  rfl

theorem postedAtomic_near (hu : u = s.walkFor (s.gReg w) z) (hp : u.memAddr (u.gReg w) z n n needW = .ok va p)
    (hr : u.me.storeq.length < 16) (hh : p.isHbm = true) :
    postedAtomic s sc kind n w z x =
      .done (u.postAtomic (u.postedOp kind n sc va p x 0) (.postedWritePerform u.core u.ids)) := by
  subst hu
  have hslots : ¬ Config.storeSlots ≤ (s.walkFor (s.gReg w) z).me.storeq.length := Nat.not_le.2 hr
  simp only [postedAtomic, hp, hh, hslots, Bool.not_true, Bool.and_false, decide_false, Bool.or_false, Bool.false_eq_true,
    if_false, if_true]
  cases kind <;> rfl

theorem postedAtomic_far (hu : u = s.walkFor (s.gReg w) z) (hp : u.memAddr (u.gReg w) z n n needW = .ok va p)
    (hr : u.me.storeq.length < 16) (hh : p.isHbm = false) (hb : (s.cx.latch.valid && s.cx.latch.posted) = false) :
    postedAtomic s sc kind n w z x =
      .done (u.startPosted (u.postedOp kind n sc va p x (u.sentLatch va p x 0 true).seq) (u.sentLatch va p x 0 true)) := by
  subst hu
  have hslots : ¬ Config.storeSlots ≤ (s.walkFor (s.gReg w) z).me.storeq.length := Nat.not_le.2 hr
  simp only [postedAtomic, hp, hh, hb, hslots, Config.remoteLimit, Bool.false_and, decide_false, Bool.or_false,
    Bool.false_eq_true, if_false]
  cases kind <;> rfl

end

section
variable {i : Instr} {c : Ctl} {sc : Scope} {f : AFmt} {kind : MemKind} {d w : BitVec 6} {off : GI} {z : State → Int}
  {n va : Nat} {p : Place} {x y : State → W64} {s u : State}

theorem atomic_waits (hx : ∀ t, exec i t = issue c fFarLate t fun t => returning t c sc f kind d w off (x t) (y t))
    (hu : u = s.walkFor (s.gReg w) (s.offGI off)) :
    WaitsAs i c fFarLate ((u.cx.latch.valid && u.cx.latch.posted) = false ∧
        u.memAddr (u.gReg w) (u.offGI off) (afmtBytes f) (afmtBytes f) needRW = .ok va p ∧ u.leak d = false)
      (.result u.ids) (u.startAtomic c kind (afmtBytes f) sc d va p (x s) (y s)) s :=
  waitsAs_of_issue hx fun ⟨hb, hp, hl⟩ => returning_of_ok hu hb hp hl

section
variable {t : State} (hx : ∀ t, exec i t = issue c fFar t fun t => postedAtomic t sc kind n w (z t) (x t))
  (hu : u = s.walkFor (s.gReg w) (z s))
include hx hu

theorem postedAtomic_completes_near
    (ht : u.postAtomic (u.postedOp kind n sc va p (x s) 0) (.postedWritePerform u.core u.ids) = t) :
    CompletesAs i c fFar ((u.memAddr (u.gReg w) (z s) n n needW = .ok va p ∧ u.me.storeq.length < 16) ∧ p.isHbm = true) t s :=
  completesAs_of_issue hx fun ⟨⟨hp, hr⟩, hh⟩ => ht ▸ postedAtomic_near hu hp hr hh

theorem postedAtomic_completes_far
    (ht : u.postAtomic (u.postedOp kind n sc va p (x s) (u.sentLatch va p (x s) 0 true).seq)
      (.kioskAtomicPerform u.core u.k u.ids) = t) :
    CompletesAs i c fFar ((u.memAddr (u.gReg w) (z s) n n needW = .ok va p ∧ u.me.storeq.length < 16) ∧ p.isHbm = false ∧
        (s.cx.latch.valid && s.cx.latch.posted) = false)
      ((t.updCtx u.core u.k fun b => { b with latch := u.sentLatch va p (x s) 0 true }).atCycle (u.cyc + 2 ^ 24)
        (.remoteTimeout u.core u.k u.ids)) s :=
  completesAs_of_issue hx fun ⟨⟨hp, hr⟩, hh, hb⟩ => ht ▸ postedAtomic_far hu hp hr hh hb
end
end

/-- Settles O44: AMO and CAS by the body of a returning word, RED, FSET and FCLR by that of a posted one, near and far. -/
theorem atomicWordsComplete : Obligations.AtomicWordsComplete := by
  unfold Obligations.AtomicWordsComplete
  intro c sc f op d w v off z va p s
  refine ⟨?amo, ?cas, ?redNear, ?redFar, ?fsetNear, ?fsetFar, ?fclrNear, ?fclrFar⟩
  case amo => exact atomic_waits (x := fun s => afmtBits f (s.readG v)) (y := fun _ => 0) (fun _ => rfl) rfl
  case cas =>
    exact atomic_waits (x := fun s => afmtBits f (s.readG d)) (y := fun s => afmtBits f (s.readG v)) (fun _ => rfl) rfl
  case redNear =>
    exact postedAtomic_completes_near (z := fun s => s.offGI off) (x := fun s => afmtBits f (s.readG v)) (fun _ => rfl) rfl
      (State.postAtomic_red rfl)
  case redFar =>
    exact postedAtomic_completes_far (z := fun s => s.offGI off) (x := fun s => afmtBits f (s.readG v)) (fun _ => rfl) rfl
      (State.postAtomic_red rfl)
  case fsetNear =>
    exact postedAtomic_completes_near (z := fun s => s.offZ z) (x := fun s => s.readG v) (fun _ => rfl) rfl
      (State.postAtomic_flag (.inl rfl))
  case fsetFar =>
    exact postedAtomic_completes_far (z := fun s => s.offZ z) (x := fun s => s.readG v) (fun _ => rfl) rfl
      (State.postAtomic_flag (.inl rfl))
  case fclrNear =>
    exact postedAtomic_completes_near (z := fun s => s.offZ z) (x := fun _ => 0) (fun _ => rfl) rfl
      (State.postAtomic_flag (.inr rfl))
  case fclrFar =>
    exact postedAtomic_completes_far (z := fun s => s.offZ z) (x := fun _ => 0) (fun _ => rfl) rfl
      (State.postAtomic_flag (.inr rfl))

end Sys2Proof.Machine

namespace Sys2Proof.Machine

/-! ## The Kiosk performs an atomic once (O45) -/

/-! ### What an access leaves of the operations under way

An access to HBM may end waits and change what a fetch sees; it leaves the operations of every core and the Kiosks' result
entries. -/

/-- The operations under way of a core. -/
def Core.ops (c : Core) : List MemOp × List MemOp := (c.flight, c.storeq)
/-- The result entries, and the operations under way of every core. -/
def State.opsView (s : State) : List KioskResult × (Nat → List MemOp × List MemOp) :=
  (s.results, fun n => (s.coreAt n).ops)

theorem State.opsView_updCore {s : State} {n : Nat} {f : Core → Core} (h : (f (s.coreAt n)).ops = (s.coreAt n).ops) :
    (s.updCore n f).opsView = s.opsView :=
  congrArg (Prod.mk s.results) (funext (State.coreAt_updCore_keeps Core.ops h))

theorem State.results_of_opsView {s t : State} (h : t.opsView = s.opsView) : t.results = s.results := congrArg Prod.fst h

theorem State.findOp_of_opsView {s t : State} (h : t.opsView = s.opsView) (n id : Nat) :
    (t.coreAt n).findOp id = (s.coreAt n).findOp id :=
  congrArg (fun v : List KioskResult × (Nat → List MemOp × List MemOp) =>
    ((v.2 n).1 ++ (v.2 n).2).find? fun o : MemOp => o.id == id) h

theorem State.opsView_mapCores (s : State) {g : Nat × Core → Nat × Core} (hk : ∀ p, (g p).1 = p.1)
    (hp : ∀ p, (g p).2.ops = p.2.ops) : ({ s with cores := s.cores.map g } : State).opsView = s.opsView := by
  have hget : ∀ (t : Tab Core) (n : Nat), (Tab.get Core.init t n).ops = ((Tab.find t n).map Core.ops).getD Core.init.ops := by
    intro t n
    unfold Tab.get
    cases Tab.find t n <;> rfl
  refine congrArg (Prod.mk s.results) (funext fun n => ?_)
  simp only [State.coreAt, hget, Tab.find_map hk hp]

section
variable (s : State)

@[simp] theorem State.updCtx_opsView (n k : Nat) (f : Ctx → Ctx) : (s.updCtx n k f).opsView = s.opsView :=
  State.opsView_updCore rfl

@[simp] theorem State.flow_opsView (a b : Who) : (s.flow a b).opsView = s.opsView := by
  unfold State.flow
  split <;> rfl

@[simp] theorem State.setPast_opsView (w : Who) (l : List Nat) : (s.setPast w l).opsView = s.opsView := by
  unfold State.setPast
  split <;> rfl

@[simp] theorem State.takeLine_opsView (p : Place) : (s.takeLine p).opsView = s.opsView := by
  cases p <;> rfl

@[simp] theorem State.noteCode_opsView (p : Place) : (s.noteCode p).opsView = s.opsView := by
  unfold State.noteCode
  dsimp only
  split
  · exact State.opsView_mapCores s (fun _ => rfl) fun _ => rfl
  · rfl

@[simp] theorem State.readPast_opsView (p : Place) (n : Nat) (w : Who) : (s.readPast p n w).opsView = s.opsView := by
  unfold State.readPast
  split
  · rfl
  · exact foldl_keeps State.opsView (fun (s : State) i => s.flow (.byte (p.move i)) w)
      (fun _ _ => State.flow_opsView _ _ _) _ _

@[simp] theorem State.writePast_opsView (p : Place) (n : Nat) (l : List Nat) : (s.writePast p n l).opsView = s.opsView := by
  unfold State.writePast
  split
  · rfl
  · exact foldl_keeps State.opsView _ (fun _ _ => State.setPast_opsView _ _ _) _ _

@[simp] theorem State.aoEvent_opsView (p : Place) (n : Nat) (l : List Nat) : (s.aoEvent p n l).opsView = s.opsView := by
  unfold State.aoEvent
  split
  · rfl
  · dsimp only
    refine foldl_keeps State.opsView _ (fun _ _ => ?_) _ _
    rfl

@[simp] theorem State.aoRead_opsView (p : Place) (n : Nat) (w : Who) : (s.aoRead p n w).opsView = s.opsView := by
  unfold State.aoRead
  dsimp only
  rw [State.aoEvent_opsView]
  split
  · simp
  · rw [foldl_keeps State.opsView (fun (t : State) i => t.flow (.atom (p.move i)) w) (fun _ _ => State.flow_opsView _ _ _),
      State.readPast_opsView]

@[simp] theorem State.endWait_opsView (w : SyncWait) (v : W64) : (s.endWait w v).opsView = s.opsView :=
  (State.updCtx_opsView _ _ _ _).trans (State.aoRead_opsView _ _ _ _)

@[simp] theorem State.wake_opsView (pa n : Nat) : (s.wake pa n).opsView = s.opsView := by
  unfold State.wake
  refine foldl_keeps State.opsView _ (fun t w => ?_) _ _
  dsimp only
  split
  · rfl
  · split
    · exact State.endWait_opsView _ _ _
    · split
      · split
        · exact State.endWait_opsView _ _ _
        · rfl
      · rfl

theorem State.writePlace_hbm_opsView (key pa n v : Nat) (tag : Bool) (home : Option (Nat × List Nat)) :
    (s.writePlace key (.hbm pa) n v tag home).opsView = s.opsView := by
  simp only [State.writePlace, State.wake_opsView, State.noteCode_opsView]
  split <;> rfl

@[simp] theorem State.atomicEvent_opsView (o : MemOp) (seen : List Nat) (writes : Bool) :
    (s.atomicEvent o seen writes).opsView = s.opsView := by
  cases writes <;> simp [State.atomicEvent]

@[simp] theorem State.afterAtomic_opsView (n : Nat) (o : MemOp) (seen : List Nat) :
    (s.afterAtomic n o seen).opsView = s.opsView := by
  unfold State.afterAtomic
  split
  case h_1 | h_2 => exact foldl_keeps State.opsView _ (fun _ _ => by split <;> rfl) _ _
  all_goals rfl

theorem State.ops_count (n code m : Nat) : ((s.count n code).coreAt m).ops = (s.coreAt m).ops := by
  by_cases h : m = n
  · subst h
    obtain ⟨hc, hcore⟩ := State.coreAt_count_same s m code
    rw [hcore]
    rfl
  · rw [State.coreAt_count_ne _ _ h]

theorem State.missCount_opsView (n : Nat) : (s.missCount n).opsView = s.opsView := by
  refine congrArg (Prod.mk s.results) (funext fun m => ?_)
  unfold State.missCount
  extract_lets a b
  have ha : (a.coreAt m).ops = (s.coreAt m).ops := by
    unfold a
    split
    · exact State.ops_count _ _ _ _
    · rfl
  refine Eq.trans ?_ ha
  show (b.coreAt m).ops = _
  unfold b
  split
  · exact State.ops_count _ _ _ _
  · rfl
end

/-! ### The operation a core finds after its result is marked -/

theorem MemOp.id_of_findOp {c : Core} {id : Nat} {o : MemOp} (h : c.findOp id = some o) : o.id = id := by
  simpa using List.find?_some h

theorem Core.findOp_mapOp {c : Core} {id : Nat} {o : MemOp} {f : MemOp → MemOp} (hf : ∀ o, (f o).id = o.id)
    (h : c.findOp id = some o) : (c.mapOp id f).findOp id = some (f o) := by
  have hkeep : (fun o : MemOp => o.id == id) ∘ (fun o => if o.id = id then f o else o) = fun o : MemOp => o.id == id := by
    funext p
    dsimp only [Function.comp]
    split
    · rw [hf]
    · rfl
  show ((c.flight.map _) ++ c.storeq.map _).find? _ = _
  rw [← List.map_append, List.find?_map, hkeep]
  show (c.findOp id).map _ = _
  rw [h, Option.map_some, if_pos (MemOp.id_of_findOp h)]

section
variable {s : State} {n k id : Nat} {o : MemOp}

@[simp] theorem State.performedOp_results (r : W64 × Flags × Bool) : (s.performedOp n k id r).results = s.results := rfl

theorem State.findOp_performedOp {r : W64 × Flags × Bool} (h : (s.coreAt n).findOp id = some o) :
    ((s.performedOp n k id r).coreAt n).findOp id =
      some { o with performed := true, result := r.1, flags := r.2.1, status := if r.2.2 then 1 else 0 } := by
  refine (State.findOp_of_opsView (State.missCount_opsView _ n) n id).trans ?_
  rw [State.coreAt_updCore_same]
  exact Core.findOp_mapOp (fun _ => rfl) h
end

/-! ### One event at a location of HBM -/

/-- Memory after an operation at a location of HBM. -/
def Memory.perform (m : Memory) (key pa : Nat) (o : MemOp) : Memory :=
  match (o.effect (m.readAs key pa o.size)).1 with
  | some v => m.writeAs key pa o.size v
  | none => m

theorem State.writePlace_hbm_mem (s : State) (key pa n v : Nat) :
    (s.writePlace key (.hbm pa) n v false none).mem = s.mem.writeAs key pa n v := by
  simp [State.writePlace, State.engineLine]

section
variable {s : State} {key n k pa : Nat} {o : MemOp} (hp : o.place = .hbm pa)
include hp

theorem State.performAtomic_hbm : ∃ t : State, t.mem = s.mem.perform key pa o ∧ t.opsView = s.opsView ∧
    s.performAtomic key n o =
      (t, BitVec.ofNat 64 (s.mem.readAs key pa o.size), (o.effect (s.mem.readAs key pa o.size)).2) := by
  have hread : (s.takeLine o.place).readPlaceFor key o.place o.size = (s.mem.readAs key pa o.size, s.takeLine o.place) := by
    rw [hp]
    rfl
  refine ⟨(s.performAtomic key n o).1, ?_, ?_, ?_⟩
  · simp only [State.performAtomic, hread, State.afterAtomic_mem, Memory.perform]
    split
    · next hv => simp only [hv, hp, State.writePlace_hbm_mem, State.atomicEvent_mem, State.takeLine_mem]
    · next hv => simp only [hv, State.atomicEvent_mem, State.takeLine_mem]
  · simp only [State.performAtomic, hread, State.afterAtomic_opsView]
    split
    · simp only [hp, State.writePlace_hbm_opsView, State.atomicEvent_opsView, State.takeLine_opsView]
    · simp
  · simp only [State.performAtomic, hread]

/-- An operation that its agent has kept a result for is not performed again (R394). -/
theorem State.performOnce_kept {d : BitVec 11} {lcn : W32} {e : KioskResult} (hs : o.sequenced = true)
    (he : s.results.find? (fun e => e.isFor (homeDie pa) d lcn k) = some e) (ha : seqAbove o.seq e.seq = false) :
    s.performOnce key d lcn k n o = (s, e.result, e.flags, true) := by
  simp only [State.performOnce, hs, hp, placeAgent, he, ha, Bool.false_eq_true, if_false]

/-- Any other operation is performed; one under a sequence has its result kept (R217, R394). -/
theorem State.performOnce_performs {d : BitVec 11} {lcn : W32}
    (hnew : o.sequenced = true → ∀ e, s.results.find? (fun e => e.isFor (homeDie pa) d lcn k) = some e →
      seqAbove o.seq e.seq = true) :
    ∃ l, s.performOnce key d lcn k n o = ({ (s.performAtomic key n o).1 with results := l },
        (s.performAtomic key n o).2.1, (s.performAtomic key n o).2.2, false) ∧
      (o.sequenced = true → ∃ e ∈ l, e.seq = o.seq ∧ e.ctx = k ∧ e.result = (s.performAtomic key n o).2.1 ∧
        e.flags = (s.performAtomic key n o).2.2) ∧
      (o.sequenced = false → l = (s.performAtomic key n o).1.results) := by
  cases hs : o.sequenced with
  | false => exact ⟨_, by simp only [State.performOnce, hs], nofun, fun _ => rfl⟩
  | true =>
    cases he : s.results.find? (fun e => e.isFor (homeDie pa) d lcn k) with
    | none =>
      refine ⟨_, by simp only [State.performOnce, hs, hp, placeAgent, he]; rfl, fun _ => ⟨_, List.mem_cons_self, ?_⟩, nofun⟩
      exact ⟨rfl, rfl, rfl, rfl⟩
    | some e =>
      have hk : e.ctx = k := by
        have h := List.find?_some he
        simp only [KioskResult.isFor, Bool.and_eq_true, beq_iff_eq] at h
        exact h.2
      refine ⟨_, by simp only [State.performOnce, hs, hp, placeAgent, he, hnew hs e he, if_true]; rfl,
        fun _ => ⟨_, List.mem_cons_self, ?_⟩, nofun⟩
      exact ⟨rfl, hk, rfl, rfl⟩

/-- The same, at its location: the state it leaves is that of one event, with the result entries. -/
theorem State.performOnce_hbm {d : BitVec 11} {lcn : W32}
    (hnew : o.sequenced = true → ∀ e, s.results.find? (fun e => e.isFor (homeDie pa) d lcn k) = some e →
      seqAbove o.seq e.seq = true) :
    let m := s.mem.readAs key pa o.size
    ∃ t : State, s.performOnce key d lcn k n o = (t, BitVec.ofNat 64 m, (o.effect m).2, false) ∧
      t.mem = s.mem.perform key pa o ∧ (∀ j i, (t.coreAt j).findOp i = (s.coreAt j).findOp i) ∧
      (o.sequenced = true → ∃ e ∈ t.results,
        e.seq = o.seq ∧ e.ctx = k ∧ e.result = BitVec.ofNat 64 m ∧ e.flags = (o.effect m).2) ∧
      (o.sequenced = false → t.results = s.results) := by
  obtain ⟨t, hmem, hops, hperform⟩ := State.performAtomic_hbm (s := s) (key := key) (n := n) hp
  obtain ⟨l, honce, hkept, hnone⟩ := State.performOnce_performs (s := s) (key := key) (n := n) hp hnew
  rw [hperform] at honce hkept hnone
  exact ⟨{ t with results := l }, honce, hmem, State.findOp_of_opsView (t := t) hops, hkept,
    fun hs => (hnone hs).trans (State.results_of_opsView hops)⟩

theorem State.sendOp_hbm : s.sendOp n k o =
    (s.performOnce (s.keyOf (s.coreAt n).dom) (s.coreAt n).dom (s.coreAt n).proc.lcn o.poCtx n o).1.performedOp n k o.id
      (s.performOnce (s.keyOf (s.coreAt n).dom) (s.coreAt n).dom (s.coreAt n).proc.lcn o.poCtx n o).2 := by
  simp only [State.sendOp, hp]
end

section
variable {s : State} {n k id pa : Nat} {o : MemOp}

/-- An operation that nothing holds back reaches its agent. -/
theorem kioskAtomicPerform_sends (hn : n < 4096) (ho : (s.coreAt n).findOp id = some o) (hperf : o.performed = false)
    (href : o.refused = false) (hb : (s.coreAt n).opBlocked o = false) (hr : s.redHolds o.past o.place o.size = false)
    (hh : s.hostHolds o.place = false) : exec (.kioskAtomicPerform n k id) s = .next (s.sendOp n k o) := by
  refine exec_of_onCore (fun _ => rfl) hn ?_
  simp only [ho, hperf, href, hb, hr, hh, Bool.or_self, Bool.false_eq_true, if_false]
end

/-! ### The table's functions (R215, R216) -/

/-- The order of the integers that a format's bits stand for. -/
def afmtLess (f : AFmt) (a b : Nat) : Bool :=
  match f with
  | .i32 | .i64 => decide ((BitVec.ofNat (8 * afmtBytes f) a).toInt < (BitVec.ofNat (8 * afmtBytes f) b).toInt)
  | .n32 | .n64 | .f32 | .f16 | .bf16 => decide (a < b)

theorem IFmt.val_eq_toInt {g : IFmt} (hs : IFmt.signed g = true) (x : Nat) :
    IFmt.val g x = (BitVec.ofNat (IFmt.width g) x).toInt := by
  have hw : 0 < IFmt.width g := by cases g <;> decide
  have hpow : 2 ^ IFmt.width g = 2 * 2 ^ (IFmt.width g - 1) := by
    rw [← Nat.pow_succ', Nat.succ_eq_add_one, Nat.sub_one_add_one hw.ne']
  rw [BitVec.toInt_eq_toNat_cond, BitVec.toNat_ofNat]
  simp only [IFmt.val, hs, Bool.true_and, decide_eq_true_eq]
  split <;> split <;> omega

theorem afmtLess_iff (f : AFmt) (a b : Nat) : afmtLess f a b = decide (afmtVal f a < afmtVal f b) := by
  cases f with
  | i32 | i64 =>
    simp only [afmtLess, afmtVal, IFmt.val_eq_toInt (g := .i32) rfl, IFmt.val_eq_toInt (g := .i64) rfl]
    rfl
  | n32 | n64 | f32 | f16 | bf16 => simp [afmtLess, afmtVal]

theorem MemOp.effect_table {o : MemOp} {f : AFmt} {op : AmoOp} (hk : o.kind = .amo f op ∨ o.kind = .red f op) (m : Nat) :
    let r := amoOp f op m (o.data.toNat % 2 ^ (8 * o.size))
    o.effect m = (some r.1, r.2) := by
  rcases hk with hk | hk <;> simp only [MemOp.effect, hk]

/-- The new value and the flags as the obligation's table says them. -/
theorem amoOp_minmax (f : AFmt) (m x : Nat) :
    amoOp f .min m x = (if afmtLess f x m then x else m, 0) ∧ amoOp f .max m x = (if afmtLess f m x then x else m, 0) := by
  simp [amoOp, afmtLess_iff]

/-- Settles O45: an operation that nothing holds back reaches its Kiosk, which repeats a kept result or performs one
event. -/
theorem atomicOperationIsPerformedOnce : Obligations.AtomicOperationIsPerformedOnce := by
  unfold Obligations.AtomicOperationIsPerformedOnce
  intro n k id pa o f s hn ho hperf href hb hr hp hh hsize hkind c key w m x old ff less value put after
  obtain rfl : o.id = id := MemOp.id_of_findOp ho
  rw [kioskAtomicPerform_sends hn ho hperf href hb hr hh, State.sendOp_hbm hp]
  have hless : less = afmtLess f := by
    funext a b
    cases f <;> rfl
  have hvalue : ∀ op, value op = amoOp f op m x := by
    intro op
    have hminmax := amoOp_minmax f m x
    rw [← hless] at hminmax
    cases op with
    | min => exact hminmax.1.symm
    | max => exact hminmax.2.symm
    | swap | add | and | or | xor => rfl
    | fadd | fmin | fmax => cases f <;> rfl
  have hafter : after = (s.mem.perform key pa o, (o.effect m).2) := by
    have hx : o.data.toNat % 2 ^ (8 * o.size) = x := by rw [hsize]
    rcases hkind with hkind | ⟨op, hkind⟩
    · have heffect : o.effect m = (if m = o.compare.toNat % 2 ^ w then some x else none, 0) := by
        simp only [MemOp.effect, hkind, hsize, x, w]
      have hcas : after = (if m = o.compare.toNat % 2 ^ w then put x else s.mem, 0) := by simp only [after, hkind]
      rw [hcas, Memory.perform, heffect]
      split <;> rfl
    · have heffect := MemOp.effect_table hkind m
      rw [hx, ← hvalue] at heffect
      have htable : after = (put (value op).1, (value op).2) := by
        rcases hkind with hkind | hkind <;> simp only [after, hkind]
      rw [htable, Memory.perform, heffect]
  refine ⟨fun e hs he ha => ⟨_, rfl, ?_⟩, fun hnew => ⟨_, rfl, ?_⟩⟩
  · rw [State.performOnce_kept hp hs he ha]
    exact ⟨by simp, rfl, State.findOp_performedOp ho⟩
  · obtain ⟨t, honce, hmem, hfind, hkept, hnone⟩ := State.performOnce_hbm (s := s) (key := key) (n := n) hp hnew
    rw [honce, hafter]
    exact ⟨by simpa using hmem, hkept, hnone, State.findOp_performedOp ((hfind n o.id).trans ho)⟩

end Sys2Proof.Machine

namespace Sys2Proof.Machine

/-! ## The answers to atomics (O46) -/

/-! ### A response and a refusal (R217, R218, R392, R393, R395) -/

theorem answerCore_of_lt {n : Nat} (h : n < 4096) : answerCore n = (n, false) := if_pos h

/-- The operation is an AMO or CAS, whose context waits for it. -/
def MemOp.returns (o : MemOp) : Prop := ∃ f op, o.kind = .amo f op ∨ o.kind = .cas f
/-- The operation is a posted atomic. -/
def MemOp.posts (o : MemOp) : Prop := (∃ f op, o.kind = .red f op) ∨ o.kind = .fset ∨ o.kind = .fclr

section
variable {n k id : Nat} {o : MemOp} {why : RefuseWhy} {cause : BitVec 8} {s : State}

theorem atomicResponse_returns (hn : n < 4096) : exec (.atomicResponse n k id) s = .next (s.atomicReturn n id) := by
  change execAtomicResponse n k id s = _
  simp only [execAtomicResponse, answerCore_of_lt hn, Bool.false_eq_true, if_false]
  exact onCore_goesOn s _ hn

theorem remoteTimeout_refuses (hn : n < 4096) : exec (.remoteTimeout n k id) s = .next (s.refuse n id cPROT) :=
  exec_of_onCore (fun _ => rfl) hn rfl

theorem kioskRefusal_refuses (hn : n < 4096) :
    exec (.kioskRefusal n k id why) s = .next (s.refuse n id (if why = .pageAway then cPFAULT else cPROT)) := by
  change execKioskRefusal n k id why s = _
  simp only [execKioskRefusal, answerCore_of_lt hn]
  exact onCore_goesOn s _ hn

section
variable (ho : (s.coreAt n).findOp id = some o) (hr : o.rearm = none)
include ho hr

theorem State.atomicReturn_of_returns (hp : o.performed = true) (h : o.returns) : s.atomicReturn n id =
    (let t := (s.updCore n fun c => c.dropOp id).landNow n o.ctx [.g o.d (GReg.data o.result)] o.flags (some o.set)
     let u := (t.updCtx n o.ctx fun x => { x with
       latch := { x.latch with valid := false, result := o.result } }).recordHits n o.ctx o.hits o.va o.ip
     if (u.ctxAt n o.ctx).run = .waiting (.result id) then u.resume n o.ctx else u) := by
  obtain ⟨f, op, hk | hk⟩ := h <;>
    simp only [State.atomicReturn, ho, hp, hr, hk, Bool.not_true, Bool.false_eq_true, if_false]

theorem State.atomicReturn_of_posts (hp : o.performed = true) (h : o.posts) : s.atomicReturn n id =
    ((s.updCore n fun c => c.dropOp id).landNow n o.ctx [] o.flags none).updCtx n o.ctx fun x =>
      if o.sequenced && x.latch.posted && x.latch.seq == o.seq then { x with latch := { x.latch with valid := false } } else x := by
  obtain ⟨f, op, hk⟩ | hk | hk := h <;>
    simp only [State.atomicReturn, ho, hp, hr, hk, Bool.not_true, Bool.false_eq_true, if_false]

section
variable (hp : o.performed = false) (hf : o.refused = false) (hh : o.place.isHbm = false)
include hp hf hh

theorem State.refuse_of_returns (h : o.returns) :
    let b := (s.updCtx n o.ctx fun x => { x with latch := { x.latch with sent := false } }).updCore n fun c => c.dropOp id
    s.refuse n id cause = if (b.ctxAt n o.ctx).run = .waiting (.result id)
      then ((b.updCtx n o.ctx fun x => x.sbDown o.set).keepHits n o.ctx o.hits o.va o.ip).takeTrap n o.ctx
        { cause := cause, val := BitVec.ofNat 64 (2 ^ 63 + o.va % 2 ^ 48) } o.ip
      else b := by
  obtain ⟨f, op, hk | hk⟩ := h <;>
    simp only [State.refuse, ho, hp, hf, hh, hr, hk, Bool.or_self, Bool.false_eq_true, if_false]

theorem State.refuse_of_posts (h : o.posts) :
    let z := (s.updCtx n o.ctx fun x => { x with latch := { x.latch with sent := false } }).updCore n fun c =>
      c.mapOp id fun o => { o with refused := true }
    s.refuse n id cause = if (z.ctxAt n o.ctx).run = .dead then z.dropRefused n
      else (z.updCtx n o.ctx fun x => { x with
        deferred := some (cause, BitVec.ofNat 64 (2 ^ 63 + o.va % 2 ^ 48)) }).backOut n o.ctx id := by
  obtain ⟨f, op, hk⟩ | hk | hk := h <;>
    simp only [State.refuse, ho, hp, hf, hh, hr, hk, Bool.or_self, Bool.false_eq_true, if_false]
end
end
end

/-! ### RETARM (R408) -/

section
variable {c : Ctl} {d : BitVec 6} {ctx : BitVec 4} {k va : Nat} {p : Place} {q : Rearm} {i : Instr} {s : State}

@[simp] theorem State.coreAt_sendAtomic (s : State) (n k id : Nat) (p : Place) (m : Nat) :
    (s.sendAtomic n k id p).coreAt m = s.coreAt m := by
  unfold State.sendAtomic
  split <;> rfl

/-- A RETARM has sent an operation for context `k` of the acting core, as the obligation describes it. -/
def State.SentFor (s u : State) (d : BitVec 6) (k : Nat) (p : Place) (q : Rearm) (seq : W16) (x y : W64) : Prop :=
  u.mem = s.mem ∧ (u.ctxAt s.core k).latch.sent = true ∧ (u.ctxAt s.core k).latch.seq = seq ∧
    ∃ o ∈ (u.coreAt s.core).flight, o.id = s.ids ∧ o.rearm = some k ∧ o.ctx = s.k ∧ o.kind = q.kind ∧ o.place = p ∧
      o.size = q.size ∧ o.seq = seq ∧ o.data = x.setWidth 128 ∧ o.compare = y ∧ o.d = d

/-- A latched operation is sent as its latch stands. -/
theorem State.sendRearm_sends (s : State) (c : Ctl) (d : BitVec 6) (k va : Nat) (p : Place) (q : Rearm)
    (hsent : (s.me.ctx k).latch.sent = true) :
    ∃ u : State, s.sendRearm c d k va p q = .wait (.result s.ids) u ∧
      s.SentFor u d k p q (s.me.ctx k).latch.seq (s.me.ctx k).latch.operand (s.me.ctx k).latch.compare := by
  refine ⟨_, rfl, by simp, ?_, ?_, ?_⟩
  · rw [State.ctxAt, State.coreAt_sendAtomic, State.updMe, State.coreAt_updCore_same]
    exact hsent
  · rw [State.ctxAt, State.coreAt_sendAtomic, State.updMe, State.coreAt_updCore_same]
    rfl
  · rw [State.coreAt_sendAtomic, State.updMe, State.coreAt_updCore_same]
    exact ⟨_, List.mem_append_right _ List.mem_cons_self, rfl, rfl, rfl, rfl, rfl, rfl, rfl, rfl, rfl, rfl⟩

theorem State.k_updCtx_me (s : State) (j : Nat) (f : Ctx → Ctx) : (s.updCtx s.core j f).k = s.k := by
  show ((s.updCtx s.core j f).coreAt s.core).cur.getD 0 = _
  rw [State.updCtx, State.coreAt_updCore_same]
  rfl

/-- A latched operation is sent after its latch has been loaded again. -/
theorem State.sendRearm_updCtx_sends (s : State) (c : Ctl) (d : BitVec 6) (k va : Nat) (p : Place) (q : Rearm) {l : Latch}
    (hl : l.sent = true) :
    ∃ u : State, (s.updCtx s.core k fun x => { x with latch := l }).sendRearm c d k va p q = .wait (.result s.ids) u ∧
      s.SentFor u d k p q l.seq l.operand l.compare := by
  have hlatch : ((s.updCtx s.core k fun x => { x with latch := l }).me.ctx k).latch = l :=
    congrArg Ctx.latch (State.ctxAt_updCtx_same s s.core k fun x => { x with latch := l })
  have h := State.sendRearm_sends (s.updCtx s.core k fun x => { x with latch := l }) c d k va p q (by rw [hlatch]; exact hl)
  rw [hlatch] at h
  obtain ⟨u, hu, hm, hsent, hseq, o, ho, hid, hr, hctx, hrest⟩ := h
  exact ⟨u, hu, hm, hsent, hseq, o, ho, hid, hr, hctx.trans (State.k_updCtx_me s k _), hrest⟩

/-- The effect of a RETARM whose address or destination traps (R408). -/
def State.rearmFails (s : State) (c : Ctl) (d : BitVec 6) (k : Nat) (cause : BitVec 8) (val : W64) : Eff :=
  .wait (.result s.ids) ((s.updCtx s.core k fun x => { x with trap := { x.trap with cause := cause, val := val } }).reply
    s.core s.k [.g d (GReg.data 3)] c.set [] 0 0)

/-- The latch of an operation that is sent for the first time by a RETARM (R392, R408). -/
def Latch.rearmed (l : Latch) (va : Nat) (p : Place) (q : Rearm) : Latch := l.send l.word va p q.operand q.compare l.posted

/-- The effect of a RETARM for a parked context whose latch holds the operation `q` (R408). -/
def State.rearmEffect (s : State) (c : Ctl) (d : BitVec 6) (k : Nat) (q : Rearm) : Eff :=
  let x := s.me.ctx k
  if x.latch.sent then s.sendRearm c d k x.latch.va (x.latch.place.getD (.hbm x.latch.addr.toNat)) q
  else
    match s.latchPlace k q with
    | .bad cause val _ => s.rearmFails c d k cause val
    | .ok va p =>
      match q.dest with
      | some r =>
        if (x.gReg r).isEnd then s.rearmFails c d k cENDLEAK (r.setWidth 64)
        else
          (s.updCtx s.core k fun y => { y with latch := { y.latch.rearmed va p q with result := y.latch.result } }).sendRearm
            c d k va p q
      | none => (s.updCtx s.core k fun y => { y with latch := y.latch.rearmed va p q }).sendRearm c d k va p q

theorem retarm_traps (hi : Issues c fLate s = true) (hk : s.k ≠ 0) : exec (.retarm c d ctx) s = .next (s.traps cPROT 0) :=
  exec_traps (fun _ => rfl) hi (if_pos hk)

section
variable (hk : s.k = 0) (hl : s.leak d = false)
include hk hl

theorem retarm_answers_none : WaitsAs (.retarm c d ctx) c fLate
    ((s.me.ctx ctx.toNat).run ≠ .parked ∨ (s.me.ctx ctx.toNat).latch.valid = false ∨
      ∀ i q, decodeWord (s.me.ctx ctx.toNat).latch.word = .ok i → (s.me.ctx ctx.toNat).rearm i ≠ some q)
    (.result s.ids) (s.reply s.core s.k [.g d (GReg.data 2)] c.set [] 0 0) s := by
  refine waitsAs_of_issue (fun _ => rfl) fun h => ?_
  simp only [hk, hl, ne_eq, not_true_eq_false, Bool.false_eq_true, if_false]
  split
  · rfl
  · next hn =>
    split
    · rfl
    · next i hd =>
      split
      · rfl
      · next q hq => exact absurd hq ((h.resolve_left fun h => hn (.inl h)).resolve_left (fun h => hn (.inr h)) i q hd)

section
variable (hi : Issues c fLate s = true) (hr : (s.me.ctx ctx.toNat).run = .parked)
  (hv : (s.me.ctx ctx.toNat).latch.valid = true) (hd : decodeWord (s.me.ctx ctx.toNat).latch.word = .ok i)
  (hq : (s.me.ctx ctx.toNat).rearm i = some q)
include hi hr hv hd hq

theorem retarm_latched :
    exec (.retarm c d ctx) s = .next (s.finish c fLate (s.rearmEffect c d ctx.toNat q)) := by
  have hS : (s.k ≠ 0) = False := eq_false (not_not.2 hk)
  have hparked : ((s.me.ctx ctx.toNat).run ≠ .parked) = False := eq_false (not_not.2 hr)
  refine exec_of_issues (fun _ => rfl) hi ?_
  simp only [hS, hl, hparked, hv, hd, hq, or_self, Bool.true_eq_false, Bool.false_eq_true, if_false]
  rfl
end
end

section
variable {x : Ctx} (hx : s.me.ctx k = x)
include hx

theorem State.rearmEffect_sent (hs : x.latch.sent = true) : s.rearmEffect c d k q =
    s.sendRearm c d k x.latch.va (x.latch.place.getD (.hbm x.latch.addr.toNat)) q := by
  simp only [State.rearmEffect, hx, hs, if_true]

section
variable (hs : x.latch.sent = false)
include hs

theorem State.rearmEffect_bad {cause : BitVec 8} {val : W64} {formed : Option Nat}
    (hp : s.latchPlace k q = .bad cause val formed) : s.rearmEffect c d k q = s.rearmFails c d k cause val := by
  simp only [State.rearmEffect, hx, hs, hp, Bool.false_eq_true, if_false]

section
variable (hp : s.latchPlace k q = .ok va p)
include hp

theorem State.rearmEffect_end {r : BitVec 6} (hdest : q.dest = some r) (he : (x.gReg r).isEnd = true) :
    s.rearmEffect c d k q = s.rearmFails c d k cENDLEAK (r.setWidth 64) := by
  simp only [State.rearmEffect, hx, hs, hp, hdest, he, Bool.false_eq_true, if_false, if_true]

/-- An operation that was not sent before loads the latch again, under the next sequence number (R392). -/
theorem State.rearmEffect_first (hdest : ∀ r, q.dest = some r → (x.gReg r).isEnd = false) :
    ∃ l : Latch, l.sent = true ∧ l.seq = x.latch.seq + 1 ∧ l.operand = q.operand ∧ l.compare = q.compare ∧
      s.rearmEffect c d k q = (s.updCtx s.core k fun y => { y with latch := l }).sendRearm c d k va p q := by
  subst hx
  have hload : ∀ (f : Ctx → Latch), (s.updCtx s.core k fun y => { y with latch := f y }).sendRearm c d k va p q =
      (s.updCtx s.core k fun y => { y with latch := f (s.me.ctx k) }).sendRearm c d k va p q := fun f =>
    congrArg (fun t => State.sendRearm t c d k va p q) (State.updCtx_congr rfl)
  cases hq : q.dest with
  | none =>
    refine ⟨(s.me.ctx k).latch.rearmed va p q, rfl, rfl, rfl, rfl, ?_⟩
    simp only [State.rearmEffect, hs, hp, hq, Bool.false_eq_true, if_false]
    exact hload fun y => y.latch.rearmed va p q
  | some r =>
    refine ⟨{ (s.me.ctx k).latch.rearmed va p q with result := (s.me.ctx k).latch.result }, rfl, rfl, rfl, rfl, ?_⟩
    simp only [State.rearmEffect, hs, hp, hq, hdest r hq, Bool.false_eq_true, if_false]
    exact hload fun y => { y.latch.rearmed va p q with result := y.latch.result }
end
end
end
end

/-- Settles O46: a response and a refusal by the kind of the operation, RETARM by what its latch holds. -/
theorem atomicAnswersComplete : Obligations.AtomicAnswersComplete := by
  unfold Obligations.AtomicAnswersComplete
  intro c d ctx n k id o why s hn
  refine ⟨fun ho hr => ⟨fun hp h => ?_, fun hp h => ?_, fun hp hf hh => ?refused⟩, ?retarm⟩
  · rw [atomicResponse_returns hn, State.atomicReturn_of_returns ho hr hp h]
  · rw [atomicResponse_returns hn, State.atomicReturn_of_posts ho hr hp h]
  case refused =>
    intro val v b u z refused
    have hrefused : ∀ cause, refused cause (s.refuse n id cause) := fun cause =>
      ⟨State.refuse_of_returns ho hr hp hf hh, State.refuse_of_posts ho hr hp hf hh⟩
    exact ⟨fun _ => ⟨_, remoteTimeout_refuses hn, hrefused _⟩, fun _ => ⟨_, kioskRefusal_refuses hn, hrefused _⟩⟩
  case retarm =>
    intro x l answer fails ok sends
    refine ⟨retarm_traps, fun hi ⟨⟨hk, hl⟩, h⟩ => retarm_answers_none hk hl hi h, ?_⟩
    rintro i q hi ⟨hk, hl⟩ hr hv hd hq
    have hexec : exec (.retarm c d ctx) s = .next (s.finish c fLate (s.rearmEffect c d ctx.toNat q)) :=
      retarm_latched hk hl hi hr hv hd hq
    refine ⟨fun hs => ?_, fun hs => ⟨fun cause val formed hp => ?_, fun va p hp => ⟨fun r hdest he => ?_, fun hdest => ?_⟩⟩⟩
    · obtain ⟨u, hu, hsent⟩ := State.sendRearm_sends s c d ctx.toNat l.va (l.place.getD (.hbm l.addr.toNat)) q hs
      exact ⟨u, by rw [hexec, State.rearmEffect_sent rfl hs, hu], hsent⟩
    · rw [hexec, State.rearmEffect_bad rfl hs hp]
      rfl
    · rw [hexec, State.rearmEffect_end rfl hs hp hdest he]
      rfl
    · obtain ⟨l', hsent, hseq, hx, hy, heffect⟩ := State.rearmEffect_first (c := c) (d := d) rfl hs hp hdest
      obtain ⟨u, hu, hfor⟩ := State.sendRearm_updCtx_sends s c d ctx.toNat va p q hsent
      rw [hseq, hx, hy] at hfor
      exact ⟨u, by rw [hexec, heffect, hu], hfor⟩

end Sys2Proof.Machine

namespace Sys2Proof.Machine

/-! ## Waits and their polls (O47) -/

/-! ### The read of a wait at a place of HBM -/

/-- What a wait reads at its location of HBM, against its condition. -/
def State.testAt (s : State) (y : SyncWait) (pa : Nat) : Bool × W64 :=
  waitTest y (s.mem.readAs (s.keyOf (s.coreAt y.core).dom) pa (waitSize y))

/-- A Kiosk has taken the line of a wait, whose entry is out of the list. -/
def State.takeWait (s : State) (y : SyncWait) (pa : Nat) : State :=
  { s.engineLine (pa / 64) with syncs := s.syncs.filter fun x => x.id != y.id }

/-- The context of a wait waits, with the wait enrolled or to be polled after some time. -/
def State.waitOn (t : State) (y : SyncWait) (poll : Option Nat) : State :=
  ({ t with syncs := t.syncs ++ [{ y with poll := poll }] } : State).updCtx y.core y.ctx fun x =>
    { x with run := .waiting (.sync y.id) }

/-- The time to the next poll (R222). -/
def SyncWait.backoff (y : SyncWait) : Nat :=
  match y.poll with
  | some 0 | none => 64
  | some m => min (2 * m) 65536

/-- What the read of a wait at a location of HBM leads to: its end, its enrolment or a poll. -/
def State.triedAt (s : State) (y : SyncWait) (pa : Nat) : State :=
  let t := s.takeWait y pa
  if (s.testAt y pa).1 = true ∨ y.ending = true then t.endWait y (s.testAt y pa).2
  else if t.enrolled (homeDie pa) < 8192 ∧ y.poll = some 0 then t.waitOn y none
  else (t.waitOn y (some y.backoff)).atCycle (t.cyc + y.backoff) (.waitPoll y.core y.ctx)

section
variable {s : State} {y : SyncWait} {pa : Nat}

theorem State.waitRead_hbm (hp : y.place = .hbm pa) :
    s.waitRead y = (s.mem.readAs (s.keyOf (s.coreAt y.core).dom) pa (waitSize y), s.engineLine (pa / 64)) := by
  simp only [State.waitRead, hp, State.readPlaceFor, State.readPlace, State.takeLine, ite_self]
  rfl

theorem State.entryFree_hbm (hp : y.place = .hbm pa) (t : State) :
    t.entryFree y.place = decide (t.enrolled (homeDie pa) < 8192) := by
  rw [hp]
  rfl

theorem State.tryWait_hbm (hp : y.place = .hbm pa) : s.tryWait y = s.triedAt y pa := by
  simp only [State.tryWait, State.waitRead_hbm hp, State.triedAt, State.entryFree_hbm hp, Bool.or_eq_true, Bool.and_eq_true,
    decide_eq_true_eq, beq_iff_eq]
  rfl

/-! ### What a context waits for after the read -/

theorem State.flow_ids (s : State) (a b : Who) : (s.flow a b).ids = s.ids := by
  unfold State.flow
  split <;> rfl

theorem State.readPast_ids (s : State) (p : Place) (n : Nat) (w : Who) : (s.readPast p n w).ids = s.ids := by
  unfold State.readPast
  split
  · rfl
  · exact foldl_keeps State.ids (fun (s : State) i => s.flow (.byte (p.move i)) w) (fun _ _ => State.flow_ids _ _ _) _ _

theorem State.aoEvent_ids (s : State) (p : Place) (n : Nat) (l : List Nat) : (s.aoEvent p n l).ids = s.ids := by
  unfold State.aoEvent
  split
  · rfl
  · dsimp only
    refine foldl_keeps State.ids _ (fun _ _ => ?_) _ _
    rfl

theorem State.aoRead_ids (s : State) (p : Place) (n : Nat) (w : Who) : (s.aoRead p n w).ids = s.ids := by
  unfold State.aoRead
  dsimp only
  rw [State.aoEvent_ids]
  split
  · exact State.readPast_ids _ _ _ _
  · rw [foldl_keeps State.ids (fun (t : State) i => t.flow (.atom (p.move i)) w) (fun _ _ => State.flow_ids _ _ _),
      State.readPast_ids]

theorem State.endWait_run (t : State) (y : SyncWait) (v : W64) :
    ((t.endWait y v).ctxAt y.core y.ctx).run = .waiting (.result t.ids) := by
  rw [State.endWait, State.reply]
  show (State.ctxAt (State.updCtx _ _ _ _) _ _).run = _
  rw [State.ctxAt_updCtx_same]
  exact congrArg (fun i => Run.waiting (.result i)) (State.aoRead_ids _ _ _ _)

theorem State.waitOn_run (t : State) (y : SyncWait) (poll : Option Nat) :
    ((t.waitOn y poll).ctxAt y.core y.ctx).run = .waiting (.sync y.id) := by
  rw [State.waitOn, State.ctxAt_updCtx_same]

theorem State.triedAt_run (he : y.ending = false) : ((s.triedAt y pa).ctxAt y.core y.ctx).run =
    .waiting (if (s.testAt y pa).1 = true then .result s.ids else .sync y.id) := by
  unfold State.triedAt
  by_cases h : (s.testAt y pa).1 = true
  · rw [if_pos (.inl h), if_pos h]
    exact State.endWait_run _ _ _
  · rw [if_neg (by simp [h, he]), if_neg h]
    split
    · exact State.waitOn_run _ _ _
    · exact State.waitOn_run (s.takeWait y pa) y (some y.backoff)
end

/-! ### The words and the poll -/

/-- The entry of a wait that begins (R220). -/
def State.newWait (u : State) (c : Ctl) (cond : Option (WFmt × Rel × W64)) (n : Nat) (d : BitVec 6) (va : Nat) (p : Place) :
    SyncWait :=
  { id := u.ids, core := u.core, ctx := u.k, place := p, va := va, cond := cond, d := d, set := c.set, poll := some 0,
    hits := u.watchHits va n, ip := u.cx.pc, after := u.me.poIds u.k, ending := false }

section
variable {i : Instr} {c : Ctl} {d w : BitVec 6} {n va pa : Nat} {p : Place} {cond : State → Option (WFmt × Rel × W64)}
  {off : State → Int} {s u : State} {y : SyncWait}

section
variable (hx : ∀ t, exec i t = issue c fFarYieldLate t fun t => syncWait t c n (cond t) d w (off t))
  (hu : u = s.walkFor (s.gReg w) (off s)) (hy : y = u.newWait c (cond s) n d va p)
include hx hu hy

theorem syncWait_blocked : WaitsAs i c fFarYieldLate
    ((u.memAddr (u.gReg w) (off s) n n needR = .ok va p ∧ u.leak d = false) ∧ (u.waitBlocked u.core y || u.hostHolds p) = true)
    (.sync u.ids) (({ u with ids := u.ids + 1, syncs := u.syncs ++ [y] } : State).later (.waitPoll u.core u.k)) s := by
  refine waitsAs_of_issue hx ?_
  rintro ⟨⟨hplace, hleak⟩, hblocked⟩
  subst hu hy
  rw [State.newWait] at hblocked
  simp only [syncWait, hplace, hleak, hblocked, Bool.false_eq_true, if_false, if_true]
  rfl

theorem syncWait_tried (hp : p = .hbm pa) : WaitsAs i c fFarYieldLate
    ((u.memAddr (u.gReg w) (off s) n n needR = .ok va p ∧ u.leak d = false) ∧ (u.waitBlocked u.core y || u.hostHolds p) = false)
    (if (({ u with ids := u.ids + 1 } : State).testAt y pa).1 = true then .result (u.ids + 1) else .sync u.ids)
    (({ u with ids := u.ids + 1 } : State).triedAt y pa) s := by
  refine waitsAs_of_issue hx ?_
  rintro ⟨⟨hplace, hleak⟩, hblocked⟩
  have htry : ({ u with ids := u.ids + 1 } : State).tryWait y = ({ u with ids := u.ids + 1 } : State).triedAt y pa :=
    State.tryWait_hbm (hy ▸ hp)
  have hrun := State.triedAt_run (s := { u with ids := u.ids + 1 }) (y := y) (pa := pa) (hy ▸ rfl)
  subst hu hy
  rw [State.newWait] at hblocked htry hrun ⊢
  simp only [syncWait, hplace, hleak, hblocked, htry, hrun, Bool.false_eq_true, if_false]
end

section
variable (hy : s.syncs.find? (fun x => x.core == y.core && x.ctx == y.ctx && x.poll.isSome) = some y) (hn : y.core < 4096)
include hy hn

theorem waitPoll_blocked (hb : s.waitBlocked y.core y = true) :
    exec (.waitPoll y.core y.ctx) s = .next (s.later (.waitPoll y.core y.ctx)) := by
  refine exec_of_onCore (fun _ => rfl) hn ?_
  simp only [hy, hb, if_true]

theorem waitPoll_held (hb : s.waitBlocked y.core y = false) (hh : s.hostHolds y.place = true) :
    exec (.waitPoll y.core y.ctx) s = .next ((s.askBack y.place).later (.waitPoll y.core y.ctx)) := by
  refine exec_of_onCore (fun _ => rfl) hn ?_
  simp only [hy, hb, hh, Bool.false_eq_true, if_false, if_true]

theorem waitPoll_tried (hb : s.waitBlocked y.core y = false) (hh : s.hostHolds y.place = false) (hp : y.place = .hbm pa) :
    exec (.waitPoll y.core y.ctx) s = .next (s.triedAt y pa) := by
  refine exec_of_onCore (fun _ => rfl) hn ?_
  simp only [hy, hb, hh, Bool.false_eq_true, if_false, State.tryWait_hbm hp]
end
end

/-- Settles O47: the words by the body of a wait, blocked or tried, and the poll by the entry it finds. -/
theorem synchronizationWordsComplete : Obligations.SynchronizationWordsComplete := by
  unfold Obligations.SynchronizationWordsComplete
  intro c f r d w v off z va p s entry test tried word n u u'
  refine ⟨⟨?_, fun pa hp => ?_⟩, ⟨?_, fun pa hp => ?_⟩, fun y hy hn => ⟨waitPoll_blocked hy hn, waitPoll_held hy hn, ?_⟩⟩
  · exact syncWait_blocked (cond := fun s => some (f, r, s.readG v)) (off := fun s => s.offGI off) (fun _ => rfl) rfl rfl
  · exact syncWait_tried (cond := fun s => some (f, r, s.readG v)) (off := fun s => s.offGI off) (fun _ => rfl) rfl rfl hp
  · exact syncWait_blocked (cond := fun _ => none) (off := fun s => s.offZ z) (fun _ => rfl) rfl rfl
  · exact syncWait_tried (cond := fun _ => none) (off := fun s => s.offZ z) (fun _ => rfl) rfl rfl hp
  · exact fun hb hh pa hp => waitPoll_tried hy hn hb hh hp

end Sys2Proof.Machine

namespace Sys2Proof.Machine

/-! ## Delivery of a message (O50) -/

/-! ### An offer of slots leaves the cores -/

@[simp] theorem State.emit_cores (s : State) (port : Nat) (o : Out) : (s.emit port o).cores = s.cores := by
  unfold State.emit
  split <;> rfl

@[simp] theorem State.tell_cores (s : State) (die : Nat) (dom : BitVec 11) (d : BitVec 12) (n : Notice) :
    (s.tell die dom d n).cores = s.cores :=
  State.emit_cores _ _ _

@[simp] theorem State.offerSlots_cores (s : State) (n : Nat) : (s.offerSlots n).cores = s.cores := by
  unfold State.offerSlots
  dsimp only
  rw [foldl_keeps State.cores _ fun _ _ => State.tell_cores _ _ _ _ _]
  refine foldl_keeps State.cores _ (fun t p => ?_) _ _
  split <;> rfl

@[simp] theorem State.offerSlots_coreAt (s : State) (n m : Nat) : (s.offerSlots n).coreAt m = s.coreAt m :=
  congrArg (fun l => Tab.get Core.init l m) (s.offerSlots_cores n)

/-! ### A core takes the message that an end expects -/

/-- The message leaves the inbox, its end expects the next, and the free slot is offered to the records (R242, R245, R259). -/
def State.takeMsg (s : State) (n k : Nat) (e : BitVec 6) (m : Msg) : State :=
  let r := (s.ctxAt n k).gReg e
  let t := (s.updCore n fun y => y.dropMsg r.bits r.endst).updCtx n k fun y => y.setG e { r with endst := r.endst + 1 }
  (((t.updProc n fun p => { p with received := p.received + 1 }).count n 8).offerSlots n).flow
    (.msg (m.record + 2 ^ 32 * (m.holder.toNat + 1)) m.seq) (.ctx n k)

section
variable {s : State} {n k w : Nat} {e reg : BitVec 6} {qd : BitVec 3} {m : Msg} {d x : Option (BitVec 6)} {r : GReg} {b : W128}

theorem State.takeMsg_mem (s : State) (n k : Nat) (e : BitVec 6) (m : Msg) : (s.takeMsg n k e m).mem = s.mem := by
  simp [State.takeMsg]

theorem State.takeMsg_coreAt (hr : (s.ctxAt n k).gReg e = r) : ∃ hc proc, (s.takeMsg n k e m).coreAt n =
    { ((s.coreAt n).dropMsg r.bits r.endst).updCtx k (fun y => y.setG e { r with endst := r.endst + 1 }) with
      hc := hc, proc := proc } := by
  subst hr
  simp only [State.takeMsg, State.flow_coreAt, State.offerSlots_coreAt]
  generalize hu : State.updProc _ n _ = u
  obtain ⟨hc, hcore⟩ := State.coreAt_count_same u n 8
  rw [hcore, ← hu]
  simp only [State.updProc, State.updCtx, State.coreAt_updCore_same]
  exact ⟨_, _, rfl⟩

theorem State.takeMsg_gReg (hr : (s.ctxAt n k).gReg e = r) :
    ((s.takeMsg n k e m).ctxAt n k).gReg e = { r with endst := r.endst + 1 } := by
  obtain ⟨hc, proc, hcore⟩ := State.takeMsg_coreAt (m := m) hr
  have hctx : (s.takeMsg n k e m).ctxAt n k = (s.ctxAt n k).setG e { r with endst := r.endst + 1 } := by
    rw [State.ctxAt, hcore]
    exact Core.ctx_updCtx_same ((s.coreAt n).dropMsg r.bits r.endst) k fun y => y.setG e { r with endst := r.endst + 1 }
  rw [hctx, Ctx.gReg_setG_same]

theorem State.takeMsg_inbox (hr : (s.ctxAt n k).gReg e = r) : ((s.takeMsg n k e m).coreAt n).inbox =
    (s.coreAt n).inbox.filter fun x => !(msgFor r.bits x && x.seq == r.endst) := by
  obtain ⟨hc, proc, hcore⟩ := State.takeMsg_coreAt (m := m) hr
  rw [hcore]
  rfl

/-! ### What a RECV finds -/

section
variable (hr : (s.ctxAt n k).gReg e = r) (hm : (s.coreAt n).inboxMsg r.bits r.endst = some m)
include hr hm

/-- A closure marker answers its count with bit 63, and stays in the inbox (R252). -/
theorem State.recvNow_closure (hc : m.closure = true) : s.recvNow n k d w e x qd =
    .ok s [recvResult d w (BitVec.ofNat 512 (2 ^ 63 + m.payload.toNat)), .q qd false] none := by
  simp only [State.recvNow, hr, hm, hc, if_true]

theorem State.recvNow_leak (hc : m.closure = false) (hb : m.carried = some b) :
    s.recvNow n k d w e none qd = .leak (r.endst.setWidth 64) := by
  simp only [State.recvNow, hr, hm, hc, hb, Bool.false_eq_true, if_false]

theorem State.recvNow_end (hc : m.closure = false) (hb : m.carried = some b) : s.recvNow n k d w e (some reg) qd =
    .ok (s.takeMsg n k e m) [recvResult d w (msgBytes m), .q qd true, .g reg { bits := b, tag := true, endst := 0 }]
      (some (endRec b, endRecv b)) := by
  simp only [State.recvNow, State.takeMsg, hr, hm, hc, hb, Bool.false_eq_true, if_false]

theorem State.recvNow_data (hc : m.closure = false) (hb : m.carried = none) : s.recvNow n k d w e x qd =
    .ok (s.takeMsg n k e m) [recvResult d w (msgBytes m), .q qd true] none := by
  simp only [State.recvNow, State.takeMsg, hr, hm, hc, hb, Bool.false_eq_true, if_false]
end
end

/-- Settles O50: what a RECV finds, by the kind of the message, and what taking it changes. -/
theorem receivedMessageIsTheExpectedOne : Obligations.ReceivedMessageIsTheExpectedOne := by
  unfold Obligations.ReceivedMessageIsTheExpectedOne
  intro n k d e qd m s r value taken hm
  have htaken : taken (s.takeMsg n k e m) :=
    ⟨State.takeMsg_gReg rfl, State.takeMsg_mem s n k e m, State.takeMsg_inbox rfl⟩
  refine ⟨fun hc x => State.recvNow_closure rfl hm hc, fun hc hb => ?_, fun hc b reg hb => ?_, fun hc hb x => ?_⟩
  · obtain ⟨b, hb⟩ := Option.isSome_iff_exists.1 hb
    exact State.recvNow_leak rfl hm hc hb
  · exact ⟨_, State.recvNow_end rfl hm hc hb, htaken⟩
  · exact ⟨_, State.recvNow_data rfl hm hc hb, htaken⟩

end Sys2Proof.Machine

namespace Sys2Proof.Machine

/-! ## The CHAN class (O49) -/

/-! ### CHAN (R239, R257) -/

section
variable {c : Ctl} {d e : BitVec 6} {cfg : BitVec 32} {k va : Nat} {area : Option Nat} {s u : State}

/-- Where the ring of a new record lies, if its page translates (R241). -/
def State.ringPlace (u : State) (dom : BitVec 11) (va : Nat) : Nat :=
  match u.translate dom va 128 .write with
  | .ok p => p.pa
  | .bad _ => 0

theorem State.ringPlace_of_ok {dom : BitVec 11} {p : Place} (hp : u.translate dom va 128 .write = .ok p) :
    u.ringPlace dom va = p.pa := by
  simp only [State.ringPlace, hp]

/-- A new record of a domain with an empty ring, both ends at the core that asked for it (R240). -/
def State.newRec (u : State) (dom : BitVec 11) (cfg : BitVec 32) (va : Nat) (area : Option Nat) : ChanRec :=
  { domain := dom, keyable := cfg.getLsbD 4, ringCode := bits cfg 3 0, sTransit := false, rTransit := false, sClosed := false,
    rClosed := false, mergeHold := none, spill := [], ranges := 1, starts := [], nexts := [], sgen := 0, rgen := 0, keyMask := 0,
    sloc := u.core, rlocs := [(0, u.core)], sendCounter := 0, accept := 0, expected := 0, final := 0, marked := [],
    credits := none, discard := 0, twinsAway := [], backlog := 0, ring := [], ringHead := 0, ringTail := 0, ringFull := false,
    ringBase := u.ringPlace dom va, ringVa := va, areaEntry := area, stuck := [] }

theorem chan_opens (hu : u = s.walkReady s.me.dom va) (hk : s.freeRecord (dieOf s.core) s.me.dom (cfg.getLsbD 4) = some (k, area))
    (hr : s.freeRing s.me.dom (128 * 2 ^ ((bits cfg 3 0) + 4)) = some va) :
    WaitsAs (.chan c d e cfg) c fFarLate (s.leak d = false ∧ s.leak e = false)
      (.result (u.putRec k (u.newRec s.me.dom cfg va area)).ids)
      ((u.putRec k (u.newRec s.me.dom cfg va area)).reply s.core s.k
        [.g d { bits := makeEnd s.me.dom u.lodge.deviceId k false, tag := true, endst := 0 },
          .g e { bits := makeEnd s.me.dom u.lodge.deviceId k true, tag := true, endst := 0 }] c.set [] 0 s.cx.pc) s := by
  refine waitsAs_of_issue (fun _ => rfl) ?_
  rintro ⟨hd, he⟩
  subst hu
  simp only [hd, he, hk, hr, Bool.false_eq_true, if_false]
  rfl

theorem chan_full (h : s.freeRecord (dieOf s.core) s.me.dom (cfg.getLsbD 4) = none ∨
      s.freeRing s.me.dom (128 * 2 ^ ((bits cfg 3 0) + 4)) = none) :
    WaitsAs (.chan c d e cfg) c fFarLate (s.leak d = false ∧ s.leak e = false) (.result s.ids)
      (s.reply s.core s.k [.g d (GReg.data 0), .g e (GReg.data 0)] c.set [] 0 s.cx.pc) s := by
  refine waitsAs_of_issue (fun _ => rfl) ?_
  rintro ⟨hd, he⟩
  simp only [hd, he, Bool.false_eq_true, if_false]
  rcases h with h | h
  · simp only [h]
  · simp only [h]
    cases s.freeRecord (dieOf s.core) s.me.dom (cfg.getLsbD 4) <;> rfl
end

/-! ### SEND (R258) -/

section
variable {c : Ctl} {qd : BitVec 3} {e n : BitVec 6} {v : Payload} {s t : State} {m : Msg}

/-- The checks of a SEND pass, its send queue has room, and the devices of its channel can be reached (R258, R270). -/
def State.maySend (s : State) (e : BitVec 6) (v : Payload) : Prop :=
  firstBad (s.payloadRes v) = none ∧ s.endCheck e (some false) bitUSE = none ∧ s.payloadPending v = false ∧
    s.me.sendq.length < Config.sendSlots ∧ s.channelReachable (s.gReg e).bits = true

/-- The message of a SEND, with the end it carries. -/
def State.sendMsg (s : State) (c : Ctl) (qd : BitVec 3) (e : BitVec 6) (v : Payload) (carried : Option W128) : Msg :=
  let r := s.gReg e
  { device := endDevice r.bits, record := endRec r.bits, len := BitVec.ofNat 7 (s.payload v).2, closure := false,
    forwarded := false, holder := 0, seq := r.endst, key := 0, payload := (s.payload v).1, carried := carried,
    ack := some { gang := s.me.proc.gang, core := s.core, ctx := s.k, q := qd, sb := c.set, issued := s.cyc,
                  after := s.me.poIds s.k } }

/-- A message has taken the next send number of its end, and is in the send queue. -/
def State.queueMsg (s : State) (e : BitVec 6) (m : Msg) : State :=
  ((((s.updCx fun x => x.setG e { s.gReg e with endst := (s.gReg e).endst + 1 }).updProc s.core fun q =>
    { q with sent := q.sent + 1 }).count s.core 7).updMe fun q => { q with sendq := q.sendq ++ [m] }).flow
      (.ctx s.core s.k) (.msg m.record m.seq)

theorem send_completes (hm : m = s.sendMsg c qd e v none) : CompletesAs (.send c qd e v none) c fFarLate (s.maySend e v)
    ((s.queueMsg e m).later (.recordMessageArrival m)) s := by
  refine completesAs_of_issue (fun _ => rfl) ?_
  rintro ⟨hw, he, hp, hq, hr⟩
  subst hm
  simp only [hw, he, hp, hr, Option.bind_none, decide_eq_false (Nat.not_le.2 hq), Bool.not_true, Bool.or_self,
    Bool.false_eq_true, if_false]
  rfl

theorem send_carries (hm : m = s.sendMsg c qd e v (some (nextGen (s.gReg n).bits)))
    (ht : t = ((s.queueMsg e m).updCx fun y => y.setG n (GReg.data 0)).disarmEnd (s.gReg n).bits) :
    let b := (s.gReg n).bits
    let gen := endGen b + 1
    CompletesAs (.send c qd e v (some n)) c fFarLate (s.maySend e v ∧ s.carriedCheck n = none)
      ((if endDevice b = s.lodge.deviceId then t else t.leave s.core b gen (s.gReg n).endst).later
        (.leaveNotice (endRec b) (endRecv b) gen (s.gReg n).endst s.core (some m))) s := by
  intro b gen
  refine completesAs_of_issue (fun _ => rfl) ?_
  rintro ⟨⟨hw, he, hp, hq, hr⟩, hc⟩
  subst ht hm
  simp only [hw, he, hp, hr, hc, Option.bind_some, decide_eq_false (Nat.not_le.2 hq), Bool.not_true, Bool.or_self,
    Bool.false_eq_true, if_false]
  rfl
end

/-! ### RECV, TRYRECV and SELECT (R259, R260) -/

section
variable {c : Ctl} {e d b : BitVec 6} {qd : BitVec 3} {cfg : BitVec 32} {rd : RDst} {carried : Option (BitVec 6)} {s t : State}
  {res : List Result} {a : Option (Nat × Bool)} {absent : Eff} {i : Nat}

/-- The checks of RECV and TRYRECV pass, and no wide result for the destination is on its way (R259). -/
def State.mayRecv (s : State) (rd : RDst) (e : BitVec 6) (carried : Option (BitVec 6)) : Prop :=
  firstBad (recvRes s rd) = none ∧ s.endCheck e (some true) bitUSE = none ∧ s.recvLeak rd carried = none ∧
    ((recvG rd).isNone && s.me.wPending s.k (s.recvW rd)) = false

theorem recvIssue_got (hok : s.mayRecv rd e carried)
    (hg : s.recvNow s.core s.k (recvG rd) (s.recvW rd) e carried qd = .ok t res a) :
    recvIssue s c rd e carried qd absent = .done (t.landGot s.core s.k c.set res a carried) := by
  obtain ⟨hw, he, hl, hp⟩ := hok
  simp only [recvIssue, hw, he, hl, hp, hg, Bool.false_eq_true, if_false]

theorem recvIssue_absent (hok : s.mayRecv rd e carried)
    (hg : s.recvNow s.core s.k (recvG rd) (s.recvW rd) e carried qd = .absent) :
    recvIssue s c rd e carried qd absent = absent := by
  obtain ⟨hw, he, hl, hp⟩ := hok
  simp only [recvIssue, hw, he, hl, hp, hg, Bool.false_eq_true, if_false]

/-- The checks of SELECT pass: every register of its mask holds a receive end that may be used (R260). -/
def State.maySelect (s : State) (d b : BitVec 6) (cfg : BitVec 32) : Prop :=
  (∀ i, i < 8 → cfg.getLsbD i = true → s.endCheck (b + BitVec.ofNat 6 i) (some true) bitUSE = none) ∧ s.leak d = false

theorem State.maySelect.checks (h : s.maySelect d b cfg) : ((((List.range 8).filter fun i => cfg.getLsbD i).map fun i =>
    b + BitVec.ofNat 6 i).findSome? fun n => s.endCheck n (some true) bitUSE) = none := by
  rw [List.findSome?_eq_none_iff]
  intro n hn
  obtain ⟨i, hi, rfl⟩ := List.mem_map.1 hn
  obtain ⟨hlt, hbit⟩ := List.mem_filter.1 hi
  exact h.1 i (List.mem_range.1 hlt) hbit

theorem select_ready (hi : s.selectNow s.core s.k b cfg = some i) : CompletesAs (.select c d b cfg) c fRecv (s.maySelect d b cfg)
    ((s.updCx fun x => { x with cursor := BitVec.ofNat 3 (i + 1) }).landAll s.core s.k c.set
      [.g d (GReg.data (BitVec.ofNat 64 i))]) s := by
  refine completesAs_of_issue (fun _ => rfl) fun h => ?_
  simp only [h.checks, h.2, hi, Bool.false_eq_true, if_false]

theorem select_waits (hi : s.selectNow s.core s.k b cfg = none) :
    WaitsAs (.select c d b cfg) c fRecv (s.maySelect d b cfg) (.select d b cfg c.set) s s := by
  refine waitsAs_of_issue (fun _ => rfl) fun h => ?_
  simp only [h.checks, h.2, hi, Bool.false_eq_true, if_false]
end

/-! ### CLOSE and ENDINFO (R261, R262) -/

section
variable {c : Ctl} {d e : BitVec 6} {x : ChanRec} {n : Nat} {r : GReg} {s u : State}

/-- CLOSE of a send end of one of this device's records answers its counter, and sends its marker (R252). -/
theorem State.close_send (hx : s.endRecord r.bits = some x) (hr : endRecv r.bits = false) : s.close n r =
    (r.endst.setWidth 64, s.later (.closureMarkerArrival (endRec r.bits) (.marker (some r.endst)))) := by
  simp only [State.close, State.closeFuel, State.closeEnd, hr, Bool.false_and, Bool.false_eq_true, if_false,
    List.isEmpty_nil, if_true, hx, Bool.not_false, Option.getD_some]

theorem close_closes (hu : u = s.updCx fun x => x.setG e (GReg.data 0)) :
    let q := u.close s.core (s.gReg e)
    WaitsAs (.close c d e) c fFarLate
      (s.endCheck e none bitCLOSE = none ∧
        (endRecv (s.gReg e).bits && (s.endRecord (s.gReg e).bits).any fun x => x.keyed) = false ∧
        (s.leak d && d != e) = false) (.result q.2.ids)
      (q.2.reply s.core s.k [.g d (GReg.data q.1)] c.set [] 0 s.cx.pc) s := by
  refine waitsAs_of_issue (fun _ => rfl) ?_
  rintro ⟨he, hk, hl⟩
  subst hu
  cases hr : s.endRecord (s.gReg e).bits <;> rw [hr] at hk <;>
    simp only [Option.any_some, Option.any_none] at hk <;> simp only [he, hr, hk, hl, Bool.false_eq_true, if_false]

theorem endinfo_here (hx : s.endRecord (s.gReg e).bits = some x) :
    WaitsAs (.endinfo c d e) c fFarLate (s.endCheck e none bitUSE = none ∧ s.leak d = false) (.result s.ids)
      (s.reply s.core s.k [.g d (GReg.data (endInfo x s.core (s.gReg e)))] c.set [] 0 s.cx.pc) s := by
  refine waitsAs_of_issue (fun _ => rfl) ?_
  rintro ⟨he, hl⟩
  simp only [he, hl, hx, Bool.false_eq_true, if_false]

/-- Of another device's record, what is not here is a free value. -/
theorem endinfo_far (hx : s.endRecord (s.gReg e).bits = none) :
    WaitsAs (.endinfo c d e) c fFarLate (s.endCheck e none bitUSE = none ∧ s.leak d = false) (.result s.ids)
      (({ s with fresh := s.fresh + 1 } : State).reply s.core s.k
        [.g d (GReg.data (farInfo (s.gReg e) (Config.freeWord s.fresh)))] c.set [] 0 s.cx.pc) s := by
  refine waitsAs_of_issue (fun _ => rfl) ?_
  rintro ⟨he, hl⟩
  simp only [he, hl, hx, Bool.false_eq_true, if_false]
end

/-- Settles O49: each word by its body, under the conditions of its clause. -/
theorem channelWordsComplete : Obligations.ChannelWordsComplete := by
  unfold Obligations.ChannelWordsComplete
  intro c d e b qd cfg v rd carried s r recvs got free space
  refine ⟨fun k area va hk hr => ?opens, chan_full, ?sends, fun t res a hg => ?got, fun hg => ?absent,
    ⟨fun i => select_ready, select_waits⟩, ⟨close_closes rfl, fun x hx hr => State.close_send hx hr⟩,
    fun x => endinfo_here, fun hx => ⟨_, endinfo_far hx⟩⟩
  case opens =>
    intro u
    exact ⟨_, u.newRec s.me.dom cfg va area, chan_opens rfl hk hr, rfl, rfl, rfl, fun _ => State.ringPlace_of_ok,
      rfl, rfl, rfl, rfl, rfl, rfl, rfl, rfl, rfl, rfl, rfl⟩
  case sends =>
    intro may m sent
    exact ⟨send_completes rfl, fun n => send_carries rfl rfl⟩
  case got =>
    exact ⟨completesAs_of_issue (fun _ => rfl) fun hok => recvIssue_got hok hg,
      completesAs_of_issue (fun _ => rfl) fun hok => recvIssue_got hok hg⟩
  case absent =>
    exact ⟨waitsAs_of_issue (fun _ => rfl) fun hok => recvIssue_absent hok hg,
      completesAs_of_issue (fun _ => rfl) fun hok => recvIssue_absent hok hg⟩

end Sys2Proof.Machine

namespace Sys2Proof.Machine

/-! ## The steps at records, rings and inboxes (O51) -/

/-! ### A message at its record (R244, R246, R253) -/

section
variable {m : Msg} {x : ChanRec} {k : Nat} {s : State}

theorem recordMessageArrival_far (hd : m.device ≠ s.lodge.deviceId) : exec (.recordMessageArrival m) s = .next (s.sendFar m) :=
  if_pos hd

theorem recordMessageArrival_reaches (hd : m.device = s.lodge.deviceId) (hx : s.recAt m.record = some x) :
    exec (.recordMessageArrival m) s = .next (s.reachRec m.record x m) := by
  refine (if_neg (not_not.2 hd)).trans ?_
  rw [hx]

theorem State.recWaits_iff : s.recWaits x m = true ↔ s.holdersReachable x = false ∨
    (x.stuckGang.isSome = true ∧ x.stuckGang = msgGang m) ∨ x.freeRoom < (if m.seq = x.accept then 1 else 2) := by
  simp only [State.recWaits, Bool.or_eq_true, Bool.and_eq_true, Bool.not_eq_true', beq_iff_eq, decide_eq_true_eq, or_assoc]

section
variable (hf : m.forwarded = true)
include hf

theorem State.reachRec_forwarded_closed (hc : x.rClosed = true) : s.reachRec k x m = (s.discard k m).retireRec k := by
  simp only [State.reachRec, hf, hc, if_true]

theorem State.reachRec_forwarded_full (hc : x.rClosed = false) (hr : x.freeRoom = 0) :
    s.reachRec k x m = s.later (.recordMessageArrival m) := by
  simp only [State.reachRec, hf, hc, hr, Bool.false_eq_true, if_true, if_false]

theorem State.reachRec_forwarded_open (hc : x.rClosed = false) (hr : x.freeRoom ≠ 0) :
    s.reachRec k x m = (s.forward k m).later (.ringSlotOffer k) := by
  simp only [State.reachRec, hf, hc, hr, Bool.false_eq_true, if_true, if_false]
end

section
variable (hf : m.forwarded = false)
include hf

theorem State.reachRec_sendWaits (hw : s.sendWaits m = true) : s.reachRec k x m = s.later (.recordMessageArrival m) := by
  simp only [State.reachRec, hf, hw, Bool.false_eq_true, if_true, if_false]

theorem State.reachRec_closed (hw : s.sendWaits m = false) (hc : x.rClosed = true) :
    s.reachRec k x m = ((s.settle m false).discard k m).retireRec k := by
  simp only [State.reachRec, hf, hw, hc, Bool.false_eq_true, if_true, if_false]

theorem State.reachRec_recWaits (hw : s.sendWaits m = false) (hc : x.rClosed = false) (hr : s.recWaits x m = true) :
    s.reachRec k x m = s.later (.recordMessageArrival m) := by
  simp only [State.reachRec, hf, hw, hc, hr, Bool.false_eq_true, if_true, if_false]

theorem State.reachRec_inSequence (hw : s.sendWaits m = false) (hc : x.rClosed = false) (hr : s.recWaits x m = false)
    (hq : m.seq = x.accept) : s.reachRec k x m = State.acceptRing x.ring.length (s.accept k x m) k := by
  simp only [State.reachRec, hf, hw, hc, hr, hq, Bool.false_eq_true, if_false, ne_eq, not_true]

theorem State.reachRec_early (hw : s.sendWaits m = false) (hc : x.rClosed = false) (hr : s.recWaits x m = false)
    (hq : m.seq ≠ x.accept) : s.reachRec k x m = s.ringPut k false m := by
  simp only [State.reachRec, hf, hw, hc, hr, Bool.false_eq_true, if_false, if_pos hq]
end
end

/-! ### A message at an inbox (R242, R245, R249) -/

section
variable {m : Msg} {n : Nat} {e : Nat × GReg} {s : State}

theorem farLoc_of_core (hn : n < 4096) : farLoc n = none := if_pos hn

theorem farLoc_of_peer : farLoc (4096 + n) = some (BitVec.ofNat 12 n) := by
  refine (if_neg (Nat.not_lt.2 (Nat.le_add_right 4096 n))).trans ?_
  exact congrArg (fun i => some (BitVec.ofNat 12 i)) (Nat.add_sub_cancel_left 4096 n)

/-- A peer device refuses a message. -/
theorem inboxMessageArrival_peer (hn : n < 4096) (hd : m.device = s.lodge.deviceId) :
    exec (.inboxMessageArrival (4096 + n) m) s = .next (s.refuseMsg (4096 + n) m) := by
  refine (if_pos ⟨by rw [farLoc_of_peer, Option.isSome_some], ?_⟩).trans (congrArg Host.Outcome.next (if_pos hd))
  show 4096 + n < 2 * 4096
  omega

/-- Nothing goes before the message that its end expects. -/
theorem range_ahead_of_expected (hq : m.seq = e.2.endst) : List.range (min (m.seq - e.2.endst).toNat 257) = [] := by
  rw [hq, BitVec.sub_self]
  rfl

section
variable (hn : n < 4096)
include hn

/-- At a core of this device the step is that of the core. -/
theorem inboxMessageArrival_of_core {f : State → State} {i : Instr}
    (hx : exec i s = if (farLoc n).isSome ∧ n < 2 * Config.coreCount then
      .next (if m.device = s.lodge.deviceId then s.refuseMsg n m else s) else onCore n s f) : exec i s = .next (f s) := by
  rw [hx, farLoc_of_core hn, if_neg (fun h => absurd h.1 (by decide)), onCore_goesOn s f hn]

theorem inboxMessageArrival_returns (he : (s.coreAt n).recvEnd m.device m.record = none) :
    exec (.inboxMessageArrival n m) s = .next (s.returnMsg n m) := by
  refine (inboxMessageArrival_of_core hn rfl).trans ?_
  simp only [he]

section
variable (he : (s.coreAt n).recvEnd m.device m.record = some e) (hq : m.seq = e.2.endst)
include he hq

theorem inboxMessageArrival_taken (hl : (s.coreAt n).inbox.length < Config.inboxSlots) : exec (.inboxMessageArrival n m) s =
    .next ((s.updCore n fun c => { c with inbox := c.inbox ++ [m] }).wakeRecv n) := by
  refine (inboxMessageArrival_of_core hn rfl).trans ?_
  simp only [he, range_ahead_of_expected hq, List.any_nil, Bool.false_eq_true, if_false, if_neg (Nat.not_le.2 hl)]

theorem inboxMessageArrival_refused (hl : Config.inboxSlots ≤ (s.coreAt n).inbox.length) : exec (.inboxMessageArrival n m) s =
    .next (if m.device = s.lodge.deviceId then s.refuseMsg n m else s.tell (dieOf n) (s.coreAt n).dom m.device (.refused m)) := by
  refine (inboxMessageArrival_of_core hn rfl).trans ?_
  simp only [he, range_ahead_of_expected hq, List.any_nil, Bool.false_eq_true, if_false, if_pos hl]
end
end
end

/-! ### A slot offered to a record (R245, R249, R270) -/

section
variable {k n : Nat} {x : ChanRec} {e : RingEntry} {s : State}

/-- A peer's offer gives the record one more credit, and is then like any other. -/
theorem ringSlotOffer_peer (hk : k < farOffer) : exec (.ringSlotOffer (farOffer + k)) s =
    exec (.ringSlotOffer k) (s.updRec k fun r => { r with credits := r.credits.map fun n => n + 1 }) := by
  show execRingSlotOffer (farOffer + k) s = execRingSlotOffer k _
  simp only [execRingSlotOffer, Nat.add_mod_left, Nat.mod_eq_of_lt hk,
    if_neg (Nat.not_lt.2 (Nat.le_add_right farOffer k)), if_pos hk]

section
variable (hx : s.recAt k = some x) (hk : k < farOffer)
include hx hk

theorem ringSlotOffer_empty (he : s.nextEntry k x = none) : exec (.ringSlotOffer k) s = .next (s.retireRec k) := by
  show execRingSlotOffer k s = _
  simp only [execRingSlotOffer, Nat.mod_eq_of_lt hk, if_pos hk, hx, he]

theorem ringSlotOffer_delivers (he : s.nextEntry k x = some e) (hn : n < 4096)
    (hl : Tab.find x.rlocs e.msg.holder.toNat = some n) : exec (.ringSlotOffer k) s =
      .next (((s.putRec k (x.keepRing (x.ring.filter fun y => y.slot != e.slot))).now
        (.inboxMessageArrival n e.msg)).later (.ringSlotOffer k)) := by
  have hl' : Tab.find (x.keepRing (x.ring.filter fun y => y.slot != e.slot)).rlocs e.msg.holder.toNat = some n := hl
  show execRingSlotOffer k s = _
  simp only [execRingSlotOffer, Nat.mod_eq_of_lt hk, if_pos hk, hx, he, hl', farLoc_of_core hn]
end
end

/-! ### Ends that leave and arrive (R248, R249) -/

section
variable {k n ctx : Nat} {x : ChanRec} {m : Msg} {b : W128} {gen : W16} {counter : W32} {recv : Bool} {reg : BitVec 6} {v : GReg}
  {p : Reply} {s : State}

theorem State.updRec_of_recAt {f : ChanRec → ChanRec} (hx : s.recAt k = some x) : s.updRec k f = s.putRec k (f x) := by
  simp only [State.updRec, hx]

theorem State.endRecord_eq_some (hx : s.endRecord b = some x) : endDevice b = s.lodge.deviceId ∧ s.recAt (endRec b) = some x := by
  unfold State.endRecord at hx
  split at hx
  · exact ⟨‹_›, hx⟩
  · cases hx

theorem State.leave_send (hx : s.endRecord b = some x) (hb : endRecv b = false) : s.leave n b gen counter =
    s.putRec (endRec b) { x with sTransit := true, sendCounter := counter, sgen := gen } := by
  simp only [State.leave, State.noteLeave, hx, hb, Bool.false_and, Bool.false_eq_true, if_false,
    State.updRec_of_recAt (State.endRecord_eq_some hx).2]

theorem State.leave_recv (hx : s.endRecord b = some x) (hb : endRecv b = true) (hn : n < 4096) : s.leave n b gen counter =
    (s.putRec (endRec b) { x with rTransit := true, expected := counter, rgen := gen }).returnInbox n b := by
  have hn' : decide (n < Config.coreCount) = true := decide_eq_true hn
  simp only [State.leave, State.noteLeave, hx, hb, hn', Bool.true_and, if_true,
    State.updRec_of_recAt (State.endRecord_eq_some hx).2]

theorem not_beyond_peers (hn : n < 4096) : ¬ 2 * Config.coreCount ≤ n :=
  fun h => absurd (Nat.le_trans h (Nat.le_of_lt hn)) (by decide)

/-- A carried end of one of this device's records: the record notes that it leaves, and the message that carries it sets out. -/
theorem leaveNotice_here (hn : n < 4096) (hm : m.carried = some b) (hx : s.endRecord b = some x) :
    exec (.leaveNotice k recv gen counter n (some m)) s = .next (((s.leave n b gen counter).inject m).retireRec k) := by
  show execLeaveNotice k recv gen counter n (some m) s = _
  simp only [execLeaveNotice, if_neg (not_beyond_peers hn), hm, Option.getD_some,
    (State.endRecord_eq_some hx).1, ne_eq, not_true, false_and, if_false, if_true, farLoc_of_core hn]
  rfl

/-- An end that has reached a core's register gets the counter that the record kept for it. -/
theorem arrivalNotice_here (hn : n < 4096)
    (hp : s.replies.find? (fun r => r.core == n && r.ctx == ctx && r.arrive == some (k, recv) &&
      (r.res.findSome? (endTo reg)).isSome) = some p)
    (hres : p.res = [.g reg v]) (hv : v.isEnd = true) (hd : endDevice v.bits = s.lodge.deviceId) :
    let q := ({ s with replies := s.replies.filter fun x => x.id != p.id } : State).arriveAt n k recv
    exec (.arrivalNotice k recv { core := n, ctx := ctx } reg) s =
      .next ((q.2.landNow n ctx [.g reg { v with endst := q.1 }] 0 (some p.set)).retireRec k) := by
  have hend : List.findSome? (endTo reg) [.g reg v] = some v.bits := by
    simp only [List.findSome?_cons, endTo, hv, and_self, if_true]
  show execArrivalNotice k recv { core := n, ctx := ctx } reg s = _
  simp only [execArrivalNotice, if_neg (not_beyond_peers hn), farLoc_of_core hn, hp, hres, hend, hd, hv, if_true,
    List.map_cons, List.map_nil, and_self]
end

/-! ### Closure and ring writes that faulted (R246, R252, R253) -/

section
variable {k : Nat} {x : ChanRec} {s : State}

/-- The record of a channel whose send end has closed, with the count of its marker or that of the record (R252). -/
def ChanRec.sendClosed (x : ChanRec) (f : Option W32) : ChanRec :=
  { x with sClosed := true, sTransit := false, final := f.getD x.sendCounter }

section
variable (hx : s.recAt k = some x)
include hx

theorem closureMarkerArrival_receiver (device : BitVec 12) (count : Nat) :
    exec (.closureMarkerArrival k (.receiver device count)) s = .next (s.closeAway k device count) := by
  show execClosureMarkerArrival k _ s = _
  simp only [execClosureMarkerArrival, hx]

variable {f : Option W32}

theorem closureMarkerArrival_closed (hc : x.rClosed = true) : exec (.closureMarkerArrival k (.marker f)) s =
    .next ((s.putRec k (x.sendClosed f)).retireRec k) := by
  show execClosureMarkerArrival k _ s = _
  unfold execClosureMarkerArrival
  rw [hx]
  exact if_pos hc

theorem closureMarkerArrival_late (hc : x.rClosed = false)
    (hl : x.accept ≠ (x.sendClosed f).final ∨ x.mergeHold.isSome = true) : exec (.closureMarkerArrival k (.marker f)) s =
      .next ((s.putRec k (x.sendClosed f)).later (.closureMarkerArrival k (.marker (some (x.sendClosed f).final)))) := by
  show execClosureMarkerArrival k _ s = _
  unfold execClosureMarkerArrival
  rw [hx]
  exact (if_neg (ne_true_of_eq_false hc)).trans (if_pos hl)

theorem closureMarkerArrival_forwards (hc : x.rClosed = false)
    (hl : ¬ (x.accept ≠ (x.sendClosed f).final ∨ x.mergeHold.isSome = true)) : exec (.closureMarkerArrival k (.marker f)) s =
      .next ((s.putRec k (x.sendClosed f)).forwardMarker k (x.sendClosed f)) := by
  show execClosureMarkerArrival k _ s = _
  unfold execClosureMarkerArrival
  rw [hx]
  exact (if_neg (ne_true_of_eq_false hc)).trans (if_neg hl)

/-- The waiting ring writes of a record are made again, and what has arrived early is taken back in sequence. -/
def State.retryRing (s : State) (k : Nat) (x : ChanRec) : State :=
  State.acceptRing x.ring.length ((s.putRec k { x with stuck := [] }).ringPuts k x.stuck) k

theorem spillRetry_retries (hs : x.stuck ≠ []) : exec (.spillRetry k) s =
    .next (x.stuckGang.elim (s.retryRing k x) (s.retryRing k x).spillDone) := by
  have hs' : ¬ x.stuck.isEmpty = true := fun h => hs (List.isEmpty_iff.1 h)
  show execSpillRetry k s = _
  simp only [execSpillRetry, hx, if_neg hs']
  cases x.stuckGang <;> rfl
end
end

/-! ### The statement -/

/-- Settles O51: each step by the lemma of its case above. -/
theorem channelEventsComplete : Obligations.ChannelEventsComplete := by
  unfold Obligations.ChannelEventsComplete
  intro m n k x s hn
  refine ⟨?record, recordMessageArrival_far,
    fun e he hq => ⟨inboxMessageArrival_taken hn he hq, inboxMessageArrival_refused hn he hq⟩,
    inboxMessageArrival_peer hn, inboxMessageArrival_returns hn, ringSlotOffer_peer,
    fun hx hk => ⟨ringSlotOffer_empty hx hk, fun e he hl => ringSlotOffer_delivers hx hk he hn hl⟩, ?leave,
    fun p v reg recv ctx hp hres hv hd => arrivalNotice_here hn hp hres hv hd, ?closure, ?spill⟩
  case record =>
    intro hd hx put
    have hput : put (s.reachRec m.record x m) := recordMessageArrival_reaches hd hx
    refine ⟨fun hf => ⟨fun hw => ?_, fun hw hc => ?_, fun hw hc => ?_⟩,
      fun hf => ⟨fun hc => ?_, fun hc hr => ?_, fun hc hr => ?_⟩⟩
    · rwa [State.reachRec_sendWaits hf hw] at hput
    · rwa [State.reachRec_closed hf hw hc] at hput
    · intro waits
      have hwaits : s.recWaits x m = true ↔ waits := State.recWaits_iff
      refine ⟨fun hr => ?_, fun hr hq => ?_, fun hr hq => ?_⟩
      · rwa [State.reachRec_recWaits hf hw hc (hwaits.2 hr)] at hput
      · rwa [State.reachRec_inSequence hf hw hc (Bool.eq_false_iff.2 (mt hwaits.1 hr)) hq] at hput
      · rwa [State.reachRec_early hf hw hc (Bool.eq_false_iff.2 (mt hwaits.1 hr)) hq] at hput
    · rwa [State.reachRec_forwarded_closed hf hc] at hput
    · rwa [State.reachRec_forwarded_full hf hc hr] at hput
    · rwa [State.reachRec_forwarded_open hf hc hr] at hput
  case leave =>
    intro gen counter b hm hx
    refine ⟨fun hb => ?_, fun hb => ?_⟩
    · rw [leaveNotice_here hn hm hx, State.leave_send hx hb]
    · rw [leaveNotice_here hn hm hx, State.leave_recv hx hb hn]
  case closure =>
    intro hx
    refine ⟨closureMarkerArrival_receiver hx, fun f => ?_⟩
    intro x' t late go marked u again
    exact ⟨closureMarkerArrival_closed hx, closureMarkerArrival_late hx, closureMarkerArrival_forwards hx⟩
  case spill =>
    intro hx hs t
    rw [spillRetry_retries hx hs]
    cases x.stuckGang <;> rfl

end Sys2Proof.Machine

/-! ## The CAP class and what derived capabilities grant -/

namespace Sys2Proof.Machine

/-! ### The fields of a capability made from another (R350, R355, R356) -/

/-- Words that agree on a field agree on every field within it. -/
theorem extractLsb'_within {w l n l' n' : Nat} {x y : BitVec w} (h : x.extractLsb' l n = y.extractLsb' l n) (hl : l ≤ l')
    (hn : l' + n' ≤ l + n) : x.extractLsb' l' n' = y.extractLsb' l' n' := by
  ext i hi
  have hbit := congrArg (fun z : BitVec n => z.getLsbD (l' - l + i)) h
  have hin : l' - l + i < n := by omega
  have hpos : l + (l' - l + i) = l' + i := by omega
  simpa [hin, hpos] using hbit

/-- A capability's kind, permissions, base and length are those of two words that agree on their bits. -/
theorem capKind_congr {v b : W128} (h : v.extractLsb' 125 3 = b.extractLsb' 125 3) : capKind v = capKind b :=
  congrArg BitVec.toNat h
theorem capBase_congr {v b : W128} (h : v.extractLsb' 40 44 = b.extractLsb' 40 44) : capBase v = capBase b :=
  congrArg (fun x : BitVec 44 => 16 * x.toNat) h
theorem capCursor_congr {v b : W128} (h : v.extractLsb' 0 40 = b.extractLsb' 0 40) : capCursor v = capCursor b :=
  congrArg BitVec.toNat h

/-- The multiplier of a scale code (R350). -/
def scaleOf (sc : Nat) : Nat := 64 ^ sc

theorem capMul_eq (b : W128) : capMul b = scaleOf (b.extractLsb' 84 2).toNat := by
  have hlt := (b.extractLsb' 84 2).isLt
  show (match (b.extractLsb' 84 2).toNat with | 0 => 1 | 1 => 64 | 2 => 4096 | _ => 262144) = _
  generalize (b.extractLsb' 84 2).toNat = sc at hlt
  interval_cases sc <;> rfl

theorem capLength_eq (b : W128) : capLength b = (b.extractLsb' 86 34).toNat * scaleOf (b.extractLsb' 84 2).toNat :=
  congrArg (bits b 119 86 * ·) (capMul_eq b)

theorem capLength_congr {v b : W128} (h : v.extractLsb' 84 36 = b.extractLsb' 84 36) : capLength v = capLength b := by
  rw [capLength_eq, capLength_eq, extractLsb'_within (l' := 86) (n' := 34) h (by decide) (by decide),
    extractLsb'_within (l' := 84) (n' := 2) h (by decide) (by decide)]

/-- The scale that CBOUND picks states the length exactly, in a count of 34 bits (R355). -/
theorem pickScale_spec {len sc n : Nat} (h : pickScale len = some (sc, n)) : sc < 4 ∧ n < 2 ^ 34 ∧ n * scaleOf sc = len := by
  obtain ⟨⟨code, mul⟩, hp, hq⟩ := Option.map_eq_some_iff.1 h
  obtain ⟨rfl, rfl⟩ := Prod.mk.inj hq
  have hs := List.find?_some hp
  simp only [Bool.and_eq_true, beq_iff_eq, decide_eq_true_eq] at hs
  obtain ⟨hdvd, hlt⟩ := hs
  have hmul : code < 4 ∧ scaleOf code = mul := by
    have hmem := List.mem_of_find?_eq_some hp
    simp only [List.mem_cons, Prod.mk.injEq, List.not_mem_nil, or_false] at hmem
    rcases hmem with ⟨rfl, rfl⟩ | ⟨rfl, rfl⟩ | ⟨rfl, rfl⟩ | ⟨rfl, rfl⟩ <;> decide
  obtain ⟨hcode, rfl⟩ := hmul
  exact ⟨hcode, hlt, Nat.div_mul_cancel (Nat.dvd_of_mod_eq_zero hdvd)⟩

section
variable (b : W128) (n sc base cur : Nat)

theorem capMake_top : (capMake b n sc base cur).extractLsb' 120 8 = b.extractLsb' 120 8 := by
  ext i hi
  simp [capMake]
  grind
theorem capMake_count : (capMake b n sc base cur).extractLsb' 86 34 = BitVec.ofNat 34 n := by
  ext i hi
  simp [capMake]
  grind
theorem capMake_scale : (capMake b n sc base cur).extractLsb' 84 2 = BitVec.ofNat 2 sc := by
  ext i hi
  simp [capMake]
  grind
theorem capMake_base : (capMake b n sc base cur).extractLsb' 40 44 = BitVec.ofNat 44 base := by
  ext i hi
  simp [capMake]
  grind
end

/-- A new cursor leaves every field above it (R355). -/
theorem withCursor_high (b : W128) (c : BitVec 40) :
    ((b.extractLsb' 40 88 ++ c : W128)).extractLsb' 40 88 = b.extractLsb' 40 88 := by
  ext i hi
  simp
  grind

/-- A word in whose field at `l` only the bits of a mask are left. -/
theorem getLsbD_fieldUnder {w : Nat} (x : W128) (m : BitVec w) (l i : Nat) :
    (x &&& ~~~((~~~m).setWidth 128 <<< l)).getLsbD i =
      (x.getLsbD i && (decide (i < l) || decide (l + w ≤ i) || m.getLsbD (i - l))) := by
  simp
  grind

/-- The bits that CPERM leaves of a capability of kind 1 or 2: those of its mask among the permissions, all others (R356). -/
theorem permBits_window {b : W128} (h : capKind b = 1 ∨ capKind b = 2) (m : W64) (i : Nat) :
    (permBits b m).getLsbD i =
      (b.getLsbD i && (decide (i < 120) || decide (125 ≤ i) || ((m.setWidth 32).setWidth 5).getLsbD (i - 120))) := by
  refine Eq.trans ?_ (getLsbD_fieldUnder b ((m.setWidth 32).setWidth 5) 120 i)
  rcases h with h | h <;> simp only [permBits, h]

/-- The same for an end or a graph (R356). -/
theorem permBits_end {b : W128} (h : capKind b = 3 ∨ capKind b = 4) (m : W64) (i : Nat) :
    (permBits b m).getLsbD i =
      (b.getLsbD i && (decide (i < 122) || decide (125 ≤ i) || ((m.setWidth 32).setWidth 3).getLsbD (i - 122))) := by
  refine Eq.trans ?_ (getLsbD_fieldUnder b ((m.setWidth 32).setWidth 3) 122 i)
  rcases h with h | h <;> simp only [permBits, h]

/-- The services of a kind-5 capability under a mask (R356). -/
def servicesUnder (b : W128) (m : W64) : W32 := b.extractLsb' 64 32 &&& m.setWidth 32

/-- A word with one bit cleared. -/
theorem getLsbD_clear (x : W128) (k i : Nat) : (x &&& ~~~(1#128 <<< k)).getLsbD i = (x.getLsbD i && decide (i ≠ k)) := by
  simp [BitVec.getLsbD_one]
  grind

theorem permBits_entry {b : W128} (h : capKind b = 5) (m : W64) (i : Nat) :
    (permBits b m).getLsbD i = if 64 ≤ i ∧ i < 96 then (b.getLsbD i && m.getLsbD (i - 64))
      else if i = 124 then (b.getLsbD 124 && decide (servicesUnder b m ≠ 0)) else b.getLsbD i := by
  have hp : permBits b m = if servicesUnder b m = 0 then
        (b.extractLsb' 96 32 ++ servicesUnder b m ++ b.extractLsb' 0 64 : W128) &&& ~~~(1#128 <<< 124)
      else b.extractLsb' 96 32 ++ servicesUnder b m ++ b.extractLsb' 0 64 := by
    simp only [permBits, h]
    rfl
  have hv : (b.extractLsb' 96 32 ++ servicesUnder b m ++ b.extractLsb' 0 64 : W128).getLsbD i =
      if 64 ≤ i ∧ i < 96 then (b.getLsbD i && m.getLsbD (i - 64)) else b.getLsbD i := by
    simp [servicesUnder]
    grind
  rw [hp, apply_ite (fun x : W128 => x.getLsbD i), getLsbD_clear, hv]
  grind

theorem permBits_entry_rest {b : W128} (h : capKind b = 5) (m : W64) {i : Nat} (hs : i < 64 ∨ 96 ≤ i) (hc : i ≠ 124) :
    (permBits b m).getLsbD i = b.getLsbD i := by
  rw [permBits_entry h, if_neg (by omega), if_neg hc]

/-- Settles O34: the fields that each of the three words takes from its source, and the one that it makes new. -/
theorem derivedCapabilitiesGrantNoMore : Obligations.DerivedCapabilitiesGrantNoMore := by
  unfold Obligations.DerivedCapabilitiesGrantNoMore
  intro b len x m sc n
  refine ⟨fun hk => ?cpermEnd, fun hk => ?cpermEntry, fun hk => ⟨?cbound, ?cderive, ?cperm⟩⟩
  case cpermEnd =>
    refine ⟨?_, ?_, ?_⟩
    · ext i hi
      simp [permBits_end hk]
    · ext i hi
      simp [permBits_end hk, hi]
      grind
    · ext i hi
      simp [permBits_end hk, hi]
  case cpermEntry =>
    refine ⟨?_, ?_, ?_, ?_, permBits_entry hk m 124⟩ <;> ext i hi
    · simp only [BitVec.getElem_extractLsb']
      exact permBits_entry_rest hk m (by omega) (by omega)
    · simp [permBits_entry hk, show 64 + i < 96 by omega]
    · simp only [BitVec.getElem_extractLsb']
      exact permBits_entry_rest hk m (by omega) (by omega)
    · simp only [BitVec.getElem_extractLsb']
      exact permBits_entry_rest hk m (by omega) (by omega)
  case cbound =>
    intro nb hmod hlt hin hps v
    obtain ⟨hsc, hn, hlen⟩ := pickScale_spec hps
    have hbase : capBase v = nb := by
      have hfield : (v.extractLsb' 40 44).toNat = nb / 16 := by
        rw [capMake_base, BitVec.toNat_ofNat, Nat.mod_eq_of_lt (by omega)]
      show 16 * (v.extractLsb' 40 44).toNat = nb
      omega
    have hlength : capLength v = len := by
      rw [capLength_eq, capMake_count, capMake_scale, BitVec.toNat_ofNat, BitVec.toNat_ofNat, Nat.mod_eq_of_lt hn,
        Nat.mod_eq_of_lt hsc, hlen]
    refine ⟨?_, ?_, ?_, ?_, hlength⟩
    · exact capKind_congr (extractLsb'_within (capMake_top b n sc _ 0) (by decide) (by decide))
    · exact extractLsb'_within (capMake_top b n sc _ 0) (by decide) (by decide)
    · omega
    · omega
  case cderive =>
    have hv := withCursor_high b (BitVec.ofInt 40 x)
    exact ⟨capKind_congr (extractLsb'_within hv (by decide) (by decide)), extractLsb'_within hv (by decide) (by decide),
      capBase_congr (extractLsb'_within hv (by decide) (by decide)),
      capLength_congr (extractLsb'_within hv (by decide) (by decide))⟩
  case cperm =>
    have hlow : (permBits b m).extractLsb' 0 120 = b.extractLsb' 0 120 := by
      ext i hi
      simp [permBits_window hk]
      grind
    refine ⟨capKind_congr ?_, ?_, capBase_congr (extractLsb'_within hlow (by decide) (by decide)),
      capLength_congr (extractLsb'_within hlow (by decide) (by decide)),
      capCursor_congr (extractLsb'_within hlow (by decide) (by decide))⟩
    · ext i hi
      simp [permBits_window hk]
    · ext i hi
      simp [permBits_window hk]
      grind

/-! ### The words (R354 to R358) -/

/-- A word with a g destination whose body is done: its results are on their way, and the next word follows. -/
theorem exec_to_done {i : Instr} {c : Ctl} {d : BitVec 6} {s t : State} {body : State → Eff}
    (hx : ∀ u, exec i u = issue c (fTo d) u body) (hi : Issues c (fTo d) s = true) (hb : body s = .done t) :
    exec i s = .next (t.retire c s.linkAddr) :=
  exec_of_issues (e := .done t) hx hi hb

section
variable {s : State} {g : BitVec 6} {r : GReg}

/-- A new capability is written as any g result is, with the ENDLEAK check of its destination (R120). -/
theorem writeCap_new (s : State) (d : BitVec 6) (v : GReg) :
    writeCap s d false v = if s.leak d then leakTrap d else .done (s.landAfter 1 (.g d v) 0) := by
  simp [writeCap]

/-- What is no live end is copied, as any g result is written (R356, R358). -/
theorem moveCap_copy (d : BitVec 6) (v : GReg) (h : (s.gReg g).isEnd = false) :
    moveCap s d g v = if s.leak d then leakTrap d else .done (s.landAfter 1 (.g d v) 0) := by
  simp [moveCap, h]

/-- A live end moves: its old register becomes untagged zero (R356, R358). -/
theorem moveCap_moves (v : GReg) (h : (s.gReg g).isEnd = true) (hd : d ≠ g) (hl : s.leak d = false) :
    moveCap s d g v = .done ((s.landAfter 1 (.g g GReg.zero) 0).landAfter 1 (.g d v) 0) := by
  simp [moveCap, h, hd, hl]

/-- A live end that goes to its own register is changed in place (R356). -/
theorem moveCap_inPlace (v : GReg) (h : (s.gReg g).isEnd = true) : moveCap s g g v = .done (s.landAfter 1 (.g g v) 0) := by
  simp [moveCap, h]

theorem kindTrap_passes {ok : Nat → Bool} (ht : r.tag = true) (hk : ok (capKind r.bits) = true) : kindTrap r ok = none := by
  simp [kindTrap, ht, hk]

/-- The CAPTAG trap of a source that is no capability of the kinds a word takes, with its kind, 0 when it is untagged (R355). -/
theorem kindTrap_traps {ok : Nat → Bool} {val : W64} (hv : r.tag = false ∧ val = 0 ∨ r.tag = true ∧ val = BitVec.ofNat 64 (capKind r.bits))
    (hk : r.tag = true → ok (capKind r.bits) = false) : kindTrap r ok = some (.trap cCAPTAG val) := by
  rcases hv with ⟨ht, rfl⟩ | ⟨ht, rfl⟩
  · simp [kindTrap, ht]
  · simp [kindTrap, ht, hk ht]

/-- The answer of a word whose kind check passes is that of its own checks. -/
theorem getD_of_none {t : Option Eff} {e e' : Eff} (ht : t = none) (he : e = e') : t.getD e = e' := by
  rw [ht, Option.getD_none, he]
theorem getD_of_some {t : Option Eff} {e e' : Eff} (ht : t = some e') : t.getD e = e' := by
  rw [ht, Option.getD_some]

/-- CBOUND and CDERIVE take kinds 1 and 2 (R355). -/
def windowKind (k : Nat) : Bool := k == 1 || k == 2
/-- CPERM takes kinds 1 to 5 (R356). -/
def permKind (k : Nat) : Bool := decide (1 ≤ k) && decide (k ≤ 5)

/-- What CBOUND answers about a capability of its kinds (R355). -/
def cboundEff (s : State) (d : BitVec 6) (r : GReg) (len : Nat) : Eff :=
  let nb := capBase r.bits + capCursor r.bits
  if nb % 16 ≠ 0 then .trap cALIGN (BitVec.ofNat 64 nb)
  else if capLength r.bits < capCursor r.bits + len then .trap cCAPBND (BitVec.ofNat 64 nb)
  else
    match pickScale len with
    | none => .trap cCAPBND (BitVec.ofNat 64 len)
    | some (sc, n) => writeCap s d false { bits := capMake r.bits n sc (nb / 16) 0, tag := true, endst := 0 }

/-- What CDERIVE answers about a capability of its kinds, for its new cursor (R355). -/
def cderiveEff (s : State) (d : BitVec 6) (r : GReg) (x : Int) : Eff :=
  if x < 0 ∨ 2 ^ 40 ≤ x then .trap cCAPBND (BitVec.ofInt 64 x)
  else writeCap s d false { bits := r.bits.extractLsb' 40 88 ++ BitVec.ofInt 40 x, tag := true, endst := 0 }

theorem exec_cbound (c : Ctl) (d g : BitVec 6) (z : SrcZ) (s : State) : exec (.cbound c d g z) s = issue c (fTo d) s fun s =>
    (kindTrap (s.gReg g) windowKind).getD (cboundEff s d (s.gReg g) (s.srcZ z).toNat) := by
  show execCbound c d g z s = _
  unfold execCbound
  congr 1
  funext t
  show (match kindTrap (t.gReg g) windowKind with
    | some e => e
    | none => cboundEff t d (t.gReg g) (t.srcZ z).toNat) = _
  cases kindTrap (t.gReg g) windowKind <;> rfl

theorem exec_cderive (c : Ctl) (d g : BitVec 6) (z : SrcZ) (s : State) : exec (.cderive c d g z) s = issue c (fTo d) s fun s =>
    (kindTrap (s.gReg g) windowKind).getD (cderiveEff s d (s.gReg g) ((capCursor (s.gReg g).bits : Int) + (s.srcZ z).toInt)) := by
  show execCderive c d g z s = _
  unfold execCderive
  congr 1
  funext t
  show (match kindTrap (t.gReg g) windowKind with
    | some e => e
    | none => cderiveEff t d (t.gReg g) ((capCursor (t.gReg g).bits : Int) + (t.srcZ z).toInt)) = _
  cases kindTrap (t.gReg g) windowKind <;> rfl

theorem exec_cperm (c : Ctl) (d g : BitVec 6) (z : SrcZ) (s : State) : exec (.cperm c d g z) s = issue c (fTo d) s fun s =>
    (kindTrap (s.gReg g) permKind).getD (moveCap s d g { s.gReg g with bits := permBits (s.gReg g).bits (s.srcZ z) }) := by
  show execCperm c d g z s = _
  unfold execCperm
  congr 1
  funext t
  show (match kindTrap (t.gReg g) permKind with
    | some e => e
    | none => moveCap t d g { t.gReg g with bits := permBits (t.gReg g).bits (t.srcZ z) }) = _
  cases kindTrap (t.gReg g) permKind <;> rfl

section
variable {len : Nat} (d : BitVec 6)

theorem cboundEff_align (h : (capBase r.bits + capCursor r.bits) % 16 ≠ 0) :
    cboundEff s d r len = .trap cALIGN (BitVec.ofNat 64 (capBase r.bits + capCursor r.bits)) := if_pos h

variable (hmod : (capBase r.bits + capCursor r.bits) % 16 = 0)
include hmod

theorem cboundEff_bound (h : capLength r.bits < capCursor r.bits + len) :
    cboundEff s d r len = .trap cCAPBND (BitVec.ofNat 64 (capBase r.bits + capCursor r.bits)) := by
  simp only [cboundEff, if_neg (not_not.2 hmod), if_pos h]

theorem cboundEff_length (h : capCursor r.bits + len ≤ capLength r.bits) (hp : pickScale len = none) :
    cboundEff s d r len = .trap cCAPBND (BitVec.ofNat 64 len) := by
  simp only [cboundEff, if_neg (not_not.2 hmod), if_neg (Nat.not_lt.2 h), hp]

theorem cboundEff_makes {sc n : Nat} (h : capCursor r.bits + len ≤ capLength r.bits) (hp : pickScale len = some (sc, n)) :
    cboundEff s d r len = if s.leak d then leakTrap d else .done (s.landAfter 1 (.g d
      { bits := capMake r.bits n sc ((capBase r.bits + capCursor r.bits) / 16) 0, tag := true, endst := 0 }) 0) := by
  simp only [cboundEff, if_neg (not_not.2 hmod), if_neg (Nat.not_lt.2 h), hp, writeCap_new]
end

theorem cderiveEff_makes {x : Int} (d : BitVec 6) (h0 : 0 ≤ x) (h1 : x < 2 ^ 40) :
    cderiveEff s d r x = if s.leak d then leakTrap d else .done (s.landAfter 1 (.g d
      { bits := r.bits.extractLsb' 40 88 ++ BitVec.ofInt 40 x, tag := true, endst := 0 }) 0) :=
  (if_neg (by omega)).trans (writeCap_new s d _)
end

/-- Settles O33: each word's kind check, the checks of its new fields in their order, and what it writes or moves. -/
theorem capabilityWordsComplete : Obligations.CapabilityWordsComplete := by
  unfold Obligations.CapabilityWordsComplete
  intro c d g qd sl k z s r len nb x
  have window : r.tag = true → (capKind r.bits = 1 ∨ capKind r.bits = 2) → kindTrap r windowKind = none :=
    fun ht hk => kindTrap_passes ht (by simpa [windowKind] using hk)
  have no_window : (capKind r.bits ≠ 1 ∧ capKind r.bits ≠ 2) → windowKind (capKind r.bits) = false := by simp [windowKind]
  have no_perm : (capKind r.bits < 1 ∨ 5 < capKind r.bits) → permKind (capKind r.bits) = false := by
    rw [permKind, Bool.and_eq_false_iff, decide_eq_false_iff_not, decide_eq_false_iff_not]
    omega
  have of_end : r.isEnd = true → kindTrap r permKind = none := by
    intro he
    simp only [GReg.isEnd, Bool.and_eq_true, beq_iff_eq] at he
    exact kindTrap_passes he.1 (by rw [he.2]; rfl)
  refine ⟨fun sc n ht hk hmod _ hin hps => ?cbound, fun ht hk h0 h1 => ?cderive, fun ht h1 h5 he => ?cperm, ?cget, ?ctest, ?cnull,
    fun he hd => ?cmove, fun he hd hl hi => ⟨?cmoveEnd, ?cpermEnd⟩, fun hi => ⟨?cmoveSelf, fun he => ?cpermSelf⟩,
    fun hi => ⟨fun val hv hk => ⟨?cboundTag, ?cderiveTag, fun hp => ?cpermTag⟩,
      fun ht hk => ⟨fun hmod => ?align, fun hmod hin => ?bound, fun hmod hin hps => ?length, fun hx => ?cursor⟩⟩⟩
  case cbound => exact completesG_of_issue (exec_cbound c d g z) (getD_of_none (window ht hk) (cboundEff_makes d hmod hin hps))
  case cderive => exact completesG_of_issue (exec_cderive c d g z) (getD_of_none (window ht hk) (cderiveEff_makes d h0 h1))
  case cperm =>
    have hk : kindTrap r permKind = none := kindTrap_passes ht (by simp [permKind, h1, h5])
    exact completesG_of_issue (exec_cperm c d g z) (getD_of_none hk (moveCap_copy d _ he))
  case cget => exact completesG_of_issue (fun _ => rfl) rfl
  case ctest => exact completesQ_of_issue (fun _ => rfl) rfl
  case cnull => exact completesG_of_issue (fun _ => rfl) (writeCap_new s d GReg.zero)
  case cmove => exact completesG_of_issue (fun _ => rfl) ((if_neg hd).trans (moveCap_copy d r he))
  case cmoveEnd => exact exec_to_done (fun _ => rfl) hi ((if_neg hd).trans (moveCap_moves r he hd hl))
  case cpermEnd => exact exec_to_done (exec_cperm c d g z) hi (getD_of_none (of_end he) (moveCap_moves _ he hd hl))
  case cmoveSelf => exact exec_to_done (fun _ => rfl) hi (if_pos rfl)
  case cpermSelf => exact exec_to_done (exec_cperm c g g z) hi (getD_of_none (of_end he) (moveCap_inPlace _ he))
  case cboundTag => exact exec_traps (exec_cbound c d g z) hi (getD_of_some (kindTrap_traps hv fun ht => no_window (hk ht)))
  case cderiveTag => exact exec_traps (exec_cderive c d g z) hi (getD_of_some (kindTrap_traps hv fun ht => no_window (hk ht)))
  case cpermTag => exact exec_traps (exec_cperm c d g z) hi (getD_of_some (kindTrap_traps hv fun ht => no_perm (hp ht)))
  case align => exact exec_traps (exec_cbound c d g z) hi (getD_of_none (window ht hk) (cboundEff_align d hmod))
  case bound => exact exec_traps (exec_cbound c d g z) hi (getD_of_none (window ht hk) (cboundEff_bound d hmod hin))
  case length => exact exec_traps (exec_cbound c d g z) hi (getD_of_none (window ht hk) (cboundEff_length d hmod hin hps))
  case cursor => exact exec_traps (exec_cderive c d g z) hi (getD_of_none (window ht hk) (if_pos hx))

end Sys2Proof.Machine

/-! ## Traps, the return from them, and the memory of the reset state -/

namespace Sys2Proof.Machine

/-- Settles O7: memory lists nothing after a reset. -/
theorem resetMemoryIsCanonical : Obligations.ResetMemoryIsCanonical := by
  unfold Obligations.ResetMemoryIsCanonical memOk
  decide

/-! ### The fault exit of S (R391) -/

/-- Every context of a table is stopped for good after a fault exit has begun. -/
theorem Ctx.halted_not_ready (x : Ctx) : x.halted.run ≠ .ready := by
  unfold Ctx.halted
  split
  · next h => rcases h with h | h <;> simp [h]
  · exact nofun

/-- What a lookup answers in a table whose values have been changed. -/
theorem Tab.get_map {α : Type} (d : α) (f : α → α) (t : Tab α) (k : Nat) :
    Tab.get d (t.map fun p => (p.1, f p.2)) k = ((Tab.find t k).map f).getD d := by
  induction t with
  | nil => rfl
  | cons p r ih =>
    obtain ⟨a, v⟩ := p
    simp only [Tab.get, List.map_cons, Tab.find] at ih ⊢
    split
    · rfl
    · exact ih

/-- A core whose process has begun a fault exit. -/
def Core.faulted (c : Core) (cause : BitVec 8) : Core :=
  { c with
    land := c.land.filter fun l => l.res.bringsEnd
    cur := none
    ctxs := c.ctxs.map fun p => (p.1, p.2.halted)
    proc := { c.proc with faultExit := some (c.proc.faultExit.getD cause) } }

theorem State.coreAt_faultExit (s : State) (n : Nat) (cause : BitVec 8) :
    (s.faultExit n cause).coreAt n = (s.coreAt n).faulted cause :=
  State.coreAt_updCore_same s n fun c => c.faulted cause

theorem Core.faulted_not_ready (c : Core) (cause : BitVec 8) (k : Nat) : ((c.faulted cause).ctx k).run ≠ .ready := by
  rw [Core.ctx, Core.faulted, Tab.get_map]
  cases Tab.find c.ctxs k with
  | none => exact nofun
  | some x => exact x.halted_not_ready

theorem State.takeTrap_zero (s : State) (n : Nat) (t : Trap) (ip : W64) : s.takeTrap n 0 t ip = s.faultExit n t.cause := rfl

/-- Settles O17, from what a fault exit makes of its core. -/
theorem trapOfSupervisorIsAFaultExit : Obligations.TrapOfSupervisorIsAFaultExit := by
  unfold Obligations.TrapOfSupervisorIsAFaultExit
  intro s n t ip u
  have hu : u = s.faultExit n t.cause := State.takeTrap_zero s n t ip
  have hcore := State.coreAt_faultExit s n t.cause
  rw [hu]
  refine ⟨?_, ?_, ?_, ?_, fun k => ?_, List.mem_append_right _ (List.mem_singleton_self _), rfl⟩
  · rw [hcore]
    rfl
  · rw [hcore]
    rfl
  · rw [hcore]
    rfl
  · rw [hcore]
    rfl
  · rw [State.ctxAt, hcore]
    exact Core.faulted_not_ready _ _ k

/-! ### A parked context -/

/-- A parked context's record holds its trap; no event of its core wakes it (R388, R389). -/
theorem State.ctxAt_park_same (s : State) (n k : Nat) (t : Trap) (ip : W64) : (s.park n k t ip).ctxAt n k =
    { s.ctxAt n k with run := .parked, trap := { cause := t.cause, val := t.val, ip := ip }, pc := ip, branch := none } := by
  have h1 : ((s.joinPo n k 0).updCtx n k fun x =>
      { x with run := .parked, trap := { cause := t.cause, val := t.val, ip := ip }, pc := ip, branch := none }).ctxAt n k =
        { s.ctxAt n k with run := .parked, trap := { cause := t.cause, val := t.val, ip := ip }, pc := ip, branch := none } := by
    rw [State.ctxAt_updCtx_same, State.ctxAt_joinPo]
  have hdeaf : ({ s.ctxAt n k with
      run := .parked, trap := { cause := t.cause, val := t.val, ip := ip }, pc := ip, branch := none } : Ctx).deaf :=
    ⟨nofun, fun _ _ _ => nofun⟩
  have hraise := fun e => (State.ctxAt_raise (m := n) (e := e) (h1 ▸ hdeaf)).trans h1
  simp only [State.park, apply_ite (fun u : State => u.ctxAt n k), State.ctxAt_switch, hraise, ite_self]

/-! ### TRAP (R405) -/

/-- An operand that is a number of six bits has nothing above them. -/
theorem smallN_six_of_high {o : BitVec 16} (h : o.extractLsb' 6 6 ≠ 0) : smallN 6 o = none := by
  have hbig : ¬ (o.extractLsb' 0 12).toNat < 2 ^ 6 := by
    intro hlt
    apply h
    apply BitVec.eq_of_toNat_eq
    simp only [BitVec.extractLsb'_toNat, Nat.shiftRight_eq_div_pow, BitVec.ofNat_eq_ofNat, BitVec.toNat_ofNat] at hlt ⊢
    omega
  unfold smallN opSmall
  split
  · next v hv =>
    split at hv
    · obtain rfl := Option.some.inj hv
      exact if_neg hbig
    · exact absurd hv nofun
  · rfl

/-- A field of the word's X operand. -/
theorem fieldsOf_x_code (w : BitVec 96) : (fieldsOf w).x.extractLsb' 6 6 = w.extractLsb' 54 6 := by
  ext i hi
  have h : 6 + i < 16 := by omega
  simp [fieldsOf, h, ← Nat.add_assoc]

theorem parse_trap_of_high {f : Fields} (hc : f.cls = 0) (hm : f.minor = 1) (hx : f.x.extractLsb' 6 6 ≠ 0) : parse f = none := by
  rw [parse_sys hc, parseSys, hm]
  show (smallN 6 f.x >>= _) = none
  rw [smallN_six_of_high hx]
  rfl

/-- Settles O20: the word traps by its own body, and the trap is taken as every trap of its context. -/
theorem trapWordTraps : Obligations.TrapWordTraps := by
  unfold Obligations.TrapWordTraps
  refine ⟨fun c code v s hi => ?_, fun s t ip h0 _ hu => ?_, fun s t ip hk hf => ?_, fun w i hc hm hx hd => ?_⟩
  · refine (exec_traps (fun _ => rfl) hi rfl).trans ?_
    cases v <;> rfl
  · have hpark : s.takeTrap s.core s.k t ip = s.park s.core s.k t ip := by
      rw [State.takeTrap, if_neg (Nat.ne_of_gt h0), if_neg]
      rintro ⟨-, hup⟩
      rw [State.me] at hu
      rw [hu] at hup
      exact absurd hup nofun
    intro u
    have hu : u.ctxAt s.core s.k = _ := hpark ▸ State.ctxAt_park_same s s.core s.k t ip
    exact ⟨congrArg Ctx.run hu, congrArg Ctx.trap hu⟩
  · rw [hk, State.takeTrap_zero, State.coreAt_faultExit]
    exact congrArg (fun o : Option (BitVec 8) => some (o.getD t.cause)) hf
  · obtain ⟨-, -, hp, -⟩ := decodeWord_ok hd
    rw [parse_trap_of_high hc hm (fieldsOf_x_code w ▸ hx)] at hp
    exact absurd hp nofun

/-! ### ERET (R406) -/

/-- The parked context as it goes on: its watchdog and its retry latch are cleared (R389, R406). -/
def Ctx.unparked (x : Ctx) (cyc : Nat) (addr : W64) : Ctx :=
  { x with pc := addr, run := .ready, wd := 0, notBefore := max x.notBefore (cyc + 1), latch := { x.latch with valid := false } }

/-- Context `k` leaves its park, before any event of its gang: its bit of `evs` is cleared, and it was the last focus (R389). -/
def State.leftPark (s : State) (n k : Nat) (addr : W64) : State :=
  ((s.joinPo n 0 k).updCore n fun c => c.updCtx k fun x => x.unparked s.cyc addr).updCore n
    fun c => { c with evs := c.evs &&& ~~~(1#32 <<< k), focusLast := k }

theorem State.unpark_eq (s : State) (n k : Nat) (addr : W64) : s.unpark n k addr = (s.leftPark n k addr).takeEvent n k := rfl

theorem State.coreAt_joinPo_keeps {α : Type} (p : Core → α) (hp : ∀ (c : Core) l, p { c with storeq := l } = p c)
    (s : State) (n i j m : Nat) : p ((s.joinPo n i j).coreAt m) = p (s.coreAt m) := by
  rw [State.joinPo, State.flow_coreAt]
  exact State.coreAt_updCore_keeps (f := fun c => { c with storeq := c.storeq.map fun o => { o with po := joined i j o.po } }) p
    (hp _ _) m

theorem State.coreAt_leftPark (s : State) (n k : Nat) (addr : W64) : (s.leftPark n k addr).coreAt n =
    { ((s.joinPo n 0 k).coreAt n).updCtx k (fun x => x.unparked s.cyc addr) with
      evs := ((s.joinPo n 0 k).coreAt n).evs &&& ~~~(1#32 <<< k), focusLast := k } := by
  rw [State.leftPark, State.coreAt_updCore_same, State.coreAt_updCore_same]
  rfl

theorem State.ctxAt_leftPark_same (s : State) (n k : Nat) (addr : W64) :
    (s.leftPark n k addr).ctxAt n k = (s.ctxAt n k).unparked s.cyc addr := by
  rw [State.ctxAt, State.coreAt_leftPark]
  refine (Core.ctx_updCtx_same ((s.joinPo n 0 k).coreAt n) k fun x => x.unparked s.cyc addr).trans ?_
  exact congrArg (fun x : Ctx => x.unparked s.cyc addr) (State.ctxAt_joinPo s n 0 k n k)

theorem State.ctxAt_leftPark_ne (s : State) (n : Nat) {j k : Nat} (addr : W64) (h : j ≠ k) :
    (s.leftPark n k addr).ctxAt n j = s.ctxAt n j := by
  rw [State.ctxAt, State.coreAt_leftPark]
  exact (Core.ctx_updCtx_ne ((s.joinPo n 0 k).coreAt n) (fun x => x.unparked s.cyc addr) h).trans (State.ctxAt_joinPo s n 0 k n j)

/-- With no event of the gang pending, the context goes on (R397). -/
theorem State.unpark_of_no_event {s : State} {n k : Nat} (he : (s.ctxAt n k).gangEvents = []) (addr : W64) :
    s.unpark n k addr = s.leftPark n k addr := by
  have hg : ((s.leftPark n k addr).ctxAt n k).gangEvents = [] := by
    rw [State.ctxAt_leftPark_same]
    exact he
  rw [State.unpark_eq, State.takeEvent, hg]
  split <;> simp_all

section
variable {s : State} {c : Ctl} {qd : BitVec 3} {k : Nat} (hk : s.k = 0) (hp : (s.me.ctx k).run = .parked)
include hk hp

/-- Mode 0 of ERET: not where the latch holds an operation that is unsettled, sent or done (R395, R406). -/
theorem eretGo_retries : eretGo s c qd k 0 =
    let x := s.me.ctx k
    .done (if x.latch.valid && (x.latch.posted || x.latch.sent || x.latch.done) then s.landLate c.set (.q qd false)
      else ((s.unpark s.core k x.trap.ip).eretCause s.me.proc.gang x.trap.cause 0).landLate c.set (.q qd true)) := by
  simp only [eretGo, hk, hp]
  generalize (s.me.ctx k).latch.valid = v
  generalize (s.me.ctx k).latch.posted = po
  generalize (s.me.ctx k).latch.sent = se
  generalize (s.me.ctx k).latch.done = dn
  cases v <;> cases po <;> cases se <;> cases dn <;> simp

/-- Mode 1 of ERET: not where the latch holds an operation that is unsettled, or sent and not done (R395, R406). -/
theorem eretGo_skips : eretGo s c qd k 1 =
    let x := s.me.ctx k
    .done (if x.latch.valid && (x.latch.posted || (x.latch.sent && !x.latch.done)) then s.landLate c.set (.q qd false)
      else ((((s.settleHit s.core k x.trap.ip).unpark s.core k (s.nextPc s.core x.trap.ip)).eretCause s.me.proc.gang
        x.trap.cause 1).landLate c.set (.q qd true))) := by
  simp only [eretGo, hk, hp]
  generalize (s.me.ctx k).latch.valid = v
  generalize (s.me.ctx k).latch.posted = po
  generalize (s.me.ctx k).latch.sent = se
  generalize (s.me.ctx k).latch.done = dn
  cases v <;> cases po <;> cases se <;> cases dn <;> simp
end

theorem eretGo_unparked {s : State} {c : Ctl} {qd : BitVec 3} {k : Nat} (hk : s.k = 0) (hp : (s.me.ctx k).run ≠ .parked) (mode : Nat) :
    eretGo s c qd k mode = .done (s.landLate c.set (.q qd false)) := by
  simp [eretGo, hk, hp]

/-- Settles O18: the three modes by what each answers about a parked context, and what leaving a park changes. -/
theorem eretReturns : Obligations.EretReturns := by
  unfold Obligations.EretReturns
  refine ⟨?words, ?leaving⟩
  case words =>
    intro c qd ctx s x l no hi hk
    refine ⟨fun hp => ⟨?retry, ?skip, ?exit⟩, fun hp => ⟨?noRetry, ?noSkip, ?noExit⟩, rfl⟩
    case retry =>
      rw [exec_of_issues (fun _ => rfl) hi (eretGo_retries hk hp)]
      dsimp only
      split <;> rfl
    case skip =>
      rw [exec_of_issues (fun _ => rfl) hi (eretGo_skips hk hp)]
      dsimp only
      split <;> rfl
    case exit =>
      refine exec_of_issues (fun _ => rfl) hi ?_
      simp only [hk, ne_eq, not_true_eq_false, if_false]
      exact if_neg (not_not.2 hp)
    case noRetry => exact exec_of_issues (fun _ => rfl) hi (eretGo_unparked hk hp 0)
    case noSkip => exact exec_of_issues (fun _ => rfl) hi (eretGo_unparked hk hp 1)
    case noExit =>
      refine exec_of_issues (fun _ => rfl) hi ?_
      simp only [hk, ne_eq, not_true_eq_false, if_false]
      exact if_pos hp
  case leaving =>
    intro s n k a he u
    have hu : u = s.leftPark n k a := State.unpark_of_no_event he a
    have hx : u.ctxAt n k = (s.ctxAt n k).unparked s.cyc a := hu ▸ State.ctxAt_leftPark_same s n k a
    rw [hx]
    refine ⟨rfl, rfl, rfl, rfl, rfl, rfl, rfl, rfl, rfl, ?_, ?_, fun j hj => hu ▸ State.ctxAt_leftPark_ne s n a hj, ?_⟩
    · rw [hu, State.coreAt_leftPark]
      exact congrArg (· &&& ~~~(1#32 <<< k)) (State.coreAt_joinPo_keeps Core.evs (fun _ _ => rfl) s n 0 k n)
    · rw [hu, State.coreAt_leftPark]
    · rw [hu, State.leftPark, State.updCore_mem, State.updCore_mem, State.joinPo_mem]

end Sys2Proof.Machine

/-! ## Boot and training (R363, R372 to R384) -/

namespace Sys2Proof.Machine

/-! ### Power-up, reset and a missed bound -/

/-- What a missed bound makes of the state, by where the boot stands (R384). -/
def State.missedBound (s : State) : Boot → State
  | .step 3 => s.halt 0x11
  | .step 4 => s.halt (if s.lodge.blob.isNone then 0x12 else 0x13)
  | .step 5 => s.halt 0x15
  | .step 6 => s.halt 0x14
  | .step 7 => s.halt 0x26
  | .step _ | .ready | .halted _ => s

theorem bootStepTimeout_at {s : State} {b : Boot} (h : s.lodge.boot = b) : exec .bootStepTimeout s = .next (s.missedBound b) := by
  change execBootStepTimeout s = _
  rw [execBootStepTimeout, h]
  split <;> simp_all [State.missedBound]

theorem State.missedBound_idle (s : State) {b : Boot} (h : ∀ n, b = .step n → n < 3 ∨ 7 < n) : s.missedBound b = s := by
  unfold State.missedBound
  split
  · exact absurd (h 3 rfl) (by decide)
  · exact absurd (h 4 rfl) (by decide)
  · exact absurd (h 5 rfl) (by decide)
  · exact absurd (h 6 rfl) (by decide)
  · exact absurd (h 7 rfl) (by decide)
  all_goals rfl

/-! ### Memory controllers (R380, R381) -/

theorem exec_of_onMc {i : Instr} {j : BitVec 4} {s : State} {code : Nat} (hx : ∀ u, exec i u = onMc j u code) (hj : j.toNat < 12) :
    exec i s = .next (s.mcStart j.toNat code) := by
  rw [hx, onMc, if_neg (Nat.not_le.2 hj)]

theorem State.mcAt_updMc_same (s : State) (j : Nat) (f : Mc → Mc) : (s.updMc j f).mcAt j = f (s.mcAt j) := by
  simp [State.mcAt, State.updMc]

/-- A controller takes no command while the Lodge does not run or a step of it is under way (R380). -/
theorem State.mcStart_refused {s : State} {j : Nat} (h : s.controls = false ∨ (s.mcAt j).busy = true) (code : Nat) :
    s.mcStart j code = s := by
  refine if_pos ?_
  rcases h with h | h <;> simp [h]

/-- A controller under a command that it has taken (R380). -/
def Mc.commanded (m : Mc) (code : Nat) : Mc := { m with cmd := BitVec.ofNat 4 code, busy := true, step := BitVec.ofNat 4 code }

theorem State.mcStart_starts {s : State} {j : Nat} (hc : s.controls = true) (hb : (s.mcAt j).busy = false) (code : Nat) :
    (s.mcStart j code).mcAt j = (s.mcAt j).commanded code := by
  have hno : ¬ (!s.controls || (s.mcAt j).busy) = true := by simp [hc, hb]
  rw [State.mcStart, if_neg hno]
  exact State.mcAt_updMc_same s j fun m => m.commanded code

/-- The outcome of a controller's step, as the controller takes it over (R381). -/
def State.mcTakes (s : State) (j : Nat) (fail : Bool) (lanes spares : BitVec 8) : State :=
  let code := (s.mcAt j).step.toNat
  let t := s.updMc j fun m => { m with
    busy := false, fail := fail, repaired := if code = 6 then lanes else m.repaired, spares := if code = 6 then spares else m.spares,
    initialised := if code = 7 then !fail else m.initialised, enabled := if code = 8 then !fail else m.enabled }
  if code = 7 ∧ fail = false then t.clearStack j else t

section
variable {mc : BitVec 4} {fail : Bool} {lanes spares : BitVec 8} {s : State} (hj : mc.toNat < 12)
include hj

theorem mcStepDone_idle (hb : (s.mcAt mc.toNat).busy = false) : exec (.mcStepDone mc fail lanes spares) s = .next s := by
  change execMcStepDone mc fail lanes spares s = _
  simp only [execMcStepDone, if_neg (Nat.not_le.2 hj), hb]
  rfl

theorem mcStepDone_busy (hb : (s.mcAt mc.toNat).busy = true) : exec (.mcStepDone mc fail lanes spares) s = .next
    (let t := s.mcTakes mc.toNat fail lanes spares
     if t.lodge.boot = .step 7 then t.mcNext mc.toNat fail else t) := by
  change execMcStepDone mc fail lanes spares s = _
  simp only [execMcStepDone, if_neg (Nat.not_le.2 hj), hb]
  rfl
end

/-! ### Ports (R382, R383) -/

theorem exec_of_onPort {i : Instr} {p : BitVec 5} {s t : State} {f : State → State} (hx : ∀ u, exec i u = onPort p u f)
    (hp : p.toNat < 18) (ht : f s = t) : exec i s = .next t := by
  rw [hx, onPort, if_neg (Nat.not_le.2 hp), ht]

theorem State.portAt_updPort_same (s : State) (p : Nat) (f : Port → Port) : (s.updPort p f).portAt p = f (s.portAt p) := by
  simp [State.portAt, State.updPort]

/-- A port under a command that it has taken; the first code 1 since a code 15 sets its mode (R382). -/
def Port.commanded (x : Port) (code : Nat) (cxl : Bool) : Port :=
  let first := decide (code = 1) && !x.modeSet
  { x with cmd := BitVec.ofNat 4 code, busy := true, cxl := if first then cxl else x.cxl, modeSet := x.modeSet || first }

section
variable {s : State} {p : Nat} {cxl : Bool}

theorem State.portStart_refused (h : s.controls = false ∨ (s.portAt p).busy = true) (code : Nat) :
    s.portStart p code cxl = s := by
  refine if_pos ?_
  rcases h with h | h <;> simp [h]

theorem State.portStart_starts (hc : s.controls = true) (hb : (s.portAt p).busy = false) (code : Nat) :
    (s.portStart p code cxl).portAt p = (s.portAt p).commanded code cxl := by
  have hno : ¬ (!s.controls || (s.portAt p).busy) = true := by simp [hc, hb]
  rw [State.portStart, if_neg hno]
  exact State.portAt_updPort_same s p fun x => x.commanded code cxl
end

/-- The outcome of a port's step, as the port takes it over, and what waited for it (R382). -/
def State.portTakes (s : State) (p : Nat) (fail : Bool) (lanes : BitVec 8) : State :=
  let code := (s.portAt p).cmd.toNat
  (({ s with fresh := s.fresh + 2 } : State).updPort p fun x => { x with
    busy := false, fail := fail, lanes := if code = 3 then lanes else x.lanes, width := if code = 3 then widthOf lanes else x.width,
    peer := if code ≠ 5 then x.peer else if fail then none else some ((Config.freeWord s.fresh).setWidth 12),
    secret := if code ≠ 5 then x.secret else if fail then none else some (Config.portSecret (s.fresh + 1)),
    up := if code = 6 then !fail else x.up }).flush p

section
variable {p : BitVec 5} {fail : Bool} {lanes : BitVec 8} {s : State} (hp : p.toNat < 18)
include hp

theorem portStepDone_idle (hb : (s.portAt p.toNat).busy = false) : exec (.portStepDone p fail lanes) s = .next s := by
  refine exec_of_onPort (fun _ => rfl) hp ?_
  simp only [hb]
  rfl

variable (hb : (s.portAt p.toNat).busy = true)
include hb

theorem portStepDone_busy : exec (.portStepDone p fail lanes) s = .next
    (let code := (s.portAt p.toNat).cmd.toNat
     let t := s.portTakes p.toNat fail lanes
     if !t.training p.toNat then t.checkPorts
     else if fail || (code == 3 && widthOf lanes == 0) then (t.portDrop p.toNat fail).checkPorts
     else if 1 ≤ code ∧ code ≤ 5 then t.portStart p.toNat (code + 1) false
     else t.checkPorts) := by
  refine exec_of_onPort (fun _ => rfl) hp ?_
  simp only [hb]
  rfl

theorem portStepDone_untrained (ht : (s.portTakes p.toNat fail lanes).training p.toNat = false) :
    exec (.portStepDone p fail lanes) s = .next (s.portTakes p.toNat fail lanes).checkPorts := by
  rw [portStepDone_busy hp hb]
  simp only [ht, Bool.not_false, if_true]

variable (ht : (s.portTakes p.toNat fail lanes).training p.toNat = true)
include ht

/-- A port whose step failed, or that has no lanes left, is down (R383). -/
theorem portStepDone_lost (hl : fail = true ∨ ((s.portAt p.toNat).cmd.toNat = 3 ∧ widthOf lanes = 0)) :
    exec (.portStepDone p fail lanes) s = .next ((s.portTakes p.toNat fail lanes).portDrop p.toNat fail).checkPorts := by
  rw [portStepDone_busy hp hb]
  have hlost : (fail || ((s.portAt p.toNat).cmd.toNat == 3 && widthOf lanes == 0)) = true := by simpa using hl
  simp only [ht, hlost, Bool.not_true, Bool.false_eq_true, if_false, if_true]

/-- Otherwise the Lodge writes the next command, after the last of which the port is up (R382). -/
theorem portStepDone_kept (hl : ¬ (fail = true ∨ ((s.portAt p.toNat).cmd.toNat = 3 ∧ widthOf lanes = 0))) :
    exec (.portStepDone p fail lanes) s = .next
      (if 1 ≤ (s.portAt p.toNat).cmd.toNat ∧ (s.portAt p.toNat).cmd.toNat ≤ 5 then
        (s.portTakes p.toNat fail lanes).portStart p.toNat ((s.portAt p.toNat).cmd.toNat + 1) false
      else (s.portTakes p.toNat fail lanes).checkPorts) := by
  rw [portStepDone_busy hp hb]
  have hkept : (fail || ((s.portAt p.toNat).cmd.toNat == 3 && widthOf lanes == 0)) = false := by
    rw [Bool.eq_false_iff]
    simpa using hl
  simp only [ht, hkept, Bool.not_true, Bool.false_eq_true, if_false]
end

/-! ### Control registers (R363, R380, R382) -/

theorem State.mcWrite_window (s : State) (j : Nat) (v : W64) {i : Nat} (hi : i < 64) : s.mcWrite j (0x400 + 8 * i) v = some s := by
  rw [State.mcWrite, if_neg (by omega), if_neg (by omega), if_pos (by omega)]

section
variable {s : State} {p : Nat} {v : W64}

theorem State.portWrite_starts (h1 : 1 ≤ v.toNat % 16) (h6 : v.toNat % 16 ≤ 6) :
    s.portWrite p 0 v = some (s.portStart p (v.toNat % 16) (v.getLsbD 5)) := by
  simp only [State.portWrite, if_true, h1, h6, and_self]

theorem State.portWrite_drops (h : v.toNat % 16 = 15) (hc : s.controls = true) :
    s.portWrite p 0 v = some ((s.portDrop p (s.portAt p).fail).checkPorts) := by
  simp [State.portWrite, h, hc]
end

/-- The state after a write to the control space, where its address names a register. -/
def State.controlWrite (s : State) (a : BitVec 52) (v : W64) : Option State :=
  let off := a.toNat - Config.controlBase
  if a.toNat < Config.controlBase then none
  else if off < 12 * 65536 then s.mcWrite (off / 65536) (off % 65536) v
  else if 0x1000000 ≤ off ∧ off < 0x1000000 + 18 * 65536 then s.portWrite ((off - 0x1000000) / 65536) (off % 65536) v
  else none

theorem controlRegisterWrite_eq (a : BitVec 52) (v : W64) (s : State) :
    exec (.controlRegisterWrite a v) s = ((s.controlWrite a v).map Host.Outcome.next).getD (.refused .controlSpace) := by
  change execControlRegisterWrite a v s = _
  rw [execControlRegisterWrite]
  generalize hr : s.controlWrite a v = r
  rw [State.controlWrite] at hr
  rw [hr]
  cases r <;> rfl

/-- Settles O60: each step by the lemma of its case, and each write by the register that its address names. -/
theorem bootEventsComplete : Obligations.BootEventsComplete := by
  unfold Obligations.BootEventsComplete
  intro f mc p fail cxl lanes spares a v s run halts
  have code_lt : ∀ code, code ≤ 8 → (BitVec.ofNat 4 code).toNat = code := fun code h => by
    rw [BitVec.toNat_ofNat, Nat.mod_eq_of_lt (by omega)]
  refine ⟨fun h => if_pos h, fun h => if_neg h, rfl, bootStepTimeout_at, bootStepTimeout_at, bootStepTimeout_at, bootStepTimeout_at,
    bootStepTimeout_at, fun h => (bootStepTimeout_at rfl).trans (congrArg _ (s.missedBound_idle h)),
    fun hj => ⟨exec_of_onMc (fun _ => rfl) hj, exec_of_onMc (fun _ => rfl) hj, exec_of_onMc (fun _ => rfl) hj,
      exec_of_onMc (fun _ => rfl) hj, exec_of_onMc (fun _ => rfl) hj, exec_of_onMc (fun _ => rfl) hj, exec_of_onMc (fun _ => rfl) hj,
      exec_of_onMc (fun _ => rfl) hj, mcStepDone_idle hj, mcStepDone_busy hj⟩,
    fun hc hb code _ h8 => ?mcStarts, State.mcStart_refused, fun hc hb code h1 h6 => ?portStarts, State.portStart_refused,
    fun hp => ⟨exec_of_onPort (fun _ => rfl) hp rfl, exec_of_onPort (fun _ => rfl) hp rfl, exec_of_onPort (fun _ => rfl) hp rfl,
      exec_of_onPort (fun _ => rfl) hp rfl, exec_of_onPort (fun _ => rfl) hp rfl, exec_of_onPort (fun _ => rfl) hp rfl,
      fun hc => exec_of_onPort (fun _ => rfl) hp (if_pos hc),
      fun hc => exec_of_onPort (fun _ => rfl) hp (if_neg (Bool.eq_false_iff.1 hc)), ?portStep,
      fun hl => exec_of_onPort (fun _ => rfl) hp (if_pos hl), fun hl => exec_of_onPort (fun _ => rfl) hp (if_neg hl)⟩,
    ?control⟩
  case mcStarts =>
    rw [State.mcStart_starts hc hb]
    exact ⟨rfl, code_lt code h8⟩
  case portStarts =>
    rw [State.portStart_starts hc hb]
    refine ⟨rfl, code_lt code (by omega), fun h hm => ?_, fun h => ?_⟩
    · simp [Port.commanded, h, hm]
    · rcases h with h | h <;> simp [Port.commanded, h]
  case portStep =>
    exact ⟨portStepDone_idle hp, fun hb => ⟨portStepDone_untrained hp hb, fun ht => ⟨portStepDone_lost hp hb ht,
      fun hl h1 h5 => (portStepDone_kept hp hb ht hl).trans (congrArg _ (if_pos ⟨h1, h5⟩)),
      fun hl hc => (portStepDone_kept hp hb ht hl).trans (congrArg _ (if_neg (by omega)))⟩⟩⟩
  case control =>
    intro off r code
    refine ⟨fun j => ⟨rfl, rfl, fun i hi => s.mcWrite_window j v hi⟩,
      fun j => ⟨State.portWrite_starts, State.portWrite_drops, rfl⟩, fun t hr => ?_, fun hr => ?_⟩
    · have hw : s.controlWrite a v = some t := hr
      show exec _ s = _
      rw [controlRegisterWrite_eq, hw]
      rfl
    · have hw : s.controlWrite a v = none := hr
      rw [controlRegisterWrite_eq, hw]
      rfl

end Sys2Proof.Machine

/-! ## The DBG class, monitors and the debugger's commands -/

namespace Sys2Proof.Machine

/-! ### RDCNT and MONQ (R424) -/

/-- What RDCNT reads: a hardware counter with the cycle, or the superstep's byte counts (R424). -/
def State.cntWord (s : State) (n : BitVec 4) : W128 :=
  if n.toNat < 8 then BitVec.ofNat 128 ((Tab.get 0 s.me.hc n.toNat).toNat * 2 ^ 64 + s.cyc % 2 ^ 64)
  else s.me.proc.received ++ s.me.proc.sent

section
variable (c : Ctl) (d : BitVec 6) (s : State)

theorem rdcnt_reads (n : BitVec 4) : CompletesAs (.rdcnt c d n) c fLate (s.k ≠ 0 ∧ s.leak d = false)
    (s.landLate c.set (.g d { bits := s.cntWord n, tag := false, endst := 0 })) s := by
  refine completesAs_of_issue (fun _ => rfl) ?_
  rintro ⟨hk, hl⟩
  simp only [if_neg hk, hl]
  rfl

theorem monq_reads (v : GI) : CompletesAs (.monq c d v) c fLate (s.k ≠ 0 ∧ (s.gi v).toNat ≤ 15 ∧ s.leak d = false)
    (s.landLate c.set (.g d (GReg.data (s.monWord (s.gi v).toNat)))) s := by
  refine completesAs_of_issue (fun _ => rfl) ?_
  rintro ⟨hk, hv, hl⟩
  simp only [if_neg hk, if_neg (Nat.not_lt.2 hv), writeLate, hl]
  rfl
end

/-! ### MONITOR_SAMPLE (R324, R416, R417) -/

/-- The sample of a monitor and the state it leaves: free where the spec fixes none. -/
def State.sampled (s : State) (id : Nat) (m : Monitor) : Nat × State :=
  match s.monSample id m with
  | some v => (v, s)
  | none => ((Config.freeWord s.fresh).toNat % 2 ^ 32, { s with fresh := s.fresh + 1 })

theorem State.sampled_eq {s t : State} {id x : Nat} {m : Monitor} (h : (s.monSample id m = some x ∧ t = s) ∨
    (s.monSample id m = none ∧ x = (Config.freeWord s.fresh).toNat % 2 ^ 32 ∧ t = { s with fresh := s.fresh + 1 })) :
    s.sampled id m = (x, t) := by
  rcases h with ⟨hm, rfl⟩ | ⟨hm, rfl, rfl⟩ <;> simp only [State.sampled, hm]

/-- The samples of a monitor's window with a new one. -/
def Monitor.windowWith (m : Monitor) (x : Nat) : List Nat := (x :: m.samples).take (max 1 m.window)
/-- A whole window of samples for which the relation holds fires the monitor (R417). -/
def Monitor.fires (m : Monitor) (x : Nat) : Prop :=
  m.canFire = true ∧ (m.windowWith x).length = m.window ∧ (m.windowWith x).all m.sat = true
def State.putMon (s : State) (id : Nat) (m : Monitor) : State := { s with monitors := Tab.put s.monitors id m }

/-- What a firing does: its record and its action, in an order that is not stated (R417). -/
def State.firing (s : State) (id : Nat) (m : Monitor) (x : Nat) : State :=
  let t := s.putMon id { m with samples := [], latest := x, count := min (m.count + 1) (2 ^ 32 - 1) }
  let u := { t with fresh := t.fresh + 1 }
  if Config.freeBit t.fresh then (u.monRec id m x).monAct id m x else (u.monAct id m x).monRec id m x

section
variable {s t : State} {id x : Nat} {m : Monitor} (hf : Tab.find s.monitors id = some m) (he : monEnabled m = true)
  (hs : m.source ≠ 0) (hx : s.sampled id m = (x, t))
include hf he hs hx

theorem monitorSample_eq : exec (.monitorSample id) s = .next
    (if m.canFire && (m.windowWith x).length == m.window && (m.windowWith x).all m.sat then t.firing id m x
      else t.putMon id { m with samples := m.windowWith x, latest := x }) := by
  have hon : (!monEnabled m || m.source == 0) = false := by simp [he, hs]
  have hfst : (s.sampled id m).1 = x := congrArg Prod.fst hx
  have hsnd : (s.sampled id m).2 = t := congrArg Prod.snd hx
  rw [← hfst, ← hsnd]
  change execMonitorSample id s = _
  simp only [execMonitorSample, hf, hon, Bool.false_eq_true, if_false]
  exact (apply_ite Host.Outcome.next _ _ _).symm

theorem monitorSample_keeps (h : ¬ m.fires x) : exec (.monitorSample id) s =
    .next (t.putMon id { m with samples := m.windowWith x, latest := x }) := by
  rw [monitorSample_eq hf he hs hx, if_neg]
  simpa [Monitor.fires, and_assoc] using h

theorem monitorSample_fires (h : m.fires x) : exec (.monitorSample id) s = .next (t.firing id m x) := by
  rw [monitorSample_eq hf he hs hx, if_pos]
  simpa [Monitor.fires, and_assoc] using h
end

/-! ### The commands of the debugger (R409) -/

section
variable {i : Instr} {s t : State} {src : BitVec 16} {d : BitVec 11} {node : W64} {f : State → List Nat → Option State}
  (hx : ∀ u, exec i u = u.dbgGang src d node (f u))

include hx in
/-- A command on a gang is refused where its debugger may not give it, no gang of it lives, or its own operands name nothing. -/
theorem gangCommand_refused (h : s.dbgMay src d = false ∨ s.nodeGangs d node.toNat = [] ∨ f s (s.nodeGangs d node.toNat) = none) :
    exec i s = .next (s.dbg src 1 []) := by
  rw [hx]
  rcases h with h | h | h <;> simp [State.dbgGang, h, dbgRefused]

include hx in
theorem gangCommand_done (hm : s.dbgMay src d = true) (hg : s.nodeGangs d node.toNat ≠ [])
    (hf : f s (s.nodeGangs d node.toNat) = some t) : exec i s = .next (t.dbg src 0 []) := by
  have hne : (s.nodeGangs d node.toNat).isEmpty = false := by simpa using hg
  rw [hx]
  simp [State.dbgGang, hm, hne, hf, dbgOk]

theorem State.dbgCore_none {role : Nat} (h : s.dbgMay src d = false ∨ s.nodeGangs d node.toNat = []) :
    s.dbgCore src d node role = none := by
  rcases h with h | h <;> simp [State.dbgCore, h]
end


section
variable {s : State} {src : BitVec 16} {d : BitVec 11} {node buf len : W64} {role ctx : BitVec 12} {tgt : DbgTarget} {tag : Bool} {w : Nat}

/-- READ and WRITE of a role that the stopped gangs do not have (R414). -/
theorem read_noCore (h : s.dbgCore src d node role.toNat = none) : exec (.read src d node role ctx tgt) s = .next (s.dbg src 1 []) := by
  change execRead src d node role ctx tgt s = _
  rw [execRead, h]
  rfl
theorem write_noCore (h : s.dbgCore src d node role.toNat = none) :
    exec (.write src d node role ctx tgt tag w) s = .next (s.dbg src 1 []) := by
  change execWrite src d node role ctx tgt tag w s = _
  rw [execWrite, h]
  rfl

section
variable {k : Nat} (h : s.dbgCore src d node role.toNat = some k)
include h

theorem read_refused (hr : 11 < ctx.toNat ∨ s.dbgRead k ctx.toNat tgt = none) :
    exec (.read src d node role ctx tgt) s = .next (s.dbg src 1 []) := by
  change execRead src d node role ctx tgt s = _
  have hno : (if ctx.toNat ≤ 11 then s.dbgRead k ctx.toNat tgt else none) = none := by
    rcases hr with hr | hr
    · exact if_neg (Nat.not_le.2 hr)
    · rw [hr, ite_self]
  simp only [execRead, h, hno]
  rfl
theorem read_answers {b : List Byte} (hc : ctx.toNat ≤ 11) (hr : s.dbgRead k ctx.toNat tgt = some b) :
    exec (.read src d node role ctx tgt) s = .next (s.dbg src 0 b) := by
  change execRead src d node role ctx tgt s = _
  simp only [execRead, h, if_pos hc, hr]
  rfl
theorem write_refused (hr : 11 < ctx.toNat ∨ s.dbgWrite k ctx.toNat tgt tag w = none) :
    exec (.write src d node role ctx tgt tag w) s = .next (s.dbg src 1 []) := by
  change execWrite src d node role ctx tgt tag w s = _
  have hno : (if ctx.toNat ≤ 11 then s.dbgWrite k ctx.toNat tgt tag w else none) = none := by
    rcases hr with hr | hr
    · exact if_neg (Nat.not_le.2 hr)
    · rw [hr, ite_self]
  simp only [execWrite, h, hno]
  rfl
theorem write_done {u : State} (hc : ctx.toNat ≤ 11) (hw : s.dbgWrite k ctx.toNat tgt tag w = some u) :
    exec (.write src d node role ctx tgt tag w) s = .next (u.dbg src 0 []) := by
  change execWrite src d node role ctx tgt tag w s = _
  simp only [execWrite, h, if_pos hc, hw]
  rfl
end

/-- TRACE takes a buffer that is whole lines and not empty (R418). -/
def traceable (buf len : W64) : Prop := buf.toNat % 64 = 0 ∧ len.toNat % 64 = 0 ∧ len ≠ 0

theorem trace_starts (hm : s.dbgMay src d = true) (h : traceable buf len) (mode : BitVec 1) : exec (.trace src d buf len mode) s =
    .next (((s.updDomain d fun t => { t with
      traceState := 1, traceMode := mode, traceBuf := buf, traceLen := len, traceAt := 64, traceLost := 0 }).traceHead d).dbg src 0 []) := by
  obtain ⟨hb, hl, hn⟩ := h
  exact if_pos (by rw [hm, hb, hl, bne_iff_ne.2 hn]; rfl)
theorem trace_refused (h : s.dbgMay src d = false ∨ ¬ traceable buf len) (mode : BitVec 1) :
    exec (.trace src d buf len mode) s = .next (s.dbg src 1 []) := by
  refine if_neg fun hc => ?_
  simp only [Bool.and_eq_true, beq_iff_eq, bne_iff_ne] at hc
  obtain ⟨⟨⟨hm, hb⟩, hl⟩, hn⟩ := hc
  rcases h with h | h
  · exact absurd hm (Bool.eq_false_iff.1 h)
  · exact h ⟨hb, hl, hn⟩

/-- MONSET takes a monitor that no stage has, of a descriptor's own domain, if no other domain has enabled it (R416). -/
def settable (y : Monitor) (d : BitVec 11) (desc : BitVec 128) : Prop :=
  y.stage = none ∧ desc.extractLsb' 16 11 = d ∧ (y.domain = d ∨ monEnabled y = false)

theorem settable_iff {y : Monitor} {desc : BitVec 128} : (y.stage.isNone && desc.extractLsb' 16 11 == d &&
    (y.domain == d || !monEnabled y)) = true ↔ settable y d desc := by
  simp [settable, and_assoc]

theorem monset_sets {mon : BitVec 10} {desc : BitVec 128} (hm : s.dbgMay src d = true)
    (h : settable (Tab.get Monitor.init s.monitors mon.toNat) d desc) : exec (.monset src d mon desc) s =
      .next ((s.putMon mon.toNat { Monitor.init with
        desc := desc &&& monsetMask
        count := if (Tab.get Monitor.init s.monitors mon.toNat).domain = d then (Tab.get Monitor.init s.monitors mon.toNat).count
          else 0 }).dbg src 0 []) := by
  have hc := settable_iff.2 h
  change execMonset src d mon desc s = _
  simp only [execMonset, hm, Bool.true_and, if_pos hc, beq_iff_eq]
  rfl
theorem monset_refused {mon : BitVec 10} {desc : BitVec 128} (h : s.dbgMay src d = false ∨
    ¬ settable (Tab.get Monitor.init s.monitors mon.toNat) d desc) :
    exec (.monset src d mon desc) s = .next (s.dbg src 1 []) := by
  have hc : ¬ (s.dbgMay src d && ((Tab.get Monitor.init s.monitors mon.toNat).stage.isNone && desc.extractLsb' 16 11 == d &&
      ((Tab.get Monitor.init s.monitors mon.toNat).domain == d || !monEnabled (Tab.get Monitor.init s.monitors mon.toNat)))) = true := by
    rw [Bool.and_eq_true, settable_iff]
    rintro ⟨hm, hset⟩
    rcases h with h | h
    · exact absurd hm (Bool.eq_false_iff.1 h)
    · exact h hset
  change execMonset src d mon desc s = _
  rw [← Bool.and_assoc, ← Bool.and_assoc] at hc
  simp only [execMonset, if_neg hc]
  rfl

/-- What STOP does to the gangs: each that is not stopped yet is to stop (R411, R413). -/
def State.stopOn (s : State) (l : List Nat) : Option State :=
  some (l.foldl (fun t g => t.updGang g fun x => if x.stopped then x else { x with stopReq := true }) s)

/-- What RESUME does to the gangs: it releases those that a stop holds (R413). -/
def State.resumeOn (s : State) (l : List Nat) : Option State :=
  let mine := l.filter fun g => (s.gangAt g).any fun x => x.stopped && x.eventStop != 1 && x.eventStop != 3 && x.saving == 0
  if mine.isEmpty then none else some (mine.foldl State.releaseGang s)

/-- What HOLD does to a role of the gangs (R415). -/
def State.holdOn (s : State) (d : BitVec 11) (role : Nat) (l : List Nat) : Option State :=
  match s.holdRole l role with
  | none => none
  | some (r, n) =>
    if s.holding n then some s
    else some ((s.stopAtYields n).updDomain d fun t => { t with holds := t.holds ++ [(r.gang, r.role)] })

/-- The state of which the hold of a role has been taken away. -/
def State.unheld (s : State) (d : BitVec 11) (r : Role) (n : Nat) : State :=
  (s.updDomain d fun t => { t with holds := t.holds.filter fun h => h != (r.gang, r.role) }).updProc n fun p => { p with held := false }

/-- What UNHOLD does to a role of the gangs: its process goes on but for a pause or a request that keeps it stopped (R415). -/
def State.unholdOn (s : State) (d : BitVec 11) (role : Nat) (l : List Nat) : Option State :=
  match s.holdRole l role with
  | none => none
  | some (r, n) =>
    if !s.holding n then none
    else
      let t := s.unheld d r n
      let t := if t.pausing n || bits (t.coreAt n).proc.prq 63 62 == 1 then t else t.goOn n
      some (t.endHolds d)

/-- What DUMP does to the gangs once they are stopped and have drained (R421). -/
def State.dumpOn (s : State) (buf len : W64) (l : List Nat) : Option State :=
  if l.all fun g => (s.gangAt g).any Gang.still && s.stopDrained g then
    l.head?.map fun g => (l.foldl (fun t g => t.updGang g fun x => { x with dump := some (buf, len) }) s).dumpGang g
  else none

section
variable (s : State) (src : BitVec 16) (d : BitVec 11) (node buf len : W64) (role : BitVec 12)

theorem exec_stop : exec (.stop src d node) s = s.dbgGang src d node s.stopOn := rfl
theorem exec_resume : exec (.resume src d node) s = s.dbgGang src d node s.resumeOn := rfl
theorem exec_hold : exec (.hold src d node role) s = s.dbgGang src d node (s.holdOn d role.toNat) := by
  change execHold src d node role s = _
  unfold execHold
  rfl
theorem exec_unhold : exec (.unhold src d node role) s = s.dbgGang src d node (s.unholdOn d role.toNat) := by
  change execUnhold src d node role s = _
  unfold execUnhold
  rfl
theorem exec_dump : exec (.dump src d (some node) buf len) s = s.dbgGang src d node (s.dumpOn buf len) := by
  change execDump src d (some node) buf len s = _
  unfold execDump
  rfl
end

/-- A command on a gang that its debugger may not give, or of which no gang lives, is refused (R409). -/
def State.noGang (s : State) (src : BitVec 16) (d : BitVec 11) (node : W64) : Prop :=
  s.dbgMay src d = false ∨ s.nodeGangs d node.toNat = []

theorem gangCommands_refused (h : s.noGang src d node) :
    exec (.stop src d node) s = .next (s.dbg src 1 []) ∧ exec (.resume src d node) s = .next (s.dbg src 1 []) ∧
      exec (.hold src d node role) s = .next (s.dbg src 1 []) ∧ exec (.unhold src d node role) s = .next (s.dbg src 1 []) ∧
      exec (.dump src d (some node) buf len) s = .next (s.dbg src 1 []) ∧
      exec (.read src d node role ctx tgt) s = .next (s.dbg src 1 []) ∧
      exec (.write src d node role ctx tgt tag w) s = .next (s.dbg src 1 []) := by
  have hno : ∀ f : State → List Nat → Option State, s.dbgMay src d = false ∨ s.nodeGangs d node.toNat = [] ∨
      f s (s.nodeGangs d node.toNat) = none := fun f => or_assoc.1 (.inl h)
  exact ⟨gangCommand_refused (fun u => exec_stop u src d node) (hno State.stopOn),
    gangCommand_refused (fun u => exec_resume u src d node) (hno State.resumeOn),
    gangCommand_refused (fun u => exec_hold u src d node role) (hno fun u => u.holdOn d role.toNat),
    gangCommand_refused (fun u => exec_unhold u src d node role) (hno fun u => u.unholdOn d role.toNat),
    gangCommand_refused (fun u => exec_dump u src d node buf len) (hno fun u => u.dumpOn buf len),
    read_noCore (State.dbgCore_none h), write_noCore (State.dbgCore_none h)⟩
end

/-! ### HOLD and UNHOLD (R415) -/

section
variable {s : State} {d : BitVec 11} {role : Nat} {l : List Nat} {r : Role} {k : Nat}

theorem State.holdOn_none (h : s.holdRole l role = none) : s.holdOn d role l = none := by
  rw [State.holdOn, h]
theorem State.unholdOn_none (h : s.holdRole l role = none) : s.unholdOn d role l = none := by
  rw [State.unholdOn, h]

variable (h : s.holdRole l role = some (r, k))
include h

theorem State.holdOn_held (hh : s.holding k = true) : s.holdOn d role l = some s := by
  simp only [State.holdOn, h, hh, if_true]
theorem State.holdOn_holds (hh : s.holding k = false) : s.holdOn d role l =
    some ((s.stopAtYields k).updDomain d fun t => { t with holds := t.holds ++ [(r.gang, r.role)] }) := by
  simp only [State.holdOn, h, hh, Bool.false_eq_true, if_false]
theorem State.unholdOn_free (hh : s.holding k = false) : s.unholdOn d role l = none := by
  simp only [State.unholdOn, h, hh, Bool.not_false, if_true]
theorem State.unholdOn_releases (hh : s.holding k = true) : s.unholdOn d role l =
    some ((if (s.unheld d r k).pausing k = true ∨ bits ((s.unheld d r k).coreAt k).proc.prq 63 62 = 1 then s.unheld d r k
      else (s.unheld d r k).goOn k).endHolds d) := by
  simp only [State.unholdOn, h, hh, Bool.not_true, Bool.false_eq_true, if_false, Bool.or_eq_true, beq_iff_eq]
end

/-- Settles O57: each word and each command by the lemma of its case above. -/
theorem debugWordsComplete : Obligations.DebugWordsComplete := by
  unfold Obligations.DebugWordsComplete
  intro c code d n v src dom node buf len role ctx mode mon desc tgt tag w m s own ok no gangs isStopped mine
  refine ⟨?bkptIdle, ?bkpt, ?markIdle, ?mark, rdcnt_reads c d s n, monq_reads c d s v, fun hk => ⟨?rdcntS, ?monqS⟩,
    fun x t hf he hs hx => ⟨monitorSample_keeps hf he hs (State.sampled_eq hx), monitorSample_fires hf he hs (State.sampled_eq hx)⟩,
    ?may, ?gone, ?domain, ?gang, fun h => ⟨read_noCore h, write_noCore h⟩,
    fun k h => ⟨fun hc => ⟨read_refused h (.inl hc), write_refused h (.inl hc)⟩, fun hr => read_refused h (.inr hr),
      fun hw => write_refused h (.inr hw), fun hc => ⟨fun b hb => read_answers h hc hb, fun u hu => write_done h hc hu⟩⟩⟩
  case bkptIdle => exact completesAs_of_issue (fun _ => rfl) fun h => if_pos h
  case bkpt => exact completesAs_of_issue (fun _ => rfl) fun h => if_neg (not_or.2 ⟨h.1, fun hn => absurd (h.2.symm.trans hn) (by decide)⟩)
  case markIdle => exact completesAs_of_issue (fun _ => rfl) fun h => if_pos h
  case mark => exact completesAs_of_issue (fun _ => rfl) fun h => if_neg (not_or.2 ⟨h.1, not_not.2 h.2⟩)
  case rdcntS => exact completesAs_of_issue (fun _ => rfl) fun _ => if_pos hk
  case monqS => exact completesAs_of_issue (fun _ => rfl) fun _ => if_pos hk
  case may =>
    intro hm
    have hno : ¬ s.dbgMay src dom = true := Bool.eq_false_iff.1 hm
    obtain ⟨hstop, hresume, hhold, hunhold, hdump, hread, hwrite⟩ := gangCommands_refused (.inl hm)
    exact ⟨if_neg hno, if_neg hno, hstop, hresume, hhold, hunhold, trace_refused (.inl hm) mode, if_neg hno, hdump,
      monset_refused (.inl hm), hread, hwrite⟩
  case gone => exact fun hg => gangCommands_refused (.inr hg)
  case domain =>
    intro hm
    exact ⟨if_pos hm, if_pos hm, if_pos hm, ⟨fun h => trace_starts hm h mode, fun h => trace_refused (.inr h) mode⟩,
      fun h => monset_sets hm h, fun h => monset_refused (.inr h)⟩
  case gang =>
    intro g gs hm hgs
    have hg : s.nodeGangs dom node.toNat ≠ [] := fun h => List.cons_ne_nil g gs (hgs.symm.trans h)
    have resume := fun u => exec_resume u src dom node
    have hold := fun u => exec_hold u src dom node role
    have unhold := fun u => exec_unhold u src dom node role
    have dump := fun u => exec_dump u src dom node buf len
    refine ⟨gangCommand_done (fun u => exec_stop u src dom node) hm hg rfl, fun hmine => gangCommand_done resume hm hg (if_neg (mt List.isEmpty_iff.1 hmine)),
      fun hmine => gangCommand_refused resume (.inr (.inr (if_pos (List.isEmpty_iff.2 hmine)))),
      fun hall => gangCommand_done dump hm hg ((if_pos hall).trans ?head),
      fun hall => gangCommand_refused dump (.inr (.inr (if_neg (Bool.eq_false_iff.1 hall)))),
      fun h => ⟨gangCommand_refused hold (.inr (.inr (State.holdOn_none h))),
        gangCommand_refused unhold (.inr (.inr (State.unholdOn_none h)))⟩,
      fun r k h => ⟨fun hh => gangCommand_done hold hm hg (State.holdOn_held h hh),
        fun hh => ⟨gangCommand_refused unhold (.inr (.inr (State.unholdOn_free h hh))),
          gangCommand_done hold hm hg (State.holdOn_holds h hh)⟩, fun hh => ?release⟩⟩
    case head =>
      have hgs' : s.nodeGangs dom node.toNat = g :: gs := hgs
      simp only [gangs, hgs', List.head?_cons, Option.map_some]
    case release =>
      have hdone := State.unholdOn_releases (d := dom) h hh
      exact ⟨fun hs => gangCommand_done unhold hm hg (hdone.trans (congrArg (fun t : State => some (t.endHolds dom)) (if_pos hs))),
        fun hs => gangCommand_done unhold hm hg (hdone.trans (congrArg (fun t : State => some (t.endHolds dom)) (if_neg hs)))⟩

end Sys2Proof.Machine

/-! ## The STAGE class and the steps of a stage -/

namespace Sys2Proof.Machine

/-! ### KEYR and SHINT (R322, R323, R325, R335) -/

/-- A SHINT of a stage's holder answers its request and leaves what that makes of the state. -/
theorem shint_holder {s : State} {id h : Nat} {st : Stage} {p : Bool × State} {f : State → Nat → Nat → Stage → Bool × State}
    (c : Ctl) (qd : BitVec 3) (hst : s.stageAt id = some st) (hmine : s.me.proc.stage = some (id, h)) (hf : f s id h st = p) :
    shint s c qd f = .done (p.2.landAll s.core s.k c.set [.q qd p.1]) := by
  simp only [shint, hmine, hst, hf]

/-- The issue of SHINT ARM, as `execShintArm` gives it. -/
def shintArmIssue (c : Ctl) (qd : BitVec 3) (s : State) : Eff := shint s c qd fun s id _ st => s.armStage id st

/-- The issue of SHINT DISARM, as `execShintDisarm` gives it. -/
def shintDisarmIssue (c : Ctl) (qd : BitVec 3) (s : State) : Eff := shint s c qd fun s id _ st => s.disarm id st

theorem shintArmIssue_eq {s : State} {id h : Nat} {st : Stage} {p : Bool × State} (c : Ctl) (qd : BitVec 3) (hst : s.stageAt id = some st)
    (hmine : s.me.proc.stage = some (id, h)) (hp : s.armStage id st = p) :
    shintArmIssue c qd s = .done (p.2.landAll s.core s.k c.set [.q qd p.1]) := by
  rw [shintArmIssue, shint, hmine]
  simp only [hst, hp]

theorem shintDisarmIssue_eq {s : State} {id h : Nat} {st : Stage} {p : Bool × State} (c : Ctl) (qd : BitVec 3) (hst : s.stageAt id = some st)
    (hmine : s.me.proc.stage = some (id, h)) (hp : s.disarm id st = p) :
    shintDisarmIssue c qd s = .done (p.2.landAll s.core s.k c.set [.q qd p.1]) := by
  rw [shintDisarmIssue, shint, hmine]
  simp only [hst, hp]

theorem exec_shintArm {c : Ctl} {qd : BitVec 3} (s : State) : exec (.shintArm c qd) s = issue c fLate s (shintArmIssue c qd) := rfl

theorem exec_shintDisarm {c : Ctl} {qd : BitVec 3} (s : State) : exec (.shintDisarm c qd) s = issue c fLate s (shintDisarmIssue c qd) := rfl

theorem shint_outside {s : State} {f : State → Nat → Nat → Stage → Bool × State} (c : Ctl) (qd : BitVec 3)
    (hnone : s.me.proc.stage = none) : shint s c qd f = .done (s.landAll s.core s.k c.set [.q qd false]) := by
  simp only [shint, hnone]

/-- A request is not accepted, and the stage keeps why (R325). -/
def State.refuseStage (s : State) (id : Nat) (code : BitVec 8) : Bool × State := (false, s.updStage id fun y => { y with code := code })

section
variable {s : State} {id : Nat} {st : Stage} {r : ChanRec}

theorem State.armStage_noEnd (h : s.endCheck st.input (some true) bitUSE ≠ none ∨ s.endRecord (s.gReg st.input).bits = none) :
    s.armStage id st = s.refuseStage id 12 := by
  unfold State.armStage
  dsimp only
  split
  · next he hr =>
    rcases h with h | h
    · exact absurd he h
    · exact absurd (h.symm.trans hr) nofun
  · rfl

variable (he : s.endCheck st.input (some true) bitUSE = none) (hr : s.endRecord (s.gReg st.input).bits = some r)
include he hr

theorem State.armStage_notKeyable (h : r.keyable = false ∨ r.keyed = true) : s.armStage id st = s.refuseStage id 12 := by
  have hno : (!r.keyable || r.keyed) = true := by rcases h with h | h <;> simp [h]
  simp only [State.armStage, he, hr, if_pos hno]
  rfl

variable (hk : r.keyable = true) (hd : r.keyed = false)
include hk hd

theorem State.armStage_armed (ha : st.armed = true) : s.armStage id st = s.refuseStage id 13 := by
  simp only [State.armStage, he, hr, hk, hd, ha]
  rfl

variable (ha : st.armed = false)
include ha

theorem State.armStage_noMonitor (hm : s.freeMonitors (parterreOf s.core) = []) : s.armStage id st = s.refuseStage id 14 := by
  simp only [State.armStage, he, hr, hk, hd, ha, hm]
  rfl

theorem State.armStage_arms (hm : s.freeMonitors (parterreOf s.core) ≠ []) : s.armStage id st =
    (true, ((s.putRec (endRec (s.gReg st.input).bits) { r with
      keyMask := st.keyMask, starts := Tab.put r.starts 0 0, nexts := Tab.put r.nexts 0 (s.gReg st.input).endst,
      backlog := r.nextFor 0 - (s.gReg st.input).endst }).updStage id fun x =>
        { x with armed := true, record := endRec (s.gReg st.input).bits }).bindMonitor (parterreOf s.core) id 0 (st.cloneDesc 0 true)) := by
  obtain ⟨k, l, hkl⟩ := List.exists_cons_of_ne_nil hm
  simp only [State.armStage, he, hr, hk, hd, ha, hkl]
  rfl
end

section
variable {s : State} {id : Nat} {st : Stage}

theorem State.disarm_notArmed (h : st.armed = false) : s.disarm id st = s.refuseStage id 1 := by
  rw [State.disarm, h]
  rfl
theorem State.disarm_twins (h : st.armed = true) (ht : st.twins ≠ []) : s.disarm id st = s.refuseStage id 15 := by
  have hne : st.twins.isEmpty = false := by simpa using ht
  rw [State.disarm, h, hne]
  rfl
theorem State.disarm_disarms (h : st.armed = true) (ht : st.twins = []) : s.disarm id st = (true, s.disarmStage id) := by
  rw [State.disarm, h, ht]
  rfl

theorem State.stageRequest_refused {clone : Bool} {h : Nat} (hst : s.stageAt id = some st) (hc : s.stageRefusal st clone h ≠ 0) :
    s.stageRequest id clone h = s.refuseStage id (s.stageRefusal st clone h) := by
  simp only [State.stageRequest, hst, if_pos hc]
  rfl
end

/-! ### SRET (R328, R329, R335) -/

/-- C as an upcall leaves it; the delay of the SRET holds its next issue back (R51). -/
def State.leftUpcall (s : State) (c : Ctl) : State :=
  (s.leaveUpcall s.core).updCtx s.core 1 fun x => { x with notBefore := max x.notBefore (s.cyc + c.delay.toNat + 1) }

section
variable {s : State} {id h : Nat} {st : Stage} {c : Ctl} {v : GI} (hi : Issues c fPlain s = true)
include hi

theorem sret_outside (h : s.me.upcall = none ∨ s.me.proc.stage = none ∨ s.k ≠ 1) :
    exec (.sret c v) s = .next (s.finish c fPlain (.trap cPROT 2)) := by
  refine exec_of_issues (fun _ => rfl) hi ?_
  dsimp only
  split
  · next hs hu =>
    rcases h with h | h | h
    · exact absurd (h.symm.trans hu) nofun
    · exact absurd (h.symm.trans hs) nofun
    · exact if_pos h
  · rfl

variable (hst : s.stageAt id = some st) (hmine : s.me.proc.stage = some (id, h)) (hu : s.me.upcall.isSome = true) (hk : s.k = 1)
include hst hmine hu hk

theorem sret_ends : exec (.sret c v) s = .next (s.finish c fPlain (.gone ((
    if s.gi v ≠ 0 then ((s.leftUpcall c).updStage id fun x => { x with snapshot := [] }).abandonStage id 9
    else if st.op = 1 then ((s.leftUpcall c).updStage id fun x => { x with phase := 3 }).now (.stageSplitCompletion id)
    else ((s.leftUpcall c).updStage id fun x => { x with phase := 4 }).now (.stageMergeQuiescence id)).switch s.core))) := by
  refine exec_of_issues (fun _ => rfl) hi ?_
  obtain ⟨x, hx⟩ := Option.isSome_iff_exists.1 hu
  simp only [hmine, hx, hk, ne_eq, not_true_eq_false, if_false, hst]
  rfl
end

/-! ### STAGE_PAUSE, its timeout and STAGEF (R326 to R329) -/

/-- The holder that a pause of the stage's operation is for. -/
def Stage.pausing (st : Stage) : Option Nat :=
  if st.op = 1 ∧ st.phase = 1 then some st.who else if st.op = 2 ∧ st.phase = 2 then some st.other else none

/-- The first key of the holder that the stage's operation is about. -/
def State.firstKey (s : State) (st : Stage) : W32 := ((s.stageRec st).map fun r => Tab.get 0 r.starts st.who).getD 0

section
variable {s : State} {id n : Nat} {st : Stage} (hst : s.stageAt id = some st)
include hst

theorem stagePause_none (hn : st.pausing.bind (fun h => s.holderCore st h) = none) : exec (.stagePause id) s = .next s := by
  change execStagePause id s = _
  rw [Stage.pausing] at hn
  simp only [execStagePause, hst, hn]

variable (hn : st.pausing.bind (fun h => s.holderCore st h) = some n)
include hn

theorem stagePause_some : exec (.stagePause id) s =
    (if s.stagePrq st then .next (s.abandonStage id 11)
    else if !st.armed then .next (s.abandonStage id 1)
    else if !s.paused n then .next (s.later (.stagePause id))
    else if st.op = 1 then .next ((s.raise n evSTAGE).pauseSplit id n st)
    else .next (((s.raise n evSTAGE).updStage id fun x => { x with phase := 3 }).startUpcall id n st st.merge
      (((s.raise n evSTAGE).firstKey st).setWidth 64) st.who)) := by
  change execStagePause id s = _
  rw [Stage.pausing] at hn
  unfold State.firstKey
  simp only [execStagePause, hst, hn]
  generalize (s.raise n evSTAGE).stageRec st = r
  cases r with
  | none => simp only [Option.map_none, Option.getD_none]
  | some r => simp only [Option.map_some, Option.getD_some]
end

section
variable {s : State} {id op : Nat} {st : Stage} (hst : s.stageAt id = some st)
include hst

theorem stagePauseTimeout_eq : exec (.stagePauseTimeout id op) s =
    match (if st.since = op then st.pausing else none) with
    | none => .next s
    | some h => if (s.holderCore st h).any s.paused then exec (.stagePause id) s else .next (s.abandonStage id 8) := by
  change execStagePauseTimeout id op s = _
  simp only [execStagePauseTimeout, hst] <;> rfl

/-- The timeout of another operation, or of a pause that is over, does nothing (R326). -/
theorem stagePauseTimeout_past (h : ¬ (st.since = op ∧ st.pausing.isSome = true)) : exec (.stagePauseTimeout id op) s = .next s := by
  have hnone : (if st.since = op then st.pausing else none) = none := by
    split
    · next hop => simpa [hop] using h
    · rfl
  rw [stagePauseTimeout_eq hst, hnone]

theorem stagePauseTimeout_due (h : st.since = op ∧ st.pausing.isSome = true) : exec (.stagePauseTimeout id op) s =
    if (st.pausing.bind fun h => s.holderCore st h).any s.paused then exec (.stagePause id) s else .next (s.abandonStage id 8) := by
  obtain ⟨x, hx⟩ := Option.isSome_iff_exists.1 h.2
  rw [stagePauseTimeout_eq hst, if_pos h.1, hx]
  rfl
end

theorem stagef_parks {s : State} {id h n : Nat} {x : Ctx} (code : BitVec 16) (a : W64) (hn : n < 4096)
    (hu : (s.coreAt n).upcall = some x) (hp : (s.coreAt n).proc.stage = some (id, h)) :
    exec (.stagef n code a) s = .next ((s.abandonStage id 10).park n 1 { cause := cSTAGEF, val := a.setWidth 48 ++ code } x.pc) := by
  refine exec_of_onCore (fun _ => rfl) hn ?_
  simp only [hu, hp]

/-! ### The range steps (R330, R331) -/

section
variable {s : State} {id n m : Nat} {st : Stage} {r : ChanRec} (hst : s.stageAt id = some st)
  (hn : s.holderCore st st.who = some n) (hr : s.stageRec st = some r)
include hst hn hr

theorem stageSplitCompletion_eq (ht : st.target = some m) (hop : st.op = 1) (hph : st.phase = 3) :
    exec (.stageSplitCompletion id) s = .next
      (if s.stagePrq st then s.abandonStage id 11
      else if !(s.coreAt m).proc.started || !r.stuck.isEmpty then s.later (.stageSplitCompletion id)
      else s.splitRange id n m st r) := by
  change execStageSplitCompletion id s = _
  have hno : ¬ (st.op ≠ 1 ∨ st.phase ≠ 3) := by omega
  simp only [execStageSplitCompletion, hst, ht, hn, hr, if_neg hno, apply_ite Host.Outcome.next]

/-- What STAGE_MERGE_QUIESCENCE does in a phase that no other event ends, under no request. -/
def State.mergeStep (s : State) (id n : Nat) (st : Stage) (r : ChanRec) : State :=
  if st.phase = 0 then
    if (s.coreAt n).proc.leaving.isSome && !(s.coreAt n).helperLive || s.depth st.record st.who == 0 then
      ((s.stopAtYields n).updStage id fun x => { x with phase := 1 }).later (.stageMergeQuiescence id)
    else s.later (.stageMergeQuiescence id)
  else if st.phase = 1 then
    if s.paused n && s.exitDrained n then s.mergeCopy id n st r else s.later (.stageMergeQuiescence id)
  else if r.stuck.isEmpty then s.mergeJoin id st
  else s.later (.stageMergeQuiescence id)

theorem stageMergeQuiescence_eq (hop : st.op = 2) (h2 : st.phase ≠ 2) (h3 : st.phase ≠ 3) :
    exec (.stageMergeQuiescence id) s = .next (if s.stagePrq st then s.abandonStage id 11 else s.mergeStep id n st r) := by
  change execStageMergeQuiescence id s = _
  have hno : ¬ (st.op ≠ 2 ∨ st.phase = 2 ∨ st.phase = 3) := by omega
  simp only [execStageMergeQuiescence, hst, hn, hr, if_neg hno, State.mergeStep, apply_ite Host.Outcome.next]
end

/-- Settles O56: each word and each event of a stage by the lemma of its case above. -/
theorem stageWordsComplete : Obligations.StageWordsComplete := by
  unfold Obligations.StageWordsComplete
  intro c d qd sl v id h n m st op code a r s hst mine landed coded whole input
  refine ⟨?keyr, fun hi hmine => ⟨fun hw hk => ?notKeyable, fun hno => ?noEnd, fun hw hk hd => ⟨fun ha => ?armed, fun ha hm => ?noMonitor⟩⟩,
    ?arms, ?disarmNot, ?disarmTwins, ?disarms, ?clone, ?merge, fun cl hc => State.stageRequest_refused hst hc,
    fun hnone => ⟨?outArm, ?outDisarm, ?outClone, ?outMerge⟩, fun hi hmine hu hk => ?sret, fun hi ho => sret_outside hi ho,
    ⟨stagePause_none hst, fun hn => ?pause⟩, ⟨?timeoutOver, ?timeoutStill, fun hd => stagePauseTimeout_past hst hd⟩,
    fun x hn hu hp => stagef_parks code a hn hu hp, fun ht hn hr hop hph => ?split, fun hn hr hop => ?merging⟩
  case keyr =>
    refine completesAs_of_issue (fun _ => rfl) fun hl => ?_
    rw [writeLate, hl]
    rfl
  case notKeyable =>
    exact exec_of_issues exec_shintArm hi (shintArmIssue_eq c qd hst hmine (State.armStage_notKeyable hw.1 hw.2 hk))
  case noEnd => exact exec_of_issues exec_shintArm hi (shintArmIssue_eq c qd hst hmine (State.armStage_noEnd hno))
  case armed => exact exec_of_issues exec_shintArm hi (shintArmIssue_eq c qd hst hmine (State.armStage_armed hw.1 hw.2 hk hd ha))
  case noMonitor =>
    exact exec_of_issues exec_shintArm hi (shintArmIssue_eq c qd hst hmine (State.armStage_noMonitor hw.1 hw.2 hk hd ha hm))
  case arms =>
    refine completesAs_of_issue exec_shintArm ?_
    rintro ⟨hmine, ⟨he, hr⟩, hk, hd, ha, hm⟩
    exact shintArmIssue_eq c qd hst hmine (State.armStage_arms he hr hk hd ha hm)
  case disarmNot =>
    refine completesAs_of_issue exec_shintDisarm ?_
    rintro ⟨hmine, ha⟩
    exact shintDisarmIssue_eq c qd hst hmine (State.disarm_notArmed ha)
  case disarmTwins =>
    refine completesAs_of_issue exec_shintDisarm ?_
    rintro ⟨hmine, ha, ht⟩
    exact shintDisarmIssue_eq c qd hst hmine (State.disarm_twins ha ht)
  case disarms =>
    refine completesAs_of_issue exec_shintDisarm ?_
    rintro ⟨hmine, ha, ht⟩
    exact shintDisarmIssue_eq c qd hst hmine (State.disarm_disarms ha ht)
  case clone => exact completesAs_of_issue (fun _ => rfl) fun hmine => shint_holder c qd hst hmine rfl
  case merge => exact completesAs_of_issue (fun _ => rfl) fun hmine => shint_holder c qd hst hmine rfl
  case outArm => exact completesAs_of_issue (fun _ => rfl) fun _ => shint_outside c qd hnone
  case outDisarm => exact completesAs_of_issue (fun _ => rfl) fun _ => shint_outside c qd hnone
  case outClone => exact completesAs_of_issue (fun _ => rfl) fun _ => shint_outside c qd hnone
  case outMerge => exact completesAs_of_issue (fun _ => rfl) fun _ => shint_outside c qd hnone
  case sret =>
    intro left gone
    have hend := sret_ends (c := c) (v := v) hi hst hmine hu hk
    refine ⟨fun hv hop => hend.trans ?_, fun hv hop => hend.trans ?_, fun hv => hend.trans ?_⟩
    · rw [if_neg (not_not.2 hv), if_pos hop]
      rfl
    · rw [if_neg (not_not.2 hv), if_neg hop]
      rfl
    · rw [if_pos hv]
      rfl
  case pause =>
    have hp := stagePause_some hst hn
    refine ⟨fun hq => hp.trans ?_, fun hq ha => hp.trans ?_, fun hq ha hs => hp.trans ?_, fun hq ha hs =>
      ⟨fun hop => hp.trans ?_, fun hop => hp.trans ?_⟩⟩
    · rw [hq]
      rfl
    · rw [hq, ha]
      rfl
    · rw [hq, ha, hs]
      rfl
    · rw [hq, ha, hs, if_pos hop]
      rfl
    · rw [hq, ha, hs, if_neg hop]
      rfl
  case timeoutOver =>
    intro hd hs
    exact (stagePauseTimeout_due hst hd).trans (if_neg (Bool.eq_false_iff.1 hs))
  case timeoutStill =>
    intro hd hs
    exact (stagePauseTimeout_due hst hd).trans (if_pos hs)
  case split =>
    have hsplit := stageSplitCompletion_eq hst hn hr ht hop hph
    refine ⟨fun hq => ?_, fun hq hw => ?_, fun hq hs hr' => ?_⟩
    · rw [hsplit, if_pos hq]
    · have hwait : (!(s.coreAt m).proc.started || !r.stuck.isEmpty) = true := by
        rcases hw with hw | hw <;> simp [hw]
      rw [hsplit, hq, if_neg Bool.false_ne_true, if_pos hwait]
    · have hgo : (!(s.coreAt m).proc.started || !r.stuck.isEmpty) = false := by simp [hs, hr']
      rw [hsplit, hq, hgo, if_neg Bool.false_ne_true, if_neg Bool.false_ne_true]
  case merging =>
    intro run again idle still
    have hidle : ((s.coreAt n).proc.leaving.isSome && !(s.coreAt n).helperLive || s.depth st.record st.who == 0) = true ↔ idle := by
      simp [idle]
    have hstill : (s.paused n && s.exitDrained n) = true ↔ still := by simp [still]
    have hreq := fun h2 h3 => stageMergeQuiescence_eq hst hn hr hop (h2 : st.phase ≠ 2) h3
    have hgo : ∀ u, s.stagePrq st = false → st.phase ≠ 2 → st.phase ≠ 3 → s.mergeStep id n st r = u → run u := by
      intro u hq h2 h3 hu
      have hm := hreq h2 h3
      rwa [hq, if_neg Bool.false_ne_true, hu] at hm
    refine ⟨fun h2 h3 hq => (hreq h2 h3).trans (congrArg _ (if_pos hq)), fun hq => ⟨fun h0 hi => ?_, fun h0 hi => ?_, fun h1 hs => ?_,
      fun h1 hs => ?_, fun h4 hr' => ?_, fun h4 hr' => ?_⟩⟩ <;> refine hgo _ hq (by omega) (by omega) ?_ <;> unfold State.mergeStep
    · rw [if_pos h0, if_pos (hidle.2 hi)]
    · rw [if_pos h0, if_neg (hi ∘ hidle.1)]
    · rw [if_neg (by omega), if_pos h1, if_pos (hstill.2 hs)]
    · rw [if_neg (by omega), if_pos h1, if_neg (hs ∘ hstill.1)]
    · rw [if_neg (by omega), if_neg (by omega), if_pos (by simp [hr'])]
    · rw [if_neg (by omega), if_neg (by omega), if_neg (by simpa using hr')]

end Sys2Proof.Machine

/-! ## The events of a graph -/

namespace Sys2Proof.Machine

/-! ### What leaves the list of retries alone (R311)

A retry begins when its attempt has failed, and is taken off the list by NODE_RETRY or by a cancellation; memory, waking, channels and
the credits of the nodes leave the list as it is. -/

theorem State.retries_of_outside {s t : State} (h : t.outside = s.outside) : t.retries = s.retries :=
  (congrArg State.retries h : t.outside.retries = s.outside.retries)

@[simp] theorem State.foldl_retries {α : Type} {f : State → α → State} (hf : ∀ t a, (f t a).retries = t.retries) (l : List α) (s : State) :
    (l.foldl f s).retries = s.retries := foldl_keeps State.retries f hf l s

section
variable (s : State)
@[simp] theorem State.flow_retries (a b : Who) : (s.flow a b).retries = s.retries :=
  State.retries_of_outside (s.flow_outside a b)
@[simp] theorem State.resume_retries (n k : Nat) : (s.resume n k).retries = s.retries := State.retries_of_outside (s.resume_outside n k)
@[simp] theorem State.landAll_retries (n k : Nat) (set : BitVec 2) (res : List Result) : (s.landAll n k set res).retries = s.retries := rfl

/-! #### Messages and lines -/

@[simp] theorem State.emit_retries (p : Nat) (o : Out) : (s.emit p o).retries = s.retries := by
  unfold State.emit
  split <;> rfl
@[simp] theorem State.departAs_retries (a p : Nat) (d : Option (BitVec 11)) (o : Out) : (s.departAs a p d o).retries = s.retries :=
  State.emit_retries _ _ _
@[simp] theorem State.askPeer_retries (key : Nat) (d : BitVec 12) (o : Out) : (s.askPeer key d o).retries = s.retries :=
  State.departAs_retries _ _ _ _ _
@[simp] theorem State.toHost_retries (h : BitVec 16) (d : Option (BitVec 11)) (o : Out) : (s.toHost h d o).retries = s.retries :=
  State.departAs_retries _ _ _ _ _
@[simp] theorem State.tell_retries (die : Nat) (dom : BitVec 11) (d : BitVec 12) (n : Notice) : (s.tell die dom d n).retries = s.retries :=
  State.departAs_retries _ _ _ _ _
@[simp] theorem State.backInvalidate_retries (l : Nat) : (s.backInvalidate l).retries = s.retries := by
  unfold State.backInvalidate
  split
  · exact State.emit_retries _ _ _
  · rfl
@[simp] theorem State.lineOut_retries (l : HostLine) (o : Out) : (s.lineOut l o).retries = s.retries := by
  unfold State.lineOut
  split
  · exact State.emit_retries _ _ _
  · rfl
@[simp] theorem State.putLine_retries (l : HostLine) : (s.putLine l).retries = s.retries := rfl
@[simp] theorem State.makeRoom_retries (a : Nat) : (s.makeRoom a).retries = s.retries := by
  unfold State.makeRoom
  dsimp only
  split
  · rfl
  · split
    · rfl
    · exact State.lineOut_retries _ _ _
@[simp] theorem State.getLine_retries (key : Nat) (h : BitVec 12) (l : Nat) (own : Bool) :
    (s.getLine key h l own).2.retries = s.retries := by
  unfold State.getLine
  split
  · rfl
  · exact State.makeRoom_retries s _

/-! #### Reads and writes of memory -/

@[simp] theorem State.noteCode_retries (p : Place) : (s.noteCode p).retries = s.retries := by
  unfold State.noteCode
  dsimp only
  split <;> rfl
@[simp] theorem State.readPast_retries (p : Place) (n : Nat) (w : Who) : (s.readPast p n w).retries = s.retries := by
  simp [State.readPast, apply_ite State.retries]
@[simp] theorem State.aoEvent_retries (p : Place) (n : Nat) (l : List Nat) : (s.aoEvent p n l).retries = s.retries := by
  simp [State.aoEvent, apply_ite State.retries]
@[simp] theorem State.aoRead_retries (p : Place) (n : Nat) (w : Who) : (s.aoRead p n w).retries = s.retries := by
  simp [State.aoRead, apply_ite State.retries]
@[simp] theorem State.endWait_retries (w : SyncWait) (v : W64) : (s.endWait w v).retries = s.retries := by
  simp [State.endWait, State.reply]
@[simp] theorem State.wake_retries (pa n : Nat) : (s.wake pa n).retries = s.retries := by
  simp [State.wake, apply_ite State.retries]
@[simp] theorem State.writePlace_retries (key : Nat) (p : Place) (n v : Nat) (tag : Bool) (home : Option (Nat × List Nat)) :
    (s.writePlace key p n v tag home).retries = s.retries := by
  cases p with
  | peer d pa => simp [State.writePlace]
  | host hs pa => simp [State.writePlace]
  | hbm pa =>
    simp only [State.writePlace, State.wake_retries, State.noteCode_retries]
    split <;> rfl
@[simp] theorem State.recall_retries (line : Nat) : (s.recall line).retries = s.retries := by
  unfold State.recall
  split
  · rfl
  · simp [apply_ite State.retries]
@[simp] theorem State.touch_retries (key : Nat) (p : Place) : (s.touch key p).retries = s.retries := by
  cases p <;> simp [State.touch]
@[simp] theorem State.look_retries (key : Nat) (p : Place) (n : Nat) : (s.look key p n).retries = s.retries := by
  cases p <;> simp [State.look]
@[simp] theorem State.walkTouch_retries (n : Nat) (view : State → State) (key va : Nat) (top : W64) (table : Nat) :
    (s.walkTouch view key va top table n).retries = s.retries := by
  induction n generalizing s top table with
  | zero =>
    unfold State.walkTouch
    split <;> simp
  | succ n ih =>
    unfold State.walkTouch
    split
    · rfl
    · next p _ =>
      dsimp only
      cases (view (s.look key p 8)).entry key .read va 1 top table (n + 1) with
      | next e frame => exact (ih _ e frame).trans (State.look_retries s key p 8)
      | bad _ | page _ => exact State.look_retries s key p 8
@[simp] theorem State.walkReady_retries (d : BitVec 11) (va : Nat) : (s.walkReady d va).retries = s.retries := by
  unfold State.walkReady State.walkReadyBy
  split <;> simp
@[simp] theorem State.vready_retries (d : BitVec 11) (va n : Nat) : (s.vready d va n).retries = s.retries := by
  refine State.foldl_retries (fun t i => ?_) _ _
  dsimp only
  split <;> simp
@[simp] theorem State.vwriteUnits_retries (l : List (Nat × List Byte)) (d : BitVec 11) (e : Nat) :
    (s.vwriteUnits d e l).1.retries = s.retries := by
  induction l generalizing s with
  | nil => rfl
  | cons u r ih =>
    simp only [State.vwriteUnits]
    split
    · exact State.walkReady_retries _ _ _
    · rw [ih]
      simp
@[simp] theorem State.vwrite_retries (d : BitVec 11) (va : Nat) (l : List Byte) : (s.vwrite d va l).1.retries = s.retries :=
  State.vwriteUnits_retries _ _ _ _
@[simp] theorem State.vput_retries (d : BitVec 11) (va n v : Nat) : (s.vput d va n v).retries = s.retries := by
  unfold State.vput
  dsimp only
  split <;> simp

/-! #### Closure of the ends of a saved process -/

@[simp] theorem State.updRec_retries (k : Nat) (f : ChanRec → ChanRec) : (s.updRec k f).retries = s.retries := by
  unfold State.updRec
  split <;> rfl
@[simp] theorem State.putRec_retries (k : Nat) (r : ChanRec) : (s.putRec k r).retries = s.retries := rfl
@[simp] theorem State.offerSlots_retries (n : Nat) : (s.offerSlots n).retries = s.retries := by
  simp [State.offerSlots, apply_ite State.retries]
@[simp] theorem State.settle_retries (m : Msg) (b : Bool) : (s.settle m b).retries = s.retries := by
  unfold State.settle
  dsimp only
  repeat' split
  all_goals simp [State.answerSend]
@[simp] theorem State.discardMsg_retries (k : Nat) (m : Msg) : (s.discardMsg k m).retries = s.retries := by
  simp [State.discardMsg, apply_ite State.retries]
@[simp] theorem State.retireRec_retries (k : Nat) : (s.retireRec k).retries = s.retries := by
  unfold State.retireRec
  split
  · rfl
  · simp [apply_ite State.retries]
@[simp] theorem State.closeFar_retries (n : Nat) (b : W128) (counter : Option W32) (discarded : Nat) :
    (s.closeFar n b counter discarded).2.retries = s.retries := by
  unfold State.closeFar
  split <;> simp
@[simp] theorem State.closeEnd_retries (fuel n : Nat) (b : W128) (counter : Option W32) :
    (State.closeEnd fuel s n b counter).2.retries = s.retries := by
  induction fuel generalizing s n b counter with
  | zero => rfl
  | succ fuel ih =>
    simp only [State.closeEnd]
    split
    case h_1 =>
      refine (State.foldl_retries (fun t m => ?_) _ _).trans (by simp [apply_ite State.retries])
      split <;> simp [ih]
    case h_2 =>
      split
      · simp [apply_ite State.retries]
      · refine (State.retireRec_retries _ _).trans ((State.foldl_retries (fun t m => ?_) _ _).trans (by simp [apply_ite State.retries]))
        split <;> simp [ih]
@[simp] theorem State.closeInTransit_retries (n : Nat) (b : W128) : (s.closeInTransit n b).retries = s.retries :=
  State.closeEnd_retries _ _ _ _ _

/-! #### Nodes -/

@[simp] theorem State.nPut_retries (d : BitVec 11) (va off n v : Nat) : (s.nPut d va off n v).retries = s.retries :=
  State.vput_retries _ _ _ _ _
@[simp] theorem State.recordReady_retries (d : BitVec 11) (va : Nat) : (s.recordReady d va).retries = s.retries := by
  simp [State.recordReady]
@[simp] theorem State.graphReady_retries (d : BitVec 11) (va : Nat) : (s.graphReady d va).retries = s.retries := by
  unfold State.graphReady
  split <;> simp
@[simp] theorem State.dropSaved_retries (d : BitVec 11) (va : Nat) : (s.dropSaved d va).retries = s.retries := by
  simp [State.dropSaved, apply_ite State.retries]
@[simp] theorem State.writeStatus_retries (d : BitVec 11) (va : Nat) : (s.writeStatus d va).retries = s.retries := by
  unfold State.writeStatus
  split <;> simp
@[simp] theorem State.setNode_retries (d : BitVec 11) (va st : Nat) : (s.setNode d va st).retries = s.retries := by
  simp [State.setNode, apply_ite State.retries]
@[simp] theorem State.unqueue_retries (d : BitVec 11) (va : Nat) : (s.unqueue d va).retries = s.retries := rfl
@[simp] theorem State.dropExit_retries (d : BitVec 11) (va : Nat) : (s.dropExit d va).retries = s.retries := rfl
@[simp] theorem State.passOn_retries (d : BitVec 11) (va : Nat) : (s.passOn d va).retries = s.retries := by
  simp [State.passOn, apply_ite State.retries]
@[simp] theorem State.wakePreds_retries (d : BitVec 11) (va : Nat) : (s.wakePreds d va).retries = s.retries := by
  unfold State.wakePreds
  split
  · rfl
  · refine State.foldl_retries (fun t n => State.foldl_retries (fun t k => ?_) _ _) _ _
    split <;> simp
@[simp] theorem State.evalNode_retries (d : BitVec 11) (va : Nat) : (s.evalNode d va).1.retries = s.retries := by
  simp [State.evalNode, apply_ite State.retries, apply_ite Prod.fst]
@[simp] theorem State.nodeStep_retries (d : BitVec 11) (t : NodeTask) : (s.nodeStep d t).1.retries = s.retries := by
  unfold State.nodeStep
  dsimp only
  split
  · rfl
  · cases t with
    | eval va | recheck va | start va | done va | token va marks | complete va => simp [apply_ite State.retries, apply_ite Prod.fst]
@[simp] theorem State.nodes_retries (d : BitVec 11) (l : List NodeTask) : (s.nodes d l).retries = s.retries := by
  have hrun : ∀ fuel (t : State) (l : List NodeTask), (State.nodeRun fuel t d l).retries = t.retries := by
    intro fuel
    induction fuel with
    | zero => exact fun _ _ => rfl
    | succ fuel ih =>
      intro t l
      cases l with
      | nil => rfl
      | cons x r => exact (ih _ _).trans (State.nodeStep_retries t d x)
  cases l with
  | nil => exact hrun _ _ _
  | cons x r => exact (hrun _ _ _).trans (State.graphReady_retries s d x.va)
end

/-! ### NODE_RETRY (R311) -/

section
variable {dom : BitVec 11} {node : W64} {r : Retry} {s : State}
  (hr : s.retries.find? (fun r => r.domain == dom && r.node == node) = some r)
  (hst : (s.graphReady dom node.toNat).nState dom node.toNat = nRETRYING)
  (hwait : (r.waitFor.any fun m => !((s.graphReady dom node.toNat).nodeGangs dom m.toNat).isEmpty) = false)
include hr hst hwait

/-- A retry waits for the nodes of its cone that have become EARLY since. -/
theorem nodeRetry_waits (hearly : ((s.graphReady dom node.toNat).stopEarly dom node.toNat).1 ≠ []) :
    let early := (s.graphReady dom node.toNat).stopEarly dom node.toNat
    exec (.nodeRetry dom node) s = .next ({ early.2 with retries := early.2.retries.map fun x =>
      if x = r then { x with waitFor := x.waitFor ++ early.1.map fun m => BitVec.ofNat 64 m } else x } : State).checkRetries := by
  change execNodeRetry dom node s = _
  have hsome : (!((s.graphReady dom node.toNat).stopEarly dom node.toNat).1.isEmpty) = true := by simpa using hearly
  simp only [execNodeRetry, hr, hst, hwait, ne_eq, not_true_eq_false, Bool.false_eq_true, or_self, if_false, if_pos hsome]

/-- A retry that waits for no node queues its node again, and is off the list. -/
theorem nodeRetry_again (hearly : ((s.graphReady dom node.toNat).stopEarly dom node.toNat).1 = []) :
    ∃ (t : State) (q : Ready), exec (.nodeRetry dom node) s = .next (({ t with ready := t.ready ++ [q] } : State).later (.nodeDispatch q.die)) ∧
      q.domain = dom ∧ q.node = node ∧ ∀ x ∈ t.retries, ¬ (x.domain = dom ∧ x.node = node) := by
  change ∃ (t : State) (q : Ready), execNodeRetry dom node s = _ ∧ _
  unfold execNodeRetry
  extract_lets d va t q more src cone drop kept posted credits marks waits run tried again die
  have hfind : s.retries.find? (fun r => r.domain == d && r.node == node) = some r := hr
  have hgo : ¬ (t.nState d va ≠ nRETRYING ∨ (r.waitFor.any fun m => !(t.nodeGangs d m.toNat).isEmpty) = true) :=
    not_or.2 ⟨not_not.2 hst, Bool.eq_false_iff.1 hwait⟩
  have hnone : ¬ (!q.1.isEmpty) = true := by simpa using hearly
  have hu : again.retries = t.retries.filter fun x => !drop t x := by
    have hcredits : credits.retries = kept.retries := by
      refine State.foldl_retries (fun t x => ?_) _ _
      simp [apply_ite State.retries]
    have hwaits : waits.retries = kept.retries := by simp [waits, marks, apply_ite State.retries, hcredits]
    simp [again, tried, run, hwaits, kept]
  refine ⟨again, { die := die, prio := again.nGet d va 2 1 % 4, domain := d, node := node }, ?_, rfl, rfl, fun x hx hmine => ?_⟩
  · simp only [hfind, if_neg hgo, if_neg hnone]
    rfl
  · rw [hu, List.mem_filter] at hx
    simp [drop, d, hmine.1, hmine.2] at hx
end

/-! ### Requests and their limit (R291, R292, R415) -/

section
variable {g n : Nat} {x : Gang} {cancel : Bool} {r : List Nat} {s : State}

/-- A request of a gang none of whose processes has one writes `prq` on each of its cores and sets the limit. -/
theorem State.requestGang_first {cores : List Nat} (hc : (s.gangCores g).filter (fun n => (s.coreAt n).proc.faultExit.isNone) = cores)
    (hsome : cores ≠ []) (hnew : ∀ n ∈ cores, (s.coreAt n).proc.prq = 0) : s.requestGang g cancel =
      let u := (cores.foldl (fun t n => t.writePrq n cancel) s).updGang g fun y => { y with
        preempt := !cancel, saving := 0, saveFailed := false, raised := s.cyc, dueReq := none }
      let u := if s.gangDlim g = 0 then u.now (.dlimExpiry g) else u.atCycle (s.cyc + s.gangDlim g) (.dlimExpiry g)
      if cancel then u else u.later (.save g false) := by
  have hnone : ∀ k, k ≠ 0 → (cores.any fun n => bits (s.coreAt n).proc.prq 63 62 == k) = false := by
    intro k hk
    refine List.any_eq_false.2 fun n hn => ?_
    rw [hnew n hn]
    simpa [bits] using hk.symm
  have hkeep : ∀ (l : List Nat) (t : State), l.foldl (fun t _ => t) t = t := foldl_keeps id _ fun _ _ => rfl
  have hone := hnone 1 Nat.one_ne_zero
  have htwo := hnone 2 (by decide)
  have hempty : cores.isEmpty = false := by simpa using hsome
  simp only [State.requestGang, hc, hone, htwo, hempty, Bool.and_false, Bool.or_self, Bool.false_eq_true, if_false, hkeep]

theorem State.family_of_no_stage (h : s.stageOf g = none) : s.family g = [g] := by
  simp only [State.family, h]

theorem State.request_gone (h : s.gangAt g = none) : s.request g cancel = s := by
  simp only [State.request, h]

theorem State.request_held (h : s.gangAt g = some x) (hh : (s.domainAt x.domain).holds ≠ []) :
    s.request g cancel = s.updGang g fun y => { y with dueReq := some (cancel || y.dueReq.getD false) } := by
  have hhold : (!(s.domainAt x.domain).holds.isEmpty) = true := by simpa using hh
  simp only [State.request, h, if_pos hhold]

theorem State.request_now (h : s.gangAt g = some x) (hh : (s.domainAt x.domain).holds = []) (hs : s.stageOf g = none) :
    s.request g cancel = s.requestGang g cancel := by
  simp [State.request, h, hh, hs, State.family_of_no_stage hs]

variable (h : s.gangAt g = some x) (hc : (s.gangCores g).filter (fun n => (s.coreAt n).proc.faultExit.isNone) = n :: r)
  (hdue : x.raised + s.gangDlim g ≤ s.cyc)
include h hc hdue

theorem dlimExpiry_cancels (hk : bits (s.coreAt n).proc.prq 63 62 = 2) :
    exec (.dlimExpiry g) s = .next ((n :: r).foldl State.forceStop s) := by
  change execDlimExpiry g s = _
  simp only [execDlimExpiry, h, hc, hk, if_neg (not_lt.2 hdue), if_true]

theorem dlimExpiry_saves (hk : bits (s.coreAt n).proc.prq 63 62 = 1) (hs : x.saving = 0) : exec (.dlimExpiry g) s =
    .next (s.now (.save g (!((s.family g).flatMap s.gangCores).all fun n => (s.coreAt n).proc.started && s.allStopped n))) := by
  change execDlimExpiry g s = _
  simp only [execDlimExpiry, h, hc, hk, hs, if_neg (not_lt.2 hdue), OfNat.one_ne_ofNat, if_false, and_self, if_true]
end

/-! ### SAVE (R398 to R402) -/

section
variable {g : Nat} {x : Gang} {forced : Bool} {s : State}

/-- What a cooperative save waits for, as `execSave` tests it. -/
theorem State.unstopped_iff (s : State) (cores : List Nat) :
    (cores.any (fun n => !(s.coreAt n).proc.started) = true ∨ cores.all s.allStopped = false) ↔
      ¬ ((cores.all fun n => (s.coreAt n).proc.started) = true ∧ cores.all s.allStopped = true) := by
  rw [not_and_or, Bool.not_eq_true, Bool.not_eq_true, ← List.not_all_eq_any_not, Bool.not_eq_true']

/-- The stop of every process of a save, and the mark of the gangs that are being saved. -/
def State.saveBegin (s : State) (forced : Bool) (fam cores : List Nat) : State :=
  fam.foldl (fun t g => t.updGang g fun y => { y with saving := if forced then 2 else 1 }) (cores.foldl (fun t n => t.saveStop forced n) s)

variable (h : s.gangAt g = some x) (hp : x.preempt = true) (hf : x.saveFailed = false)
  (hidle : ∀ id st, s.stageOf g = some (id, st) → st.op = 0)
include h hp hf hidle

theorem save_eq {roles : List Role} {cores : List Nat} (hr : s.saveRoles (s.family g) = roles) (hc : roles.filterMap (fun r => r.core) = cores) :
    exec (.save g forced) s = .next (
      if x.saving = 0 then
        if forced = false ∧ (cores.any (fun n => !(s.coreAt n).proc.started) ∨ cores.all s.allStopped = false) then s.later (.save g forced)
        else (s.saveBegin forced (s.family g) cores).later (.save g forced)
      else if cores.all (cores.foldl State.dropRefused s).saveDrained then
        (cores.foldl State.dropRefused s).saveWriteAll g x (s.family g) roles
      else (cores.foldl State.dropRefused s).later (.save g forced)) := by
  change execSave g forced s = _
  cases hst : s.stageOf g with
  | none =>
    simp only [execSave, h, hp, hf, hr, hc, hst, State.saveBegin, Bool.not_true, Bool.or_self, Bool.false_eq_true, if_false,
      apply_ite Host.Outcome.next]
  | some p =>
    have hop : ¬ p.2.op ≠ 0 := not_not.2 (hidle p.1 p.2 hst)
    simp only [execSave, h, hp, hf, hr, hc, hst, if_neg hop, State.saveBegin, Bool.not_true, Bool.or_self, Bool.false_eq_true, if_false,
      apply_ite Host.Outcome.next]
end

/-! ### RESTORE (R403) -/

section
variable {dom : BitVec 11} {area node : W64} {y : Saved} {gg : Nat × Gang} {l : List (Nat × Gang)} {b : List Byte} {s : State}

/-- The records of a save area that can be read and are valid. -/
def State.saveRecords (s : State) (dom : BitVec 11) (area n : Nat) : List RecordImage :=
  (List.range n).filterMap fun i => s.readRecord dom (area + areaHead + i * recordSize)

/-- A save area with this header restores this node of `n` records: the save is complete, the node runs, no integrity stop holds its
domain, and every record is valid (R399, R403). -/
def State.restorable (s : State) (dom : BitVec 11) (area node n : Nat) (b : List Byte) : Prop :=
  b.take 4 = [0x44, 0x58, 0x53, 0x56] ∧ cardField b 4 2 = 1 ∧ cardField b 6 1 = 1 ∧ saveHeadOk b = true ∧ cardField b 16 8 = node ∧
    cardField b 24 2 = n ∧ (s.nState dom node = nRUNNING ∨ s.nState dom node = nEARLY) ∧ (s.domainAt dom).integrityStop = false ∧
    (s.saveRecords dom area n).length = n

/-- What `execRestore` tests before it looks for cores. -/
def State.restoreRefused (s : State) (dom : BitVec 11) (area node n : Nat) (b : List Byte) : Bool :=
  !(b.take 4 == [0x44, 0x58, 0x53, 0x56] && cardField b 4 2 == 1 && cardField b 6 1 == 1 && saveHeadOk b && cardField b 16 8 == node &&
      cardField b 24 2 == n && (s.nState dom node == nRUNNING || s.nState dom node == nEARLY)) ||
    (s.saveRecords dom area n).length != n || (s.domainAt dom).integrityStop

theorem State.restoreRefused_iff (w : State) (a v n : Nat) : w.restoreRefused dom a v n b = true ↔ ¬ w.restorable dom a v n b := by
  rw [← Bool.not_eq_false, not_iff_not]
  simp only [State.restoreRefused, State.restorable, Bool.or_eq_false_iff, Bool.not_eq_false', Bool.and_eq_true, Bool.or_eq_true, beq_iff_eq,
    bne_eq_false_iff_eq, and_assoc]
  tauto

variable {w : State} (hw : s.restoreReady dom area.toNat node.toNat = w) (hy : w.saved.find? (fun x => x.ofNode dom node.toNat) = some y)
  (hg : y.gangs = gg :: l) (hb : w.areaRead dom area.toNat 64 = some b)
include hw hy hg hb

theorem restore_eq : exec (.restore dom area node) s =
    if w.restoreRefused dom area.toNat node.toNat y.roles.length b then .next w
    else match w.bindRoles dom { gg.2.h with roles := y.roles.length } with
      | none => .next (w.later (.restore dom area node))
      | some cores => .next (w.restoreAll y area.toNat cores (w.saveRecords dom area.toNat y.roles.length)) := by
  change execRestore dom area node s = _
  simp only [execRestore, hw, hy, hb, hg] <;> rfl

theorem restore_refused (hno : ¬ w.restorable dom area.toNat node.toNat y.roles.length b) : exec (.restore dom area node) s = .next w :=
  (restore_eq hw hy hg hb).trans (if_pos ((State.restoreRefused_iff w _ _ _).2 hno))

variable (hok : w.restorable dom area.toNat node.toNat y.roles.length b)
include hok

theorem restore_waits (hc : w.bindRoles dom { gg.2.h with roles := y.roles.length } = none) :
    exec (.restore dom area node) s = .next (w.later (.restore dom area node)) := by
  rw [restore_eq hw hy hg hb, if_neg (fun h => (State.restoreRefused_iff w _ _ _).1 h hok), hc]

theorem restore_done {cores : List Nat} (hc : w.bindRoles dom { gg.2.h with roles := y.roles.length } = some cores) :
    exec (.restore dom area node) s = .next (w.restoreAll y area.toNat cores (w.saveRecords dom area.toNat y.roles.length)) := by
  rw [restore_eq hw hy hg hb, if_neg (fun h => (State.restoreRefused_iff w _ _ _).1 h hok), hc]
end

/-! ### A host's post of tokens (R275 to R278) -/

section
variable {t : TokenMsg} {s w : State}

/-- A post of type 1 that names a record's place in a live domain, and tokens (R275, R276). -/
def State.validPost (w : State) (t : TokenMsg) : Prop :=
  t.type = 1 ∧ t.reserved = false ∧ t.domain.toNat < 2048 ∧ (w.domainAt (t.domain.setWidth 11)).live = true ∧ t.count ≠ 0 ∧
    t.node.toNat % 128 = 0

/-- What `judgePost` refuses with status 2. -/
def State.malformedPost (w : State) (t : TokenMsg) : Bool :=
  t.type != 1 || t.reserved || decide (2048 ≤ t.domain.toNat) || !(w.domainAt (t.domain.setWidth 11)).live || t.count == 0 ||
    t.node.toNat % 128 != 0

theorem State.malformedPost_iff : w.malformedPost t = true ↔ ¬ w.validPost t := by
  rw [← Bool.not_eq_false, not_iff_not]
  simp [State.malformedPost, State.validPost, and_assoc]

theorem tokenPost_judged {q : Nat × State} (hq : s.judgePost t = q) :
    exec (.tokenPost t) s = .next (q.2.toHost t.source none (.ack t.source t.tag (BitVec.ofNat 8 q.1))) := by
  rw [← hq]
  rfl

variable (hw : s.walkReady (t.domain.setWidth 11) t.node.toNat = w)
include hw

theorem judgePost_eq : s.judgePost t =
    if w.bandOwner (w.nodeDie (t.domain.setWidth 11) t.node.toNat) ≠ some t.source then (1, w)
    else if w.malformedPost t then (2, w) else w.postTokens (t.domain.setWidth 11) t.node.toNat t.count.toNat := by
  rw [State.judgePost, hw]
  rfl

theorem judgePost_foreign (ho : w.bandOwner (w.nodeDie (t.domain.setWidth 11) t.node.toNat) ≠ some t.source) :
    s.judgePost t = (1, w) := (judgePost_eq hw).trans (if_pos ho)

variable (ho : w.bandOwner (w.nodeDie (t.domain.setWidth 11) t.node.toNat) = some t.source)
include ho

theorem judgePost_malformed (hv : ¬ w.validPost t) : s.judgePost t = (2, w) := by
  rw [judgePost_eq hw, if_neg (not_not.2 ho), if_pos (State.malformedPost_iff.2 hv)]

theorem judgePost_valid (hv : w.validPost t) :
    s.judgePost t = w.postTokens (t.domain.setWidth 11) t.node.toNat t.count.toNat := by
  rw [judgePost_eq hw, if_neg (not_not.2 ho), if_neg fun h => State.malformedPost_iff.1 h hv]
end

/-! ### Dispatch (R303) -/

/-- The queued nodes of a die, by priority and then by age. -/
def State.dispatchOrder (s : State) (die : Nat) : List Ready :=
  [3, 2, 1, 0].flatMap fun p => (s.ready.filter fun r => r.die == die).filter fun r => r.prio == p

section
variable {die : Nat} {s t : State}

theorem nodeDispatch_none (h : (s.dispatchOrder die).findSome? s.dispatchOne = none) : exec (.nodeDispatch die) s = .next s := by
  unfold State.dispatchOrder at h
  change execNodeDispatch die s = _
  simp only [execNodeDispatch, h]

theorem nodeDispatch_some (h : (s.dispatchOrder die).findSome? s.dispatchOne = some t) : exec (.nodeDispatch die) s =
    .next (if t.ready.any fun r => r.die == die then t.later (.nodeDispatch die) else t) := by
  unfold State.dispatchOrder at h
  change execNodeDispatch die s = _
  simp only [execNodeDispatch, h, apply_ite Host.Outcome.next]
end

/-- Settles O55: each event of a graph by the lemma of its case above. -/
theorem graphEventsComplete : Obligations.GraphEventsComplete := by
  unfold Obligations.GraphEventsComplete
  intro die g x cancel dom node area t s
  refine ⟨⟨nodeDispatch_none, fun u => nodeDispatch_some⟩, ?retry, fun h => congrArg _ (State.request_gone h),
    fun h => ⟨fun hh => congrArg _ (State.request_held h hh), ?request⟩, ?limit, ?save, ?restore, ?post⟩
  case retry =>
    intro r hr w early more hst hwait
    refine ⟨nodeRetry_waits hr hst hwait, fun hearly => ?_⟩
    obtain ⟨u, q, hu, hd, hn, hoff⟩ := nodeRetry_again hr hst hwait hearly
    exact ⟨_, hu, ⟨q, List.mem_append_right _ (List.mem_singleton_self q), hd, hn⟩, hoff⟩
  case request =>
    intro hh hs cores hsome hnew
    exact congrArg Host.Outcome.next ((State.request_now h hh hs).trans (State.requestGang_first rfl hsome hnew))
  case limit =>
    intro n r h hc hdue
    exact ⟨dlimExpiry_cancels h hc hdue, dlimExpiry_saves h hc hdue⟩
  case save =>
    intro h hp hf hidle fam roles cores stopped
    have hsave := save_eq (forced := cancel) h hp hf hidle (roles := roles) (cores := cores) rfl rfl
    have hgo := s.unstopped_iff cores
    refine ⟨fun h0 hc hs => hsave.trans ?_, fun h0 hs => hsave.trans ?_, fun h0 => hsave.trans ?_⟩
    · rw [if_pos h0, if_pos ⟨hc, hgo.2 hs⟩]
    · rw [if_pos h0, if_neg]
      · rfl
      · rintro ⟨hc, hno⟩
        rcases hs with hs | hs
        · exact absurd (hs.symm.trans hc) (by decide)
        · exact hgo.1 hno hs
    · rw [if_neg h0]
  case restore =>
    intro w y gg l b hy hg hb n recs ok
    exact ⟨restore_refused rfl hy hg hb, restore_waits rfl hy hg hb, fun hok cores => restore_done rfl hy hg hb hok⟩
  case post =>
    intro d w owns valid ack
    exact ⟨fun ho => tokenPost_judged (judgePost_foreign rfl ho), fun ho hv => tokenPost_judged (judgePost_malformed rfl ho hv),
      fun ho hv => tokenPost_judged (judgePost_valid rfl ho hv)⟩

end Sys2Proof.Machine
